-- ==== Sys2Proof/Word.lean ====
section
/-!
DEFINITION. The word types of the ZQ9 and their plainest arithmetic (spec 04_formats R61, 03_encoding R48).
-/
namespace Sys2Proof

/-- A byte of memory. -/
abbrev Byte := BitVec 8
/-- A 32-bit register. -/
abbrev Word := BitVec 32
/-- A 64-bit value, as a register pair holds it. -/
abbrev Dword := BitVec 64
/-- A W48 pattern (R63, R64). -/
abbrev W48 := BitVec 48

end Sys2Proof
end

