-- ==== Sys2Proof/Machine/Bits.lean ====
section
/-!
DEFINITION. Bit fields, sign extension and byte order (R4, R9, R27): the helpers that the pseudocode of the manual
shares.
-/
namespace Sys2Proof

/-- Bits [hi:lo] of x (R9). -/
def bitsOf (x hi lo : Nat) : Nat := x / 2 ^ lo % 2 ^ (hi + 1 - lo)

/-- The n-bit value x read as two's complement (R9). -/
def signExtend (x n : Nat) : Int := if x % 2 ^ n < 2 ^ (n - 1) then (x % 2 ^ n : Nat) else (x % 2 ^ n : Nat) - (2 ^ n : Nat)

/-- x modulo 2^n, as an n-bit pattern (R9). -/
def wrapInt (x : Int) (n : Nat) : Nat := (x % (2 ^ n : Nat)).toNat

/-- Clamp (R9). -/
def clampInt (x lo hi : Int) : Int := if x < lo then lo else if x > hi then hi else x

/-- Ceil(a / b). -/
def ceilDiv (a b : Nat) : Nat := (a + b - 1) / b

/-- A value as n little-endian bytes (R27). -/
def toBytes (n x : Nat) : List Byte := (List.range n).map fun i => BitVec.ofNat 8 (x / 2 ^ (8 * i))

/-- Little-endian bytes as a value (R27). -/
def ofBytes : List Byte → Nat
  | [] => 0
  | b :: bs => b.toNat + 256 * ofBytes bs

/-- The number of one bits of x among its n lowest. -/
def popCount : Nat → Nat → Nat
  | 0, _ => 0
  | n + 1, x => x % 2 + popCount n (x / 2)

/-- The position of the highest one bit plus one: the length of x, up to n bits. -/
def bitLen : Nat → Nat → Nat
  | 0, _ => 0
  | n + 1, x => if x = 0 then 0 else 1 + bitLen n (x / 2)

/-- The number of trailing zeros of x, at most n. -/
def trailZeros : Nat → Nat → Nat
  | 0, _ => 0
  | n + 1, x => if x % 2 = 1 then 0 else 1 + trailZeros n (x / 2)

/-- The n lowest bits of x, reversed. -/
def revBits : Nat → Nat → Nat
  | 0, _ => 0
  | n + 1, x => x % 2 * 2 ^ n + revBits n (x / 2)

/-- x rotated left by k within n bits. -/
def rotLeft (n x k : Nat) : Nat := (x * 2 ^ (k % n) + x / 2 ^ (n - k % n)) % 2 ^ n

/-- The elements of a list at which a test holds, with their positions. -/
def indexed {α : Type} (l : List α) : List (Nat × α) := (List.range l.length).zip l

/-- The sum of 2^j over the listed j. -/
def maskOf (js : List Nat) : Nat := js.foldl (fun m j => m + 2 ^ j) 0

/-- The largest of a list, 0 when empty. -/
def listMax (l : List Nat) : Nat := l.foldl Nat.max 0

/-- The first element of least key, ties to the earlier. -/
def argMin {α : Type} (key : α → Nat) : List α → Option α
  | [] => none
  | a :: l =>
    match argMin key l with
    | none => some a
    | some b => if key a ≤ key b then some a else some b

/-- Insertion of an element into a list sorted by a test. -/
def insertBy {α : Type} (le : α → α → Bool) (a : α) : List α → List α
  | [] => [a]
  | b :: l => if le a b then a :: b :: l else b :: insertBy le a l

/-- Merges two sorted lists, with fuel for their lengths. -/
def mergeBy {α : Type} (le : α → α → Bool) : Nat → List α → List α → List α
  | 0, _, _ => []
  | _ + 1, [], l => l
  | _ + 1, l, [] => l
  | n + 1, a :: k, b :: l => if le a b then a :: mergeBy le n k (b :: l) else b :: mergeBy le n (a :: k) l

/-- A stable sort by merging, with fuel for the depth. -/
def sortByFuel {α : Type} (le : α → α → Bool) : Nat → List α → List α
  | 0, l => l.foldr (insertBy le) []
  | _ + 1, [] => []
  | _ + 1, [a] => [a]
  | n + 1, l =>
    let h := l.length / 2
    mergeBy le (l.length + 1) (sortByFuel le n (l.take h)) (sortByFuel le n (l.drop h))

/-- A stable sort. -/
def sortBy {α : Type} (le : α → α → Bool) (l : List α) : List α := sortByFuel le 32 l

end Sys2Proof
end

