-- ==== Sys2Proof/Config.lean ====
section
/-!
DEFINITION. What an implementation fixes and the manual leaves open: constants with no body, so that a claim holds
whatever they are (assumption log 2 to 5).
-/
namespace Sys2Proof.Config

/-- FUSEREV of the identity word (R1): programmed in fuses, any value. -/
opaque fuseRev : Nat → BitVec 16
/-- A free number: draw n. Every choice that the manual leaves to the hardware and that the agenda does not name is drawn here. -/
opaque freeNat : Nat → Nat
/-- Whether an instruction cache has dropped the word at a physical address by a tick (R30): yes when odd. -/
opaque codeEvicted : Nat → Nat → Nat
/-- Which of the writes that race with a launch the launcher finds in the word at an address by a tick (R331). -/
opaque racingWrite : Nat → Nat → Nat
/-- Which entry of a full TLB a new one replaces, at a tick and for an address (R381, R382). -/
opaque tlbVictim : Nat → Nat → Nat
/-- The set of an L2 slice in which a 128-byte line stands (R19, R388): 1,024 sets of 16 ways make 2 MiB; taken modulo 1,024. -/
opaque l2Set : Nat → Nat
/-- The peer port over which traffic with a device of the load-store domain goes (R24, R429): 1 to 12, taken modulo 12 plus 1. -/
opaque peerPort : Nat → Nat
/-- The rollback counter in the fuses (R393). -/
opaque rollbackFuse : Nat → BitVec 32
/-- SHA3-256 of a list of bytes (R393, R394); the function is not in this manual. -/
opaque sha3 : List Nat → BitVec 256
/-- The ML-DSA-44 signature with the fused key over a digest, 2,420 bytes (R394); not in this manual. -/
opaque mlDsa : BitVec 256 → Nat → BitVec 8
/-- SHA3-256 of the running firmware image (R394). -/
opaque firmwareDigest : Nat → BitVec 256
/-- Byte n of the attestation public key at 0x3_0000 of the window (R386). -/
opaque attestKey : Nat → BitVec 8
/-- Byte n of the Crandaek certificate at 0x3_0800 of the window (R386). -/
opaque certificate : Nat → BitVec 8
/-- Whether the fuses hold an attestation key (R394): true when the value at 0 is odd. -/
opaque attestFuse : Nat → Nat
/-- Base and limit, in bytes, of firmware memory window n (R392): base at 2n, limit at 2n+1. -/
opaque firmwareWindow : Nat → Nat

end Sys2Proof.Config
end

