-- ==== Sys2Proof/Syntax.lean ====
section
/-!
DEFINITION. The syntax of the ZQ9: one constructor of `Instr` for each row of the opcode table. A row that is an
instruction takes its guard and operands; a row that is an event takes the party it concerns and the choices that the
manual leaves to the hardware or to the outside (assumption log 1).
-/
namespace Sys2Proof

/-- A core: die 0 to 3 and number, 0 to 63 in the mesh (R15), 64 + row for a quay core (R53, CORE). -/
structure CoreId where
  die : Nat
  core : Nat
  deriving DecidableEq, Repr

/-- A quadrant of a core (R17); a quay core has quadrant 0. -/
structure QuadId where
  core : CoreId
  quad : Nat
  deriving DecidableEq, Repr

/-- A point of the abstract machine (R211). A cluster point is named by the rectangle of its cluster. -/
inductive Point where
  | core (c : CoreId)
  | cluster (die corner w h : Nat)
  | die (d : Nat)
  | host
  /-- A die point of a peer device of the load-store domain. -/
  | peer (dev die : Nat)
  deriving DecidableEq, Repr

/-- A barrier (R362): team barrier b of a team, or cluster barrier b of a cluster. -/
inductive BarRef where
  | team (tm b : Nat)
  | cluster (cl b : Nat)
  deriving DecidableEq, Repr

/-- A 32-bit operand, or the base of a span (R45, R48): v, g or z. -/
inductive Opnd where
  | v (n : Fin 128)
  | g (n : Fin 64)
  | z
  deriving DecidableEq, Repr

/-- The common part of an instruction word (R40): guard, its negation, the two reuse hints. -/
structure Gd where
  p : Fin 8
  neg : Bool
  reua : Bool
  reub : Bool
  deriving DecidableEq, Repr

/-- IADD and ISUB: wrapping, signed or unsigned saturation (R86). -/
inductive SatMode where
  | wrap | ssat | usat
  deriving DecidableEq, Repr

/-- Rounding modes (R66). -/
inductive RMode where
  | rn | rz | ru | rd
  deriving DecidableEq, Repr

/-- Conditions of ISETP (R92). -/
inductive ICmp where
  | eq | ne | lt | le | gt | ge
  deriving DecidableEq, Repr

/-- Conditions of FSETP and DSETP (R92): an ordered condition, true also when unordered under `ut`; ORD; UNO. -/
inductive FCmp where
  | cmp (c : ICmp) (ut : Bool)
  | ord
  | uno
  deriving DecidableEq, Repr

/-- MERGE (R92). -/
inductive Merge where
  | set | and | or | andn
  deriving DecidableEq, Repr

/-- Type codes of CVT (R106). -/
inductive CvtTy where
  | s8 | z8 | s16 | z16 | s32 | z32 | s64 | z64 | f16 | bf16 | f32 | f64 | w48
  deriving DecidableEq, Repr

/-- Special registers (R53). -/
inductive SrdReg where
  | tidx | tidy | tidz | lane | quad | grpw | grpid | teamx | teamy | teamz | clusx | clusy | clusn
  | gridx | gridy | gridz | core | die | stage | clockl | clockh | flags
  deriving DecidableEq, Repr

/-- SHFL modes (R113). -/
inductive ShflMode where
  | abs | ofs | xor | rot
  deriving DecidableEq, Repr

/-- VOTE kinds (R113). -/
inductive VoteKind where
  | all | any | same | mask | count
  deriving DecidableEq, Repr

/-- Reductions (R113). -/
inductive RedOp where
  | add | and | or | xor | minS | minZ | maxS | maxZ
  deriving DecidableEq, Repr

/-- Scopes (R42). -/
inductive Scope where
  | core | cluster | die | system
  deriving DecidableEq, Repr

/-- Access sizes (R42). -/
inductive Size where
  | b8 | b16 | b32 | b64 | b128
  deriving DecidableEq, Repr

/-- Address, offset, stream and scope of an M-format instruction (R42). -/
structure MemArg where
  a : Opnd
  ofs : BitVec 19
  stream : Fin 16
  scope : Scope
  deriving DecidableEq, Repr

/-- Orders of an atomic (R42, R238). -/
inductive MOrd where
  | relaxed | acquire | release | acqrel
  deriving DecidableEq, Repr

/-- Atomic operations (R244); CAS carries its comparison operand. -/
inductive AtOp where
  | add | and | or | xor | minS | minZ | maxS | maxZ | xchg | cas (c : Opnd) | inc | dec | fadd | fmin | fmax
  deriving DecidableEq, Repr

/-- Operands of ATOM and ATOMV (R43, R244). -/
structure AtomArg where
  d : Opnd
  a : Opnd
  b : Opnd
  op : AtOp
  b64 : Bool
  stream : Fin 16
  scope : Scope
  ord : MOrd
  deriving DecidableEq, Repr

/-- WRAP of SMP (R250). -/
inductive WrapMode where
  | clamp | repeatW | border
  deriving DecidableEq, Repr

/-- COVER of FENCE (R253). -/
inductive Cover where
  | all | reads | writes
  deriving DecidableEq, Repr

/-- Targets of PREF (R256). -/
inductive PrefTgt where
  | l1 | l2 | excl | smp
  deriving DecidableEq, Repr

/-- FORM of MXST (R128). -/
inductive MxForm where
  | w48 | f32 | f16 | bf16
  deriving DecidableEq, Repr

/-- Fields of the copy instructions (R277). -/
structure CopyArg where
  d : Opnd
  a : Opnd
  stream : Fin 16
  scope : Scope
  rel : Bool
  deriving DecidableEq, Repr

/-- EMPTY codes (R199). -/
inductive Empty where
  | wait | zero | miss
  deriving DecidableEq, Repr

/-- Forms of TRET with RESUME or SKIP (R420). -/
inductive TretArg where
  | kernelLocal (keep : Bool)
  | quay (d a : Opnd)
  deriving DecidableEq, Repr

/-- Privileged registers (R391). -/
inductive PrivReg where
  | partid | prows | asidw | plimit | wroot | wasid | btgrant
  | asroot (c : Fin 8)
  | asasid (c : Fin 8)
  deriving DecidableEq, Repr

/-- How a copy goes on (R276, R288): up to n units, each taken in hand and written at once, in ascending order; or the unit at a
destination offset is taken in hand, whatever the order; or the k-th piece in hand is written. -/
inductive CopyStep where
  | units (n : Nat)
  | take (ofs : Nat)
  | put (k : Nat)
  deriving DecidableEq, Repr

/-- What the host or a peer does to memory (R227, R269): a read of n bytes, a write, or an atomic by its code of R244. -/
inductive PeerOp where
  | read (n : Nat)
  | write (data : List Byte)
  | atomic (op : Nat) (b64 : Bool) (b c : Nat)
  deriving DecidableEq, Repr

/-- The steps of the ZQ9: the rows of the opcode table. -/
inductive Instr where
  /-- NOP (R56): does nothing. -/
  | nop (h : Gd)
  /-- IADD (R86): integer add or subtract, wrapping or saturating. -/
  | iadd (h : Gd) (d a b : Opnd) (sat : SatMode)
  /-- IADD_I (R82): the I form. -/
  | iaddI (h : Gd) (d a : Opnd) (imm : Word)
  /-- ISUB (R86): integer add or subtract, wrapping or saturating. -/
  | isub (h : Gd) (d a b : Opnd) (sat : SatMode)
  /-- ISUB_I (R82): the I form. -/
  | isubI (h : Gd) (d a : Opnd) (imm : Word)
  /-- IMUL (R86): low product. -/
  | imul (h : Gd) (d a b : Opnd)
  /-- IMUL_I (R82): the I form. -/
  | imulI (h : Gd) (d a : Opnd) (imm : Word)
  /-- IMULH (R86): high product. -/
  | imulh (h : Gd) (d a b : Opnd) (uns : Bool)
  /-- IMAD (R86): multiply-add. -/
  | imad (h : Gd) (d a b c : Opnd)
  /-- IMADW (R86): wide multiply-add, D and C pairs. -/
  | imadw (h : Gd) (d a b c : Opnd) (uns : Bool)
  /-- IDIV (R87): quotient. -/
  | idiv (h : Gd) (d a b : Opnd) (uns : Bool)
  /-- IREM (R87): remainder. -/
  | irem (h : Gd) (d a b : Opnd) (uns : Bool)
  /-- IABS (R86): absolute value. -/
  | iabs (h : Gd) (d a : Opnd) (sat : Bool)
  /-- INEG (R86): negation. -/
  | ineg (h : Gd) (d a : Opnd) (sat : Bool)
  /-- IMIN (R86): lesser or greater. -/
  | imin (h : Gd) (d a b : Opnd) (uns : Bool)
  /-- IMIN_I (R82): the I form. -/
  | iminI (h : Gd) (d a : Opnd) (imm : Word)
  /-- IMAX (R86): lesser or greater. -/
  | imax (h : Gd) (d a b : Opnd) (uns : Bool)
  /-- IMAX_I (R82): the I form. -/
  | imaxI (h : Gd) (d a : Opnd) (imm : Word)
  /-- ICLAMP (R86): clamp. -/
  | iclamp (h : Gd) (d a b c : Opnd) (uns : Bool)
  /-- AND (R88): bitwise. -/
  | andB (h : Gd) (d a b : Opnd)
  /-- AND_I (R82): the I form. -/
  | andI (h : Gd) (d a : Opnd) (imm : Word)
  /-- OR (R88): bitwise. -/
  | orB (h : Gd) (d a b : Opnd)
  /-- OR_I (R82): the I form. -/
  | orI (h : Gd) (d a : Opnd) (imm : Word)
  /-- XOR (R88): bitwise. -/
  | xorB (h : Gd) (d a b : Opnd)
  /-- XOR_I (R82): the I form. -/
  | xorI (h : Gd) (d a : Opnd) (imm : Word)
  /-- ANDN (R88): bitwise. -/
  | andnB (h : Gd) (d a b : Opnd)
  /-- ANDN_I (R82): the I form. -/
  | andnI (h : Gd) (d a : Opnd) (imm : Word)
  /-- LOP3 (R88): three-input logic. -/
  | lop3 (h : Gd) (d a b c : Opnd) (lut : Byte)
  /-- SHL (R88): shift left. -/
  | shl (h : Gd) (d a b : Opnd)
  /-- SHL_I (R82): the I form. -/
  | shlI (h : Gd) (d a : Opnd) (imm : Word)
  /-- SHR (R88): shift right. -/
  | shr (h : Gd) (d a b : Opnd) (s : Bool)
  /-- SHR_I (R82): the I form. -/
  | shrI (h : Gd) (d a : Opnd) (imm : Word)
  /-- ROT (R88): rotate. -/
  | rot (h : Gd) (d a b : Opnd) (rt : Bool)
  /-- ROT_I (R82): the I form. -/
  | rotI (h : Gd) (d a : Opnd) (imm : Word)
  /-- SHF (R88): funnel shift. -/
  | shf (h : Gd) (d a b c : Opnd) (rt : Bool)
  /-- BFE (R89): field extract. -/
  | bfe (h : Gd) (d a b : Opnd) (s : Bool)
  /-- BFI (R89): field insert. -/
  | bfi (h : Gd) (d a b c : Opnd)
  /-- POPC (R88): bit count or reversal. -/
  | popc (h : Gd) (d a : Opnd)
  /-- CLZ (R88): bit count or reversal. -/
  | clz (h : Gd) (d a : Opnd)
  /-- CTZ (R88): bit count or reversal. -/
  | ctz (h : Gd) (d a : Opnd)
  /-- BREV (R88): bit count or reversal. -/
  | brev (h : Gd) (d a : Opnd)
  /-- PERM (R90): byte permute. -/
  | perm (h : Gd) (d a b c : Opnd)
  /-- IADD64 (R91): 64-bit add. -/
  | iadd64 (h : Gd) (d a b : Opnd)
  /-- IADD64_I (R82): the I form, immediate sign-extended. -/
  | iadd64I (h : Gd) (d a : Opnd) (imm : Word)
  /-- ISUB64 (R91): 64-bit subtract. -/
  | isub64 (h : Gd) (d a b : Opnd)
  /-- IMAD64 (R91): 64-bit multiply-add. -/
  | imad64 (h : Gd) (d a b c : Opnd)
  /-- SHL64 (R91): 64-bit shift left. -/
  | shl64 (h : Gd) (d a b : Opnd)
  /-- SHR64 (R91): 64-bit shift right. -/
  | shr64 (h : Gd) (d a b : Opnd) (s : Bool)
  /-- LEA (R91): address arithmetic. -/
  | lea (h : Gd) (d a b : Opnd) (sh : Fin 8) (s : Bool)
  /-- ISETP (R92): integer compare. -/
  | isetp (h : Gd) (p : Fin 8) (a b : Opnd) (c : ICmp) (uns : Bool) (mg : Merge)
  /-- FSETP (R92): FP32 compare. -/
  | fsetp (h : Gd) (p : Fin 8) (a b : Opnd) (c : FCmp) (mg : Merge)
  /-- DSETP (R92): FP64 compare. -/
  | dsetp (h : Gd) (p : Fin 8) (a b : Opnd) (c : FCmp) (mg : Merge)
  /-- SEL (R94): select. -/
  | sel (h : Gd) (d a b c : Opnd)
  /-- PLOP (R94): predicate logic. -/
  | plop (h : Gd) (d a b c : Fin 8) (lut : Byte)
  /-- P2V (R94): predicates to a register. -/
  | p2v (h : Gd) (d : Opnd)
  /-- V2P (R94): a register to predicates. -/
  | v2p (h : Gd) (a : Opnd) (mask : BitVec 7)
  /-- MOV (R95): move. -/
  | mov (h : Gd) (d a : Opnd) (b64 : Bool)
  /-- MOVI (R95): move an immediate. -/
  | movi (h : Gd) (d : Opnd) (imm : Word)
  /-- SRD (R96): read a special register. -/
  | srd (h : Gd) (d : Opnd) (r : SrdReg)
  /-- SRD_CLR (R96): read and clear FLAGS. -/
  | srdClr (h : Gd) (d : Opnd)
  /-- FADD (R97): FP32 add. -/
  | fadd (h : Gd) (d a b : Opnd) (rm : RMode) (na nb : Bool)
  /-- FMUL (R97): FP32 multiply. -/
  | fmul (h : Gd) (d a b : Opnd) (rm : RMode) (na nb : Bool)
  /-- FFMA (R97): FP32 fused multiply-add. -/
  | ffma (h : Gd) (d a b c : Opnd) (rm : RMode) (na nb nc : Bool)
  /-- FMIN (R99): FP32 minimum. -/
  | fmin (h : Gd) (d a b : Opnd)
  /-- FMAX (R99): FP32 maximum. -/
  | fmax (h : Gd) (d a b : Opnd)
  /-- FRND (R100): round to integral. -/
  | frnd (h : Gd) (d a : Opnd) (rm : RMode) (x : Bool)
  /-- FDIV (R98): FP32 divide. -/
  | fdiv (h : Gd) (d a b : Opnd) (rm : RMode)
  /-- FSQRT (R98): FP32 square root. -/
  | fsqrt (h : Gd) (d a : Opnd) (rm : RMode)
  /-- FRSQ (R102): transcendental, correctly rounded. -/
  | frsq (h : Gd) (d a : Opnd)
  /-- FRCP (R102): transcendental, correctly rounded. -/
  | frcp (h : Gd) (d a : Opnd)
  /-- FEX2 (R102): transcendental, correctly rounded. -/
  | fex2 (h : Gd) (d a : Opnd)
  /-- FLG2 (R102): transcendental, correctly rounded. -/
  | flg2 (h : Gd) (d a : Opnd)
  /-- FSINPI (R102): transcendental, correctly rounded. -/
  | fsinpi (h : Gd) (d a : Opnd)
  /-- FCOSPI (R102): transcendental, correctly rounded. -/
  | fcospi (h : Gd) (d a : Opnd)
  /-- FCLASS (R103): class mask. -/
  | fclass (h : Gd) (d a : Opnd)
  /-- FSCALE (R101): scale by a power of two. -/
  | fscale (h : Gd) (d a b : Opnd) (rm : RMode)
  /-- DADD (R97): FP64 add. -/
  | dadd (h : Gd) (d a b : Opnd) (rm : RMode) (na nb : Bool)
  /-- DMUL (R97): FP64 multiply. -/
  | dmul (h : Gd) (d a b : Opnd) (rm : RMode) (na nb : Bool)
  /-- DFMA (R97): FP64 fused multiply-add. -/
  | dfma (h : Gd) (d a b c : Opnd) (rm : RMode) (na nb nc : Bool)
  /-- DMIN (R99): FP64 minimum. -/
  | dmin (h : Gd) (d a b : Opnd)
  /-- DMAX (R99): FP64 maximum. -/
  | dmax (h : Gd) (d a b : Opnd)
  /-- DDIV (R98): FP64 divide. -/
  | ddiv (h : Gd) (d a b : Opnd) (rm : RMode)
  /-- DSQRT (R98): FP64 square root. -/
  | dsqrt (h : Gd) (d a : Opnd) (rm : RMode)
  /-- HADD2 (R104): packed FP16. -/
  | hadd2 (h : Gd) (d a b : Opnd) (na nb : Bool)
  /-- HMUL2 (R104): packed FP16. -/
  | hmul2 (h : Gd) (d a b : Opnd) (na nb : Bool)
  /-- HFMA2 (R104): packed FP16. -/
  | hfma2 (h : Gd) (d a b c : Opnd) (na nb nc : Bool)
  /-- HMIN2 (R104): packed FP16. -/
  | hmin2 (h : Gd) (d a b : Opnd)
  /-- HMAX2 (R104): packed FP16. -/
  | hmax2 (h : Gd) (d a b : Opnd)
  /-- BFMA2 (R104): packed BF16. -/
  | bfma2 (h : Gd) (d a b c : Opnd) (na nb nc : Bool)
  /-- BADD2 (R104): packed BF16. -/
  | badd2 (h : Gd) (d a b : Opnd) (na nb : Bool)
  /-- BMUL2 (R104): packed BF16. -/
  | bmul2 (h : Gd) (d a b : Opnd) (na nb : Bool)
  /-- IDOT4 (R105): four-byte dot product. -/
  | idot4 (h : Gd) (d a b c : Opnd) (ua ub sat : Bool)
  /-- CVT (R106): conversion. -/
  | cvt (h : Gd) (d a : Opnd) (rm : RMode) (dst src : CvtTy) (elem : Fin 4)
  /-- DXPACK (R107): encode a DX block across lanes. -/
  | dxpack (h : Gd) (d a b : Opnd) (dx4 : Bool) (dist : Fin 16)
  /-- DXUNPK (R108): decode a DX element. -/
  | dxunpk (h : Gd) (d a b : Opnd) (dx4 hi : Bool)
  /-- SHFL (R113): shuffle. -/
  | shfl (h : Gd) (d a b c : Opnd) (m : ShflMode)
  /-- VOTE (R113): vote. -/
  | vote (h : Gd) (d a b : Opnd) (k : VoteKind)
  /-- REDUX (R113): reduction. -/
  | redux (h : Gd) (d a b : Opnd) (op : RedOp)
  /-- ELECT (R113): elect the lowest member. -/
  | elect (h : Gd) (d b : Opnd)
  /-- MATCH (R113): match values. -/
  | matchL (h : Gd) (d a b : Opnd) (w64 : Bool)
  /-- SCAN (R113): scan. -/
  | scan (h : Gd) (d a b : Opnd) (op : RedOp) (excl : Bool)
  /-- RDFIRST (R113): value of the lowest member. -/
  | rdfirst (h : Gd) (d a b : Opnd) (w64 : Bool)
  /-- CROSS_LANE_COMPLETION (R111): the cross-lane waits of the threads named end, where every member awaited has arrived or exited. -/
  | crossLaneCompletion (ts : List Nat)
  /-- LD (R237): global load. -/
  | ld (h : Gd) (d : Opnd) (m : MemArg) (sz : Size) (sx acq prom : Bool)
  /-- ST (R237): global store. -/
  | st (h : Gd) (d : Opnd) (m : MemArg) (sz : Size) (rel : Bool)
  /-- LDV (R237): vault load. -/
  | ldv (h : Gd) (d : Opnd) (m : MemArg) (sz : Size) (sx acq cr : Bool)
  /-- STV (R237): vault store. -/
  | stv (h : Gd) (d : Opnd) (m : MemArg) (sz : Size) (rel cr : Bool)
  /-- LDT (R239): tagged load. -/
  | ldt (h : Gd) (d : Opnd) (m : MemArg) (sz : Size) (take acq cr : Bool)
  /-- STT (R240): tagged store. -/
  | stt (h : Gd) (d : Opnd) (m : MemArg) (sz : Size) (rel cr : Bool)
  /-- TAGOP_EMPTY (R241): set tags empty. -/
  | tagopEmpty (h : Gd) (m : MemArg) (sz : Size) (rel cr : Bool)
  /-- TAGOP_FULL (R241): set tags full. -/
  | tagopFull (h : Gd) (m : MemArg) (sz : Size) (rel cr : Bool)
  /-- ATOM (R244): global atomic. -/
  | atom (h : Gd) (x : AtomArg)
  /-- ATOMV (R244): vault atomic. -/
  | atomv (h : Gd) (x : AtomArg) (cr : Bool)
  /-- LDS (R249): load on the sampler path. -/
  | lds (h : Gd) (d : Opnd) (m : MemArg) (sz : Size) (sx : Bool)
  /-- SMP (R250): sample a surface. -/
  | smp (h : Gd) (d a b : Opnd) (lin : Bool) (wrap : WrapMode) (norm : Bool) (stream : Fin 16)
  /-- FSAMP (R252): bring the sampler view up to date. -/
  | fsamp (h : Gd) (sc : Scope)
  /-- FSAMP_COMPLETE (R224): the FSAMP of thread t completes. -/
  | fsampComplete (t : Nat)
  /-- FENCE (R253): start a fence. -/
  | fence (h : Gd) (k : Fin 8) (sc : Scope) (scFence : Bool) (cover : Cover)
  /-- FWAIT (R254): wait for a fence. -/
  | fwait (h : Gd) (k : Fin 8)
  /-- FWAIT_COMPLETE (R219): the FWAIT of thread t completes. -/
  | fwaitComplete (t : Nat)
  /-- FJOIN (R255): join streams. -/
  | fjoin (h : Gd) (mask : BitVec 16)
  /-- PREF (R256): prefetch. -/
  | pref (h : Gd) (a : Opnd) (ofs : BitVec 19) (tgt : PrefTgt)
  /-- CWB (R257): write back a line. -/
  | cwb (h : Gd) (m : MemArg) (inv : Bool)
  /-- CINV_ICACHE (R258): drop instruction-cache words. -/
  | cinvIcache (h : Gd) (a : Opnd) (ofs : BitVec 19)
  /-- CINV_DISCARD (R258): drop a poisoned line. -/
  | cinvDiscard (h : Gd) (a : Opnd) (ofs : BitVec 19)
  /-- PERFORM (R216): part `part` of access `acc` performs. -/
  | perform (acc part : Nat)
  /-- PROPAGATE (R213): the view of a point takes write w. -/
  | propagate (w : Nat) (pt : Point)
  /-- ADVANCE (R224): the n-th waiting sampler fill advances the sampler view of its core. -/
  | advance (n : Nat)
  /-- PUBLISH (R226): a CPUB operation publishes the pending set of its region. -/
  | publish (op : Nat)
  /-- BARRIER (R221): the phase of a barrier completes. -/
  | barrier (b : BarRef)
  /-- SC (R220): the SC step of the FWAIT of thread t. -/
  | scStep (t : Nat)
  /-- MXLD (R129): load a parameter slot. -/
  | mxld (h : Gd) (a : Opnd) (slot : Fin 4)
  /-- MXRUN (R130): run a matrix product. -/
  | mxrun (h : Gd) (t : Fin 8) (slot : Fin 4) (acc : Bool)
  /-- MXZ (R131): zero a tile. -/
  | mxz (h : Gd) (t : Fin 8)
  /-- MXST (R133): store a tile. -/
  | mxst (h : Gd) (t : Fin 8) (a : Opnd) (form : MxForm) (relu : Bool) (scale : Option Opnd)
  /-- MXLDA (R132): load a tile. -/
  | mxlda (h : Gd) (t : Fin 8) (a : Opnd) (f32 : Bool)
  /-- MXQRY_OCC (R134): engine occupancy. -/
  | mxqryOcc (h : Gd) (d : Opnd)
  /-- MXQRY_EST (R134): completion estimate. -/
  | mxqryEst (h : Gd) (d : Opnd)
  /-- MXLD_OPERATION (R129): the MXLD at the head of the queue of context cx completes. -/
  | mxldOperation (cx : Nat)
  /-- MXRUN_OPERATION (R130): the MXRUN at the head of the queue takes up to n roundings, and completes after the last. -/
  | mxrunOperation (cx n : Nat)
  /-- MXZ_OPERATION (R131): the MXZ at the head of the queue completes. -/
  | mxzOperation (cx : Nat)
  /-- MXST_OPERATION (R133): the MXST at the head of the queue takes up to n roundings, and completes after the last. -/
  | mxstOperation (cx n : Nat)
  /-- MXLDA_OPERATION (R132): the MXLDA at the head of the queue completes. -/
  | mxldaOperation (cx : Nat)
  /-- CPY (R277): issue a copy. -/
  | cpy (h : Gd) (x : CopyArg)
  /-- CPYS (R277): issue a copy. -/
  | cpys (h : Gd) (x : CopyArg)
  /-- CPYB (R277): issue a copy. -/
  | cpyb (h : Gd) (x : CopyArg)
  /-- CPYX (R277): issue a copy. -/
  | cpyx (h : Gd) (x : CopyArg)
  /-- CFILL (R280): issue a fill. -/
  | cfill (h : Gd) (x : CopyArg) (b : Opnd)
  /-- CSEAL (R290): seal a batch. -/
  | cseal (h : Gd) (k : Fin 8)
  /-- CWAIT (R291): wait for batches. -/
  | cwait (h : Gd) (n : Fin 64)
  /-- CPROM (R292): read the promise of a batch. -/
  | cprom (h : Gd) (d : Opnd) (k : Fin 8)
  /-- CPROM_STAT (R292): read the status of a batch. -/
  | cpromStat (h : Gd) (d : Opnd) (k : Fin 8)
  /-- CPUB (R299): publish a shadow region. -/
  | cpub (h : Gd) (d : Opnd) (sh : Fin 8)
  /-- CSHAD (R297): arm a shadow region. -/
  | cshad (h : Gd) (sh : Fin 8) (a b : Opnd)
  /-- CSHAD_OFF (R297): disarm a shadow region. -/
  | cshadOff (h : Gd) (d : Opnd) (sh : Fin 8)
  /-- COPY_ADMISSION (R277): an issued copy operation is admitted into a free slot. -/
  | copyAdmission (op : Nat)
  /-- COPY_START (R286): an admitted copy moves up to n further units. -/
  | copyStart (op : Nat) (how : CopyStep)
  /-- COPY_COMPLETE (R289): a copy completes. -/
  | copyComplete (op : Nat)
  /-- SHADOW_DISARM (R297): a CSHAD.OFF operation disarms its region. -/
  | shadowDisarm (op : Nat)
  /-- FOPEN (R200): open a field slot. -/
  | fopen (h : Gd) (d a : Opnd) (s : Fin 64)
  /-- FST (R201): store a field entry. -/
  | fst (h : Gd) (a b : Opnd) (s : Fin 64)
  /-- FSEAL (R202): seal a field slot. -/
  | fseal (h : Gd) (s : Fin 64)
  /-- FCOMP (R203): compose a field. -/
  | fcomp (h : Gd) (a : Opnd) (src dst : Fin 64) (hops : Fin 16) (em : Empty)
  /-- FINV (R204): invalidate a field. -/
  | finv (h : Gd) (s : Fin 64)
  /-- FREL (R205): release a field slot. -/
  | frel (h : Gd) (s : Fin 64)
  /-- FQRY (R206): query a slot. -/
  | fqry (h : Gd) (d : Opnd) (s : Fin 64)
  /-- FQRY_ANC (R206): query an ancestry mask. -/
  | fqryAnc (h : Gd) (d : Opnd) (s : Fin 64)
  /-- HLD (R207): history load. -/
  | hld (h : Gd) (d a : Opnd) (s : Fin 64) (hops : Fin 16) (em : Empty) (pred : Option (Fin 8))
  /-- HRES (R207): history resolve. -/
  | hres (h : Gd) (d a : Opnd) (s : Fin 64) (hops : Fin 16) (em : Empty) (pred : Option (Fin 8))
  /-- FOPEN_INSTALL (R190): an FOPEN operation installs its descriptor or fails. -/
  | fopenInstall (op : Nat)
  /-- FSEAL_ACK (R202): the table acknowledges an FSEAL. -/
  | fsealAck (op : Nat)
  /-- FCOMP_COMPLETE (R189): an FCOMP fills the cells named, and completes once every cell is filled. -/
  | fcompComplete (op : Nat) (cells : List Nat)
  /-- FINV_RETIRE_POINT (R191): the retire point of an FINV. -/
  | finvRetirePoint (op : Nat)
  /-- FINV_COMPLETE (R191): an FINV completes. -/
  | finvComplete (op : Nat)
  /-- FREL_COMPLETE (R193): an FREL completes. -/
  | frelComplete (op : Nat)
  /-- WALK_REREAD (R185): a walk reads, or reads again, the entry or texel at which it stands. -/
  | walkReread (w : Nat)
  /-- WALK_END (R188): a walk that has no more to read ends. -/
  | walkEnd (w : Nat)
  /-- SPVIEW (R167): load the view table. -/
  | spview (h : Gd) (a b : Opnd)
  /-- SPBEGIN (R168): open a pass. -/
  | spbegin (h : Gd) (a : Opnd) (q : Option (Fin 8))
  /-- SPSUB (R169): submit primitives. -/
  | spsub (h : Gd) (a b : Opnd)
  /-- SPEND (R170): end a pass. -/
  | spend (h : Gd)
  /-- SPEND_ABORT (R170): abort a pass. -/
  | spendAbort (h : Gd)
  /-- SPBWD (R171): replay backward. -/
  | spbwd (h : Gd) (a b : Opnd)
  /-- SPRED (R172): reduce gradients. -/
  | spred (h : Gd) (a b : Opnd)
  /-- SPQRY (R173): query the splat units. -/
  | spqry (h : Gd) (d : Opnd)
  /-- SPVIEW_OPERATION (R167): the SPVIEW at the head of the SPL queue of context cx runs. -/
  | spviewOperation (cx : Nat)
  /-- SPBEGIN_OPERATION (R168): the SPBEGIN at the head of the SPL queue of context cx runs. -/
  | spbeginOperation (cx : Nat)
  /-- SPSUB_OPERATION (R169): the SPSUB at the head of the SPL queue of context cx runs. -/
  | spsubOperation (cx : Nat)
  /-- SPEND_OPERATION (R170): the SPEND at the head of the SPL queue of context cx runs. -/
  | spendOperation (cx : Nat)
  /-- SPEND_ABORT_OPERATION (R170): the SPEND_ABORT at the head of the SPL queue of context cx runs. -/
  | spendAbortOperation (cx : Nat)
  /-- SPBWD_OPERATION (R171): the SPBWD at the head of the SPL queue of context cx runs. -/
  | spbwdOperation (cx : Nat)
  /-- SPRED_OPERATION (R172): the SPRED at the head of the SPL queue of context cx runs. -/
  | spredOperation (cx : Nat)
  /-- TILE_RECORD_PUSH (R158): the n-th finished tile still unannounced pushes its record. -/
  | tileRecordPush (cx n : Nat)
  /-- BRA (R355): branch. -/
  | bra (h : Gd) (imm : Word)
  /-- BRX (R355): branch to a register. -/
  | brx (h : Gd) (a : Opnd)
  /-- CALL (R355): call. -/
  | call (h : Gd) (d : Opnd) (imm : Word)
  /-- RET (R355): return. -/
  | ret (h : Gd) (a : Opnd)
  /-- EXIT (R357): end the thread. -/
  | exit (h : Gd)
  /-- WAITC (R358): wait on the counters. -/
  | waitc (h : Gd) (wl ws wc wt : Fin 16)
  /-- SLEEP (R359): sleep for cycles. -/
  | sleep (h : Gd) (n : Word)
  /-- SLEEP_DEADLINE (R359): the sleep deadline of thread t is reached. -/
  | sleepDeadline (t : Nat)
  /-- SLEEPU (R360): sleep until a promise. -/
  | sleepu (h : Gd) (k : Fin 8)
  /-- MISSED_PROMISE (R293): the promise awaited by thread t passes with its batch unfinished. -/
  | missedPromise (t : Nat)
  /-- YIELD (R361): yield issue. -/
  | yieldI (h : Gd)
  /-- BAR (R363): team barrier. -/
  | bar (h : Gd) (b : Fin 16)
  /-- ARRIVE (R364): arrive at a cluster barrier. -/
  | arrive (h : Gd) (k : Fin 8) (b : Fin 4)
  /-- BWAIT (R365): wait at a cluster barrier. -/
  | bwait (h : Gd) (k : Fin 8)
  /-- QPUSH (R367): push a record. -/
  | qpush (h : Gd) (q : Fin 8) (a : Opnd) (sc : Scope)
  /-- QPOP (R368): pop a record. -/
  | qpop (h : Gd) (d : Opnd) (q : Fin 8) (st : Opnd) (sc : Scope)
  /-- QTRY (R369): try to pop a record. -/
  | qtry (h : Gd) (d : Opnd) (q : Fin 8) (st : Opnd) (sc : Scope)
  /-- QCLOSE (R370): close a queue. -/
  | qclose (h : Gd) (q : Fin 8)
  /-- QQRY (R371): query a queue. -/
  | qqry (h : Gd) (d : Opnd) (q : Fin 8)
  /-- BKPT (R374): breakpoint. -/
  | bkpt (h : Gd) (imm : Word)
  /-- PUSH_QUEUE_STEP (R367): the queue step of a push or of a close. -/
  | pushQueueStep (acc : Nat)
  /-- STAGE_TIMER_EXPIRY (R339): the timer of a stage passes for its oldest record. -/
  | stageTimerExpiry (gang st : Nat)
  /-- BIN_LAUNCH (R340): a due stage launches a group. -/
  | binLaunch (gang st : Nat)
  /-- CADENCE_BOUNDARY (R343): a cadence boundary of a gang. -/
  | cadenceBoundary (gang : Nat)
  /-- TRAP (R419): trap. -/
  | trap (h : Gd) (imm : Word)
  /-- TRET_RESUME (R420): return from a trap, resuming. -/
  | tretResume (h : Gd) (x : TretArg)
  /-- TRET_SKIP (R420): return from a trap, skipping. -/
  | tretSkip (h : Gd) (x : TretArg)
  /-- TRET_RETRY (R420): dispose of a held record. -/
  | tretRetry (h : Gd) (d a : Opnd)
  /-- TRET_FAIL (R420): dispose of a held record. -/
  | tretFail (h : Gd) (d a : Opnd)
  /-- TRET_KILL (R420): dispose of a held record. -/
  | tretKill (h : Gd) (d a : Opnd)
  /-- TRET_ASSIST (R420): answer an assist. -/
  | tretAssist (h : Gd) (d a b c : Opnd)
  /-- SWR (R391): write a privileged register. -/
  | swr (h : Gd) (r : PrivReg) (a : Opnd)
  /-- SRDP (R391): read a privileged register. -/
  | srdp (h : Gd) (d : Opnd) (r : PrivReg)
  /-- TLBI_VA (R383): invalidate a page. -/
  | tlbiVa (h : Gd) (a b : Opnd)
  /-- TLBI_ASID (R383): invalidate an address space. -/
  | tlbiAsid (h : Gd) (b : Opnd)
  /-- TLBI_ALL (R383): invalidate a partition. -/
  | tlbiAll (h : Gd)
  /-- TLBI_COMPLETE (R384): a TLBI invalidates its entries, and completes once the accesses awaited are done. -/
  | tlbiComplete (op : Nat)
  /-- SPLIT (R385): splinter a large page. -/
  | split (h : Gd) (d a b : Opnd) (cont : Bool)
  /-- LAUNCH (R373): launch work. -/
  | launch (h : Gd) (d a : Opnd) (ch : Fin 8)
  /-- LAUNCH_RESULT (R373): the check of the LAUNCH of thread t is done. -/
  | launchResult (t : Nat)
  /-- ATTEST (R394): attest. -/
  | attest (h : Gd) (d a b : Opnd)
  /-- ATTEST_COMPLETE (R394): the signing unit answers thread t. -/
  | attestComplete (t : Nat)
  /-- OLOGR_NEXT (R421): take the next record. -/
  | ologrNext (h : Gd) (d : Opnd)
  /-- OLOGR_OPND (R421): read an operand-log entry. -/
  | ologrOpnd (h : Gd) (d a : Opnd)
  /-- FAULT_RECORD_QUEUED (R404): the n-th waiting record enters the fault queue of its quay core. -/
  | faultRecordQueued (n : Nat)
  /-- CLAUSE_START (R319): the ready threads ts of a quadrant start a clause. -/
  | clauseStart (q : QuadId) (ts : List Nat)
  /-- CONTINUATION_START (R354): threads ts of a quadrant start a continuation. -/
  | continuationStart (q : QuadId) (ts : List Nat)
  /-- PENDING_TIMEOUT (R322): a pending group that has waited 2048 cycles takes a place in the active set. -/
  | pendingTimeout (grp : Nat)
  /-- DOORBELL (R309): the host writes the doorbell of a channel. -/
  | doorbell (p ch : Nat)
  /-- CLUSTER_PLACE (R314): the launcher places the next cluster of launch l, or pre-empts for it. -/
  | clusterPlace (l : Nat)
  /-- GANG_PLACE (R332): the launcher places gang l, or pre-empts for it. -/
  | gangPlace (l : Nat)
  /-- DRAIN_LIMIT_EXPIRY (R416): the drain limit of launch l passes. -/
  | drainLimitExpiry (l : Nat)
  /-- SHADOW_CONTEXT_SWITCH (R414): a core switches from its running context to context cx, or to a new one. -/
  | shadowContextSwitch (c : CoreId) (cx : Option Nat)
  /-- CONTEXT_RESTORE (R415): a context switched out for a pre-empting launch, or saved by force, is restored. -/
  | contextRestore (cx : Nat)
  /-- TEAM_END (R314): a team whose threads have all exited ends. -/
  | teamEnd (tm : Nat)
  /-- GRID_END (R311): a grid or a gang ends. -/
  | gridEnd (l : Nat)
  /-- RUN (R387): the host writes RUN. -/
  | run (p : Nat)
  /-- HALT (R417): the host writes HALT. -/
  | halt (p : Nat)
  /-- PARTITION_HALTED (R417): a halting partition is halted and its image saved. -/
  | partitionHalted (p : Nat)
  /-- PLIMIT (R386): the host sets, or firmware lowers, the power limit. -/
  | plimit (host : Bool) (w : Nat)
  /-- CONFIG_REGISTER_WRITE (R386): the host writes 8 bytes of the configuration window. -/
  | configRegisterWrite (ofs : Nat) (val : Dword)
  /-- HOME_READ_REQUEST (R262): a cache asks the home slice for a block to read. -/
  | homeReadRequest (die blk : Nat) (c : CoreId)
  /-- HOME_OWNERSHIP_REQUEST (R262): a cache asks the home slice for ownership of a block. -/
  | homeOwnershipRequest (die blk : Nat) (c : CoreId)
  /-- HOME_WRITE_BACK (R262): the owner of a block writes it back. -/
  | homeWriteBack (die blk : Nat) (c : CoreId)
  /-- PROBE (R265): the n-th control message in flight reaches its destination: a probe, a recall, a rebuild message. -/
  | probe (n : Nat)
  /-- DROP_NOTICE (R263): a cache drops a clean block. -/
  | dropNotice (die blk : Nat) (c : CoreId)
  /-- SIGNATURE_REBUILD (R266): a core rebuilds its signature. -/
  | signatureRebuild (c : CoreId)
  /-- DIRECTORY_REQUEST (R267): a die, the host or a peer asks the home directory for a block. -/
  | directoryRequest (blk who : Nat) (own : Bool)
  /-- PROMOTE (R274): a promote message makes a core take ownership for the writes in its gather buffer before w. -/
  | promote (c : CoreId) (w : Nat)
  /-- RESET (R393): the module is reset and booted. -/
  | reset (fail : Nat) (dies : BitVec 4) (rbver : Word)
  /-- CORRECTED_ERROR (R424): a corrected error. -/
  | correctedError (place die unit : Nat)
  /-- POISON (R425): an uncorrectable error poisons a unit. -/
  | poison (place addr : Nat)
  /-- FLIT_RETRY (R429): a flit of link l is received, or fails its check and is sent again. -/
  | flitRetry (l : Nat) (ok : Bool)
  /-- LINK_RETRAIN (R429): firmware asks for a retrain of link l. -/
  | linkRetrain (l : Nat)
  /-- LINK_DOWN (R430): link l is found down. -/
  | linkDown (l : Nat)
  /-- DIE_FAILURE (R431): firmware declares a die failed. -/
  | dieFailure (d : Nat)
  /-- AGEING_ESTIMATE (R436): firmware writes the ageing estimate of a die. -/
  | ageingEstimate (d hours margin : Nat)
  /-- PROBE_ACKNOWLEDGEMENT (R262): the n-th acknowledgement in flight reaches the slice, directory or core that awaits it. -/
  | probeAcknowledgement (n : Nat)
  /-- GRANT (R262): the n-th grant in flight reaches its cache, or the slice that asked the directory. -/
  | grant (n : Nat)
  /-- PEER_ACCESS (R269): the host (64) or a peer accesses memory of the module. -/
  | peerAccess (who : Nat) (op : PeerOp) (pa : Nat)
  /-- RETRAIN_COMPLETE (R429): a retrain of link l ends. -/
  | retrainComplete (l : Nat) (ok : Bool)
  /-- DOWN_LINK_TIMEOUT (R430): an access that needs a down link ends. -/
  | downLinkTimeout (acc : Nat)
  /-- REGISTER_FILE_ERROR (R423): an uncorrectable error in register vr of thread t. -/
  | registerFileError (t r : Nat)
  /-- SALVAGE_COPY (R433): recovery firmware copies a block of a failed die to host memory. -/
  | salvageCopy (blk dst : Nat)
  /-- FIRMWARE_MEMORY_WRITE (R392): firmware writes memory. -/
  | firmwareMemoryWrite (pa : Nat) (data : List Byte)
  deriving DecidableEq, Repr

end Sys2Proof
end

