-- ==== Sys2Proof/WellFormed.lean ====
section
/-!
DEFINITION. Which terms of the syntax are instructions of the ZQ9: the alignment and extent of register spans (R48) and
the reserved combinations that the types of the syntax do not exclude.
-/
namespace Sys2Proof

/-- A span of n registers from the operand is aligned and stays in its file (R48); z reads as zero in every part. -/
def Opnd.spanOk (n : Nat) : Opnd → Bool
  | .v r => r.val % (if n ≤ 1 then 1 else if n = 2 then 2 else 4) == 0 && decide (r.val + n ≤ 128)
  | .g r => r.val % (if n ≤ 1 then 1 else if n = 2 then 2 else 4) == 0 && decide (r.val + n ≤ 64)
  | .z => true

/-- The operand is a g register. -/
def Opnd.isG : Opnd → Bool
  | .g _ => true
  | _ => false

/-- Bytes of a size (R42). -/
def Size.bytes : Size → Nat
  | .b8 => 1 | .b16 => 2 | .b32 => 4 | .b64 => 8 | .b128 => 16

/-- Registers of a size (R234). -/
def Size.regs : Size → Nat
  | .b64 => 2 | .b128 => 4 | _ => 1

/-- Registers of a type of CVT (R106). -/
def CvtTy.regs : CvtTy → Nat
  | .s64 => 2 | .z64 => 2 | .f64 => 2 | .w48 => 2 | _ => 1

/-- Elements of a source type of CVT in one register (R106). -/
def CvtTy.elems : CvtTy → Nat
  | .s8 => 4 | .z8 => 4 | .s16 => 2 | .z16 => 2 | .f16 => 2 | .bf16 => 2 | _ => 1

/-- Registers of a VOTE result (R113). -/
def VoteKind.regs : VoteKind → Nat
  | .mask => 2 | _ => 1

/-- Registers of a privileged register (R391). -/
def PrivReg.regs : PrivReg → Nat
  | .wroot => 2 | .asroot _ => 2 | _ => 1

/-- Privileged registers that SWR may not write (R391). -/
def PrivReg.readOnly : PrivReg → Bool
  | .partid => true | .prows => true | .asidw => true | .plimit => true | _ => false

/-- The code of a scope (R42). -/
def Scope.code : Scope → Nat
  | .core => 0 | .cluster => 1 | .die => 2 | .system => 3

/-- Operands of an atomic (R244): B64 takes pairs, INC and DEC are of B32 only. -/
def AtomArg.wf (glob : Bool) (x : AtomArg) : Bool :=
  let n := if x.b64 then 2 else 1
  x.d.spanOk n && x.b.spanOk n && x.a.spanOk (if glob then 2 else 1) &&
    match x.op with
    | .cas c => c.spanOk n
    | .inc => !x.b64
    | .dec => !x.b64
    | _ => true

/-- Well-formed instructions. Events are well-formed. -/
def Instr.wf : Instr → Bool
  | .imadw _ d _ _ c _ => d.spanOk 2 && c.spanOk 2
  | .iadd64 _ d a b => d.spanOk 2 && a.spanOk 2 && b.spanOk 2
  | .iadd64I _ d a _ => d.spanOk 2 && a.spanOk 2
  | .isub64 _ d a b => d.spanOk 2 && a.spanOk 2 && b.spanOk 2
  | .imad64 _ d a b c => d.spanOk 2 && a.spanOk 2 && b.spanOk 2 && c.spanOk 2
  | .shl64 _ d a _ => d.spanOk 2 && a.spanOk 2
  | .shr64 _ d a _ _ => d.spanOk 2 && a.spanOk 2
  | .lea _ d a _ _ _ => d.spanOk 2 && a.spanOk 2
  | .dsetp _ _ a b _ _ => a.spanOk 2 && b.spanOk 2
  | .mov _ d a b64 => let n := if b64 then 2 else 1; d.spanOk n && a.spanOk n
  | .dadd _ d a b _ _ _ => d.spanOk 2 && a.spanOk 2 && b.spanOk 2
  | .dmul _ d a b _ _ _ => d.spanOk 2 && a.spanOk 2 && b.spanOk 2
  | .dfma _ d a b c _ _ _ _ => d.spanOk 2 && a.spanOk 2 && b.spanOk 2 && c.spanOk 2
  | .dmin _ d a b => d.spanOk 2 && a.spanOk 2 && b.spanOk 2
  | .dmax _ d a b => d.spanOk 2 && a.spanOk 2 && b.spanOk 2
  | .ddiv _ d a b _ => d.spanOk 2 && a.spanOk 2 && b.spanOk 2
  | .dsqrt _ d a _ => d.spanOk 2 && a.spanOk 2
  | .cvt _ d a _ dst src elem => d.spanOk dst.regs && a.spanOk src.regs && decide (elem.val < src.elems)
  | .dxpack _ _ _ b _ dist => b.spanOk 2 && dist.val != 0
  | .dxunpk _ _ _ _ dx4 hi => dx4 || !hi
  | .shfl _ _ _ b _ _ => b.spanOk 2
  | .vote _ d _ b k => d.spanOk k.regs && b.spanOk 2
  | .redux _ _ _ b _ => b.spanOk 2
  | .elect _ _ b => b.spanOk 2
  | .matchL _ d a b w64 => d.spanOk 2 && a.spanOk (if w64 then 2 else 1) && b.spanOk 2
  | .scan _ _ _ b _ _ => b.spanOk 2
  | .rdfirst _ d a b w64 => let n := if w64 then 2 else 1; d.spanOk n && a.spanOk n && b.spanOk 2
  | .ld _ d m sz sx acq prom =>
      d.spanOk sz.regs && m.a.spanOk 2 && (!sx || decide (sz.bytes < 4)) && (!prom || (acq && decide (2 ≤ m.scope.code)))
  | .st _ d m sz _ => d.spanOk sz.regs && m.a.spanOk 2
  | .ldv _ d _ sz sx _ _ => d.spanOk sz.regs && (!sx || decide (sz.bytes < 4))
  | .stv _ d _ sz _ _ => d.spanOk sz.regs
  | .ldt _ d _ sz _ _ _ => d.spanOk sz.regs && decide (4 ≤ sz.bytes)
  | .stt _ d _ sz _ _ => d.spanOk sz.regs && decide (4 ≤ sz.bytes)
  | .tagopEmpty _ _ sz _ _ => decide (4 ≤ sz.bytes)
  | .tagopFull _ _ sz _ _ => decide (4 ≤ sz.bytes)
  | .atom _ x => x.wf true
  | .atomv _ x _ => x.wf false
  | .lds _ d m sz sx => d.spanOk sz.regs && m.a.spanOk 2 && m.scope == .core && (!sx || decide (sz.bytes < 4))
  | .smp _ _ a b _ _ _ _ => a.spanOk 2 && b.spanOk 2
  | .fence _ _ sc scFence cover => !scFence || (sc == .system && cover == .all)
  | .fjoin _ mask => mask != 0
  | .pref _ a _ _ => a.spanOk 2
  | .cwb _ m _ => m.a.spanOk 2 && decide (2 ≤ m.scope.code)
  | .cinvIcache _ a _ => a.spanOk 2
  | .cinvDiscard _ a _ => a.spanOk 2
  | .mxld _ a _ => a.spanOk 8 && !a.isG
  | .mxqryEst _ d => d.spanOk 2
  | .cpy _ x => x.d.spanOk 2 && x.a.spanOk 2
  | .cpys _ x => x.d.spanOk 2 && x.a.spanOk 2
  | .cpyb _ x => x.d.spanOk 2 && x.a.spanOk 2
  | .cpyx _ x => x.d.spanOk 2 && x.a.spanOk 2
  | .cfill _ x _ => x.d.spanOk 2 && x.a.spanOk 2
  | .cprom _ d _ => d.spanOk 2
  | .cpub _ d _ => d.spanOk 2
  | .cshad _ _ a _ => a.spanOk 2
  | .cshadOff _ d _ => d.spanOk 2
  | .fopen _ _ a _ => a.spanOk 2
  | .fcomp _ a _ _ hops _ => a.spanOk 2 && decide (hops.val ≤ 8)
  | .fqry _ d _ => d.spanOk 2
  | .fqryAnc _ d _ => d.spanOk 2
  | .hld _ d a _ hops _ _ => !d.isG && a.spanOk 2 && decide (hops.val ≤ 8)
  | .hres _ d a _ hops _ _ => d.spanOk 4 && !d.isG && a.spanOk 2 && decide (hops.val ≤ 8)
  | .spview _ a _ => a.spanOk 2
  | .spbegin _ a _ => a.spanOk 2
  | .spsub _ a _ => a.spanOk 2
  | .spbwd _ a b => a.spanOk 2 && b.spanOk 2
  | .spred _ a b => a.spanOk 2 && b.spanOk 2
  | .brx _ a => a.spanOk 2
  | .call _ d _ => d.spanOk 2 && !d.isG
  | .ret _ a => a.spanOk 2
  | .qpush _ _ a _ => !a.isG
  | .qpop _ d _ _ _ => !d.isG
  | .qtry _ d _ _ _ => !d.isG
  | .qqry _ d _ => d.spanOk 2
  | .tretResume _ (.quay _ a) => a.spanOk 2
  | .tretSkip _ (.quay _ a) => a.spanOk 2
  | .tretRetry _ _ a => a.spanOk 2
  | .tretFail _ _ a => a.spanOk 2
  | .tretKill _ _ a => a.spanOk 2
  | .tretAssist _ _ a b _ => a.spanOk 2 && b.spanOk 2
  | .swr _ r a => a.spanOk r.regs && !r.readOnly
  | .srdp _ d r => d.spanOk r.regs
  | .tlbiVa _ a _ => a.spanOk 2
  | .split _ _ a b _ => a.spanOk 2 && b.spanOk 2
  | .launch _ d a _ => d.spanOk 2 && !d.isG && a.spanOk 2
  | .attest _ _ a b => a.spanOk 2 && b.spanOk 2
  | .ologrNext _ d => d.spanOk 8 && !d.isG
  | .ologrOpnd _ d a => d.spanOk 8 && !d.isG && a.spanOk 2
  | _ => true

end Sys2Proof
end

