-- ==== Sys2Proof/Decode.lean ====
section
/-!
DEFINITION. Decoding of clause headers and instruction words, total on every 64-bit word, with the checks of R57 in
the order of R58 as far as the word alone decides them, and after it the encoder, from the same tables of the spec
(03_encoding R31, R40 to R58 and the instruction chapters).
-/
namespace Sys2Proof

/-- Why a word is no instruction: all raise cause 0x02 (R57). -/
inductive Reject where
  /-- an opcode that R56 does not assign -/
  | unassignedOpcode
  /-- a format that the opcode does not accept -/
  | badFormat
  /-- a reserved operand byte, or an operand of a kind not accepted (R46) -/
  | badOperand
  /-- a predicate field above 7 (R47), or a special-register number not listed (R53) -/
  | badNumber
  /-- a reserved value of a defined field -/
  | reservedValue
  /-- a span that is misaligned or runs past the register file (R48) -/
  | badSpan
  deriving DecidableEq, Repr

/-- What a word decodes to: an instruction; an instruction with a nonzero unused field (cause 0x03 after every check
of cause 0x02, R58); nothing (cause 0x02). -/
inductive Dec where
  | ok (i : Instr)
  | reserved (i : Instr)
  | bad (r : Reject)
  deriving DecidableEq, Repr

namespace Code

/-- Bits [hi:lo] of a word. -/
def fb (w hi lo : Nat) : Nat := w / 2 ^ lo % 2 ^ (hi + 1 - lo)

/-- A decoded instruction, or the trap of its unused fields. -/
def fin (r : Except Reject Instr) (unused : Nat) : Dec :=
  match r with
  | .ok i => if unused = 0 then .ok i else .reserved i
  | .error e => .bad e

/-- A v, g or z operand (R45). -/
def o32 (b : Nat) : Except Reject Opnd :=
  if h : b < 128 then .ok (.v ⟨b, h⟩)
  else if h : b - 128 < 64 ∧ 128 ≤ b then .ok (.g ⟨b - 128, h.1⟩)
  else if b = 255 then .ok .z else .error .badOperand

/-- A span of n registers of kind v, g or z (R48). -/
def oN (n b : Nat) : Except Reject Opnd := do
  let o ← o32 b
  if o.spanOk n then .ok o else .error .badSpan

/-- A pair. -/
def oP (b : Nat) : Except Reject Opnd := oN 2 b
/-- One register, or a pair. -/
def oN1or2 (wide : Bool) (b : Nat) : Except Reject Opnd := oN (if wide then 2 else 1) b

/-- The v registers and z among the operands of a field (R46). -/
def onlyV (r : Except Reject Opnd) : Except Reject Opnd := do
  let o ← r
  if o.isG then .error .badOperand else .ok o

/-- A v pair or z. -/
def oVP (b : Nat) : Except Reject Opnd := onlyV (oN 2 b)
/-- A v base whose span is checked later, or z. -/
def oVZ (b : Nat) : Except Reject Opnd := onlyV (oN 1 b)
/-- A v base of four registers, or z. -/
def oVB4 (b : Nat) : Except Reject Opnd := onlyV (oN 4 b)
/-- A v base of eight registers, or z. -/
def oVB8 (b : Nat) : Except Reject Opnd := onlyV (oN 8 b)
/-- The operand z alone (R241). -/
def zOnly (b : Nat) : Except Reject Unit := if b = 255 then .ok () else .error .badOperand

/-- A number of a field of n values that holds them all. -/
def finC (n b : Nat) (e : Reject) : Except Reject (Fin n) := if h : b < n then .ok ⟨b, h⟩ else .error e
/-- A predicate (R47). -/
def prd (b : Nat) : Except Reject (Fin 8) := finC 8 b .badNumber
/-- A token register (R45). -/
def tok (b : Nat) : Except Reject (Fin 8) := if 192 ≤ b then finC 8 (b - 192) .badOperand else .error .badOperand
/-- A queue binding (R45). -/
def qb (b : Nat) : Except Reject (Fin 8) := if 200 ≤ b then finC 8 (b - 200) .badOperand else .error .badOperand
/-- An accumulator tile (R45). -/
def tile (b : Nat) : Except Reject (Fin 8) := if 208 ≤ b then finC 8 (b - 208) .badOperand else .error .badOperand
/-- A queue binding, or z for none (R166). -/
def qbO (b : Nat) : Except Reject (Option (Fin 8)) := if b = 255 then .ok none else some <$> qb b
def fin4 (b : Nat) : Except Reject (Fin 4) := finC 4 b .reservedValue
def fin8 (b : Nat) : Except Reject (Fin 8) := finC 8 b .reservedValue
def fin16 (b : Nat) : Except Reject (Fin 16) := finC 16 b .reservedValue
def fin64 (b : Nat) : Except Reject (Fin 64) := finC 64 b .reservedValue
def bool (b : Nat) : Except Reject Bool := .ok (b == 1)
def byte (b : Nat) : Except Reject Byte := .ok (BitVec.ofNat 8 b)
def word (b : Nat) : Except Reject Word := .ok (BitVec.ofNat 32 b)
def bv7 (b : Nat) : Except Reject (BitVec 7) := .ok (BitVec.ofNat 7 b)
def bv19 (b : Nat) : Except Reject (BitVec 19) := .ok (BitVec.ofNat 19 b)
/-- FJOIN's stream set, which may not be empty (R255). -/
def fjoinC (b : Nat) : Except Reject (BitVec 16) := if b = 0 then .error .reservedValue else .ok (BitVec.ofNat 16 b)
/-- HOPS, 0 to 8 (R199). -/
def hopsC (b : Nat) : Except Reject (Fin 16) := if b ≤ 8 then fin16 b else .error .reservedValue
/-- A DX distance, 1 to 15 (R107). -/
def distC (b : Nat) : Except Reject (Fin 16) := if b = 0 then .error .reservedValue else fin16 b
/-- `.HI`, of DX4 only (R108). -/
def hiC (dx4 : Bool) (b : Nat) : Except Reject Bool := if b = 1 ∧ dx4 = false then .error .reservedValue else bool b

/-- UNS and SAT of IADD and ISUB (R86). -/
def satC (b : Nat) : Except Reject SatMode :=
  match b with
  | 0 => .ok .wrap | 2 => .ok .ssat | 3 => .ok .usat | _ => .error .reservedValue
def rmC (b : Nat) : Except Reject RMode :=
  match b with
  | 0 => .ok .rn | 1 => .ok .rz | 2 => .ok .ru | 3 => .ok .rd | _ => .error .reservedValue
/-- COND of ISETP (R92). -/
def icmpC (b : Nat) : Except Reject ICmp :=
  match b with
  | 0 => .ok .eq | 1 => .ok .ne | 2 => .ok .lt | 3 => .ok .le | 4 => .ok .gt | 5 => .ok .ge | _ => .error .reservedValue
/-- ALT and COND of FSETP and DSETP (R92). -/
def fcmpC (b : Nat) : Except Reject FCmp :=
  if b = 6 then .ok .ord else if b = 7 then .ok .uno
  else if b < 6 then (fun c => .cmp c false) <$> icmpC b
  else if 8 ≤ b then (fun c => .cmp c true) <$> icmpC (b - 8) else .error .reservedValue
def mergeC (b : Nat) : Except Reject Merge :=
  match b with
  | 0 => .ok .set | 1 => .ok .and | 2 => .ok .or | 3 => .ok .andn | _ => .error .reservedValue
/-- Type codes of CVT (R106). -/
def cvtC (b : Nat) : Except Reject CvtTy :=
  match b with
  | 0 => .ok .s8 | 1 => .ok .z8 | 2 => .ok .s16 | 3 => .ok .z16 | 4 => .ok .s32 | 5 => .ok .z32 | 6 => .ok .s64
  | 7 => .ok .z64 | 8 => .ok .f16 | 9 => .ok .bf16 | 10 => .ok .f32 | 11 => .ok .f64 | 12 => .ok .w48
  | _ => .error .reservedValue
/-- ELEM of CVT, below the source's elements (R106). -/
def elemC (src : CvtTy) (b : Nat) : Except Reject (Fin 4) := if b < src.elems then fin4 b else .error .reservedValue
def shflC (b : Nat) : Except Reject ShflMode :=
  match b with
  | 0 => .ok .abs | 1 => .ok .ofs | 2 => .ok .xor | 3 => .ok .rot | _ => .error .reservedValue
def voteC (b : Nat) : Except Reject VoteKind :=
  match b with
  | 0 => .ok .all | 1 => .ok .any | 2 => .ok .same | 3 => .ok .mask | 4 => .ok .count | _ => .error .reservedValue
def redC (b : Nat) : Except Reject RedOp :=
  match b with
  | 0 => .ok .add | 1 => .ok .and | 2 => .ok .or | 3 => .ok .xor | 4 => .ok .minS | 5 => .ok .minZ | 6 => .ok .maxS
  | 7 => .ok .maxZ | _ => .error .reservedValue
def scopeC (b : Nat) : Except Reject Scope :=
  match b with
  | 0 => .ok .core | 1 => .ok .cluster | 2 => .ok .die | 3 => .ok .system | _ => .error .reservedValue
def sizeC (b : Nat) : Except Reject Size :=
  match b with
  | 0 => .ok .b8 | 1 => .ok .b16 | 2 => .ok .b32 | 3 => .ok .b64 | 4 => .ok .b128 | _ => .error .reservedValue
/-- Sizes of the tagged accesses (R242). -/
def tagSizeC (b : Nat) : Except Reject Size :=
  match b with
  | 2 => .ok .b32 | 3 => .ok .b64 | 4 => .ok .b128 | _ => .error .reservedValue
/-- Order of a load (R238). -/
def ldOrd (b : Nat) : Except Reject Bool :=
  match b with
  | 0 => .ok false | 1 => .ok true | _ => .error .reservedValue
/-- Order of a store (R238). -/
def stOrd (b : Nat) : Except Reject Bool :=
  match b with
  | 0 => .ok false | 2 => .ok true | _ => .error .reservedValue
/-- `.SX`, of B8 and B16 only (R234). -/
def sxC (sz : Size) (b : Nat) : Except Reject Bool := if b = 1 ∧ 4 ≤ sz.bytes then .error .reservedValue else bool b
/-- `.PROM`, of an acquire at die or system scope (R238). -/
def promC (acq : Bool) (m : MemArg) (b : Nat) : Except Reject Bool :=
  if b = 1 ∧ ¬(acq = true ∧ 2 ≤ m.scope.code) then .error .reservedValue else bool b
def wrapC (b : Nat) : Except Reject WrapMode :=
  match b with
  | 0 => .ok .clamp | 1 => .ok .repeatW | 2 => .ok .border | _ => .error .reservedValue
/-- COVER of FENCE; SC is of system scope and covers everything (R253). -/
def coverC (scFence : Bool) (sc : Scope) (b : Nat) : Except Reject Cover :=
  if scFence = true ∧ (sc ≠ .system ∨ b ≠ 0) then .error .reservedValue
  else match b with
    | 0 => .ok .all | 1 => .ok .reads | 2 => .ok .writes | _ => .error .reservedValue
def prefC (b : Nat) : Except Reject PrefTgt :=
  match b with
  | 0 => .ok .l1 | 1 => .ok .l2 | 2 => .ok .excl | 3 => .ok .smp | _ => .error .reservedValue
/-- CWB writes back at die or system scope (R257). -/
def cwbScope (b : Nat) : Except Reject Unit := if 2 ≤ b then .ok () else .error .reservedValue
def formC (b : Nat) : Except Reject MxForm :=
  match b with
  | 0 => .ok .w48 | 1 => .ok .f32 | 2 => .ok .f16 | 3 => .ok .bf16 | _ => .error .reservedValue
def emptyC (b : Nat) : Except Reject Empty :=
  match b with
  | 0 => .ok .wait | 1 => .ok .zero | 2 => .ok .miss | _ => .error .reservedValue
/-- Special registers by number (R53). -/
def srdC (b : Nat) : Except Reject SrdReg :=
  match b with
  | 0 => .ok .tidx | 1 => .ok .tidy | 2 => .ok .tidz | 3 => .ok .lane | 4 => .ok .quad | 5 => .ok .grpw | 6 => .ok .grpid
  | 8 => .ok .teamx | 9 => .ok .teamy | 10 => .ok .teamz | 12 => .ok .clusx | 13 => .ok .clusy | 14 => .ok .clusn
  | 16 => .ok .gridx | 17 => .ok .gridy | 18 => .ok .gridz | 20 => .ok .core | 21 => .ok .die | 22 => .ok .stage
  | 24 => .ok .clockl | 25 => .ok .clockh | 28 => .ok .flags | _ => .error .badNumber
/-- Privileged registers by number (R391). -/
def privC (b : Nat) : Except Reject PrivReg :=
  match b with
  | 0 => .ok .partid | 1 => .ok .prows | 2 => .ok .asidw | 3 => .ok .plimit | 4 => .ok .wroot | 5 => .ok .wasid
  | 6 => .ok .btgrant
  | _ => if 16 ≤ b ∧ b < 24 then PrivReg.asroot <$> fin8 (b - 16)
         else if 24 ≤ b ∧ b < 32 then PrivReg.asasid <$> fin8 (b - 24) else .error .badNumber

/-- The address part of an M-format word, with a pair (R230). -/
def memP (l : Nat) : Except Reject MemArg := do
  let a ← oP (fb l 39 32); let ofs ← bv19 (fb l 18 0); let stream ← fin16 (fb l 31 28); let scope ← scopeC (fb l 27 26)
  pure ⟨a, ofs, stream, scope⟩
/-- The address part of an M-format word, with a vault address (R231). -/
def memV (l : Nat) : Except Reject MemArg := do
  let a ← o32 (fb l 39 32); let ofs ← bv19 (fb l 18 0); let stream ← fin16 (fb l 31 28); let scope ← scopeC (fb l 27 26)
  pure ⟨a, ofs, stream, scope⟩
/-- The address part of LDS, whose scope is unused (R249). -/
def memS (l : Nat) : Except Reject MemArg := do
  let a ← oP (fb l 39 32); let ofs ← bv19 (fb l 18 0); let stream ← fin16 (fb l 31 28)
  pure ⟨a, ofs, stream, .core⟩
/-- The address part of CWB. -/
def memW (l : Nat) : Except Reject MemArg := memP l
/-- Operands of the copies (R277). -/
def copyA (l : Nat) : Except Reject CopyArg := do
  let d ← oP (fb l 47 40); let a ← oP (fb l 39 32); let stream ← fin16 (fb l 3 0); let scope ← scopeC (fb l 5 4)
  let rel ← bool (fb l 6 6)
  pure ⟨d, a, stream, scope, rel⟩
/-- The predicate of a history load under PRED (R199). -/
def predO (l : Nat) : Except Reject (Option (Fin 8)) := if fb l 12 12 = 0 then .ok none else some <$> prd (fb l 31 24)
/-- The scale of MXST under SCALE (R133). -/
def scaleO (l : Nat) : Except Reject (Option Opnd) := if fb l 3 3 = 0 then .ok none else some <$> o32 (fb l 31 24)
/-- ORD of an atomic. -/
def ordC (b : Nat) : Except Reject MOrd :=
  match b with
  | 0 => .ok .relaxed | 1 => .ok .acquire | 2 => .ok .release | 3 => .ok .acqrel | _ => .error .reservedValue
/-- Operation of an atomic (R244), with CAS's C operand of n registers; INC and DEC are of B32 only. -/
def atopC (n b c : Nat) : Except Reject AtOp :=
  match b with
  | 0 => .ok .add | 1 => .ok .and | 2 => .ok .or | 3 => .ok .xor | 4 => .ok .minS | 5 => .ok .minZ | 6 => .ok .maxS
  | 7 => .ok .maxZ | 8 => .ok .xchg | 9 => AtOp.cas <$> oN n c
  | 10 => if n = 1 then .ok .inc else .error .reservedValue
  | 11 => if n = 1 then .ok .dec else .error .reservedValue
  | 12 => .ok .fadd | 13 => .ok .fmin | 14 => .ok .fmax | _ => .error .reservedValue
/-- Sizes of the atomics (R244): B32 or B64. -/
def atSizeC (b : Nat) : Except Reject Bool :=
  match b with
  | 2 => .ok false | 3 => .ok true | _ => .error .reservedValue
/-- Operands of an atomic (R43, R244); the address is a pair in global memory. -/
def atomA (glob : Bool) (l : Nat) : Except Reject AtomArg := do
  let b64 ← atSizeC (fb l 3 1)
  let d ← oN1or2 b64 (fb l 47 40); let a ← oN1or2 glob (fb l 39 32); let b ← oN1or2 b64 (fb l 31 24)
  let op ← atopC (if b64 then 2 else 1) (fb l 7 4) (fb l 23 16)
  let stream ← fin16 (fb l 15 12); let scope ← scopeC (fb l 11 10); let ord ← ordC (fb l 9 8)
  pure ⟨d, a, b, op, b64, stream, scope, ord⟩

end Code
open Code

/-- Instruction words of class ALU (R56 and the chapters that its table names). MOD[6], the NC bit of R97 and R104, is reserved on the
forms of two operands, which have no C: there it raises cause 0x03 (log 81). -/
def decodeAlu (opc fmt : Nat) (h : Gd) (l : Nat) : Dec :=
  match opc with
  | 0 =>
    if fmt = 0 then
      fin (do pure (.nop h)) ((fb l 47 0))
    else .bad .badFormat
  | 1 =>
    if fmt = 0 then
      fin (do let d ← o32 (fb l 47 40); let a ← o32 (fb l 39 32); let b ← o32 (fb l 31 24); let sat ← satC (fb l 1 0); pure (.iadd h d a b sat)) ((fb l 23 2))
    else if fmt = 1 then
      fin (do let d ← o32 (fb l 47 40); let a ← o32 (fb l 39 32); let imm ← word (fb l 31 0); pure (.iaddI h d a imm)) (0)
    else .bad .badFormat
  | 2 =>
    if fmt = 0 then
      fin (do let d ← o32 (fb l 47 40); let a ← o32 (fb l 39 32); let b ← o32 (fb l 31 24); let sat ← satC (fb l 1 0); pure (.isub h d a b sat)) ((fb l 23 2))
    else if fmt = 1 then
      fin (do let d ← o32 (fb l 47 40); let a ← o32 (fb l 39 32); let imm ← word (fb l 31 0); pure (.isubI h d a imm)) (0)
    else .bad .badFormat
  | 3 =>
    if fmt = 0 then
      fin (do let d ← o32 (fb l 47 40); let a ← o32 (fb l 39 32); let b ← o32 (fb l 31 24); pure (.imul h d a b)) ((fb l 23 0))
    else if fmt = 1 then
      fin (do let d ← o32 (fb l 47 40); let a ← o32 (fb l 39 32); let imm ← word (fb l 31 0); pure (.imulI h d a imm)) (0)
    else .bad .badFormat
  | 4 =>
    if fmt = 0 then
      fin (do let d ← o32 (fb l 47 40); let a ← o32 (fb l 39 32); let b ← o32 (fb l 31 24); let uns ← bool (fb l 0 0); pure (.imulh h d a b uns)) ((fb l 23 1))
    else .bad .badFormat
  | 5 =>
    if fmt = 0 then
      fin (do let d ← o32 (fb l 47 40); let a ← o32 (fb l 39 32); let b ← o32 (fb l 31 24); let c ← o32 (fb l 23 16); pure (.imad h d a b c)) ((fb l 15 0))
    else .bad .badFormat
  | 6 =>
    if fmt = 0 then
      fin (do let d ← oP (fb l 47 40); let a ← o32 (fb l 39 32); let b ← o32 (fb l 31 24); let c ← oP (fb l 23 16); let uns ← bool (fb l 0 0); pure (.imadw h d a b c uns)) ((fb l 15 1))
    else .bad .badFormat
  | 7 =>
    if fmt = 0 then
      fin (do let d ← o32 (fb l 47 40); let a ← o32 (fb l 39 32); let b ← o32 (fb l 31 24); let uns ← bool (fb l 0 0); pure (.idiv h d a b uns)) ((fb l 23 1))
    else .bad .badFormat
  | 8 =>
    if fmt = 0 then
      fin (do let d ← o32 (fb l 47 40); let a ← o32 (fb l 39 32); let b ← o32 (fb l 31 24); let uns ← bool (fb l 0 0); pure (.irem h d a b uns)) ((fb l 23 1))
    else .bad .badFormat
  | 9 =>
    if fmt = 0 then
      fin (do let d ← o32 (fb l 47 40); let a ← o32 (fb l 39 32); let sat ← bool (fb l 1 1); pure (.iabs h d a sat)) ((fb l 0 0) + (fb l 31 2))
    else .bad .badFormat
  | 10 =>
    if fmt = 0 then
      fin (do let d ← o32 (fb l 47 40); let a ← o32 (fb l 39 32); let sat ← bool (fb l 1 1); pure (.ineg h d a sat)) ((fb l 0 0) + (fb l 31 2))
    else .bad .badFormat
  | 11 =>
    if fmt = 0 then
      fin (do let d ← o32 (fb l 47 40); let a ← o32 (fb l 39 32); let b ← o32 (fb l 31 24); let uns ← bool (fb l 0 0); pure (.imin h d a b uns)) ((fb l 23 1))
    else if fmt = 1 then
      fin (do let d ← o32 (fb l 47 40); let a ← o32 (fb l 39 32); let imm ← word (fb l 31 0); pure (.iminI h d a imm)) (0)
    else .bad .badFormat
  | 12 =>
    if fmt = 0 then
      fin (do let d ← o32 (fb l 47 40); let a ← o32 (fb l 39 32); let b ← o32 (fb l 31 24); let uns ← bool (fb l 0 0); pure (.imax h d a b uns)) ((fb l 23 1))
    else if fmt = 1 then
      fin (do let d ← o32 (fb l 47 40); let a ← o32 (fb l 39 32); let imm ← word (fb l 31 0); pure (.imaxI h d a imm)) (0)
    else .bad .badFormat
  | 13 =>
    if fmt = 0 then
      fin (do let d ← o32 (fb l 47 40); let a ← o32 (fb l 39 32); let b ← o32 (fb l 31 24); let c ← o32 (fb l 23 16); let uns ← bool (fb l 0 0); pure (.iclamp h d a b c uns)) ((fb l 15 1))
    else .bad .badFormat
  | 16 =>
    if fmt = 0 then
      fin (do let d ← o32 (fb l 47 40); let a ← o32 (fb l 39 32); let b ← o32 (fb l 31 24); pure (.andB h d a b)) ((fb l 23 0))
    else if fmt = 1 then
      fin (do let d ← o32 (fb l 47 40); let a ← o32 (fb l 39 32); let imm ← word (fb l 31 0); pure (.andI h d a imm)) (0)
    else .bad .badFormat
  | 17 =>
    if fmt = 0 then
      fin (do let d ← o32 (fb l 47 40); let a ← o32 (fb l 39 32); let b ← o32 (fb l 31 24); pure (.orB h d a b)) ((fb l 23 0))
    else if fmt = 1 then
      fin (do let d ← o32 (fb l 47 40); let a ← o32 (fb l 39 32); let imm ← word (fb l 31 0); pure (.orI h d a imm)) (0)
    else .bad .badFormat
  | 18 =>
    if fmt = 0 then
      fin (do let d ← o32 (fb l 47 40); let a ← o32 (fb l 39 32); let b ← o32 (fb l 31 24); pure (.xorB h d a b)) ((fb l 23 0))
    else if fmt = 1 then
      fin (do let d ← o32 (fb l 47 40); let a ← o32 (fb l 39 32); let imm ← word (fb l 31 0); pure (.xorI h d a imm)) (0)
    else .bad .badFormat
  | 19 =>
    if fmt = 0 then
      fin (do let d ← o32 (fb l 47 40); let a ← o32 (fb l 39 32); let b ← o32 (fb l 31 24); pure (.andnB h d a b)) ((fb l 23 0))
    else if fmt = 1 then
      fin (do let d ← o32 (fb l 47 40); let a ← o32 (fb l 39 32); let imm ← word (fb l 31 0); pure (.andnI h d a imm)) (0)
    else .bad .badFormat
  | 20 =>
    if fmt = 0 then
      fin (do let d ← o32 (fb l 47 40); let a ← o32 (fb l 39 32); let b ← o32 (fb l 31 24); let c ← o32 (fb l 23 16); let lut ← byte (fb l 7 0); pure (.lop3 h d a b c lut)) ((fb l 15 8))
    else .bad .badFormat
  | 21 =>
    if fmt = 0 then
      fin (do let d ← o32 (fb l 47 40); let a ← o32 (fb l 39 32); let b ← o32 (fb l 31 24); pure (.shl h d a b)) ((fb l 23 0))
    else if fmt = 1 then
      fin (do let d ← o32 (fb l 47 40); let a ← o32 (fb l 39 32); let imm ← word (fb l 31 0); pure (.shlI h d a imm)) (0)
    else .bad .badFormat
  | 22 =>
    if fmt = 0 then
      fin (do let d ← o32 (fb l 47 40); let a ← o32 (fb l 39 32); let b ← o32 (fb l 31 24); let s ← bool (fb l 0 0); pure (.shr h d a b s)) ((fb l 23 1))
    else if fmt = 1 then
      fin (do let d ← o32 (fb l 47 40); let a ← o32 (fb l 39 32); let imm ← word (fb l 31 0); pure (.shrI h d a imm)) (0)
    else .bad .badFormat
  | 23 =>
    if fmt = 0 then
      fin (do let d ← o32 (fb l 47 40); let a ← o32 (fb l 39 32); let b ← o32 (fb l 31 24); let rt ← bool (fb l 0 0); pure (.rot h d a b rt)) ((fb l 23 1))
    else if fmt = 1 then
      fin (do let d ← o32 (fb l 47 40); let a ← o32 (fb l 39 32); let imm ← word (fb l 31 0); pure (.rotI h d a imm)) (0)
    else .bad .badFormat
  | 24 =>
    if fmt = 0 then
      fin (do let d ← o32 (fb l 47 40); let a ← o32 (fb l 39 32); let b ← o32 (fb l 31 24); let c ← o32 (fb l 23 16); let rt ← bool (fb l 0 0); pure (.shf h d a b c rt)) ((fb l 15 1))
    else .bad .badFormat
  | 25 =>
    if fmt = 0 then
      fin (do let d ← o32 (fb l 47 40); let a ← o32 (fb l 39 32); let b ← o32 (fb l 31 24); let s ← bool (fb l 0 0); pure (.bfe h d a b s)) ((fb l 23 1))
    else .bad .badFormat
  | 26 =>
    if fmt = 0 then
      fin (do let d ← o32 (fb l 47 40); let a ← o32 (fb l 39 32); let b ← o32 (fb l 31 24); let c ← o32 (fb l 23 16); pure (.bfi h d a b c)) ((fb l 15 0))
    else .bad .badFormat
  | 27 =>
    if fmt = 0 then
      fin (do let d ← o32 (fb l 47 40); let a ← o32 (fb l 39 32); pure (.popc h d a)) ((fb l 31 0))
    else .bad .badFormat
  | 28 =>
    if fmt = 0 then
      fin (do let d ← o32 (fb l 47 40); let a ← o32 (fb l 39 32); pure (.clz h d a)) ((fb l 31 0))
    else .bad .badFormat
  | 29 =>
    if fmt = 0 then
      fin (do let d ← o32 (fb l 47 40); let a ← o32 (fb l 39 32); pure (.ctz h d a)) ((fb l 31 0))
    else .bad .badFormat
  | 30 =>
    if fmt = 0 then
      fin (do let d ← o32 (fb l 47 40); let a ← o32 (fb l 39 32); pure (.brev h d a)) ((fb l 31 0))
    else .bad .badFormat
  | 31 =>
    if fmt = 0 then
      fin (do let d ← o32 (fb l 47 40); let a ← o32 (fb l 39 32); let b ← o32 (fb l 31 24); let c ← o32 (fb l 23 16); pure (.perm h d a b c)) ((fb l 15 0))
    else .bad .badFormat
  | 32 =>
    if fmt = 0 then
      fin (do let d ← oP (fb l 47 40); let a ← oP (fb l 39 32); let b ← oP (fb l 31 24); pure (.iadd64 h d a b)) ((fb l 23 0))
    else if fmt = 1 then
      fin (do let d ← oP (fb l 47 40); let a ← oP (fb l 39 32); let imm ← word (fb l 31 0); pure (.iadd64I h d a imm)) (0)
    else .bad .badFormat
  | 33 =>
    if fmt = 0 then
      fin (do let d ← oP (fb l 47 40); let a ← oP (fb l 39 32); let b ← oP (fb l 31 24); pure (.isub64 h d a b)) ((fb l 23 0))
    else .bad .badFormat
  | 34 =>
    if fmt = 0 then
      fin (do let d ← oP (fb l 47 40); let a ← oP (fb l 39 32); let b ← oP (fb l 31 24); let c ← oP (fb l 23 16); pure (.imad64 h d a b c)) ((fb l 15 0))
    else .bad .badFormat
  | 35 =>
    if fmt = 0 then
      fin (do let d ← oP (fb l 47 40); let a ← oP (fb l 39 32); let b ← o32 (fb l 31 24); pure (.shl64 h d a b)) ((fb l 23 0))
    else .bad .badFormat
  | 36 =>
    if fmt = 0 then
      fin (do let d ← oP (fb l 47 40); let a ← oP (fb l 39 32); let b ← o32 (fb l 31 24); let s ← bool (fb l 0 0); pure (.shr64 h d a b s)) ((fb l 23 1))
    else .bad .badFormat
  | 37 =>
    if fmt = 0 then
      fin (do let d ← oP (fb l 47 40); let a ← oP (fb l 39 32); let b ← o32 (fb l 31 24); let sh ← fin8 (fb l 2 0); let s ← bool (fb l 3 3); pure (.lea h d a b sh s)) ((fb l 23 4))
    else .bad .badFormat
  | 40 =>
    if fmt = 0 then
      fin (do let p ← prd (fb l 47 40); let a ← o32 (fb l 39 32); let b ← o32 (fb l 31 24); let c ← icmpC (fb l 2 0); let uns ← bool (fb l 3 3); let mg ← mergeC (fb l 5 4); pure (.isetp h p a b c uns mg)) ((fb l 23 6))
    else .bad .badFormat
  | 41 =>
    if fmt = 0 then
      fin (do let p ← prd (fb l 47 40); let a ← o32 (fb l 39 32); let b ← o32 (fb l 31 24); let c ← fcmpC (fb l 3 0); let mg ← mergeC (fb l 5 4); pure (.fsetp h p a b c mg)) ((fb l 23 6))
    else .bad .badFormat
  | 42 =>
    if fmt = 0 then
      fin (do let p ← prd (fb l 47 40); let a ← oP (fb l 39 32); let b ← oP (fb l 31 24); let c ← fcmpC (fb l 3 0); let mg ← mergeC (fb l 5 4); pure (.dsetp h p a b c mg)) ((fb l 23 6))
    else .bad .badFormat
  | 44 =>
    if fmt = 0 then
      fin (do let d ← o32 (fb l 47 40); let a ← o32 (fb l 39 32); let b ← o32 (fb l 31 24); let c ← o32 (fb l 23 16); pure (.sel h d a b c)) ((fb l 15 0))
    else .bad .badFormat
  | 45 =>
    if fmt = 0 then
      fin (do let d ← prd (fb l 47 40); let a ← prd (fb l 39 32); let b ← prd (fb l 31 24); let c ← prd (fb l 23 16); let lut ← byte (fb l 7 0); pure (.plop h d a b c lut)) ((fb l 15 8))
    else .bad .badFormat
  | 46 =>
    if fmt = 0 then
      fin (do let d ← o32 (fb l 47 40); pure (.p2v h d)) ((fb l 39 0))
    else .bad .badFormat
  | 47 =>
    if fmt = 0 then
      fin (do let a ← o32 (fb l 39 32); let mask ← bv7 (fb l 6 0); pure (.v2p h a mask)) ((fb l 31 7) + (fb l 47 40))
    else .bad .badFormat
  | 48 =>
    if fmt = 0 then
      fin (do let b64 ← bool (fb l 0 0); let d ← oN1or2 b64 (fb l 47 40); let a ← oN1or2 b64 (fb l 39 32); pure (.mov h d a b64)) ((fb l 31 1))
    else .bad .badFormat
  | 49 =>
    if fmt = 1 then
      fin (do let d ← o32 (fb l 47 40); let imm ← word (fb l 31 0); pure (.movi h d imm)) ((fb l 39 32))
    else .bad .badFormat
  | 50 =>
    if fmt = 0 then
      if fb l 0 0 = 0 then fin (do let d ← o32 (fb l 47 40); let r ← srdC (fb l 39 32); pure (.srd h d r)) (fb l 31 16 + fb l 15 1)
      else if fb l 39 32 = 28 then fin (do let d ← o32 (fb l 47 40); pure (.srdClr h d)) (fb l 31 16 + fb l 15 1)
      else .bad .reservedValue
    else .bad .badFormat
  | 64 =>
    if fmt = 0 then
      fin (do let d ← o32 (fb l 47 40); let a ← o32 (fb l 39 32); let b ← o32 (fb l 31 24); let rm ← rmC (fb l 1 0); let na ← bool (fb l 4 4); let nb ← bool (fb l 5 5); pure (.fadd h d a b rm na nb)) ((fb l 3 2) + (fb l 23 6))
    else .bad .badFormat
  | 65 =>
    if fmt = 0 then
      fin (do let d ← o32 (fb l 47 40); let a ← o32 (fb l 39 32); let b ← o32 (fb l 31 24); let rm ← rmC (fb l 1 0); let na ← bool (fb l 4 4); let nb ← bool (fb l 5 5); pure (.fmul h d a b rm na nb)) ((fb l 3 2) + (fb l 23 6))
    else .bad .badFormat
  | 66 =>
    if fmt = 0 then
      fin (do let d ← o32 (fb l 47 40); let a ← o32 (fb l 39 32); let b ← o32 (fb l 31 24); let c ← o32 (fb l 23 16); let rm ← rmC (fb l 1 0); let na ← bool (fb l 4 4); let nb ← bool (fb l 5 5); let nc ← bool (fb l 6 6); pure (.ffma h d a b c rm na nb nc)) ((fb l 3 2) + (fb l 15 7))
    else .bad .badFormat
  | 67 =>
    if fmt = 0 then
      fin (do let d ← o32 (fb l 47 40); let a ← o32 (fb l 39 32); let b ← o32 (fb l 31 24); pure (.fmin h d a b)) ((fb l 23 0))
    else .bad .badFormat
  | 68 =>
    if fmt = 0 then
      fin (do let d ← o32 (fb l 47 40); let a ← o32 (fb l 39 32); let b ← o32 (fb l 31 24); pure (.fmax h d a b)) ((fb l 23 0))
    else .bad .badFormat
  | 69 =>
    if fmt = 0 then
      fin (do let d ← o32 (fb l 47 40); let a ← o32 (fb l 39 32); let rm ← rmC (fb l 1 0); let x ← bool (fb l 2 2); pure (.frnd h d a rm x)) ((fb l 31 3))
    else .bad .badFormat
  | 70 =>
    if fmt = 0 then
      fin (do let d ← o32 (fb l 47 40); let a ← o32 (fb l 39 32); let b ← o32 (fb l 31 24); let rm ← rmC (fb l 1 0); pure (.fdiv h d a b rm)) ((fb l 23 2))
    else .bad .badFormat
  | 71 =>
    if fmt = 0 then
      fin (do let d ← o32 (fb l 47 40); let a ← o32 (fb l 39 32); let rm ← rmC (fb l 1 0); pure (.fsqrt h d a rm)) ((fb l 31 2))
    else .bad .badFormat
  | 72 =>
    if fmt = 0 then
      fin (do let d ← o32 (fb l 47 40); let a ← o32 (fb l 39 32); pure (.frsq h d a)) ((fb l 31 0))
    else .bad .badFormat
  | 73 =>
    if fmt = 0 then
      fin (do let d ← o32 (fb l 47 40); let a ← o32 (fb l 39 32); pure (.frcp h d a)) ((fb l 31 0))
    else .bad .badFormat
  | 74 =>
    if fmt = 0 then
      fin (do let d ← o32 (fb l 47 40); let a ← o32 (fb l 39 32); pure (.fex2 h d a)) ((fb l 31 0))
    else .bad .badFormat
  | 75 =>
    if fmt = 0 then
      fin (do let d ← o32 (fb l 47 40); let a ← o32 (fb l 39 32); pure (.flg2 h d a)) ((fb l 31 0))
    else .bad .badFormat
  | 76 =>
    if fmt = 0 then
      fin (do let d ← o32 (fb l 47 40); let a ← o32 (fb l 39 32); pure (.fsinpi h d a)) ((fb l 31 0))
    else .bad .badFormat
  | 77 =>
    if fmt = 0 then
      fin (do let d ← o32 (fb l 47 40); let a ← o32 (fb l 39 32); pure (.fcospi h d a)) ((fb l 31 0))
    else .bad .badFormat
  | 78 =>
    if fmt = 0 then
      fin (do let d ← o32 (fb l 47 40); let a ← o32 (fb l 39 32); pure (.fclass h d a)) ((fb l 31 0))
    else .bad .badFormat
  | 79 =>
    if fmt = 0 then
      fin (do let d ← o32 (fb l 47 40); let a ← o32 (fb l 39 32); let b ← o32 (fb l 31 24); let rm ← rmC (fb l 1 0); pure (.fscale h d a b rm)) ((fb l 23 2))
    else .bad .badFormat
  | 80 =>
    if fmt = 0 then
      fin (do let d ← oP (fb l 47 40); let a ← oP (fb l 39 32); let b ← oP (fb l 31 24); let rm ← rmC (fb l 1 0); let na ← bool (fb l 4 4); let nb ← bool (fb l 5 5); pure (.dadd h d a b rm na nb)) ((fb l 3 2) + (fb l 23 6))
    else .bad .badFormat
  | 81 =>
    if fmt = 0 then
      fin (do let d ← oP (fb l 47 40); let a ← oP (fb l 39 32); let b ← oP (fb l 31 24); let rm ← rmC (fb l 1 0); let na ← bool (fb l 4 4); let nb ← bool (fb l 5 5); pure (.dmul h d a b rm na nb)) ((fb l 3 2) + (fb l 23 6))
    else .bad .badFormat
  | 82 =>
    if fmt = 0 then
      fin (do let d ← oP (fb l 47 40); let a ← oP (fb l 39 32); let b ← oP (fb l 31 24); let c ← oP (fb l 23 16); let rm ← rmC (fb l 1 0); let na ← bool (fb l 4 4); let nb ← bool (fb l 5 5); let nc ← bool (fb l 6 6); pure (.dfma h d a b c rm na nb nc)) ((fb l 3 2) + (fb l 15 7))
    else .bad .badFormat
  | 83 =>
    if fmt = 0 then
      fin (do let d ← oP (fb l 47 40); let a ← oP (fb l 39 32); let b ← oP (fb l 31 24); pure (.dmin h d a b)) ((fb l 23 0))
    else .bad .badFormat
  | 84 =>
    if fmt = 0 then
      fin (do let d ← oP (fb l 47 40); let a ← oP (fb l 39 32); let b ← oP (fb l 31 24); pure (.dmax h d a b)) ((fb l 23 0))
    else .bad .badFormat
  | 85 =>
    if fmt = 0 then
      fin (do let d ← oP (fb l 47 40); let a ← oP (fb l 39 32); let b ← oP (fb l 31 24); let rm ← rmC (fb l 1 0); pure (.ddiv h d a b rm)) ((fb l 23 2))
    else .bad .badFormat
  | 86 =>
    if fmt = 0 then
      fin (do let d ← oP (fb l 47 40); let a ← oP (fb l 39 32); let rm ← rmC (fb l 1 0); pure (.dsqrt h d a rm)) ((fb l 31 2))
    else .bad .badFormat
  | 88 =>
    if fmt = 0 then
      fin (do let d ← o32 (fb l 47 40); let a ← o32 (fb l 39 32); let b ← o32 (fb l 31 24); let na ← bool (fb l 4 4); let nb ← bool (fb l 5 5); pure (.hadd2 h d a b na nb)) ((fb l 3 0) + (fb l 23 6))
    else .bad .badFormat
  | 89 =>
    if fmt = 0 then
      fin (do let d ← o32 (fb l 47 40); let a ← o32 (fb l 39 32); let b ← o32 (fb l 31 24); let na ← bool (fb l 4 4); let nb ← bool (fb l 5 5); pure (.hmul2 h d a b na nb)) ((fb l 3 0) + (fb l 23 6))
    else .bad .badFormat
  | 90 =>
    if fmt = 0 then
      fin (do let d ← o32 (fb l 47 40); let a ← o32 (fb l 39 32); let b ← o32 (fb l 31 24); let c ← o32 (fb l 23 16); let na ← bool (fb l 4 4); let nb ← bool (fb l 5 5); let nc ← bool (fb l 6 6); pure (.hfma2 h d a b c na nb nc)) ((fb l 3 0) + (fb l 15 7))
    else .bad .badFormat
  | 91 =>
    if fmt = 0 then
      fin (do let d ← o32 (fb l 47 40); let a ← o32 (fb l 39 32); let b ← o32 (fb l 31 24); pure (.hmin2 h d a b)) ((fb l 23 0))
    else .bad .badFormat
  | 92 =>
    if fmt = 0 then
      fin (do let d ← o32 (fb l 47 40); let a ← o32 (fb l 39 32); let b ← o32 (fb l 31 24); pure (.hmax2 h d a b)) ((fb l 23 0))
    else .bad .badFormat
  | 93 =>
    if fmt = 0 then
      fin (do let d ← o32 (fb l 47 40); let a ← o32 (fb l 39 32); let b ← o32 (fb l 31 24); let c ← o32 (fb l 23 16); let na ← bool (fb l 4 4); let nb ← bool (fb l 5 5); let nc ← bool (fb l 6 6); pure (.bfma2 h d a b c na nb nc)) ((fb l 3 0) + (fb l 15 7))
    else .bad .badFormat
  | 94 =>
    if fmt = 0 then
      fin (do let d ← o32 (fb l 47 40); let a ← o32 (fb l 39 32); let b ← o32 (fb l 31 24); let na ← bool (fb l 4 4); let nb ← bool (fb l 5 5); pure (.badd2 h d a b na nb)) ((fb l 3 0) + (fb l 23 6))
    else .bad .badFormat
  | 95 =>
    if fmt = 0 then
      fin (do let d ← o32 (fb l 47 40); let a ← o32 (fb l 39 32); let b ← o32 (fb l 31 24); let na ← bool (fb l 4 4); let nb ← bool (fb l 5 5); pure (.bmul2 h d a b na nb)) ((fb l 3 0) + (fb l 23 6))
    else .bad .badFormat
  | 96 =>
    if fmt = 0 then
      fin (do let d ← o32 (fb l 47 40); let a ← o32 (fb l 39 32); let b ← o32 (fb l 31 24); let c ← o32 (fb l 23 16); let ua ← bool (fb l 0 0); let ub ← bool (fb l 1 1); let sat ← bool (fb l 2 2); pure (.idot4 h d a b c ua ub sat)) ((fb l 15 3))
    else .bad .badFormat
  | 104 =>
    if fmt = 0 then
      fin (do let dst ← cvtC (fb l 9 6); let src ← cvtC (fb l 5 2); let d ← oN dst.regs (fb l 47 40); let a ← oN src.regs (fb l 39 32); let rm ← rmC (fb l 1 0); let elem ← elemC src (fb l 11 10); pure (.cvt h d a rm dst src elem)) ((fb l 31 12))
    else .bad .badFormat
  | 105 =>
    if fmt = 0 then
      fin (do let d ← o32 (fb l 47 40); let a ← o32 (fb l 39 32); let b ← oP (fb l 31 24); let dx4 ← bool (fb l 0 0); let dist ← distC (fb l 4 1); pure (.dxpack h d a b dx4 dist)) ((fb l 23 5))
    else .bad .badFormat
  | 106 =>
    if fmt = 0 then
      fin (do let dx4 ← bool (fb l 0 0); let d ← o32 (fb l 47 40); let a ← o32 (fb l 39 32); let b ← o32 (fb l 31 24); let hi ← hiC dx4 (fb l 1 1); pure (.dxunpk h d a b dx4 hi)) ((fb l 23 2))
    else .bad .badFormat
  | 112 =>
    if fmt = 0 then
      fin (do let d ← o32 (fb l 47 40); let a ← o32 (fb l 39 32); let b ← oP (fb l 31 24); let c ← o32 (fb l 23 16); let m ← shflC (fb l 1 0); pure (.shfl h d a b c m)) ((fb l 15 2))
    else .bad .badFormat
  | 113 =>
    if fmt = 0 then
      fin (do let k ← voteC (fb l 2 0); let d ← oN k.regs (fb l 47 40); let a ← o32 (fb l 39 32); let b ← oP (fb l 31 24); pure (.vote h d a b k)) ((fb l 23 3))
    else .bad .badFormat
  | 114 =>
    if fmt = 0 then
      fin (do let d ← o32 (fb l 47 40); let a ← o32 (fb l 39 32); let b ← oP (fb l 31 24); let op ← redC (fb l 2 0); pure (.redux h d a b op)) ((fb l 23 3))
    else .bad .badFormat
  | 115 =>
    if fmt = 0 then
      fin (do let d ← o32 (fb l 47 40); let b ← oP (fb l 31 24); pure (.elect h d b)) ((fb l 23 0) + (fb l 39 32))
    else .bad .badFormat
  | 116 =>
    if fmt = 0 then
      fin (do let w64 ← bool (fb l 0 0); let d ← oP (fb l 47 40); let a ← oN1or2 w64 (fb l 39 32); let b ← oP (fb l 31 24); pure (.matchL h d a b w64)) ((fb l 23 1))
    else .bad .badFormat
  | 117 =>
    if fmt = 0 then
      fin (do let d ← o32 (fb l 47 40); let a ← o32 (fb l 39 32); let b ← oP (fb l 31 24); let op ← redC (fb l 2 0); let excl ← bool (fb l 3 3); pure (.scan h d a b op excl)) ((fb l 23 4))
    else .bad .badFormat
  | 118 =>
    if fmt = 0 then
      fin (do let w64 ← bool (fb l 0 0); let d ← oN1or2 w64 (fb l 47 40); let a ← oN1or2 w64 (fb l 39 32); let b ← oP (fb l 31 24); pure (.rdfirst h d a b w64)) ((fb l 23 1))
    else .bad .badFormat
  | _ => .bad .unassignedOpcode

/-- Instruction words of class MEM (R56 and the chapters that its table names). -/
def decodeMem (opc fmt : Nat) (h : Gd) (l : Nat) : Dec :=
  match opc with
  | 0 =>
    if fmt = 2 then
      fin (do let sz ← sizeC (fb l 23 21); let m ← memP l; let acq ← ldOrd (fb l 25 24); let d ← oN sz.regs (fb l 47 40); let sx ← sxC sz (fb l 19 19); let prom ← promC acq m (fb l 20 20); pure (.ld h d m sz sx acq prom)) (0)
    else .bad .badFormat
  | 1 =>
    if fmt = 2 then
      fin (do let sz ← sizeC (fb l 23 21); let d ← oN sz.regs (fb l 47 40); let m ← memP l; let rel ← stOrd (fb l 25 24); pure (.st h d m sz rel)) ((fb l 20 19))
    else .bad .badFormat
  | 2 =>
    if fmt = 2 then
      fin (do let sz ← sizeC (fb l 23 21); let d ← oN sz.regs (fb l 47 40); let m ← memV l; let sx ← sxC sz (fb l 19 19); let acq ← ldOrd (fb l 25 24); let cr ← bool (fb l 20 20); pure (.ldv h d m sz sx acq cr)) (0)
    else .bad .badFormat
  | 3 =>
    if fmt = 2 then
      fin (do let sz ← sizeC (fb l 23 21); let d ← oN sz.regs (fb l 47 40); let m ← memV l; let rel ← stOrd (fb l 25 24); let cr ← bool (fb l 20 20); pure (.stv h d m sz rel cr)) ((fb l 19 19))
    else .bad .badFormat
  | 4 =>
    if fmt = 2 then
      fin (do let sz ← tagSizeC (fb l 23 21); let d ← oN sz.regs (fb l 47 40); let m ← memV l; let take ← bool (fb l 19 19); let acq ← ldOrd (fb l 25 24); let cr ← bool (fb l 20 20); pure (.ldt h d m sz take acq cr)) (0)
    else .bad .badFormat
  | 5 =>
    if fmt = 2 then
      fin (do let sz ← tagSizeC (fb l 23 21); let d ← oN sz.regs (fb l 47 40); let m ← memV l; let rel ← stOrd (fb l 25 24); let cr ← bool (fb l 20 20); pure (.stt h d m sz rel cr)) ((fb l 19 19))
    else .bad .badFormat
  | 6 =>
    if fmt = 2 then
      if (fb l 19 19) = 0 then fin (do let _ ← zOnly (fb l 47 40); let sz ← tagSizeC (fb l 23 21); let m ← memV l; let rel ← stOrd (fb l 25 24); let cr ← bool (fb l 20 20); pure (.tagopEmpty h m sz rel cr)) (0)
      else if (fb l 19 19) = 1 then fin (do let _ ← zOnly (fb l 47 40); let sz ← tagSizeC (fb l 23 21); let m ← memV l; let rel ← stOrd (fb l 25 24); let cr ← bool (fb l 20 20); pure (.tagopFull h m sz rel cr)) (0)
      else .bad .reservedValue
    else .bad .badFormat
  | 8 =>
    if fmt = 0 then fin (do let x ← atomA true l; pure (.atom h x)) (fb l 0 0 + (if fb l 7 4 = 9 then 0 else fb l 23 16))
    else .bad .badFormat
  | 9 =>
    if fmt = 0 then fin (do let x ← atomA false l; let cr ← bool (fb l 0 0); pure (.atomv h x cr)) (if fb l 7 4 = 9 then 0 else fb l 23 16)
    else .bad .badFormat
  | 16 =>
    if fmt = 2 then
      fin (do let sz ← sizeC (fb l 23 21); let d ← oN sz.regs (fb l 47 40); let m ← memS l; let sx ← sxC sz (fb l 19 19); pure (.lds h d m sz sx)) ((fb l 20 20) + (fb l 27 24))
    else .bad .badFormat
  | 17 =>
    if fmt = 3 then
      fin (do let d ← o32 (fb l 47 40); let a ← oP (fb l 39 32); let b ← oP (fb l 31 24); let lin ← bool (fb l 0 0); let wrap ← wrapC (fb l 2 1); let norm ← bool (fb l 3 3); let stream ← fin16 (fb l 7 4); pure (.smp h d a b lin wrap norm stream)) ((fb l 23 8))
    else .bad .badFormat
  | 18 =>
    if fmt = 0 then
      fin (do let sc ← scopeC (fb l 1 0); pure (.fsamp h sc)) ((fb l 47 2))
    else .bad .badFormat
  | 24 =>
    if fmt = 0 then
      fin (do let sc ← scopeC (fb l 1 0); let scFence ← bool (fb l 2 2); let k ← tok (fb l 47 40); let cover ← coverC scFence sc (fb l 5 4); pure (.fence h k sc scFence cover)) ((fb l 3 3) + (fb l 39 6))
    else .bad .badFormat
  | 25 =>
    if fmt = 0 then
      fin (do let k ← tok (fb l 39 32); pure (.fwait h k)) ((fb l 31 0) + (fb l 47 40))
    else .bad .badFormat
  | 26 =>
    if fmt = 0 then
      fin (do let mask ← fjoinC (fb l 15 0); pure (.fjoin h mask)) ((fb l 47 16))
    else .bad .badFormat
  | 32 =>
    if fmt = 2 then
      fin (do let a ← oP (fb l 39 32); let ofs ← bv19 (fb l 18 0); let tgt ← prefC (fb l 20 19); pure (.pref h a ofs tgt)) ((fb l 31 21) + (fb l 47 40))
    else .bad .badFormat
  | 33 =>
    if fmt = 2 then
      fin (do let _ ← cwbScope (fb l 27 26); let m ← memW l; let inv ← bool (fb l 19 19); pure (.cwb h m inv)) ((fb l 25 20) + (fb l 47 40))
    else .bad .badFormat
  | 34 =>
    if fmt = 2 then
      if (fb l 20 19) = 0 then fin (do let a ← oP (fb l 39 32); let ofs ← bv19 (fb l 18 0); pure (.cinvIcache h a ofs)) ((fb l 31 21) + (fb l 47 40))
      else if (fb l 20 19) = 1 then fin (do let a ← oP (fb l 39 32); let ofs ← bv19 (fb l 18 0); pure (.cinvDiscard h a ofs)) ((fb l 31 21) + (fb l 47 40))
      else .bad .reservedValue
    else .bad .badFormat
  | _ => .bad .unassignedOpcode

/-- Instruction words of class MX (R56 and the chapters that its table names). -/
def decodeMx (opc fmt : Nat) (h : Gd) (l : Nat) : Dec :=
  match opc with
  | 0 =>
    if fmt = 3 then
      fin (do let a ← oVB8 (fb l 39 32); let slot ← fin4 (fb l 1 0); pure (.mxld h a slot)) ((fb l 31 2) + (fb l 47 40))
    else .bad .badFormat
  | 1 =>
    if fmt = 3 then
      fin (do let t ← tile (fb l 47 40); let slot ← fin4 (fb l 1 0); let acc ← bool (fb l 2 2); pure (.mxrun h t slot acc)) ((fb l 39 3))
    else .bad .badFormat
  | 2 =>
    if fmt = 3 then
      fin (do let t ← tile (fb l 47 40); pure (.mxz h t)) ((fb l 39 0))
    else .bad .badFormat
  | 3 =>
    if fmt = 3 then
      fin (do let t ← tile (fb l 47 40); let a ← o32 (fb l 39 32); let form ← formC (fb l 1 0); let relu ← bool (fb l 2 2); let scale ← scaleO l; pure (.mxst h t a form relu scale))
        (fb l 23 4 + (if fb l 3 3 = 0 then fb l 31 24 else 0))
    else .bad .badFormat
  | 4 =>
    if fmt = 3 then
      fin (do let t ← tile (fb l 47 40); let a ← o32 (fb l 39 32); let f32 ← bool (fb l 0 0); pure (.mxlda h t a f32)) ((fb l 31 1))
    else .bad .badFormat
  | 5 =>
    if fmt = 3 then
      if (fb l 0 0) = 0 then fin (do let d ← o32 (fb l 47 40); pure (.mxqryOcc h d)) ((fb l 39 1))
      else if (fb l 0 0) = 1 then fin (do let d ← oP (fb l 47 40); pure (.mxqryEst h d)) ((fb l 39 1))
      else .bad .reservedValue
    else .bad .badFormat
  | _ => .bad .unassignedOpcode

/-- Instruction words of class CPY (R56 and the chapters that its table names). -/
def decodeCpy (opc fmt : Nat) (h : Gd) (l : Nat) : Dec :=
  match opc with
  | 0 =>
    if fmt = 3 then
      fin (do let x ← copyA l; pure (.cpy h x)) ((fb l 31 7))
    else .bad .badFormat
  | 1 =>
    if fmt = 3 then
      fin (do let x ← copyA l; pure (.cpys h x)) ((fb l 31 7))
    else .bad .badFormat
  | 2 =>
    if fmt = 3 then
      fin (do let x ← copyA l; pure (.cpyb h x)) ((fb l 31 7))
    else .bad .badFormat
  | 3 =>
    if fmt = 3 then
      fin (do let x ← copyA l; pure (.cpyx h x)) ((fb l 31 7))
    else .bad .badFormat
  | 4 =>
    if fmt = 3 then
      fin (do let x ← copyA l; let b ← o32 (fb l 31 24); pure (.cfill h x b)) ((fb l 23 7))
    else .bad .badFormat
  | 8 =>
    if fmt = 0 then
      fin (do let k ← tok (fb l 47 40); pure (.cseal h k)) ((fb l 39 0))
    else .bad .badFormat
  | 9 =>
    if fmt = 0 then
      fin (do let n ← fin64 (fb l 5 0); pure (.cwait h n)) ((fb l 47 6))
    else .bad .badFormat
  | 10 =>
    if fmt = 0 then
      if (fb l 0 0) = 0 then fin (do let d ← oP (fb l 47 40); let k ← tok (fb l 39 32); pure (.cprom h d k)) ((fb l 31 1))
      else if (fb l 0 0) = 1 then fin (do let d ← o32 (fb l 47 40); let k ← tok (fb l 39 32); pure (.cpromStat h d k)) ((fb l 31 1))
      else .bad .reservedValue
    else .bad .badFormat
  | 12 =>
    if fmt = 3 then
      fin (do let d ← oP (fb l 47 40); let sh ← fin8 (fb l 2 0); pure (.cpub h d sh)) ((fb l 39 3))
    else .bad .badFormat
  | 13 =>
    if fmt = 3 then
      if (fb l 3 3) = 0 then fin (do let sh ← fin8 (fb l 2 0); let a ← oP (fb l 39 32); let b ← o32 (fb l 31 24); pure (.cshad h sh a b)) ((fb l 23 4) + (fb l 47 40))
      else if (fb l 3 3) = 1 then fin (do let d ← oP (fb l 47 40); let sh ← fin8 (fb l 2 0); pure (.cshadOff h d sh)) ((fb l 39 4))
      else .bad .reservedValue
    else .bad .badFormat
  | _ => .bad .unassignedOpcode

/-- Instruction words of class FLD (R56 and the chapters that its table names). -/
def decodeFld (opc fmt : Nat) (h : Gd) (l : Nat) : Dec :=
  match opc with
  | 0 =>
    if fmt = 3 then
      fin (do let d ← o32 (fb l 47 40); let a ← oP (fb l 39 32); let s ← fin64 (fb l 5 0); pure (.fopen h d a s)) ((fb l 31 6))
    else .bad .badFormat
  | 1 =>
    if fmt = 3 then
      fin (do let a ← o32 (fb l 39 32); let b ← o32 (fb l 31 24); let s ← fin64 (fb l 5 0); pure (.fst h a b s)) ((fb l 23 6) + (fb l 47 40))
    else .bad .badFormat
  | 2 =>
    if fmt = 3 then
      fin (do let s ← fin64 (fb l 5 0); pure (.fseal h s)) ((fb l 47 6))
    else .bad .badFormat
  | 3 =>
    if fmt = 3 then
      fin (do let a ← oP (fb l 39 32); let src ← fin64 (fb l 5 0); let dst ← fin64 (fb l 11 6); let hops ← hopsC (fb l 15 12); let em ← emptyC (fb l 17 16); pure (.fcomp h a src dst hops em)) ((fb l 31 18) + (fb l 47 40))
    else .bad .badFormat
  | 4 =>
    if fmt = 3 then
      fin (do let s ← fin64 (fb l 5 0); pure (.finv h s)) ((fb l 47 6))
    else .bad .badFormat
  | 5 =>
    if fmt = 3 then
      fin (do let s ← fin64 (fb l 5 0); pure (.frel h s)) ((fb l 47 6))
    else .bad .badFormat
  | 6 =>
    if fmt = 3 then
      if (fb l 6 6) = 0 then fin (do let d ← oP (fb l 47 40); let s ← fin64 (fb l 5 0); pure (.fqry h d s)) ((fb l 39 7))
      else if (fb l 6 6) = 1 then fin (do let d ← oP (fb l 47 40); let s ← fin64 (fb l 5 0); pure (.fqryAnc h d s)) ((fb l 39 7))
      else .bad .reservedValue
    else .bad .badFormat
  | 8 =>
    if fmt = 3 then
      fin (do let d ← oVZ (fb l 47 40); let a ← oP (fb l 39 32); let s ← fin64 (fb l 5 0); let hops ← hopsC (fb l 9 6); let em ← emptyC (fb l 11 10); let pred ← predO l; pure (.hld h d a s hops em pred)) ((fb l 23 13) + (if fb l 12 12 = 0 then fb l 31 24 else 0))
    else .bad .badFormat
  | 9 =>
    if fmt = 3 then
      fin (do let d ← oVB4 (fb l 47 40); let a ← oP (fb l 39 32); let s ← fin64 (fb l 5 0); let hops ← hopsC (fb l 9 6); let em ← emptyC (fb l 11 10); let pred ← predO l; pure (.hres h d a s hops em pred)) ((fb l 23 13) + (if fb l 12 12 = 0 then fb l 31 24 else 0))
    else .bad .badFormat
  | _ => .bad .unassignedOpcode

/-- Instruction words of class SPL (R56 and the chapters that its table names). -/
def decodeSpl (opc fmt : Nat) (h : Gd) (l : Nat) : Dec :=
  match opc with
  | 0 =>
    if fmt = 3 then
      fin (do let a ← oP (fb l 39 32); let b ← o32 (fb l 31 24); pure (.spview h a b)) ((fb l 23 0) + (fb l 47 40))
    else .bad .badFormat
  | 1 =>
    if fmt = 3 then
      fin (do let a ← oP (fb l 39 32); let q ← qbO (fb l 31 24); pure (.spbegin h a q)) ((fb l 23 0) + (fb l 47 40))
    else .bad .badFormat
  | 2 =>
    if fmt = 3 then
      fin (do let a ← oP (fb l 39 32); let b ← o32 (fb l 31 24); pure (.spsub h a b)) ((fb l 23 0) + (fb l 47 40))
    else .bad .badFormat
  | 3 =>
    if fmt = 3 then
      if (fb l 0 0) = 0 then fin (do pure (.spend h)) ((fb l 47 1))
      else if (fb l 0 0) = 1 then fin (do pure (.spendAbort h)) ((fb l 47 1))
      else .bad .reservedValue
    else .bad .badFormat
  | 4 =>
    if fmt = 3 then
      fin (do let a ← oP (fb l 39 32); let b ← oP (fb l 31 24); pure (.spbwd h a b)) ((fb l 23 0) + (fb l 47 40))
    else .bad .badFormat
  | 5 =>
    if fmt = 3 then
      fin (do let a ← oP (fb l 39 32); let b ← oP (fb l 31 24); pure (.spred h a b)) ((fb l 23 0) + (fb l 47 40))
    else .bad .badFormat
  | 6 =>
    if fmt = 3 then
      fin (do let d ← o32 (fb l 47 40); pure (.spqry h d)) ((fb l 39 0))
    else .bad .badFormat
  | _ => .bad .unassignedOpcode

/-- Instruction words of class CTL (R56 and the chapters that its table names). -/
def decodeCtl (opc fmt : Nat) (h : Gd) (l : Nat) : Dec :=
  match opc with
  | 0 =>
    if fmt = 1 then
      fin (do let imm ← word (fb l 31 0); pure (.bra h imm)) ((fb l 47 32))
    else .bad .badFormat
  | 1 =>
    if fmt = 0 then
      fin (do let a ← oP (fb l 39 32); pure (.brx h a)) ((fb l 31 0) + (fb l 47 40))
    else .bad .badFormat
  | 2 =>
    if fmt = 1 then
      fin (do let d ← oVP (fb l 47 40); let imm ← word (fb l 31 0); pure (.call h d imm)) ((fb l 39 32))
    else .bad .badFormat
  | 3 =>
    if fmt = 0 then
      fin (do let a ← oP (fb l 39 32); pure (.ret h a)) ((fb l 31 0) + (fb l 47 40))
    else .bad .badFormat
  | 4 =>
    if fmt = 0 then
      fin (do pure (.exit h)) ((fb l 47 0))
    else .bad .badFormat
  | 6 =>
    if fmt = 1 then
      fin (do let wl ← fin16 (fb l 3 0); let ws ← fin16 (fb l 7 4); let wc ← fin16 (fb l 11 8); let wt ← fin16 (fb l 15 12); pure (.waitc h wl ws wc wt)) ((fb l 47 16))
    else .bad .badFormat
  | 7 =>
    if fmt = 1 then
      fin (do let n ← word (fb l 31 0); pure (.sleep h n)) ((fb l 47 32))
    else .bad .badFormat
  | 8 =>
    if fmt = 0 then
      fin (do let k ← tok (fb l 39 32); pure (.sleepu h k)) ((fb l 31 0) + (fb l 47 40))
    else .bad .badFormat
  | 9 =>
    if fmt = 0 then
      fin (do pure (.yieldI h)) ((fb l 47 0))
    else .bad .badFormat
  | 10 =>
    if fmt = 1 then
      fin (do let b ← fin16 (fb l 3 0); pure (.bar h b)) ((fb l 47 4))
    else .bad .badFormat
  | 11 =>
    if fmt = 0 then
      fin (do let k ← tok (fb l 47 40); let b ← fin4 (fb l 1 0); pure (.arrive h k b)) ((fb l 39 2))
    else .bad .badFormat
  | 12 =>
    if fmt = 0 then
      fin (do let k ← tok (fb l 39 32); pure (.bwait h k)) ((fb l 31 0) + (fb l 47 40))
    else .bad .badFormat
  | 16 =>
    if fmt = 0 then
      fin (do let q ← qb (fb l 47 40); let a ← oVZ (fb l 39 32); let sc ← scopeC (fb l 1 0); pure (.qpush h q a sc)) ((fb l 31 2))
    else .bad .badFormat
  | 17 =>
    if fmt = 0 then
      fin (do let d ← oVZ (fb l 47 40); let q ← qb (fb l 39 32); let st ← o32 (fb l 31 24); let sc ← scopeC (fb l 1 0); pure (.qpop h d q st sc)) ((fb l 23 2))
    else .bad .badFormat
  | 18 =>
    if fmt = 0 then
      fin (do let d ← oVZ (fb l 47 40); let q ← qb (fb l 39 32); let st ← o32 (fb l 31 24); let sc ← scopeC (fb l 1 0); pure (.qtry h d q st sc)) ((fb l 23 2))
    else .bad .badFormat
  | 19 =>
    if fmt = 0 then
      fin (do let q ← qb (fb l 39 32); pure (.qclose h q)) ((fb l 31 0) + (fb l 47 40))
    else .bad .badFormat
  | 20 =>
    if fmt = 0 then
      fin (do let d ← oP (fb l 47 40); let q ← qb (fb l 39 32); pure (.qqry h d q)) ((fb l 31 0))
    else .bad .badFormat
  | 24 =>
    if fmt = 1 then
      fin (do let imm ← word (fb l 31 0); pure (.bkpt h imm)) ((fb l 47 32))
    else .bad .badFormat
  | _ => .bad .unassignedOpcode

/-- Instruction words of class SYS (R56 and the chapters that its table names). The channel of a LAUNCH is read from all of EIMM: one
of 8 or more raises cause 0x02 (R373, log 78). -/
def decodeSys (quay : Bool) (opc fmt : Nat) (h : Gd) (l : Nat) : Dec :=
  match opc with
  | 0 =>
    if fmt = 1 then
      fin (do let imm ← word (fb l 31 0); pure (.trap h imm)) ((fb l 47 32))
    else .bad .badFormat
  | 1 =>
    if fmt = 0 then
      if quay then
        match fb l 2 0 with
        | 0 => fin (do let d ← o32 (fb l 47 40); let a ← oP (fb l 39 32); pure (.tretResume h (.quay d a))) (fb l 31 16 + fb l 15 3)
        | 1 => fin (do let d ← o32 (fb l 47 40); let a ← oP (fb l 39 32); pure (.tretSkip h (.quay d a))) (fb l 31 16 + fb l 15 3)
        | 2 => fin (do let d ← o32 (fb l 47 40); let a ← oP (fb l 39 32); pure (.tretRetry h d a)) (fb l 31 16 + fb l 15 3)
        | 3 => fin (do let d ← o32 (fb l 47 40); let a ← oP (fb l 39 32); pure (.tretFail h d a)) (fb l 31 16 + fb l 15 3)
        | 4 => fin (do let d ← o32 (fb l 47 40); let a ← oP (fb l 39 32); pure (.tretKill h d a)) (fb l 31 16 + fb l 15 3)
        | 5 => fin (do let d ← o32 (fb l 47 40); let a ← oP (fb l 39 32); let b ← oP (fb l 31 24); let c ← o32 (fb l 23 16); pure (.tretAssist h d a b c)) (fb l 15 3)
        | _ => .bad .reservedValue
      else
        match fb l 2 0 with
        | 0 => fin (do let k ← bool (fb l 3 3); pure (.tretResume h (.kernelLocal k))) (fb l 47 16 + fb l 15 4)
        | 1 => fin (do let k ← bool (fb l 3 3); pure (.tretSkip h (.kernelLocal k))) (fb l 47 16 + fb l 15 4)
        | _ => .bad .reservedValue
    else .bad .badFormat
  | 2 =>
    if fmt = 0 then fin (do let r ← privC (fb l 7 0); let a ← oN (r.regs) (fb l 39 32); if r.readOnly then .error .reservedValue else pure (.swr h r a)) (fb l 47 40 + fb l 31 16 + fb l 15 8)
    else .bad .badFormat
  | 3 =>
    if fmt = 0 then
      fin (do let r ← privC (fb l 7 0); let d ← oN r.regs (fb l 47 40); pure (.srdp h d r)) ((fb l 39 8))
    else .bad .badFormat
  | 4 =>
    if fmt = 0 then
      if (fb l 1 0) = 0 then fin (do let a ← oP (fb l 39 32); let b ← o32 (fb l 31 24); pure (.tlbiVa h a b)) ((fb l 23 2) + (fb l 47 40))
      else if (fb l 1 0) = 1 then fin (do let b ← o32 (fb l 31 24); pure (.tlbiAsid h b)) ((fb l 23 2) + (fb l 47 32))
      else if (fb l 1 0) = 2 then fin (do pure (.tlbiAll h)) ((fb l 47 2))
      else .bad .reservedValue
    else .bad .badFormat
  | 5 =>
    if fmt = 0 then
      fin (do let d ← o32 (fb l 47 40); let a ← oP (fb l 39 32); let b ← oP (fb l 31 24); let cont ← bool (fb l 0 0); pure (.split h d a b cont)) ((fb l 23 1))
    else .bad .badFormat
  | 6 =>
    if fmt = 3 then
      fin (do let d ← oVP (fb l 47 40); let a ← oP (fb l 39 32); let ch ← fin8 (fb l 23 0); pure (.launch h d a ch)) ((fb l 31 24))
    else .bad .badFormat
  | 7 =>
    if fmt = 3 then
      fin (do let d ← o32 (fb l 47 40); let a ← oP (fb l 39 32); let b ← oP (fb l 31 24); pure (.attest h d a b)) ((fb l 23 0))
    else .bad .badFormat
  | 8 =>
    if fmt = 0 then
      if (fb l 1 0) = 0 then fin (do let d ← oVB8 (fb l 47 40); pure (.ologrNext h d)) ((fb l 39 2))
      else if (fb l 1 0) = 1 then fin (do let d ← oVB8 (fb l 47 40); let a ← oP (fb l 39 32); pure (.ologrOpnd h d a)) ((fb l 31 2))
      else .bad .reservedValue
    else .bad .badFormat
  | _ => .bad .unassignedOpcode

/-- The guard byte of a word (R40). -/
def guardOf (w : Nat) : Gd :=
  ⟨⟨fb w 55 53, by unfold fb; exact Nat.mod_lt _ (by decide)⟩, fb w 52 52 == 1, fb w 51 51 == 1, fb w 50 50 == 1⟩

/-- Decodes an instruction word in a class (R32, R56 to R58). TRET's form depends on whether the core is a quay core
(R420). -/
def decodeWord (quay : Bool) (cls w : Nat) : Dec :=
  let opc := fb w 63 56
  let fmt := fb w 49 48
  let h := guardOf w
  let l := fb w 47 0
  match cls with
  | 0 => decodeAlu opc fmt h l
  | 1 => decodeMem opc fmt h l
  | 2 => decodeMx opc fmt h l
  | 3 => decodeCpy opc fmt h l
  | 4 => decodeFld opc fmt h l
  | 5 => decodeSpl opc fmt h l
  | 6 => decodeCtl opc fmt h l
  | 7 => decodeSys quay opc fmt h l
  | _ => .bad .unassignedOpcode

/-- A clause header (R31). -/
structure Header where
  cls : Nat
  count : Nat
  wl : Nat
  ws : Nat
  wc : Nat
  wt : Nat
  yld : Bool
  deriving DecidableEq, Repr

/-- Decodes a header: the header, or the cause it raises (R57, in the order of R58). -/
def decodeHeader (quay : Bool) (w : Nat) : Except Nat Header :=
  let cls := fb w 63 60
  if 8 ≤ cls then .error 0x01
  else if fb w 39 36 ≠ 0 ∨ fb w 34 0 ≠ 0 then .error 0x03
  else if quay = true ∧ 2 ≤ cls ∧ cls ≤ 5 then .error 0x02
  else .ok ⟨cls, fb w 59 56 + 1, fb w 55 52, fb w 51 48, fb w 47 44, fb w 43 40, fb w 35 35 == 1⟩

/-- The word of a header (R31). -/
def encodeHeader (h : Header) : Nat :=
  h.cls * 2 ^ 60 + (h.count - 1) * 2 ^ 56 + h.wl * 2 ^ 52 + h.ws * 2 ^ 48 + h.wc * 2 ^ 44 + h.wt * 2 ^ 40
    + (if h.yld then 2 ^ 35 else 0)

/-! ## The encoder -/

/-- A bit. -/
def bn (b : Bool) : Nat := if b then 1 else 0

/-- The upper 16 bits of a word over its lower 48 (R40). -/
def packWord (opc : Nat) (h : Gd) (fmt l : Nat) : Nat :=
  (opc * 2 ^ 8 + h.p.val * 2 ^ 5 + bn h.neg * 2 ^ 4 + bn h.reua * 2 ^ 3 + bn h.reub * 2 ^ 2 + fmt) * 2 ^ 48 + l

/-- A word in format R: D, A, B, C, MOD (R42). -/
def encR (cls opc : Nat) (h : Gd) (d a b c low : Nat) : Option (Nat × Nat) :=
  some (cls, packWord opc h 0 (d * 2 ^ 40 + a * 2 ^ 32 + b * 2 ^ 24 + c * 2 ^ 16 + low))
/-- A word in format I: D, A, IMM. -/
def encI (cls opc : Nat) (h : Gd) (d a low : Nat) : Option (Nat × Nat) :=
  some (cls, packWord opc h 1 (d * 2 ^ 40 + a * 2 ^ 32 + low))
/-- A word in format M: D, A, and the lower 32 bits. -/
def encM (cls opc : Nat) (h : Gd) (d a low : Nat) : Option (Nat × Nat) :=
  some (cls, packWord opc h 2 (d * 2 ^ 40 + a * 2 ^ 32 + low))
/-- A word in format X: D, A, B, EIMM. -/
def encX (cls opc : Nat) (h : Gd) (d a b low : Nat) : Option (Nat × Nat) :=
  some (cls, packWord opc h 3 (d * 2 ^ 40 + a * 2 ^ 32 + b * 2 ^ 24 + low))

def Opnd.byte : Opnd → Nat
  | .v n => n.val
  | .g n => 128 + n.val
  | .z => 255

def SatMode.code : SatMode → Nat
  | .wrap => 0 | .ssat => 2 | .usat => 3
def RMode.code : RMode → Nat
  | .rn => 0 | .rz => 1 | .ru => 2 | .rd => 3
def ICmp.code : ICmp → Nat
  | .eq => 0 | .ne => 1 | .lt => 2 | .le => 3 | .gt => 4 | .ge => 5
def FCmp.code : FCmp → Nat
  | .cmp c ut => c.code + 8 * bn ut | .ord => 6 | .uno => 7
def Merge.code : Merge → Nat
  | .set => 0 | .and => 1 | .or => 2 | .andn => 3
def CvtTy.code : CvtTy → Nat
  | .s8 => 0 | .z8 => 1 | .s16 => 2 | .z16 => 3 | .s32 => 4 | .z32 => 5 | .s64 => 6 | .z64 => 7 | .f16 => 8 | .bf16 => 9
  | .f32 => 10 | .f64 => 11 | .w48 => 12
def ShflMode.code : ShflMode → Nat
  | .abs => 0 | .ofs => 1 | .xor => 2 | .rot => 3
def VoteKind.code : VoteKind → Nat
  | .all => 0 | .any => 1 | .same => 2 | .mask => 3 | .count => 4
def RedOp.code : RedOp → Nat
  | .add => 0 | .and => 1 | .or => 2 | .xor => 3 | .minS => 4 | .minZ => 5 | .maxS => 6 | .maxZ => 7
def Size.code : Size → Nat
  | .b8 => 0 | .b16 => 1 | .b32 => 2 | .b64 => 3 | .b128 => 4
def WrapMode.code : WrapMode → Nat
  | .clamp => 0 | .repeatW => 1 | .border => 2
def Cover.code : Cover → Nat
  | .all => 0 | .reads => 1 | .writes => 2
def PrefTgt.code : PrefTgt → Nat
  | .l1 => 0 | .l2 => 1 | .excl => 2 | .smp => 3
def MxForm.code : MxForm → Nat
  | .w48 => 0 | .f32 => 1 | .f16 => 2 | .bf16 => 3
def Empty.code : Empty → Nat
  | .wait => 0 | .zero => 1 | .miss => 2
def MOrd.code : MOrd → Nat
  | .relaxed => 0 | .acquire => 1 | .release => 2 | .acqrel => 3
def SrdReg.code : SrdReg → Nat
  | .tidx => 0 | .tidy => 1 | .tidz => 2 | .lane => 3 | .quad => 4 | .grpw => 5 | .grpid => 6 | .teamx => 8 | .teamy => 9
  | .teamz => 10 | .clusx => 12 | .clusy => 13 | .clusn => 14 | .gridx => 16 | .gridy => 17 | .gridz => 18 | .core => 20
  | .die => 21 | .stage => 22 | .clockl => 24 | .clockh => 25 | .flags => 28
def PrivReg.code : PrivReg → Nat
  | .partid => 0 | .prows => 1 | .asidw => 2 | .plimit => 3 | .wroot => 4 | .wasid => 5 | .btgrant => 6
  | .asroot c => 16 + c.val | .asasid c => 24 + c.val
def AtOp.code : AtOp → Nat
  | .add => 0 | .and => 1 | .or => 2 | .xor => 3 | .minS => 4 | .minZ => 5 | .maxS => 6 | .maxZ => 7 | .xchg => 8
  | .cas _ => 9 | .inc => 10 | .dec => 11 | .fadd => 12 | .fmin => 13 | .fmax => 14
/-- The C field of an atomic. -/
def AtOp.cByte : AtOp → Nat
  | .cas c => c.byte
  | _ => 0
def MemArg.code (m : MemArg) : Nat :=
  m.stream.val * 2 ^ 28 + m.scope.code * 2 ^ 26 + m.ofs.toNat
def CopyArg.code (x : CopyArg) : Nat :=
  bn x.rel * 2 ^ 6 + x.scope.code * 2 ^ 4 + x.stream.val
def AtomArg.code (x : AtomArg) : Nat :=
  x.stream.val * 2 ^ 12 + x.scope.code * 2 ^ 10 + x.ord.code * 2 ^ 8 + x.op.code * 2 ^ 4 + (2 + bn x.b64) * 2
def qbCode : Option (Fin 8) → Nat
  | none => 255
  | some q => 200 + q.val
def predCode : Option (Fin 8) → Nat
  | none => 0
  | some _ => 4096
def predByte : Option (Fin 8) → Nat
  | none => 0
  | some p => p.val
def scaleCode : Option Opnd → Nat
  | none => 0
  | some _ => 8
def scaleByte : Option Opnd → Nat
  | none => 0
  | some o => o.byte

/-- The class and the word of an instruction (R40 to R45, R56); none for an event. -/
def encode (i : Instr) : Option (Nat × Nat) :=
  match i with
  | .nop h => encR 0 0 h 0 0 0 0 0
  | .iadd h d a b sat => encR 0 1 h d.byte a.byte b.byte 0 sat.code
  | .iaddI h d a imm => encI 0 1 h d.byte a.byte imm.toNat
  | .isub h d a b sat => encR 0 2 h d.byte a.byte b.byte 0 sat.code
  | .isubI h d a imm => encI 0 2 h d.byte a.byte imm.toNat
  | .imul h d a b => encR 0 3 h d.byte a.byte b.byte 0 0
  | .imulI h d a imm => encI 0 3 h d.byte a.byte imm.toNat
  | .imulh h d a b uns => encR 0 4 h d.byte a.byte b.byte 0 (bn uns)
  | .imad h d a b c => encR 0 5 h d.byte a.byte b.byte c.byte 0
  | .imadw h d a b c uns => encR 0 6 h d.byte a.byte b.byte c.byte (bn uns)
  | .idiv h d a b uns => encR 0 7 h d.byte a.byte b.byte 0 (bn uns)
  | .irem h d a b uns => encR 0 8 h d.byte a.byte b.byte 0 (bn uns)
  | .iabs h d a sat => encR 0 9 h d.byte a.byte 0 0 (bn sat * 2)
  | .ineg h d a sat => encR 0 10 h d.byte a.byte 0 0 (bn sat * 2)
  | .imin h d a b uns => encR 0 11 h d.byte a.byte b.byte 0 (bn uns)
  | .iminI h d a imm => encI 0 11 h d.byte a.byte imm.toNat
  | .imax h d a b uns => encR 0 12 h d.byte a.byte b.byte 0 (bn uns)
  | .imaxI h d a imm => encI 0 12 h d.byte a.byte imm.toNat
  | .iclamp h d a b c uns => encR 0 13 h d.byte a.byte b.byte c.byte (bn uns)
  | .andB h d a b => encR 0 16 h d.byte a.byte b.byte 0 0
  | .andI h d a imm => encI 0 16 h d.byte a.byte imm.toNat
  | .orB h d a b => encR 0 17 h d.byte a.byte b.byte 0 0
  | .orI h d a imm => encI 0 17 h d.byte a.byte imm.toNat
  | .xorB h d a b => encR 0 18 h d.byte a.byte b.byte 0 0
  | .xorI h d a imm => encI 0 18 h d.byte a.byte imm.toNat
  | .andnB h d a b => encR 0 19 h d.byte a.byte b.byte 0 0
  | .andnI h d a imm => encI 0 19 h d.byte a.byte imm.toNat
  | .lop3 h d a b c lut => encR 0 20 h d.byte a.byte b.byte c.byte lut.toNat
  | .shl h d a b => encR 0 21 h d.byte a.byte b.byte 0 0
  | .shlI h d a imm => encI 0 21 h d.byte a.byte imm.toNat
  | .shr h d a b s => encR 0 22 h d.byte a.byte b.byte 0 (bn s)
  | .shrI h d a imm => encI 0 22 h d.byte a.byte imm.toNat
  | .rot h d a b rt => encR 0 23 h d.byte a.byte b.byte 0 (bn rt)
  | .rotI h d a imm => encI 0 23 h d.byte a.byte imm.toNat
  | .shf h d a b c rt => encR 0 24 h d.byte a.byte b.byte c.byte (bn rt)
  | .bfe h d a b s => encR 0 25 h d.byte a.byte b.byte 0 (bn s)
  | .bfi h d a b c => encR 0 26 h d.byte a.byte b.byte c.byte 0
  | .popc h d a => encR 0 27 h d.byte a.byte 0 0 0
  | .clz h d a => encR 0 28 h d.byte a.byte 0 0 0
  | .ctz h d a => encR 0 29 h d.byte a.byte 0 0 0
  | .brev h d a => encR 0 30 h d.byte a.byte 0 0 0
  | .perm h d a b c => encR 0 31 h d.byte a.byte b.byte c.byte 0
  | .iadd64 h d a b => encR 0 32 h d.byte a.byte b.byte 0 0
  | .iadd64I h d a imm => encI 0 32 h d.byte a.byte imm.toNat
  | .isub64 h d a b => encR 0 33 h d.byte a.byte b.byte 0 0
  | .imad64 h d a b c => encR 0 34 h d.byte a.byte b.byte c.byte 0
  | .shl64 h d a b => encR 0 35 h d.byte a.byte b.byte 0 0
  | .shr64 h d a b s => encR 0 36 h d.byte a.byte b.byte 0 (bn s)
  | .lea h d a b sh s => encR 0 37 h d.byte a.byte b.byte 0 (sh.val + bn s * 8)
  | .isetp h p a b c uns mg => encR 0 40 h p.val a.byte b.byte 0 (c.code + bn uns * 8 + mg.code * 16)
  | .fsetp h p a b c mg => encR 0 41 h p.val a.byte b.byte 0 (c.code + mg.code * 16)
  | .dsetp h p a b c mg => encR 0 42 h p.val a.byte b.byte 0 (c.code + mg.code * 16)
  | .sel h d a b c => encR 0 44 h d.byte a.byte b.byte c.byte 0
  | .plop h d a b c lut => encR 0 45 h d.val a.val b.val c.val lut.toNat
  | .p2v h d => encR 0 46 h d.byte 0 0 0 0
  | .v2p h a mask => encR 0 47 h 0 a.byte 0 0 mask.toNat
  | .mov h d a b64 => encR 0 48 h d.byte a.byte 0 0 (bn b64)
  | .movi h d imm => encI 0 49 h d.byte 0 imm.toNat
  | .srd h d r => encR 0 0x32 h d.byte r.code 0 0 0
  | .srdClr h d => encR 0 0x32 h d.byte 28 0 0 1
  | .fadd h d a b rm na nb => encR 0 64 h d.byte a.byte b.byte 0 (rm.code + bn na * 16 + bn nb * 32)
  | .fmul h d a b rm na nb => encR 0 65 h d.byte a.byte b.byte 0 (rm.code + bn na * 16 + bn nb * 32)
  | .ffma h d a b c rm na nb nc => encR 0 66 h d.byte a.byte b.byte c.byte (rm.code + bn na * 16 + bn nb * 32 + bn nc * 64)
  | .fmin h d a b => encR 0 67 h d.byte a.byte b.byte 0 0
  | .fmax h d a b => encR 0 68 h d.byte a.byte b.byte 0 0
  | .frnd h d a rm x => encR 0 69 h d.byte a.byte 0 0 (rm.code + bn x * 4)
  | .fdiv h d a b rm => encR 0 70 h d.byte a.byte b.byte 0 rm.code
  | .fsqrt h d a rm => encR 0 71 h d.byte a.byte 0 0 rm.code
  | .frsq h d a => encR 0 72 h d.byte a.byte 0 0 0
  | .frcp h d a => encR 0 73 h d.byte a.byte 0 0 0
  | .fex2 h d a => encR 0 74 h d.byte a.byte 0 0 0
  | .flg2 h d a => encR 0 75 h d.byte a.byte 0 0 0
  | .fsinpi h d a => encR 0 76 h d.byte a.byte 0 0 0
  | .fcospi h d a => encR 0 77 h d.byte a.byte 0 0 0
  | .fclass h d a => encR 0 78 h d.byte a.byte 0 0 0
  | .fscale h d a b rm => encR 0 79 h d.byte a.byte b.byte 0 rm.code
  | .dadd h d a b rm na nb => encR 0 80 h d.byte a.byte b.byte 0 (rm.code + bn na * 16 + bn nb * 32)
  | .dmul h d a b rm na nb => encR 0 81 h d.byte a.byte b.byte 0 (rm.code + bn na * 16 + bn nb * 32)
  | .dfma h d a b c rm na nb nc => encR 0 82 h d.byte a.byte b.byte c.byte (rm.code + bn na * 16 + bn nb * 32 + bn nc * 64)
  | .dmin h d a b => encR 0 83 h d.byte a.byte b.byte 0 0
  | .dmax h d a b => encR 0 84 h d.byte a.byte b.byte 0 0
  | .ddiv h d a b rm => encR 0 85 h d.byte a.byte b.byte 0 rm.code
  | .dsqrt h d a rm => encR 0 86 h d.byte a.byte 0 0 rm.code
  | .hadd2 h d a b na nb => encR 0 88 h d.byte a.byte b.byte 0 (bn na * 16 + bn nb * 32)
  | .hmul2 h d a b na nb => encR 0 89 h d.byte a.byte b.byte 0 (bn na * 16 + bn nb * 32)
  | .hfma2 h d a b c na nb nc => encR 0 90 h d.byte a.byte b.byte c.byte (bn na * 16 + bn nb * 32 + bn nc * 64)
  | .hmin2 h d a b => encR 0 91 h d.byte a.byte b.byte 0 0
  | .hmax2 h d a b => encR 0 92 h d.byte a.byte b.byte 0 0
  | .bfma2 h d a b c na nb nc => encR 0 93 h d.byte a.byte b.byte c.byte (bn na * 16 + bn nb * 32 + bn nc * 64)
  | .badd2 h d a b na nb => encR 0 94 h d.byte a.byte b.byte 0 (bn na * 16 + bn nb * 32)
  | .bmul2 h d a b na nb => encR 0 95 h d.byte a.byte b.byte 0 (bn na * 16 + bn nb * 32)
  | .idot4 h d a b c ua ub sat => encR 0 96 h d.byte a.byte b.byte c.byte (bn ua + bn ub * 2 + bn sat * 4)
  | .cvt h d a rm dst src elem => encR 0 104 h d.byte a.byte 0 0 (dst.code * 64 + src.code * 4 + rm.code + elem.val * 1024)
  | .dxpack h d a b dx4 dist => encR 0 105 h d.byte a.byte b.byte 0 (bn dx4 + dist.val * 2)
  | .dxunpk h d a b dx4 hi => encR 0 106 h d.byte a.byte b.byte 0 (bn dx4 + bn hi * 2)
  | .shfl h d a b c m => encR 0 112 h d.byte a.byte b.byte c.byte m.code
  | .vote h d a b k => encR 0 113 h d.byte a.byte b.byte 0 k.code
  | .redux h d a b op => encR 0 114 h d.byte a.byte b.byte 0 op.code
  | .elect h d b => encR 0 115 h d.byte 0 b.byte 0 0
  | .matchL h d a b w64 => encR 0 116 h d.byte a.byte b.byte 0 (bn w64)
  | .scan h d a b op excl => encR 0 117 h d.byte a.byte b.byte 0 (op.code + bn excl * 8)
  | .rdfirst h d a b w64 => encR 0 118 h d.byte a.byte b.byte 0 (bn w64)
  | .crossLaneCompletion _ => none
  | .ld h d m sz sx acq prom => encM 1 0 h d.byte m.a.byte (sz.code * 2097152 + m.code + bn sx * 524288 + bn acq * 16777216 + bn prom * 1048576)
  | .st h d m sz rel => encM 1 1 h d.byte m.a.byte (sz.code * 2097152 + m.code + (2 * bn rel) * 16777216)
  | .ldv h d m sz sx acq cr => encM 1 2 h d.byte m.a.byte (sz.code * 2097152 + m.code + bn sx * 524288 + bn acq * 16777216 + bn cr * 1048576)
  | .stv h d m sz rel cr => encM 1 3 h d.byte m.a.byte (sz.code * 2097152 + m.code + (2 * bn rel) * 16777216 + bn cr * 1048576)
  | .ldt h d m sz take acq cr => encM 1 4 h d.byte m.a.byte (sz.code * 2097152 + m.code + bn take * 524288 + bn acq * 16777216 + bn cr * 1048576)
  | .stt h d m sz rel cr => encM 1 5 h d.byte m.a.byte (sz.code * 2097152 + m.code + (2 * bn rel) * 16777216 + bn cr * 1048576)
  | .tagopEmpty h m sz rel cr => encM 1 6 h 255 m.a.byte (sz.code * 2097152 + m.code + (2 * bn rel) * 16777216 + bn cr * 1048576)
  | .tagopFull h m sz rel cr => encM 1 6 h 255 m.a.byte (sz.code * 2097152 + m.code + (2 * bn rel) * 16777216 + bn cr * 1048576 + 524288)
  | .atom h x => encR 1 0x08 h x.d.byte x.a.byte x.b.byte x.op.cByte x.code
  | .atomv h x cr => encR 1 0x09 h x.d.byte x.a.byte x.b.byte x.op.cByte (x.code + bn cr)
  | .lds h d m sz sx => encM 1 16 h d.byte m.a.byte (sz.code * 2097152 + m.code + bn sx * 524288)
  | .smp h d a b lin wrap norm stream => encX 1 17 h d.byte a.byte b.byte (bn lin + wrap.code * 2 + bn norm * 8 + stream.val * 16)
  | .fsamp h sc => encR 1 18 h 0 0 0 0 sc.code
  | .fsampComplete _ => none
  | .fence h k sc scFence cover => encR 1 24 h (192 + k.val) 0 0 0 (sc.code + bn scFence * 4 + cover.code * 16)
  | .fwait h k => encR 1 25 h 0 (192 + k.val) 0 0 0
  | .fwaitComplete _ => none
  | .fjoin h mask => encR 1 26 h 0 0 0 0 mask.toNat
  | .pref h a ofs tgt => encM 1 32 h 0 a.byte (ofs.toNat + tgt.code * 524288)
  | .cwb h m inv => encM 1 33 h 0 m.a.byte (m.code + bn inv * 524288)
  | .cinvIcache h a ofs => encM 1 34 h 0 a.byte ofs.toNat
  | .cinvDiscard h a ofs => encM 1 34 h 0 a.byte (ofs.toNat + 524288)
  | .perform _ _ => none
  | .propagate _ _ => none
  | .advance _ => none
  | .publish _ => none
  | .barrier _ => none
  | .scStep _ => none
  | .mxld h a slot => encX 2 0 h 0 a.byte 0 slot.val
  | .mxrun h t slot acc => encX 2 1 h (208 + t.val) 0 0 (slot.val + bn acc * 4)
  | .mxz h t => encX 2 2 h (208 + t.val) 0 0 0
  | .mxst h t a form relu scale => encX 2 0x03 h (208 + t.val) a.byte (scaleByte scale) (scaleCode scale + bn relu * 4 + form.code)
  | .mxlda h t a f32 => encX 2 4 h (208 + t.val) a.byte 0 (bn f32)
  | .mxqryOcc h d => encX 2 5 h d.byte 0 0 0
  | .mxqryEst h d => encX 2 5 h d.byte 0 0 1
  | .mxldOperation _ => none
  | .mxrunOperation _ _ => none
  | .mxzOperation _ => none
  | .mxstOperation _ _ => none
  | .mxldaOperation _ => none
  | .cpy h x => encX 3 0 h x.d.byte x.a.byte 0 x.code
  | .cpys h x => encX 3 1 h x.d.byte x.a.byte 0 x.code
  | .cpyb h x => encX 3 2 h x.d.byte x.a.byte 0 x.code
  | .cpyx h x => encX 3 3 h x.d.byte x.a.byte 0 x.code
  | .cfill h x b => encX 3 4 h x.d.byte x.a.byte b.byte x.code
  | .cseal h k => encR 3 8 h (192 + k.val) 0 0 0 0
  | .cwait h n => encR 3 9 h 0 0 0 0 n.val
  | .cprom h d k => encR 3 10 h d.byte (192 + k.val) 0 0 0
  | .cpromStat h d k => encR 3 10 h d.byte (192 + k.val) 0 0 1
  | .cpub h d sh => encX 3 12 h d.byte 0 0 sh.val
  | .cshad h sh a b => encX 3 13 h 0 a.byte b.byte sh.val
  | .cshadOff h d sh => encX 3 13 h d.byte 0 0 (sh.val + 8)
  | .copyAdmission _ => none
  | .copyStart _ _ => none
  | .copyComplete _ => none
  | .shadowDisarm _ => none
  | .fopen h d a s => encX 4 0 h d.byte a.byte 0 s.val
  | .fst h a b s => encX 4 1 h 0 a.byte b.byte s.val
  | .fseal h s => encX 4 2 h 0 0 0 s.val
  | .fcomp h a src dst hops em => encX 4 3 h 0 a.byte 0 (src.val + dst.val * 64 + hops.val * 4096 + em.code * 65536)
  | .finv h s => encX 4 4 h 0 0 0 s.val
  | .frel h s => encX 4 5 h 0 0 0 s.val
  | .fqry h d s => encX 4 6 h d.byte 0 0 s.val
  | .fqryAnc h d s => encX 4 6 h d.byte 0 0 (s.val + 64)
  | .hld h d a s hops em pred => encX 4 8 h d.byte a.byte (predByte pred) (s.val + hops.val * 64 + em.code * 1024 + predCode pred)
  | .hres h d a s hops em pred => encX 4 9 h d.byte a.byte (predByte pred) (s.val + hops.val * 64 + em.code * 1024 + predCode pred)
  | .fopenInstall _ => none
  | .fsealAck _ => none
  | .fcompComplete _ _ => none
  | .finvRetirePoint _ => none
  | .finvComplete _ => none
  | .frelComplete _ => none
  | .walkReread _ => none
  | .walkEnd _ => none
  | .spview h a b => encX 5 0 h 0 a.byte b.byte 0
  | .spbegin h a q => encX 5 1 h 0 a.byte (qbCode q) 0
  | .spsub h a b => encX 5 2 h 0 a.byte b.byte 0
  | .spend h => encX 5 3 h 0 0 0 0
  | .spendAbort h => encX 5 3 h 0 0 0 1
  | .spbwd h a b => encX 5 4 h 0 a.byte b.byte 0
  | .spred h a b => encX 5 5 h 0 a.byte b.byte 0
  | .spqry h d => encX 5 6 h d.byte 0 0 0
  | .spviewOperation _ => none
  | .spbeginOperation _ => none
  | .spsubOperation _ => none
  | .spendOperation _ => none
  | .spendAbortOperation _ => none
  | .spbwdOperation _ => none
  | .spredOperation _ => none
  | .tileRecordPush _ _ => none
  | .bra h imm => encI 6 0 h 0 0 imm.toNat
  | .brx h a => encR 6 1 h 0 a.byte 0 0 0
  | .call h d imm => encI 6 2 h d.byte 0 imm.toNat
  | .ret h a => encR 6 3 h 0 a.byte 0 0 0
  | .exit h => encR 6 4 h 0 0 0 0 0
  | .waitc h wl ws wc wt => encI 6 6 h 0 0 (wl.val + ws.val * 16 + wc.val * 256 + wt.val * 4096)
  | .sleep h n => encI 6 7 h 0 0 n.toNat
  | .sleepDeadline _ => none
  | .sleepu h k => encR 6 8 h 0 (192 + k.val) 0 0 0
  | .missedPromise _ => none
  | .yieldI h => encR 6 9 h 0 0 0 0 0
  | .bar h b => encI 6 10 h 0 0 b.val
  | .arrive h k b => encR 6 11 h (192 + k.val) 0 0 0 b.val
  | .bwait h k => encR 6 12 h 0 (192 + k.val) 0 0 0
  | .qpush h q a sc => encR 6 16 h (200 + q.val) a.byte 0 0 sc.code
  | .qpop h d q st sc => encR 6 17 h d.byte (200 + q.val) st.byte 0 sc.code
  | .qtry h d q st sc => encR 6 18 h d.byte (200 + q.val) st.byte 0 sc.code
  | .qclose h q => encR 6 19 h 0 (200 + q.val) 0 0 0
  | .qqry h d q => encR 6 20 h d.byte (200 + q.val) 0 0 0
  | .bkpt h imm => encI 6 24 h 0 0 imm.toNat
  | .pushQueueStep _ => none
  | .stageTimerExpiry _ _ => none
  | .binLaunch _ _ => none
  | .cadenceBoundary _ => none
  | .trap h imm => encI 7 0 h 0 0 imm.toNat
  | .tretResume h (.kernelLocal k) => encR 7 1 h 0 0 0 0 (bn k * 8)
  | .tretResume h (.quay d a) => encR 7 1 h d.byte a.byte 0 0 0
  | .tretSkip h (.kernelLocal k) => encR 7 1 h 0 0 0 0 (bn k * 8 + 1)
  | .tretSkip h (.quay d a) => encR 7 1 h d.byte a.byte 0 0 1
  | .tretRetry h d a => encR 7 1 h d.byte a.byte 0 0 2
  | .tretFail h d a => encR 7 1 h d.byte a.byte 0 0 3
  | .tretKill h d a => encR 7 1 h d.byte a.byte 0 0 4
  | .tretAssist h d a b c => encR 7 1 h d.byte a.byte b.byte c.byte 5
  | .swr h r a => encR 7 2 h 0 a.byte 0 0 r.code
  | .srdp h d r => encR 7 3 h d.byte 0 0 0 r.code
  | .tlbiVa h a b => encR 7 4 h 0 a.byte b.byte 0 0
  | .tlbiAsid h b => encR 7 4 h 0 0 b.byte 0 1
  | .tlbiAll h => encR 7 4 h 0 0 0 0 2
  | .tlbiComplete _ => none
  | .split h d a b cont => encR 7 5 h d.byte a.byte b.byte 0 (bn cont)
  | .launch h d a ch => encX 7 6 h d.byte a.byte 0 ch.val
  | .launchResult _ => none
  | .attest h d a b => encX 7 7 h d.byte a.byte b.byte 0
  | .attestComplete _ => none
  | .ologrNext h d => encR 7 8 h d.byte 0 0 0 0
  | .ologrOpnd h d a => encR 7 8 h d.byte a.byte 0 0 1
  | .faultRecordQueued _ => none
  | .clauseStart _ _ => none
  | .continuationStart _ _ => none
  | .pendingTimeout _ => none
  | .doorbell _ _ => none
  | .clusterPlace _ => none
  | .gangPlace _ => none
  | .drainLimitExpiry _ => none
  | .shadowContextSwitch _ _ => none
  | .contextRestore _ => none
  | .teamEnd _ => none
  | .gridEnd _ => none
  | .run _ => none
  | .halt _ => none
  | .partitionHalted _ => none
  | .plimit _ _ => none
  | .configRegisterWrite _ _ => none
  | .homeReadRequest _ _ _ => none
  | .homeOwnershipRequest _ _ _ => none
  | .homeWriteBack _ _ _ => none
  | .probe _ => none
  | .dropNotice _ _ _ => none
  | .signatureRebuild _ => none
  | .directoryRequest _ _ _ => none
  | .promote _ _ => none
  | .reset _ _ _ => none
  | .correctedError _ _ _ => none
  | .poison _ _ => none
  | .flitRetry _ _ => none
  | .linkRetrain _ => none
  | .linkDown _ => none
  | .dieFailure _ => none
  | .ageingEstimate _ _ _ => none
  | .probeAcknowledgement _ => none
  | .grant _ => none
  | .peerAccess _ _ _ => none
  | .retrainComplete _ _ => none
  | .downLinkTimeout _ => none
  | .registerFileError _ _ => none
  | .salvageCopy _ _ => none
  | .firmwareMemoryWrite _ _ => none

/-! ## The opcode table's numbering -/

/-- Reads an instruction whose bits are numbered as the opcode table numbers them. The words in order are the clause
header, of which the class decides how the second word is read (R32), and the instruction word; both are little-endian
in memory (R27). A word that only a quay core takes (a quay form of TRET, R420) is read as that core reads it. None where
the header or the word is refused. -/
def decodeTableWord (nbits w : Nat) : Option Instr :=
  let t := w % 2 ^ nbits
  match decodeHeader false (fb t 63 0) with
  | .error _ => none
  | .ok hd =>
    match decodeWord false hd.cls (fb t 127 64) with
    | .ok i => some i
    | _ =>
      match decodeWord true hd.cls (fb t 127 64) with
      | .ok i => some i
      | _ => none

end Sys2Proof
end

