-- ==== Sys2Proof/Machine/State.lean ====
section
/-!
DEFINITION. The state of a ZQ9 module: threads, groups, teams and launches, the abstract memory machine, the engines,
partitions and their quay cores, coherence and error state; all of it plain data. Lists keyed by identifiers hold what
exists; numbers of the manual are `Nat` where no program sees them as a word.
-/
namespace Sys2Proof.Machine

/-- Why the machine as a whole stops. The manual names nothing that stops it: every trap is a next state. -/
inductive Fault where
  /-- Raised by no instruction: kept so that the outcome type has a name for it. Safe. -/
  | none
  deriving DecidableEq, Repr

/-- Why an instruction has no meaning here. -/
inductive Refusal where
  /-- Raised by an arm of `exec` whose instruction is not modelled yet. Safe: no claim is made of it. -/
  | notModelled (mnemonic : String)
  deriving DecidableEq, Repr

/-- Memory by byte: strictly rising addresses, no entry of the value that an unlisted address reads as (0, log 9). -/
abbrev Memory := List Host.Cell

/-! ## Threads -/

/-- What a k register holds (R51): a fence, a copy batch, or a phase of a cluster barrier. -/
inductive Token where
  | fence (id : Nat)
  | batch (id : Nat)
  | phase (cl b n : Nat)
  deriving DecidableEq, Repr

/-- A register, as the scoreboard names it (R38). -/
inductive RegRef where
  | v (n : Nat)
  | g (n : Nat)
  | p (n : Nat)
  | k (n : Nat)
  deriving DecidableEq, Repr

/-- A place in code: the header of its clause, the address of the next word, and whether that lies inside the clause (R400, R412). -/
structure Pos where
  hdr : Dword
  pc : Dword
  mid : Bool
  deriving DecidableEq, Repr

/-- Where a thread stands with respect to issue (R319, R354). -/
inductive Mode where
  /-- At a clause header. -/
  | header
  /-- In the issue set of its quadrant. -/
  | run
  /-- Before a continuation; its clause must be fetched again when `refetch`. -/
  | cont (refetch : Bool)
  /-- Left its issue set at a scoreboard wait, a wait at issue or an atomic, to resume the clause alone (R319, R247). -/
  | held
  deriving DecidableEq, Repr

/-- What a thread waits for in the middle of a clause (R321). -/
inductive Wait where
  | none
  /-- WAITC (R358). -/
  | counters (wl ws wc wt : Nat)
  /-- CWAIT (R291). -/
  | batches (n : Nat)
  /-- SLEEP (R359). -/
  | sleep (deadline : Nat)
  /-- SLEEPU (R360): the batch, and the place of the SLEEPU. -/
  | sleepu (batch : Nat) (at_ : Pos)
  /-- CPROM (R292). -/
  | prom (batch : Nat) (d : Opnd)
  /-- FWAIT (R254). -/
  | fence (id : Nat)
  /-- BAR (R363): the barrier and the phase. -/
  | bar (b n : Nat)
  /-- BWAIT (R365). -/
  | phase (cl b n : Nat)
  /-- A cross-lane instruction (R111): its arrival. -/
  | xlane (arrival : Nat)
  /-- An atomic (R247): its access. -/
  | atomic (id : Nat)
  /-- A push that has not taken its queue step (R367): its access. -/
  | push (id : Nat)
  /-- At a LAUNCH (R373): its number, the number of its issue, its result register, the channel, the address of the block. -/
  | launch (op iss : Nat) (d : Opnd) (ch ea : Nat)
  /-- At an ATTEST (R394): its result register, the addresses of the nonce and of the buffer. -/
  | attest (d : Opnd) (nonce buf : Nat)
  /-- TLBI, or the TLBI at the end of SPLIT (R384, R385). -/
  | tlbi (op : Nat) (d : Opnd)
  /-- OLOGR.NEXT (R421). -/
  | record (d : Opnd)
  /-- Before an FLD instruction that names pending slots (R177). -/
  | slots (ks : List Nat)
  /-- Before a history load, while the chain walker is full (R207). -/
  | walker
  /-- Before an ARRIVE, while the phase of the previous arrival has not completed (R364). -/
  | prior (cl b n : Nat)
  /-- Before an MX instruction, while the engine works for another context of the core (R136). -/
  | engine
  /-- Its SPBEGIN has found splat units held (R146): the operation. -/
  | units (op : Nat)
  deriving DecidableEq, Repr

/-- The four outstanding-operation counters, 0 to 63 each (R33). -/
structure Counters where
  loads : Nat
  stores : Nat
  batches : Nat
  tiles : Nat
  deriving DecidableEq, Repr

/-- A cause waiting for a clause header (R400): cause, reason, ADDR, INFO, and whether the kernel-local handler takes it. -/
structure Cause where
  cause : Nat
  reason : Nat
  addr : Nat
  info : Nat
  disocc : Bool
  /-- PC of the record, where it is not the point of delivery. -/
  pc : Option Nat
  deriving DecidableEq, Repr

/-- What entry to a kernel-local handler saves (R402). -/
structure LocalSave where
  resume : Pos
  skip : Pos
  v : List Word
  p : BitVec 7
  flags : BitVec 5
  deriving DecidableEq, Repr

/-- A thread stopped at a record: the record's identifier and its two resume points (R400, R404). -/
structure Stop where
  rid : Nat
  resume : Pos
  skip : Pos
  deriving DecidableEq, Repr

/-- Where a thread belongs and what its special registers read (R53, R109, R303). -/
structure Place where
  core : CoreId
  quad : Nat
  lane : Nat
  team : Nat
  grp : Nat
  grpid : Nat
  set : Nat
  member : Nat
  tx : Nat
  ty : Nat
  tz : Nat
  part : Nat
  root : Nat
  asid : Nat
  priv : Bool
  budget : Nat
  /-- The thread's cluster point (R211). -/
  clp : Point
  deriving DecidableEq, Repr

/-- The clause a thread executes (R29, R31): class, YIELD, fetched words. -/
structure Clause where
  cls : Nat
  yld : Bool
  words : List Nat
  deriving DecidableEq, Repr

/-- The registers of a thread (R45, R47, R51, R54, R72). -/
structure Regs where
  v : Vector Word 128
  p : BitVec 7
  k : Vector (Option Token) 8
  flags : BitVec 5
  clockh : Option Word
  deriving DecidableEq, Repr

/-- Arrivals of a thread: cross-lane executions by address, and at each barrier (R110, R362). -/
structure Counts where
  xl : List (Nat × Nat)
  tbar : List (Nat × Nat)
  cbar : List (Nat × Nat)
  deriving DecidableEq, Repr

/-- What a thread has outstanding. -/
structure Outst where
  /-- The scoreboard (R38): operation and register. -/
  pend : List (Nat × RegRef)
  /-- Causes waiting for the next clause header (R400). -/
  causes : List Cause
  /-- Causes of failed deferred accesses, taken at the next issue (R409). -/
  hits : List Cause
  /-- Writes of completed MX, SPL and FLD operations that the thread has not seen complete (R226). -/
  unseenT : List Nat
  /-- Writes of the copies of finished batches that the thread has not seen complete (R226, R289). -/
  unseenC : List Nat
  /-- Copy operations issued and not sealed (R290). -/
  unsealed : List Nat
  /-- The number of the next batch, modulo 2^16 (R290). -/
  batchNo : Nat
  /-- FSAMPs not complete: scope and the access number that bounds their earlier reads (R224, R252). -/
  fsamp : List (Scope × Nat)
  /-- FJOINs: the stream set and the access number at its issue (R220). -/
  joins : List (BitVec 16 × Nat)
  /-- Registers with an uncorrectable error (R428). -/
  bad : List Nat
  deriving DecidableEq, Repr

/-- A thread. -/
structure Thread where
  id : Nat
  place : Place
  regs : Regs
  pos : Pos
  mode : Mode
  clause : Clause
  wait : Wait
  ctr : Counters
  cnt : Counts
  out : Outst
  /-- The observed set O(t) of global writes (R210). -/
  obs : List Nat
  /-- Saved state while inside a kernel-local handler (R402). -/
  kl : Option LocalSave
  stop : Option Stop
  exited : Bool
  /-- When it last issued or became ready (R319). -/
  since : Nat
  /-- It was ready, or issuing, at the end of the last step. -/
  rdy : Bool
  deriving DecidableEq, Repr

/-- A group (R302, R319, R322). -/
structure Group where
  id : Nat
  team : Nat
  core : CoreId
  quad : Nat
  width : Nat
  g : Vector Word 64
  pend : List (Nat × Nat)
  active : Bool
  /-- Its slot of the active set, 0 to 7, while it is active (R319, R322). -/
  slot : Nat
  /-- When it entered the set in which it stands. -/
  entered : Nat
  /-- Since when it has been ready in the pending set: cycle, and the number of the step (R322). -/
  rdyAt : Option (Nat × Nat)
  /-- Groups preferred to it since it yielded (R36). -/
  yld : List Nat
  /-- L1 lines dirtied since its last QPUSH, and whether the set has overflowed (R275). -/
  dirty : List Nat
  overflow : Bool
  deriving DecidableEq, Repr

/-- A team (R303, R314, R318, R362). A quay core's thread forms a team of its own (R54, R211). -/
structure Team where
  id : Nat
  launch : Nat
  cluster : Nat
  part : Nat
  core : CoreId
  ctx : Nat
  quads : List Nat
  nx : Nat
  ny : Nat
  nz : Nat
  tmx : Nat
  tmy : Nat
  tmz : Nat
  clx : Nat
  cly : Nat
  gx : Nat
  gy : Nat
  gz : Nat
  stage : Option Nat
  budget : Nat
  width : Nat
  vbase : Nat
  vlen : Nat
  a : Nat
  l : Nat
  tph : List (Nat × Nat)
  /-- The team's state stands in a save area (R416). -/
  saved : Bool
  /-- The team has ended and holds nothing (R314). -/
  ended : Bool
  deriving DecidableEq, Repr

/-- A cluster (R302, R314, R362). -/
structure Cluster where
  id : Nat
  die : Nat
  corner : Nat
  w : Nat
  h : Nat
  teams : List Nat
  cph : List (Nat × Nat)
  deriving DecidableEq, Repr

/-- Arrival of a member at a cross-lane instruction (R110). -/
structure Arrival where
  id : Nat
  tid : Nat
  team : Nat
  set : Nat
  member : Nat
  addr : Nat
  n : Nat
  active : Bool
  mask : Nat
  a : Nat
  c : Nat
  instr : Instr
  /-- Destination: a g register only for the thread of its group that writes it (R50). -/
  d : Opnd
  deriving DecidableEq, Repr

/-- Arrival at a barrier: active or not, the access number and the observed set at the arrival (R221, R362, R364). -/
structure BarArrival where
  bar : BarRef
  n : Nat
  tid : Nat
  active : Bool
  bound : Nat
  obs : List Nat
  deriving DecidableEq, Repr

/-! ## Launches -/

/-- A launch block as it was checked (R305, R326). -/
structure Block where
  bits : Nat
  deriving DecidableEq, Repr

/-- How far a launch has come. -/
inductive LaunchPhase where
  | queued
  | placed
  | ended
  deriving DecidableEq, Repr

/-- A drain (R315, R349, R416): the cores it clears, each with its deadline, since they may begin to drain at different times. -/
structure Drain where
  cores : List (CoreId × Nat)
  deriving DecidableEq, Repr

/-- A launch (R309 to R318). -/
structure Launch where
  id : Nat
  part : Nat
  ch : Nat
  blk : Block
  rank : Nat
  root : Nat
  asid : Nat
  /-- Clusters placed so far, in order (R313). -/
  next : Nat
  width : Option Nat
  phase : LaunchPhase
  drain : Option Drain
  /-- Low half of the record of the KILL that ended it (R406). -/
  killed : Option Nat
  deriving DecidableEq, Repr

/-- A launch channel (R308). -/
structure Chan where
  blk : Nat
  code : Nat
  done : Nat
  ovf : Bool
  queue : List Nat
  deriving DecidableEq, Repr

/-- An entry of the divergence-history table (R317): entry PC and F, most recent first. -/
structure HistEntry where
  pc : Nat
  f : Nat
  deriving DecidableEq, Repr

/-- A record in a queue (R335): its words, its push time, whether it stands in a berth or in the spill area and at which
place there, the group to which it is reserved, and the write that spilled it. -/
structure QRec where
  words : List Word
  time : Nat
  spilled : Bool
  at_ : Nat
  holder : Option Nat
  wid : Nat
  deriving DecidableEq, Repr

/-- A queue of a gang (R330, R335, R338), records in order. -/
structure Queue where
  entry : Nat
  recs : List QRec
  closed : Bool
  deriving DecidableEq, Repr

/-- A core of a gang: its stage, and the stage that it drains from (R345). -/
structure GCore where
  core : Nat
  stage : Nat
  from_ : Option Nat
  /-- Cycle of its last launch (R340). -/
  last : Option Nat
  deriving DecidableEq, Repr

/-- A stage of a gang: its entry and its launches so far (R327, R334). -/
structure Stage where
  entry : Nat
  launched : Nat
  width : Option Nat
  /-- Cycle of its last launch (R340). -/
  last : Option Nat
  deriving DecidableEq, Repr

/-- A gang: its launch, tables, cores and queues (R326 to R351). -/
structure Gang where
  launch : Nat
  die : Nat
  ctxs : List Nat
  stages : List Stage
  queues : List Queue
  cores : List GCore
  /-- Cycle from which cadence boundaries count (R343, R350). -/
  cad0 : Nat
  placed : Bool
  running : Bool
  stopping : Bool
  deriving DecidableEq, Repr

/-! ## Partitions and quay cores -/

/-- STATE of PCTL (R386). -/
inductive PState where
  | stopped | running | halting
  deriving DecidableEq, Repr

/-- The registers of a partition block that lock at RUN (R386, R387). -/
structure Locked where
  rows : Dword
  asidw : Dword
  ways : Dword
  hbmw : Vector Dword 4
  links : Dword
  fwgrant : Dword
  deriving DecidableEq, Repr

/-- Whom a record concerns. -/
inductive Party where
  | thread (t : Nat)
  | access (a part : Nat)
  | agent (op : Nat)
  | assist (cx : Nat)
  | nobody
  deriving DecidableEq, Repr

/-- A fault record before it has a sequence number (R397). -/
structure Rec where
  id : Nat
  quay : CoreId
  cause : Nat
  reason : Nat
  kind : Nat
  loc : Bool
  entry : Nat
  core : CoreId
  lane : Nat
  pc : Nat
  addr : Nat
  info : Nat
  party : Party
  launch : Nat
  deriving DecidableEq, Repr

/-- A record held by a quay core (R404). -/
structure Held where
  rcd : Rec
  seq : BitVec 16
  returned : Bool
  deriving DecidableEq, Repr

/-- A quay core (R16, R391, R397, R404). -/
structure Quay where
  core : CoreId
  part : Nat
  tid : Nat
  seq : BitVec 16
  fq : List Held
  wroot : Dword
  wasid : Word
  deriving DecidableEq, Repr

/-- The operand log of the cores (R408): core, entry number, access and part. -/
structure OpLog where
  core : CoreId
  n : Nat
  acc : Nat
  part : Nat
  deriving DecidableEq, Repr

/-- The saved image of a partition (R417, R418): configuration at the halt, splat units of its open passes, quay cores,
operand logs, and its vault allocations and berths. Its contexts, launches and tables stay where State holds them. -/
structure Image where
  cfg : Locked
  units : List (CoreId × Nat)
  quays : List Quay
  recs : List Rec
  oplog : List OpLog
  vault : Memory
  tags : List Nat
  bad : List Nat
  deriving DecidableEq, Repr

/-- A partition (R386). -/
structure Part where
  state : PState
  /-- RUN of PCTL as the host wrote it. -/
  run : Bool
  lockerr : Bool
  /-- LOCKERR as it stood at RUN (R394). -/
  errAtRun : Bool
  cfgerr : Bool
  cfg : Locked
  btgrant : Dword
  hroot : Dword
  hasid : Dword
  asroot : Vector Dword 8
  asasid : Vector Dword 8
  chans : List Chan
  hist : List HistEntry
  image : Option Image
  deriving DecidableEq, Repr

/-! ## The abstract memory machine -/

/-- A translation in a TLB (R381): whole, or a 2 MiB fragment of a 1 GiB page (R382). -/
structure TlbEntry where
  part : Nat
  asid : Nat
  glob : Bool
  vbase : Nat
  size : Nat
  pte : Nat
  frag : Bool
  deriving DecidableEq, Repr

/-- A committed write of global memory (R210): bytes by location with what stood there before, who committed it, and
the points whose views have taken it. Its number is its place in every co(x). -/
structure WriteRec where
  id : Nat
  cells : List Host.Cell
  old : List Host.Cell
  tid : Nat
  core : CoreId
  /-- Number of the access that made it, 0 for an engine's. -/
  acc : Nat
  rel : Option Scope
  /-- Observed set of the thread when it performed. -/
  obs : List Nat
  seen : List Point
  /-- Published: every point of the system took it in the step that committed it (R226). -/
  pub : Bool
  /-- Poisoned locations (R425). -/
  bad : List Nat
  /-- The page under which a thread's access translated it (R384). -/
  page : Option TlbEntry
  deriving DecidableEq, Repr

/-- Operations of atomics with their operands (R244). -/
inductive AOp where
  | add | and | or | xor | minS | minZ | maxS | maxZ | xchg | cas | inc | dec | fadd | fmin | fmax
  deriving DecidableEq, Repr

/-- What CWB and CINV do to a line (R257, R258). -/
inductive CacheOp where
  | wb (inv : Bool)
  | icache
  | discard
  deriving DecidableEq, Repr

/-- Kinds of access (R216). -/
inductive AKind where
  | load (d : Opnd) (sz : Size) (sx : Bool)
  | store (data : List Byte)
  | ldt (d : Opnd) (sz : Size) (take : Bool)
  | stt (data : List Byte)
  | tagop (full : Bool)
  | atomic (op : AOp) (d : Opnd) (b64 : Bool) (b c : Nat)
  | lds (d : Opnd) (sz : Size) (sx : Bool)
  | smp (d : Opnd) (u v : Word) (lin : Bool) (wrap : WrapMode) (norm : Bool) (desc : Nat)
  /-- CWB and CINV: no step of the machine (R257, R258). -/
  | cache (op : CacheOp)
  /-- The lighter's read of the command block of a copy operation (R277). -/
  | copyBlock (op : Nat)
  /-- A sampler prefetch that waits for its fill (R256). -/
  | pref
  | push (gang q : Nat) (words : List Word)
  /-- A record that a pop has taken, on its way to the registers: its words, the status register (R368). -/
  | record (d st : Opnd) (words : List Word)
  deriving DecidableEq, Repr

/-- Which counter an access holds. -/
inductive Ctr where
  | none | load | store | tile
  deriving DecidableEq, Repr

/-- One part of an access, inside one line (R228): its place in the access, and how far it has come. -/
structure APart where
  ofs : Nat
  len : Nat
  /-- Effective address; of a vault access, the vault key. -/
  ea : Nat
  done : Bool
  /-- Number of its write. -/
  wid : Nat
  /-- Its operand-log entry while it is deferred (R408). -/
  log : Option Nat
  /-- The record of its fault waits or is held. -/
  stalled : Bool
  /-- Where it translated to, and under which page (R384). -/
  pa : Option Nat
  page : Option TlbEntry
  deriving DecidableEq, Repr

/-- An issued access (R214). Its number orders the accesses of its thread. -/
structure Access where
  id : Nat
  tid : Nat
  core : CoreId
  vault : Bool
  stream : Nat
  scope : Scope
  acq : Bool
  rel : Bool
  prom : Bool
  kind : AKind
  ctr : Ctr
  /-- Place of its instruction, and the instruction word's operand byte D. -/
  pos : Pos
  dreg : Nat
  parts : List APart
  /-- Bytes read so far. -/
  data : List Byte
  /-- A byte read was poisoned (R426). -/
  bad : Bool
  /-- Withdrawn at a shadow-context switch (R243, R414). -/
  withdrawn : Bool
  /-- When it reached its vault word (R243), or, of a push, when it was issued (R366): the number of the step. -/
  arrived : Option Nat
  /-- The promote message of an acquire with PROM (R274): sent, then acknowledged. -/
  promo : Option Bool
  deriving DecidableEq, Repr

/-- A fence (R219, R220). -/
structure Fence where
  id : Nat
  tid : Nat
  scope : Scope
  sc : Bool
  cover : Cover
  bound : Nat
  obs : List Nat
  deriving DecidableEq, Repr

/-- A TLBI in progress (R383, R384): what it invalidates, whether it has done so, and the accesses it waits for. -/
structure Tlbi where
  id : Nat
  tid : Nat
  part : Nat
  va : Option Nat
  asid : Option Nat
  bound : Nat
  obs : List Nat
  begun : Bool
  awaits : List (Nat × Nat)
  awaitW : List Nat
  deriving DecidableEq, Repr

/-! ## Engines -/

/-- Operations of the matrix engine (R129 to R133). -/
inductive MxKind where
  | ld (slot blk : Nat)
  | run (t slot : Nat) (acc : Bool)
  | zero (t : Nat)
  | st (t va : Nat) (form : MxForm) (relu : Bool) (scale : Option Word)
  | lda (t va : Nat) (f32 : Bool)
  deriving DecidableEq, Repr

/-- A queued operation of the matrix engine or the splat units: identifier, issuer, place of issue. -/
structure EngOp where
  id : Nat
  tid : Nat
  launch : Nat
  pos : Pos
  deriving DecidableEq, Repr

structure MxOp where
  eng : EngOp
  kind : MxKind
  deriving DecidableEq, Repr

/-- Progress of the MX operation at the head of the queue: roundings done, its flags, and for an assist the answer awaited. -/
structure MxRun where
  n : Nat
  flags : BitVec 5
  /-- An assist is in progress (R125). -/
  stopped : Bool
  /-- A fault of a vault address has been reported and waits for the handler (R410). -/
  stalled : Bool
  /-- An assist's answer for rounding n: result and flags (R411). -/
  answer : Option (Nat × BitVec 5)
  /-- W48 accumulators or results, in element order. -/
  work : List Nat
  /-- When the operation reached the head of the queue. -/
  since : Nat
  /-- Assists that it has met (R135). -/
  assists : Nat
  deriving DecidableEq, Repr

/-- Operations of the splat units (R167 to R172), those of a pass with its number. -/
inductive SplKind where
  | view (va n : Nat)
  | beginP (pass : Nat)
  /-- Batch of n primitives at an address: its number in the pass, and its first index (R142). -/
  | sub (pass va n batch first : Nat)
  | endP (pass : Nat) (abort : Bool)
  /-- Tile memory, backward descriptor. -/
  | bwd (tm desc : Nat)
  | red (src dst : Nat)
  deriving DecidableEq, Repr

/-- An operation of the splat units, with how far it has come: 0 not begun. -/
structure SplOp where
  eng : EngOp
  kind : SplKind
  /-- The operation's fault has been reported and waits for the handler (R410). -/
  stalled : Bool
  phase : Nat
  writes : List Nat
  /-- What an SPBWD has read once it holds its units: gradient surface, record buffer, capacity (R171). -/
  aux : List Nat
  /-- A last write, that follows the others (STATE of R170, COUNT of R161): its address and bytes. -/
  last : Option (Nat × List Byte)
  causes : List Cause
  /-- Overflows to report when it completes (R163): reason, ADDR, INFO. -/
  reports : List (Nat × Nat × Nat)
  deriving DecidableEq, Repr

/-- A primitive record as one die has read it (R157): index, die, its 512 bits, poisoned, and the number that the next write had
then. -/
structure PrimRead where
  idx : Nat
  die : Nat
  bits : Nat
  bad : Bool
  since : Nat
  deriving DecidableEq, Repr

/-- A pass whose operations are not all complete (R137, R144, R168). -/
structure Pass where
  id : Nat
  tid : Nat
  /-- Address of its descriptor; the descriptor and tile memory, once the descriptor has been checked. -/
  desc : Nat
  bits : Nat
  tm : Nat
  queue : Option (Nat × Nat)
  failed : Bool
  prims : List PrimRead
  deriving DecidableEq, Repr

/-- The pass that a context has open at issue: its number, issuer, primitives and batches so far (R142, R168, R169). -/
structure OpenPass where
  id : Nat
  tid : Nat
  count : Nat
  batches : Nat
  deriving DecidableEq, Repr

/-- A finished tile whose record is not pushed yet (R158): its pass and queue, its record, its pixel writes. -/
structure TileDone where
  pass : Nat
  queue : Nat × Nat
  words : List Word
  writes : List Nat
  deriving DecidableEq, Repr

/-- A pending write of a shadow region (R226): the admission number of its agent, its bytes, the poisoned ones. -/
structure HeldWrite where
  adm : Nat
  cells : List Host.Cell
  bad : List Nat
  deriving DecidableEq, Repr

/-- A shadow region (R297, R298): range, number of its arming, admission number of the CSHAD.OFF that closes its set, pending
writes, oldest first. -/
structure Shadow where
  base : Nat
  len : Nat
  armed : Nat
  closed : Option Nat
  pending : List HeldWrite
  deriving DecidableEq, Repr

/-- Where a context stands (R413). -/
inductive CtxPlace where
  | running
  | bank (n : Nat)
  | save
  deriving DecidableEq, Repr

/-- A context of a core (R114, R137, R297, R413). -/
structure Ctx where
  id : Nat
  core : CoreId
  part : Nat
  place : CtxPlace
  /-- When it was last switched out. -/
  since : Nat
  tiles : List (List Nat)
  /-- Elements of tiles with an uncorrectable error: 1024 times the tile, plus the element (R127, R423). -/
  badElems : List Nat
  slots : List (Option Nat)
  mxq : List MxOp
  mxrun : MxRun
  views : List Nat
  splq : List SplOp
  /-- When the operation at the head of the SPL queue reached it (R174). -/
  splSince : Nat
  open_ : Option OpenPass
  passes : List Pass
  shadows : List (Option Shadow)
  /-- What SPQRY shows of the last operations (R173): reasons 1, 2, 3. -/
  ovf : BitVec 3
  tilesDone : List TileDone
  deriving DecidableEq, Repr

/-- Operations of the lighter (R277, R297, R299). -/
inductive CopyKind where
  | cpy | cpys | cpyb | cpyx
  | fill (pattern : Word)
  | pub (sh : Nat)
  | off (sh : Nat)
  deriving DecidableEq, Repr

/-- A piece that a copy has read and not written (R287, R288): in the vault or in global memory, its address, bytes, poisoned. -/
structure HeldPiece where
  vault : Bool
  addr : Nat
  bytes : List Byte
  bad : Bool
  deriving DecidableEq, Repr

/-- A copy operation: its issue (R277), its admission (number, channel, block, promise; R276, R294), and its progress. -/
structure Copy where
  id : Nat
  tid : Nat
  launch : Nat
  core : CoreId
  ctx : Nat
  kind : CopyKind
  pos : Pos
  cb : Nat
  d : Opnd
  stream : Nat
  scope : Scope
  rel : Bool
  /-- Accesses of the thread issued earlier have smaller numbers. -/
  bound : Nat
  adm : Option Nat
  /-- 0 the lighter, 1 and 2 the privileged channels. -/
  chan : Nat
  bits : Option Nat
  promise : Option Nat
  /-- Its command block as the lighter has read it, and whether it was poisoned (R277, R459). -/
  raw : Option (Nat × Bool)
  bytes : Nat
  started : Bool
  /-- Every destination byte below it has been taken in hand. -/
  done : Nat
  /-- What the copy holds between two units: a mask, or bytes of a row. -/
  aux : List Nat
  /-- Block-table entries of CPYB by block, as far as they are read (R282). -/
  table : List (Nat × List Nat)
  /-- Ranges beyond `done` taken in hand: offset and length; and pieces read and not written, in any order (R288). -/
  early : List (Nat × Nat)
  held : List HeldPiece
  /-- CPUB or CSHAD.OFF has taken its step. -/
  ran : Bool
  writes : List Nat
  fault : Option Nat
  /-- It read poison (R296). -/
  poison : Bool
  /-- Its command block was poisoned (R459). -/
  badBlock : Bool
  /-- Other causes for its thread (R430, R432). -/
  extra : List Cause
  stalled : Bool
  finished : Bool
  deriving DecidableEq, Repr

/-- A sealed batch (R290), when it finished, and whether late. -/
structure Batch where
  id : Nat
  tid : Nat
  no : Nat
  ops : List Nat
  sealedAt : Nat
  fin : Option Nat
  /-- It finished at or after its promise (R292). -/
  late : Bool
  deriving DecidableEq, Repr

/-! ## Fields -/

/-- State of a field slot (R177). -/
inductive SlotState where
  | free | opened | sealed | retired
  deriving DecidableEq, Repr

/-- A slot of a Field Slot Table (R175, R177). -/
structure Slot where
  state : SlotState
  pending : Bool
  desc : Option Nat
  gen : BitVec 16
  mask : BitVec 64
  depth : Nat
  deriving DecidableEq, Repr

/-- A Field Slot Table: partition, die, slots that are not as at creation. -/
structure Fst where
  part : Nat
  die : Nat
  slots : List (Nat × Slot)
  deriving DecidableEq, Repr

/-- How a walk ended, or where it stands (R184). -/
inductive WalkEnd where
  | going
  | parked
  /-- Discarded at a switch, to be issued again (R194). -/
  | discarded
  /-- Issued again, without a snapshot yet (R194). -/
  | again
  | disocc (reason slot : Nat)
  | reached
  /-- It met an error that is no fault of translation: cause, reason, address (R198, R430, R432). -/
  | failed (cause reason addr : Nat)
  deriving DecidableEq, Repr

/-- A slot on the chain of a walk: its number, its state in the snapshot, its descriptor. -/
structure Link where
  slot : Nat
  state : SlotState
  desc : Nat
  deriving DecidableEq, Repr

/-- How far a walk has come: position (a 1-D position in x), confidence, hops completed, sums of displacements (R189). -/
structure WalkAt where
  x : Nat
  y : Nat
  conf : Nat
  n : Nat
  dx : Int
  dy : Int
  deriving DecidableEq, Repr

/-- A history load in flight (R184, R207): its operands, its chain with the snapshot, its progress. -/
structure Walk where
  id : Nat
  tid : Nat
  launch : Nat
  core : CoreId
  part : Nat
  pos : Pos
  slot : Nat
  hops : Nat
  x0 : Nat
  y0 : Nat
  em : Empty
  /-- Destination and its registers; predicate under PRED. -/
  d : Opnd
  regs : Nat
  hres : Bool
  pred : Option Nat
  chain : List Link
  at_ : WalkAt
  st : WalkEnd
  stalled : Bool
  /-- Texels read so far, as little-endian numbers. -/
  texels : List Nat
  /-- When it was issued (R208). -/
  since : Nat
  deriving DecidableEq, Repr

/-- Field operations in flight (R200 to R205). -/
inductive FKind where
  | open_ (slot desc : Nat)
  | seal (slot : Nat)
  | comp (src dst arr : Nat) (chain : List Link) (em : Empty) (filled : List Nat)
  | inv (slot : Nat) (retired : Option (List Nat))
  | rel (slot : Nat)
  /-- FST: the address of an entry and its value, and whether it has been written. -/
  | put (ea v : Nat) (written : Bool)
  deriving DecidableEq, Repr

structure FOp where
  id : Nat
  tid : Nat
  launch : Nat
  part : Nat
  core : CoreId
  pos : Pos
  kind : FKind
  /-- Causes for its thread's next clause header once it completes (R180, R198, R432, R459). -/
  causes : List Cause
  stalled : Bool
  writes : List Nat
  /-- When it was issued (R208). -/
  since : Nat
  deriving DecidableEq, Repr

/-! ## Coherence, links, errors -/

/-- MOESI state of a block at its home slice (R262). -/
inductive Moesi where
  | i | s | e | o | m
  deriving DecidableEq, Repr

/-- Requests that a home slice serves in order (R262), with the number of the request of their core (R266); and the directory's
recalls, with their number, which it serves among them (R267). -/
inductive HReq where
  | read (c : CoreId) (n : Nat)
  | own (c : CoreId) (n : Nat)
  | recall (seq : BitVec 16) (inv : Bool)
  deriving DecidableEq, Repr

/-- What the directory has granted to a die for a block (R267). -/
inductive Right where
  | none | shared | owned
  deriving DecidableEq, Repr

/-- A probe that is not acknowledged: its core and number, and whether the core has answered "write-back pending" (R263). -/
structure Probe where
  core : CoreId
  seq : BitVec 16
  pending : Bool
  deriving DecidableEq, Repr

/-- A block at its home slice (R262, R263): its state, number and owner, the requests that wait, the probes of the first of
them, and the die's right with the number of the directory's grant (R267). -/
structure HomeBlk where
  die : Nat
  blk : Nat
  st : Moesi
  seq : BitVec 16
  owner : Option CoreId
  reqs : List HReq
  probes : List Probe
  right : Right
  dseq : BitVec 16
  deriving DecidableEq, Repr

/-- A block of an L1 (R17, R263): number of its grant, its state, whether it may be written, which needs the directory's
ownership (R267), and the number that the next write had when the core took it. -/
structure L1Blk where
  core : CoreId
  blk : Nat
  seq : BitVec 16
  st : Moesi
  wr : Bool
  since : Nat
  deriving DecidableEq, Repr

/-- A 128-byte line of an L2 slice (R19, R388): its way, when it was used last, its dirty blocks. -/
structure L2Line where
  die : Nat
  line : Nat
  way : Nat
  used : Nat
  dirty : BitVec 2
  deriving DecidableEq, Repr

/-- How a probe or a recall is answered (R263): nothing dirty, with data, write-back pending. -/
inductive AckKind where
  | clean | data | pending
  deriving DecidableEq, Repr

/-- Messages in flight (R271). -/
inductive Msg where
  /-- Requests of a core to its home slice: reads, ownership, write-backs, drop notices. -/
  | read (die blk : Nat) (c : CoreId) (n : Nat)
  | own (die blk : Nat) (c : CoreId) (n : Nat)
  | wback (die blk : Nat) (c : CoreId)
  | drop (die blk : Nat) (c : CoreId) (seq : BitVec 16)
  /-- Requests to the home directory: for a block, and the write-back of one that a die gives up. -/
  | dreq (blk who : Nat) (own : Bool)
  | dwback (blk die : Nat)
  /-- Control: probes, directory recalls, promotion, rebuilt signatures. -/
  | probe (die blk : Nat) (c : CoreId) (seq : BitVec 16) (inv : Bool)
  | recall (blk who : Nat) (seq : BitVec 16) (inv : Bool)
  | promote (blk : Nat) (c : CoreId) (w acc : Nat)
  | rebuild (c : CoreId) (slice : Nat) (sig : BitVec 512) (n : Nat)
  /-- Replies. -/
  | ack (die blk : Nat) (c : CoreId) (seq : BitVec 16) (kind : AckKind)
  | dack (blk who : Nat) (seq : BitVec 16) (kind : AckKind)
  | pack (blk : Nat) (c : CoreId) (acc : Nat)
  | grant (die blk : Nat) (c : CoreId) (seq : BitVec 16) (st : Moesi) (wr : Bool)
  | dgrant (blk who : Nat) (seq : BitVec 16) (own : Bool)
  deriving DecidableEq, Repr

/-- The signature of a core, and the requests that it has made (R264, R266). -/
structure Sig where
  core : CoreId
  sig : BitVec 512
  reqs : Nat
  deriving DecidableEq, Repr

/-- A home slice's mirror of a core's signature, with the grants it has made: number of the request and block (R264, R266). -/
structure Mirror where
  core : CoreId
  slice : Nat
  bits : BitVec 512
  grants : List (Nat × Nat)
  deriving DecidableEq, Repr

/-- A write in the gather buffer of a core (R273); `home` when no L1 block takes it and it goes to its home: an uncached access,
or one to memory homed outside the module (R269, R378). -/
structure Gathered where
  core : CoreId
  wid : Nat
  home : Bool
  deriving DecidableEq, Repr

/-- State of a directory entry (R267). -/
inductive DirState where
  | uncached
  | shared (mask : BitVec 5)
  | owned (who : Nat)
  deriving DecidableEq, Repr

/-- A directory entry (R267, R269), with the requests that wait, and the recalls of the first of them: 0 to 3 a die, 4 the host,
8 and above a peer. -/
structure DirEntry where
  blk : Nat
  st : DirState
  peers : BitVec 8
  seq : BitVec 16
  reqs : List (Nat × Bool)
  probes : List (Nat × BitVec 16 × Bool)
  deriving DecidableEq, Repr

/-- A Helvan link: 0 the host link, 1 to 12 the peer ports (R429, R430). -/
structure HLink where
  id : Nat
  fails : Nat
  training : Option Nat
  bad : Nat
  starts : List Nat
  down : Bool
  deriving DecidableEq, Repr

/-- AGEd of a die (R436). -/
structure Age where
  hours : BitVec 32
  margin : BitVec 6
  state : BitVec 2
  deriving DecidableEq, Repr

/-- An error log entry (R435). -/
structure LogEntry where
  time : Dword
  addr : Dword
  place : BitVec 4
  die : BitVec 2
  sev : BitVec 2
  cause : BitVec 8
  deriving DecidableEq, Repr

/-- What the module's firmware and links hold. -/
structure Module where
  /-- DIES of the identity word (R1). -/
  dies : BitVec 4
  bootst : Dword
  plimit : Nat
  fwlimit : Nat
  errsum : Dword
  errhead : BitVec 32
  errlog : List (Nat × LogEntry)
  /-- Corrected errors by unit, with their times (R424). -/
  corrected : List (Nat × Nat)
  ages : List Age
  failed : BitVec 4
  /-- Blocks whose M or O copies are frozen at a die's failure (R432). -/
  orphans : List Nat
  links : List HLink
  peers : BitVec 64
  /-- Devices beyond links that are down (R430). -/
  cut : BitVec 64
  /-- The signing unit's queue (R394). -/
  signing : List Nat
  /-- Salvaged blocks: block and destination (R433). -/
  salvaged : List (Nat × Nat)
  /-- The observed set of the host, a thread of the system instance (R210, R227). -/
  hostObs : List Nat
  /-- What the host and the peers last received (R426): party, address, bytes, marked poisoned. -/
  received : List (Nat × Nat × List Byte × Bool)
  deriving DecidableEq, Repr

/-- The abstract machine's memory side. -/
structure MemState where
  /-- The last committed byte of each location of global memory. -/
  mem : Memory
  vault : Memory
  /-- Full vault words, by key of their first byte. -/
  tags : List Nat
  vpoison : List Nat
  /-- Locations whose initial write is poisoned. -/
  poison0 : List Nat
  writes : List WriteRec
  accs : List Access
  fences : List Fence
  scOrder : List Nat
  /-- Sampler views: core, location, write (R210, R224). -/
  smp : List (CoreId × Nat × Nat)
  /-- Sampler-cache lines of a core (R452), oldest fill first. -/
  smpLines : List (CoreId × Nat)
  /-- Those of them that sampler reads have touched since the core's last FSAMP (R452). -/
  smpUsed : List (CoreId × Nat)
  /-- Instruction-cache words of a core (R30). -/
  icache : List (CoreId × Nat × Nat)
  l1tlb : List (CoreId × TlbEntry)
  l2tlb : List (CoreId × TlbEntry)
  tlbis : List Tlbi
  oplog : List OpLog
  deriving DecidableEq, Repr

/-- The engines' side. -/
structure EngState where
  ctxs : List Ctx
  copies : List Copy
  batches : List Batch
  /-- Holders of splat units: core and pass (R137, R146). -/
  holders : List (CoreId × Nat)
  fsts : List Fst
  walks : List Walk
  fops : List FOp
  deriving DecidableEq, Repr

/-- The coherence machinery of 11_coherence. -/
structure CohState where
  homes : List HomeBlk
  l1 : List L1Blk
  l2 : List L2Line
  sigs : List Sig
  mirrors : List Mirror
  gather : List Gathered
  dirs : List DirEntry
  msgs : List Msg
  deriving DecidableEq, Repr

/-- The work side: threads, groups, teams, clusters, launches, gangs. -/
structure WorkState where
  threads : List Thread
  groups : List Group
  teams : List Team
  clusters : List Cluster
  launches : List Launch
  gangs : List Gang
  arrivals : List Arrival
  bars : List BarArrival
  /-- The issue set of a quadrant (R319); a member that has met a wait leaves it when its next word would issue (R354). -/
  sets : List (QuadId × List Nat)
  /-- The slot of the group that led the last clause start of a quadrant (R319). -/
  leads : List (QuadId × Nat)
  /-- The cycle of the last issue of a core, and its quadrant: quadrants issue in rising order in one cycle (R116, R319). -/
  issued : List (CoreId × Nat × Nat)
  parts : List Part
  quays : List Quay
  /-- Records that wait for a place in a fault queue (R404). -/
  recs : List Rec
  deriving DecidableEq, Repr

/-- A move of the module: a quadrant issues its next word, or an event comes about (log 1). -/
inductive Move where
  | issue (q : QuadId)
  | event (i : Instr)
  deriving DecidableEq, Repr

/-- A move and the cycles that pass before it. -/
structure Stim where
  elapsed : Nat
  move : Move
  deriving DecidableEq, Repr

/-- A ZQ9 module. `tick`, `free`, `nextId`, `agenda` and `focus` are the model's own (log 1, 2). -/
structure State where
  clock : Dword
  tick : Nat
  free : Nat
  nextId : Nat
  agenda : List Stim
  focus : Option QuadId
  md : Module
  ms : MemState
  en : EngState
  co : CohState
  wk : WorkState
  deriving DecidableEq, Repr

/-! ## Reset (R393, and the tables of each register) -/

/-- A channel at reset (R308). -/
def Chan.reset : Chan := ⟨0, 0, 0, false, []⟩

/-- A partition at reset (R386; log 10 for the registers without a reset value). -/
def Part.reset : Part where
  state := .stopped
  run := false
  lockerr := false
  errAtRun := false
  cfgerr := false
  cfg := ⟨0, 0, 0, Vector.replicate 4 0, 0, 0⟩
  btgrant := 0
  hroot := 0
  hasid := 0
  asroot := Vector.replicate 8 0
  asasid := Vector.replicate 8 0
  chans := List.replicate 8 Chan.reset
  hist := []
  image := none

/-- A link at reset. -/
def HLink.reset (id : Nat) : HLink := ⟨id, 0, none, 0, [], false⟩

/-- The module's own registers after a boot that succeeds: DIES all set, STAGE 2 is written by RESET (R393). -/
def Module.reset : Module where
  dies := 0b1111
  bootst := 0
  plimit := 1800
  fwlimit := 1800
  errsum := 0
  errhead := 0
  errlog := []
  corrected := []
  ages := List.replicate 4 ⟨0xFFFFFFFF, 63, 0⟩
  failed := 0
  orphans := []
  links := (List.range 13).map HLink.reset
  peers := 0
  cut := 0
  signing := []
  salvaged := []
  hostObs := []
  received := []

/-- The state right after reset: no partition runs, no thread exists, memory and vault list nothing. -/
def State.reset : State where
  clock := 0
  tick := 0
  free := 0
  nextId := 1
  agenda := []
  focus := none
  md := Module.reset
  ms := ⟨[], [], [], [], [], [], [], [], [], [], [], [], [], [], [], [], []⟩
  en := ⟨[], [], [], [], [], [], []⟩
  co := ⟨[], [], [], [], [], [], [], []⟩
  wk := ⟨[], [], [], [], [], [], [], [], [], [], [], List.replicate 16 Part.reset, [], []⟩

end Sys2Proof.Machine
end

