-- ==== Sys2Proof/Machine/Mem.lean ====
section
/-!
DEFINITION. Memory by byte, the writes and views of the abstract machine (R210 to R212, R225), and poison (R425 to R427).
-/
namespace Sys2Proof.Machine

/-! ## Bytes -/

/-- What an address holds: the byte listed for it, else 0 (log 9). -/
def Memory.read (m : Memory) (a : Nat) : Byte :=
  match m with
  | [] => 0
  | c :: t => if a = c.1 then c.2 else Memory.read t a

/-- Stores a byte; the byte that an unlisted address reads as removes the entry. -/
def Memory.write (m : Memory) (a : Nat) (x : Byte) : Memory :=
  match m with
  | [] => if x = 0 then [] else [(a, x)]
  | c :: t =>
    if a < c.1 then (if x = 0 then c :: t else (a, x) :: c :: t)
    else if a = c.1 then (if x = 0 then t else (a, x) :: t)
    else c :: Memory.write t a x

/-- Stores listed bytes, first to last. -/
def Memory.writes (m : Memory) (cells : List Host.Cell) : Memory := cells.foldl (fun m c => m.write c.1 c.2) m

/-- n bytes from an address. -/
def Memory.readN (m : Memory) (a n : Nat) : List Byte := (List.range n).map fun i => m.read (a + i)

/-- Every address of a memory lies above a bound, rising, and no entry is 0. -/
def Memory.above (m : Memory) (b : Nat) : Bool :=
  match m with
  | [] => true
  | c :: t => decide (b ≤ c.1) && c.2 != 0 && Memory.above t (c.1 + 1)

/-- The canonical form: strictly rising addresses, no entry equal to what an unlisted address reads as. -/
def Memory.wf (m : Memory) : Bool := m.above 0

/-- Brings a memory to its canonical form, and leaves a canonical one as it is. -/
def Memory.canon (m : Memory) : Memory := if m.wf then m else m.foldr (fun c t => Memory.write t c.1 c.2) []

/-- Bytes at consecutive addresses. -/
def cellsAt (a : Nat) (bs : List Byte) : List Host.Cell := (indexed bs).map fun p => (a + p.1, p.2)

/-! ## Updates of one side of the state -/

/-- Updates the memory side. -/
def State.onMs (s : State) (f : MemState → MemState) : State := { s with ms := f s.ms }
/-- Updates the engines. -/
def State.onEn (s : State) (f : EngState → EngState) : State := { s with en := f s.en }
/-- Updates the coherence machinery. -/
def State.onCo (s : State) (f : CohState → CohState) : State := { s with co := f s.co }
/-- Updates the work side. -/
def State.onWk (s : State) (f : WorkState → WorkState) : State := { s with wk := f s.wk }
/-- Updates the module. -/
def State.onMd (s : State) (f : Module → Module) : State := { s with md := f s.md }
/-- Takes an identifier. -/
def State.fresh (s : State) : Nat × State := (s.nextId, { s with nextId := s.nextId + 1 })
/-- Draws a free number (log 2). -/
def State.draw (s : State) : Nat × State := (Config.freeNat s.free, { s with free := s.free + 1 })

/-- The thread of an identifier. -/
def State.thread (s : State) (t : Nat) : Option Thread := s.wk.threads.find? fun x => x.id == t
/-- Updates the thread of an identifier. -/
def State.onThread (s : State) (t : Nat) (f : Thread → Thread) : State :=
  s.onWk fun w => { w with threads := w.threads.map fun x => if x.id == t then f x else x }
def State.group (s : State) (g : Nat) : Option Group := s.wk.groups.find? fun x => x.id == g
def State.onGroup (s : State) (g : Nat) (f : Group → Group) : State :=
  s.onWk fun w => { w with groups := w.groups.map fun x => if x.id == g then f x else x }
def State.team (s : State) (t : Nat) : Option Team := s.wk.teams.find? fun x => x.id == t
def State.onTeam (s : State) (t : Nat) (f : Team → Team) : State :=
  s.onWk fun w => { w with teams := w.teams.map fun x => if x.id == t then f x else x }
def State.cluster (s : State) (c : Nat) : Option Cluster := s.wk.clusters.find? fun x => x.id == c
def State.onCluster (s : State) (c : Nat) (f : Cluster → Cluster) : State :=
  s.onWk fun w => { w with clusters := w.clusters.map fun x => if x.id == c then f x else x }
def State.launch (s : State) (l : Nat) : Option Launch := s.wk.launches.find? fun x => x.id == l
def State.onLaunch (s : State) (l : Nat) (f : Launch → Launch) : State :=
  s.onWk fun w => { w with launches := w.launches.map fun x => if x.id == l then f x else x }
def State.gang (s : State) (l : Nat) : Option Gang := s.wk.gangs.find? fun x => x.launch == l
def State.onGang (s : State) (l : Nat) (f : Gang → Gang) : State :=
  s.onWk fun w => { w with gangs := w.gangs.map fun x => if x.launch == l then f x else x }
def State.part (s : State) (p : Nat) : Part := s.wk.parts.getD p Part.reset
def State.onPart (s : State) (p : Nat) (f : Part → Part) : State :=
  s.onWk fun w => { w with parts := w.parts.modify p f }
def State.quay (s : State) (c : CoreId) : Option Quay := s.wk.quays.find? fun x => x.core == c
def State.onQuay (s : State) (c : CoreId) (f : Quay → Quay) : State :=
  s.onWk fun w => { w with quays := w.quays.map fun x => if x.core == c then f x else x }
def State.access (s : State) (a : Nat) : Option Access := s.ms.accs.find? fun x => x.id == a
def State.onAccess (s : State) (a : Nat) (f : Access → Access) : State :=
  s.onMs fun m => { m with accs := m.accs.map fun x => if x.id == a then f x else x }
def State.ctx (s : State) (c : Nat) : Option Ctx := s.en.ctxs.find? fun x => x.id == c
def State.onCtx (s : State) (c : Nat) (f : Ctx → Ctx) : State :=
  s.onEn fun e => { e with ctxs := e.ctxs.map fun x => if x.id == c then f x else x }
def State.copy (s : State) (c : Nat) : Option Copy := s.en.copies.find? fun x => x.id == c
def State.onCopy (s : State) (c : Nat) (f : Copy → Copy) : State :=
  s.onEn fun e => { e with copies := e.copies.map fun x => if x.id == c then f x else x }
def State.walk (s : State) (w : Nat) : Option Walk := s.en.walks.find? fun x => x.id == w
def State.onWalk (s : State) (w : Nat) (f : Walk → Walk) : State :=
  s.onEn fun e => { e with walks := e.walks.map fun x => if x.id == w then f x else x }
def State.fop (s : State) (o : Nat) : Option FOp := s.en.fops.find? fun x => x.id == o
def State.onFop (s : State) (o : Nat) (f : FOp → FOp) : State :=
  s.onEn fun e => { e with fops := e.fops.map fun x => if x.id == o then f x else x }

/-! ## Points and views (R210 to R212) -/

/-- The dies that booted. -/
def State.dies (s : State) : List Nat := (List.range 4).filter fun d => s.md.dies.getLsbD d

/-- Who reads and writes: the thread, its core and its cluster point (R211). -/
structure Who where
  tid : Nat
  core : CoreId
  clp : Point
  deriving DecidableEq, Repr

/-- The cluster point of a core that forms a cluster of its own (R211). -/
def ownCluster (c : CoreId) : Point := .cluster c.die c.core 1 1

/-- A thread as a reader and writer. -/
def Thread.who (t : Thread) : Who := ⟨t.id, t.place.core, t.place.clp⟩

/-- A thread by its identifier; one that is gone reads at its core alone. -/
def State.whoOf (s : State) (t : Nat) (c : CoreId) : Who :=
  match s.thread t with
  | some x => x.who
  | none => ⟨t, c, ownCluster c⟩

/-- The points of a party up to a scope (R211). -/
def Who.upTo (w : Who) (sc : Scope) : List Point :=
  match sc with
  | .core => [.core w.core]
  | .cluster => [.core w.core, w.clp]
  | .die => [.core w.core, w.clp, .die w.core.die]
  | .system => [.core w.core, w.clp, .die w.core.die]

/-- The devices of the load-store domain besides this module: peers that are present and not beyond a link that is down (R211, R430). -/
def State.peerDevs (s : State) : List Nat := (List.range 64).filter fun d => s.md.peers.getLsbD d && !s.md.cut.getLsbD d

/-- The points of the system besides cores and clusters: every die point of every device in the domain, and the host (R211). -/
def State.systemPoints (s : State) : List Point :=
  s.dies.map Point.die ++ .host :: s.peerDevs.flatMap fun d => (List.range 4).map (Point.peer d)

/-- The points at which a write of a party is performed at a scope (R211). -/
def State.performedAt (s : State) (w : Who) (sc : Scope) : List Point :=
  match sc with
  | .core => [.core w.core]
  | .cluster => [w.clp]
  | .die => [.die w.core.die]
  | .system => s.systemPoints

/-- A write covers a location. -/
def WriteRec.covers (w : WriteRec) (x : Nat) : Bool := w.cells.any fun c => c.1 == x

/-- Some of the points have taken a write; a published write stands at every point (R226). -/
def WriteRec.seenAt (w : WriteRec) (pts : List Point) : Bool := w.pub || w.seen.any fun p => pts.contains p

/-- The write latest in co(x) among the views of some points; 0 is the initial write (R212). -/
def State.latest (s : State) (pts : List Point) (x : Nat) : Nat :=
  listMax ((s.ms.writes.filter fun w => w.covers x && w.seenAt pts).map WriteRec.id)

/-- The last write in co(x). -/
def State.lastWrite (s : State) (x : Nat) : Nat := listMax ((s.ms.writes.filter fun w => w.covers x).map WriteRec.id)

/-- The initial byte of a location. -/
def State.initial (s : State) (x : Nat) : Byte :=
  match s.ms.writes.find? fun w => w.covers x with
  | some w => Memory.read w.old x
  | none => s.ms.mem.read x

/-- The byte that a write left at a location. -/
def State.byteOf (s : State) (w x : Nat) : Byte :=
  match s.ms.writes.find? fun r => r.id == w with
  | some r => Memory.read r.cells x
  | none => s.initial x

/-- A write is poisoned at a location (R425). -/
def State.poisonOf (s : State) (w x : Nat) : Bool :=
  match s.ms.writes.find? fun r => r.id == w with
  | some r => r.bad.contains x
  | none => s.ms.poison0.contains x

/-- A write is visible at a point: its view holds, for each byte, that write or a later one (R211). -/
def State.visibleAt (s : State) (w : WriteRec) (p : Point) : Bool :=
  w.cells.all fun c => decide (w.id ≤ s.latest [p] c.1)

/-- The writes numbered are visible at all of some points. -/
def State.visible (s : State) (ids : List Nat) (pts : List Point) : Bool :=
  s.ms.writes.all fun w => !ids.contains w.id || pts.all fun p => s.visibleAt w p

/-- Views take the writes that a test selects. -/
def State.take (s : State) (pts : List Point) (f : WriteRec → Bool) : State :=
  s.onMs fun m => { m with
    writes := m.writes.map fun w => if f w then { w with seen := w.seen ++ pts.filter fun p => !w.seen.contains p } else w }

/-- Refresh(t, S) (R212). -/
def State.refresh (s : State) (w : Who) (sc : Scope) : State :=
  match sc with
  | .core => s
  | .cluster => s.take [.core w.core] fun r => r.seenAt (w.upTo .cluster)
  | .die => s.take [.core w.core, w.clp] fun r => r.seenAt (w.upTo .die)
  | .system => s.take [.core w.core, w.clp] fun r => r.seenAt (w.upTo .system)

/-- What a read returns: bytes, the writes returned, and whether one of them is poisoned. -/
structure ReadRes where
  bytes : List Byte
  wids : List Nat
  poison : Bool
  deriving DecidableEq, Repr

/-- The value of a read, little-endian. -/
def ReadRes.val (r : ReadRes) : Nat := ofBytes r.bytes

/-- Reads given writes at n locations. -/
def State.readBy (s : State) (f : Nat → Nat) (a n : Nat) : ReadRes :=
  let xs := (List.range n).map (a + ·)
  ⟨xs.map fun x => s.byteOf (f x) x, (xs.map f).eraseDups.filter (· != 0), xs.any fun x => s.poisonOf (f x) x⟩

/-- Reads n bytes at the points of a party up to a scope (R216). -/
def State.readAt (s : State) (w : Who) (sc : Scope) (a n : Nat) : ReadRes := s.readBy (s.latest (w.upTo sc)) a n

/-- Reads the last writes of n bytes, whatever any view holds. -/
def State.readLast (s : State) (a n : Nat) : ReadRes := s.readBy s.lastWrite a n

/-- Writes join the observed set of a thread. -/
def State.observe (s : State) (t : Nat) (ids : List Nat) : State :=
  s.onThread t fun x => { x with obs := x.obs ++ ids.filter fun i => !x.obs.contains i }

/-- The core point of a party takes writes that its read returned (R216). -/
def State.takeRead (s : State) (w : Who) (ids : List Nat) : State :=
  (s.take [.core w.core] fun r => ids.contains r.id).observe w.tid ids

/-! ## Commits -/

/-- The last byte of a location of global memory. -/
def State.lastByte (s : State) (x : Nat) : Byte := s.ms.mem.read x

/-- Blocks of 64 bytes that a write covers only in part and that hold poison (R427). -/
def State.partPoison (s : State) (cells : List Host.Cell) : List Nat :=
  ((cells.map fun c => c.1 / 64).eraseDups).filter fun b =>
    let xs := (List.range 64).map (64 * b + ·)
    xs.any (fun x => s.poisonOf (s.lastWrite x) x) && xs.any fun x => !cells.any fun c => c.1 == x

/-- Commits a write of global memory (R216): it is appended to co(x) for each byte, and stands at the points given. Poison
takes the whole of its units (R425 to R427). -/
def State.commit (s : State) (w : Who) (acc : Nat) (rel : Option Scope) (cells : List Host.Cell) (bad : List Nat) (pts : List Point) : Nat × State :=
  let blocks := (s.partPoison cells ++ bad.map fun x => x / 64).eraseDups
  let extra := blocks.flatMap fun b => (List.range 64).map (64 * b + ·)
  let cells' := cells ++ (extra.filter fun x => !cells.any fun c => c.1 == x).map fun x => (x, s.lastByte x)
  let id := s.nextId
  let obs := match s.thread w.tid with
    | some t => t.obs
    | none => []
  let r : WriteRec := {
    id := id, cells := cells', old := cells'.map fun c => (c.1, s.lastByte c.1), tid := w.tid, core := w.core, acc := acc,
    rel := rel, obs := obs, seen := pts, pub := false, bad := bad ++ extra.filter (fun x => !bad.contains x), page := none }
  (id, ({ s with nextId := id + 1 }).onMs fun m => { m with mem := m.mem.writes cells', writes := m.writes ++ [r] })

/-- A write of a thread: committed, visible at its core point, in its observed set (R216), and in its core's gather buffer,
for the core's L1 or, when `home`, for its home (R273, R378). -/
def State.commitOwn (s : State) (w : Who) (acc : Nat) (rel : Option Scope) (cells : List Host.Cell) (home : Bool) : Nat × State :=
  let r := s.commit w acc rel cells [] [.core w.core]
  (r.1, (r.2.observe w.tid [r.1]).onCo fun c => { c with gather := c.gather ++ [(⟨w.core, r.1, home⟩ : Gathered)] })

/-! ## The vault (R225) -/

/-- The words that bytes of the vault touch. -/
def wordsOf (a n : Nat) : List Nat := (List.range ((a + n + 3) / 4 - a / 4)).map fun i => 4 * (a / 4 + i)

/-- Reads vault bytes. -/
def State.vread (s : State) (a n : Nat) : ReadRes :=
  ⟨s.ms.vault.readN a n, [], (wordsOf a n).any fun w => s.ms.vpoison.contains w⟩

/-- Writes vault bytes; a word covered whole loses its poison, one covered in part keeps it (R427). -/
def State.vwrite (s : State) (a : Nat) (bs : List Byte) (bad : Bool) : State :=
  let ws := wordsOf a bs.length
  s.onMs fun m => { m with
    vault := m.vault.writes (cellsAt a bs),
    vpoison := m.vpoison.filter (fun w => !(ws.contains w && decide (a ≤ w) && decide (w + 4 ≤ a + bs.length))) ++
      (if bad then ws.filter fun w => !m.vpoison.contains w || (decide (a ≤ w) && decide (w + 4 ≤ a + bs.length)) else []) }

/-- A vault word's tag. -/
def State.full (s : State) (w : Nat) : Bool := s.ms.tags.contains w

/-- Sets the tags of words. -/
def State.setTags (s : State) (ws : List Nat) (full : Bool) : State :=
  s.onMs fun m => { m with tags := (m.tags.filter fun w => !ws.contains w) ++ (if full then ws else []) }

end Sys2Proof.Machine
end

