-- ==== Sys2Proof/Machine/Operands.lean ====
section
/-!
DEFINITION. Operand forms (R45 to R50): reading and writing v, g, z, p and k, spans of registers, the registers that an
instruction names, and the scoreboard over them (R38).
-/
namespace Sys2Proof.Machine

/-- v register n; the last registers stand beyond every budget. -/
def Regs.getV (r : Regs) (n : Nat) : Word := if h : n < 128 then r.v[n] else 0
def Regs.setV (r : Regs) (n : Nat) (x : Word) : Regs := { r with v := r.v.setIfInBounds n x }
/-- Predicate n; p7 reads as true (R47). -/
def Regs.getP (r : Regs) (n : Nat) : Bool := decide (7 ≤ n) || r.p.getLsbD n
/-- Writes a predicate; a write to p7 is discarded (R47). -/
def Regs.setP (r : Regs) (n : Nat) (b : Bool) : Regs :=
  if 7 ≤ n then r else { r with p := if b then r.p ||| (1#7 <<< n) else r.p &&& ~~~(1#7 <<< n) }
def Regs.getK (r : Regs) (n : Nat) : Option Token := if h : n < 8 then r.k[n] else none
def Regs.setK (r : Regs) (n : Nat) (x : Option Token) : Regs := { r with k := r.k.setIfInBounds n x }
def Regs.addFlags (r : Regs) (f : BitVec 5) : Regs := { r with flags := r.flags ||| f }

/-- g register n of a thread's group. -/
def State.getG (s : State) (g n : Nat) : Word :=
  match s.group g with
  | some x => if h : n < 64 then x.g[n] else 0
  | none => 0

/-- Register i of the span of an operand, as a thread reads it; z reads as zero in every part (R48). -/
def State.rdReg (s : State) (t : Thread) (o : Opnd) (i : Nat) : Word :=
  match o with
  | .v n => t.regs.getV (n.val + i)
  | .g n => s.getG t.place.grp (n.val + i)
  | .z => 0

/-- A 32-bit operand. -/
def State.rd (s : State) (t : Thread) (o : Opnd) : Word := s.rdReg t o 0

/-- A 64-bit operand: the lowest register holds the least significant word (R48). -/
def State.rd2 (s : State) (t : Thread) (o : Opnd) : Dword := s.rdReg t o 1 ++ s.rdReg t o 0

/-- The words of a span. -/
def State.rdSpan (s : State) (t : Thread) (o : Opnd) (n : Nat) : List Word := (List.range n).map (s.rdReg t o)

/-- A number as n words, lowest first. -/
def toWords (n x : Nat) : List Word := (List.range n).map fun i => BitVec.ofNat 32 (x / 2 ^ (32 * i))

/-- Words, lowest first, as a number. -/
def ofWords : List Word → Nat
  | [] => 0
  | w :: ws => w.toNat + 2 ^ 32 * ofWords ws

/-- Writes words to the v registers from n. -/
def Regs.setVs (r : Regs) (n : Nat) : List Word → Regs
  | [] => r
  | w :: ws => (r.setV n w).setVs (n + 1) ws

/-- Writes words to the g registers from n of a group. -/
def Group.setGs (x : Group) (n : Nat) : List Word → Group
  | [] => x
  | w :: ws => ({ x with g := x.g.setIfInBounds n w } : Group).setGs (n + 1) ws

/-- Writes a destination of a thread: a v span; a g span when the thread is the one of its group that writes (R50); a z
destination discards. A register written is whole again (R428). -/
def State.wrSpan (s : State) (t : Thread) (lead : Bool) (o : Opnd) (ws : List Word) : State :=
  match o with
  | .v n => s.onThread t.id fun x => { x with
      regs := x.regs.setVs n.val ws, out := { x.out with bad := x.out.bad.filter fun b => decide (b < n.val) || decide (n.val + ws.length ≤ b) } }
  | .g n => if lead then s.onGroup t.place.grp fun x => x.setGs n.val ws else s
  | .z => s

/-- Sets sticky flags of a thread (R74). -/
def State.addFlags (s : State) (t : Nat) (f : BitVec 5) : State := s.onThread t fun x => { x with regs := x.regs.addFlags f }

/-- Writes a predicate of a thread. -/
def State.wrP (s : State) (t n : Nat) (b : Bool) : State := s.onThread t fun x => { x with regs := x.regs.setP n b }

/-- Writes a token register of a thread. -/
def State.wrK (s : State) (t n : Nat) (k : Option Token) : State := s.onThread t fun x => { x with regs := x.regs.setK n k }

/-! ## The registers that an instruction names -/

/-- Registers read and written: spans of v and g, predicates, tokens. -/
structure Use where
  rd : List (Opnd × Nat)
  wr : List (Opnd × Nat)
  prd : List Nat
  pwr : List Nat
  k : List Nat

/-- The registers of a span. -/
def spanRefs (o : Opnd × Nat) : List RegRef :=
  match o.1 with
  | .v n => (List.range o.2).map fun i => .v (n.val + i)
  | .g n => (List.range o.2).map fun i => .g (n.val + i)
  | .z => []

/-- Every register that an instruction names. -/
def Use.refs (u : Use) : List RegRef :=
  (u.rd ++ u.wr).flatMap spanRefs ++ (u.prd ++ u.pwr).map RegRef.p ++ u.k.map RegRef.k

/-- A span stays within the register budget (R49). -/
def inBudget (budget : Nat) (o : Opnd × Nat) : Bool :=
  match o.1 with
  | .v n => decide (n.val + o.2 ≤ budget)
  | _ => true

/-- Every span stays within the budget. -/
def Use.fits (u : Use) (budget : Nat) : Bool := (u.rd ++ u.wr).all (inBudget budget)

/-- Some register is the destination of an outstanding operation (R38). -/
def State.pending (s : State) (t : Thread) (rs : List RegRef) : Bool :=
  rs.any fun r =>
    match r with
    | .g n => match s.group t.place.grp with
      | some g => g.pend.any fun p => p.2 == n
      | none => false
    | r => t.out.pend.any fun p => p.2 == r

/-- A v register that an instruction reads holds an uncorrectable error (R428). -/
def Use.readsBad (u : Use) (t : Thread) : Bool :=
  (u.rd.flatMap spanRefs).any fun r => match r with
    | .v n => t.out.bad.contains n
    | _ => false

/-- Marks the destination of an outstanding operation (R38). -/
def State.hold (s : State) (t : Thread) (op : Nat) (o : Opnd) (n : Nat) : State :=
  match o with
  | .v r => s.onThread t.id fun x => { x with out := { x.out with pend := x.out.pend ++ (List.range n).map fun i => (op, .v (r.val + i)) } }
  | .g r => s.onGroup t.place.grp fun x => { x with pend := x.pend ++ (List.range n).map fun i => (op, r.val + i) }
  | .z => s

/-- Marks a predicate as the destination of an outstanding operation. -/
def State.holdP (s : State) (t : Nat) (op n : Nat) : State :=
  s.onThread t fun x => { x with out := { x.out with pend := x.out.pend ++ [(op, .p n)] } }

/-- The destinations of an operation are no longer outstanding. -/
def State.unhold (s : State) (t : Thread) (op : Nat) : State :=
  (s.onThread t.id fun x => { x with out := { x.out with pend := x.out.pend.filter fun p => p.1 != op } }).onGroup t.place.grp
    fun x => { x with pend := x.pend.filter fun p => p.1 != op }

/-- Writes the result of an outstanding operation: an exited thread's is discarded (R357). -/
def State.deliver (s : State) (tid op : Nat) (o : Opnd) (ws : List Word) : State :=
  match s.thread tid with
  | none => s
  | some t =>
    let s1 := s.unhold t op
    if t.exited then s1 else s1.wrSpan t true o ws

end Sys2Proof.Machine
end

