-- ==== Sys2Proof/Machine/Xlate.lean ====
section
/-!
DEFINITION. Addresses: canonical form (R230), the vault map and its faults (R231 to R233, R399), the physical map and
windows (R377, R390, R434), page tables (R378 to R380) and TLBs (R381, R382).
-/
namespace Sys2Proof.Machine

/-- A trap's cause with its reason. -/
structure Flt where
  cause : Nat
  reason : Nat
  deriving DecidableEq, Repr

/-- Kinds of access for permission (R379). -/
inductive Acc where
  | read | write | exec
  deriving DecidableEq, Repr

/-- Bits [63:48] all equal bit 47 (R230). -/
def canonical (va : Nat) : Bool := bitsOf va 63 47 == 0 || bitsOf va 63 47 == 2 ^ 17 - 1

/-- A 48-bit address extended by bit 47. -/
def extend48 (a : Nat) : Nat := wrapInt (signExtend a 48) 64

/-- Address arithmetic of R230. -/
def eaOf (a : Nat) (ofs : BitVec 19) : Nat := wrapInt ((a : Int) + ofs.toInt) 64

/-- Address arithmetic of R231. -/
def vaOf (a : Nat) (ofs : BitVec 19) : Nat := wrapInt ((a : Int) + ofs.toInt) 32

/-! ## The vault -/

/-- Whether a partition's ROWS names the row of a core of the mesh. -/
def Part.hasRow (p : Part) (die row : Nat) : Bool := p.cfg.rows.getLsbD (8 * die + row)

/-- Whether a core of the mesh belongs to a partition. -/
def Part.hasCore (p : Part) (c : CoreId) : Bool := decide (c.core < 64) && p.hasRow c.die (c.core / 8)

/-- The rectangle of a cluster point: die, corner, width, height. -/
def pointRect : Point → Nat × Nat × Nat × Nat
  | .cluster d c w h => (d, c, w, h)
  | _ => (0, 0, 1, 1)

/-- The number of a core, by its index in a rectangle (R232). -/
def rectCore (r : Nat × Nat × Nat × Nat) (n : Nat) : Nat := r.2.1 + n % r.2.2.1 + 8 * (n / r.2.2.1)

/-- A core whose vault can be named: its die booted and has not failed, and the partition holds the core. -/
def State.vaultCore (s : State) (part : Nat) (c : CoreId) : Bool :=
  s.md.dies.getLsbD c.die && !s.md.failed.getLsbD c.die && (s.part part).hasCore c

/-- Resolves a vault address of a thread to a vault key, or the fault of R233 with the reason of R399. -/
def State.vaultKey (s : State) (pl : Place) (va n : Nat) (cr : Bool) : Except Flt Nat :=
  let quay := decide (64 ≤ pl.core.core)
  let die := bitsOf va 31 30
  let core := bitsOf va 29 24
  let ofs := bitsOf va 21 0
  if quay && (cr || die != pl.core.die) then .error ⟨0x11, 12⟩
  else if bitsOf va 23 22 != 0 then .error ⟨0x11, 8⟩
  else
    let r := pointRect pl.clp
    if cr && (die != 0 || decide (r.2.2.1 * r.2.2.2 ≤ core)) then .error ⟨0x11, 9⟩
    else
      let c : CoreId := if cr then ⟨pl.core.die, rectCore r core⟩ else ⟨die, core⟩
      if !s.vaultCore pl.part c then .error ⟨0x11, 10⟩
      else if 2 ^ 22 < ofs + n then .error ⟨0x11, 11⟩
      else .ok (c.die * 2 ^ 30 + c.core * 2 ^ 24 + ofs)

/-! ## Physical memory -/

/-- Number of booted dies. -/
def State.nDies (s : State) : Nat := s.dies.length

/-- Bytes of the module's HBM: 96 GiB for each booted die (R377, R434). -/
def State.hbmSize (s : State) : Nat := s.nDies * 0x1800000000

/-- Whether an address lies in the module's HBM, a present peer's, or the host's memory. -/
def State.inHbm (s : State) (pa : Nat) : Bool := decide (pa < s.hbmSize)
def isHost (pa : Nat) : Bool := decide (2 ^ 51 ≤ pa ∧ pa < 2 ^ 52)
def State.inPeer (s : State) (pa : Nat) : Bool :=
  decide (2 ^ 48 ≤ pa) && decide (pa < 2 ^ 48 + 64 * 2 ^ 40) && s.md.peers.getLsbD ((pa - 2 ^ 48) / 2 ^ 40)
def State.inMap (s : State) (pa : Nat) : Bool := s.inHbm pa || s.inPeer pa || isHost pa

/-- Stack of an HBM address (R20, R434). -/
def State.stackOf (s : State) (pa : Nat) : Nat :=
  if s.nDies = 4 then bitsOf pa 14 12
  else
    let st := s.dies.flatMap fun d => [2 * d, 2 * d + 1]
    st.getD (pa / 4096 % (2 * s.nDies)) 0

/-- Home die of an HBM address (R20). -/
def State.homeDie (s : State) (pa : Nat) : Nat := s.stackOf pa / 2

/-- A window of base and limit in 2 MiB units (R386). -/
def inWindow (w : Dword) (pa : Nat) : Bool :=
  decide (bitsOf w.toNat 23 0 * 2 ^ 21 ≤ pa) && decide (pa < bitsOf w.toNat 55 32 * 2 ^ 21)

/-- An address lies in an HBM window of a partition. -/
def Part.inHbmw (p : Part) (pa : Nat) : Bool := p.cfg.hbmw.toList.any fun w => inWindow w pa

/-- R390. -/
def State.allowed (s : State) (part pa : Nat) : Bool :=
  let p := s.part part
  p.inHbmw pa || (isHost pa && p.cfg.links.getLsbD 0) || (s.inPeer pa && p.cfg.links.getLsbD 1)

/-- What a failed die makes of an HBM address: an orphan 1, stranded 2, else 0 (R432). -/
def State.lost (s : State) (pa : Nat) : Nat :=
  if s.inHbm pa && s.md.failed.getLsbD (s.homeDie pa) then (if s.md.orphans.contains (pa / 64) then 1 else 2) else 0

/-- An address lies beyond a link that is down (R430). -/
def State.linkCut (s : State) (pa : Nat) : Bool :=
  (isHost pa && s.md.links.any fun l => l.id == 0 && l.down) || (s.inPeer pa && s.md.cut.getLsbD ((pa - 2 ^ 48) / 2 ^ 40))

/-- Traffic over a link is held: the link is down, or retrains (R429, R430). -/
def State.linkBusy (s : State) (l : Nat) : Bool := s.md.links.any fun x => x.id == l && (x.down || x.training.isSome)

/-- The peer port of a device. -/
def portOf (dev : Nat) : Nat := Config.peerPort dev % 12 + 1

/-- The device whose memory holds an address. -/
def devOf (pa : Nat) : Nat := (pa - 2 ^ 48) / 2 ^ 40

/-- An access to an address waits for a link: one that is down, or retrains (R429, R430). -/
def State.linkHeld (s : State) (pa : Nat) : Bool :=
  s.linkCut pa || (isHost pa && s.linkBusy 0) || (s.inPeer pa && s.linkBusy (portOf (devOf pa)))

/-! ## Page tables -/

/-- Fields of an entry (R378). -/
def pteV (e : Nat) : Bool := e % 2 == 1
def pteLeaf (e : Nat) : Bool := e / 2 % 2 == 1
def pteU (e : Nat) : Bool := e / 2 ^ 4 % 2 == 1
def pteW (e : Nat) : Bool := e / 2 ^ 5 % 2 == 1
def pteX (e : Nat) : Bool := e / 2 ^ 6 % 2 == 1
def pteG (e : Nat) : Bool := e / 2 ^ 9 % 2 == 1
def pteCow (e : Nat) : Bool := e / 2 ^ 10 % 2 == 1
def pteCont (e : Nat) : Bool := e / 2 ^ 11 % 2 == 1
def pteFrame (e : Nat) : Nat := bitsOf e 51 12 * 4096

/-- A malformed entry at a level (R378, R379). -/
def pteBad (lvl e : Nat) : Bool :=
  bitsOf e 63 60 != 0 || bitsOf e 3 2 != 0 ||
    (if pteLeaf e then
      lvl == 4 || (pteCow e && pteW e) || decide (2 ≤ bitsOf e 8 7) || (pteCont e && lvl != 1)
    else lvl == 1 || bitsOf e 11 4 != 0)

/-- Bytes that a leaf of a level maps. -/
def leafSize (lvl : Nat) : Nat := 2 ^ (9 * lvl + 3)

/-- A leaf found by a walk: its entry, address, level and size of the page. -/
structure Leaf where
  e : Nat
  ea : Nat
  lvl : Nat
  size : Nat
  deriving DecidableEq, Repr

/-- Walks tables from a level down (R379): reads are those of the function given. -/
def walkFrom (rd : Nat → Nat) (okTable : Nat → Bool) (va : Nat) : Nat → Nat → Except Flt Leaf
  | 0, _ => .error ⟨0x10, 3⟩
  | lvl + 1, t =>
    if !okTable t then .error ⟨0x10, 5⟩
    else
      let ea := t + 8 * bitsOf va (11 + 9 * (lvl + 1)) (3 + 9 * (lvl + 1))
      let e := rd ea
      if !pteV e then .error ⟨0x10, 2⟩
      else if pteBad (lvl + 1) e then .error ⟨0x10, 3⟩
      else if !pteLeaf e then walkFrom rd okTable va lvl (pteFrame e)
      else if pteFrame e % leafSize (lvl + 1) != 0 then .error ⟨0x10, 3⟩
      else .ok ⟨e, ea, lvl + 1, leafSize (lvl + 1)⟩

/-- The permission checks of R379 on a leaf, and the physical address. -/
def State.permit (s : State) (part : Nat) (user : Bool) (acc : Acc) (va e size : Nat) : Except Flt Nat :=
  let pa := pteFrame e + va % size
  if user && !pteU e then .error ⟨0x11, 1⟩
  else if acc == .exec && !pteX e then .error ⟨0x11, 2⟩
  else if acc == .write && !pteW e then (if pteCow e then .error ⟨0x10, 4⟩ else .error ⟨0x11, 3⟩)
  else if !s.inMap pa then .error ⟨0x10, 6⟩
  else if !s.allowed part pa then .error ⟨0x11, 4⟩
  else .ok pa

/-- The page that a TLB holds for a leaf, 64 KiB for a well-formed contiguity group (R380). -/
def contPage (rd : Nat → Nat) (va : Nat) (l : Leaf) : TlbEntry → TlbEntry := fun t =>
  if l.lvl == 1 && pteCont l.e then
    let b := l.ea / 128 * 128
    let e0 := rd b
    let same := (List.range 16).all fun i =>
      let e := rd (b + 8 * i)
      pteV e && pteCont e && e == e0 + i * 4096
    if same && pteFrame e0 % 0x10000 == 0 then { t with vbase := va / 0x10000 * 0x10000, size := 0x10000, pte := e0 } else t
  else t

/-- Cores of a partition on a die, ascending. -/
def Part.coresOn (p : Part) (die : Nat) : List Nat := (List.range 64).filter fun c => p.hasRow die (c / 8)

/-- Home of a translation on a die (R382). -/
def Part.tlbHome (p : Part) (die va asid : Nat) : CoreId :=
  let cs := p.coresOn die
  ⟨die, cs.getD ((bitsOf va 47 21 ^^^ asid) % (if cs.length = 0 then 1 else cs.length)) 0⟩

/-- A TLB entry translates an address of an address space (R381). -/
def TlbEntry.hits (e : TlbEntry) (part asid va : Nat) : Bool :=
  e.part == part && (e.glob || e.asid == asid) && decide (e.vbase ≤ bitsOf va 47 0) && decide (bitsOf va 47 0 < e.vbase + e.size)

/-- Adds an entry to a core's TLB; at capacity it takes the place of one of the core's entries, any one (log 2). -/
def tlbFill (cap pick : Nat) (l : List (CoreId × TlbEntry)) (c : CoreId) (e : TlbEntry) : List (CoreId × TlbEntry) :=
  if l.contains (c, e) then l
  else
    let mine := l.filter fun x => x.1 == c
    (match mine[pick % mine.length]? with
      | some x => if cap ≤ mine.length then l.erase x else l
      | none => l) ++ [(c, e)]

/-- What a home holds of a page for an address: of a 1 GiB page, the 2 MiB fragment looked up (R382). -/
def TlbEntry.fragment (e : TlbEntry) (va : Nat) : TlbEntry :=
  if e.size = 2 ^ 30 then
    { e with vbase := bitsOf va 47 21 * 2 ^ 21, size := 2 ^ 21, pte := e.pte + bitsOf va 29 21 * 2 ^ 21, frag := true }
  else e

/-- Capacity of an L1 TLB (R381). -/
def l1Cap (c : CoreId) : Nat := if 64 ≤ c.core then 32 else 128

/-- A translation found or made: the page, or a fault. -/
structure Xl where
  part : Nat
  root : Nat
  asid : Nat
  user : Bool
  core : CoreId
  deriving DecidableEq, Repr

/-- The address space of a thread (R376). -/
def Thread.xl (t : Thread) : Xl := ⟨t.place.part, t.place.root, t.place.asid, !t.place.priv, t.place.core⟩

/-- A core's TLB holds a translation of an address; the home's slice does (R381, R382). -/
def State.inL1Tlb (s : State) (x : Xl) (va : Nat) : Bool := s.ms.l1tlb.any fun e => e.1 == x.core && e.2.hits x.part x.asid va
def State.tlbHome (s : State) (x : Xl) (va : Nat) : CoreId := (s.part x.part).tlbHome x.core.die va x.asid
def State.inL2Tlb (s : State) (x : Xl) (va : Nat) : Bool := s.ms.l2tlb.any fun e => e.1 == s.tlbHome x va && e.2.hits x.part x.asid va

/-- Who walks for an address: the core that is its home (R379, R382). -/
def State.walker (s : State) (x : Xl) (va : Nat) : Who := let h := s.tlbHome x va; ⟨0, h, ownCluster h⟩

/-- The TLB entry of an address: from the core's TLB, its home, or a walk (R381, R382). -/
def State.lookup (s : State) (x : Xl) (va : Nat) : Except Flt TlbEntry :=
  let p := s.part x.part
  match s.ms.l1tlb.find? fun e => e.1 == x.core && e.2.hits x.part x.asid va with
  | some e => .ok e.2
  | none =>
    match s.ms.l2tlb.find? fun e => e.1 == s.tlbHome x va && e.2.hits x.part x.asid va with
    | some e => .ok e.2
    | none =>
      -- ReadAcqSys by the walking core (R379)
      let pts := (s.walker x va).upTo .system
      let rd := fun a => (s.readBy (s.latest pts) a 8).val
      match walkFrom rd p.inHbmw va 4 x.root with
      | .error f => .error f
      | .ok l =>
        .ok (contPage rd (bitsOf va 47 0) l ⟨x.part, x.asid, pteG l.e, bitsOf va 47 0 / l.size * l.size, l.size, l.e, false⟩)

/-- Translates an address (R379). -/
def State.translate (s : State) (x : Xl) (acc : Acc) (va : Nat) : Except Flt Nat :=
  if !canonical va then .error ⟨0x10, 1⟩
  else
    match s.lookup x va with
    | .error f => .error f
    | .ok e => s.permit x.part x.user acc (bitsOf va 47 0) e.pte e.size

/-- The TLB fills and the acquire that a translation leaves behind (R379, R382): an L1 miss fills the L1 TLB; a walk, which fills its
home too, is an acquire of the walking core whether or not it ends in a fault. -/
def State.fillTlb (s : State) (x : Xl) (va : Nat) : State :=
  if !canonical va || s.inL1Tlb x va then s
  else
    let s0 := if s.inL2Tlb x va then s else s.refresh (s.walker x va) .system
    match s.lookup x va with
    | .error _ => s0
    | .ok e =>
      let pick := Config.tlbVictim s.tick va
      let s1 := s0.onMs fun m => { m with l1tlb := tlbFill (l1Cap x.core) pick m.l1tlb x.core e }
      if s.inL2Tlb x va then s1
      else s1.onMs fun m => { m with l2tlb := tlbFill 2048 pick m.l2tlb (s.tlbHome x va) (e.fragment va) }

/-- A page is uncached: MT of its entry is 0b01 (R378). -/
def State.uncached (s : State) (x : Xl) (va : Nat) : Bool :=
  match s.lookup x va with
  | .error _ => false
  | .ok e => bitsOf e.pte 8 7 == 1

/-- An access to a page takes no place in L1 or L2 and goes to its home: an uncached page, or memory homed outside the module
(R269, R378). -/
def State.goesHome (s : State) (x : Xl) (va pa : Nat) : Bool := s.uncached x va || !s.inHbm pa

/-- Translates an address, with what the translation leaves behind. -/
def State.translated (s : State) (x : Xl) (acc : Acc) (va : Nat) : Except Flt Nat × State := (s.translate x acc va, s.fillTlb x va)

end Sys2Proof.Machine
end

