-- ==== Sys2Proof/Machine/Ops.lean ====
section
/-!
DEFINITION. The named operations that meanings share: launch-block fields, positions in code, taking a trap (R396 to
R407) and returning from one (R403, R405, R420), killing and exiting (R357, R406), counters (R33), accesses and their
completion, and the frame in which an instruction issues for a set of threads (R38, R41, R58, R59).
-/
namespace Sys2Proof.Machine

/-! ## Launch blocks (R305, R326) -/

/-- Bits of a launch block. -/
def Block.f (b : Block) (hi lo : Nat) : Nat := bitsOf b.bits hi lo
def Block.isGang (b : Block) : Bool := b.f 193 192 == 1
def Block.pc (b : Block) : Nat := extend48 (b.f 47 0)
def Block.handler (b : Block) : Nat := if b.f 255 208 = 0 then 0 else extend48 (b.f 255 208)
def Block.hmp (b : Block) : Bool := b.f 194 194 == 1
def Block.done (b : Block) : Nat := extend48 (b.f 303 256)
def Block.budget (b : Block) : Nat := 8 * (b.f 145 142 + 1)

/-- The launch of a thread's team. -/
def State.launchOf (s : State) (t : Thread) : Option Launch := (s.team t.place.team).bind fun x => s.launch x.launch

/-! ## Positions in code -/

/-- The place after the word at a position inside a clause of n words (R37, R400). -/
def Pos.next (p : Pos) (n : Nat) : Pos :=
  let q := p.pc + 8
  if p.hdr + BitVec.ofNat 64 (8 * n) = p.pc then ⟨q, q, false⟩ else ⟨p.hdr, q, true⟩

/-- The start of the clause at an address. -/
def Pos.at (a : Dword) : Pos := ⟨a, a, false⟩

/-- Index of the next word among the words of its clause. -/
def Thread.idx (t : Thread) : Nat := (t.pos.pc - t.pos.hdr).toNat / 8 - 1

/-- Where a thread goes after its word. -/
def Thread.nextPos (t : Thread) : Pos := t.pos.next t.clause.words.length

/-- The thread has executed its word: it stands at the next word of its clause, or at the next header. -/
def Thread.advance (t : Thread) : Thread :=
  let p := t.nextPos
  { t with pos := p, mode := if p.mid then .run else .header }

/-- The thread goes to an address, where it takes the word as a header (R28, R37). -/
def Thread.goto (t : Thread) (a : Dword) : Thread := { t with pos := Pos.at a, mode := .header }

/-- A wait after a word that is no long-latency wait (R247, R321): it divides no clause. -/
def Wait.short : Wait → Bool
  | .atomic _ => true
  | _ => false

/-- The thread has executed its word and waits: the rest of its clause issues as a continuation (R354), or, after an atomic, is
resumed alone (R247). -/
def Thread.advanceTo (t : Thread) (w : Wait) : Thread :=
  let p := t.nextPos
  { t with pos := p, mode := if !p.mid then .header else if w.short then .held else .cont false, wait := w }

def State.advance (s : State) (t : Nat) : State := s.onThread t Thread.advance
def State.waitOn (s : State) (t : Nat) (w : Wait) : State := s.onThread t fun x => x.advanceTo w
/-- A wait ends. -/
def State.wake (s : State) (t : Nat) : State := s.onThread t fun x => { x with wait := .none }

/-- A thread leaves the issue set of its quadrant. -/
def State.leave (s : State) (t : Nat) : State :=
  s.onWk fun w => { w with sets := w.sets.map fun x => (x.1, x.2.filter fun y => y != t) }

/-! ## Counters (R33) -/

def Counters.up (c : Counters) : Ctr → Counters
  | .none => c
  | .load => { c with loads := c.loads + 1 }
  | .store => { c with stores := c.stores + 1 }
  | .tile => { c with tiles := c.tiles + 1 }
def Counters.down (c : Counters) : Ctr → Counters
  | .none => c
  | .load => { c with loads := c.loads - 1 }
  | .store => { c with stores := c.stores - 1 }
  | .tile => { c with tiles := c.tiles - 1 }
def Counters.get (c : Counters) : Ctr → Nat
  | .none => 0
  | .load => c.loads
  | .store => c.stores
  | .tile => c.tiles
def State.up (s : State) (t : Nat) (c : Ctr) : State := s.onThread t fun x => { x with ctr := x.ctr.up c }
def State.down (s : State) (t : Nat) (c : Ctr) : State := s.onThread t fun x => { x with ctr := x.ctr.down c }

/-- A counter meets a wait field; 15 imposes no condition (R35). -/
def meets (n field : Nat) : Bool := field == 15 || decide (n ≤ field)

/-- The four counters meet four fields. -/
def Counters.meet (c : Counters) (wl ws wc wt : Nat) : Bool :=
  meets c.loads wl && meets c.stores ws && meets c.batches wc && meets c.tiles wt

/-- A slot as at partition creation (R175). -/
def Slot.reset : Slot := ⟨.free, false, none, 0, 0, 0⟩

/-- A slot of the table of a partition on a die (R175, R177). -/
def State.slot (s : State) (p d n : Nat) : Slot :=
  match s.en.fsts.find? fun f => f.part == p && f.die == d with
  | some f => match f.slots.find? fun x => x.1 == n with
    | some x => x.2
    | none => Slot.reset
  | none => Slot.reset

/-- The slot that a thread names. -/
def State.slotOf (s : State) (t : Thread) (n : Nat) : Slot := s.slot t.place.part t.place.core.die n

/-- Walks that the chain walker of a core holds (R17). -/
def State.walkerLoad (s : State) (c : CoreId) : Nat := (s.en.walks.filter fun w => w.core == c && w.st != .discarded && w.st != .again).length

/-- Phases completed at a barrier (R362). -/
def phases (l : List (Nat × Nat)) (b : Nat) : Nat := ((l.find? fun x => x.1 == b).map Prod.snd).getD 0

/-- Phase n of a cluster barrier has completed (R362). -/
def State.phaseDone (s : State) (cl b n : Nat) : Bool :=
  match s.cluster cl with
  | some c => decide (n < phases c.cph b)
  | none => true

/-- A drain clears a core. -/
def Drain.clears (d : Drain) (c : CoreId) : Bool := d.cores.any fun x => x.1 == c

/-- A drain without some of its cores; none when no core is left. -/
def Drain.without (d : Drain) (f : CoreId → Bool) : Option Drain :=
  let r := d.cores.filter fun x => !f x.1
  if r.isEmpty then none else some { d with cores := r }

/-- A batch has finished (R290). -/
def State.batchDone (s : State) (b : Nat) : Bool := s.en.batches.any fun x => x.id == b && x.fin.isSome

/-- Another context of a thread's core has operations in the matrix engine (R136). -/
def State.engineBusy (s : State) (t : Thread) : Bool :=
  match s.team t.place.team with
  | some x => s.en.ctxs.any fun c => c.core == t.place.core && c.id != x.ctx && !c.mxq.isEmpty
  | none => false

/-- An operation of the splat units stands in its queue and has not run. -/
def State.splWaits (s : State) (op : Nat) : Bool := s.en.ctxs.any fun c => c.splq.any fun o => o.eng.id == op && o.phase == 0

/-- A wait is over without an event of its own: the counters meet (R291, R358), or the batch has finished (R360). -/
def State.waitOver (s : State) (t : Thread) : Bool :=
  match t.wait with
  | .none => true
  | .counters wl ws wc wt => t.ctr.meet wl ws wc wt
  | .batches n => decide (t.ctr.batches ≤ n)
  | .sleepu b _ => s.batchDone b
  | .slots ks => ks.all fun k => !(s.slotOf t k).pending
  | .walker => decide (s.walkerLoad t.place.core < 64)
  | .prior cl b n => s.phaseDone cl b n
  | .engine => !s.engineBusy t
  | .units o => !s.splWaits o
  | _ => false

/-- Writes of completed operations that a thread now sees complete join its observed set (R226, R289). -/
def Thread.sees (t : Thread) (tiles copies : Bool) : Thread :=
  let ids := (if tiles then t.out.unseenT else []) ++ (if copies then t.out.unseenC else [])
  { t with
    obs := t.obs ++ ids.filter fun i => !t.obs.contains i,
    out := { t.out with unseenT := if tiles then [] else t.out.unseenT, unseenC := if copies then [] else t.out.unseenC } }

/-- A thread passes its wait, and sees what that wait lets it see. -/
def Thread.pass (t : Thread) : Thread :=
  let t' := match t.wait with
    | .counters _ _ wc wt => t.sees (wt != 15) (wc != 15)
    | .batches _ => t.sees false true
    | .sleepu _ _ => t.sees false true
    | _ => t
  { t' with wait := .none }

/-- A thread waits after its word; a wait that is over at once divides nothing (R354). -/
def State.waitOrGo (s : State) (t : Nat) (w : Wait) : State :=
  match s.thread t with
  | none => s
  | some x => if s.waitOver { x with wait := w } then s.onThread t fun x => ({ x with wait := w } : Thread).pass.advance else s.waitOn t w

/-- A cause waits for the next clause header of a thread (R400). -/
def State.cause (s : State) (t : Nat) (c : Cause) : State :=
  s.onThread t fun x => { x with out := { x.out with causes := x.out.causes ++ [c] } }

/-- Cause 0x20, reason 1, at the next header, with an engine's code in INFO (R398, R426). -/
def poisonCause (addr engine : Nat) : Cause := ⟨0x20, 1, addr, engine, false, none⟩

/-! ## Records and the error log -/

/-- The quay core of a core's row (R16, R396). -/
def quayOf (c : CoreId) : CoreId := if 64 ≤ c.core then c else ⟨c.die, 64 + c.core / 8⟩

/-- The 256 bits of a record with its sequence number (R397). -/
def Rec.bits (r : Rec) (seq : Nat) : Nat :=
  r.cause % 2 ^ 8 + r.reason % 2 ^ 4 * 2 ^ 8 + r.kind % 8 * 2 ^ 12 + (if r.loc then 2 ^ 15 else 0) + r.entry % 64 * 2 ^ 16 +
    r.core.core % 128 * 2 ^ 23 + r.core.die % 4 * 2 ^ 30 + r.lane % 256 * 2 ^ 32 + seq % 2 ^ 16 * 2 ^ 48 +
    r.pc % 2 ^ 64 * 2 ^ 64 + r.addr % 2 ^ 64 * 2 ^ 128 + r.info % 2 ^ 64 * 2 ^ 192

/-- A record waits for a place in the fault queue of its quay core (R404). -/
def State.post (s : State) (r : Rec) : State := s.onWk fun w => { w with recs := w.recs ++ [r] }

/-- Firmware writes an entry of the error log (R435). -/
def State.logError (s : State) (addr place die sev cause : Nat) : State :=
  s.onMd fun m => { m with
    errlog := ((m.errlog.filter fun e => e.1 != m.errhead.toNat % 128) ++
      [(m.errhead.toNat % 128, ⟨s.clock, BitVec.ofNat 64 addr, BitVec.ofNat 4 place, BitVec.ofNat 2 die, BitVec.ofNat 2 sev, BitVec.ofNat 8 cause⟩)]),
    errhead := m.errhead + 1 }

/-- An entry whose cause the manual does not state, a trap's cause or 0, and whose place it may not state: both are free, the
place among the rows 0 to 5 of R423. -/
def State.logFree (s : State) (addr : Nat) (place : Option Nat) (die sev : Nat) : State :=
  let q := s.draw
  q.2.logError addr (place.getD (q.1 / 2 % 6)) die sev (if q.1 % 2 = 0 then 0 else 0x20)

/-! ## Withdrawing (R243, R372, R414) -/

/-- An access that a switch withdraws: an unperformed LDT or STT, or a push without its queue step. -/
def Access.withdrawable (a : Access) : Bool :=
  match a.kind with
  | .ldt _ _ _ => a.parts.all fun p => !p.done
  | .stt _ => a.parts.all fun p => !p.done
  | .push _ _ _ => a.parts.all fun p => !p.done
  | _ => false

/-- Withdraws the waiting accesses and parked walks of threads, with their counters restored (R414 step 2). -/
def State.withdraw (s : State) (sel : Thread → Bool) : State :=
  let ts := s.wk.threads.filter sel
  let mine := fun (t : Nat) => ts.any fun x => x.id == t
  let as_ := s.ms.accs.filter fun a => mine a.tid && a.withdrawable && !a.withdrawn
  let ws := s.en.walks.filter fun w => mine w.tid && w.st == .parked
  let s1 := (as_.map fun a => (a.tid, a.ctr)).foldl (fun s p => s.down p.1 p.2) s
  let s2 := (ws.map fun w => w.tid).foldl (fun s t => s.down t .load) s1
  (s2.onMs fun m => { m with accs := m.accs.map fun a => if as_.any fun b => b.id == a.id then { a with withdrawn := true, arrived := none } else a }).onEn
    fun e => { e with walks := e.walks.map fun w => if ws.any fun x => x.id == w.id then { w with st := .discarded } else w }

/-- Issue stops for threads: they leave their issue sets, and a clause in hand goes on as a continuation (R412). -/
def State.stopIssue (s : State) (sel : Thread → Bool) : State :=
  s.onWk fun w =>
    let mine := fun (t : Nat) => w.threads.any fun x => x.id == t && sel x
    { w with
      sets := (w.sets.map fun x => (x.1, x.2.filter fun t => !mine t)).filter fun x => !x.2.isEmpty,
      threads := w.threads.map fun t =>
        if sel t && !t.exited && t.pos.mid && t.mode != .cont false then { t with mode := .cont true } else t }

/-- A HALT of a partition begins (R407, R417 steps 1 and 2): STATE is 2, and its cores of the mesh stop. -/
def State.beginHalt (s : State) (p : Nat) : State :=
  let sel := fun (t : Thread) => t.place.part == p && decide (t.place.core.core < 64)
  ((s.onPart p fun x => { x with state := .halting }).withdraw sel).stopIssue sel

/-! ## Taking a trap (R396 to R407) -/

/-- A trap of kind 0 as it is raised. -/
structure Trap where
  cause : Nat
  reason : Nat
  addr : Nat
  info : Nat
  disocc : Bool
  pc : Nat
  resume : Pos
  skip : Pos
  deriving DecidableEq, Repr

/-- The kernel-local handler that takes a trap of a thread, if one does (R396). -/
def State.localHandler (s : State) (t : Thread) (c : Trap) : Option Dword :=
  match s.launchOf t with
  | none => none
  | some l =>
    if t.kl.isSome || l.blk.handler == 0 then none
    else if c.disocc || (c.cause == 0x30 && l.blk.hmp) then some (BitVec.ofNat 64 l.blk.handler)
    else none

/-- v0 to v7 have been written, and hold no uncorrectable error (R428). -/
def Outst.lowWritten (o : Outst) : Outst := { o with bad := o.bad.filter fun b => decide (8 ≤ b) }

/-- Entry to the kernel-local handler (R402). -/
def Thread.enterLocal (t : Thread) (c : Trap) (h : Dword) (rec_ : List Word) : Thread :=
  { t.goto h with
    regs := t.regs.setVs 0 rec_,
    out := t.out.lowWritten,
    wait := .none,
    kl := some ⟨c.resume, c.skip, (List.range 8).map t.regs.getV, t.regs.p, t.regs.flags⟩ }

/-- A thread takes a trap of kind 0: its kernel-local handler, or a record for the partition handler at which it stops;
on a quay core the partition halts (R396, R402, R404, R407). -/
def State.trap (s : State) (t : Thread) (c : Trap) : State :=
  let l := match s.team t.place.team with
    | some x => x.launch
    | none => 0
  let r : Rec := {
    id := s.nextId, quay := quayOf t.place.core, cause := c.cause, reason := c.reason, kind := 0, loc := t.kl.isSome, entry := 0,
    core := t.place.core, lane := t.place.lane, pc := c.pc, addr := c.addr, info := c.info, party := .thread t.id, launch := l }
  let s1 := ({ s with nextId := s.nextId + 1 }).leave t.id
  match s.localHandler t c with
  | some h =>
    -- SEQ is 0 for a disocclusion (R456), and a free value for a missed promise
    let q := if c.disocc then (0, s1) else s1.draw
    q.2.onThread t.id fun x => x.enterLocal c h (toWords 8 (r.bits q.1))
  | none =>
    let s2 := s1.onThread t.id fun x => { x with
      stop := some ⟨r.id, c.resume, c.skip⟩, wait := .none, mode := if x.mode == .run then .held else x.mode }
    if 64 ≤ t.place.core.core then
      let q := match s.quay t.place.core with
        | some q => q.seq.toNat
        | none => 0
      (s2.logError (r.bits q % 2 ^ 64) 0xF t.place.core.die 2 c.cause).beginHalt t.place.part
    else s2.post r

/-- A trap raised at the word at which a thread stands (R60, R400). -/
def State.trapHere (s : State) (t : Thread) (cause reason addr info : Nat) : State :=
  s.trap t ⟨cause, reason, addr, info, false, t.pos.pc.toNat, t.pos, t.nextPos⟩

/-- A trap raised at a word by a fault of an address. -/
def State.trapFlt (s : State) (t : Thread) (f : Flt) (addr : Nat) : State := s.trapHere t f.cause f.reason addr 0

/-- A cause delivered at the place at which a thread stands: both resume points are that place (R400). -/
def State.trapAt (s : State) (t : Thread) (c : Cause) : State :=
  s.trap t ⟨c.cause, c.reason, c.addr, c.info, c.disocc, c.pc.getD t.pos.pc.toNat, t.pos, t.pos⟩

/-! ## Exit and kill (R357, R406) -/

/-- An access of a thread that an EXIT withdraws for good (R357): an LDT, STT or TAGOP that has not performed, or a blocked push. An STT
with release is among them (log 50). -/
def Access.diesAtExit (a : Access) : Bool :=
  match a.kind with
  | .tagop _ => a.parts.all fun p => !p.done
  | _ => a.withdrawable

/-- Records reserved to a group become unreserved, in their places (R342). -/
def State.releaseRecs (s : State) (g : Nat) : State :=
  s.onWk fun w => { w with
    gangs := w.gangs.map fun x => { x with
      queues := x.queues.map fun q => { q with recs := q.recs.map fun r => if r.holder == some g then { r with holder := none } else r } } }

/-- A group whose last thread has exited releases its records (R342, R357). -/
def State.dropGroup (s : State) (g : Nat) : State :=
  if s.wk.threads.any fun t => t.place.grp == g && !t.exited then s else s.releaseRecs g

/-- A pass that a thread leaves open is aborted by the engine (R165). -/
def State.abortPass (s : State) (t : Nat) : State :=
  ({ s with nextId := s.nextId + 1 } : State).onEn fun e => { e with
    ctxs := e.ctxs.map fun c => match c.open_ with
      | some p =>
        if p.tid == t then
          let l := (((s.thread t).bind fun x => s.team x.place.team).map Team.launch).getD 0
          let op : SplOp := ⟨⟨s.nextId, t, l, ⟨0, 0, false⟩⟩, .endP p.id true, false, 0, [], [], none, [], []⟩
          { c with open_ := none, splq := c.splq ++ [op], splSince := if c.splq.isEmpty then s.clock.toNat else c.splSince }
        else c
      | none => c }

/-- The numbers of what an EXIT discards: withdrawn accesses, and walks that will not run to their end (R357). -/
def State.discards (s : State) (t : Nat) : List Nat :=
  ((s.ms.accs.filter fun a => a.tid == t && a.diesAtExit).map Access.id) ++
    (s.en.walks.filter fun w => w.tid == t && (w.st == .parked || w.st == .discarded || w.st == .again)).map Walk.id

/-- A thread ends (R357). An FSAMP that it has issued still completes (R224). -/
def State.exit (s : State) (t : Nat) : State :=
  let gone := s.discards t
  let s0 := match s.thread t with
    | some x => gone.foldl (fun (r : State) i => r.unhold x i) s
    | none => s
  let s1 := (s0.leave t).onThread t fun x => { x with
    exited := true, wait := .none, stop := none, kl := none, mode := .header,
    regs := { x.regs with k := Vector.replicate 8 none },
    ctr := ⟨0, 0, 0, 0⟩, out := { x.out with causes := [], hits := [], bad := [] } }
  let s2 := (s1.onMs fun m => { m with accs := m.accs.filter fun a => !gone.contains a.id }).onEn
    fun e => { e with walks := e.walks.filter fun w => !gone.contains w.id }
  let s3 := match s2.thread t with
    | some x => s2.dropGroup x.place.grp
    | none => s2
  if s3.en.ctxs.any (fun c => c.open_.any fun (p : OpenPass) => p.tid == t) then s3.abortPass t else s3

/-- Threads of a launch. -/
def State.ofLaunch (s : State) (l : Nat) (t : Thread) : Bool :=
  match s.team t.place.team with
  | some x => x.launch == l
  | none => false

/-- The number of the agent that a record stalls. -/
def Party.agentOf : Party → Option Nat
  | .agent o => some o
  | _ => none

/-- The context whose assist a record asks for. -/
def Party.assistOf : Party → Option Nat
  | .assist c => some c
  | _ => none

/-- The holder of units behind an operation that ends before it has run: a pass, or the operation itself. -/
def SplOp.unitsOf (o : SplOp) : Option Nat :=
  match o.kind with
  | .endP p _ => some p
  | .beginP p => some p
  | .bwd _ _ => some o.eng.id
  | .red _ _ => some o.eng.id
  | _ => none

/-- The slot that a field operation would have written. -/
def FKind.slotOf : FKind → Option Nat
  | .open_ sl _ => some sl
  | .comp _ dst _ _ _ _ => some dst
  | _ => none

/-- A slot that its FOPEN or FCOMP never fills: RETIRED without a descriptor. -/
def Slot.dead (x : Slot) (n : Nat) : Slot := { x with state := .retired, pending := false, desc := none, mask := BitVec.ofNat 64 (2 ^ n) }

/-- Slots of failed field operations. -/
def killSlots (ops : List FOp) (f : Fst) : Fst :=
  ops.foldl (fun x o =>
    match o.kind.slotOf with
    | some n =>
      if o.part == x.part && o.core.die == x.die then { x with slots := x.slots.map fun p => if p.1 == n then (n, p.2.dead n) else p } else x
    | none => x) f

/-- The agents of a launch that wait at a fault, or for an assist, end with their records; what they hold is released. -/
def State.killAgents (s : State) (agents assists : List Nat) : State :=
  let stuck := fun (c : Ctx) => (c.mxq.head?.any fun o => agents.contains o.eng.id) || assists.contains c.id
  let spl := (s.en.ctxs.flatMap Ctx.splq).filter fun o => agents.contains o.eng.id
  let units := spl.filterMap SplOp.unitsOf
  let fops := s.en.fops.filter fun f => agents.contains f.id
  s.onEn fun e => { e with
    copies := e.copies.map fun c => if agents.contains c.id then { c with stalled := false, finished := true } else c,
    walks := e.walks.filter fun w => !agents.contains w.id,
    fops := e.fops.filter fun f => !agents.contains f.id,
    fsts := e.fsts.map (killSlots fops),
    holders := e.holders.filter fun h => !units.contains h.2,
    ctxs := e.ctxs.map fun c => { c with
      mxq := if stuck c then c.mxq.drop 1 else c.mxq,
      mxrun := if stuck c then ⟨0, 0, false, false, none, [], s.clock.toNat, 0⟩ else c.mxrun,
      splq := c.splq.filter fun o => !agents.contains o.eng.id,
      passes := c.passes.filter fun p => !units.contains p.id } }

/-- KILL (R406): dispatch of the launch stops, its threads end, its records are dropped. -/
def State.killLaunch (s : State) (l : Nat) (low : Nat) : State :=
  let ts := (s.wk.threads.filter fun t => s.ofLaunch l t && !t.exited).map Thread.id
  let s1 := (s.onLaunch l fun x => { x with killed := some (x.killed.getD (low % 2 ^ 32)), drain := none }).onWk fun w => { w with
    parts := w.parts.map fun p => { p with chans := p.chans.map fun c => { c with queue := c.queue.filter fun x => x != l } } }
  let s2 := ts.foldl State.exit s1
  let gone := fun (r : Rec) => r.launch == l
  let recs := (s.wk.recs ++ s.wk.quays.flatMap fun q => q.fq.map Held.rcd).filter gone
  let s3 := s2.onWk fun w => { w with
    recs := w.recs.filter fun r => !gone r,
    quays := w.quays.map fun q => { q with fq := q.fq.filter fun h => !gone h.rcd } }
  -- deferred accesses of the launch end with their records
  let s4 := s3.onMs fun m => { m with
    accs := m.accs.filter fun a => !(ts.contains a.tid && a.parts.any fun p => p.stalled),
    oplog := m.oplog.filter fun o => !(m.accs.any fun a => a.id == o.acc && ts.contains a.tid && a.parts.any fun p => p.stalled) }
  s4.killAgents (recs.filterMap fun r => r.party.agentOf) (recs.filterMap fun r => r.party.assistOf)

/-- A party that belongs to no launch, a quay core's own thread, has none to end: KILL then only drops the record (DEDUCED, log 24). -/
def State.kill (s : State) (l : Nat) (low : Nat) : State := if l = 0 then s else s.killLaunch l low

/-! ## Return from a trap (R403, R420) -/

/-- A stopped thread goes on at a place: at a header it waits for its clause start, inside a clause for a continuation
that fetches the clause again (R400). -/
def Thread.resumeAt (t : Thread) (p : Pos) : Thread :=
  { t with pos := p, mode := if p.mid then .cont true else .header, stop := none, wait := .none }

/-- The kernel-local form of TRET (R403, R420). -/
def Thread.returnLocal (t : Thread) (k : LocalSave) (skip keep : Bool) : Thread :=
  let r := if keep then t.regs else { t.regs.setVs 0 k.v with p := k.p, flags := k.flags }
  { t.resumeAt (if skip then k.skip else k.resume) with kl := none, regs := r, out := if keep then t.out else t.out.lowWritten }

/-! ## Accesses: completion -/

/-- Every part of an access has performed. -/
def Access.performed (a : Access) : Bool := a.parts.all fun p => p.done

/-- An access has performed at its own scope: every part has, and every write of it is visible there (R210, R211). -/
def State.settledAcc (s : State) (a : Access) : Bool :=
  a.performed && (a.vault || s.visible ((a.parts.map APart.wid).filter (· != 0)) (s.performedAt (s.whoOf a.tid a.core) a.scope))

/-- Whether an access's counter falls only once it has performed at its scope. -/
def Access.storeLike (a : Access) : Bool := a.ctr == .store

/-- An FST has completed: its entry is written and performed at die scope (R201). -/
def State.putEnded (s : State) (f : FOp) : Bool :=
  match f.kind with
  | .put _ _ true => s.visible f.writes [.die f.core.die]
  | _ => false

/-- An operation leaves; the counter of its thread falls, and the thread sees its writes with that (R33, R226). -/
def State.endPut (s : State) (f : FOp) : State :=
  let s1 := s.onEn fun e => { e with fops := e.fops.filter fun x => x.id != f.id }
  match s.thread f.tid with
  | none => s1
  | some t => if t.exited then s1 else (s1.down f.tid .tile).onThread f.tid fun x => { x with out := { x.out with unseenT := x.out.unseenT ++ f.writes } }

/-- Accesses that have performed at their own scope leave the machine, and counters of stores fall (R33, R210); so does an FST. -/
def State.settle (s : State) : State :=
  let gone := s.ms.accs.filter s.settledAcc
  let s1 := (gone.filter Access.storeLike).foldl (fun s a => s.down a.tid a.ctr) s
  let s2 := s1.onMs fun m => { m with accs := m.accs.filter fun a => !gone.any fun b => b.id == a.id }
  (s.en.fops.filter s.putEnded).foldl State.endPut s2

/-! ## Issue -/

/-- The threads for which the instruction in hand issues: the issue set of the quadrant in focus. -/
def State.front (s : State) : List Thread :=
  match s.focus with
  | none => []
  | some q =>
    match s.wk.sets.find? fun x => x.1 == q with
    | none => []
    | some x => x.2.filterMap s.thread

/-- The guard of an instruction for a thread (R41). -/
def Thread.guard (t : Thread) (h : Gd) : Bool := t.regs.getP h.p.val != h.neg

/-- What an instruction in hand does for a thread of the issue set. -/
inductive Fate where
  | trap (cause reason : Nat)
  | hit (c : Cause)
  | hold
  | skip
  | go
  deriving DecidableEq, Repr

/-- What an instruction asks before it executes. -/
structure Ask where
  use : Use
  /-- A privileged or granted instruction traps with 0x04 (R57). -/
  deny : Thread → Bool
  /-- A queue operand that is not listed, or listed with the wrong kind, or a bad record span (R58 items 7 and 8). -/
  bind : Thread → Option Nat
  /-- Waits at issue. -/
  ready : Thread → Bool
  /-- A thread whose guard is false waits too (R364). -/
  always : Bool

/-- The order of checks of R58, the guard and the waits at issue (R38, R41, R59). -/
def State.fate (s : State) (h : Gd) (a : Ask) (t : Thread) : Fate :=
  match t.out.hits with
  | c :: _ => .hit c
  | [] =>
    if !a.use.fits t.place.budget then .trap 0x02 0
    else if a.deny t then .trap 0x04 0
    else match a.bind t with
      | some c => .trap c 0
      | none =>
        if h.p.val != 7 && s.pending t [.p h.p.val] then .hold
        else if !t.guard h then (if a.always && !a.ready t then .hold else .skip)
        else if s.pending t a.use.refs then .hold
        else if a.use.readsBad t then .trap 0x20 2
        else if !a.ready t then .hold
        else .go

/-- Applies the fate of a thread that does not execute. -/
def State.settleFate (s : State) (t : Thread) : Fate → State
  | .trap c r => s.trapHere t c r 0 0
  | .hit c => (s.onThread t.id fun x => { x with out := { x.out with hits := x.out.hits.drop 1 } }).trapAt t c
  | .hold => (s.leave t.id).onThread t.id fun x => { x with mode := .held }
  | .skip => s.advance t.id
  | .go => s

/-- A thread waits at its word for something of long latency: the word and the rest of its clause issue as a continuation
(R321, R354). -/
def State.holdFor (s : State) (t : Thread) (w : Wait) : State :=
  (s.leave t.id).onThread t.id fun x => { x with mode := .cont false, wait := w }

/-- The threads of a set that execute. -/
def State.goers (s : State) (h : Gd) (a : Ask) : List Thread := s.front.filter fun t => s.fate h a t == .go

/-- The threads of a set whose guard is false. -/
def State.skippers (s : State) (h : Gd) (a : Ask) : List Thread := s.front.filter fun t => s.fate h a t == .skip

/-- Issues an instruction for the set in focus: threads that trap, hold or skip do so, then the body acts for the threads
that execute, in lane order. -/
def State.issue (s : State) (h : Gd) (a : Ask) (body : List Thread → State → State) : State :=
  let s1 := s.front.foldl (fun s' t => s'.settleFate t (s.fate h a t)) s
  body (s.goers h a) s1

/-- The thread of its group that writes g registers: the one of lowest lane among those that execute (R50). A thread that executes
and traps on a value of its operands is still that one, and nothing is then written (log 58). -/
def isLead (ts : List Thread) (t : Thread) : Bool :=
  match ts.find? fun x => x.place.grp == t.place.grp with
  | some x => x.id == t.id
  | none => false

/-- The destination through which a thread of an issue writes: a g register only for the lead of its group. -/
def destOf (ts : List Thread) (t : Thread) (d : Opnd) : Opnd :=
  match d with
  | .g n => if isLead ts t then .g n else .z
  | d => d

/-- No privilege, no binding, no wait. -/
def Ask.of (u : Use) : Ask := ⟨u, fun _ => false, fun _ => none, fun _ => true, false⟩

/-- A privileged instruction: it runs in privileged mode only (R56, R376). -/
def Ask.priv (u : Use) : Ask := { Ask.of u with deny := fun t => !t.place.priv }

/-- The outcome of a step that has a next state. -/
abbrev Out := Host.Outcome State Fault Refusal

end Sys2Proof.Machine
end

