-- ==== Sys2Proof/Machine/Float.lean ====
section
/-!
DEFINITION. The floating-point formats, rounding, special values and sticky flags of 04_formats (R63 to R75), on exact
integers: a finite value is a sign, a natural significand and a power of two.
-/
namespace Sys2Proof

/-- A binary format: exponent and fraction bits (R63). -/
structure Fmt where
  eb : Nat
  fb : Nat
  deriving DecidableEq, Repr

def fp64 : Fmt := ⟨11, 52⟩
def fp32 : Fmt := ⟨8, 23⟩
def fp16 : Fmt := ⟨5, 10⟩
def bf16 : Fmt := ⟨8, 7⟩
def w48 : Fmt := ⟨8, 39⟩

/-- The value of a pattern: a NaN (signalling or not), an infinity, or (−1)^neg · m · 2^e. -/
inductive FV where
  | nan (sig : Bool)
  | inf (neg : Bool)
  | fin (neg : Bool) (m : Nat) (e : Int)
  deriving DecidableEq, Repr

/-- Sticky flags: INV, DZ, OVF, UNF, INX in bits 4 to 0 (R72). -/
abbrev Flags := BitVec 5

def flagINV : Flags := 0b10000#5
def flagDZ : Flags := 0b01000#5
def flagOVF : Flags := 0b00100#5
def flagUNF : Flags := 0b00010#5
def flagINX : Flags := 0b00001#5
/-- A flag when a condition holds. -/
def flagIf (c : Bool) (f : Flags) : Flags := if c then f else 0

namespace Fmt

/-- Bias of the exponent field. -/
def bias (F : Fmt) : Nat := 2 ^ (F.eb - 1) - 1
/-- The all-ones exponent field. -/
def expMax (F : Fmt) : Nat := 2 ^ F.eb - 1
/-- Exponent of the smallest normal. -/
def emin (F : Fmt) : Int := 1 - (F.bias : Int)
/-- The sign bit's place. -/
def signBit (F : Fmt) : Nat := 2 ^ (F.eb + F.fb)
/-- The canonical quiet NaN (R65). -/
def qnan (F : Fmt) : Nat := F.expMax * 2 ^ F.fb + 2 ^ (F.fb - 1)
/-- An infinity. -/
def infinity (F : Fmt) (neg : Bool) : Nat := (if neg then F.signBit else 0) + F.expMax * 2 ^ F.fb
/-- A zero. -/
def zero (F : Fmt) (neg : Bool) : Nat := if neg then F.signBit else 0
/-- The largest finite value. -/
def largest (F : Fmt) (neg : Bool) : Nat := (if neg then F.signBit else 0) + F.expMax * 2 ^ F.fb - 1

/-- The value of a pattern (R63, R65). -/
def decode (F : Fmt) (p : Nat) : FV :=
  let neg := p / F.signBit % 2 == 1
  let ex := p / 2 ^ F.fb % 2 ^ F.eb
  let fr := p % 2 ^ F.fb
  if ex = F.expMax then
    if fr = 0 then .inf neg else .nan (fr / 2 ^ (F.fb - 1) == 0)
  else if ex = 0 then .fin neg fr (F.emin - F.fb)
  else .fin neg (fr + 2 ^ F.fb) ((ex : Int) - F.bias - F.fb)

end Fmt

/-- Whether a discarded part rounds the magnitude q up: rem of 2^s was dropped (R66). -/
def roundsUp (rm : RMode) (neg : Bool) (q rem s : Nat) : Bool :=
  match rm with
  | .rn => decide (2 * rem > 2 ^ s) || (2 * rem == 2 ^ s && q % 2 == 1)
  | .rz => false
  | .ru => !neg && rem != 0
  | .rd => neg && rem != 0

/-- m · 2^e rounded to a multiple of 2^t, in units of 2^t, and whether it was inexact. -/
def roundAt (rm : RMode) (neg : Bool) (m : Nat) (e t : Int) : Nat × Bool :=
  if t ≤ e then (m * 2 ^ (e - t).toNat, false)
  else
    let s := (t - e).toNat
    let q := m / 2 ^ s
    let rem := m % 2 ^ s
    (if roundsUp rm neg q rem s then q + 1 else q, rem != 0)

/-- The result of an overflow (R67). -/
def overflowTo (F : Fmt) (rm : RMode) (neg : Bool) : Nat :=
  match rm with
  | .rn => F.infinity neg
  | .rz => F.largest neg
  | .ru => if neg then F.largest true else F.infinity false
  | .rd => if neg then F.infinity true else F.largest false

/-- (−1)^neg · m · 2^e rounded once to a format: the pattern and the flags (R66 to R68). A zero keeps its sign. -/
def roundTo (F : Fmt) (rm : RMode) (neg : Bool) (m : Nat) (e : Int) : Nat × Flags :=
  if m = 0 then (F.zero neg, 0)
  else
    let len : Nat := Nat.log2 m + 1
    -- rounded as if the exponent range were unbounded
    let t : Int := e + len - (F.fb + 1)
    let r := roundAt rm neg m e t
    let carry := r.1 == 2 ^ (F.fb + 1)
    let ex : Int := t + F.fb + (if carry then 1 else 0)
    let sign := if neg then F.signBit else 0
    if ex < F.emin then
      -- tiny: rounded in the subnormal range
      let r := roundAt rm neg m e (F.emin - F.fb)
      (sign + r.1, flagIf r.2 (flagUNF ||| flagINX))
    else if ex > F.bias then (overflowTo F rm neg, flagOVF ||| flagINX)
    else
      let q := if carry then 2 ^ F.fb else r.1
      (sign + (ex + F.bias).toNat * 2 ^ F.fb + (q - 2 ^ F.fb), flagIf r.2 flagINX)

/-- Encodes an exact value with one rounding; a NaN becomes the canonical one. -/
def encodeFV (F : Fmt) (rm : RMode) : FV → Nat × Flags
  | .nan _ => (F.qnan, 0)
  | .inf n => (F.infinity n, 0)
  | .fin n m e => roundTo F rm n m e

namespace FV

def isNaN : FV → Bool
  | .nan _ => true
  | _ => false
def isSig : FV → Bool
  | .nan s => s
  | _ => false
def isInf : FV → Bool
  | .inf _ => true
  | _ => false
def isZero : FV → Bool
  | .fin _ 0 _ => true
  | _ => false
def isNeg : FV → Bool
  | .inf n => n
  | .fin n _ _ => n
  | .nan _ => false
/-- The sign inverted; a NaN stays a NaN. -/
def negate : FV → FV
  | .nan s => .nan s
  | .inf n => .inf (!n)
  | .fin n m e => .fin (!n) m e

/-- A finite value as an integer number of 2^e units. -/
def atExp (v : FV) (e : Int) : Int :=
  match v with
  | .fin n m e' => (if n then -1 else 1) * ((m * 2 ^ (e' - e).toNat : Nat) : Int)
  | _ => 0
/-- The exponent of a finite value. -/
def exp : FV → Int
  | .fin _ _ e => e
  | _ => 0

/-- Order of two values that are no NaN: a < b, with −0 equal to +0. -/
def lt (a b : FV) : Bool :=
  match a, b with
  | .nan _, _ => false
  | _, .nan _ => false
  | .inf n, .inf n' => n && !n'
  | .inf n, .fin _ _ _ => n
  | .fin _ _ _, .inf n => !n
  | .fin _ _ e, .fin _ _ e' => decide (a.atExp (min e e') < b.atExp (min e e'))
/-- Equality of two values that are no NaN, with −0 equal to +0. -/
def eqv (a b : FV) : Bool := !a.isNaN && !b.isNaN && !a.lt b && !b.lt a
/-- The exact product of two finite values. -/
def mulFin (a b : FV) : FV :=
  match a, b with
  | .fin n m e, .fin n' m' e' => .fin (n != n') (m * m') (e + e')
  | _, _ => .nan false
/-- An exact integer times 2^e, with the sign of an exact zero given. -/
def ofInt (zneg : Bool) (x : Int) (e : Int) : FV := .fin (if x = 0 then zneg else decide (x < 0)) x.natAbs e
/-- The exact sum of two finite values, with R69's sign of zero under a mode. -/
def addFin (rm : RMode) (a b : FV) : FV :=
  let e := min a.exp b.exp
  let x := a.atExp e + b.atExp e
  .ofInt (if a.isZero && b.isZero && a.isNeg == b.isNeg then a.isNeg else rm == .rd) x e

end FV

/-- The flag of the signalling NaNs among operands. -/
def sigFlag (l : List FV) : Flags := flagIf (l.any FV.isSig) flagINV

/-- a · b + c, rounded once (R97). -/
def fmaF (F : Fmt) (rm : RMode) (a b c : FV) : Nat × Flags :=
  let sf := sigFlag [a, b, c]
  if (a.isZero && b.isInf) || (a.isInf && b.isZero) then (F.qnan, flagINV)
  else if a.isNaN || b.isNaN || c.isNaN then (F.qnan, sf)
  else if a.isInf || b.isInf then
    let n := a.isNeg != b.isNeg
    if c.isInf && c.isNeg != n then (F.qnan, flagINV) else (F.infinity n, 0)
  else if c.isInf then (F.infinity c.isNeg, 0)
  else encodeFV F rm ((a.mulFin b).addFin rm c)

/-- a + b, rounded once (R97). -/
def addF (F : Fmt) (rm : RMode) (a b : FV) : Nat × Flags := fmaF F rm a (.fin false 1 0) b

/-- a · b, rounded once (R97). -/
def mulF (F : Fmt) (rm : RMode) (a b : FV) : Nat × Flags :=
  if (a.isZero && b.isInf) || (a.isInf && b.isZero) then (F.qnan, flagINV)
  else if a.isNaN || b.isNaN then (F.qnan, sigFlag [a, b])
  else if a.isInf || b.isInf then (F.infinity (a.isNeg != b.isNeg), 0)
  else encodeFV F rm (a.mulFin b)

/-- The quotient m / m' of naturals with p or more significant bits, and a last bit that is 1 when it is inexact. -/
def quotSticky (p m m' : Nat) : Nat × Int :=
  let k := p + 3 + (Nat.log2 m' + 1)
  let n := m * 2 ^ k
  (2 * (n / m') + (if n % m' = 0 then 0 else 1), -(k : Int) - 1)

/-- a / b, rounded once (R98). -/
def divF (F : Fmt) (rm : RMode) (a b : FV) : Nat × Flags :=
  let n := a.isNeg != b.isNeg
  if a.isNaN || b.isNaN then (F.qnan, sigFlag [a, b])
  else if (a.isInf && b.isInf) || (a.isZero && b.isZero) then (F.qnan, flagINV)
  else if a.isInf then (F.infinity n, 0)
  else if b.isInf then (F.zero n, 0)
  else if b.isZero then (F.infinity n, flagDZ)
  else
    match a, b with
    | .fin _ m e, .fin _ m' e' =>
      let q := quotSticky (F.fb + 1) m m'
      roundTo F rm n q.1 (q.2 + e - e')
    | _, _ => (F.qnan, 0)

/-- The integer square root, bit by bit from 2^k down. -/
def isqrtFrom : Nat → Nat → Nat → Nat
  | 0, _, r => r
  | k + 1, n, r => if (r + 2 ^ k) * (r + 2 ^ k) ≤ n then isqrtFrom k n (r + 2 ^ k) else isqrtFrom k n r

/-- Floor of the square root. -/
def isqrt (n : Nat) : Nat := isqrtFrom (Nat.log2 n / 2 + 1) n 0

/-- The square root of m · 2^e with p or more bits, and a last bit that is 1 when it is inexact. -/
def sqrtSticky (p m : Nat) (e : Int) : Nat × Int :=
  let m1 := if e % 2 = 0 then m else 2 * m
  let e1 := if e % 2 = 0 then e else e - 1
  let n := m1 * 2 ^ (2 * (p + 2))
  let r := isqrt n
  (2 * r + (if r * r = n then 0 else 1), e1 / 2 - (p + 2 : Nat) - 1)

/-- The square root, rounded once (R98). -/
def sqrtF (F : Fmt) (rm : RMode) (a : FV) : Nat × Flags :=
  match a with
  | .nan s => (F.qnan, flagIf s flagINV)
  | .inf true => (F.qnan, flagINV)
  | .inf false => (F.infinity false, 0)
  | .fin n 0 _ => (F.zero n, 0)
  | .fin true _ _ => (F.qnan, flagINV)
  | .fin false m e =>
    let r := sqrtSticky (F.fb + 1) m e
    roundTo F rm false r.1 r.2

/-- The pattern of a value that a format holds exactly, sign of zero included. -/
def repackF (F : Fmt) (v : FV) : Nat := (encodeFV F .rn v).1

/-- minimumNumber or maximumNumber (R71). -/
def minMaxF (F : Fmt) (isMax : Bool) (a b : FV) : Nat × Flags :=
  let sf := sigFlag [a, b]
  if a.isNaN && b.isNaN then (F.qnan, sf)
  else if a.isNaN then (repackF F b, sf)
  else if b.isNaN then (repackF F a, sf)
  else
    -- −0 orders below +0
    let less := a.lt b || (a.eqv b && a.isNeg && !b.isNeg)
    (repackF F (if less != isMax then a else b), 0)

/-- Rounds to an integral value (R100): sign kept, INX only under X, where R73 sets it for every rounded result (log 79); in a mode of its
own, where R66 rounds to nearest (log 80). -/
def rndIntF (F : Fmt) (rm : RMode) (x : Bool) (a : FV) : Nat × Flags :=
  match a with
  | .nan s => (F.qnan, flagIf s flagINV)
  | .inf n => (F.infinity n, 0)
  | .fin n m e =>
    let r := roundAt rm n m e (max e 0)
    let v := if e < 0 then FV.fin n r.1 0 else a
    (repackF F v, flagIf (x && r.2) flagINX)

/-- A · 2^k rounded (R101), in a mode of its own, where R66 rounds to nearest (log 80). -/
def scaleF (F : Fmt) (rm : RMode) (a : FV) (k : Int) : Nat × Flags :=
  match a with
  | .nan s => (F.qnan, flagIf s flagINV)
  | .inf n => (F.infinity n, 0)
  | .fin n m e => roundTo F rm n m (e + clampInt k (-8192) 8192)

/-- Class mask of R103. -/
def classF (F : Fmt) (p : Nat) : Nat :=
  let ex := p / 2 ^ F.fb % 2 ^ F.eb
  match F.decode p with
  | .nan true => 1
  | .nan false => 2
  | .inf true => 4
  | .inf false => 2 ^ 9
  | .fin true 0 _ => 2 ^ 5
  | .fin false 0 _ => 2 ^ 6
  | .fin true _ _ => if ex = 0 then 2 ^ 4 else 2 ^ 3
  | .fin false _ _ => if ex = 0 then 2 ^ 7 else 2 ^ 8

/-- An ordered or unordered comparison, and whether it signals a NaN (R92, R93): INV of an ordered comparison of quiet NaNs is no row of
R73's table (log 79). -/
def compareF (c : FCmp) (a b : FV) : Bool × Flags :=
  let un := a.isNaN || b.isNaN
  match c with
  | .ord => (!un, sigFlag [a, b])
  | .uno => (un, sigFlag [a, b])
  | .cmp c ut =>
    let r := match c with
      | .eq => a.eqv b
      | .ne => !a.eqv b
      | .lt => a.lt b
      | .le => a.lt b || a.eqv b
      | .gt => b.lt a
      | .ge => b.lt a || a.eqv b
    let ordered := c == .eq || c == .ne
    (if un then ut else r, sigFlag [a, b] ||| flagIf (un && !ordered && !ut) flagINV)

/-- A float to an integer in [lo, hi] (R75): saturates, NaN gives 0. -/
def toIntF (rm : RMode) (lo hi : Int) (a : FV) : Int × Flags :=
  match a with
  | .nan _ => (0, flagINV)
  | .inf n => (if n then lo else hi, flagINV)
  | .fin n m e =>
    -- beyond 2^80 every format is exceeded
    let r := if e > 80 ∧ m ≠ 0 then (2 ^ 80, false) else roundAt rm n m (min e 80) (max (min e 80) 0)
    let q : Nat := if e > 0 ∧ e ≤ 80 then m * 2 ^ e.toNat else r.1
    let x : Int := if n then -(q : Int) else q
    if x < lo then (lo, flagINV) else if x > hi then (hi, flagINV) else (x, flagIf r.2 flagINX)

/-- A float to another float format (R75). -/
def cvtFF (F : Fmt) (rm : RMode) (a : FV) : Nat × Flags :=
  match a with
  | .nan s => (F.qnan, flagIf s flagINV)
  | _ => encodeFV F rm a

/-- An integer to a float (R75). -/
def ofIntF (F : Fmt) (rm : RMode) (x : Int) : Nat × Flags := roundTo F rm (decide (x < 0)) x.natAbs 0

/-! ## DX elements (R76, R77) -/

/-- Weight of one unit of M under exponent E: 2^(E − sh). -/
def dxShift (dx4 : Bool) : Int := if dx4 then 128 else 132

/-- The value of a DX element code under E0 and E1; a reserved code, or an exponent of 0xFF, is a NaN. -/
def dxDecode (dx4 : Bool) (e0 e1 code : Nat) : FV :=
  let w := if dx4 then 4 else 8
  let sel := code / 2 ^ (w - 1) % 2
  let s := code / 2 ^ (w - 2) % 2
  let m := code % 2 ^ (w - 2)
  if e0 = 255 ∨ e1 = 255 ∨ (s = 1 ∧ m = 0) then .nan true
  else .fin (s == 1) m (((if sel = 1 then e1 else e0 : Nat) : Int) - dxShift dx4)

/-- The value RoundInt(|x| · 2^k), ties to even. -/
def roundIntPow (m : Nat) (e k : Int) : Nat := (roundAt .rn false m (e + k) 0).1

/-- The significand and exponent of a finite magnitude. -/
def FV.mag : FV → Nat × Int
  | .fin _ m e => (m, e)
  | _ => (0, 0)

/-- The smallest exponent e from `e` on at which a magnitude fits (R78). -/
def dxFit (sh : Int) (mmax m : Nat) (x : Int) : Nat → Nat → Nat
  | 0, e => e
  | n + 1, e => if e < 254 ∧ roundIntPow m x (sh - e) > mmax then dxFit sh mmax m x n (e + 1) else e

/-- Encodes a block (R78): E0, E1, and for each element its code and flags. -/
def dxEncode (dx4 : Bool) (dist : Nat) (xs : List FV) : Nat × Nat × List (Nat × Flags) :=
  let w := if dx4 then 4 else 8
  let mmax := if dx4 then 3 else 63
  let sh := dxShift dx4
  if xs.any (fun x => x.isNaN || x.isInf) then
    (255, 255, xs.map fun x => (0, flagIf (x.isNaN || x.isInf) flagINV))
  else
    let big := xs.foldl (fun b x => if b.lt (FV.fin false x.mag.1 x.mag.2) then FV.fin false x.mag.1 x.mag.2 else b) (.fin false 0 0)
    let e1 := dxFit sh mmax big.mag.1 big.mag.2 255 0
    let e0 := e1 - dist
    (e0, e1, xs.map fun x =>
      let m := x.mag.1
      let e := x.mag.2
      let q0 := roundIntPow m e (sh - e0)
      let q1 := roundIntPow m e (sh - e1)
      let useHi := decide (q0 > mmax)
      let sat := useHi && decide (q1 > mmax)
      let q := if useHi then (if sat then mmax else q1) else q0
      let es := if useHi && q != 0 then e1 else e0
      let code := if q = 0 then 0 else (if useHi then 2 ^ (w - 1) else 0) + (if x.isNeg then 2 ^ (w - 2) else 0) + q
      let exact := (FV.fin false q ((es : Int) - sh)).eqv (.fin false m e)
      (code, flagIf sat flagOVF ||| flagIf (q == 0 && m != 0) flagUNF ||| flagIf (!exact) flagINX))

end Sys2Proof
end

