-- ==== Sys2Proof/Machine/Surface.lean ====
section
/-!
DEFINITION. FP32 arithmetic on patterns as the engines use it (rounded to nearest, no flags), surface formats (R179), and
the filter of R186 and R251.
-/
namespace Sys2Proof

/-! ## FP32 patterns, rounded to nearest -/

def fDec (p : Nat) : FV := fp32.decode p
def fAdd (a b : Nat) : Nat := (addF fp32 .rn (fDec a) (fDec b)).1
def fNeg (a : Nat) : Nat := (cvtFF fp32 .rn (fDec a).negate).1
def fSub (a b : Nat) : Nat := (addF fp32 .rn (fDec a) (fDec b).negate).1
def fMul (a b : Nat) : Nat := (mulF fp32 .rn (fDec a) (fDec b)).1
def fFma (a b c : Nat) : Nat := (fmaF fp32 .rn (fDec a) (fDec b) (fDec c)).1
def fDiv (a b : Nat) : Nat := (divF fp32 .rn (fDec a) (fDec b)).1
def fSqrt (a : Nat) : Nat := (sqrtF fp32 .rn (fDec a)).1
/-- An integer in FP32. -/
def fInt (x : Int) : Nat := (ofIntF fp32 .rn x).1
/-- The canonical NaN. -/
def fNaN : Nat := 0x7FC00000
/-- A finite pattern. -/
def fFinite (p : Nat) : Bool := !(fDec p).isNaN && !(fDec p).isInf
/-- Order, false where an operand is a NaN. -/
def fLt (a b : Nat) : Bool := (fDec a).lt (fDec b)
def fLe (a b : Nat) : Bool := (fDec a).lt (fDec b) || (fDec a).eqv (fDec b)
/-- The largest integer not above a finite value. -/
def fFloor (p : Nat) : Int :=
  match fDec p with
  | .fin n m e =>
    let x : Int := if n then -(m : Int) else m
    if 0 ≤ e then x * 2 ^ e.toNat else x / 2 ^ (-e).toNat
  | _ => 0

/-- Lerp (R186): FMA(t, RN(q − p), p). -/
def lerp (p q t : Nat) : Nat := fFma t (fSub q p) p

/-! ## Formats of surfaces (R179) -/

/-- Texel bytes of a format. -/
def surfBytes (fmt : Nat) : Nat :=
  match fmt with
  | 0 => 4 | 1 => 8 | 2 => 16 | 3 => 8 | 4 => 4 | _ => 0

/-- Channels of a format. -/
def surfChans (fmt : Nat) : Nat :=
  match fmt with
  | 0 => 1 | 1 => 2 | 2 => 4 | 3 => 4 | 4 => 4 | _ => 0

/-- Channel c of a texel. -/
def texelChan (fmt : Nat) (bs : List Byte) (c : Nat) : Nat :=
  match fmt with
  | 3 => (cvtFF fp32 .rn (fp16.decode (ofBytes ((bs.drop (2 * c)).take 2)))).1
  | 4 => fDiv (fInt (ofBytes ((bs.drop c).take 1))) (fInt 255)
  | _ => ofBytes ((bs.drop (4 * c)).take 4)

/-- The channels of a texel. -/
def texelOf (fmt : Nat) (bs : List Byte) : List Nat := (List.range (surfChans fmt)).map (texelChan fmt bs)

/-! ## Filtering -/

/-- Where a sample falls: the integer corner and, under a filter, the two weights. -/
structure Corner where
  i : Int
  j : Int
  a : Nat
  b : Nat
  deriving DecidableEq, Repr

/-- The corner of a finite position: its own texel, or the corner of the filter (R186). -/
def cornerOf (lin : Bool) (x y : Nat) : Corner :=
  if lin then
    let fx := fSub x 0x3F000000
    let fy := fSub y 0x3F000000
    ⟨fFloor fx, fFloor fy, fSub fx (fInt (fFloor fx)), fSub fy (fInt (fFloor fy))⟩
  else ⟨fFloor x, fFloor y, 0, 0⟩

/-- The texels of a corner, row by row: one, or four under a filter. -/
def cornerTexels (lin : Bool) (c : Corner) : List (Int × Int) :=
  if lin then [(c.i, c.j), (c.i + 1, c.j), (c.i, c.j + 1), (c.i + 1, c.j + 1)] else [(c.i, c.j)]

/-- The channels of a sample from those of its texels, in the order of `cornerTexels`. -/
def sampleOf (lin : Bool) (c : Corner) (chans : Nat) (tx : List (List Nat)) : List Nat :=
  let t := fun (k ch : Nat) => (tx.getD k []).getD ch 0
  (List.range chans).map fun ch =>
    if lin then lerp (lerp (t 0 ch) (t 1 ch) c.a) (lerp (t 2 ch) (t 3 ch) c.a) c.b else t 0 ch

/-! ## Field descriptors (R179) -/

def fdEbase (d : Nat) : Nat := bitsOf d 63 0
def fdCell (d : Nat) : Nat := bitsOf d 98 96
def fdOned (d : Nat) : Bool := fdCell d == 7
def fdGw (d : Nat) : Nat := bitsOf d 79 64
def fdGh (d : Nat) : Nat := bitsOf d 95 80
def fdLen (d : Nat) : Nat := bitsOf d 94 64
def fdParent (d : Nat) : Nat := bitsOf d 109 104
def fdHasp (d : Nat) : Bool := bitsOf d 110 110 == 1
def fdFmt (d : Nat) : Nat := bitsOf d 115 112
def fdAncBase (d : Nat) : Nat := bitsOf d 191 128
def fdAncW (d : Nat) : Nat := bitsOf d 207 192
def fdAncH (d : Nat) : Nat := bitsOf d 223 208
def fdAncLen (d : Nat) : Nat := bitsOf d 222 192
def fdPitch (d : Nat) : Nat := bitsOf d 255 224
/-- Pixels of a cell. -/
def fdPix (d : Nat) : Nat := 2 ^ fdCell d
/-- Entries of a field. -/
def fdCells (d : Nat) : Nat := if fdOned d then fdLen d else fdGw d * fdGh d

end Sys2Proof
end

