-- ==== Sys2Proof/Machine/Order.lean ====
section
/-!
DEFINITION. The conditions under which an access may perform (R215, R217, R220, R242, R243, R273), with the bytes that an
access touches: those of its parts, and the descriptor and texels of a sample (R250, R251).
-/
namespace Sys2Proof.Machine

/-! ## Kinds of access -/

/-- An access that is no step of the machine: a steered cache line, a prefetch, a record in flight (R256, R257, R368). -/
def Access.silent (a : Access) : Bool :=
  match a.kind with
  | .cache _ => true
  | .pref => true
  | .record _ _ _ => true
  | _ => false

/-- An access reads; an access writes. -/
def Access.reads (a : Access) : Bool :=
  match a.kind with
  | .load _ _ _ => true | .ldt _ _ _ => true | .lds _ _ _ => true | .smp _ _ _ _ _ _ _ => true | .atomic _ _ _ _ _ => true
  | .copyBlock _ => true
  | _ => false
def Access.writes (a : Access) : Bool :=
  match a.kind with
  | .store _ => true | .stt _ => true | .tagop _ => true | .push _ _ _ => true | .atomic _ _ _ _ _ => true
  | _ => false

/-- What permission an access needs (R246). -/
def Access.need (a : Access) : Acc :=
  match a.kind with
  | .store _ => .write | .atomic _ _ _ _ _ => .write | .push _ _ _ => .write
  | _ => .read

/-- Accesses of the same thread issued earlier; one withdrawn at a switch keeps its place (R401). -/
def State.earlier (s : State) (a : Access) : List Access := s.ms.accs.filter fun b => b.tid == a.tid && decide (b.id < a.id)

/-- The address space of an access's thread. -/
def State.xlOf (s : State) (a : Access) : Option Xl := (s.thread a.tid).map Thread.xl

/-! ## The sampler view and descriptors (R210, R250, R452) -/

/-- The sampler view of a core (R210). -/
def State.samplerView (s : State) (c : CoreId) (x : Nat) : Nat :=
  ((s.ms.smp.find? fun e => e.1 == c && e.2.1 == x).map fun e => e.2.2).getD 0

/-- What a sampler read of a byte finds: the view, or what the fill of its line would leave there (R452). -/
def State.samplerLatest (s : State) (w : Who) (x : Nat) : Nat :=
  if s.ms.smpLines.contains (w.core, x / 128) then s.samplerView w.core x
  else Nat.max (s.samplerView w.core x) (s.latest (w.upTo .die) x)

/-- A sampler read of n bytes. -/
def State.samplerRead (s : State) (w : Who) (a n : Nat) : ReadRes := s.readBy (s.samplerLatest w) a n

/-- A surface: base, pitch, width, height, format. -/
structure Surf where
  base : Nat
  pitch : Nat
  w : Nat
  h : Nat
  fmt : Nat
  deriving DecidableEq, Repr

/-- A sampler descriptor, or the cause of its fault (R250). -/
def smpDesc (v : Nat) : Except Nat Surf :=
  let f : Surf := ⟨bitsOf v 63 0, bitsOf v 95 64, bitsOf v 111 96, bitsOf v 127 112, bitsOf v 131 128⟩
  if bitsOf v 255 132 != 0 then .error 0x03
  else if decide (4 < f.fmt) || decide (f.w < 1) || decide (16384 < f.w) || decide (f.h < 1) || decide (16384 < f.h) ||
      f.base % 16 != 0 || f.pitch % 16 != 0 || decide (f.pitch < f.w * surfBytes f.fmt) then .error 0x02
  else .ok f

/-- The physical address of a descriptor that can be read now. -/
def State.descAt (s : State) (x : Xl) (a : Nat) : Option Nat :=
  match s.translate x .read a with
  | .error _ => none
  | .ok pa => if s.lost pa != 0 || s.linkHeld pa then none else some pa

/-- The descriptor as the sampler path reads it; none where it cannot be read, or is poisoned. -/
def State.peekDesc (s : State) (x : Xl) (w : Who) (a : Nat) : Option Nat :=
  match s.descAt x a with
  | none => none
  | some pa => let r := s.samplerRead w pa 32; if r.poison then none else some r.val

/-- A texel index after the wrap mode (R251). -/
def wrapIdx (m : WrapMode) (i : Int) (n : Nat) : Option Nat :=
  match m with
  | .clamp => some (clampInt i 0 (n - 1)).toNat
  | .repeatW => some (i % (n : Int)).toNat
  | .border => if 0 ≤ i ∧ i < n then some i.toNat else none

/-- What an SMP samples: position, and the addresses of its texels, none outside a bordered surface. -/
def smpTexels (f : Surf) (c : Corner) (lin : Bool) (m : WrapMode) : List (Option Nat) :=
  (cornerTexels lin c).map fun ij =>
    match wrapIdx m ij.1 f.w, wrapIdx m ij.2 f.h with
    | some i, some j => some ((f.base + j * f.pitch + i * surfBytes f.fmt) % 2 ^ 64)
    | _, _ => none

/-- A coordinate of an SMP (R251). -/
def smpCoord (norm : Bool) (c : Word) (n : Nat) : Nat := if norm then fMul c.toNat (fInt n) else c.toNat

/-- The addresses and sizes of the texels that an SMP would read, with its descriptor as it stands. -/
def State.texelSpans (s : State) (a : Access) (x : Xl) : List (Nat × Nat) :=
  match a.kind with
  | .smp _ u v lin wrap norm desc =>
    match (s.peekDesc x (s.whoOf a.tid a.core) desc).map smpDesc with
    | some (.ok f) =>
      let px := smpCoord norm u f.w
      let py := smpCoord norm v f.h
      if fFinite px && fFinite py then
        ((smpTexels f (cornerOf lin px py) lin wrap).filterMap id).map fun t => (t, surfBytes f.fmt)
      else []
    | _ => []
  | _ => []

/-! ## Bytes that accesses touch -/

/-- A run of bytes that an access touches: its address as issued, its place in memory where that is known, its length. -/
structure Touch where
  ea : Nat
  pa : Option Nat
  len : Nat

/-- The bytes of the parts that a test selects, and the texels of a sample that has not performed. -/
def State.touches (s : State) (a : Access) (f : APart → Bool) : List Touch :=
  let x := s.xlOf a
  let at_ := fun (ea : Nat) => x.bind fun y => (s.translate y a.need ea).toOption
  (a.parts.filter f).map (fun p => ⟨p.ea, if a.vault then none else if p.pa.isSome then p.pa else at_ p.ea, p.len⟩) ++
    match x with
    | some y => (s.texelSpans a y).map fun t => ⟨t.1, at_ t.1, t.2⟩
    | none => []

/-- Two ranges share a byte. -/
def rangesMeet (a n b m : Nat) : Bool := decide (a < b + m) && decide (b < a + n)

/-- Two runs share a byte: of memory by where they lie, of the vault, or where that is not known, by address. -/
def Touch.meets (t u : Touch) : Bool :=
  match t.pa, u.pa with
  | some x, some y => rangesMeet x t.len y u.len
  | _, _ => rangesMeet t.ea t.len u.ea u.len

/-- An earlier access, still to perform, touches a byte of an access (condition 2 of R215). -/
def State.meet (s : State) (a b : Access) : Bool :=
  !b.silent && !b.performed && a.vault == b.vault &&
    (s.touches a fun _ => true).any fun t => (s.touches b fun p => !p.done).any t.meets

/-! ## Conditions 1 to 5 of R215, and R217 -/

/-- An access stands in a stream of a join's set. -/
def inJoin (m : BitVec 16) (a : Access) : Bool := m.getLsbD a.stream

/-- The observed set of a thread. -/
def State.obsOf (s : State) (t : Nat) : List Nat :=
  match s.thread t with
  | some x => x.obs
  | none => []

/-- A write of a thread's accesses numbered below a bound stands in its core's gather buffer (R273). -/
def State.gathering (s : State) (t bound : Nat) : Bool :=
  s.co.gather.any fun g => s.ms.writes.any fun w => w.id == g.wid && w.tid == t && w.acc != 0 && decide (w.acc < bound)

/-- R217: a release may perform; beyond core scope it waits until its thread's earlier writes have left the gather buffer
for owned blocks or their homes (R273). -/
def State.releaseOk (s : State) (a : Access) : Bool :=
  ((s.earlier a).all fun b => b.silent || b.performed) && (a.scope == .core || !s.gathering a.tid a.id) &&
    s.visible ((s.obsOf a.tid).filter fun w => !(s.ms.writes.any fun r => r.id == w && r.acc == a.id))
      (s.performedAt (s.whoOf a.tid a.core) a.scope)

/-- Every join before an access lets it perform (R220). -/
def State.joinsOk (s : State) (a : Access) : Bool :=
  match s.thread a.tid with
  | none => true
  | some t => t.out.joins.all fun j => !(decide (j.2 ≤ a.id) && inJoin j.1 a) ||
      !(s.ms.accs.any fun b => b.tid == a.tid && decide (b.id < j.2) && inJoin j.1 b && !b.silent)

/-- Conditions 1 to 5 of R215. -/
def State.ordered (s : State) (a : Access) : Bool :=
  !a.withdrawn &&
    (a.stream == 15 || !(s.earlier a).any fun b => b.stream == a.stream) &&
    !((s.earlier a).any fun b => s.meet a b) &&
    !((s.earlier a).any fun b => b.acq && !b.silent && !b.performed) &&
    (!a.rel || s.releaseOk a) && s.joinsOk a

/-! ## Tags (R239 to R243) -/

/-- The vault words of an access. -/
def Access.words (a : Access) : List Nat := a.parts.flatMap fun p => wordsOf p.ea p.len

/-- The tags that an access waits for stand as it needs them (condition 7 of R215). -/
def State.tagsOk (s : State) (a : Access) : Bool :=
  match a.kind with
  | .ldt _ _ _ => a.words.all s.full
  | .stt _ => a.words.all fun w => !s.full w
  | _ => true

/-- How a tagged access takes its turn at its words. -/
inductive TagKind where
  | plain | take | fill | other
  deriving DecidableEq, Repr

def Access.tagKind (a : Access) : TagKind :=
  match a.kind with
  | .ldt _ _ tk => if tk then .take else .plain
  | .stt _ => .fill
  | _ => .other

/-- One access reached its vault words before another: an earlier step, or in one step the one issued first (R243, log 59). -/
def State.before (s : State) (b a : Access) : Bool :=
  let k := fun (x : Access) => x.arrived.getD (s.tick + 1)
  decide (k b < k a) || (k b == k a && decide (b.id < a.id))

/-- R243: no access that could perform now stands before this one at a word of it: one of its own kind that came first, or a
plain LDT before a LDT.TAKE. -/
def State.turn (s : State) (a : Access) : Bool :=
  a.tagKind == .other || a.tagKind == .plain ||
    !(s.ms.accs.any fun b => b.id != a.id && !b.performed && b.words.any (fun w => a.words.contains w) &&
        ((b.tagKind == a.tagKind && s.before b a) || (b.tagKind == .plain && a.tagKind == .take)) &&
        s.ordered b && s.tagsOk b)

/-- Tagged accesses that could go to their vault words have reached them by the end of a step (R243, log 59). -/
def State.arrivals (s : State) : State :=
  if s.ms.accs.any fun a => a.tagKind != .other && a.arrived.isNone && s.ordered a then
    s.onMs fun m => { m with accs := m.accs.map fun a =>
      if a.tagKind != .other && a.arrived.isNone && s.ordered a then { a with arrived := some s.tick } else a }
  else s

end Sys2Proof.Machine
end

