-- ==== Sys2Proof/Machine/Fabric.lean ====
section
/-!
DEFINITION. The hardware behind the order of the abstract machine (R260 to R271): home slices and their states, the lines of
L2 (R19, R388), L1 blocks and gather buffers, sequence numbers, signatures, the directory across dies, and the fabric's
messages. Its events are in Coherence; what an access needs of it is here.
-/
namespace Sys2Proof.Machine

/-! ## Places (R261, R264, R270) -/

/-- The home slice of a block (R261). -/
def sliceOf (blk : Nat) : Nat := bitsOf (64 * blk) 11 7 ^^^ bitsOf (64 * blk) 19 15

/-- The lane of messages about a block (R270). -/
def laneOf (blk : Nat) : Nat := bitsOf blk 3 0 ^^^ bitsOf blk 7 4

/-- The two positions of a block in a signature (R264). -/
def pairOf (blk : Nat) : Nat × Nat :=
  let c := fun (n : Nat) => bitsOf blk (9 * n + 8) (9 * n)
  (c 0 ^^^ c 1 ^^^ c 2 ^^^ c 3, c 0 ^^^ rotLeft 9 (c 1) 1 ^^^ rotLeft 9 (c 2) 2 ^^^ rotLeft 9 (c 3) 3)

/-- A signature with the pair of a block set. -/
def setPair (x : BitVec 512) (blk : Nat) : BitVec 512 :=
  let p := pairOf blk
  x ||| BitVec.ofNat 512 (2 ^ p.1) ||| BitVec.ofNat 512 (2 ^ p.2)

/-- A signature holds both positions of a block. -/
def hasPair (x : BitVec 512) (blk : Nat) : Bool := x.getLsbD (pairOf blk).1 && x.getLsbD (pairOf blk).2

/-- A core of a die, of the mesh or of the quay, that works. -/
def State.working (s : State) (c : CoreId) : Bool :=
  s.md.dies.getLsbD c.die && !s.md.failed.getLsbD c.die && decide (c.die < 4) && decide (c.core < 72)

/-- A block of the memory of the module whose home die works. -/
def State.homed (s : State) (blk : Nat) : Bool := s.inHbm (64 * blk) && s.lost (64 * blk) == 0

/-- The home die of a block. -/
def State.blkDie (s : State) (blk : Nat) : Nat := s.homeDie (64 * blk)

/-! ## Lookups and updates -/

/-- A block at the home slice of a die; one that is not listed is in state I, number 0, and the home die owns it. -/
def State.home (s : State) (die blk : Nat) : HomeBlk :=
  (s.co.homes.find? fun h => h.die == die && h.blk == blk).getD ⟨die, blk, .i, 0, none, [], [], if s.blkDie blk = die then .owned else .none, 0⟩

def State.putHome (s : State) (h : HomeBlk) : State :=
  s.onCo fun c => { c with homes := (c.homes.filter fun x => !(x.die == h.die && x.blk == h.blk)) ++ [h] }

/-- The signature of a core. -/
def State.sigOf (s : State) (c : CoreId) : Sig := (s.co.sigs.find? fun x => x.core == c).getD ⟨c, 0, 0⟩

def State.putSig (s : State) (x : Sig) : State := s.onCo fun c => { c with sigs := (c.sigs.filter fun y => y.core != x.core) ++ [x] }

/-- A slice's mirror of the signature of a core (R264). -/
def State.mirrorOf (s : State) (c : CoreId) (slice : Nat) : Mirror :=
  (s.co.mirrors.find? fun x => x.core == c && x.slice == slice).getD ⟨c, slice, 0, []⟩

def State.putMirror (s : State) (x : Mirror) : State :=
  s.onCo fun c => { c with mirrors := (c.mirrors.filter fun y => !(y.core == x.core && y.slice == x.slice)) ++ [x] }

/-- The block of an L1. -/
def State.l1Of (s : State) (c : CoreId) (blk : Nat) : Option L1Blk := s.co.l1.find? fun b => b.core == c && b.blk == blk

def State.dropL1 (s : State) (c : CoreId) (blk : Nat) : State :=
  s.onCo fun x => { x with l1 := x.l1.filter fun b => !(b.core == c && b.blk == blk) }

def State.onL1 (s : State) (c : CoreId) (blk : Nat) (f : L1Blk → L1Blk) : State :=
  s.onCo fun x => { x with l1 := x.l1.map fun b => if b.core == c && b.blk == blk then f b else b }

/-- A dirty block (R262): M, or O. -/
def L1Blk.dirty (b : L1Blk) : Bool := b.st == .m || b.st == .o

/-- A block that takes its core's writes: E or M, owned by its die (R260, R267). -/
def L1Blk.takesWrites (b : L1Blk) : Bool := b.wr && (b.st == .e || b.st == .m)

/-- The directory entry of a block (R267). -/
def State.dirOf (s : State) (blk : Nat) : DirEntry := (s.co.dirs.find? fun d => d.blk == blk).getD ⟨blk, .uncached, 0, 0, [], []⟩

def State.putDir (s : State) (d : DirEntry) : State := s.onCo fun c => { c with dirs := (c.dirs.filter fun x => x.blk != d.blk) ++ [d] }

/-- Sends a message. -/
def State.send (s : State) (m : Msg) : State := s.onCo fun c => { c with msgs := c.msgs ++ [m] }

/-- A message is in flight. -/
def State.inFlight (s : State) (f : Msg → Bool) : Bool := s.co.msgs.any f

/-! ## Routes (R270, R271) -/

/-- A place that sends and receives: a core, a slice of a die, the directory of a die, or a party beyond the module. -/
def coreNode (c : CoreId) : Nat × Nat × Nat := (0, c.die, c.core)
def sliceNode (die blk : Nat) : Nat × Nat × Nat := (1, die, sliceOf blk)
def State.dirNode (s : State) (blk : Nat) : Nat × Nat × Nat := (2, s.blkDie blk, 0)
def partyNode (who blk : Nat) : Nat × Nat × Nat := if who < 4 then sliceNode who blk else (3, who, 0)

/-- Class (0 request, 1 control, 2 reply), source, destination and lane of a message. Messages that agree in them keep their
order. A rebuilt signature is about no block, and takes lane 0 (log 60). -/
def State.route (s : State) : Msg → Nat × (Nat × Nat × Nat) × (Nat × Nat × Nat) × Nat
  | .read d b c _ => (0, coreNode c, sliceNode d b, laneOf b)
  | .own d b c _ => (0, coreNode c, sliceNode d b, laneOf b)
  | .wback d b c => (0, coreNode c, sliceNode d b, laneOf b)
  | .drop d b c _ => (0, coreNode c, sliceNode d b, laneOf b)
  | .dreq b w _ => (0, partyNode w b, s.dirNode b, laneOf b)
  | .dwback b d => (0, sliceNode d b, s.dirNode b, laneOf b)
  | .probe d b c _ _ => (1, sliceNode d b, coreNode c, laneOf b)
  | .recall b w _ _ => (1, s.dirNode b, partyNode w b, laneOf b)
  | .promote b c _ _ => (1, sliceNode c.die b, coreNode c, laneOf b)
  | .rebuild c n _ _ => (1, coreNode c, (1, c.die, n), 0)
  | .ack d b c _ _ => (2, coreNode c, sliceNode d b, laneOf b)
  | .dack b w _ _ => (2, partyNode w b, s.dirNode b, laneOf b)
  | .pack b c _ => (2, coreNode c, sliceNode c.die b, laneOf b)
  | .grant d b c _ _ _ => (2, sliceNode d b, coreNode c, laneOf b)
  | .dgrant b w _ _ => (2, s.dirNode b, partyNode w b, laneOf b)

/-- A message stands first among those of its route. -/
def State.first (s : State) (m : Msg) : Bool := (s.co.msgs.find? fun x => s.route x == s.route m) == some m

/-- A message has been received. -/
def State.taken (s : State) (m : Msg) : State := s.onCo fun c => { c with msgs := c.msgs.erase m }

/-- The n-th message in flight that a test selects, when it stands first on its route. -/
def State.nth (s : State) (f : Msg → Bool) (n : Nat) : Option Msg :=
  match (s.co.msgs.filter f)[n]? with
  | some m => if s.first m then some m else none
  | none => none

/-- The first message in flight that a test selects, when it stands first on its route. -/
def State.next (s : State) (f : Msg → Bool) : Option Msg := s.nth f 0

/-! ## Lines of L2 (R19, R388) -/

/-- The partition that holds a core. -/
def State.partOfCore (s : State) (c : CoreId) : Option Nat :=
  (List.range 16).find? fun p => (s.part p).state != .stopped && (s.part p).hasRow c.die (if 64 ≤ c.core then c.core - 64 else c.core / 8)

/-- The ways that fills for a core may take: those of its partition's WAYS (R388). -/
def State.waysFor (s : State) (c : CoreId) : List Nat :=
  let m := match s.partOfCore c with
    | some p => (s.part p).cfg.ways.toNat
    | none => 2 ^ 16 - 1
  (List.range 16).filter fun w => m.testBit w

/-- Two lines share a set of one slice. -/
def sameL2Set (a b : Nat) : Bool := sliceOf (2 * a) == sliceOf (2 * b) && Config.l2Set a % 1024 == Config.l2Set b % 1024

def State.l2Of (s : State) (die line : Nat) : Option L2Line := s.co.l2.find? fun l => l.die == die && l.line == line

def State.onL2 (s : State) (die line : Nat) (f : L2Line → L2Line) : State :=
  s.onCo fun c => { c with l2 := c.l2.map fun l => if l.die == die && l.line == line then f l else l }

/-- The half of its line in which a block stands. -/
def blkBit (blk : Nat) : BitVec 2 := if blk % 2 = 0 then 1 else 2

/-- A slice holds data of a block that its home has not. -/
def State.l2Dirty (s : State) (die blk : Nat) : Bool := (s.l2Of die (blk / 2)).any fun l => l.dirty &&& blkBit blk != 0

def State.setL2Dirty (s : State) (die blk : Nat) (on : Bool) : State :=
  s.onL2 die (blk / 2) fun l => { l with dirty := if on then l.dirty ||| blkBit blk else l.dirty &&& ~~~blkBit blk }

/-- A block leaves a slice: on its home die its data goes to memory; another die sends dirty data home, and gives up what it holds
of a block of which it keeps no L1 copy (R262, R267). -/
def State.l2Leaves (s : State) (die blk : Nat) : State :=
  if !s.l2Dirty die blk || s.blkDie blk == die then s
  else
    let h := s.home die blk
    let s1 := s.send (.dwback blk die)
    if h.st == .i && h.reqs.isEmpty then s1.putHome { h with right := .none } else s1

/-- A slice takes a line, in a way that the mask allows: a free one, else that of the line used least recently (R388). A hit
is a hit whatever its way. -/
def State.l2Fill (s : State) (die line : Nat) (ways : List Nat) : State :=
  if (s.l2Of die line).isSome then s.onL2 die line fun l => { l with used := s.tick }
  else
    let set := s.co.l2.filter fun l => l.die == die && sameL2Set l.line line
    let put := fun (s : State) (w : Nat) => s.onCo fun c => { c with l2 := c.l2 ++ [(⟨die, line, w, s.tick, 0⟩ : L2Line)] }
    match ways.find? fun w => !set.any fun l => l.way == w with
    | some w => put s w
    | none =>
      match argMin L2Line.used (set.filter fun l => ways.contains l.way) with
      | none => s
      | some v =>
        let s1 := (s.l2Leaves die (2 * v.line)).l2Leaves die (2 * v.line + 1)
        put (s1.onCo fun c => { c with l2 := c.l2.filter fun l => l != v }) v.way

/-- Dirty data of a block comes to a slice. -/
def State.l2Data (s : State) (die blk : Nat) (c : CoreId) : State := (s.l2Fill die (blk / 2) (s.waysFor c)).setL2Dirty die blk true

/-! ## Views (R260) -/

/-- A write has bytes in a block. -/
def WriteRec.inBlk (w : WriteRec) (blk : Nat) : Bool := w.cells.any fun c => c.1 / 64 == blk

/-- Blocks of a write. -/
def WriteRec.blks (w : WriteRec) : List Nat := (w.cells.map fun c => c.1 / 64).eraseDups

/-- Points take what some points have of a block. -/
def State.copyView (s : State) (src dst : List Point) (blk : Nat) : State := s.take dst fun w => w.inBlk blk && w.seenAt src

/-- The point of a party of the directory. -/
def partyPoints (who : Nat) : List Point :=
  if who < 4 then [.die who] else if who = 4 then [.host] else (List.range 4).map (Point.peer (who - 8))

/-! ## The home slice (R262, R263, R265) -/

/-- Cores whose mirror at a block's slice holds the block's positions (R265). -/
def State.mirrored (s : State) (die blk : Nat) : List CoreId :=
  (s.co.mirrors.filter fun x => x.core.die == die && x.slice == sliceOf blk && hasPair x.bits blk).map Mirror.core

/-- Probes a core for a block with the next number. -/
def State.probeOne (s : State) (die blk : Nat) (inv : Bool) (c : CoreId) : State :=
  let h := s.home die blk
  let n := h.seq + 1
  (s.putHome { h with seq := n, probes := h.probes ++ [⟨c, n, false⟩] }).send (.probe die blk c n inv)

/-- Serves a request with a grant: the next number, the mirror's bits, a line of L2 (R263, R264, R388). -/
def State.grantOne (s : State) (die blk : Nat) (c : CoreId) (req : Nat) (st new : Moesi) (owner : Option CoreId) : State :=
  let h := s.home die blk
  let n := h.seq + 1
  let m := s.mirrorOf c (sliceOf blk)
  let s1 := s.l2Fill die (blk / 2) (s.waysFor c)
  ((s1.putHome { h with seq := n, st := new, owner := owner, reqs := h.reqs.drop 1 }).putMirror
    { m with bits := setPair m.bits blk, grants := m.grants ++ [(req, blk)] }).send
    (.grant die blk c n st (st == .m || (st == .e && h.right == .owned)))

/-- The state of a block at a slice after a recall (R262, R267). -/
def recalledSt (inv : Bool) (st : Moesi) : Moesi :=
  if inv then .i else match st with
    | .s => .s
    | .o => .s
    | _ => .i

/-- Serves a recall: what the die keeps, its data on its way home, the acknowledgement (R267). -/
def State.recallOne (s : State) (die blk : Nat) (n : BitVec 16) (inv : Bool) : State :=
  let h := s.home die blk
  let data := s.l2Dirty die blk || h.st == .m || h.st == .o
  ((s.putHome { h with
      st := recalledSt inv h.st, owner := none, reqs := h.reqs.drop 1, dseq := n,
      right := if inv || h.right == .none then .none else .shared }).setL2Dirty die blk false).send
    (.dack blk die n (if data then .data else .clean))

/-- What the request at the head of a block comes to, once its probes are acknowledged (R262). -/
def State.finishHead (s : State) (die blk : Nat) : State :=
  let h := s.home die blk
  match h.reqs with
  | [] => s
  | .own c n :: _ => s.grantOne die blk c n .m .m (some c)
  | .read c n :: _ => match h.st with
    | .i => s.grantOne die blk c n .e .e (some c)
    | .m => s.grantOne die blk c n .s .o h.owner
    | .o => s.grantOne die blk c n .s .o h.owner
    | _ => s.grantOne die blk c n .s .s none
  | .recall n inv :: _ => s.recallOne die blk n inv

/-- The cores that the request at the head of a block probes, and whether to invalidate (R262, R265). -/
def State.headProbes (s : State) (die blk : Nat) : List CoreId × Bool :=
  let h := s.home die blk
  let owner := h.owner.toList
  let all := match h.st with
    | .i => []
    | .s => s.mirrored die blk
    | .o => (s.mirrored die blk ++ owner).eraseDups
    | _ => owner
  match h.reqs with
  | [] => ([], false)
  | .read c _ :: _ => (if h.st == .i || h.st == .s then [] else owner.filter fun o => o != c, false)
  | .own c _ :: _ => (if h.st == .e || h.st == .m then owner.filter fun o => o != c else all, true)
  | .recall _ true :: _ => (all, true)
  | .recall _ false :: _ => (owner, true)

/-- The die's right lets its slice serve a request (R267). -/
def Right.lets (r : Right) : HReq → Bool
  | .read _ _ => r != .none
  | .own _ _ => r == .owned
  | .recall _ _ => true

/-- A home slice serves the requests of a block in order: each sends its probes, or is finished at once; the number bounds how
many. -/
def State.serve (s : State) (die blk : Nat) : Nat → State
  | 0 => s
  | n + 1 =>
    let h := s.home die blk
    match h.reqs with
    | [] => s
    | r :: _ =>
      if !h.probes.isEmpty || !h.right.lets r then s
      else
        let p := s.headProbes die blk
        if p.1.isEmpty then (s.finishHead die blk).serve die blk n
        else p.1.foldl (fun s' c => s'.probeOne die blk p.2 c) s

/-- Serves what waits at a block. -/
def State.serveAll (s : State) (die blk : Nat) : State := s.serve die blk (s.home die blk).reqs.length

/-- Probes of a block are over; once the last is, the request that sent them is finished, and the next served. -/
def State.probeDone (s : State) (die blk : Nat) (f : Probe → Bool) : State :=
  let h := s.home die blk
  if h.probes.any f then
    let l := h.probes.filter fun p => !f p
    let s1 := s.putHome { h with probes := l }
    if l.isEmpty then (s1.finishHead die blk).serveAll die blk else s1
  else s

/-- A request arrives at a home slice. -/
def State.queueReq (s : State) (die blk : Nat) (r : HReq) : State :=
  let h := s.home die blk
  (s.putHome { h with reqs := h.reqs ++ [r] }).serveAll die blk

/-- A recall arrives at a slice: it goes before what waits, and after what has probes outstanding. -/
def State.queueRecall (s : State) (die blk : Nat) (n : BitVec 16) (inv : Bool) : State :=
  let h := s.home die blk
  let k := if h.probes.isEmpty then 0 else 1
  (s.putHome { h with reqs := h.reqs.take k ++ .recall n inv :: h.reqs.drop k }).serveAll die blk

/-! ## What a core asks for -/

/-- A core already asks for a block, or its grant is in flight. -/
def State.asking (s : State) (c : CoreId) (blk : Nat) : Bool :=
  (s.home c.die blk).reqs.any (fun r => match r with
    | .read x _ => x == c
    | .own x _ => x == c
    | .recall _ _ => false) ||
  s.inFlight fun m => match m with
    | .read _ b x _ => b == blk && x == c
    | .own _ b x _ => b == blk && x == c
    | .grant _ b x _ _ _ => b == blk && x == c
    | _ => false

/-- A core sends a request, which its request count numbers (R266). -/
def State.ask (s : State) (c : CoreId) (blk : Nat) (own : Bool) : State :=
  let g := s.sigOf c
  (s.putSig { g with reqs := g.reqs + 1 }).send (if own then .own c.die blk c (g.reqs + 1) else .read c.die blk c (g.reqs + 1))

/-- The writes of a core's gather buffer in a block, those for the L1 or those for the home. -/
def State.gathered (s : State) (c : CoreId) (blk : Nat) (home : Bool) : List Nat :=
  (s.co.gather.filter fun g => g.core == c && g.home == home && s.ms.writes.any fun w => w.id == g.wid && w.inBlk blk).map Gathered.wid

/-- Writes leave the gather buffer of a core, and stand at every point beyond it: every other copy has been invalidated (R260,
R267). -/
def State.ungather (s : State) (c : CoreId) (ws : List WriteRec) : State :=
  let s1 := ws.foldl (fun (s' : State) w => s'.take ((s'.whoOf w.tid c).clp :: .die c.die :: s'.systemPoints) fun r => r.id == w.id) s
  s1.onCo fun x => { x with gather := x.gather.filter fun g => !(g.core == c && ws.any fun w => w.id == g.wid) }

/-- Gathered writes go to the blocks that their core may write, which are dirty then (R262, R273). -/
def State.drainGather (s : State) (c : CoreId) (blk : Nat) : State :=
  let ids := s.gathered c blk false
  let out := s.ms.writes.filter fun w => ids.contains w.id && w.blks.all fun b => (s.l1Of c b).any L1Blk.takesWrites
  if out.isEmpty then s
  else (s.ungather c out).onCo fun x => { x with
    l1 := x.l1.map fun b => if b.core == c && out.any (fun w => w.inBlk b.blk) then { b with st := .m } else b }

/-! ## The directory (R267 to R269) -/

/-- A message is about a block. -/
def Msg.about (m : Msg) (blk : Nat) : Bool :=
  match m with
  | .read _ b _ _ => b == blk
  | .own _ b _ _ => b == blk
  | .wback _ b _ => b == blk
  | .drop _ b _ _ => b == blk
  | .dreq b _ _ => b == blk
  | .dwback b _ => b == blk
  | .probe _ b _ _ _ => b == blk
  | .recall b _ _ _ => b == blk
  | .promote _ _ _ _ => false
  | .rebuild _ _ _ _ => false
  | .ack _ b _ _ _ => b == blk
  | .dack b _ _ _ => b == blk
  | .pack _ _ _ => false
  | .grant _ b _ _ _ _ => b == blk
  | .dgrant b _ _ _ => b == blk

/-- Nothing is asked, probed or in flight about a block. -/
def State.quiet (s : State) (blk : Nat) : Bool :=
  (s.co.homes.all fun h => h.blk != blk || (h.reqs.isEmpty && h.probes.isEmpty)) && (s.dirOf blk).reqs.isEmpty && !s.inFlight fun m => m.about blk

/-- The home directory takes a block back from every holder, for an access that executes at the home (R269, R378). What the
recalls and their acknowledgements would do takes place in one step, of a block about which nothing else is under way (log 61). -/
def State.dirTake (s : State) (blk : Nat) : State :=
  if !s.homed blk then s
  else
    let s1 := s.onCo fun c => { c with
      l1 := c.l1.filter fun b => b.blk != blk,
      homes := c.homes.map fun h => if h.blk == blk then
          { h with st := .i, owner := none, seq := h.seq + 1, right := if h.die == s.blkDie blk then .owned else .none } else h,
      l2 := c.l2.map fun l => if l.line == blk / 2 then { l with dirty := l.dirty &&& ~~~blkBit blk } else l }
    let e := s.dirOf blk
    s1.putDir { e with st := .uncached, peers := 0, seq := e.seq + 1 }

/-- Blocks of n bytes of memory. -/
def blksOf (pa n : Nat) : List Nat := (List.range ((pa + n + 63) / 64 - pa / 64)).map (pa / 64 + ·)

/-- An access may execute at the home: nothing is under way about its blocks. -/
def State.homeReady (s : State) (pa n : Nat) : Bool := (blksOf pa n).all s.quiet

/-- Writes of a core that go to their home reach it (R269, R378). -/
def State.drainHome (s : State) (c : CoreId) (blk : Nat) : State :=
  let ids := s.gathered c blk true
  let out := s.ms.writes.filter fun w => ids.contains w.id && w.blks.all fun b => s.quiet b && !s.linkHeld (64 * b)
  if out.isEmpty then s else ((out.flatMap WriteRec.blks).foldl State.dirTake s).ungather c out

/-- Sharers after a read. -/
def DirState.sharers : DirState → BitVec 5
  | .uncached => 0
  | .shared m => m
  | .owned w => BitVec.ofNat 5 (2 ^ w)

/-- The state of an entry after a request: 0 to 3 a die, 4 the host, 8 and above a peer (R267, R269). -/
def dirAfter (hd who : Nat) (own : Bool) (st : DirState) : DirState :=
  if own then (if who == hd then .uncached else .owned who)
  else if 8 ≤ who then .shared st.sharers
  else if who == hd then (match st with
    | .owned _ => .shared st.sharers
    | st => st)
  else .shared (st.sharers ||| BitVec.ofNat 5 (2 ^ who))

/-- The devices of the bits set in a vector of peers, that are present (R269). -/
def State.peerSharers (s : State) (v : BitVec 8) : List Nat := (s.peerDevs.filter fun d => v.getLsbD (d / 8)).map (8 + ·)

/-- A party that can hold nothing any more: a die that has failed, the host or a device beyond a link that is down (R430, R431, log
71). -/
def State.partyGone (s : State) (who : Nat) : Bool :=
  if who < 4 then s.md.failed.getLsbD who
  else if who = 4 then s.md.links.any fun l => l.id == 0 && l.down
  else s.md.cut.getLsbD (who - 8)

/-- The parties from which a request recalls a block, and whether to invalidate (R267 to R269). -/
def State.dirRecalls (s : State) (blk who : Nat) (own : Bool) : List Nat × Bool :=
  let e := s.dirOf blk
  let hd := s.blkDie blk
  let home := if hd != who && (s.home hd blk).right != .none then [hd] else []
  let all := if own then home ++ ((List.range 5).filter fun w => w != who && w != hd && e.st.sharers.getLsbD w) ++ s.peerSharers e.peers
    else match e.st with
      | .owned w => if w = who then [] else [w]
      | .uncached => if hd != who && (s.home hd blk).right == .owned then [hd] else []
      | .shared _ => []
  (all.filter fun w => !s.partyGone w, own)

/-- The directory grants a block (R267). The home die, alone in holding it, owns it. What a party asked that is gone comes to
nothing. -/
def State.dirFinish (s : State) (blk : Nat) : State :=
  let e := s.dirOf blk
  match e.reqs with
  | [] => s
  | (who, own) :: l =>
    if s.partyGone who then s.putDir { e with reqs := l }
    else
    let st := dirAfter (s.blkDie blk) who own e.st
    let all := own || (who == s.blkDie blk && st == .uncached && e.peers == 0)
    (s.putDir { e with
      st := st, seq := e.seq + 1, reqs := l,
      peers := if own then 0 else if 8 ≤ who then e.peers ||| BitVec.ofNat 8 (2 ^ ((who - 8) / 8)) else e.peers }).send
      (.dgrant blk who (e.seq + 1) all)

/-- Recalls a block from a party with the directory's next number. -/
def State.recallParty (s : State) (blk : Nat) (inv : Bool) (who : Nat) : State :=
  let e := s.dirOf blk
  (s.putDir { e with seq := e.seq + 1, probes := e.probes ++ [(who, e.seq + 1, false)] }).send (.recall blk who (e.seq + 1) inv)

/-- The directory serves the requests of a block in order. -/
def State.dirServe (s : State) (blk : Nat) : Nat → State
  | 0 => s
  | n + 1 =>
    let e := s.dirOf blk
    match e.reqs with
    | [] => s
    | (who, own) :: _ =>
      if !e.probes.isEmpty then s
      else
        let r := if s.partyGone who then ([], false) else s.dirRecalls blk who own
        if r.1.isEmpty then (s.dirFinish blk).dirServe blk n else r.1.foldl (fun s' w => s'.recallParty blk r.2 w) s

def State.dirServeAll (s : State) (blk : Nat) : State := s.dirServe blk (s.dirOf blk).reqs.length

/-- Recalls of a block are over; once the last is, the request that sent them is granted, and the next served. -/
def State.recallDone (s : State) (blk : Nat) (f : Nat × BitVec 16 × Bool → Bool) : State :=
  let e := s.dirOf blk
  if e.probes.any f then
    let l := e.probes.filter fun p => !f p
    let s1 := s.putDir { e with probes := l }
    if l.isEmpty then (s1.dirFinish blk).dirServeAll blk else s1
  else s

/-- A node of the fabric stands on a die. -/
def onDie (d : Nat) (n : Nat × Nat × Nat) : Bool := decide (n.1 < 3) && n.2.1 == d

/-- The node of a party of the directory beyond the module. -/
def outNode (gone : Nat → Bool) (n : Nat × Nat × Nat) : Bool := n.1 == 3 && gone n.2.1

/-- Parties of the directory are gone: messages to and from them are lost, and what waits for their answers goes on (R430 to R432). -/
def State.forgetParties (s : State) (gone : Nat → Bool) (lost : Nat × Nat × Nat → Bool) : State :=
  let s1 := s.onCo fun c => { c with msgs := c.msgs.filter fun m => !(lost (s.route m).2.1 || lost (s.route m).2.2.1) }
  (s1.co.dirs.map DirEntry.blk).foldl (fun s' b => s'.recallDone b fun p => gone p.1) s1

/-! ## Blocks that leave an L1 (R257, R258, R262, R263) -/

/-- A core gives up a block: a dirty one by a write-back, a clean one of S or E by a drop notice. -/
def State.evict (s : State) (b : L1Blk) : State :=
  (s.dropL1 b.core b.blk).send (if b.dirty then .wback b.core.die b.blk b.core else .drop b.core.die b.blk b.core b.seq)

/-- The home learns that a core's copy of a block is clean, or gone, its data in L2. -/
def State.homeTold (s : State) (c : CoreId) (blk : Nat) (gone : Bool) : State :=
  let h := s.home c.die blk
  if h.owner != some c then s
  else s.putHome (match h.st with
    | .o => { h with st := .s, owner := none }
    | _ => if gone then { h with st := .i, owner := none } else { h with st := .e })

/-- A core writes back a block, which it keeps clean, or drops (R257, R275). -/
def State.cleanBlk (s : State) (c : CoreId) (blk : Nat) (gone : Bool) : State :=
  match s.l1Of c blk with
  | none => s
  | some b =>
    let s1 := if b.dirty then (s.l2Data c.die blk c).homeTold c blk gone else if gone then s.homeTold c blk true else s
    if gone then s1.dropL1 c blk else s1.onL1 c blk fun x => { x with st := if x.st == .m then .e else if x.st == .o then .s else x.st }

/-- A core drops a block without its data (R258). -/
def State.discardBlk (s : State) (c : CoreId) (blk : Nat) : State :=
  if (s.l1Of c blk).isSome then (s.homeTold c blk true).dropL1 c blk else s

/-- The lines that an L1 holds: 256 KiB of a core of the mesh, 64 KiB of a quay core (R16, R17). -/
def l1Lines (c : CoreId) : Nat := if 64 ≤ c.core then 512 else 2048

/-- The lines of a core's L1. -/
def State.linesHeld (s : State) (c : CoreId) : List Nat := ((s.co.l1.filter fun b => b.core == c).map fun b => b.blk / 2).eraseDups

/-- Room for the line of a block in a core's L1: when it is full, some line leaves it; which one the manual leaves open (log 60). -/
def State.l1Room (s : State) (c : CoreId) (blk : Nat) : State :=
  let ls := s.linesHeld c
  if ls.contains (blk / 2) || decide (ls.length < l1Lines c) then s
  else
    let q := s.draw
    let v := ls.getD (q.1 % ls.length) 0
    (s.co.l1.filter fun b => b.core == c && b.blk / 2 == v).foldl State.evict q.2

end Sys2Proof.Machine
end

