-- ==== Sys2Proof/Machine/Uses.lean ====
section
/-!
DEFINITION. The registers that each instruction names, with their spans (R38, R46 to R49). Records of queues (R366) and
samples (R250) depend on what an operand names and are added by their meanings.
-/
namespace Sys2Proof.Machine

/-- Spans read and written. -/
def useRW (rd wr : List (Opnd × Nat)) : Use := ⟨rd, wr, [], [], []⟩

/-- Registers of an address or data of a memory instruction. -/
def useMem (glob : Bool) (m : MemArg) (rd wr : List (Opnd × Nat)) : Use := useRW ((m.a, if glob then 2 else 1) :: rd) wr

/-- Registers of an atomic (R244). -/
def useAtom (glob : Bool) (x : AtomArg) : Use :=
  let n := if x.b64 then 2 else 1
  useRW ([(x.a, if glob then 2 else 1), (x.b, n)] ++ match x.op with
    | .cas c => [(c, n)]
    | _ => []) [(x.d, n)]

/-- Registers of a three-operand arithmetic instruction of n-register values. -/
def useN (n : Nat) (d : Opnd) (srcs : List Opnd) : Use := useRW (srcs.map fun o => (o, n)) [(d, n)]

/-- Registers that an instruction names. -/
def useOf : Instr → Use
  | .iadd _ d a b _ => useN 1 d [a, b]
  | .iaddI _ d a _ => useN 1 d [a]
  | .isub _ d a b _ => useN 1 d [a, b]
  | .isubI _ d a _ => useN 1 d [a]
  | .imul _ d a b => useN 1 d [a, b]
  | .imulI _ d a _ => useN 1 d [a]
  | .imulh _ d a b _ => useN 1 d [a, b]
  | .imad _ d a b c => useN 1 d [a, b, c]
  | .imadw _ d a b c _ => useRW [(a, 1), (b, 1), (c, 2)] [(d, 2)]
  | .idiv _ d a b _ => useN 1 d [a, b]
  | .irem _ d a b _ => useN 1 d [a, b]
  | .iabs _ d a _ => useN 1 d [a]
  | .ineg _ d a _ => useN 1 d [a]
  | .imin _ d a b _ => useN 1 d [a, b]
  | .iminI _ d a _ => useN 1 d [a]
  | .imax _ d a b _ => useN 1 d [a, b]
  | .imaxI _ d a _ => useN 1 d [a]
  | .iclamp _ d a b c _ => useN 1 d [a, b, c]
  | .andB _ d a b => useN 1 d [a, b]
  | .andI _ d a _ => useN 1 d [a]
  | .orB _ d a b => useN 1 d [a, b]
  | .orI _ d a _ => useN 1 d [a]
  | .xorB _ d a b => useN 1 d [a, b]
  | .xorI _ d a _ => useN 1 d [a]
  | .andnB _ d a b => useN 1 d [a, b]
  | .andnI _ d a _ => useN 1 d [a]
  | .lop3 _ d a b c _ => useN 1 d [a, b, c]
  | .shl _ d a b => useN 1 d [a, b]
  | .shlI _ d a _ => useN 1 d [a]
  | .shr _ d a b _ => useN 1 d [a, b]
  | .shrI _ d a _ => useN 1 d [a]
  | .rot _ d a b _ => useN 1 d [a, b]
  | .rotI _ d a _ => useN 1 d [a]
  | .shf _ d a b c _ => useN 1 d [a, b, c]
  | .bfe _ d a b _ => useN 1 d [a, b]
  | .bfi _ d a b c => useN 1 d [a, b, c]
  | .popc _ d a => useN 1 d [a]
  | .clz _ d a => useN 1 d [a]
  | .ctz _ d a => useN 1 d [a]
  | .brev _ d a => useN 1 d [a]
  | .perm _ d a b c => useN 1 d [a, b, c]
  | .iadd64 _ d a b => useN 2 d [a, b]
  | .iadd64I _ d a _ => useN 2 d [a]
  | .isub64 _ d a b => useN 2 d [a, b]
  | .imad64 _ d a b c => useN 2 d [a, b, c]
  | .shl64 _ d a b => useRW [(a, 2), (b, 1)] [(d, 2)]
  | .shr64 _ d a b _ => useRW [(a, 2), (b, 1)] [(d, 2)]
  | .lea _ d a b _ _ => useRW [(a, 2), (b, 1)] [(d, 2)]
  | .isetp _ p a b _ _ mg => { useRW [(a, 1), (b, 1)] [] with pwr := [p.val], prd := if mg == .set then [] else [p.val] }
  | .fsetp _ p a b _ mg => { useRW [(a, 1), (b, 1)] [] with pwr := [p.val], prd := if mg == .set then [] else [p.val] }
  | .dsetp _ p a b _ mg => { useRW [(a, 2), (b, 2)] [] with pwr := [p.val], prd := if mg == .set then [] else [p.val] }
  | .sel _ d a b c => useN 1 d [a, b, c]
  | .plop _ d a b c _ => { useRW [] [] with pwr := [d.val], prd := [a.val, b.val, c.val] }
  | .p2v _ d => { useRW [] [(d, 1)] with prd := List.range 7 }
  | .v2p _ a mask => { useRW [(a, 1)] [] with pwr := (List.range 7).filter fun i => mask.getLsbD i }
  | .mov _ d a b64 => useN (if b64 then 2 else 1) d [a]
  | .movi _ d _ => useN 1 d []
  | .srd _ d _ => useN 1 d []
  | .srdClr _ d => useN 1 d []
  | .fadd _ d a b _ _ _ => useN 1 d [a, b]
  | .fmul _ d a b _ _ _ => useN 1 d [a, b]
  | .ffma _ d a b c _ _ _ _ => useN 1 d [a, b, c]
  | .fmin _ d a b => useN 1 d [a, b]
  | .fmax _ d a b => useN 1 d [a, b]
  | .frnd _ d a _ _ => useN 1 d [a]
  | .fdiv _ d a b _ => useN 1 d [a, b]
  | .fsqrt _ d a _ => useN 1 d [a]
  | .frsq _ d a => useN 1 d [a]
  | .frcp _ d a => useN 1 d [a]
  | .fex2 _ d a => useN 1 d [a]
  | .flg2 _ d a => useN 1 d [a]
  | .fsinpi _ d a => useN 1 d [a]
  | .fcospi _ d a => useN 1 d [a]
  | .fclass _ d a => useN 1 d [a]
  | .fscale _ d a b _ => useN 1 d [a, b]
  | .dadd _ d a b _ _ _ => useN 2 d [a, b]
  | .dmul _ d a b _ _ _ => useN 2 d [a, b]
  | .dfma _ d a b c _ _ _ _ => useN 2 d [a, b, c]
  | .dmin _ d a b => useN 2 d [a, b]
  | .dmax _ d a b => useN 2 d [a, b]
  | .ddiv _ d a b _ => useN 2 d [a, b]
  | .dsqrt _ d a _ => useN 2 d [a]
  | .hadd2 _ d a b _ _ => useN 1 d [a, b]
  | .hmul2 _ d a b _ _ => useN 1 d [a, b]
  | .hfma2 _ d a b c _ _ _ => useN 1 d [a, b, c]
  | .hmin2 _ d a b => useN 1 d [a, b]
  | .hmax2 _ d a b => useN 1 d [a, b]
  | .bfma2 _ d a b c _ _ _ => useN 1 d [a, b, c]
  | .badd2 _ d a b _ _ => useN 1 d [a, b]
  | .bmul2 _ d a b _ _ => useN 1 d [a, b]
  | .idot4 _ d a b c _ _ _ => useN 1 d [a, b, c]
  | .cvt _ d a _ dst src _ => useRW [(a, src.regs)] [(d, dst.regs)]
  | .dxpack _ d a b _ _ => useRW [(a, 1), (b, 2)] [(d, 1)]
  | .dxunpk _ d a b _ _ => useN 1 d [a, b]
  | .shfl _ d a b c _ => useRW [(a, 1), (b, 2), (c, 1)] [(d, 1)]
  | .vote _ d a b k => useRW [(a, 1), (b, 2)] [(d, k.regs)]
  | .redux _ d a b _ => useRW [(a, 1), (b, 2)] [(d, 1)]
  | .elect _ d b => useRW [(b, 2)] [(d, 1)]
  | .matchL _ d a b w => useRW [(a, if w then 2 else 1), (b, 2)] [(d, 2)]
  | .scan _ d a b _ _ => useRW [(a, 1), (b, 2)] [(d, 1)]
  | .rdfirst _ d a b w => useRW [(a, if w then 2 else 1), (b, 2)] [(d, if w then 2 else 1)]
  | .ld _ d m sz _ _ _ => useMem true m [] [(d, sz.regs)]
  | .st _ d m sz _ => useMem true m [(d, sz.regs)] []
  | .ldv _ d m sz _ _ _ => useMem false m [] [(d, sz.regs)]
  | .stv _ d m sz _ _ => useMem false m [(d, sz.regs)] []
  | .ldt _ d m sz _ _ _ => useMem false m [] [(d, sz.regs)]
  | .stt _ d m sz _ _ => useMem false m [(d, sz.regs)] []
  | .tagopEmpty _ m _ _ _ => useMem false m [] []
  | .tagopFull _ m _ _ _ => useMem false m [] []
  | .atom _ x => useAtom true x
  | .atomv _ x _ => useAtom false x
  | .lds _ d m sz _ => useMem true m [] [(d, sz.regs)]
  | .smp _ d a b _ _ _ _ => useRW [(a, 2), (b, 2)] [(d, 1)]
  | .fence _ k _ _ _ => { useRW [] [] with k := [k.val] }
  | .fwait _ k => { useRW [] [] with k := [k.val] }
  | .pref _ a _ _ => useRW [(a, 2)] []
  | .cwb _ m _ => useMem true m [] []
  | .cinvIcache _ a _ => useRW [(a, 2)] []
  | .cinvDiscard _ a _ => useRW [(a, 2)] []
  | .mxld _ a _ => useRW [(a, 8)] []
  | .mxst _ _ a _ _ sc => useRW ((a, 1) :: match sc with
    | some b => [(b, 1)]
    | none => []) []
  | .mxlda _ _ a _ => useRW [(a, 1)] []
  | .mxqryOcc _ d => useN 1 d []
  | .mxqryEst _ d => useN 2 d []
  | .cpy _ x => useRW [(x.a, 2)] [(x.d, 2)]
  | .cpys _ x => useRW [(x.a, 2)] [(x.d, 2)]
  | .cpyb _ x => useRW [(x.a, 2)] [(x.d, 2)]
  | .cpyx _ x => useRW [(x.a, 2)] [(x.d, 2)]
  | .cfill _ x b => useRW [(x.a, 2), (b, 1)] [(x.d, 2)]
  | .cseal _ k => { useRW [] [] with k := [k.val] }
  | .cprom _ d k => { useRW [] [(d, 2)] with k := [k.val] }
  | .cpromStat _ d k => { useRW [] [(d, 1)] with k := [k.val] }
  | .cpub _ d _ => useN 2 d []
  | .cshad _ _ a b => useRW [(a, 2), (b, 1)] []
  | .cshadOff _ d _ => useN 2 d []
  | .fopen _ d a _ => useRW [(a, 2)] [(d, 1)]
  | .fst _ a b _ => useRW [(a, 1), (b, 1)] []
  | .fcomp _ a _ _ _ _ => useRW [(a, 2)] []
  | .fqry _ d _ => useN 2 d []
  | .fqryAnc _ d _ => useN 2 d []
  | .hld _ d a _ _ _ pr => { useRW [(a, 2)] [(d, 1)] with pwr := pr.toList.map Fin.val }
  | .hres _ d a _ _ _ pr => { useRW [(a, 2)] [(d, 4)] with pwr := pr.toList.map Fin.val }
  | .spview _ a b => useRW [(a, 2), (b, 1)] []
  | .spbegin _ a _ => useRW [(a, 2)] []
  | .spsub _ a b => useRW [(a, 2), (b, 1)] []
  | .spbwd _ a b => useRW [(a, 2), (b, 2)] []
  | .spred _ a b => useRW [(a, 2), (b, 2)] []
  | .spqry _ d => useN 1 d []
  | .brx _ a => useRW [(a, 2)] []
  | .call _ d _ => useN 2 d []
  | .ret _ a => useRW [(a, 2)] []
  | .sleepu _ k => { useRW [] [] with k := [k.val] }
  | .arrive _ k _ => { useRW [] [] with k := [k.val] }
  | .bwait _ k => { useRW [] [] with k := [k.val] }
  | .qpush .. => useRW [] []
  | .qpop _ _ _ st _ => useRW [] [(st, 1)]
  | .qtry _ _ _ st _ => useRW [] [(st, 1)]
  | .qqry _ d _ => useN 2 d []
  | .tretResume _ (.quay d a) => useRW [(a, 2)] [(d, 1)]
  | .tretSkip _ (.quay d a) => useRW [(a, 2)] [(d, 1)]
  | .tretRetry _ d a => useRW [(a, 2)] [(d, 1)]
  | .tretFail _ d a => useRW [(a, 2)] [(d, 1)]
  | .tretKill _ d a => useRW [(a, 2)] [(d, 1)]
  | .tretAssist _ d a b c => useRW [(a, 2), (b, 2), (c, 1)] [(d, 1)]
  | .swr _ r a => useRW [(a, r.regs)] []
  | .srdp _ d r => useRW [] [(d, r.regs)]
  | .tlbiVa _ a b => useRW [(a, 2), (b, 1)] []
  | .tlbiAsid _ b => useRW [(b, 1)] []
  | .split _ d a b _ => useRW [(a, 2), (b, 2)] [(d, 1)]
  | .launch _ d a _ => useRW [(a, 2)] [(d, 2)]
  | .attest _ d a b => useRW [(a, 2), (b, 2)] [(d, 1)]
  | .ologrNext _ d => useN 8 d []
  | .ologrOpnd _ d a => useRW [(a, 2)] [(d, 8)]
  | _ => useRW [] []

end Sys2Proof.Machine

namespace Sys2Proof

/-- The guard of an instruction word (R40, R41); an event has none, which p7 stands for. -/
def Instr.guard : Instr → Gd
  | .nop h | .iadd h .. | .iaddI h .. | .isub h .. | .isubI h .. | .imul h .. | .imulI h .. | .imulh h .. | .imad h ..
  | .imadw h .. | .idiv h .. | .irem h .. | .iabs h .. | .ineg h .. | .imin h .. | .iminI h .. | .imax h .. | .imaxI h ..
  | .iclamp h .. | .andB h .. | .andI h .. | .orB h .. | .orI h .. | .xorB h .. | .xorI h .. | .andnB h .. | .andnI h ..
  | .lop3 h .. | .shl h .. | .shlI h .. | .shr h .. | .shrI h .. | .rot h .. | .rotI h .. | .shf h .. | .bfe h .. | .bfi h ..
  | .popc h .. | .clz h .. | .ctz h .. | .brev h .. | .perm h .. | .iadd64 h .. | .iadd64I h .. | .isub64 h .. | .imad64 h ..
  | .shl64 h .. | .shr64 h .. | .lea h .. | .isetp h .. | .fsetp h .. | .dsetp h .. | .sel h .. | .plop h .. | .p2v h ..
  | .v2p h .. | .mov h .. | .movi h .. | .srd h .. | .srdClr h .. | .fadd h .. | .fmul h .. | .ffma h .. | .fmin h ..
  | .fmax h .. | .frnd h .. | .fdiv h .. | .fsqrt h .. | .frsq h .. | .frcp h .. | .fex2 h .. | .flg2 h .. | .fsinpi h ..
  | .fcospi h .. | .fclass h .. | .fscale h .. | .dadd h .. | .dmul h .. | .dfma h .. | .dmin h .. | .dmax h .. | .ddiv h ..
  | .dsqrt h .. | .hadd2 h .. | .hmul2 h .. | .hfma2 h .. | .hmin2 h .. | .hmax2 h .. | .bfma2 h .. | .badd2 h ..
  | .bmul2 h .. | .idot4 h .. | .cvt h .. | .dxpack h .. | .dxunpk h .. | .shfl h .. | .vote h .. | .redux h .. | .elect h ..
  | .matchL h .. | .scan h .. | .rdfirst h .. | .ld h .. | .st h .. | .ldv h .. | .stv h .. | .ldt h .. | .stt h ..
  | .tagopEmpty h .. | .tagopFull h .. | .atom h .. | .atomv h .. | .lds h .. | .smp h .. | .fsamp h .. | .fence h ..
  | .fwait h .. | .fjoin h .. | .pref h .. | .cwb h .. | .cinvIcache h .. | .cinvDiscard h .. | .mxld h .. | .mxrun h ..
  | .mxz h .. | .mxst h .. | .mxlda h .. | .mxqryOcc h .. | .mxqryEst h .. | .cpy h .. | .cpys h .. | .cpyb h .. | .cpyx h ..
  | .cfill h .. | .cseal h .. | .cwait h .. | .cprom h .. | .cpromStat h .. | .cpub h .. | .cshad h .. | .cshadOff h ..
  | .fopen h .. | .fst h .. | .fseal h .. | .fcomp h .. | .finv h .. | .frel h .. | .fqry h .. | .fqryAnc h .. | .hld h ..
  | .hres h .. | .spview h .. | .spbegin h .. | .spsub h .. | .spend h | .spendAbort h | .spbwd h .. | .spred h ..
  | .spqry h .. | .bra h .. | .brx h .. | .call h .. | .ret h .. | .exit h | .waitc h .. | .sleep h .. | .sleepu h ..
  | .yieldI h | .bar h .. | .arrive h .. | .bwait h .. | .qpush h .. | .qpop h .. | .qtry h .. | .qclose h .. | .qqry h ..
  | .bkpt h .. | .trap h .. | .tretResume h .. | .tretSkip h .. | .tretRetry h .. | .tretFail h .. | .tretKill h ..
  | .tretAssist h .. | .swr h .. | .srdp h .. | .tlbiVa h .. | .tlbiAsid h .. | .tlbiAll h | .split h .. | .launch h ..
  | .attest h .. | .ologrNext h .. | .ologrOpnd h .. => h
  | _ => ⟨7, false, false, false⟩

end Sys2Proof
end

