-- ==== Sys2Proof/Machine/Access.lean ====
section
/-!
DEFINITION. The MEM class at issue (R214, R230 to R258): addresses and their precise faults, the accesses that enter the
abstract machine, FSAMP, fences, joins, prefetches.
-/
namespace Sys2Proof.Machine

/-! ## Placing an access -/

/-- A part not yet performed. -/
def APart.new (ofs len ea : Nat) : APart := ⟨ofs, len, ea, false, 0, none, false, none, none⟩

/-- The parts of n bytes at an effective address, one for each line (R228, R235). -/
def splitParts (ea n : Nat) : List APart :=
  let k := 128 - ea % 128
  if n ≤ k then [APart.new 0 n ea] else [APart.new 0 k ea, APart.new k (n - k) ((ea + k) % 2 ^ 64)]

/-- Every entry of a core's operand log is occupied (R408). -/
def State.logFull (s : State) (c : CoreId) : Bool := decide (64 ≤ (s.ms.oplog.filter fun o => o.core == c).length)

/-- Waits at issue of an instruction that places an access: a counter that would pass 63 (R34), a full operand log
(R408), and an earlier FSAMP for a sampler read (R252). -/
def State.memReady (s : State) (c : Ctr) (samp : Bool) (t : Thread) : Bool :=
  decide (t.ctr.get c < 63) && !s.logFull t.place.core && (!samp || t.out.fsamp.isEmpty)

/-- What an instruction asks before it places an access. -/
def State.memAsk (s : State) (i : Instr) (c : Ctr) (samp priv : Bool) : Ask :=
  { Ask.of (useOf i) with ready := s.memReady c samp, deny := fun t => priv && !t.place.priv }

/-- How an access is ordered. -/
structure AOrd where
  stream : Nat
  scope : Scope
  acq : Bool
  rel : Bool
  prom : Bool
  deriving DecidableEq, Repr

/-- The order of an M-format instruction. -/
def memOrd (m : MemArg) (acq rel prom : Bool) : AOrd := ⟨m.stream.val, m.scope, acq, rel, prom⟩

/-- Places an access of thread t, as it stood before the issue, and raises its counter (R33, R214). -/
def State.place (s : State) (t : Thread) (vault : Bool) (o : AOrd) (k : AKind) (c : Ctr) (dreg : Nat) (ps : List APart) : State :=
  let a : Access := {
    id := s.nextId, tid := t.id, core := t.place.core, vault := vault, stream := o.stream, scope := o.scope, acq := o.acq,
    rel := o.rel, prom := o.prom, kind := k, ctr := c, pos := t.pos, dreg := dreg, parts := ps,
    data := List.replicate ((ps.map APart.len).foldl (· + ·) 0) 0, bad := false, withdrawn := false, arrived := none, promo := none }
  (({ s with nextId := s.nextId + 1 }).onMs fun m => { m with accs := m.accs ++ [a] }).up t.id c

/-! ## Forms of issue -/

/-- What a form of access does once its address is good. -/
structure MForm where
  ord : AOrd
  ctr : Ctr
  /-- Bytes. -/
  n : Nat
  /-- Destination, and its registers; none for a store. -/
  d : Opnd
  regs : Nat
  dreg : Nat
  /-- The kind, from the state before the issue, the thread and its destination. -/
  kind : State → Thread → Opnd → AKind
  /-- The thread waits for the access (R247). -/
  waits : Bool

/-- A thread places its access at an address, and goes on or waits. -/
def MForm.put (f : MForm) (s0 : State) (ts : List Thread) (t : Thread) (vault : Bool) (ps : List APart) (s : State) : State :=
  let id := s.nextId
  let d := destOf ts t f.d
  let s1 := (s.place t vault f.ord (f.kind s0 t d) f.ctr f.dreg ps).hold t id d f.regs
  if f.waits then s1.waitOn t.id (.atomic id) else s1.advance t.id

/-- Issue of a global access at an effective address of each thread: alignment (R246), canonical form (R230). Where only the part
beyond a line is not canonical, its fault is one of translation, met when the access performs (R235, log 62). -/
def gmem (i : Instr) (h : Gd) (f : MForm) (align samp priv : Bool) (ea : State → Thread → Nat) (s : State) : Out :=
  .next (s.issue h (s.memAsk i f.ctr samp priv) fun ts s1 => ts.foldl (fun s' t =>
    let a := ea s t
    if align && a % f.n != 0 then s'.trapHere t 0x05 0 a 0
    else if !canonical a then s'.trapHere t 0x10 1 a 0
    else f.put s ts t false (splitParts a f.n) s') s1)

/-- Issue of a vault access at a vault address of each thread: alignment (R242, R246), then the checks of R233. -/
def vmem (i : Instr) (h : Gd) (f : MForm) (align cr : Bool) (va : State → Thread → Nat) (s : State) : Out :=
  .next (s.issue h (s.memAsk i f.ctr false false) fun ts s1 => ts.foldl (fun s' t =>
    let a := va s t
    if align && a % f.n != 0 then s'.trapHere t 0x05 0 a 0
    else match s.vaultKey t.place a f.n cr with
      | .error e => s'.trapFlt t e a
      | .ok k => f.put s ts t true [APart.new 0 f.n k] s') s1)

/-- The effective address of an M-format instruction (R230), and its vault address (R231). -/
def memEa (m : MemArg) (s : State) (t : Thread) : Nat := eaOf (s.rd2 t m.a).toNat m.ofs
def memVa (m : MemArg) (s : State) (t : Thread) : Nat := vaOf (s.rd t m.a).toNat m.ofs

/-- The bytes of a store, latched at issue (R39, R234). -/
def State.storeBytes (s : State) (t : Thread) (d : Opnd) (sz : Size) : List Byte := toBytes sz.bytes (ofWords (s.rdSpan t d sz.regs))

/-- A store without a destination register. -/
def storeForm (o : AOrd) (n : Nat) (d : Opnd) (k : State → Thread → AKind) : MForm := ⟨o, .store, n, .z, 0, d.byte, fun s t _ => k s t, false⟩

/-! ## Loads and stores (R237), tagged words (R239 to R241) -/

def execLd (h : Gd) (d : Opnd) (m : MemArg) (sz : Size) (sx acq prom : Bool) (s : State) : Out :=
  gmem (.ld h d m sz sx acq prom) h ⟨memOrd m acq false prom, .load, sz.bytes, d, sz.regs, d.byte, fun _ _ d => .load d sz sx, false⟩
    false false false (memEa m) s
def execSt (h : Gd) (d : Opnd) (m : MemArg) (sz : Size) (rel : Bool) (s : State) : Out :=
  gmem (.st h d m sz rel) h (storeForm (memOrd m false rel false) sz.bytes d fun s t => .store (s.storeBytes t d sz)) false false false (memEa m) s
def execLdv (h : Gd) (d : Opnd) (m : MemArg) (sz : Size) (sx acq cr : Bool) (s : State) : Out :=
  vmem (.ldv h d m sz sx acq cr) h ⟨memOrd m acq false false, .load, sz.bytes, d, sz.regs, d.byte, fun _ _ d => .load d sz sx, false⟩
    false cr (memVa m) s
def execStv (h : Gd) (d : Opnd) (m : MemArg) (sz : Size) (rel cr : Bool) (s : State) : Out :=
  vmem (.stv h d m sz rel cr) h (storeForm (memOrd m false rel false) sz.bytes d fun s t => .store (s.storeBytes t d sz)) false cr (memVa m) s
def execLdt (h : Gd) (d : Opnd) (m : MemArg) (sz : Size) (take acq cr : Bool) (s : State) : Out :=
  vmem (.ldt h d m sz take acq cr) h ⟨memOrd m acq false false, .load, sz.bytes, d, sz.regs, d.byte, fun _ _ d => .ldt d sz take, false⟩
    true cr (memVa m) s
def execStt (h : Gd) (d : Opnd) (m : MemArg) (sz : Size) (rel cr : Bool) (s : State) : Out :=
  vmem (.stt h d m sz rel cr) h (storeForm (memOrd m false rel false) sz.bytes d fun s t => .stt (s.storeBytes t d sz)) true cr (memVa m) s
def execTagopEmpty (h : Gd) (m : MemArg) (sz : Size) (rel cr : Bool) (s : State) : Out :=
  vmem (.tagopEmpty h m sz rel cr) h (storeForm (memOrd m false rel false) sz.bytes .z fun _ _ => .tagop false) true cr (memVa m) s
def execTagopFull (h : Gd) (m : MemArg) (sz : Size) (rel cr : Bool) (s : State) : Out :=
  vmem (.tagopFull h m sz rel cr) h (storeForm (memOrd m false rel false) sz.bytes .z fun _ _ => .tagop true) true cr (memVa m) s

/-! ## Atomics (R244 to R247) -/

/-- The operation of an atomic, without the comparison operand. -/
def atomOp : AtOp → AOp
  | .add => .add | .and => .and | .or => .or | .xor => .xor | .minS => .minS | .minZ => .minZ | .maxS => .maxS | .maxZ => .maxZ
  | .xchg => .xchg | .cas _ => .cas | .inc => .inc | .dec => .dec | .fadd => .fadd | .fmin => .fmin | .fmax => .fmax

/-- The comparison operand of CAS; other operations have none. -/
def atomC : AtOp → Opnd
  | .cas c => c
  | _ => .z

def ordAcq : MOrd → Bool
  | .acquire => true | .acqrel => true | _ => false
def ordRel : MOrd → Bool
  | .release => true | .acqrel => true | _ => false

/-- An operand of one register or a pair as a number. -/
def State.opndNum (s : State) (t : Thread) (w64 : Bool) (o : Opnd) : Nat := if w64 then (s.rd2 t o).toNat else (s.rd t o).toNat

/-- The access of an atomic: a z destination counts as a store (R33). -/
def atomForm (x : AtomArg) : MForm where
  ord := ⟨x.stream.val, x.scope, ordAcq x.ord, ordRel x.ord, false⟩
  ctr := if x.d == .z then .store else .load
  n := if x.b64 then 8 else 4
  d := x.d
  regs := if x.b64 then 2 else 1
  dreg := x.d.byte
  kind := fun s t d => .atomic (atomOp x.op) d x.b64 (s.opndNum t x.b64 x.b) (s.opndNum t x.b64 (atomC x.op))
  waits := true

def execAtom (h : Gd) (x : AtomArg) (s : State) : Out :=
  gmem (.atom h x) h (atomForm x) true false false (fun s t => (s.rd2 t x.a).toNat) s
def execAtomv (h : Gd) (x : AtomArg) (cr : Bool) (s : State) : Out :=
  vmem (.atomv h x cr) h (atomForm x) true cr (fun s t => (s.rd t x.a).toNat) s

/-! ## The sampler path (R249 to R252) -/

def execLds (h : Gd) (d : Opnd) (m : MemArg) (sz : Size) (sx : Bool) (s : State) : Out :=
  gmem (.lds h d m sz sx) h ⟨memOrd m false false false, .load, sz.bytes, d, sz.regs, d.byte, fun _ _ d => .lds d sz sx, false⟩
    false true false (memEa m) s

/-- The line that a full sampler cache of 512 lines loses to a fill: one that no sampler read has touched, else, for the fill of a read,
the one filled first. Which it is the manual leaves open beyond R452's rule on touched lines (log 64). -/
def State.smpVictim (s : State) (c : CoreId) (touch : Bool) : Option (CoreId × Nat) :=
  match s.ms.smpLines.find? fun l => l.1 == c && !s.ms.smpUsed.contains l with
  | some l => some l
  | none => if touch then s.ms.smpLines.find? fun l => l.1 == c else none

/-- The sampler view of a core takes later writes for the bytes of a line, and the cache holds the line. -/
def State.putLine (s : State) (w : Who) (line : Nat) : State :=
  let xs := (List.range 128).map (128 * line + ·)
  let new := xs.map fun x => (w.core, x, Nat.max (s.samplerView w.core x) (s.latest (w.upTo .die) x))
  s.onMs fun m => { m with
    smp := (m.smp.filter fun e => !(e.1 == w.core && e.2.1 / 128 == line)) ++ new.filter fun e => e.2.2 != 0,
    smpLines := m.smpLines ++ [(w.core, line)] }

/-- A line leaves a sampler cache. -/
def State.dropLine (s : State) (l : CoreId × Nat) : State :=
  s.onMs fun m => { m with smpLines := m.smpLines.filter fun x => x != l, smpUsed := m.smpUsed.filter fun x => x != l }

/-- A fill of the sampler cache (R224, R452), by a sampler read, which touches the line, or by PREF.SMP, which evicts no touched
one. -/
def State.fillLine (s : State) (w : Who) (line : Nat) (touch : Bool) : State :=
  let held := s.ms.smpLines.contains (w.core, line)
  let full := decide (512 ≤ (s.ms.smpLines.filter fun l => l.1 == w.core).length)
  let s1 :=
    if held then s
    else if !full then s.putLine w line
    else match s.smpVictim w.core touch with
      | some l => (s.dropLine l).putLine w line
      | none => s
  if touch && !s.ms.smpUsed.contains (w.core, line) then s1.onMs fun m => { m with smpUsed := m.smpUsed ++ [(w.core, line)] } else s1

/-- The access of an SMP at a descriptor's address, as a thread would place it. -/
def smpAccess (t : Thread) (id stream : Nat) (k : AKind) (dreg a : Nat) : Access where
  id := id
  tid := t.id
  core := t.place.core
  vault := false
  stream := stream
  scope := .core
  acq := false
  rel := false
  prom := false
  kind := k
  ctr := .load
  pos := t.pos
  dreg := dreg
  parts := [APart.new 0 32 a]
  data := List.replicate 32 0
  bad := false
  withdrawn := false
  arrived := none
  promo := none

/-- Registers held for an SMP whose descriptor cannot be read yet: as many as a format may need and the operand allows. -/
def smpMost (budget : Nat) (d : Opnd) : Nat := ([4, 2].find? fun n => d.spanOk n && inBudget budget (d, n)).getD 1

/-- What the SMP of a thread finds in its descriptor: its channels, or the cause of a fault (R250). -/
def State.smpCheck (s : State) (t : Thread) (d : Opnd) (a : Nat) : Except Nat Nat :=
  if a % 32 != 0 then .error 0x02
  else match s.peekDesc t.xl t.who a with
    | none => .ok (smpMost t.place.budget d)
    | some v => match smpDesc v with
      | .error c => .error c
      | .ok f => let n := surfChans f.fmt; if d.spanOk n && inBudget t.place.budget (d, n) then .ok n else .error 0x02

/-- Waits of an SMP at issue: those of a load, its destination, and, since the descriptor decides whether it traps there, R215 for
the read of a descriptor that can be read (log 63). -/
def State.smpReady (s : State) (d a : Opnd) (stream : Nat) (t : Thread) : Bool :=
  let ea := (s.rd2 t a).toNat
  s.memReady .load true t && (!canonical ea || ea % 32 != 0 ||
    (((s.descAt t.xl ea).isNone || s.ordered (smpAccess t s.nextId stream .pref 0 ea)) && match s.smpCheck t d ea with
      | .ok n => !s.pending t (spanRefs (d, n))
      | .error _ => true))

/-- What an SMP asks. -/
def State.smpAsk (s : State) (i : Instr) (d a : Opnd) (stream : Nat) : Ask := { Ask.of (useOf i) with ready := s.smpReady d a stream }

/-- The read of a descriptor at issue, unless it is misaligned, fills its line (R452). -/
def State.smpFill (s : State) (t : Thread) (a : Nat) : State :=
  match if a % 32 = 0 then s.descAt t.xl a else none with
  | none => s
  | some pa => (s.fillTlb t.xl a).fillLine t.who (pa / 128) true

/-- SMP (R250): the descriptor's checks at issue, then one load through the sampler view. -/
def execSmp (h : Gd) (d a b : Opnd) (lin : Bool) (wrap : WrapMode) (norm : Bool) (stream : Fin 16) (s : State) : Out :=
  let at_ := fun (t : Thread) => (s.rd2 t a).toNat
  .next (s.issue h (s.smpAsk (.smp h d a b lin wrap norm stream) d a stream.val) fun ts s1 => ts.foldl (fun s' t =>
    if !canonical (at_ t) then s'.trapHere t 0x10 1 (at_ t) 0
    else match s.smpCheck t d (at_ t) with
      | .error c => (s'.smpFill t (at_ t)).trapHere t c 0 0 0
      | .ok n =>
        let dd := destOf ts t d
        let k := AKind.smp dd (s.rdReg t b 0) (s.rdReg t b 1) lin wrap norm (at_ t)
        (((s'.place t false ⟨stream.val, .core, false, false, false⟩ k .load d.byte [APart.new 0 32 (at_ t)]).hold t s'.nextId dd n).smpFill t (at_ t)).advance t.id) s1)

/-- FSAMP (R224, R252). -/
def execFsamp (h : Gd) (sc : Scope) (s : State) : Out :=
  .next (s.issue h (Ask.of (useOf (.fsamp h sc))) fun ts s1 => ts.foldl (fun s' t =>
    (s'.onThread t.id fun x => { x with out := { x.out with fsamp := x.out.fsamp ++ [(sc, s.nextId)] } }).advance t.id) s1)

/-! ## Fences and joins (R219, R220, R253 to R255) -/

/-- FENCE: a fresh token. -/
def execFence (h : Gd) (k : Fin 8) (sc : Scope) (scFence : Bool) (cover : Cover) (s : State) : Out :=
  .next (s.issue h (Ask.of (useOf (.fence h k sc scFence cover))) fun ts s1 => ts.foldl (fun s' t =>
    let f : Fence := ⟨s'.nextId, t.id, sc, scFence, cover, s.nextId, t.obs⟩
    ((({ s' with nextId := s'.nextId + 1 }).onMs fun m => { m with fences := m.fences ++ [f] }).wrK t.id k.val (some (.fence f.id))).advance t.id) s1)

/-- FWAIT: waits for the fence of a token, and leaves the register without one. -/
def execFwait (h : Gd) (k : Fin 8) (s : State) : Out :=
  .next (s.issue h (Ask.of (useOf (.fwait h k))) fun ts s1 => ts.foldl (fun s' t =>
    match t.regs.getK k.val with
    | some (.fence f) => (s'.wrK t.id k.val none).waitOn t.id (.fence f)
    | _ => s'.trapHere t 0x02 0 0 0) s1)

/-- FJOIN. -/
def execFjoin (h : Gd) (mask : BitVec 16) (s : State) : Out :=
  .next (s.issue h (Ask.of (useOf (.fjoin h mask))) fun ts s1 => ts.foldl (fun s' t =>
    (s'.onThread t.id fun x => { x with out := { x.out with joins := x.out.joins ++ [(mask, s.nextId)] } }).advance t.id) s1)

/-! ## Cache control (R256 to R258) -/

/-- PREF (R256): the memory side of what it asks of the caches. It may bring nothing; here PREF.L1 and PREF.EXCL ask the home slice for
the line's blocks, PREF.L2 fills the line of the home die's slice, and PREF.SMP fills the sampler cache later, in a step of its
own (R224). A fault of translation drops it. -/
def State.prefetch (s : State) (t : Thread) (tgt : PrefTgt) (ea : Nat) : State :=
  match s.translate t.xl .read ea with
  | .error _ => s.fillTlb t.xl ea
  | .ok pa =>
    let s1 := s.fillTlb t.xl ea
    let c := t.place.core
    let line := pa / 128
    if s.goesHome t.xl ea pa || s.lost pa != 0 then s1
    else match tgt with
      | .l2 => s1.l2Fill (s.homeDie pa) line (s.waysFor c)
      | .smp => s1
      | _ => [2 * line, 2 * line + 1].foldl (fun (s' : State) b =>
          if s'.asking c b || (s'.l1Of c b).any (fun x => tgt == .l1 || x.takesWrites) then s' else s'.ask c b (tgt == .excl)) s1

/-- PREF: a prefetch into the sampler cache waits for its fill; others act at once. -/
def execPref (h : Gd) (a : Opnd) (ofs : BitVec 19) (tgt : PrefTgt) (s : State) : Out :=
  .next (s.issue h (s.memAsk (.pref h a ofs tgt) .none false false) fun ts s1 => ts.foldl (fun s' t =>
    let ea := eaOf (s.rd2 t a).toNat ofs
    if !canonical ea then s'.trapHere t 0x10 1 ea 0
    else
      (if tgt == .smp then s'.place t false ⟨15, .core, false, false, false⟩ .pref .none 0 [APart.new 0 1 ea]
        else s'.prefetch t tgt ea).advance t.id) s1)

/-- The access of an instruction that steers a cache: one byte of the line (R257, R258). -/
def cacheForm (o : AOrd) (op : CacheOp) : MForm := storeForm o 1 .z fun _ _ => .cache op

def execCwb (h : Gd) (m : MemArg) (inv : Bool) (s : State) : Out :=
  gmem (.cwb h m inv) h (cacheForm (memOrd m false false false) (.wb inv)) false false false (memEa m) s
def execCinvIcache (h : Gd) (a : Opnd) (ofs : BitVec 19) (s : State) : Out :=
  gmem (.cinvIcache h a ofs) h (cacheForm ⟨15, .core, false, false, false⟩ .icache) false false true
    (fun s t => eaOf (s.rd2 t a).toNat ofs) s
def execCinvDiscard (h : Gd) (a : Opnd) (ofs : BitVec 19) (s : State) : Out :=
  gmem (.cinvDiscard h a ofs) h (cacheForm ⟨15, .core, false, false, false⟩ .discard) false false true
    (fun s t => eaOf (s.rd2 t a).toNat ofs) s

end Sys2Proof.Machine
end

