-- ==== Sys2Proof/Machine/Flags.lean ====
section
/-!
DEFINITION. The sticky flags as results carry them (R72 to R74): a result is words and the flags that its computation
raises; FLAGS reads as a word whose bits [31:5] are zero.
-/
namespace Sys2Proof.Machine

/-- The value and flags of one thread's result. -/
structure Res where
  words : List Word
  flags : Flags
  deriving DecidableEq, Repr

/-- A 32-bit result without flags. -/
def Res.w (x : Word) : Res := ⟨[x], 0⟩
/-- A 64-bit result without flags. -/
def Res.d (x : Dword) : Res := ⟨toWords 2 x.toNat, 0⟩
/-- A pattern of n registers with its flags. -/
def Res.fp (n : Nat) (r : Nat × Flags) : Res := ⟨toWords n r.1, r.2⟩

/-- FLAGS as SRD reads it (R72). -/
def flagsWord (f : BitVec 5) : Word := f.setWidth 32

/-- The clearing form of SRD FLAGS (R74). -/
def Regs.clearFlags (r : Regs) : Regs := { r with flags := 0 }

end Sys2Proof.Machine
end

