-- ==== Sys2Proof/Machine/Alu.lean ====
section
/-!
DEFINITION. The ALU class without floating point and cross-lane work: integer, logic, bit, 64-bit, compare, predicate and
move instructions (R81 to R96).
-/
namespace Sys2Proof.Machine

/-! ## The shape of an ALU instruction -/

/-- The threads that execute take their results, computed from the state before the issue (R39), and go on. -/
def aluBody (d : Opnd) (f : State → Thread → Res) (s0 : State) (ts : List Thread) (s : State) : State :=
  ts.foldl (fun s' t => ((s'.advance t.id).wrSpan t (isLead ts t) d (f s0 t).words).addFlags t.id (f s0 t).flags) s

/-- An ALU instruction with a register destination (R81, R83). -/
def alu (i : Instr) (h : Gd) (d : Opnd) (f : State → Thread → Res) (s : State) : Out :=
  .next (s.issue h (Ask.of (useOf i)) (aluBody d f s))

/-- A 32-bit function of one, two or three 32-bit operands. -/
def alu1 (i : Instr) (h : Gd) (d a : Opnd) (f : Word → Word) (s : State) : Out := alu i h d (fun s t => .w (f (s.rd t a))) s
def alu2 (i : Instr) (h : Gd) (d a b : Opnd) (f : Word → Word → Word) (s : State) : Out :=
  alu i h d (fun s t => .w (f (s.rd t a) (s.rd t b))) s
def alu3 (i : Instr) (h : Gd) (d a b c : Opnd) (f : Word → Word → Word → Word) (s : State) : Out :=
  alu i h d (fun s t => .w (f (s.rd t a) (s.rd t b) (s.rd t c))) s

/-! ## Integer arithmetic (R86, R87) -/

/-- An exact sum under a saturation mode. -/
def satTo (m : SatMode) (x : Int) : Word :=
  match m with
  | .wrap => BitVec.ofInt 32 x
  | .ssat => BitVec.ofInt 32 (clampInt x (-2 ^ 31) (2 ^ 31 - 1))
  | .usat => BitVec.ofInt 32 (clampInt x 0 (2 ^ 32 - 1))

/-- A word read as the saturation mode reads it. -/
def satRead (m : SatMode) (x : Word) : Int :=
  match m with
  | .usat => (x.toNat : Int)
  | _ => x.toInt

/-- A word read signed or unsigned. -/
def readInt (uns : Bool) (x : Word) : Int := if uns then (x.toNat : Int) else x.toInt

def addSat (m : SatMode) (a b : Word) : Word := satTo m (satRead m a + satRead m b)
def subSat (m : SatMode) (a b : Word) : Word := satTo m (satRead m a - satRead m b)
def mulHigh (uns : Bool) (a b : Word) : Word := BitVec.ofInt 32 (readInt uns a * readInt uns b / 2 ^ 32)
def madWide (uns : Bool) (a b : Word) (c : Dword) : Dword := BitVec.ofInt 64 (readInt uns a * readInt uns b + c.toNat)
/-- Quotient toward zero, with the corners of R87. -/
def divInt (uns : Bool) (a b : Word) : Word := if b = 0 then 0xFFFFFFFF else BitVec.ofInt 32 ((readInt uns a).tdiv (readInt uns b))
def remInt (uns : Bool) (a b : Word) : Word := if b = 0 then a else BitVec.ofInt 32 ((readInt uns a).tmod (readInt uns b))
/-- |A| and −A, of which only −2^31 does not fit. -/
def negSat (sat : Bool) (x : Word) : Word := if sat && x == 0x80000000 then 0x7FFFFFFF else -x
def absSat (sat : Bool) (x : Word) : Word := if x.toInt < 0 then negSat sat x else x
def minInt (uns : Bool) (a b : Word) : Word := if readInt uns b < readInt uns a then b else a
def maxInt (uns : Bool) (a b : Word) : Word := if readInt uns a < readInt uns b then b else a
def clampWord (uns : Bool) (a b c : Word) : Word := minInt uns (maxInt uns a b) c

def execNop (h : Gd) (s : State) : Out := alu (.nop h) h .z (fun _ _ => ⟨[], 0⟩) s
def execIadd (h : Gd) (d a b : Opnd) (sat : SatMode) (s : State) : Out := alu2 (.iadd h d a b sat) h d a b (addSat sat) s
def execIaddI (h : Gd) (d a : Opnd) (imm : Word) (s : State) : Out := alu1 (.iaddI h d a imm) h d a (addSat .wrap · imm) s
def execIsub (h : Gd) (d a b : Opnd) (sat : SatMode) (s : State) : Out := alu2 (.isub h d a b sat) h d a b (subSat sat) s
def execIsubI (h : Gd) (d a : Opnd) (imm : Word) (s : State) : Out := alu1 (.isubI h d a imm) h d a (subSat .wrap · imm) s
def execImul (h : Gd) (d a b : Opnd) (s : State) : Out := alu2 (.imul h d a b) h d a b (· * ·) s
def execImulI (h : Gd) (d a : Opnd) (imm : Word) (s : State) : Out := alu1 (.imulI h d a imm) h d a (· * imm) s
def execImulh (h : Gd) (d a b : Opnd) (uns : Bool) (s : State) : Out := alu2 (.imulh h d a b uns) h d a b (mulHigh uns) s
def execImad (h : Gd) (d a b c : Opnd) (s : State) : Out := alu3 (.imad h d a b c) h d a b c (fun a b c => a * b + c) s
def execImadw (h : Gd) (d a b c : Opnd) (uns : Bool) (s : State) : Out :=
  alu (.imadw h d a b c uns) h d (fun s t => .d (madWide uns (s.rd t a) (s.rd t b) (s.rd2 t c))) s
def execIdiv (h : Gd) (d a b : Opnd) (uns : Bool) (s : State) : Out := alu2 (.idiv h d a b uns) h d a b (divInt uns) s
def execIrem (h : Gd) (d a b : Opnd) (uns : Bool) (s : State) : Out := alu2 (.irem h d a b uns) h d a b (remInt uns) s
def execIabs (h : Gd) (d a : Opnd) (sat : Bool) (s : State) : Out := alu1 (.iabs h d a sat) h d a (absSat sat) s
def execIneg (h : Gd) (d a : Opnd) (sat : Bool) (s : State) : Out := alu1 (.ineg h d a sat) h d a (negSat sat) s
def execImin (h : Gd) (d a b : Opnd) (uns : Bool) (s : State) : Out := alu2 (.imin h d a b uns) h d a b (minInt uns) s
def execIminI (h : Gd) (d a : Opnd) (imm : Word) (s : State) : Out := alu1 (.iminI h d a imm) h d a (minInt false · imm) s
def execImax (h : Gd) (d a b : Opnd) (uns : Bool) (s : State) : Out := alu2 (.imax h d a b uns) h d a b (maxInt uns) s
def execImaxI (h : Gd) (d a : Opnd) (imm : Word) (s : State) : Out := alu1 (.imaxI h d a imm) h d a (maxInt false · imm) s
def execIclamp (h : Gd) (d a b c : Opnd) (uns : Bool) (s : State) : Out := alu3 (.iclamp h d a b c uns) h d a b c (clampWord uns) s

/-! ## Logic and bits (R88 to R90) -/

/-- LUT bit by bit, A least significant (R88). -/
def lop3Word (lut : Byte) (a b c : Word) : Word :=
  (List.range 32).foldl (fun (r : Word) i =>
    let n := (a.getLsbD i).toNat + 2 * (b.getLsbD i).toNat + 4 * (c.getLsbD i).toNat
    if lut.getLsbD n then r ||| (1#32 <<< i) else r) 0
def shlWord (a n : Word) : Word := if 32 ≤ n.toNat then 0 else a <<< n.toNat
def shrWord (sg : Bool) (a n : Word) : Word :=
  if sg then a.sshiftRight (if 32 ≤ n.toNat then 32 else n.toNat) else if 32 ≤ n.toNat then 0 else a >>> n.toNat
def rotWord (rt : Bool) (a n : Word) : Word := if rt then a.rotateRight (n.toNat % 32) else a.rotateLeft (n.toNat % 32)
/-- Funnel shift of {B, A}. -/
def shfWord (rt : Bool) (a b c : Word) : Word :=
  let x : Dword := b ++ a
  let n := c.toNat % 64
  if rt then (x >>> n).setWidth 32 else ((x <<< n) >>> 32).setWidth 32
/-- BFE (R89). -/
def bfeWord (sg : Bool) (a b : Word) : Word :=
  let pos := bitsOf b.toNat 7 0
  let len := min (bitsOf b.toNat 15 8) 32
  if len = 0 then 0
  else
    let x : Int := if sg then a.toInt else a.toNat
    let f := (x / 2 ^ pos % 2 ^ len).toNat
    if sg then BitVec.ofInt 32 (signExtend f len) else BitVec.ofNat 32 f
/-- BFI (R89). -/
def bfiWord (a b c : Word) : Word :=
  let pos := bitsOf b.toNat 7 0
  let len := min (bitsOf b.toNat 15 8) 32
  let m := BitVec.ofNat 32 ((2 ^ len - 1) * 2 ^ pos)
  (c &&& ~~~m) ||| (BitVec.ofNat 32 (a.toNat * 2 ^ pos) &&& m)
/-- PERM (R90). -/
def permWord (a b c : Word) : Word :=
  let y := a.toNat + 2 ^ 32 * b.toNat
  (List.range 4).foldl (fun (r : Word) i =>
    let n := bitsOf c.toNat (4 * i + 3) (4 * i)
    let x := bitsOf y (8 * (n % 8) + 7) (8 * (n % 8))
    r ||| BitVec.ofNat 32 ((if 8 ≤ n then (if 128 ≤ x then 255 else 0) else x) * 2 ^ (8 * i))) 0

def execAndB (h : Gd) (d a b : Opnd) (s : State) : Out := alu2 (.andB h d a b) h d a b (· &&& ·) s
def execAndI (h : Gd) (d a : Opnd) (imm : Word) (s : State) : Out := alu1 (.andI h d a imm) h d a (· &&& imm) s
def execOrB (h : Gd) (d a b : Opnd) (s : State) : Out := alu2 (.orB h d a b) h d a b (· ||| ·) s
def execOrI (h : Gd) (d a : Opnd) (imm : Word) (s : State) : Out := alu1 (.orI h d a imm) h d a (· ||| imm) s
def execXorB (h : Gd) (d a b : Opnd) (s : State) : Out := alu2 (.xorB h d a b) h d a b (· ^^^ ·) s
def execXorI (h : Gd) (d a : Opnd) (imm : Word) (s : State) : Out := alu1 (.xorI h d a imm) h d a (· ^^^ imm) s
def execAndnB (h : Gd) (d a b : Opnd) (s : State) : Out := alu2 (.andnB h d a b) h d a b (fun a b => a &&& ~~~b) s
def execAndnI (h : Gd) (d a : Opnd) (imm : Word) (s : State) : Out := alu1 (.andnI h d a imm) h d a (· &&& ~~~imm) s
def execLop3 (h : Gd) (d a b c : Opnd) (lut : Byte) (s : State) : Out := alu3 (.lop3 h d a b c lut) h d a b c (lop3Word lut) s
def execShl (h : Gd) (d a b : Opnd) (s : State) : Out := alu2 (.shl h d a b) h d a b shlWord s
def execShlI (h : Gd) (d a : Opnd) (imm : Word) (s : State) : Out := alu1 (.shlI h d a imm) h d a (shlWord · imm) s
def execShr (h : Gd) (d a b : Opnd) (sg : Bool) (s : State) : Out := alu2 (.shr h d a b sg) h d a b (shrWord sg) s
def execShrI (h : Gd) (d a : Opnd) (imm : Word) (s : State) : Out := alu1 (.shrI h d a imm) h d a (shrWord false · imm) s
def execRot (h : Gd) (d a b : Opnd) (rt : Bool) (s : State) : Out := alu2 (.rot h d a b rt) h d a b (rotWord rt) s
def execRotI (h : Gd) (d a : Opnd) (imm : Word) (s : State) : Out := alu1 (.rotI h d a imm) h d a (rotWord false · imm) s
def execShf (h : Gd) (d a b c : Opnd) (rt : Bool) (s : State) : Out := alu3 (.shf h d a b c rt) h d a b c (shfWord rt) s
def execBfe (h : Gd) (d a b : Opnd) (sg : Bool) (s : State) : Out := alu2 (.bfe h d a b sg) h d a b (bfeWord sg) s
def execBfi (h : Gd) (d a b c : Opnd) (s : State) : Out := alu3 (.bfi h d a b c) h d a b c bfiWord s
def execPopc (h : Gd) (d a : Opnd) (s : State) : Out := alu1 (.popc h d a) h d a (fun x => BitVec.ofNat 32 (popCount 32 x.toNat)) s
def execClz (h : Gd) (d a : Opnd) (s : State) : Out := alu1 (.clz h d a) h d a (fun x => BitVec.ofNat 32 (32 - bitLen 32 x.toNat)) s
def execCtz (h : Gd) (d a : Opnd) (s : State) : Out := alu1 (.ctz h d a) h d a (fun x => BitVec.ofNat 32 (trailZeros 32 x.toNat)) s
def execBrev (h : Gd) (d a : Opnd) (s : State) : Out := alu1 (.brev h d a) h d a (fun x => BitVec.ofNat 32 (revBits 32 x.toNat)) s
def execPerm (h : Gd) (d a b c : Opnd) (s : State) : Out := alu3 (.perm h d a b c) h d a b c permWord s

/-! ## 64-bit (R91) -/

def shl64Word (a : Dword) (n : Word) : Dword := if 64 ≤ n.toNat then 0 else a <<< n.toNat
def shr64Word (sg : Bool) (a : Dword) (n : Word) : Dword :=
  if sg then a.sshiftRight (if 64 ≤ n.toNat then 64 else n.toNat) else if 64 ≤ n.toNat then 0 else a >>> n.toNat
def leaWord (sh : Nat) (sg : Bool) (a : Dword) (b : Word) : Dword := a + ((if sg then b.signExtend 64 else b.setWidth 64) <<< sh)

def execIadd64 (h : Gd) (d a b : Opnd) (s : State) : Out := alu (.iadd64 h d a b) h d (fun s t => .d (s.rd2 t a + s.rd2 t b)) s
def execIadd64I (h : Gd) (d a : Opnd) (imm : Word) (s : State) : Out :=
  alu (.iadd64I h d a imm) h d (fun s t => .d (s.rd2 t a + imm.signExtend 64)) s
def execIsub64 (h : Gd) (d a b : Opnd) (s : State) : Out := alu (.isub64 h d a b) h d (fun s t => .d (s.rd2 t a - s.rd2 t b)) s
def execImad64 (h : Gd) (d a b c : Opnd) (s : State) : Out :=
  alu (.imad64 h d a b c) h d (fun s t => .d (s.rd2 t a * s.rd2 t b + s.rd2 t c)) s
def execShl64 (h : Gd) (d a b : Opnd) (s : State) : Out :=
  alu (.shl64 h d a b) h d (fun s t => .d (shl64Word (s.rd2 t a) (s.rd t b))) s
def execShr64 (h : Gd) (d a b : Opnd) (sg : Bool) (s : State) : Out :=
  alu (.shr64 h d a b sg) h d (fun s t => .d (shr64Word sg (s.rd2 t a) (s.rd t b))) s
def execLea (h : Gd) (d a b : Opnd) (sh : Fin 8) (sg : Bool) (s : State) : Out :=
  alu (.lea h d a b sh sg) h d (fun s t => .d (leaWord sh.val sg (s.rd2 t a) (s.rd t b))) s

/-! ## Compares, select, predicates (R92 to R94) -/

/-- An integer condition. -/
def cmpInt (c : ICmp) (x y : Int) : Bool :=
  match c with
  | .eq => x == y
  | .ne => x != y
  | .lt => decide (x < y)
  | .le => decide (x ≤ y)
  | .gt => decide (y < x)
  | .ge => decide (y ≤ x)

/-- MERGE (R92): the new value of a predicate, from its own value and the result. -/
def mergeP (m : Merge) (old r : Bool) : Bool :=
  match m with
  | .set => r
  | .and => old && r
  | .or => old || r
  | .andn => old && !r

/-- A compare: the predicate D takes the merged result (R92). -/
def setp (i : Instr) (h : Gd) (p : Fin 8) (mg : Merge) (f : State → Thread → Bool × Flags) (s : State) : Out :=
  .next (s.issue h (Ask.of (useOf i)) fun ts s1 => ts.foldl (fun s' t =>
    ((s'.advance t.id).wrP t.id p.val (mergeP mg (t.regs.getP p.val) (f s t).1)).addFlags t.id (f s t).2) s1)

def execIsetp (h : Gd) (p : Fin 8) (a b : Opnd) (c : ICmp) (uns : Bool) (mg : Merge) (s : State) : Out :=
  setp (.isetp h p a b c uns mg) h p mg (fun s t => (cmpInt c (readInt uns (s.rd t a)) (readInt uns (s.rd t b)), 0)) s
def execFsetp (h : Gd) (p : Fin 8) (a b : Opnd) (c : FCmp) (mg : Merge) (s : State) : Out :=
  setp (.fsetp h p a b c mg) h p mg (fun s t => compareF c (fp32.decode (s.rd t a).toNat) (fp32.decode (s.rd t b).toNat)) s
def execDsetp (h : Gd) (p : Fin 8) (a b : Opnd) (c : FCmp) (mg : Merge) (s : State) : Out :=
  setp (.dsetp h p a b c mg) h p mg (fun s t => compareF c (fp64.decode (s.rd2 t a).toNat) (fp64.decode (s.rd2 t b).toNat)) s
def execSel (h : Gd) (d a b c : Opnd) (s : State) : Out := alu3 (.sel h d a b c) h d a b c (fun a b c => if c ≠ 0 then a else b) s
/-- PLOP (R94). -/
def execPlop (h : Gd) (d a b c : Fin 8) (lut : Byte) (s : State) : Out :=
  setp (.plop h d a b c lut) h d .set (fun _ t =>
    (lut.getLsbD ((t.regs.getP a.val).toNat + 2 * (t.regs.getP b.val).toNat + 4 * (t.regs.getP c.val).toNat), 0)) s
/-- P2V (R94): p7 contributes 1. -/
def execP2v (h : Gd) (d : Opnd) (s : State) : Out := alu (.p2v h d) h d (fun _ t => .w ((1#1 ++ t.regs.p).setWidth 32)) s
/-- V2P (R94). -/
def execV2p (h : Gd) (a : Opnd) (mask : BitVec 7) (s : State) : Out :=
  .next (s.issue h (Ask.of (useOf (.v2p h a mask))) fun ts s1 => ts.foldl (fun s' t =>
    (s'.advance t.id).onThread t.id fun x => { x with
      regs := { x.regs with p := (x.regs.p &&& ~~~mask) ||| ((s.rd t a).setWidth 7 &&& mask) } }) s1)

/-! ## Moves and special registers (R53, R54, R95, R96) -/

def execMov (h : Gd) (d a : Opnd) (b64 : Bool) (s : State) : Out :=
  alu (.mov h d a b64) h d (fun s t => ⟨s.rdSpan t a (if b64 then 2 else 1), 0⟩) s
def execMovi (h : Gd) (d : Opnd) (imm : Word) (s : State) : Out := alu (.movi h d imm) h d (fun _ _ => .w imm) s

/-- A special register other than the clock's high word (R53, R54). On a quay core those of the range TIDX to TEAMZ read as 0, by their
numbers 0x00 to 0x0A: LANE, QUAD, GRPW and GRPID among them (log 69). -/
def State.special (s : State) (t : Thread) (r : SrdReg) : Word :=
  let tm := (s.team t.place.team).getD (Team.none)
  let quay := decide (64 ≤ t.place.core.core)
  let w := fun (n : Nat) => BitVec.ofNat 32 n
  match r with
  | .tidx => w t.place.tx
  | .tidy => w t.place.ty
  | .tidz => w t.place.tz
  | .lane => w t.place.lane
  | .quad => w t.place.quad
  | .grpw => if quay then 0 else w tm.width
  | .grpid => w t.place.grpid
  | .teamx => w tm.tmx
  | .teamy => w tm.tmy
  | .teamz => w tm.tmz
  | .clusx => w tm.clx
  | .clusy => w tm.cly
  | .clusn => if quay then 1 else w ((pointRect t.place.clp).2.2.1 * (pointRect t.place.clp).2.2.2)
  | .gridx => w tm.gx
  | .gridy => w tm.gy
  | .gridz => w tm.gz
  | .core => w t.place.core.core
  | .die => w t.place.core.die
  | .stage => match tm.stage with
    | some n => w n
    | none => 0xFFFFFFFF
  | .clockl => s.clock.setWidth 32
  | .clockh => t.regs.clockh.getD ((s.clock >>> 32).setWidth 32)
  | .flags => flagsWord t.regs.flags
where
  /-- What a thread without a team reads: nothing of it is reached. -/
  Team.none : Team := ⟨0, 0, 0, 0, ⟨0, 0⟩, 0, [], 0, 0, 0, 0, 0, 0, 0, 0, 1, 1, 1, Option.none, 0, 1, 0, 0, 0, 0, [], false, false⟩

/-- What a read of the clock leaves in the thread (R54). -/
def Thread.latch (t : Thread) (r : SrdReg) (clock : Dword) : Thread :=
  match r with
  | .clockl => { t with regs := { t.regs with clockh := some ((clock >>> 32).setWidth 32) } }
  | .clockh => { t with regs := { t.regs with clockh := none } }
  | _ => t

/-- SRD (R53, R54, R96). -/
def execSrd (h : Gd) (d : Opnd) (r : SrdReg) (s : State) : Out :=
  .next (s.issue h (Ask.of (useOf (.srd h d r))) fun ts s1 =>
    aluBody d (fun s t => .w (s.special t r)) s ts (ts.foldl (fun s' t => s'.onThread t.id fun x => x.latch r s.clock) s1))

/-- SRD.CLR FLAGS (R74, R96): returns FLAGS and clears it in one step. -/
def execSrdClr (h : Gd) (d : Opnd) (s : State) : Out :=
  .next (s.issue h (Ask.of (useOf (.srdClr h d))) fun ts s1 =>
    aluBody d (fun _ t => .w (flagsWord t.regs.flags)) s ts
      (ts.foldl (fun s' t => s'.onThread t.id fun x => { x with regs := x.regs.clearFlags }) s1))

end Sys2Proof.Machine
end

