-- ==== Sys2Proof/Machine/Trans.lean ====
section
/-!
DEFINITION. The correctly rounded transcendentals of R102, and ExpR of 07_splat, by fixed-point series whose error
lies far below the closest approach of their values to a rounding boundary of FP32 (assumption log 12).
-/
namespace Sys2Proof

/-- Floor(ln 2 · 2^320). -/
def ln2Fix : Nat := 1480553391661173448385607439722553250922680800745876974795605978609098082859138712941075737848984
/-- Floor(π · 2^480). -/
def piFix : Nat := 9807262312027308209670433188918835507998242348779285001939787782752841194690228188362411542853276791620015003000463704887612936232611341761041845

/-- Sum of y^k/k! from term `t` with index k, in fixed point with P bits. -/
def expSeries (P y : Nat) : Nat → Nat → Nat → Nat
  | 0, _, _ => 0
  | n + 1, k, t => t + expSeries P y n (k + 1) (t * y / 2 ^ P / (k + 1))

/-- Alternating series of sine or cosine: term t with index k, y2 = y squared. -/
def trigSeries (P y2 : Nat) : Nat → Nat → Nat → Int
  | 0, _, _ => 0
  | n + 1, k, t => (t : Int) - trigSeries P y2 n (k + 2) (t * y2 / 2 ^ P / ((k + 1) * (k + 2)))

/-- 2^320 · exp(y / 2^320). -/
def expFix (y : Nat) : Nat := expSeries 320 y 90 0 (2 ^ 320)
/-- 2^480 · sin(π f / 2^480). -/
def sinFix (f : Nat) : Nat :=
  let y := f * piFix / 2 ^ 480
  (trigSeries 480 (y * y / 2 ^ 480) 60 1 y).toNat
/-- 2^480 · cos(π f / 2^480). -/
def cosFix (f : Nat) : Nat :=
  let y := f * piFix / 2 ^ 480
  (trigSeries 480 (y * y / 2 ^ 480) 60 0 (2 ^ 480)).toNat

/-- An inexact value between m and m + 1 in units of 2^e, rounded to FP32 to nearest. -/
def roundInexact (neg : Bool) (m : Nat) (e : Int) : Nat × Flags := roundTo fp32 .rn neg (2 * m + 1) (e - 1)

/-- m · 2^e in units of 2^-k, rounded down. -/
def fixFloor (m : Nat) (e : Int) (k : Nat) : Nat :=
  if 0 ≤ e + k then m * 2 ^ (e + k).toNat else m / 2 ^ (-(e + k)).toNat

/-- 2^x for x = (−1)^neg · m · 2^e (R102). -/
def exp2R (neg : Bool) (m : Nat) (e : Int) : Nat × Flags :=
  -- beyond 2^12 the result overflows, or underflows to zero
  if m = 0 then (repackF fp32 (.fin false 1 0), 0)
  else if (Nat.log2 m : Int) + e ≥ 12 then (if neg then roundInexact false 1 (-400) else roundTo fp32 .rn false 1 400)
  else
    let x := fixFloor m e 320
    let whole : Int := if neg then -((x + 2 ^ 320 - 1) / 2 ^ 320 : Nat) else (x / 2 ^ 320 : Nat)
    let f := if neg then (2 ^ 320 - x % 2 ^ 320) % 2 ^ 320 else x % 2 ^ 320
    if f = 0 then roundTo fp32 .rn false 1 whole
    else roundInexact false (expFix (f * ln2Fix / 2 ^ 320)) (whole - 320)

/-- e^x for x = (−1)^neg · m · 2^e with m not 0 (ExpR of 07_splat). -/
def expR (neg : Bool) (m : Nat) (e : Int) : Nat × Flags :=
  if (Nat.log2 m : Int) + e ≥ 12 then (if neg then roundInexact false 1 (-400) else roundTo fp32 .rn false 1 400)
  else
    let x := fixFloor m e 320
    let n := x / ln2Fix
    let r := x % ln2Fix
    if neg then
      if r = 0 then roundInexact false (2 ^ 320 - 1) (-(n : Int) - 320)
      else roundInexact false (expFix (ln2Fix - r)) (-(n : Int) - 1 - 320)
    else roundInexact false (expFix r) ((n : Int) - 320)

/-- Bits of log2 of y / 2^P, for y in [2^P, 2^(P+1)), by repeated squaring. -/
def log2Bits (P : Nat) : Nat → Nat → Nat → Nat
  | 0, _, acc => acc
  | n + 1, y, acc =>
    let z := y * y / 2 ^ P
    if z ≥ 2 ^ (P + 1) then log2Bits P n (z / 2) (2 * acc + 1) else log2Bits P n z (2 * acc)

/-- log2 of m · 2^e, m not 0 (R102). -/
def lg2R (m : Nat) (e : Int) : Nat × Flags :=
  let k := Nat.log2 m
  let whole : Int := e + k
  if m = 2 ^ k then ofIntF fp32 .rn whole
  else
    let l := log2Bits 512 160 (m * 2 ^ (512 - k)) 0
    let v : Int := whole * (2 ^ 160 : Nat) + l
    if 0 ≤ v then roundInexact false v.toNat (-160) else roundInexact true (-v - 1).toNat (-160)

/-- 1/√(m · 2^e), m not 0 (R102). -/
def rsqR (m : Nat) (e : Int) : Nat × Flags :=
  let m1 := if e % 2 = 0 then m else 2 * m
  let e1 := if e % 2 = 0 then e else e - 1
  let n := 2 ^ 240
  let r := isqrt (n / m1)
  roundTo fp32 .rn false (2 * r + (if r * r * m1 = n then 0 else 1)) (-120 - 1 - e1 / 2)

/-- sin(π r) or cos(π r) of a fraction r of [0, 2) in units of 2^-480: sign and value in [0, 1], none when exact. -/
def trigQuad (isCos : Bool) (r : Nat) : Bool × (Nat ⊕ Nat) :=
  let one := 2 ^ 480
  let half := 2 ^ 479
  -- cos(π r) = sin(π (r + 1/2))
  let s := if isCos then (r + half) % (2 * one) else r
  let neg := decide (one ≤ s)
  let u := s % one
  if u = 0 then (neg, .inl 0)
  else if u = half then (neg, .inl 1)
  else
    let w := if u < half then u else one - u
    (neg, .inr (if w ≤ half / 2 then sinFix w else cosFix (half - w)))

/-- sin(π a) or cos(π a) of a finite a (R102). -/
def trigR (isCos neg : Bool) (m : Nat) (e : Int) : Nat × Flags :=
  -- |a| mod 2 in units of 2^-480; every FP32 value is a multiple of 2^-149
  let r := if 2 ≤ e then 0 else m * 2 ^ (e + 480).toNat % 2 ^ 481
  let q := trigQuad isCos r
  match q.2 with
  | .inl 0 => (fp32.zero (!isCos && neg), 0)
  | .inl _ => (repackF fp32 (.fin (if isCos then q.1 else q.1 != neg) 1 0), 0)
  | .inr v => roundInexact (if isCos then q.1 else q.1 != neg) v (-480)

/-- FRCP (R102). -/
def frcpF (a : FV) : Nat × Flags := divF fp32 .rn (.fin false 1 0) a
/-- FRSQ (R102). -/
def frsqF (a : FV) : Nat × Flags :=
  match a with
  | .nan s => (fp32.qnan, flagIf s flagINV)
  | .inf true => (fp32.qnan, flagINV)
  | .inf false => (fp32.zero false, 0)
  | .fin n 0 _ => (fp32.infinity n, flagDZ)
  | .fin true _ _ => (fp32.qnan, flagINV)
  | .fin false m e => rsqR m e
/-- FEX2 (R102). -/
def fex2F (a : FV) : Nat × Flags :=
  match a with
  | .nan s => (fp32.qnan, flagIf s flagINV)
  | .inf true => (fp32.zero false, 0)
  | .inf false => (fp32.infinity false, 0)
  | .fin n m e => exp2R n m e
/-- FLG2 (R102). -/
def flg2F (a : FV) : Nat × Flags :=
  match a with
  | .nan s => (fp32.qnan, flagIf s flagINV)
  | .inf true => (fp32.qnan, flagINV)
  | .inf false => (fp32.infinity false, 0)
  | .fin _ 0 _ => (fp32.infinity true, flagDZ)
  | .fin true _ _ => (fp32.qnan, flagINV)
  | .fin false m e => lg2R m e
/-- FSINPI and FCOSPI (R102): INV of an infinity is no row of R73's table (log 79). -/
def trigPiF (isCos : Bool) (a : FV) : Nat × Flags :=
  match a with
  | .nan s => (fp32.qnan, flagIf s flagINV)
  | .inf _ => (fp32.qnan, flagINV)
  | .fin n m e => trigR isCos n m e
/-- ExpR of a pattern (07_splat): e^x rounded once, ExpR(−0) = 1; sets no flag. -/
def expRF (p : Nat) : Nat :=
  match fp32.decode p with
  | .nan _ => fp32.qnan
  | .inf true => 0
  | .inf false => fp32.infinity false
  | .fin _ 0 _ => repackF fp32 (.fin false 1 0)
  | .fin n m e => (expR n m e).1

end Sys2Proof
end

