-- ==== Sys2Proof/Machine/Fp.lean ====
section
/-!
DEFINITION. Floating point of the ALU class: FP32 and FP64 arithmetic, transcendentals, packed 16-bit arithmetic, the
byte dot product, conversions and the decoding of DX elements (R97 to R106, R108).
-/
namespace Sys2Proof.Machine

/-- An operand after its sign inversion (R97). -/
def negIf (n : Bool) (v : FV) : FV := if n then v.negate else v

/-- FP32 and FP64 operands. -/
def State.f32 (s : State) (t : Thread) (o : Opnd) : FV := fp32.decode (s.rd t o).toNat
def State.f64 (s : State) (t : Thread) (o : Opnd) : FV := fp64.decode (s.rd2 t o).toNat

/-- FP32 results of one and two operands, FP64 results of one and two. -/
def fpu1 (i : Instr) (h : Gd) (d a : Opnd) (f : FV → Nat × Flags) (s : State) : Out := alu i h d (fun s t => .fp 1 (f (s.f32 t a))) s
def fpu2 (i : Instr) (h : Gd) (d a b : Opnd) (f : FV → FV → Nat × Flags) (s : State) : Out :=
  alu i h d (fun s t => .fp 1 (f (s.f32 t a) (s.f32 t b))) s
def fpu3 (i : Instr) (h : Gd) (d a b c : Opnd) (f : FV → FV → FV → Nat × Flags) (s : State) : Out :=
  alu i h d (fun s t => .fp 1 (f (s.f32 t a) (s.f32 t b) (s.f32 t c))) s
def dpu1 (i : Instr) (h : Gd) (d a : Opnd) (f : FV → Nat × Flags) (s : State) : Out := alu i h d (fun s t => .fp 2 (f (s.f64 t a))) s
def dpu2 (i : Instr) (h : Gd) (d a b : Opnd) (f : FV → FV → Nat × Flags) (s : State) : Out :=
  alu i h d (fun s t => .fp 2 (f (s.f64 t a) (s.f64 t b))) s
def dpu3 (i : Instr) (h : Gd) (d a b c : Opnd) (f : FV → FV → FV → Nat × Flags) (s : State) : Out :=
  alu i h d (fun s t => .fp 2 (f (s.f64 t a) (s.f64 t b) (s.f64 t c))) s

/-! ## FP32 (R97 to R103) -/

def execFadd (h : Gd) (d a b : Opnd) (rm : RMode) (na nb : Bool) (s : State) : Out :=
  fpu2 (.fadd h d a b rm na nb) h d a b (fun x y => addF fp32 rm (negIf na x) (negIf nb y)) s
def execFmul (h : Gd) (d a b : Opnd) (rm : RMode) (na nb : Bool) (s : State) : Out :=
  fpu2 (.fmul h d a b rm na nb) h d a b (fun x y => mulF fp32 rm (negIf na x) (negIf nb y)) s
def execFfma (h : Gd) (d a b c : Opnd) (rm : RMode) (na nb nc : Bool) (s : State) : Out :=
  fpu3 (.ffma h d a b c rm na nb nc) h d a b c (fun x y z => fmaF fp32 rm (negIf na x) (negIf nb y) (negIf nc z)) s
def execFmin (h : Gd) (d a b : Opnd) (s : State) : Out := fpu2 (.fmin h d a b) h d a b (minMaxF fp32 false) s
def execFmax (h : Gd) (d a b : Opnd) (s : State) : Out := fpu2 (.fmax h d a b) h d a b (minMaxF fp32 true) s
def execFrnd (h : Gd) (d a : Opnd) (rm : RMode) (x : Bool) (s : State) : Out := fpu1 (.frnd h d a rm x) h d a (rndIntF fp32 rm x) s
def execFdiv (h : Gd) (d a b : Opnd) (rm : RMode) (s : State) : Out := fpu2 (.fdiv h d a b rm) h d a b (divF fp32 rm) s
def execFsqrt (h : Gd) (d a : Opnd) (rm : RMode) (s : State) : Out := fpu1 (.fsqrt h d a rm) h d a (sqrtF fp32 rm) s
def execFrsq (h : Gd) (d a : Opnd) (s : State) : Out := fpu1 (.frsq h d a) h d a frsqF s
def execFrcp (h : Gd) (d a : Opnd) (s : State) : Out := fpu1 (.frcp h d a) h d a frcpF s
def execFex2 (h : Gd) (d a : Opnd) (s : State) : Out := fpu1 (.fex2 h d a) h d a fex2F s
def execFlg2 (h : Gd) (d a : Opnd) (s : State) : Out := fpu1 (.flg2 h d a) h d a flg2F s
def execFsinpi (h : Gd) (d a : Opnd) (s : State) : Out := fpu1 (.fsinpi h d a) h d a (trigPiF false) s
def execFcospi (h : Gd) (d a : Opnd) (s : State) : Out := fpu1 (.fcospi h d a) h d a (trigPiF true) s
def execFclass (h : Gd) (d a : Opnd) (s : State) : Out :=
  alu1 (.fclass h d a) h d a (fun x => BitVec.ofNat 32 (classF fp32 x.toNat)) s
def execFscale (h : Gd) (d a b : Opnd) (rm : RMode) (s : State) : Out :=
  alu (.fscale h d a b rm) h d (fun s t => .fp 1 (scaleF fp32 rm (s.f32 t a) (s.rd t b).toInt)) s

/-! ## FP64 (R97 to R99) -/

def execDadd (h : Gd) (d a b : Opnd) (rm : RMode) (na nb : Bool) (s : State) : Out :=
  dpu2 (.dadd h d a b rm na nb) h d a b (fun x y => addF fp64 rm (negIf na x) (negIf nb y)) s
def execDmul (h : Gd) (d a b : Opnd) (rm : RMode) (na nb : Bool) (s : State) : Out :=
  dpu2 (.dmul h d a b rm na nb) h d a b (fun x y => mulF fp64 rm (negIf na x) (negIf nb y)) s
def execDfma (h : Gd) (d a b c : Opnd) (rm : RMode) (na nb nc : Bool) (s : State) : Out :=
  dpu3 (.dfma h d a b c rm na nb nc) h d a b c (fun x y z => fmaF fp64 rm (negIf na x) (negIf nb y) (negIf nc z)) s
def execDmin (h : Gd) (d a b : Opnd) (s : State) : Out := dpu2 (.dmin h d a b) h d a b (minMaxF fp64 false) s
def execDmax (h : Gd) (d a b : Opnd) (s : State) : Out := dpu2 (.dmax h d a b) h d a b (minMaxF fp64 true) s
def execDdiv (h : Gd) (d a b : Opnd) (rm : RMode) (s : State) : Out := dpu2 (.ddiv h d a b rm) h d a b (divF fp64 rm) s
def execDsqrt (h : Gd) (d a : Opnd) (rm : RMode) (s : State) : Out := dpu1 (.dsqrt h d a rm) h d a (sqrtF fp64 rm) s

/-! ## Packed 16-bit arithmetic (R62, R104) -/

/-- Element e of a packed operand. -/
def packed (F : Fmt) (x : Word) (e : Nat) : FV := F.decode (bitsOf x.toNat (16 * e + 15) (16 * e))

/-- Two elements with the flags of both. -/
def pack2 (f : Nat → Nat × Flags) : Res :=
  ⟨[BitVec.ofNat 32 ((f 0).1 + (f 1).1 * 2 ^ 16)], (f 0).2 ||| (f 1).2⟩

/-- Packed instructions of two and three operands. -/
def packed2 (F : Fmt) (i : Instr) (h : Gd) (d a b : Opnd) (f : FV → FV → Nat × Flags) (s : State) : Out :=
  alu i h d (fun s t => pack2 fun e => f (packed F (s.rd t a) e) (packed F (s.rd t b) e)) s
def packed3 (F : Fmt) (i : Instr) (h : Gd) (d a b c : Opnd) (f : FV → FV → FV → Nat × Flags) (s : State) : Out :=
  alu i h d (fun s t => pack2 fun e => f (packed F (s.rd t a) e) (packed F (s.rd t b) e) (packed F (s.rd t c) e)) s

def execHadd2 (h : Gd) (d a b : Opnd) (na nb : Bool) (s : State) : Out :=
  packed2 fp16 (.hadd2 h d a b na nb) h d a b (fun x y => addF fp16 .rn (negIf na x) (negIf nb y)) s
def execHmul2 (h : Gd) (d a b : Opnd) (na nb : Bool) (s : State) : Out :=
  packed2 fp16 (.hmul2 h d a b na nb) h d a b (fun x y => mulF fp16 .rn (negIf na x) (negIf nb y)) s
def execHfma2 (h : Gd) (d a b c : Opnd) (na nb nc : Bool) (s : State) : Out :=
  packed3 fp16 (.hfma2 h d a b c na nb nc) h d a b c (fun x y z => fmaF fp16 .rn (negIf na x) (negIf nb y) (negIf nc z)) s
def execHmin2 (h : Gd) (d a b : Opnd) (s : State) : Out := packed2 fp16 (.hmin2 h d a b) h d a b (minMaxF fp16 false) s
def execHmax2 (h : Gd) (d a b : Opnd) (s : State) : Out := packed2 fp16 (.hmax2 h d a b) h d a b (minMaxF fp16 true) s
def execBfma2 (h : Gd) (d a b c : Opnd) (na nb nc : Bool) (s : State) : Out :=
  packed3 bf16 (.bfma2 h d a b c na nb nc) h d a b c (fun x y z => fmaF bf16 .rn (negIf na x) (negIf nb y) (negIf nc z)) s
def execBadd2 (h : Gd) (d a b : Opnd) (na nb : Bool) (s : State) : Out :=
  packed2 bf16 (.badd2 h d a b na nb) h d a b (fun x y => addF bf16 .rn (negIf na x) (negIf nb y)) s
def execBmul2 (h : Gd) (d a b : Opnd) (na nb : Bool) (s : State) : Out :=
  packed2 bf16 (.bmul2 h d a b na nb) h d a b (fun x y => mulF bf16 .rn (negIf na x) (negIf nb y)) s

/-! ## IDOT4 (R105) -/

/-- Byte i of a word, unsigned or signed. -/
def byteInt (uns : Bool) (x : Word) (i : Nat) : Int :=
  let b := bitsOf x.toNat (8 * i + 7) (8 * i)
  if uns then (b : Int) else signExtend b 8

def dot4 (ua ub sat : Bool) (a b c : Word) : Word :=
  let x := (List.range 4).foldl (fun x i => x + byteInt ua a i * byteInt ub b i) c.toInt
  satTo (if sat then .ssat else .wrap) x

def execIdot4 (h : Gd) (d a b c : Opnd) (ua ub sat : Bool) (s : State) : Out :=
  alu3 (.idot4 h d a b c ua ub sat) h d a b c (dot4 ua ub sat) s

/-! ## CVT (R75, R106) -/

/-- An integer type's width and whether it is unsigned; none for a float. -/
def cvtInt : CvtTy → Option (Nat × Bool)
  | .s8 => some (8, false) | .z8 => some (8, true) | .s16 => some (16, false) | .z16 => some (16, true)
  | .s32 => some (32, false) | .z32 => some (32, true) | .s64 => some (64, false) | .z64 => some (64, true)
  | _ => none

/-- A float type's format; FP32 for the integers, which never use it. -/
def cvtFmt : CvtTy → Fmt
  | .f16 => fp16 | .bf16 => bf16 | .f64 => fp64 | .w48 => Sys2Proof.w48 | _ => fp32

/-- Bits of a type. -/
def cvtBits : CvtTy → Nat
  | .s8 => 8 | .z8 => 8 | .s16 => 16 | .z16 => 16 | .f16 => 16 | .bf16 => 16 | .s32 => 32 | .z32 => 32 | .f32 => 32 | .w48 => 48 | _ => 64

/-- The pattern of a source of CVT in its register or pair. -/
def cvtSource (src : CvtTy) (elem : Nat) (x : Dword) : Nat := x.toNat / 2 ^ (if src.elems = 1 then 0 else cvtBits src * elem) % 2 ^ (cvtBits src)

/-- Lowest and highest value of an integer type. -/
def intRange (w : Nat) (uns : Bool) : Int × Int := if uns then (0, 2 ^ w - 1) else (-2 ^ (w - 1), 2 ^ (w - 1) - 1)

/-- An integer written as a destination type of w bits in its register or pair: extended by sign or zero. -/
def intResult (dst : CvtTy) (w : Nat) (uns : Bool) (x : Int) : List Word :=
  let y : Int := if uns then ((wrapInt x w : Nat) : Int) else signExtend (wrapInt x w) w
  toWords dst.regs (wrapInt y 64)

/-- The result of a conversion. -/
def cvt (rm : RMode) (dst src : CvtTy) (elem : Nat) (x : Dword) : Res :=
  let p := cvtSource src elem x
  match cvtInt src, cvtInt dst with
  | some (w, uns), some (w', uns') => ⟨intResult dst w' uns' (if uns then (p : Int) else signExtend p w), 0⟩
  | some (w, uns), none => .fp dst.regs (ofIntF (cvtFmt dst) rm (if uns then (p : Int) else signExtend p w))
  | none, some (w', uns') =>
    let r := toIntF rm (intRange w' uns').1 (intRange w' uns').2 ((cvtFmt src).decode p)
    ⟨intResult dst w' uns' r.1, r.2⟩
  | none, none => .fp dst.regs (cvtFF (cvtFmt dst) rm ((cvtFmt src).decode p))

def execCvt (h : Gd) (d a : Opnd) (rm : RMode) (dst src : CvtTy) (elem : Fin 4) (s : State) : Out :=
  alu (.cvt h d a rm dst src elem) h d (fun s t =>
    cvt rm dst src elem.val (if src.regs = 2 then s.rd2 t a else (s.rd t a).setWidth 64)) s

/-! ## DXUNPK (R108) -/

/-- The FP32 value of a DX element; a reserved code or exponent gives the canonical NaN and INV. -/
def dxUnpack (dx4 hi : Bool) (a b : Word) : Nat × Flags :=
  let code := if dx4 then (if hi then bitsOf a.toNat 7 4 else bitsOf a.toNat 3 0) else bitsOf a.toNat 7 0
  cvtFF fp32 .rn (dxDecode dx4 (bitsOf b.toNat 23 16) (bitsOf b.toNat 31 24) code)

def execDxunpk (h : Gd) (d a b : Opnd) (dx4 hi : Bool) (s : State) : Out :=
  alu (.dxunpk h d a b dx4 hi) h d (fun s t => .fp 1 (dxUnpack dx4 hi (s.rd t a) (s.rd t b))) s

end Sys2Proof.Machine
end

