-- ==== Sys2Proof/Machine/Cross.lean ====
section
/-!
DEFINITION. Cross-lane instructions (R107, R109 to R113): an issue records the arrival of each member, active or with its
guard false; CROSS_LANE_COMPLETION ends the waits of members whose named members have all arrived or exited.
-/
namespace Sys2Proof.Machine

/-- How often a thread has executed the cross-lane word at an address. -/
def Thread.xlCount (t : Thread) (addr : Nat) : Nat := ((t.cnt.xl.find? fun c => c.1 == addr).map Prod.snd).getD 0

/-- Counts one more execution. -/
def Thread.xlBump (t : Thread) (addr : Nat) : Thread :=
  { t with cnt := { t.cnt with xl := (addr, t.xlCount addr + 1) :: t.cnt.xl.filter fun c => c.1 != addr } }

/-- The member mask of operand B: z names all 64 members (R110). -/
def State.memberMask (s : State) (t : Thread) (b : Opnd) : Nat :=
  match b with
  | .z => 2 ^ 64 - 1
  | b => (s.rd2 t b).toNat

/-- What a member brings to a cross-lane instruction. -/
structure Brought where
  mask : Nat
  a : Nat
  c : Nat
  d : Opnd
  deriving DecidableEq, Repr

/-- Records the arrival of a thread at its word, as thread t stood before the issue (R110). -/
def State.arriveXl (s : State) (i : Instr) (t : Thread) (act : Bool) (b : Brought) : State :=
  let addr := t.pos.pc.toNat
  let ar : Arrival := {
    id := s.nextId, tid := t.id, team := t.place.team, set := t.place.set, member := t.place.member, addr := addr,
    n := t.xlCount addr, active := act, mask := b.mask, a := b.a, c := b.c, instr := i, d := b.d }
  (({ s with nextId := s.nextId + 1 }).onWk fun w => { w with arrivals := w.arrivals ++ [ar] }).onThread t.id fun x => x.xlBump addr

/-- The issue of a cross-lane instruction whose result has n registers: a is operand A, c operand C. -/
def cross (i : Instr) (h : Gd) (d b : Opnd) (n : Nat) (a c : State → Thread → Nat) (s : State) : Out :=
  .next (s.issue h (Ask.of (useOf i)) fun ts s1 =>
    let s2 := (s.skippers h (Ask.of (useOf i))).foldl (fun s' t => s'.arriveXl i t false ⟨0, 0, 0, .z⟩) s1
    ts.foldl (fun s' t =>
      let id := s'.nextId
      ((s'.arriveXl i t true ⟨s.memberMask t b, a s t, c s t, destOf ts t d⟩).hold t id (destOf ts t d) n).waitOn t.id (.xlane id)) s2)

/-- A 32-bit operand as a number. -/
def State.num (s : State) (t : Thread) (o : Opnd) : Nat := (s.rd t o).toNat
/-- An operand of one register or a pair as a number. -/
def State.numW (s : State) (t : Thread) (w64 : Bool) (o : Opnd) : Nat := if w64 then (s.rd2 t o).toNat else s.num t o

def execDxpack (h : Gd) (d a b : Opnd) (dx4 : Bool) (dist : Fin 16) (s : State) : Out :=
  cross (.dxpack h d a b dx4 dist) h d b 1 (fun s t => s.num t a) (fun _ _ => 0) s
def execShfl (h : Gd) (d a b c : Opnd) (m : ShflMode) (s : State) : Out :=
  cross (.shfl h d a b c m) h d b 1 (fun s t => s.num t a) (fun s t => s.num t c % 128) s
def execVote (h : Gd) (d a b : Opnd) (k : VoteKind) (s : State) : Out :=
  cross (.vote h d a b k) h d b k.regs (fun s t => s.num t a) (fun _ _ => 0) s
def execRedux (h : Gd) (d a b : Opnd) (op : RedOp) (s : State) : Out :=
  cross (.redux h d a b op) h d b 1 (fun s t => s.num t a) (fun _ _ => 0) s
def execElect (h : Gd) (d b : Opnd) (s : State) : Out := cross (.elect h d b) h d b 1 (fun _ _ => 0) (fun _ _ => 0) s
def execMatchL (h : Gd) (d a b : Opnd) (w64 : Bool) (s : State) : Out :=
  cross (.matchL h d a b w64) h d b 2 (fun s t => s.numW t w64 a) (fun _ _ => 0) s
def execScan (h : Gd) (d a b : Opnd) (op : RedOp) (excl : Bool) (s : State) : Out :=
  cross (.scan h d a b op excl) h d b 1 (fun s t => s.num t a) (fun _ _ => 0) s
def execRdfirst (h : Gd) (d a b : Opnd) (w64 : Bool) (s : State) : Out :=
  cross (.rdfirst h d a b w64) h d b (if w64 then 2 else 1) (fun s t => s.numW t w64 a) (fun _ _ => 0) s

/-! ## Results (R112, R113) -/

/-- The identity of a reduction. -/
def redId : RedOp → Word
  | .add => 0 | .and => 0xFFFFFFFF | .or => 0 | .xor => 0
  | .minS => 0x7FFFFFFF | .minZ => 0xFFFFFFFF | .maxS => 0x80000000 | .maxZ => 0

/-- One application of a reduction. -/
def redApply (op : RedOp) (x y : Word) : Word :=
  match op with
  | .add => x + y | .and => x &&& y | .or => x ||| y | .xor => x ^^^ y
  | .minS => minInt false x y | .minZ => minInt true x y | .maxS => maxInt false x y | .maxZ => maxInt true x y

/-- A reduction over values. -/
def redFold (op : RedOp) (xs : List Word) : Word := xs.foldl (redApply op) (redId op)

/-- The member from which SHFL takes its value; none takes its own. -/
def shflFrom (m : ShflMode) (me c : Nat) : Option Nat :=
  match m with
  | .abs => some (c % 64)
  | .ofs => let x : Int := (me : Int) + signExtend c 7; if x < 0 ∨ 63 < x then none else some x.toNat
  | .xor => some (me ^^^ (c % 64))
  | .rot => some ((me + c) % 64)

/-- The value of a member among contributors, else 0 (R112). -/
def valueOf (cs : List Arrival) (j : Nat) : Nat := ((cs.find? fun r => r.member == j).map Arrival.a).getD 0

/-- A truth value in a register. -/
def boolWord (b : Bool) : Word := if b then 1 else 0

/-- The result of VOTE over contributors. -/
def voteRes (k : VoteKind) (cs : List Arrival) : List Word :=
  match k with
  | .all => [boolWord (cs.all fun r => r.a != 0)]
  | .any => [boolWord (cs.any fun r => r.a != 0)]
  | .same => [boolWord (cs.all fun r => cs.all fun q => r.a == q.a)]
  | .mask => toWords 2 (maskOf ((cs.filter fun r => r.a != 0).map Arrival.member))
  | .count => [BitVec.ofNat 32 (cs.filter fun r => r.a != 0).length]

/-- The result of DXPACK for member me: the exponents, the code and the flags of its element (R78, R107). -/
def dxpackRes (dx4 : Bool) (dist me : Nat) (cs : List Arrival) : List Word × Flags :=
  let r := dxEncode dx4 dist ((List.range 32).map fun i => fp32.decode (valueOf cs (me / 32 * 32 + i)))
  let e := r.2.2.getD (me % 32) (0, 0)
  ([BitVec.ofNat 32 (r.2.1 * 2 ^ 24 + r.1 * 2 ^ 16 + e.1)], e.2)

/-- The result of a cross-lane instruction for the member of an arrival, over its contributing set in ascending order. -/
def crossRes (r : Arrival) (cs : List Arrival) : List Word × Flags :=
  let ws := cs.map fun q => BitVec.ofNat 32 q.a
  match r.instr with
  | .dxpack _ _ _ _ dx4 dist => dxpackRes dx4 dist.val r.member cs
  | .shfl _ _ _ _ _ m => ([BitVec.ofNat 32 (match shflFrom m r.member r.c with
      | some j => valueOf cs j
      | none => r.a)], 0)
  | .vote _ _ _ _ k => (voteRes k cs, 0)
  | .redux _ _ _ _ op => ([redFold op ws], 0)
  | .elect _ _ _ => ([boolWord ((cs.head?.map Arrival.member) == some r.member)], 0)
  | .matchL _ _ _ _ _ => (toWords 2 (maskOf ((cs.filter fun q => q.a == r.a).map Arrival.member)), 0)
  | .scan _ _ _ _ op excl =>
    ([redFold op ((cs.filter fun q => decide (q.member < r.member) || (!excl && q.member == r.member)).map fun q => BitVec.ofNat 32 q.a)], 0)
  | .rdfirst _ _ _ _ w64 => (toWords (if w64 then 2 else 1) ((cs.head?.map Arrival.a).getD 0), 0)
  | _ => ([], 0)

/-- Another member's arrival is at the execution matched with an arrival. -/
def Arrival.matches (r q : Arrival) : Bool := r.team == q.team && r.set == q.set && r.addr == q.addr && r.n == q.n

/-- Members of an arrival's set that live. -/
def State.liveMember (s : State) (r : Arrival) (j : Nat) : Bool :=
  s.wk.threads.any fun t => t.place.team == r.team && t.place.set == r.set && t.place.member == j && !t.exited

/-- Every member named has arrived or exited (R111). -/
def State.allArrived (s : State) (r : Arrival) : Bool :=
  (List.range 64).all fun j => !(r.mask / 2 ^ j % 2 == 1) || !s.liveMember r j || s.wk.arrivals.any fun q => r.matches q && q.member == j

/-- The contributing set of an arrival, by member number (R112). -/
def State.contributors (s : State) (r : Arrival) : List Arrival :=
  (List.range 64).filterMap fun j =>
    if r.mask / 2 ^ j % 2 == 1 then s.wk.arrivals.find? fun q => r.matches q && q.member == j && q.active else none

/-- The arrival at which a thread waits, when it can complete. -/
def State.xlReady (s : State) (tid : Nat) : Option Arrival :=
  match s.thread tid with
  | none => none
  | some t =>
    match t.wait with
    | .xlane a =>
      match s.wk.arrivals.find? fun r => r.id == a with
      | some r => if s.allArrived r then some r else none
      | none => none
    | _ => none

/-- CROSS_LANE_COMPLETION: the waits of the threads named end where they can (R111), and their results and flags are
written. -/
def execCrossLaneCompletion (ts : List Nat) (s : State) : Out :=
  .next ((ts.filterMap s.xlReady).foldl (fun s' r =>
    let x := crossRes r (s.contributors r)
    (((s'.deliver r.tid r.id r.d x.1).addFlags r.tid x.2).wake r.tid)) s)

end Sys2Proof.Machine
end

