-- ==== Sys2Proof/Machine/Perform.lean ====
section
/-!
DEFINITION. The steps of the abstract machine that follow issue: PERFORM (R215, R216, R223, R225, R228, R235, R239 to R250),
PROPAGATE, ADVANCE (R224, R452), the completion of FSAMP, of fences and of SC fences (R219, R220, R224), and the
faults that these steps meet (R408, R426, R432).
-/
namespace Sys2Proof.Machine

/-! ## Parts -/

/-- Updates part k of an access. -/
def State.onPart1 (s : State) (a k : Nat) (f : APart → APart) : State := s.onAccess a fun x => { x with parts := x.parts.modify k f }

/-- The page under which a part of an access has been translated. -/
def State.pageOf (s : State) (a k : Nat) : Option TlbEntry := (s.access a).bind fun x => (x.parts[k]?).bind APart.page

/-- A part has performed: its write is noted, with the page of its translation (R384), and its operand-log entry frees (R409). -/
def State.doneAt (s : State) (a k wid : Nat) : State :=
  (s.onPart1 a k fun p => { p with done := true, wid := wid, log := none }).onMs fun m => { m with
    oplog := m.oplog.filter fun o => !(o.acc == a && o.part == k),
    writes := if wid = 0 then m.writes else m.writes.map fun w => if w.id == wid then { w with page := s.pageOf a k } else w }

/-- Bytes placed in a list. -/
def setBytes (l : List Byte) (ofs : Nat) (bs : List Byte) : List Byte := l.take ofs ++ bs ++ l.drop (ofs + bs.length)

/-- Bytes read by a part. -/
def State.gotBytes (s : State) (a ofs : Nat) (r : ReadRes) : State :=
  s.onAccess a fun x => { x with data := setBytes x.data ofs r.bytes, bad := x.bad || r.poison }

/-- An access leaves the machine without having performed: its counter falls and its destination is released. -/
def State.dropAccess (s : State) (a : Access) : State :=
  let s1 := (s.down a.tid a.ctr).onMs fun m => { m with
    accs := m.accs.filter fun b => b.id != a.id, oplog := m.oplog.filter fun o => o.acc != a.id }
  match s1.thread a.tid with
  | some t => s1.unhold t a.id
  | none => s1

/-- A trap of an atomic, at the atomic (R248). -/
def State.trapAtomic (s : State) (a : Access) (cause reason addr : Nat) : State :=
  let s1 := (s.dropAccess a).wake a.tid
  match s1.thread a.tid with
  | none => s1
  | some t =>
    if t.exited then s1
    else s1.trap t ⟨cause, reason, addr, 0, false, a.pos.pc.toNat, a.pos, a.pos.next t.clause.words.length⟩

/-- An access that performs nothing for a cause other than translation: an atomic traps at once, others at the next
clause header (R432). -/
def State.refuse (s : State) (a : Access) (cause reason addr : Nat) : State :=
  match a.kind with
  | .atomic _ _ _ _ _ => s.trapAtomic a cause reason addr
  | _ => (s.dropAccess a).cause a.tid ⟨cause, reason, addr, 0, false, none⟩

/-! ## Deferred faults (R408) -/

/-- A free entry of a core's operand log. -/
def State.freeLog (s : State) (c : CoreId) : Option Nat :=
  (List.range 64).find? fun n => !(s.ms.oplog.any fun o => o.core == c && o.n == n)

/-- The launch of a thread. -/
def State.launchId (s : State) (tid : Nat) : Nat :=
  match (s.thread tid).bind fun t => s.team t.place.team with
  | some x => x.launch
  | none => 0

/-- Part k of an access meets a fault of translation at an address: it is logged and reported, or waits for an entry. -/
def State.defer (s : State) (a : Access) (k : Nat) (f : Flt) (ea : Nat) : State :=
  let s0 := s.onMs fun m => { m with oplog := m.oplog.filter fun o => !(o.acc == a.id && o.part == k) }
  match s0.freeLog a.core, s0.thread a.tid with
  | some n, some t =>
    let r : Rec := {
      id := s0.nextId, quay := quayOf a.core, cause := f.cause, reason := f.reason, kind := 1, loc := t.kl.isSome, entry := n,
      core := a.core, lane := t.place.lane, pc := a.pos.pc.toNat, addr := ea, info := 0, party := .access a.id k, launch := s0.launchId a.tid }
    (((({ s0 with nextId := s0.nextId + 1 }).onMs fun m => { m with oplog := m.oplog ++ [(⟨a.core, n, a.id, k⟩ : OpLog)] }).onPart1 a.id k
      fun p => { p with log := some n, stalled := true, ea := ea })).post r
  | _, _ => s0

/-! ## What an access does when it performs -/

/-- Sign or zero extension of a loaded value into its registers (R234). -/
def loadWords (sz : Size) (sx : Bool) (bs : List Byte) : List Word :=
  let v := ofBytes (bs.take sz.bytes)
  toWords sz.regs (if sx then wrapInt (signExtend v (8 * sz.bytes)) 32 else v)

/-- A load has all its bytes: its registers and its counter (R33, R426). -/
def State.loaded (s : State) (id : Nat) (d : Opnd) (n : Nat) (f : List Byte → List Word) : State :=
  match s.access id with
  | none => s
  | some a =>
    if !a.performed then s
    else
      let s1 := (s.deliver a.tid id d (if a.bad then List.replicate n (BitVec.ofNat 32 fNaN) else f a.data)).down a.tid .load
      if a.bad then s1.cause a.tid (poisonCause ((a.parts.head?.map APart.ea).getD 0) 0) else s1

/-- Releases before writes that a promoting acquire returned, with what their threads had observed (R223). -/
def State.promoted (s : State) (ids : List Nat) : List Nat :=
  (s.ms.writes.filter fun w => ids.contains w.id).flatMap fun w =>
    (s.ms.writes.filter fun r => r.rel == some .core && r.core == w.core && decide (r.id ≤ w.id)).flatMap fun r => r.id :: r.obs

/-- The acquire of a read: promotion, then Refresh (R216, R223). -/
def State.acquired (s : State) (w : Who) (a : Access) (ids : List Nat) : State :=
  if !a.acq then s
  else
    let s1 := if a.prom then let l := s.promoted ids; s.take (w.upTo a.scope) fun r => l.contains r.id else s
    s1.refresh w a.scope

/-- The scope of a release. -/
def Access.relScope (a : Access) : Option Scope := if a.rel then some a.scope else none

/-- The result of an atomic: the new value, unless nothing is written, and flags (R244, R245). -/
def atomicNew (op : AOp) (b64 : Bool) (old b c : Nat) : Option Nat × Flags :=
  let n := if b64 then 64 else 32
  let F := if b64 then fp64 else fp32
  let lt := decide (signExtend old n < signExtend b n)
  match op with
  | .add => (some ((old + b) % 2 ^ n), 0)
  | .and => (some (old &&& b), 0)
  | .or => (some (old ||| b), 0)
  | .xor => (some (old ^^^ b), 0)
  | .minS => (some (if lt then old else b), 0)
  | .minZ => (some (Nat.min old b), 0)
  | .maxS => (some (if lt then b else old), 0)
  | .maxZ => (some (Nat.max old b), 0)
  | .xchg => (some b, 0)
  | .cas => (if old = c then some b else none, 0)
  | .inc => (some (if b ≤ old then 0 else old + 1), 0)
  | .dec => (some (if old = 0 ∨ b < old then b else old - 1), 0)
  | .fadd => let r := addF F .rn (F.decode old) (F.decode b); (some r.1, r.2)
  | .fmin => let r := minMaxF F false (F.decode old) (F.decode b); (some r.1, r.2)
  | .fmax => let r := minMaxF F true (F.decode old) (F.decode b); (some r.1, r.2)

/-- An atomic has performed: its destination, its flags, and its thread goes on (R245, R247). -/
def State.atomicDone (s : State) (a : Access) (d : Opnd) (n old : Nat) (fl : Flags) : State :=
  let s1 := ((s.deliver a.tid a.id d (toWords n old)).addFlags a.tid fl).wake a.tid
  if a.ctr == .load then s1.down a.tid .load else s1

/-! ## Vault accesses (R225, R236) -/

/-- A release of a party at core scope that writes no global memory is remembered for promotion (R223). -/
def State.noteRelease (s : State) (w : Who) (acc : Nat) : State :=
  let r : WriteRec := {
    id := s.nextId, cells := [], old := [], tid := w.tid, core := w.core, acc := acc, rel := some .core, obs := s.obsOf w.tid, seen := [], pub := false, bad := [],
    page := none }
  ({ s with nextId := s.nextId + 1 } : State).onMs fun m => { m with writes := m.writes ++ [r] }

/-- The release of a vault access at core scope. -/
def State.vaultRelease (s : State) (w : Who) (a : Access) : State :=
  if a.rel && a.scope == .core then s.noteRelease w a.id else s

/-- A vault access performs. -/
def State.performVault (s : State) (a : Access) (p : APart) : State :=
  let w := s.whoOf a.tid a.core
  let ws := wordsOf p.ea p.len
  let r := s.vread p.ea p.len
  let s := s.vaultRelease w a
  match a.kind with
  | .load d sz sx => ((((s.gotBytes a.id 0 r).doneAt a.id 0 0).acquired w a []).loaded a.id d sz.regs (loadWords sz sx))
  | .ldt d sz take =>
    let s1 := if take then s.setTags ws false else s
    ((((s1.gotBytes a.id 0 r).doneAt a.id 0 0).acquired w a []).loaded a.id d sz.regs (loadWords sz false))
  | .store bs => (s.vwrite p.ea bs false).doneAt a.id 0 0
  | .stt bs => ((s.vwrite p.ea bs false).setTags ws true).doneAt a.id 0 0
  | .tagop full => (s.setTags ws full).doneAt a.id 0 0
  | .atomic op d b64 b c =>
    if r.poison then s.trapAtomic a 0x20 1 p.ea
    else
      let x := atomicNew op b64 r.val b c
      let s1 := match x.1 with
        | some v => s.vwrite p.ea (toBytes p.len v) false
        | none => s
      ((s1.doneAt a.id 0 0).acquired w a []).atomicDone a d (if b64 then 2 else 1) r.val x.2
  | _ => s

/-! ## The sampler cache (R224, R452) -/

/-- The lines of n bytes at an address. -/
def linesOf (a n : Nat) : List Nat := (List.range ((a + n + 127) / 128 - a / 128)).map (a / 128 + ·)

/-- A read through the sampler path, filling what it misses. -/
def State.sampled (s : State) (w : Who) (pa n : Nat) : ReadRes × State :=
  let s1 := (linesOf pa n).foldl (fun s l => s.fillLine w l true) s
  let r := s1.samplerRead w pa n
  (r, s1.observe w.tid r.wids)

/-- Translations of listed addresses, or the first that faults. -/
def State.translateAll (s : State) (x : Xl) (acc : Acc) : List (Option Nat) → Except (Flt × Nat) (List (Option Nat))
  | [] => .ok []
  | none :: l => match s.translateAll x acc l with
    | .error e => .error e
    | .ok ps => .ok (none :: ps)
  | some a :: l => match s.translate x acc a with
    | .error f => .error (f, a)
    | .ok pa => match s.translateAll x acc l with
      | .error e => .error e
      | .ok ps => .ok (some pa :: ps)

/-- Reads texels through the sampler path. -/
def State.readTexels (s : State) (w : Who) (n : Nat) : List (Option Nat) → List (List Byte) × Bool × State
  | [] => ([], false, s)
  | none :: l => let r := s.readTexels w n l; ([] :: r.1, r.2.1, r.2.2)
  | some pa :: l =>
    let x := s.sampled w pa n
    let r := x.2.readTexels w n l
    (x.1.bytes :: r.1, x.1.poison || r.2.1, r.2.2)

/-- The destination registers that an access holds; one where it holds none. -/
def State.heldRegs (s : State) (a : Access) : Nat :=
  match s.thread a.tid with
  | none => 1
  | some t =>
    let n := (t.out.pend.filter fun p => p.1 == a.id).length + match s.group t.place.grp with
      | some g => (g.pend.filter fun p => p.1 == a.id).length
      | none => 0
    if n = 0 then 1 else n

/-- An SMP whose descriptor could not be read at issue and proves bad: the access ends, and its thread takes the cause at its next
issue, with the place of the SMP (log 63). -/
def State.smpFail (s : State) (a : Access) (cause : Nat) : State :=
  (s.dropAccess a).onThread a.tid fun t => { t with out := { t.out with hits := t.out.hits ++ [⟨cause, 0, 0, 0, false, some a.pos.pc.toNat⟩] } }

/-- SMP performs (R250, R251): the descriptor and the texels are read as one load. -/
def State.performSmp (s : State) (a : Access) (x : Xl) (d : Opnd) (u v : Word) (lin : Bool) (wrap : WrapMode) (norm : Bool) (desc : Nat) : State :=
  let w := s.whoOf a.tid a.core
  let budget := ((s.thread a.tid).map fun t => t.place.budget).getD 0
  match s.translate x .read desc with
  | .error f => (s.fillTlb x desc).defer a 0 f desc
  | .ok pd =>
    let s1 := s.fillTlb x desc
    if s1.linkHeld pd then s1
    else if s1.lost pd != 0 then s1.refuse a 0x21 (s1.lost pd) desc
    else
      let r := s1.sampled w pd 32
      if r.1.poison then
        (((r.2.onAccess a.id fun y => { y with bad := true }).doneAt a.id 0 0).loaded a.id d (s.heldRegs a) fun _ => [])
      else match smpDesc r.1.val with
        | .error c => r.2.smpFail a c
        | .ok f =>
          let n := surfChans f.fmt
          let px := smpCoord norm u f.w
          let py := smpCoord norm v f.h
          if !(d.spanOk n && inBudget budget (d, n)) then r.2.smpFail a 0x02
          else if !(fFinite px && fFinite py) then
            ((r.2.doneAt a.id 0 0).loaded a.id d n fun _ => List.replicate n (BitVec.ofNat 32 fNaN))
          else
            let c := cornerOf lin px py
            let tx := smpTexels f c lin wrap
            let s2 := (tx.filterMap id).foldl (fun s' t => s'.fillTlb x t) r.2
            match r.2.translateAll x .read tx with
            | .error e => s2.defer a 0 e.1 e.2
            | .ok pas =>
              let cut := (pas.filterMap id).any fun p => s2.linkHeld p
              let gone := (pas.filterMap id).map s2.lost
              if cut then s2
              else if gone.any fun g => g != 0 then s2.refuse a 0x21 ((gone.find? fun g => g != 0).getD 0) desc
              else
                let t := s2.readTexels w (surfBytes f.fmt) pas
                let ch := sampleOf lin c n (t.1.map fun bs => if bs.isEmpty then List.replicate n 0 else texelOf f.fmt bs)
                (((t.2.2.onAccess a.id fun y => { y with bad := t.2.1 }).doneAt a.id 0 0).loaded a.id d n fun _ => ch.map (BitVec.ofNat 32))

/-! ## PERFORM -/

/-- Instruction-cache words of the issuing core in a line are dropped (R258). -/
def State.dropCode (s : State) (c : CoreId) (pa : Nat) : State :=
  s.onMs fun m => { m with icache := m.icache.filter fun e => !(e.1 == c && e.2.1 / 128 == pa / 128) }

/-- The poisoned writes of a core to a block that its L1 alone holds: those since it took the block (R427). -/
def State.heldPoison (s : State) (c : CoreId) (blk : Nat) : List WriteRec :=
  match s.l1Of c blk with
  | none => []
  | some b => s.ms.writes.filter fun r => r.core == c && r.acc != 0 && decide (b.since ≤ r.id) && r.inBlk blk && r.bad.any fun x => x / 64 == blk

/-- CINV.DISCARD drops poisoned data of a core's L1: its unit reads as it stands below, wherever the dropped writes stood (R258, R427). -/
def State.discardUnit (s : State) (w : Who) (blk : Nat) : State :=
  let mine := s.heldPoison w.core blk
  if mine.isEmpty then s
  else
    let xs := (List.range 64).map (64 * blk + ·)
    let below := fun x => listMax ((s.ms.writes.filter fun r => r.covers x && !mine.any fun q => q.id == r.id).map WriteRec.id)
    (s.commit w 0 none (xs.map fun x => (x, s.byteOf (below x) x)) (xs.filter fun x => s.poisonOf (below x) x)
      (.core w.core :: mine.flatMap WriteRec.seen).eraseDups).2

/-- A line of an L1 holds poison. -/
def State.lineBad (s : State) (w : Who) (line : Nat) : Bool :=
  (List.range 128).any fun i => let x := 128 * line + i; s.poisonOf (s.latest [.core w.core] x) x || s.poisonOf (s.lastWrite x) x

/-- What CWB or CINV does to the line of an address (R257, R258). Write-backs at system scope leave the slices clean. -/
def State.steer (s : State) (w : Who) (op : CacheOp) (sc : Scope) (pa : Nat) : State :=
  let line := pa / 128
  let both := fun (s : State) (f : State → Nat → State) => f (f s (2 * line)) (2 * line + 1)
  match op with
  | .icache => s.dropCode w.core pa
  | .discard =>
    if s.lineBad w line || s.lost pa == 1 then both s fun s b => (s.discardUnit w b).discardBlk w.core b
    else both s fun s b => s.cleanBlk w.core b true
  | .wb inv =>
    let s1 := both s fun s b => s.cleanBlk w.core b inv
    if sc == .system then both s1 fun s b => (s.setL2Dirty w.core.die b false).setL2Dirty (s.blkDie b) b false else s1

/-- An orphaned line stands open to CINV.DISCARD, which drops the copy (R258). -/
def Access.takesOrphan (a : Access) : Bool := a.kind == .cache .discard

/-- The group of a thread has dirtied a line: the set holds 256 lines, and overflows beyond (R275). -/
def State.dirties (s : State) (t line : Nat) : State :=
  match s.thread t with
  | none => s
  | some x => s.onGroup x.place.grp fun g =>
    if g.dirty.contains line then g
    else if 256 ≤ g.dirty.length then { g with overflow := true } else { g with dirty := g.dirty ++ [line] }

/-- The last write that a core of the module has committed to a block (R274). -/
def State.lastCommit (s : State) (blk : Nat) : Option WriteRec :=
  match (s.ms.writes.filter fun w => w.inBlk blk).getLast? with
  | some w => if s.working w.core then some w else none
  | none => none

/-- An acquire with PROM waits for the promotion of the last commit to its block (R274): the message to send, or none where it may
perform. -/
def State.promotion (s : State) (a : Access) (home : Bool) (pa : Nat) : Option Msg :=
  if !(a.acq && a.prom) || home || a.promo == some true then none
  else (s.lastCommit (pa / 64)).map fun w => .promote (pa / 64) w.core w.id a.id

/-- The home slice sends a promote message for an acquire, once. -/
def State.promote (s : State) (a : Access) (m : Msg) : State :=
  if a.promo.isSome then s else (s.send m).onAccess a.id fun x => { x with promo := some false }

/-- An atomic may perform where it stands (R269, R272, R378): in the L1 of its core, which may write the block, or at the home of a
block about which nothing is under way. -/
def State.atomicReady (s : State) (a : Access) (home : Bool) (pa n : Nat) : Bool :=
  if home then s.homeReady pa n else (s.l1Of a.core (pa / 64)).any L1Blk.takesWrites

/-- The write of an atomic: the L1 holds its block in M; at the home the directory has taken the block back. -/
def State.atomicWrite (s : State) (w : Who) (a : Access) (home : Bool) (pa : Nat) (bs : List Byte) : Nat × State :=
  if home then
    let r := ((blksOf pa bs.length).foldl State.dirTake s).commit w a.id a.relScope (cellsAt pa bs) [] [.core w.core]
    (r.1, r.2.observe w.tid [r.1])
  else
    let r := s.commitOwn w a.id a.relScope (cellsAt pa bs) false
    (r.1, r.2.onL1 w.core (pa / 64) fun b => { b with st := .m })

/-- A global atomic performs (R245, R248, R272). A release at core scope that writes nothing is remembered for promotion (R223). -/
def State.performAtomic (s : State) (a : Access) (k : Nat) (p : APart) (home : Bool) (pa : Nat) (op : AOp) (d : Opnd) (b64 : Bool) (b c : Nat) : State :=
  let w := s.whoOf a.tid a.core
  let r := s.readLast pa p.len
  if r.poison then s.trapAtomic a 0x20 1 p.ea
  else
    let x := atomicNew op b64 r.val b c
    let s1 := s.observe a.tid r.wids
    let s2 := match x.1 with
      | some v => s1.atomicWrite w a home pa (toBytes p.len v)
      | none => (0, s1.vaultRelease w a)
    let s3 := if s2.1 = 0 || home then s2.2 else s2.2.dirties a.tid (pa / 128)
    ((s3.doneAt a.id k s2.1).acquired w a []).atomicDone a d (if b64 then 2 else 1) r.val x.2

/-- A load performs (R216, R223). -/
def State.performLoad (s : State) (a : Access) (k : Nat) (p : APart) (pa : Nat) (d : Opnd) (sz : Size) (sx : Bool) : State :=
  let w := s.whoOf a.tid a.core
  let r := s.readAt w a.scope pa p.len
  ((((s.takeRead w r.wids).acquired w a r.wids).gotBytes a.id p.ofs r).doneAt a.id k 0).loaded a.id d sz.regs (loadWords sz sx)

/-- A part of a global access performs at a physical address. -/
def State.performGlobal (s : State) (a : Access) (k : Nat) (x : Xl) (p : APart) (pa : Nat) : State :=
  let w := s.whoOf a.tid a.core
  let home := s.goesHome x p.ea pa
  match a.kind with
  | .load d sz sx => match s.promotion a home pa with
    | some m => s.promote a m
    | none => s.performLoad a k p pa d sz sx
  | .store bs =>
    let r := s.commitOwn w a.id a.relScope (cellsAt pa ((bs.drop p.ofs).take p.len)) home
    let s1 := r.2.doneAt a.id k r.1
    if home then s1 else s1.dirties a.tid (pa / 128)
  | .lds d sz sx =>
    let r := s.sampled w pa p.len
    ((r.2.gotBytes a.id p.ofs r.1).doneAt a.id k 0).loaded a.id d sz.regs (loadWords sz sx)
  | .atomic op d b64 b c => if s.atomicReady a home pa p.len then s.performAtomic a k p home pa op d b64 b c else s
  | .cache op => (s.steer w op a.scope pa).doneAt a.id k 0
  | _ => s

/-- Translates every part of an access that needs it (R235), or the first fault, with its part. -/
def State.translateParts (s : State) (a : Access) (x : Xl) : List (Nat × APart) → Except (Flt × Nat × Nat) (List (Nat × Nat))
  | [] => .ok []
  | (k, p) :: l =>
    if p.done || p.pa.isSome then s.translateParts a x l
    else match s.translate x a.need p.ea with
      | .error f => .error (f, k, p.ea)
      | .ok pa => match s.translateParts a x l with
        | .error e => .error e
        | .ok r => .ok ((k, pa) :: r)

/-- A part of a global access performs, or meets what stands in its way. -/
def State.performPart (s : State) (a : Access) (k : Nat) (x : Xl) : State :=
  match s.translateParts a x (indexed a.parts) with
  | .error (f, j, ea) => s.defer a j f ea
  | .ok found =>
    let s1 := a.parts.foldl (fun s p => s.fillTlb x p.ea) s
    let s2 := found.foldl (fun s f => s.onPart1 a.id f.1 fun p => { p with pa := some f.2, page := (s.lookup x p.ea).toOption }) s1
    match s2.access a.id with
    | none => s2
    | some a' =>
      let open_ := a'.parts.filter fun p => !p.done
      let gone := fun (p : APart) => let l := s2.lost (p.pa.getD 0); l != 0 && !(l == 1 && a'.takesOrphan)
      match a'.parts[k]?, open_.find? gone with
      | some p, none => if open_.any fun p => s2.linkHeld (p.pa.getD 0) then s2 else s2.performGlobal a' k x p (p.pa.getD 0)
      | _, some q => s2.refuse a' 0x21 (s2.lost (q.pa.getD 0)) q.ea
      | none, none => s2

/-- A record that a pop has taken reaches the registers, with its status (R368, R426); those of a thread that has exited take nothing
(R357). -/
def State.recordArrives (s : State) (a : Access) (d st : Opnd) (ws : List Word) : State :=
  let s1 := (s.deliver a.tid a.id d (if a.bad then ws.map fun _ => BitVec.ofNat 32 fNaN else ws)).deliver a.tid a.id st [1]
  let s2 := s1.onMs fun m => { m with accs := m.accs.filter fun b => b.id != a.id }
  match s2.thread a.tid with
  | some t => if a.bad && !t.exited then s2.cause a.tid (poisonCause 0 0) else s2
  | none => s2

/-- Part k of an access performs where the conditions hold (R215, R216). -/
def State.performAccess (s : State) (a : Access) (part : Nat) : State :=
  match a.parts[part]?, s.xlOf a with
  | some p, some x =>
    match a.kind with
    | .record d st ws => s.recordArrives a d st ws
    | _ =>
      if p.done || a.parts.any (fun q => q.stalled) || !s.ordered a then s
      else if a.vault then (if s.tagsOk a && s.turn a then (s.performVault a p).settle else s)
      else match a.kind with
        | .push _ _ _ => s
        | .pref => s
        | .copyBlock _ => s
        | .smp d u v lin wrap norm desc => (s.performSmp a x d u v lin wrap norm desc).settle
        | _ => (s.performPart a part x).settle
  | _, _ => s

/-! ## PROPAGATE, ADVANCE, FSAMP, fences -/

/-- PROPAGATE (R213): the view of a point takes a committed write, for the bytes for which it holds no later one. -/
def execPropagate (w : Nat) (pt : Point) (s : State) : Out := .next (s.take [pt] fun r => r.id == w).settle

/-- ADVANCE (R224, R256): the n-th sampler prefetch in flight fills its line, or is dropped at a fault. -/
def execAdvance (n : Nat) (s : State) : Out :=
  .next (match (s.ms.accs.filter fun a => a.kind == .pref)[n]? with
    | none => s
    | some a =>
      let s1 := s.onMs fun m => { m with accs := m.accs.filter fun b => b.id != a.id }
      match s.xlOf a, a.parts.head? with
      | some x, some p =>
        match s.translate x .read p.ea with
        | .error _ => s1
        | .ok pa => if s.lost pa != 0 || s.linkCut pa then s1 else (s1.fillTlb x p.ea).fillLine (s.whoOf a.tid a.core) (pa / 128) false
      | _, _ => s1)

/-- FSAMP_COMPLETE (R224, R252): once the earlier reads of the thread have performed, the sampler view of its core holds
what the thread's points hold, and the sampler cache is empty. -/
def execFsampComplete (t : Nat) (s : State) : Out :=
  .next (match s.thread t with
    | none => s
    | some th =>
      match th.out.fsamp with
      | [] => s
      | (sc, bound) :: rest =>
        if s.ms.accs.any fun a => a.tid == t && decide (a.id < bound) && a.reads && !a.performed then s
        else
          let w := th.who
          let xs := (s.ms.writes.flatMap fun r => r.cells.map Prod.fst).eraseDups
          let new := xs.map fun x => (w.core, x, Nat.max (s.samplerView w.core x) (s.latest (w.upTo sc) x))
          (s.onThread t fun x => { x with out := { x.out with fsamp := rest } }).onMs fun m => { m with
            smp := (m.smp.filter fun e => e.1 != w.core) ++ new.filter fun e => e.2.2 != 0,
            smpLines := m.smpLines.filter fun l => l.1 != w.core,
            smpUsed := m.smpUsed.filter fun l => l.1 != w.core })

/-- A fence covers an access (R253). -/
def Fence.covers (f : Fence) (a : Access) : Bool :=
  a.tid == f.tid && decide (a.id < f.bound) && match f.cover with
    | .all => true
    | .reads => a.reads
    | .writes => a.writes

/-- The fence of a thread that waits at FWAIT, when the conditions of R219 hold. -/
def State.fenceReady (s : State) (t : Thread) : Option Fence :=
  match t.wait with
  | .fence n =>
    match s.ms.fences.find? fun f => f.id == n with
    | none => none
    | some f =>
      let own := (s.ms.writes.filter fun w => w.tid == f.tid && w.acc != 0 && decide (w.acc < f.bound) && f.cover != .reads).map WriteRec.id
      if (s.ms.accs.all fun a => a.silent || !f.covers a || a.performed) && s.visible (f.obs ++ own) (s.performedAt t.who f.scope)
      then some f else none
  | _ => none

/-- The wait at an FWAIT ends: Refresh at the fence's scope, and the fence is gone. -/
def State.endFence (s : State) (t : Thread) (f : Fence) : State :=
  ((s.refresh t.who f.scope).wake t.id).onMs fun m => { m with fences := m.fences.filter fun g => g.id != f.id }

/-- FWAIT_COMPLETE (R219). -/
def execFwaitComplete (t : Nat) (s : State) : Out :=
  .next (match s.thread t with
    | none => s
    | some th => match s.fenceReady th with
      | some f => if f.sc then s else s.endFence th f
      | none => s)

/-- SC (R220): the SC step of a fence, once every write that its thread has observed is visible everywhere. -/
def execScStep (t : Nat) (s : State) : Out :=
  .next (match s.thread t with
    | none => s
    | some th => match s.fenceReady th with
      | some f =>
        if f.sc && s.visible th.obs (s.performedAt th.who .system) then
          (s.endFence th f).onMs fun m => { m with scOrder := m.scOrder ++ [f.id] }
        else s
      | none => s)

end Sys2Proof.Machine
end

