-- ==== Sys2Proof/Machine/Fetch.lean ====
section
/-!
DEFINITION. Fetching code (R27 to R31): the instruction cache of a core, the fetch of a whole clause, and the decoding of
the next word of an issue set with the traps of words that are no instructions (R57 to R59).
-/
namespace Sys2Proof.Machine

/-- How a fetch ends when it gives no word: a trap, or the wait for a link that retrains (R429). -/
inductive FetchEnd where
  | trap (f : Flt)
  | held
  deriving DecidableEq, Repr

/-- Fetches the word at an address: from the core's instruction cache while the cache keeps it, else as
performed at the core's point (R30, R258). -/
def State.fetchWord (s : State) (t : Thread) (va : Nat) : Except FetchEnd (Nat × State) :=
  match s.translate t.xl .exec va with
  | .error f => .error (.trap f)
  | .ok pa =>
    let s1 := s.fillTlb t.xl va
    match s.ms.icache.find? fun e => e.1 == t.place.core && e.2.1 == pa && Config.codeEvicted s.tick pa % 2 == 0 with
    | some e => .ok (e.2.2, s1)
    | none =>
      if s.lost pa != 0 then .error (.trap ⟨0x21, s.lost pa⟩)
      else if s.linkCut pa then .error (.trap ⟨0x20, 3⟩)
      else if s.linkHeld pa then .error .held
      else
        let r := s.readAt t.who .core pa 8
        if r.poison then .error (.trap ⟨0x20, 1⟩)
        else .ok (r.val, s1.onMs fun m => { m with
          icache := (m.icache.filter fun e => !(e.1 == t.place.core && e.2.1 == pa)) ++ [(t.place.core, pa, r.val)] })

/-- Fetches n words from an address, or how the first that fails ends, and its address. -/
def State.fetchWords (s : State) (t : Thread) : Nat → Nat → Except (FetchEnd × Nat) (List Nat × State)
  | 0, _ => .ok ([], s)
  | n + 1, va =>
    match s.fetchWord t va with
    | .error f => .error (f, va)
    | .ok (w, s1) =>
      match s1.fetchWords t n (va + 8) with
      | .error e => .error e
      | .ok (ws, s2) => .ok (w :: ws, s2)

/-- What stands at a header: the clause, the trap that it raises there (R29, R57, R58), or nothing yet. -/
inductive Clausal where
  | trap (f : Flt) (addr : Nat)
  | clause (h : Header) (words : List Nat)
  | held

/-- A fetch that gives no word. -/
def State.fetchFails (s : State) (t : Thread) (va : Nat) : FetchEnd → Clausal × State
  | .trap f => (.trap f va, s.fillTlb t.xl va)
  | .held => (.held, s)

/-- Fetches the clause at a thread's header (R29). -/
def State.fetchClause (s : State) (t : Thread) : Clausal × State :=
  let va := t.pos.hdr.toNat
  match s.fetchWord t va with
  | .error f => s.fetchFails t va f
  | .ok (w, s1) =>
    match decodeHeader (decide (64 ≤ t.place.core.core)) w with
    | .error c =>
      -- the count of such a word still says which words are fetched; a fetch fault comes first (R58)
      match s1.fetchWords t (bitsOf w 59 56 + 1) (va + 8) with
      | .error e => s1.fetchFails t e.2 e.1
      | .ok _ => (.trap ⟨c, 0⟩ 0, s1)
    | .ok h =>
      match s1.fetchWords t h.count (va + 8) with
      | .error e => s1.fetchFails t e.2 e.1
      | .ok (ws, s2) => (.clause h ws, s2)

/-- The word that the issue set in focus executes next, with its class. -/
def State.word (s : State) : Option (Nat × Nat) :=
  match s.front with
  | [] => none
  | t :: _ => (t.clause.words[t.idx]?).map fun w => (t.clause.cls, w)

/-- Decodes the next word of the issue set in focus (R32). -/
def State.nextWord (s : State) : Option Dec :=
  match s.front with
  | [] => none
  | t :: _ => s.word.map fun w => decodeWord (decide (64 ≤ t.place.core.core)) w.1 w.2

/-- Every thread of the set traps at a word that encodes nothing (R59). -/
def State.trapSet (s : State) (cause : Nat) : State := s.front.foldl (fun s' t => s'.trapHere t cause 0 0 0) s

/-- A word with a nonzero unused field: cause 0x02 where a register lies beyond the budget, else cause 0x03 (R58). -/
def State.reservedWord (s : State) (i : Instr) : State :=
  s.front.foldl (fun s' t => s'.trapHere t (if (useOf i).fits t.place.budget then 0x03 else 0x02) 0 0 0) s

end Sys2Proof.Machine
end

