-- ==== Sys2Proof/Machine/Sched.lean ====
section
/-!
DEFINITION. What issue rests on (R319, R322, R400): who may issue, the issue sets and the active sets of quadrants, the causes
that a thread takes at a clause start, and the preference of YIELD (R36). The composer that picks issue sets is in Compose.
-/
namespace Sys2Proof.Machine

/-- The issue set of a quadrant. -/
def State.setOf (s : State) (q : QuadId) : List Nat :=
  match s.wk.sets.find? fun x => x.1 == q with
  | some x => x.2
  | none => []

/-- A partition lets a thread issue: it runs, or it halts and the thread is a quay core's (R417). -/
def State.partIssues (s : State) (t : Thread) : Bool :=
  match (s.part t.place.part).state with
  | .running => true
  | .halting => decide (64 ≤ t.place.core.core)
  | .stopped => false

/-- A thread can go on once its wait is over: it lives, it is not stopped at a record, its context runs, its team is resident
and its die works. -/
def State.mayWake (s : State) (t : Thread) : Bool :=
  !t.exited && t.stop.isNone && s.partIssues t && !s.md.failed.getLsbD t.place.core.die &&
    (match s.team t.place.team with
      | some tm => !tm.saved && !tm.ended && (decide (64 ≤ t.place.core.core) ||
          match s.ctx tm.ctx with
          | some c => c.place == .running
          | none => false)
      | none => false)

/-- Nothing outside the clause keeps a thread from issuing: its wait is over and its group is active besides. -/
def State.mayIssue (s : State) (t : Thread) : Bool :=
  s.mayWake t && s.waitOver t &&
    match s.group t.place.grp with
    | some g => g.active
    | none => false

/-- Two threads fetch the same code at the same place. -/
def Thread.sameCode (t u : Thread) : Bool :=
  t.pos == u.pos && t.place.part == u.place.part && t.place.root == u.place.root && t.place.asid == u.place.asid

/-- A thread stands on a quadrant. -/
def Thread.on (t : Thread) (q : QuadId) : Bool := t.place.core == q.core && t.place.quad == q.quad

/-! ## Active and pending sets -/

/-- The live threads of a group. -/
def State.live (s : State) (g : Nat) : List Thread := s.wk.threads.filter fun t => t.place.grp == g && !t.exited

/-- Groups of a quadrant whose context runs. -/
def State.groupsOn (s : State) (q : QuadId) : List Group :=
  s.wk.groups.filter fun g => g.core == q.core && g.quad == q.quad && !(s.live g.id).isEmpty &&
    (match s.team g.team with
      | some tm => !tm.saved && !tm.ended && (decide (64 ≤ q.core.core) || match s.ctx tm.ctx with
          | some c => c.place == .running
          | none => false)
      | none => false)

/-- The lowest slot of a quadrant's active set that no group holds; there are eight (R319, R322). -/
def State.freeSlot (s : State) (q : QuadId) : Option Nat :=
  (List.range 8).find? fun n => !s.wk.groups.any fun g => g.core == q.core && g.quad == q.quad && g.active && g.slot == n

/-- A group leaves the active set. -/
def State.deactivate (s : State) (g : Nat) : State :=
  s.onGroup g fun x => { x with active := false, entered := s.clock.toNat }

/-- A group enters the active set, in a free slot. -/
def State.activate (s : State) (g : Group) : State :=
  match s.freeSlot ⟨g.core, g.quad⟩ with
  | none => s
  | some n => s.onGroup g.id fun x => { x with active := true, slot := n, entered := s.clock.toNat, rdyAt := none }

/-! ## Starting a clause -/

/-- The issue set of a quadrant becomes the threads named; groups that issue are no longer preferred to others (R36). -/
def State.putSet (s : State) (q : QuadId) (ts : List Thread) : State :=
  let gs := ts.map fun t => t.place.grp
  s.onWk fun w => { w with
    sets := (w.sets.filter fun x => x.1 != q) ++ (if ts.isEmpty then [] else [(q, ts.map Thread.id)]),
    groups := w.groups.map fun g => { g with yld := g.yld.filter fun y => !gs.contains y } }

/-- The counters A and L of R318, once for each group of threads that start a clause. -/
def State.countStart (s : State) (ts : List Thread) (pc : Dword) : State :=
  (ts.map fun t => (t.place.team, t.place.set, t.place.grp)).eraseDups.foldl (fun s' k =>
    let l := s.wk.threads.filter fun t => t.place.team == k.1 && t.place.set == k.2.1 && !t.exited
    let a := l.filter fun t => t.pos == Pos.at pc
    s'.onTeam k.1 fun x => { x with a := x.a + a.length, l := x.l + l.length }) s

/-- Starts a thread in its clause: at the word after the header, or where it stood. -/
def Thread.start (t : Thread) (c : Clause) (now : Nat) : Thread :=
  { t with clause := c, mode := .run, since := now, pos := if t.pos.mid then t.pos else ⟨t.pos.hdr, t.pos.pc + 8, true⟩ }

/-- A cause that a thread takes before the first instruction of a clause issues (R400, R409). -/
def Thread.due (t : Thread) (causes : Bool) : Option (Cause × Thread) :=
  match t.out.hits with
  | c :: l => some (c, { t with out := { t.out with hits := l } })
  | [] =>
    if causes then
      match t.out.causes with
      | c :: l => some (c, { t with out := { t.out with causes := l } })
      | [] => none
    else none

/-- The threads of a set that start, after those with a cause due have trapped. -/
def State.takeDue (s : State) (ts : List Thread) (causes : Bool) : State × List Thread :=
  ts.foldl (fun p t =>
    match t.due causes with
    | some (c, t') => ((p.1.onThread t.id fun _ => t').trapAt t' c, p.2)
    | none => (p.1, p.2 ++ [t])) (s, [])

/-! ## YIELD (R36, R361) -/

/-- The other groups of the active set are preferred to groups that yield; those without a ready thread drop out at the end of the
step. -/
def State.yieldGroups (s : State) (q : QuadId) (gs : List Nat) : State :=
  let others := ((s.groupsOn q).filter fun g => g.active && !gs.contains g.id).map Group.id
  s.onWk fun w => { w with groups := w.groups.map fun g => if gs.contains g.id then { g with yld := others } else g }

/-- A thread has executed the word at which it stood: it has ended, or gone on to another place without a trap (R36). -/
def State.executed (s : State) (t : Thread) : Bool :=
  match s.thread t.id with
  | none => true
  | some x => x.exited || (x.pos != t.pos && x.stop.isNone && !(x.kl.isSome && t.kl.isNone))

end Sys2Proof.Machine
end

