-- ==== Sys2Proof/Machine/Choice.lean ====
section
/-!
DEFINITION. The canonical form of the memories at the end of a step, new threads, groups and contexts, and the state in which one
instruction is ready to issue.
-/
namespace Sys2Proof.Machine

/-- The memories in their canonical form; a state whose memories have it is left as it is. -/
def State.tidy (s : State) : State := s.onMs fun m => { m with mem := m.mem.canon, vault := m.vault.canon }

/-! ## One instruction ready to issue -/

/-- An instruction that only privileged mode executes (R56). -/
def privileged : Instr → Bool
  | .cinvIcache _ _ _ => true
  | .cinvDiscard _ _ _ => true
  | .swr _ _ _ => true
  | .srdp _ _ _ => true
  | .tlbiVa _ _ _ => true
  | .tlbiAsid _ _ => true
  | .tlbiAll _ => true
  | .split _ _ _ _ _ => true
  | .attest _ _ _ _ => true
  | .ologrNext _ _ => true
  | .ologrOpnd _ _ _ => true
  | _ => false

/-- A word of a class that needs a quay core: it decodes only there, or is privileged. -/
def wantsQuay (cls w : Nat) : Bool :=
  match decodeWord false cls w with
  | .ok i => privileged i
  | _ => match decodeWord true cls w with
    | .ok _ => true
    | _ => false

/-- A thread with all registers zero at a place (R307, R404). -/
def Thread.fresh (id : Nat) (pl : Place) (pc : Dword) : Thread where
  id := id
  place := pl
  regs := ⟨Vector.replicate 128 0, 0, Vector.replicate 8 none, 0, none⟩
  pos := Pos.at pc
  mode := .header
  clause := ⟨0, false, []⟩
  wait := .none
  ctr := ⟨0, 0, 0, 0⟩
  cnt := ⟨[], [], []⟩
  out := ⟨[], [], [], [], [], [], 0, [], [], []⟩
  obs := []
  kl := none
  stop := none
  exited := false
  since := 0
  rdy := true

/-- A group with all registers zero. -/
def Group.fresh (id team : Nat) (core : CoreId) (quad width : Nat) : Group where
  id := id
  team := team
  core := core
  quad := quad
  width := width
  g := Vector.replicate 64 0
  pend := []
  active := true
  slot := 0
  entered := 0
  rdyAt := none
  yld := []
  dirty := []
  overflow := false

/-- The matrix engine between operations. -/
def MxRun.idle : MxRun := ⟨0, 0, false, false, none, [], 0, 0⟩

/-- A new context of a core (R316). -/
def Ctx.fresh (id : Nat) (core : CoreId) (part : Nat) : Ctx where
  id := id
  core := core
  part := part
  place := .running
  since := 0
  tiles := List.replicate 8 []
  badElems := []
  slots := List.replicate 4 none
  mxq := []
  mxrun := MxRun.idle
  views := []
  splq := []
  splSince := 0
  open_ := none
  passes := []
  shadows := List.replicate 8 none
  ovf := 0
  tilesDone := []

/-- A team of one thread and one group on a core. On a quay core GRPW reads 0 all the same (R54, log 69). -/
def Team.single (id launch cluster part : Nat) (core : CoreId) (ctx budget : Nat) : Team where
  id := id
  launch := launch
  cluster := cluster
  part := part
  core := core
  ctx := ctx
  quads := [0]
  nx := 1
  ny := 1
  nz := 1
  tmx := 0
  tmy := 0
  tmz := 0
  clx := 0
  cly := 0
  gx := 1
  gy := 1
  gz := 1
  stage := none
  budget := budget
  width := 64
  vbase := 0
  vlen := 0
  a := 0
  l := 0
  tph := []
  saved := false
  ended := false

/-- A quay core of a partition. -/
def Quay.fresh (c : CoreId) (part tid : Nat) : Quay := ⟨c, part, tid, 0, [], 0, 0⟩

/-- The state with the word above a header ready to issue; see `withFetchWord`. -/
def State.placeWord (s : State) (w : Nat) : State :=
  let cls := bitsOf w 63 60
  let word := bitsOf w 127 64
  let n := s.nextId
  let core : CoreId := ⟨0, if wantsQuay cls word then 64 else 0⟩
  let pl : Place := {
    core := core, quad := 0, lane := 0, team := n + 2, grp := n + 3, grpid := 0, set := 0, member := 0, tx := 0, ty := 0, tz := 0,
    part := 0, root := 0, asid := 0, priv := wantsQuay cls word, budget := 128, clp := ownCluster core }
  let t : Thread := { Thread.fresh (n + 4) pl 0x1000 with
    pos := ⟨0x1000, 0x1008, true⟩, mode := .run, clause := ⟨cls, false, [word]⟩ }
  let l : Launch := ⟨n, 0, 0, ⟨0⟩, 0, 0, 0, 1, some 64, .placed, none, none⟩
  { s with
    nextId := n + 6
    agenda := ⟨0, .issue ⟨core, 0⟩⟩ :: s.agenda
    en := { s.en with ctxs := s.en.ctxs ++ [Ctx.fresh (n + 5) core 0] }
    wk := { s.wk with
      threads := s.wk.threads ++ [t]
      groups := s.wk.groups ++ [Group.fresh (n + 3) (n + 2) core 0 64]
      teams := s.wk.teams ++ [Team.single (n + 2) n (n + 1) 0 core (n + 5) 128]
      clusters := s.wk.clusters ++ [⟨n + 1, 0, core.core, 1, 1, [n + 2], []⟩]
      launches := s.wk.launches ++ [l]
      sets := (s.wk.sets.filter fun x => x.1 != ⟨core, 0⟩) ++ [(⟨core, 0⟩, [n + 4])]
      quays := if wantsQuay cls word then s.wk.quays ++ [Quay.fresh core 0 (n + 4)] else s.wk.quays
      parts := s.wk.parts.modify 0 fun p => { p with state := .running, cfg := { p.cfg with rows := p.cfg.rows ||| 1 } } } }

end Sys2Proof.Machine
end

