-- ==== Sys2Proof/Machine/Engine.lean ====
section
/-!
DEFINITION. What the engines share as agents of the threads that issue to them (R136, R165, R226, R300, R410): contexts,
queues, reads and writes of memory, faults, completion.
-/
namespace Sys2Proof.Machine

/-- The context in which a thread's team runs. -/
def State.ctxOf (s : State) (t : Thread) : Option Ctx := (s.team t.place.team).bind fun x => s.ctx x.ctx

/-- How many threads of the issue set stand before a thread with their guards true: those that take queue entries first. -/
def State.rankOf (s : State) (h : Gd) (t : Thread) : Nat := ((s.front.takeWhile fun u => u.id != t.id).filter fun u => u.guard h).length

/-- The launch of a thread, 0 for a quay core's. -/
def State.launchNo (s : State) (t : Thread) : Nat :=
  match s.team t.place.team with
  | some x => x.launch
  | none => 0

/-- An operation as a thread issues it. -/
def State.engOp (s : State) (t : Thread) : EngOp := ⟨s.nextId, t.id, s.launchNo t, t.pos⟩

/-- Codes of the engines in records (R397). -/
def engLighter : Nat := 1
def engMatrix : Nat := 2
def engSplat : Nat := 3
def engWalker : Nat := 4

/-- A record of kind 2: a fault of an engine's access, at which the agent stalls (R410). -/
def State.agentFault (s : State) (entry op launch : Nat) (core : CoreId) (pos : Pos) (f : Flt) (addr : Nat) : State :=
  ({ s with nextId := s.nextId + 1 }).post {
    id := s.nextId, quay := quayOf core, cause := f.cause, reason := f.reason, kind := 2, loc := false, entry := entry, core := core,
    lane := 0, pc := pos.pc.toNat, addr := addr, info := 0, party := .agent op, launch := launch }

/-- A tile operation has completed: its thread's counter falls, and its flags join the thread's (R33, R124). -/
def State.tileDone (s : State) (tid : Nat) (f : BitVec 5) : State :=
  match s.thread tid with
  | none => s
  | some t => if t.exited then s else (s.down tid .tile).addFlags tid f

/-- Writes of a completed tile operation, which its thread sees with the completion (R226). -/
def State.tileWrites (s : State) (tid : Nat) (ids : List Nat) : State :=
  s.onThread tid fun t => { t with out := { t.out with unseenT := t.out.unseenT ++ ids } }

/-- A cause for the next clause header of a thread, unless it has exited. -/
def State.causeLive (s : State) (tid : Nat) (c : Cause) : State :=
  match s.thread tid with
  | none => s
  | some t => if t.exited then s else s.cause tid c

/-! ## Reads and writes of global memory by an agent -/

/-- What keeps an agent's access from performing. -/
inductive AErr where
  /-- A fault of translation, at an address. -/
  | flt (f : Flt) (addr : Nat)
  /-- A line lost with its die (R432). -/
  | lost (reason addr : Nat)
  /-- A link that is down, at an address (R430). -/
  | cut (addr : Nat)
  /-- A link that retrains: the access waits (R429). -/
  | held
  deriving DecidableEq, Repr

/-- The pieces of n bytes at an address, each inside a 64-byte block. -/
def pieces (a n : Nat) : List (Nat × Nat) :=
  (List.range ((a + n + 63) / 64 - a / 64)).map fun i =>
    let lo := Nat.max a (64 * (a / 64 + i))
    let hi := Nat.min (a + n) (64 * (a / 64 + i + 1))
    (lo, hi - lo)

/-- Translates an address for an agent. -/
def State.agentAt (s : State) (x : Xl) (acc : Acc) (va : Nat) : Except AErr Nat :=
  match s.translate x acc va with
  | .error f => .error (.flt f va)
  | .ok pa =>
    if s.linkCut pa then .error (.cut va)
    else if s.lost pa != 0 then .error (.lost (s.lost pa) va)
    else if s.linkHeld pa then .error .held
    else .ok pa

/-- Translates pieces. -/
def State.agentPieces (s : State) (x : Xl) (acc : Acc) : List (Nat × Nat) → Except AErr (List (Nat × Nat))
  | [] => .ok []
  | (a, n) :: l =>
    match s.agentAt x acc (a % 2 ^ 64) with
    | .error e => .error e
    | .ok pa => match s.agentPieces x acc l with
      | .error e => .error e
      | .ok r => .ok ((pa, n) :: r)

/-- Joins reads of successive pieces. -/
def ReadRes.join (a b : ReadRes) : ReadRes := ⟨a.bytes ++ b.bytes, a.wids ++ b.wids, a.poison || b.poison⟩

/-- An agent reads n bytes at a scope, as its issuing thread would (R226). -/
def State.agentRead (s : State) (x : Xl) (w : Who) (sc : Scope) (va n : Nat) : Except AErr ReadRes :=
  match s.agentPieces x .read (pieces va n) with
  | .error e => .error e
  | .ok ps => .ok (ps.foldl (fun r p => r.join (s.readAt w sc p.1 p.2)) ⟨[], [], false⟩)

/-- The TLB fills that an agent's access of n bytes leaves. -/
def State.agentFill (s : State) (x : Xl) (va n : Nat) : State :=
  ((pieces va n).map fun p => p.1 / 4096).eraseDups.foldl (fun s p => s.fillTlb x (4096 * p)) s

/-- The physical cells of bytes at a virtual address. -/
def State.agentCells (s : State) (x : Xl) (va : Nat) (bs : List Byte) : Except AErr (List Host.Cell) :=
  match s.agentPieces x .write (pieces va bs.length) with
  | .error e => .error e
  | .ok ps => .ok ((ps.foldl (fun (r : List Host.Cell × List Byte) p => (r.1 ++ cellsAt p.1 (r.2.take p.2), r.2.drop p.2)) ([], bs)).1)

/-- A thread's address space and its place as a reader, by its identifier. -/
def State.agentOf (s : State) (tid : Nat) : Option (Xl × Who) := (s.thread tid).map fun t => (t.xl, t.who)

/-- What the walk for an address of an agent leaves behind, when it ends in a fault (R379). -/
def State.tried (s : State) (tid addr : Nat) : State :=
  match s.agentOf tid with
  | some (x, _) => s.fillTlb x addr
  | none => s

/-- Commits a write that stands at every point of the system at once (R226). -/
def State.commitPub (s : State) (w : Who) (cells : List Host.Cell) (bad : List Nat) : Nat × State :=
  let r := s.commit w 0 none cells bad []
  (r.1, r.2.onMs fun m => { m with writes := m.writes.map fun x => if x.id == r.1 then { x with pub := true } else x })

end Sys2Proof.Machine
end

