-- ==== Sys2Proof/Machine/Mx.lean ====
section
/-!
DEFINITION. The matrix engine (R114 to R136): the MX instructions, which check and enqueue operations, and the operations
in queue order, with exact block sums, one rounding for each K-block, and the assist for tiny roundings.
-/
namespace Sys2Proof.Machine

/-! ## The parameter block (R119, R120) -/

/-- The element format of a block. -/
def mxFmt (blk : Nat) : Nat := bitsOf blk 81 80
/-- Bytes of a K-block region (R79). -/
def mxRegion (fmt : Nat) : Nat := if fmt = 0 then 1088 else if fmt = 1 then 576 else 2048
def mxKb (blk : Nat) : Nat := bitsOf blk 79 64
def mxBase (blk : Nat) (b : Bool) : Nat := if b then bitsOf blk 63 32 else bitsOf blk 31 0
/-- The distance between regions: 0 stands for the size of a region. -/
def mxStride (blk : Nat) (b : Bool) : Nat :=
  let x := if b then bitsOf blk 159 128 else bitsOf blk 127 96
  if x = 0 then mxRegion (mxFmt blk) else x

/-- A vault base as R120 takes it: a core of the issuing die, a multiple of 64, and n bytes inside the vault. -/
def mxAddrOk (die va n : Nat) : Bool :=
  bitsOf va 23 22 == 0 && bitsOf va 31 30 == die && va % 64 == 0 && decide (bitsOf va 21 0 + n ≤ 2 ^ 22)

/-- The first failing check of a parameter block (R120). -/
def mxCheck (die blk : Nat) : Option Nat :=
  if bitsOf blk 255 160 != 0 || bitsOf blk 95 82 != 0 then some 0x03
  else if mxKb blk = 0 ∨ 128 < mxKb blk then some 0x02
  else if bitsOf blk 159 128 % 64 != 0 || bitsOf blk 127 96 % 64 != 0 then some 0x02
  else if [false, true].all fun b =>
      mxAddrOk die (mxBase blk b) ((mxKb blk - 1) * mxStride blk b + mxRegion (mxFmt blk)) then none
  else some 0x02

/-! ## Issue (R116, R117, R128 to R134) -/

/-- Operations in the queue of a core, over its contexts. -/
def State.mxCount (s : State) (c : CoreId) : Nat := ((s.en.ctxs.filter fun x => x.core == c).map fun x => x.mxq.length).foldl (· + ·) 0

/-- An MX instruction waits for a queue entry and for its counter. -/
def State.mxAsk (s : State) (i : Instr) (h : Gd) : Ask :=
  { Ask.of (useOf i) with ready := fun t => decide (t.ctr.tiles < 63) && decide (s.mxCount t.place.core + s.rankOf h t < 32) }

/-- The matrix engine about to begin the head of its queue. -/
def State.mxFresh (s : State) : MxRun := { MxRun.idle with since := s.clock.toNat }

/-- Enqueues an operation of a thread. -/
def State.mxPut (s : State) (t : Thread) (k : MxKind) : State :=
  match s.ctxOf t with
  | none => s.advance t.id
  | some c =>
    let op : MxOp := ⟨s.engOp t, k⟩
    ((({ s with nextId := s.nextId + 1 }).onCtx c.id fun x => { x with
      mxq := x.mxq ++ [op], mxrun := if x.mxq.isEmpty then s.mxFresh else x.mxrun }).up t.id .tile).advance t.id

/-- An MX instruction: each thread that executes checks its operands and enqueues its operation, once the engine has no work of
another context (R136). -/
def mxIssue (i : Instr) (h : Gd) (f : Thread → Except Nat MxKind) (s : State) : Out :=
  .next (s.issue h (s.mxAsk i h) fun ts s1 => ts.foldl (fun s' t =>
    if s.engineBusy t then s'.holdFor t .engine
    else match f t with
      | .error c => s'.trapHere t c 0 0 0
      | .ok k => s'.mxPut t k) s1)

/-- A slot counts as loaded: an MXLD of it has issued (R129). -/
def Ctx.loaded (c : Ctx) (slot : Nat) : Bool :=
  (c.slots.getD slot none).isSome || c.mxq.any fun o => match o.kind with
    | .ld n _ => n == slot
    | _ => false

def execMxld (h : Gd) (a : Opnd) (slot : Fin 4) (s : State) : Out :=
  mxIssue (.mxld h a slot) h (fun t =>
    let blk := ofWords (s.rdSpan t a 8)
    match mxCheck t.place.core.die blk with
    | some c => .error c
    | none => .ok (.ld slot.val blk)) s

def execMxrun (h : Gd) (tl : Fin 8) (slot : Fin 4) (acc : Bool) (s : State) : Out :=
  mxIssue (.mxrun h tl slot acc) h (fun t =>
    if (s.ctxOf t).any fun c => c.loaded slot.val then .ok (.run tl.val slot.val acc) else .error 0x02) s

def execMxz (h : Gd) (tl : Fin 8) (s : State) : Out := mxIssue (.mxz h tl) h (fun _ => .ok (.zero tl.val)) s

/-- Bytes of the region of a form of MXST (R133). -/
def formBytes : MxForm → Nat
  | .w48 => 8192 | .f32 => 4096 | .f16 => 2048 | .bf16 => 2048

def execMxst (h : Gd) (tl : Fin 8) (a : Opnd) (form : MxForm) (relu : Bool) (scale : Option Opnd) (s : State) : Out :=
  mxIssue (.mxst h tl a form relu scale) h (fun t =>
    let va := (s.rd t a).toNat
    if mxAddrOk t.place.core.die va (formBytes form) then .ok (.st tl.val va form relu (scale.map fun o => s.rd t o)) else .error 0x02) s

def execMxlda (h : Gd) (tl : Fin 8) (a : Opnd) (f32 : Bool) (s : State) : Out :=
  mxIssue (.mxlda h tl a f32) h (fun t =>
    let va := (s.rd t a).toNat
    if mxAddrOk t.place.core.die va (if f32 then 4096 else 8192) then .ok (.lda tl.val va f32) else .error 0x02) s

/-- The tile that an operation names. -/
def MxKind.tile : MxKind → Option Nat
  | .ld _ _ => none | .run t _ _ => some t | .zero t => some t | .st t _ _ _ _ => some t | .lda t _ _ => some t

/-- The contexts of a core with operations in its matrix engine: one at most (R136). -/
def State.mxBusy (s : State) (c : CoreId) : List Ctx := s.en.ctxs.filter fun x => x.core == c && !x.mxq.isEmpty

/-- MXQRY.OCC (R134): the occupancy of the core's queue, the tiles named there, the slots loaded in the thread's context, an assist in
progress. -/
def State.mxOcc (s : State) (t : Thread) : Word :=
  let busy := s.mxBusy t.place.core
  let tiles := (busy.flatMap fun c => c.mxq.filterMap fun o => o.kind.tile).eraseDups
  let slots := (List.range 4).filter fun n => (s.ctxOf t).any fun c => c.loaded n
  BitVec.ofNat 32 (s.mxCount t.place.core + maskOf tiles * 2 ^ 8 + maskOf slots * 2 ^ 16 + (if busy.any fun c => c.mxrun.stopped then 2 ^ 20 else 0))

/-- Lateral latency of R22 between two cores of a die; 0 for the core's own vault. -/
def lateral (a b : Nat) : Nat :=
  let hops := (Nat.max (a % 8) (b % 8) - Nat.min (a % 8) (b % 8)) + (Nat.max (a / 8) (b / 8) - Nat.min (a / 8) (b / 8))
  if a = b then 0 else 40 + 4 * hops

/-- Cycles of an operation in the reference timing model (R135), given the slots' contents. -/
def mxCycles (core : Nat) (slots : List (Option Nat)) (k : MxKind) : Nat :=
  let far := fun va => lateral core (bitsOf va 29 24)
  match k with
  | .ld _ _ => 1
  | .zero _ => 4
  | .run _ slot _ =>
    let blk := (slots.getD slot none).getD 0
    24 + (if mxFmt blk = 0 then 2 else if mxFmt blk = 1 then 1 else 8) * mxKb blk + Nat.max (far (mxBase blk false)) (far (mxBase blk true))
  | .st _ va form _ _ => 24 + formBytes form / 128 + far va
  | .lda _ va f32 => 24 + (if f32 then 4096 else 8192) / 128 + far va

/-- When the last operation of a context's queue completes, in the reference timing model: from the cycle in which the head began, with
1,500 cycles for each assist that it has met (R135). -/
def Ctx.mxEnd (c : Ctx) : Nat :=
  (c.mxq.foldl (fun (p : Nat × List (Option Nat)) o =>
    let slots := match o.kind with
      | .ld n blk => p.2.set n (some blk)
      | _ => p.2
    (p.1 + mxCycles c.core.core slots o.kind, slots)) (c.mxrun.since + 1500 * c.mxrun.assists, c.slots)).1

/-- MXQRY.EST (R134): when the last operation queued completes, in the reference timing model. -/
def State.mxEst (s : State) (t : Thread) : Dword :=
  BitVec.ofNat 64 (listMax (s.clock.toNat :: (s.mxBusy t.place.core).map Ctx.mxEnd))

/-- What a query asks: room in its counter (R34). -/
def queryAsk (i : Instr) : Ask := { Ask.of (useOf i) with ready := fun t => decide (t.ctr.tiles < 63) }

/-- A query is answered at issue; its counter rises and falls in the same cycle. -/
def mxQuery (i : Instr) (h : Gd) (d : Opnd) (f : State → Thread → List Word) (s : State) : Out :=
  .next (s.issue h (queryAsk i) fun ts s1 =>
    ts.foldl (fun s' t => (s'.advance t.id).wrSpan t (isLead ts t) d (f s t)) s1)

def execMxqryOcc (h : Gd) (d : Opnd) (s : State) : Out := mxQuery (.mxqryOcc h d) h d (fun s t => [s.mxOcc t]) s
def execMxqryEst (h : Gd) (d : Opnd) (s : State) : Out := mxQuery (.mxqryEst h d) h d (fun s t => toWords 2 (s.mxEst t).toNat) s

/-! ## Block arithmetic (R121 to R123) -/

/-- Layout row i of a region of listed bytes, decoded (R79, R121). -/
def mxRow (fmt i : Nat) (region : Nat → Byte) : List FV :=
  let b := fun (k : Nat) => (region k).toNat
  if fmt = 0 then (List.range 32).map fun k => dxDecode false (b (1024 + 2 * i)) (b (1025 + 2 * i)) (b (32 * i + k))
  else if fmt = 1 then
    (List.range 32).map fun k =>
      dxDecode true (b (512 + 2 * i)) (b (513 + 2 * i)) (b (16 * i + k / 2) / 2 ^ (4 * (k % 2)) % 16)
  else
    (List.range 32).map fun k => (if fmt = 2 then fp16 else bf16).decode (b (64 * i + 2 * k) + 256 * b (64 * i + 2 * k + 1))

/-- The bytes of row i that its decoding reads. -/
def mxRowBytes (fmt i : Nat) : List (Nat × Nat) :=
  if fmt = 0 then [(32 * i, 32), (1024 + 2 * i, 2)] else if fmt = 1 then [(16 * i, 16), (512 + 2 * i, 2)] else [(64 * i, 64)]

/-- The exact sum of products (R122): the sum and its flags. -/
def blockSum (a b : List FV) : FV × Flags :=
  let ps := a.zip b
  let sf := sigFlag (a ++ b)
  if ps.any fun p => p.1.isNaN || p.2.isNaN then (.nan false, sf)
  else if ps.any fun p => (p.1.isZero && p.2.isInf) || (p.1.isInf && p.2.isZero) then (.nan false, flagINV)
  else
    let infs := (ps.filter fun p => p.1.isInf || p.2.isInf).map fun p => p.1.isNeg != p.2.isNeg
    if infs.contains true && infs.contains false then (.nan false, flagINV)
    else match infs with
      | n :: _ => (.inf n, 0)
      | [] => match ps.map fun p => p.1.mulFin p.2 with
        | [] => (.fin false 0 0, 0)
        | x :: l => (l.foldl (FV.addFin .rn) x, 0)

/-- A finite exact value is tiny in a format (R68): its magnitude, rounded as if the exponent were unbounded, lies below the
smallest normal. -/
def tinyIn (F : Fmt) (v : FV) : Bool :=
  match v with
  | .fin n m e =>
    m != 0 &&
      (let t : Int := e + (Nat.log2 m + 1 : Nat) - (F.fb + 1 : Nat)
       let r := roundAt .rn n m e t
       decide (t + F.fb + (if r.1 == 2 ^ (F.fb + 1) then 1 else 0) < F.emin))
  | _ => false

/-- The exact sum of an accumulator and a block sum, when both are finite. -/
def accSum (acc s : FV) : Option FV := if acc.isNaN || acc.isInf || s.isNaN || s.isInf then none else some (acc.addFin .rn s)

/-! ## Progress of operations -/

/-- Element n of a tile, +0 where the tile has not been written. -/
def Ctx.elem (c : Ctx) (t n : Nat) : Nat := (c.tiles.getD t []).getD n 0

/-- The head of a context's queue, when the engine may work on it: it is not stopped for an assist nor stalled (R125, R410). -/
def State.mxHead (s : State) (cx : Nat) : Option (Ctx × MxOp) :=
  match s.ctx cx with
  | none => none
  | some c =>
    match c.mxq with
    | [] => none
    | o :: _ => if c.mxrun.stopped || c.mxrun.stalled || s.md.failed.getLsbD c.core.die then none else some (c, o)

/-- The operation at the head has completed. -/
def State.mxPop (s : State) (cx tid : Nat) (f : Flags) : State :=
  (s.onCtx cx fun x => { x with mxq := x.mxq.drop 1, mxrun := s.mxFresh }).tileDone tid f

/-- Elements of a tile, among those numbered 1024·tile + element. -/
def tileHas (t n : Nat) : Bool := n / 1024 == t

/-- Writes a whole tile, which holds no uncorrectable error then. -/
def State.setTile (s : State) (cx t : Nat) (l : List Nat) : State :=
  s.onCtx cx fun x => { x with tiles := x.tiles.set t l, badElems := x.badElems.filter fun n => !tileHas t n }

/-- A tile of one value. -/
def flatTile (v : Nat) : List Nat := List.replicate 1024 v

/-- The first poisoned word of vault spans: addresses and lengths (R127, R398). -/
def State.badWord (s : State) (l : List (Nat × Nat)) : Option Nat := (l.flatMap fun p => wordsOf p.1 p.2).find? fun w => s.ms.vpoison.contains w

/-- An operation ends at an uncorrectable error of its vault reads, at a word (R127). -/
def State.mxPoison (s : State) (cx tid t va : Nat) : State :=
  ((s.setTile cx t (flatTile w48.qnan)).mxPop cx tid 0).causeLive tid (poisonCause va engMatrix)

/-- A vault region that the engine may not reach: its core lies outside the partition, or is lost. -/
def State.mxFault (s : State) (c : Ctx) (vas : List Nat) : Option Nat :=
  vas.find? fun va => !s.vaultCore c.part ⟨bitsOf va 31 30, bitsOf va 29 24⟩

/-- The engine stalls at a vault address (R233, R399, R410). -/
def State.mxStall (s : State) (c : Ctx) (o : MxOp) (va : Nat) : State :=
  (s.onCtx c.id fun x => { x with mxrun := { x.mxrun with stalled := true } }).agentFault engMatrix o.eng.id o.eng.launch c.core o.eng.pos
    ⟨0x11, 10⟩ va

/-- The engine stops for an assist (R125, R397, R398). -/
def State.mxAssist (s : State) (c : Ctx) (o : MxOp) (reason pc addr info : Nat) : State :=
  (({ s with nextId := s.nextId + 1 }).onCtx c.id fun x => { x with mxrun := { x.mxrun with stopped := true, assists := x.mxrun.assists + 1 } }).post {
    id := s.nextId, quay := quayOf c.core, cause := 0x50, reason := reason, kind := 3, loc := false, entry := 0, core := c.core, lane := 0,
    pc := pc, addr := addr, info := info, party := .assist c.id, launch := o.eng.launch }

/-- MXLD_OPERATION (R129). -/
def execMxldOperation (cx : Nat) (s : State) : Out :=
  .next (match s.mxHead cx with
    | some (_, ⟨e, .ld slot blk⟩) => (s.onCtx cx fun x => { x with slots := x.slots.set slot (some blk) }).mxPop cx e.tid 0
    | _ => s)

/-- MXZ_OPERATION (R131). -/
def execMxzOperation (cx : Nat) (s : State) : Out :=
  .next (match s.mxHead cx with
    | some (_, ⟨e, .zero t⟩) => (s.setTile cx t []).mxPop cx e.tid 0
    | _ => s)

/-- MXLDA_OPERATION (R132). -/
def execMxldaOperation (cx : Nat) (s : State) : Out :=
  .next (match s.mxHead cx with
    | some (c, ⟨e, .lda t va f32⟩) =>
      match s.mxFault c [va] with
      | some a => s.mxStall c ⟨e, .lda t va f32⟩ a
      | none =>
        let n := if f32 then 4 else 8
        match s.badWord [(va, 1024 * n)] with
        | some a => s.mxPoison cx e.tid t a
        | none =>
          let r := (List.range 1024).map fun i =>
            let x := ofBytes (s.ms.vault.readN (va + n * i) n)
            if f32 then cvtFF w48 .rn (fp32.decode x) else (x % 2 ^ 48, 0)
          (s.setTile cx t (r.map Prod.fst)).mxPop cx e.tid (r.foldl (fun f p => f ||| p.2) 0)
    | _ => s)

/-- One rounding of an MXRUN: number r counts K-block by K-block, then row by row (R411). None stops or ends it. Its rows are read as they
stand at this rounding: a word written meanwhile counts as old before that write and as new after it (R126, log 82). -/
def State.mxStep (s : State) (c : Ctx) (o : MxOp) (t : Nat) (acc : Bool) (blk : Nat) : Option MxRun × State :=
  let run := c.mxrun
  let n := run.n
  let kb := n / 1024
  let i := n / 32 % 32
  let j := n % 32
  let fmt := mxFmt blk
  let ra := mxBase blk false + kb * mxStride blk false
  let rb := mxBase blk true + kb * mxStride blk true
  match s.badWord (((mxRowBytes fmt i).map fun p => (ra + p.1, p.2)) ++ (mxRowBytes fmt j).map fun p => (rb + p.1, p.2)) with
  | some a => (none, s.mxPoison c.id o.eng.tid t a)
  | none =>
    let old := if kb = 0 then (if acc then c.elem t (32 * i + j) else 0) else run.work.getD (32 * i + j) 0
    let sum := blockSum (mxRow fmt i fun k => s.ms.vault.read (ra + k)) (mxRow fmt j fun k => s.ms.vault.read (rb + k))
    let sf := sigFlag ((mxRow fmt i fun k => s.ms.vault.read (ra + k)) ++ mxRow fmt j fun k => s.ms.vault.read (rb + k))
    let put := fun (v : Nat) (f : Flags) => some { run with
      n := n + 1, flags := run.flags ||| f ||| sum.2 ||| sf, answer := none, work := if kb = 0 then run.work ++ [v] else run.work.set (32 * i + j) v }
    match run.answer with
    | some (v, f) => (put v f, s)
    | none =>
      if (accSum (w48.decode old) sum.1).any (tinyIn w48) then (none, s.mxAssist c o 1 old (ra + rb * 2 ^ 32) (t + i * 2 ^ 3 + j * 2 ^ 8 + fmt * 2 ^ 13))
      else
        let r := addF w48 .rn (w48.decode old) sum.1
        (put r.1 r.2, s)

/-- Roundings of an MXRUN, up to a number of them; the last completes it. -/
def State.mxSteps (s : State) (cx : Nat) : Nat → State
  | 0 => s
  | m + 1 =>
    match s.mxHead cx with
    | some (c, ⟨e, .run t slot acc⟩) =>
      let blk := (c.slots.getD slot none).getD 0
      let r := s.mxStep c ⟨e, .run t slot acc⟩ t acc blk
      match r.1 with
      | none => r.2
      | some run =>
        if run.n = 1024 * mxKb blk then (r.2.setTile cx t run.work).mxPop cx e.tid run.flags
        else (r.2.onCtx cx fun x => { x with mxrun := run }).mxSteps cx m
    | _ => s

/-- MXRUN_OPERATION (R125, R130): up to n roundings. -/
def execMxrunOperation (cx n : Nat) (s : State) : Out :=
  .next (match s.mxHead cx with
    | some (c, ⟨e, .run t slot acc⟩) =>
      let blk := (c.slots.getD slot none).getD 0
      match s.mxFault c [mxBase blk false, mxBase blk true] with
      | some a => s.mxStall c ⟨e, .run t slot acc⟩ a
      | none => s.mxSteps cx n
    | _ => s)

/-! ## MXST (R133) -/

/-- The format of a form. -/
def formFmt : MxForm → Fmt
  | .w48 => w48 | .f32 => fp32 | .f16 => fp16 | .bf16 => bf16

/-- The value that MXST rounds, scaled exactly, with the flags raised before the rounding. -/
def mxstValue (x : FV) (scale : Option FV) : FV × Flags :=
  match scale with
  | none => (x, sigFlag [x])
  | some s =>
    if x.isNaN || s.isNaN then (.nan false, sigFlag [x, s])
    else if (x.isZero && s.isInf) || (x.isInf && s.isZero) then (.nan false, flagINV)
    else if x.isInf || s.isInf then (.inf (x.isNeg != s.isNeg), 0)
    else (x.mulFin s, 0)

/-- RELU on a pattern. -/
def reluOf (F : Fmt) (relu : Bool) (p : Nat) : Nat := if relu && !(F.decode p).isNaN && (F.decode p).isNeg then 0 else p

/-- Bytes of an element of a form. -/
def formElem : MxForm → Nat
  | .w48 => 8 | .f32 => 4 | .f16 => 2 | .bf16 => 2

/-- The words of a region of MXST that hold elements with an uncorrectable error, which it writes poisoned (R127, R427). -/
def Ctx.badOut (c : Ctx) (t va : Nat) (form : MxForm) : List Nat :=
  let n := formElem form
  ((c.badElems.filter (tileHas t)).flatMap fun k => wordsOf (va + n * (k % 1024)) n).eraseDups

/-- The writes of an MXST. -/
def State.mxStore (s : State) (c : Ctx) (t va : Nat) (form : MxForm) (vals : List Nat) : State :=
  (s.vwrite va (vals.flatMap (toBytes (formElem form))) false).onMs fun m => { m with vpoison := m.vpoison ++ c.badOut t va form }

/-- Roundings of an MXST, up to a number of them; the last completes it, with its writes. -/
def State.mxstSteps (s : State) (cx : Nat) : Nat → State
  | 0 => s
  | m + 1 =>
    match s.mxHead cx with
    | some (c, ⟨e, .st t va form relu scale⟩) =>
      let n := c.mxrun.n
      let F := formFmt form
      let old := c.elem t n
      let x := mxstValue (w48.decode old) (scale.map fun w => fp32.decode w.toNat)
      let res : Option (Nat × Flags) := match c.mxrun.answer with
        | some (v, f) => some (v, f)
        | none => if form == .f32 && tinyIn fp32 x.1 then none else some (encodeFV F .rn x.1)
      match res with
      | none => s.mxAssist c ⟨e, .st t va form relu scale⟩ 2 old (match scale with
          | some w => w.toNat
          | none => 0x3F800000) (t + n / 32 * 2 ^ 3 + n % 32 * 2 ^ 8 + 1 * 2 ^ 13)
      | some r =>
        let run := { c.mxrun with n := n + 1, flags := c.mxrun.flags ||| x.2 ||| r.2, answer := none, work := c.mxrun.work ++ [reluOf F relu r.1] }
        if run.n = 1024 then
          (s.mxStore c t va form run.work).mxPop cx e.tid run.flags
        else (s.onCtx cx fun x => { x with mxrun := run }).mxstSteps cx m
    | _ => s

/-- MXST_OPERATION (R125, R133): up to n roundings. -/
def execMxstOperation (cx n : Nat) (s : State) : Out :=
  .next (match s.mxHead cx with
    | some (c, ⟨e, .st t va form relu scale⟩) =>
      match s.mxFault c [va] with
      | some a => s.mxStall c ⟨e, .st t va form relu scale⟩ a
      | none => s.mxstSteps cx n
    | _ => s)

end Sys2Proof.Machine
end

