-- ==== Sys2Proof/Machine/Splat.lean ====
section
/-!
DEFINITION. What a splat pass computes (R140 to R156, R159 to R162, R460): primitive, view and pass records, projection,
binning, sorting, resolving a pixel, and the gradients of the backward replay and of the reduction. Every step is FP32 on
patterns, rounded to nearest, or exact.
-/
namespace Sys2Proof.Machine

/-! ## Records (R140, R143, R144) -/

def fHalf : Nat := 0x3F000000
def fOne : Nat := 0x3F800000

/-- A primitive record (R140): kind, opacity, the ten words from MEAN on, colour. -/
structure Prim where
  tri : Bool
  opac : Nat
  words : List Nat
  col : List Nat
  deriving DecidableEq, Repr

/-- A primitive of a record; none where the record is malformed (R141). -/
def primOf (b : Nat) : Option Prim :=
  let kind := bitsOf b 1 0
  if kind ≥ 2 || bitsOf b 511 448 != 0 || bitsOf b 31 2 != 0 || (kind == 1 && bitsOf b 63 32 != 0) then none
  else some ⟨kind == 1, bitsOf b 63 32, (List.range 9).map fun i => bitsOf b (95 + 32 * i) (64 + 32 * i),
    (List.range 3).map fun i => bitsOf b (383 + 32 * i) (352 + 32 * i)⟩

def vwW (v i j : Nat) : Nat := bitsOf v (128 * i + 32 * j + 31) (128 * i + 32 * j)
def vwFx (v : Nat) : Nat := bitsOf v 415 384
def vwFy (v : Nat) : Nat := bitsOf v 447 416
def vwCx (v : Nat) : Nat := bitsOf v 479 448
def vwCy (v : Nat) : Nat := bitsOf v 511 480

def pdTm (d : Nat) : Nat := bitsOf d 63 0
def pdTms (d : Nat) : Nat := bitsOf d 127 64
def pdCbase (d : Nat) : Nat := bitsOf d 191 128
def pdLbase (d : Nat) : Nat := bitsOf d 255 192
def pdVmask (d : Nat) : Nat := bitsOf d 383 256
def pdWidth (d : Nat) : Nat := bitsOf d 399 384
def pdHeight (d : Nat) : Nat := bitsOf d 415 400
def pdNear (d : Nat) : Nat := bitsOf d 447 416
def pdFar (d : Nat) : Nat := bitsOf d 479 448
/-- The cut-off: zero of either sign selects 1/10000. -/
def pdCut (d : Nat) : Nat := if bitsOf d 510 480 = 0 then 0x38D1B717 else bitsOf d 511 480
def pdBg (d : Nat) : List Nat := (List.range 3).map fun k => bitsOf d (543 + 32 * k) (512 + 32 * k)
def pdDie (d s : Nat) : Nat := bitsOf d (609 + 2 * s) (608 + 2 * s)
def pdCmask (d die : Nat) : Nat := bitsOf d (703 + 64 * die) (640 + 64 * die)
def pdTw (d : Nat) : Nat := ceilDiv (pdWidth d) 16
def pdTh (d : Nat) : Nat := ceilDiv (pdHeight d) 16
/-- The enabled views, ascending. -/
def pdViews (d : Nat) : List Nat := (List.range 128).filter fun w => pdVmask d / 2 ^ w % 2 == 1
/-- The dies that DIEMAP names. -/
def pdDies (d : Nat) : List Nat := ((List.range 4).map (pdDie d)).eraseDups
/-- The cores of a pass (R146). -/
def pdCores (d : Nat) : List CoreId :=
  (pdDies d).flatMap fun die => ((List.range 64).filter fun c => pdCmask d die / 2 ^ c % 2 == 1).map fun c => ⟨die, c⟩
/-- Start of the list area (R147). -/
def pdLists (d : Nat) : Nat := 0x8000 + 16 * (pdViews d).length * pdTw d * pdTh d

/-- The checks of R145: the first cause. `views` is the size of the view table; `qbad` says that a named queue cannot serve. -/
def pdCheck (booted : Nat → Bool) (views : Nat) (qbad : Bool) (d : Nat) : Option Nat :=
  let near := pdNear d
  let cut := bitsOf d 511 480
  if bitsOf d 2047 896 != 0 || bitsOf d 639 616 != 0 then some 0x03
  else if !(decide (1 ≤ pdWidth d) && decide (pdWidth d ≤ 16384) && decide (1 ≤ pdHeight d) && decide (pdHeight d ≤ 16384)) then some 0x02
  else if pdVmask d / 2 ^ views != 0 then some 0x02
  else if !(fFinite near && fLt 0 near) || (fDec (pdFar d)).isNaN || (fDec cut).isNaN || fLt cut 0 || fLe fOne cut then some 0x02
  else if (pdDies d).any fun x => !booted x || pdCmask d x == 0 then some 0x02
  else if pdTm d % 4096 != 0 || pdCbase d % 64 != 0 || pdLbase d % 64 != 0 then some 0x02
  else if pdTms d < pdLists d then some 0x02
  else if qbad then some 0x70
  else none

/-! ## Projection (R148 to R150) -/

/-- Dot3. -/
def dot3 (p q : List Nat) : Nat :=
  let a := fun (l : List Nat) (i : Nat) => l.getD i 0
  fFma (a p 2) (a q 2) (fFma (a p 1) (a q 1) (fMul (a p 0) (a q 0)))

/-- A point in a view: x, y and depth in view space. -/
def viewPt (v : Nat) (p : List Nat) : List Nat :=
  (List.range 3).map fun i => fFma (vwW v i 2) (p.getD 2 0) (fFma (vwW v i 1) (p.getD 1 0) (fFma (vwW v i 0) (p.getD 0 0) (vwW v i 3)))

/-- A projected point: u, v, depth, and x and y over the depth, with its reciprocal; none where the depth fails. -/
structure PtP where
  u : Nat
  v : Nat
  z : Nat
  xs : Nat
  ys : Nat
  rz : Nat
  deriving DecidableEq, Repr

def projPt (d v : Nat) (p : List Nat) : Option PtP :=
  let t := viewPt v p
  let z := t.getD 2 0
  if !(fLe (pdNear d) z && fLt z (pdFar d)) then none
  else
    let rz := fDiv fOne z
    let xs := fMul (t.getD 0 0) rz
    let ys := fMul (t.getD 1 0) rz
    some ⟨fFma (vwFx v) xs (vwCx v), fFma (vwFy v) ys (vwCy v), z, xs, ys, rz⟩

/-- A projected Gaussian: key, centre, conic, radius in pixels, opacity, colour, index. -/
structure Gs where
  key : Nat
  u : Nat
  v : Nat
  ca : Nat
  cb : Nat
  cc : Nat
  rad : Int
  o : Nat
  col : List Nat
  idx : Nat
  deriving DecidableEq, Repr

/-- The ceiling of a finite value. -/
def fCeil (p : Nat) : Int := -(fFloor (fNeg p))

/-- The greater of a value and zero. -/
def fPos (p : Nat) : Nat := if fLt 0 p then p else 0

/-- R148. -/
def projGauss (d v : Nat) (p : Prim) (idx : Nat) : Option Gs :=
  match projPt d v p.words with
  | none => none
  | some q =>
    let sg := fun (i : Nat) => p.words.getD (3 + i) 0
    let rows := [[sg 0, sg 1, sg 2], [sg 1, sg 3, sg 4], [sg 2, sg 4, sg 5]]
    let j0 := fMul (vwFx v) q.rz
    let j1 := fMul (vwFy v) q.rz
    let h0 := fNeg (fMul j0 q.xs)
    let h1 := fNeg (fMul j1 q.ys)
    let m0 := (List.range 3).map fun k => fFma h0 (vwW v 2 k) (fMul j0 (vwW v 0 k))
    let m1 := (List.range 3).map fun k => fFma h1 (vwW v 2 k) (fMul j1 (vwW v 1 k))
    let n0 := rows.map fun r => dot3 r m0
    let n1 := rows.map fun r => dot3 r m1
    let a := fAdd (dot3 m0 n0) 0x3E800000
    let b := dot3 m0 n1
    let c := fAdd (dot3 m1 n1) 0x3E800000
    let det := fFma a c (fNeg (fMul b b))
    if !fLt 0 det then none
    else
      let rd := fDiv fOne det
      let ca := fMul c rd
      let cb := fNeg (fMul b rd)
      let cc := fMul a rd
      let mid := fMul (fAdd a c) fHalf
      let lam := fAdd mid (fSqrt (fPos (fFma mid mid (fNeg det))))
      let rad := fMul 0x40400000 (fSqrt lam)
      if !([q.u, q.v, ca, cb, cc, rad].all fFinite) then none
      else some ⟨q.z, q.u, q.v, ca, cb, cc, fCeil rad, p.opac, p.col, idx⟩

/-- A tile number lies between two pixel coordinates, divided by 16 (R149). -/
def spanHas (lo hi : Int) (t : Nat) : Bool := decide (lo / 16 ≤ t) && decide ((t : Int) ≤ hi / 16)

/-- The largest integer not above u + k, for a finite u. -/
def floorPlus (u : Nat) (k : Int) : Int := fFloor u + k

/-- R149: a Gaussian enters the list of a tile. -/
def Gs.inTile (g : Gs) (tx ty : Nat) : Bool :=
  spanHas (floorPlus g.u (-g.rad)) (floorPlus g.u g.rad) tx && spanHas (floorPlus g.v (-g.rad)) (floorPlus g.v g.rad) ty

/-- A finite value in units of 2^-149. -/
def fFix (p : Nat) : Int :=
  match fDec p with
  | .fin n m e => (if n then -1 else 1) * ((m * 2 ^ (e + 149).toNat : Nat) : Int)
  | _ => 0

/-- A projected triangle: its vertices in units of 2^-149, its depths, colour, index. -/
structure Tri where
  us : List Nat
  vs : List Nat
  zs : List Nat
  col : List Nat
  idx : Nat
  deriving DecidableEq, Repr

def Tri.u (t : Tri) (i : Nat) : Int := fFix (t.us.getD i 0)
def Tri.v (t : Tri) (i : Nat) : Int := fFix (t.vs.getD i 0)
def Tri.z (t : Tri) (i : Nat) : Int := fFix (t.zs.getD i 0)

/-- The edge function of an edge from vertex a to vertex b at a point. -/
def Tri.edge (t : Tri) (a b : Nat) (x y : Int) : Int := (t.u b - t.u a) * (y - t.v a) - (t.v b - t.v a) * (x - t.u a)

/-- The area term of R150. -/
def Tri.area (t : Tri) : Int := t.edge 0 1 (t.u 2) (t.v 2)

/-- R150. -/
def projTri (d v : Nat) (p : Prim) (idx : Nat) : Option Tri :=
  match (List.range 3).mapM fun i => projPt d v ((p.words.drop (3 * i)).take 3) with
  | none => none
  | some qs =>
    if !(qs.all fun q => fFinite q.u && fFinite q.v) then none
    else
      let t : Tri := ⟨qs.map PtP.u, qs.map PtP.v, qs.map PtP.z, p.col, idx⟩
      if t.area = 0 then none else some t

/-- The least and the greatest floor of listed finite values. -/
def floorMin (l : List Nat) : Int := (l.map fFloor).foldl min ((l.head?.map fFloor).getD 0)
def floorMax (l : List Nat) : Int := (l.map fFloor).foldl max ((l.head?.map fFloor).getD 0)

/-- A triangle's bounding box overlaps a tile. -/
def Tri.inTile (t : Tri) (tx ty : Nat) : Bool := spanHas (floorMin t.us) (floorMax t.us) tx && spanHas (floorMin t.vs) (floorMax t.vs) ty

/-! ## Tiles (R151, R152) -/

/-- The die that owns a tile. -/
def tileDie (d tx ty : Nat) : Nat := pdDie d (tx % 2 + 2 * (ty % 2))

/-- The core that works on a tile of a view (R151). -/
def tileCore (d tx ty w : Nat) : CoreId :=
  let die := tileDie d tx ty
  let cs := (List.range 64).filter fun c => pdCmask d die / 2 ^ c % 2 == 1
  ⟨die, cs.getD ((tx / 2 + 7 * (ty / 2) + 3 * w) % (if cs.length = 0 then 1 else cs.length)) 0⟩

/-- Every tile of every enabled view, in directory order. -/
def pdTiles (d : Nat) : List (Nat × Nat × Nat) :=
  (pdViews d).flatMap fun w => (List.range (pdTh d)).flatMap fun ty => (List.range (pdTw d)).map fun tx => (w, tx, ty)

/-- The pixels of a tile inside the image, row by row. -/
def tilePixels (d tx ty : Nat) : List (Nat × Nat) :=
  (List.range 16).flatMap fun j => (List.range 16).filterMap fun i =>
    let x := 16 * tx + i
    let y := 16 * ty + j
    if x < pdWidth d ∧ y < pdHeight d then some (x, y) else none

/-- A list of a tile: Gaussians in order, triangles in order. -/
structure TileList where
  gs : List Gs
  tris : List Tri
  deriving DecidableEq, Repr

/-- R152: ascending keys, equal keys by index. -/
def sortGs (l : List Gs) : List Gs := sortBy (fun (a b : Gs) => decide (a.key < b.key) || (a.key == b.key && decide (a.idx ≤ b.idx))) l

/-- The most entries of a list (R153). -/
def listCap : Nat := 2 ^ 24

/-- The list of a tile from the primitives of its die, ascending by index: at most 2^24 entries of lowest index, and the
number that it would hold (R149 to R153). -/
def tileList (d view tx ty : Nat) (ps : List (Nat × Prim)) : TileList × Nat :=
  let es := ps.filterMap fun p =>
    if p.2.tri then match projTri d view p.2 p.1 with
      | some t => if t.inTile tx ty then some (Sum.inr t) else none
      | none => none
    else match projGauss d view p.2 p.1 with
      | some g => if g.inTile tx ty then some (Sum.inl g) else none
      | none => none
  let kept := es.take listCap
  (⟨sortGs (kept.filterMap fun e => match e with
      | .inl g => some g
      | .inr _ => none), kept.filterMap fun e => match e with
      | .inr t => some t
      | .inl _ => none⟩, es.length)

/-! ## Resolving a pixel (R154, R155) -/

/-- A pixel's centre in units of 2^-149, and as FP32. -/
def centreFix (x : Nat) : Int := ((2 * x + 1) * 2 ^ 148 : Nat)
def centreF (x : Nat) : Nat := fMul (fInt (2 * x + 1 : Nat)) fHalf

/-- The depth of a triangle at a pixel that it covers (R154). -/
def Tri.depthAt (t : Tri) (x y : Nat) : Option Nat :=
  let s : Int := if t.area < 0 then -1 else 1
  let px := centreFix x
  let py := centreFix y
  let e := fun (a b : Nat) => s * t.edge a b px py
  let inside := fun (a b : Nat) =>
    let nu := -s * (t.v b - t.v a)
    let nv := s * (t.u b - t.u a)
    decide (0 < e a b) || (e a b == 0 && (decide (0 < nu) || (nu == 0 && decide (0 < nv))))
  if inside 0 1 && inside 1 2 && inside 2 0 then
    let num := s * t.area * (t.z 0 * t.z 1 * t.z 2)
    let den := e 1 2 * (t.z 1 * t.z 2) + e 2 0 * (t.z 0 * t.z 2) + e 0 1 * (t.z 0 * t.z 1)
    some (divF fp32 .rn (.fin false num.natAbs (-149)) (.fin false den.natAbs 0)).1
  else none

/-- The opaque resolve: Dop and base. -/
def opaqueAt (d : Nat) (ts : List Tri) (x y : Nat) : Nat × List Nat :=
  ts.foldl (fun r t => match t.depthAt x y with
    | some z => if fLe (pdNear d) z && fLt z (pdFar d) && fLt z r.1 then (z, t.col) else r
    | none => r) (pdFar d, pdBg d)

/-- An entry blended at a pixel: its Gaussian, position in the list, α, G, offsets, whether α was clamped. -/
structure Hit where
  g : Gs
  pos : Nat
  al : Nat
  ex : Nat
  dx : Nat
  dy : Nat
  clamped : Bool
  deriving DecidableEq, Repr

/-- Alpha of R155 for an entry at a pixel: α after the clamp, G, offsets, whether it was clamped, and whether the entry is skipped. -/
structure AlphaAt where
  al : Nat
  ex : Nat
  dx : Nat
  dy : Nat
  clamped : Bool
  skipped : Bool

def Gs.alphaAt (g : Gs) (px py : Nat) : AlphaAt :=
  let dx := fSub px g.u
  let dy := fSub py g.v
  let e := fFma g.ca (fMul dx dx) (fFma g.cc (fMul dy dy) (fMul (fMul 0x40000000 g.cb) (fMul dx dy)))
  let ex := expRF (fMul (fNeg fHalf) e)
  let al := fMul g.o ex
  let cl := fLt 0x3F7D70A4 al
  ⟨if cl then 0x3F7D70A4 else al, ex, dx, dy, cl, (fDec al).isNaN || fLt al 0x3B808081⟩

/-- The blended entries of a pixel (R155), from transmittance t on. -/
def blended (cut dop px py : Nat) : Nat → List (Nat × Gs) → List Hit
  | _, [] => []
  | t, (pos, g) :: l =>
    if fLe dop g.key then []
    else
      let a := g.alphaAt px py
      if a.skipped then blended cut dop px py t l
      else
        let tn := fMul t (fSub fOne a.al)
        if fLt tn cut then [] else ⟨g, pos, a.al, a.ex, a.dx, a.dy, a.clamped⟩ :: blended cut dop px py tn l

/-- The blended entries of a pixel, with the base colour. -/
def pixelHits (d : Nat) (tl : TileList) (x y : Nat) : List Hit × List Nat :=
  let o := opaqueAt d tl.tris x y
  (blended (pdCut d) o.1 (centreF x) (centreF y) fOne (indexed tl.gs), o.2)

/-- Accumulates a colour. -/
def accCol (w : Nat) (col c : List Nat) : List Nat := (List.range 3).map fun k => fFma w (col.getD k 0) (c.getD k 0)

/-- What a pixel receives: three colours, transmittance, and the last contributor. -/
def resolvePixel (d : Nat) (tl : TileList) (x y : Nat) : List Nat × Nat × Nat :=
  let h := pixelHits d tl x y
  let r := h.1.foldl (fun (s : List Nat × Nat × Nat) k =>
    (accCol (fMul k.al s.2.1) k.g.col s.1, fMul s.2.1 (fSub fOne k.al), k.g.idx)) ([0, 0, 0], fOne, 0xFFFFFFFF)
  (accCol r.2.1 h.2 r.1, r.2.1, r.2.2)

/-- A pixel of a tile written empty (R153). -/
def emptyPixel (d : Nat) : List Nat × Nat × Nat := (accCol fOne (pdBg d) [0, 0, 0], fOne, 0xFFFFFFFF)

/-! ## Gradients (R160, R162) -/

/-- The nine values of a blended entry at a pixel. -/
def hitGrad (h : Hit) (t tf gt : Nat) (p cf g : List Nat) : List Nat :=
  let at_ := fun (l : List Nat) (k : Nat) => l.getD k 0
  let om := fSub fOne h.al
  let w := fMul h.al t
  let da0 := fNeg (fDiv (fMul gt tf) om)
  let da := (List.range 3).foldl (fun da k =>
    fFma (at_ g k) (fSub (fMul t (at_ h.g.col k)) (fDiv (fSub (at_ cf k) (at_ p k)) om)) da) da0
  let gp := if h.clamped then 0 else fMul da h.al
  let go := if h.clamped then 0 else fMul da h.ex
  let mh := fNeg fHalf
  [fMul gp (fFma h.g.ca h.dx (fMul h.g.cb h.dy)), fMul gp (fFma h.g.cb h.dx (fMul h.g.cc h.dy)),
    fMul gp (fMul mh (fMul h.dx h.dx)), fMul gp (fNeg (fMul h.dx h.dy)), fMul gp (fMul mh (fMul h.dy h.dy)),
    go, fMul (at_ g 0) w, fMul (at_ g 1) w, fMul (at_ g 2) w]

/-- The contributions of a pixel: position in the list and nine values, in forward order. -/
def pixelGrads (tf gt : Nat) (cf g : List Nat) : Nat → List Nat → List Hit → List (Nat × List Nat)
  | _, _, [] => []
  | t, p, h :: l =>
    let p' := accCol (fMul h.al t) h.g.col p
    (h.pos, hitGrad h t tf gt p' cf g) :: pixelGrads tf gt cf g (fMul t (fSub fOne h.al)) p' l

/-- One term added to a W48 sum. -/
def w48Add (acc x : Nat) : Nat := (addF w48 .rn (w48.decode acc) (fDec x)).1

/-- Lists of FP32 values summed field by field in W48 from +0, in order, each rounded once to FP32. -/
def sumFields (n : Nat) (ls : List (List Nat)) : List Nat :=
  (List.range n).map fun k => (cvtFF fp32 .rn (w48.decode (ls.foldl (fun acc l => w48Add acc (l.getD k 0)) 0))).1

/-- A gradient record (R161): index, view, tile, nine values. -/
structure GradRec where
  idx : Nat
  view : Nat
  tile : Nat
  vals : List Nat
  deriving DecidableEq, Repr

/-- Its 48 bytes: u, v, conic A, B, C, opacity, colour. -/
def GradRec.bytes (r : GradRec) : List Byte := ([r.idx, r.view, r.tile] ++ r.vals).flatMap (toBytes 4)

/-- A record of 384 bits. -/
def gradOf (b : Nat) : GradRec :=
  ⟨bitsOf b 31 0, bitsOf b 38 32, bitsOf b 95 64, (List.range 9).map fun k => bitsOf b (127 + 32 * k) (96 + 32 * k)⟩

/-- The records of a tile: one for each entry blended at some pixel, from the contributions of its pixels in row-major order. -/
def tileGrads (w tile : Nat) (gs : List Gs) (cs : List (Nat × List Nat)) : List GradRec :=
  (indexed gs).filterMap fun p =>
    let mine := (cs.filter fun c => c.1 == p.1).map Prod.snd
    if mine.isEmpty then none else some ⟨p.2.idx, w, tile, sumFields 9 mine⟩

/-- R162: records sorted by index, view and tile, and each run of equal index and view summed. -/
def reduceGrads (l : List GradRec) : List GradRec :=
  let le := fun (a b : GradRec) =>
    decide (a.idx < b.idx) || (a.idx == b.idx && (decide (a.view < b.view) || (a.view == b.view && decide (a.tile ≤ b.tile))))
  let s := sortBy le l
  (s.map fun r => (r.idx, r.view)).eraseDups.map fun k =>
    ⟨k.1, k.2, 0xFFFFFFFF, sumFields 9 ((s.filter fun r => r.idx == k.1 && r.view == k.2).map GradRec.vals)⟩

/-! ## Tile memory and tiles (R147, R153, R460) -/

/-- A field of the bytes of tile memory, read as a number. -/
def tmBits (m ofs n : Nat) : Nat := m / 2 ^ (8 * ofs) % 2 ^ (8 * n)
def tmView (m w : Nat) : Nat := tmBits m (0x200 + 64 * w) 64
/-- The batches: address, count, first index. -/
def tmBatches (m : Nat) : List (Nat × Nat × Nat) :=
  (List.range 1024).filterMap fun b =>
    let e := tmBits m (0x4000 + 16 * b) 16
    if bitsOf e 95 64 = 0 then none else some (bitsOf e 63 0, bitsOf e 95 64, bitsOf e 127 96)
/-- The address of a primitive. -/
def tmPrim (bs : List (Nat × Nat × Nat)) (i : Nat) : Option Nat :=
  (bs.find? fun b => decide (b.2.2 ≤ i) && decide (i < b.2.2 + b.2.1)).map fun b => b.1 + 64 * (i - b.2.2)

/-- The primitives of a die that are drawn, ascending: a poisoned one is discarded in every view (R164), a malformed one
where it is (R141). -/
def drawn (ps : List PrimRead) (die : Nat) : List (Nat × Prim) :=
  let bad := (ps.filter PrimRead.bad).map PrimRead.idx
  let l := (ps.filter fun p => p.die == die && !bad.contains p.idx).filterMap fun p => (primOf p.bits).map fun q => (p.idx, q)
  sortBy (fun (a b : Nat × Prim) => decide (a.1 ≤ b.1)) l

/-- A tile of a finished pass. -/
structure TileOut where
  w : Nat
  tx : Nat
  ty : Nat
  list : TileList
  /-- Entries that it would hold. -/
  n : Nat
  /-- Offset of its list, none where the list area ran out. -/
  lofs : Option Nat
  deriving DecidableEq, Repr

def TileOut.size (t : TileOut) : Nat := t.list.gs.length + t.list.tris.length
def TileOut.ovl (t : TileOut) : Bool := decide (listCap < t.n)
def TileOut.empty (t : TileOut) : Bool := t.lofs.isNone

/-- Places lists in the list area, in the order given; one without entries needs no place. -/
def placeLists (cap : Nat) : Nat → List (Nat × TileOut) → List (Nat × TileOut)
  | _, [] => []
  | used, (k, t) :: l =>
    let n := 8 * t.size
    if used + n ≤ cap then (k, { t with lofs := some used }) :: placeLists cap (used + n) l else (k, t) :: placeLists cap used l

/-- The tiles of a pass in directory order, their lists placed in an order that is free (R153). -/
def tilesOf (s : State) (d : Nat) (view : Nat → Nat) (ps : List PrimRead) : List TileOut :=
  let ts := (pdTiles d).map fun t =>
    let r := tileList d (view t.1) t.2.1 t.2.2 (drawn ps (tileDie d t.2.1 t.2.2))
    (⟨t.1, t.2.1, t.2.2, r.1, r.2, none⟩ : TileOut)
  let order := sortBy (fun (a b : Nat × TileOut) => decide (Config.freeNat (s.free + 18 * a.1) ≤ Config.freeNat (s.free + 18 * b.1))) (indexed ts)
  (sortBy (fun (a b : Nat × TileOut) => decide (a.1 ≤ b.1)) (placeLists (pdTms d - pdLists d) 0 order)).map Prod.snd

end Sys2Proof.Machine
end

