-- ==== Sys2Proof/Machine/Timing.lean ====
section
/-!
DEFINITION. Estimates in the reference timing model for the engines' operations (R135, R174, R208, R453), from which CPUB and
CSHAD.OFF take their promises (R294). What an estimate reads is memory and the engines as they stand when it is made; a read that
meets a fault counts as zeros (log 65).
-/
namespace Sys2Proof.Machine

/-! ## The matrix engine (R135) -/

/-- When the operations of a context issued before a number complete in the matrix engine. -/
def Ctx.mxEndBefore (c : Ctx) (bound : Nat) : Nat :=
  let l := c.mxq.filter fun o => decide (o.eng.id < bound)
  if l.isEmpty then 0 else Ctx.mxEnd { c with mxq := l }

/-! ## The splat units (R174, R453) -/

/-- What an estimate reads. -/
def State.peek (s : State) (x : Xl) (w : Who) (a n : Nat) : Nat :=
  match s.agentRead x w .die a n with
  | .ok r => r.val
  | .error _ => 0

/-- The merge levels of n things: Ceil(log4096 n), and at least 1. -/
def mergeLevels (n : Nat) : Nat := ((List.range 6).find? fun k => decide (n ≤ 4096 ^ (k + 1))).getD 6 + 1

/-- Evaluations of Alpha by the loop of R155 at a pixel, from transmittance t on: skipped entries count, and the one at which the
loop stops; the Dop test ends it uncounted (R453). -/
def evaluations (cut dop px py : Nat) : Nat → List Gs → Nat
  | _, [] => 0
  | t, g :: l =>
    if fLe dop g.key then 0
    else
      let a := g.alphaAt px py
      if a.skipped then 1 + evaluations cut dop px py t l
      else
        let tn := fMul t (fSub fOne a.al)
        if fLt tn cut then 1 else 1 + evaluations cut dop px py tn l

/-- Evaluations at the pixels of a tile. -/
def tileEvals (d : Nat) (tl : TileList) (tx ty : Nat) : Nat :=
  ((tilePixels d tx ty).map fun p =>
    evaluations (pdCut d) (opaqueAt d tl.tris p.1 p.2).1 (centreF p.1) (centreF p.2) fOne tl.gs).foldl (· + ·) 0

/-- The work of a pass: for each tile its core, the entries of its list, its evaluations. -/
def passWork (d : Nat) (ts : List TileOut) : List (CoreId × Nat × Nat) :=
  (ts.filter fun t => !t.empty).map fun t => (tileCore d t.tx t.ty t.w, t.size, tileEvals d t.list t.tx t.ty)

/-- The greatest value over the cores of a pass of a figure of their entries and evaluations. -/
def worstCore (d : Nat) (work : List (CoreId × Nat × Nat)) (f : Nat → Nat → Nat) : Nat :=
  listMax ((pdCores d).map fun c =>
    let l := work.filter fun x => x.1 == c
    f ((l.map fun x => x.2.1).foldl (· + ·) 0) ((l.map fun x => x.2.2).foldl (· + ·) 0))

/-- The descriptor of a pass. -/
def State.passBits (s : State) (x : Xl) (w : Who) (p : Pass) : Nat := if p.tm = 0 then s.peek x w p.desc 256 else p.bits

/-- A view of a pass: of its tile memory, or before that of its context's table. -/
def State.passView (s : State) (x : Xl) (w : Who) (c : Ctx) (p : Pass) (v : Nat) : Nat :=
  if p.tm = 0 then c.views.getD v 0 else s.peek x w (p.tm + 0x200 + 64 * v) 64

/-- The primitives of a pass: those read, and those of batches that wait in the queue. -/
def State.passPrims (s : State) (x : Xl) (w : Who) (c : Ctx) (p : Pass) (d : Nat) : List PrimRead :=
  p.prims ++ c.splq.flatMap fun o => match o.kind with
    | .sub q va n _ first =>
      if q == p.id && o.phase == 0 then
        (List.range n).flatMap fun k => let b := s.peek x w (va + 64 * k) 64; (pdDies d).map fun die => (⟨first + k, die, b, false, 0⟩ : PrimRead)
      else []
    | _ => []

/-- The work of the SPEND of a pass. -/
def State.spendWork (s : State) (x : Xl) (w : Who) (c : Ctx) (p : Pass) : Nat × List (CoreId × Nat × Nat) :=
  let d := s.passBits x w p
  (d, passWork d (tilesOf s d (s.passView x w c p) (s.passPrims x w c p d)))

/-- The tiles that tile memory holds, projected again (R159, R460). -/
def State.storedTiles (s : State) (x : Xl) (w : Who) (tm d m : Nat) : List TileOut :=
  (indexed (pdTiles d)).filterMap fun t =>
    let e := s.peek x w (tm + 0x8000 + 16 * t.1) 16
    if bitsOf e 127 127 = 1 then none
    else
      let ng := bitsOf e 88 64
      let at_ := fun (i : Nat) => s.peek x w (tm + bitsOf e 47 0 + 8 * i) 8
      let prim := fun (i : Nat) => ((tmPrim (tmBatches m) i).bind fun a => primOf (s.peek x w a 64))
      let gs := (List.range ng).filterMap fun i =>
        let v := at_ i
        (prim (bitsOf v 63 32)).bind fun q => (projGauss d (tmView m t.2.1) q (bitsOf v 63 32)).map fun g => { g with key := bitsOf v 31 0 }
      let ts := (List.range (bitsOf e 120 96)).filterMap fun i =>
        let v := at_ (ng + i)
        (prim (bitsOf v 63 32)).bind fun q => projTri d (tmView m t.2.1) q (bitsOf v 63 32)
      some ⟨t.2.1, t.2.2.1, t.2.2.2, ⟨gs, ts⟩, ng, some 0⟩

/-- The work of an SPBWD: that of the SPEND whose lists it replays, which a pass of the context is to write, or tile memory holds. -/
def State.bwdWork (s : State) (x : Xl) (w : Who) (c : Ctx) (tm : Nat) : Nat × List (CoreId × Nat × Nat) :=
  match c.passes.find? fun p => p.tm == tm || (p.tm == 0 && pdTm (s.passBits x w p) == tm) with
  | some p => s.spendWork x w c p
  | none =>
    let m := s.peek x w tm 0x8000
    let d := m % 2 ^ 2048
    (d, passWork d (s.storedTiles x w tm d m))

/-- The smallest core count among the dies of a pass. -/
def leastCores (d : Nat) : Nat := ((pdDies d).map fun x => popCount 64 (pdCmask d x)).foldl Nat.min 64

/-- Cycles of a splat operation, from the head of its queue to its completion (R174). -/
def State.splCycles (s : State) (x : Xl) (w : Who) (c : Ctx) (o : SplOp) : Nat :=
  let pass := fun (p : Nat) => c.passes.find? fun y => y.id == p
  match o.kind with
  | .view _ n => 24 + n
  | .beginP _ => 200
  | .sub p _ n _ _ => match pass p with
    | some y => let d := s.passBits x w y; 40 + ceilDiv (n * (pdViews d).length) (4 * Nat.max 1 (leastCores d))
    | none => 40
  | .endP p abort => match pass p with
    | some y =>
      if abort || y.failed then 40
      else
        let k := s.spendWork x w c y
        300 + worstCore k.1 k.2 fun e b => mergeLevels e * ceilDiv e 128 + ceilDiv b 64
    | none => 40
  | .bwd tm _ => let k := s.bwdWork x w c tm; 300 + worstCore k.1 k.2 fun _ b => ceilDiv b 16
  | .red src _ =>
    let h := s.peek x w src 16
    let m := Nat.min (bitsOf h 63 0) (bitsOf h 127 64)
    100 + ceilDiv m 128 * (if m ≤ 1 then 0 else mergeLevels m) + ceilDiv m 64

/-- When the operations of a context issued before a number complete in the splat units. -/
def State.splEndBefore (s : State) (c : Ctx) (bound : Nat) : Nat :=
  let l := c.splq.filter fun o => decide (o.eng.id < bound)
  if l.isEmpty then 0
  else l.foldl (fun n o => match s.agentOf o.eng.tid with
    | some (x, w) => n + s.splCycles x w c o
    | none => n) c.splSince

/-! ## Fields (R208) -/

/-- When a field operation completes. -/
def FOp.end_ (f : FOp) : Nat :=
  f.since + match f.kind with
    | .open_ _ _ => 200
    | .put _ _ _ => 40
    | .comp _ _ _ l _ _ => 40 + 12 * l.length + ceilDiv (fdCells ((l.head?.map Link.desc).getD 0) * l.length) 4
    | _ => 16

/-- When a history load completes, with every hop of its chain. -/
def Walk.end_ (w : Walk) : Nat := w.since + 40 + 12 * w.chain.length

/-- A thread runs in a context. -/
def State.tidIn (s : State) (tid cx : Nat) : Bool := ((s.thread tid).bind s.ctxOf).any fun x => x.id == cx

/-- Field operations and history loads of a context issued before a number. -/
def State.fopsBefore (s : State) (cx bound : Nat) : List FOp := s.en.fops.filter fun f => decide (f.id < bound) && s.tidIn f.tid cx
def State.walksBefore (s : State) (cx bound : Nat) : List Walk :=
  s.en.walks.filter fun w => decide (w.id < bound) && w.st != .discarded && w.st != .again && s.tidIn w.tid cx

/-- The latest completion of the MX, SPL and FLD operations of a context issued before a number, 0 for none (R294). -/
def State.enginesEnd (s : State) (cx bound : Nat) : Nat :=
  listMax ((match s.ctx cx with
    | some c => [c.mxEndBefore bound, s.splEndBefore c bound]
    | none => []) ++ (s.fopsBefore cx bound).map FOp.end_ ++ (s.walksBefore cx bound).map Walk.end_)

/-- MX, SPL or FLD operations of a context issued before a number are not complete. -/
def State.enginesWork (s : State) (cx bound : Nat) : Bool :=
  (match s.ctx cx with
    | some x => (x.mxq.any fun o => decide (o.eng.id < bound)) || x.splq.any fun o => decide (o.eng.id < bound)
    | none => false) || !(s.fopsBefore cx bound).isEmpty || !(s.walksBefore cx bound).isEmpty

end Sys2Proof.Machine
end

