-- ==== Sys2Proof/Machine/Copy.lean ====
section
/-!
DEFINITION. The lighter (R276 to R301): copy instructions, batches and promises, admission, the movement of bytes unit by
unit, shadow regions, CPUB and CSHAD.OFF, and the writes of every engine agent to global memory (R226, R298).
-/
namespace Sys2Proof.Machine

/-! ## Writes of agents, and shadow regions (R226, R298) -/

/-- An agent that writes: its thread as a writer, its address space, its context, and its admission number. -/
structure Agent where
  who : Who
  xl : Xl
  ctx : Nat
  adm : Nat
  deriving DecidableEq, Repr

/-- The region of a context that holds back an agent's write at an address: it was armed before the agent's admission, and no CSHAD.OFF
admitted before the agent closes it (R298). -/
def State.regionAt (s : State) (g : Agent) (va : Nat) : Option Nat :=
  match s.ctx g.ctx with
  | none => none
  | some c => (List.range 8).find? fun n => match c.shadows.getD n none with
    | some r => decide (r.armed < g.adm) && !(r.closed.any fun n => decide (n < g.adm)) && decide (r.base ≤ va) && decide (va < r.base + r.len)
    | none => false

/-- Holds back a write. -/
def State.holdWrite (s : State) (g : Agent) (n : Nat) (cells : List Host.Cell) (bad : List Nat) : State :=
  s.onCtx g.ctx fun c => { c with shadows := c.shadows.modify n fun r => r.map fun r => { r with pending := r.pending ++ [⟨g.adm, cells, bad⟩] } }

/-- One piece of an agent's write, inside a 64-byte block: held back, committed, or discarded on a link that is down. -/
def State.agentPiece (s : State) (g : Agent) (va : Nat) (bs : List Byte) (bad : Bool) : Except AErr (List Nat × State) :=
  match s.agentAt g.xl .write va with
  | .error (.cut a) => .ok ([], s.logFree ((s.translate g.xl .write a).toOption.getD 0) (some 5) g.who.core.die 2)
  | .error e => .error e
  | .ok pa =>
    let s1 := s.fillTlb g.xl va
    let cells := cellsAt pa bs
    let bads := if bad then cells.map Prod.fst else []
    match s1.regionAt g va with
    | some n => .ok ([], s1.holdWrite g n cells bads)
    | none => let r := s1.commit g.who 0 none cells bads []; .ok ([r.1], r.2)

/-- An agent writes bytes at an effective address: the numbers of the writes committed. -/
def State.agentWrite (s : State) (g : Agent) (bad : Bool) : List (Nat × Nat) → List Byte → Except AErr (List Nat × State)
  | [], _ => .ok ([], s)
  | (a, n) :: l, bs =>
    match s.agentPiece g (a % 2 ^ 64) (bs.take n) bad with
    | .error e => .error e
    | .ok r => match r.2.agentWrite g bad l (bs.drop n) with
      | .error e => .error e
      | .ok q => .ok (r.1 ++ q.1, q.2)

/-! ## Issue (R277, R283, R297, R299) -/

/-- Copy operations that a thread holds unsealed. -/
def Thread.copiesFull (t : Thread) : Bool := decide (64 ≤ t.out.unsealed.length)

/-- A copy operation of a thread, as it stood before the issue. -/
def State.putCopy (s : State) (t : Thread) (k : CopyKind) (cb : Nat) (d : Opnd) (stream : Nat) (sc : Scope) (rel : Bool) (bound : Nat) : State :=
  let cx := (s.ctxOf t).map Ctx.id
  let c : Copy := {
    id := s.nextId, tid := t.id, launch := s.launchNo t, core := t.place.core, ctx := cx.getD 0, kind := k, pos := t.pos, cb := cb, d := d,
    stream := stream, scope := sc, rel := rel, bound := bound, adm := none, chan := 0, bits := none, promise := none, raw := none, bytes := 0,
    started := false, done := 0, aux := [], table := [], early := [], held := [], ran := false, writes := [], fault := none, poison := false,
    badBlock := false, extra := [], stalled := false, finished := false }
  (((({ s with nextId := s.nextId + 1 }).onEn fun e => { e with copies := e.copies ++ [c] }).onThread t.id fun x =>
    { x with out := { x.out with unsealed := x.out.unsealed ++ [c.id] } }).hold t c.id d 2).advance t.id

/-- The read of a command block is a read of the thread in the free stream at core scope (R277). -/
def State.placeBlock (s : State) (t : Thread) (op cb : Nat) : State :=
  s.place t false ⟨15, .core, false, false, false⟩ (.copyBlock op) .none 0 [APart.new 0 32 cb]

/-- A copy instruction with a command block. -/
def copyIssue (i : Instr) (h : Gd) (x : CopyArg) (deny : Thread → Bool) (kind : Thread → CopyKind) (s : State) : Out :=
  .next (s.issue h { Ask.of (useOf i) with deny := deny } fun ts s1 => ts.foldl (fun s' t =>
    let cb := (s.rd2 t x.a).toNat
    if cb % 32 != 0 then s'.trapHere t 0x02 0 0 0
    else if !canonical cb then s'.trapHere t 0x10 1 cb 0
    else if t.copiesFull then s'.trapHere t 0x31 6 cb 0
    else (s'.putCopy t (kind t) cb (destOf ts t x.d) x.stream.val x.scope x.rel s.nextId).placeBlock t s'.nextId cb) s1)

def execCpy (h : Gd) (x : CopyArg) (s : State) : Out := copyIssue (.cpy h x) h x (fun _ => false) (fun _ => .cpy) s
def execCpys (h : Gd) (x : CopyArg) (s : State) : Out := copyIssue (.cpys h x) h x (fun _ => false) (fun _ => .cpys) s
/-- CPYB is granted: bit 0 of the partition's BTGRANT (R283). -/
def execCpyb (h : Gd) (x : CopyArg) (s : State) : Out :=
  copyIssue (.cpyb h x) h x (fun t => !(s.part t.place.part).btgrant.getLsbD 0) (fun _ => .cpyb) s
def execCpyx (h : Gd) (x : CopyArg) (s : State) : Out := copyIssue (.cpyx h x) h x (fun _ => false) (fun _ => .cpyx) s
def execCfill (h : Gd) (x : CopyArg) (b : Opnd) (s : State) : Out :=
  copyIssue (.cfill h x b) h x (fun _ => false) (fun t => .fill (s.rd t b)) s

/-- A region of a thread's context is armed. -/
def State.shadowOf (s : State) (t : Thread) (n : Nat) : Option Shadow := (s.ctxOf t).bind fun c => c.shadows.getD n none

/-- CPUB and CSHAD.OFF: operations on an armed region. -/
def shadowIssue (i : Instr) (h : Gd) (d : Opnd) (sh : Nat) (k : CopyKind) (s : State) : Out :=
  .next (s.issue h (Ask.of (useOf i)) fun ts s1 => ts.foldl (fun s' t =>
    if (s'.shadowOf t sh).isNone then s'.trapHere t 0x02 0 0 0
    else if t.copiesFull then s'.trapHere t 0x31 6 0 0
    else s'.putCopy t k 0 (destOf ts t d) 15 .system false s.nextId) s1)

def execCpub (h : Gd) (d : Opnd) (sh : Fin 8) (s : State) : Out := shadowIssue (.cpub h d sh) h d sh.val (.pub sh.val) s
def execCshadOff (h : Gd) (d : Opnd) (sh : Fin 8) (s : State) : Out := shadowIssue (.cshadOff h d sh) h d sh.val (.off sh.val) s

/-- An arming is allowed (R297). -/
def armOk (shs : List (Option Shadow)) (n base len : Nat) : Bool :=
  let on := shs.filterMap id
  (shs.getD n none).isNone && base % 64 == 0 && len % 64 == 0 && decide (64 ≤ len) && decide (len ≤ 2 ^ 24) &&
    on.all (fun r => !rangesMeet base len r.base r.len) && decide ((on.map Shadow.len).foldl (· + ·) len ≤ 2 ^ 24)

/-- CSHAD: arms a region at issue. -/
def execCshad (h : Gd) (sh : Fin 8) (a b : Opnd) (s : State) : Out :=
  .next (s.issue h (Ask.of (useOf (.cshad h sh a b))) fun ts s1 => ts.foldl (fun s' t =>
    match s'.ctxOf t with
    | none => s'.advance t.id
    | some c =>
      let base := (s.rd2 t a).toNat
      let len := (s.rd t b).toNat
      if armOk c.shadows sh.val base len then
        (({ s' with nextId := s'.nextId + 1 }).onCtx c.id fun x => { x with shadows := x.shadows.set sh.val (some ⟨base, len, s'.nextId, none, []⟩) }).advance t.id
      else s'.trapHere t 0x02 0 0 0) s1)

/-! ## Batches (R290 to R292) -/

/-- What CSEAL asks: room in the batch counter (R34). -/
def sealAsk (i : Instr) : Ask := { Ask.of (useOf i) with ready := fun t => decide (t.ctr.batches < 63) }

/-- The operations of a batch. -/
def State.opsOf (s : State) (b : Batch) : List Copy := s.en.copies.filter fun c => b.ops.contains c.id

/-- The promise of a batch, once every operation is admitted. -/
def State.promiseOf (s : State) (b : Batch) : Option Nat :=
  let ops := s.opsOf b
  if ops.isEmpty then some b.sealedAt
  else if ops.all fun c => c.promise.isSome then some (listMax (ops.map fun c => c.promise.getD 0)) else none

/-- The batch of a token register. -/
def State.batchOf (s : State) (t : Thread) (k : Nat) : Option Batch :=
  match t.regs.getK k with
  | some (.batch b) => s.en.batches.find? fun x => x.id == b
  | _ => none

/-- A batch of finished operations: what it lets its thread see, once the thread sees it finished (R226, R289). -/
def State.batchWrites (s : State) (b : Batch) : List Nat := (s.opsOf b).flatMap Copy.writes

/-- Batches whose operations have all finished are finished: their threads' counters fall (R33). One that finishes once the counter has
reached its promise is late (R292, R293). -/
def State.finishBatches (s : State) : State :=
  let done := s.en.batches.filter fun b => b.fin.isNone && (s.opsOf b).all fun c => c.finished
  let s1 := done.foldl (fun s' b => s'.onThread b.tid fun t =>
    { t with ctr := { t.ctr with batches := t.ctr.batches - 1 }, out := { t.out with unseenC := t.out.unseenC ++ s.batchWrites b } }) s
  s1.onEn fun e => { e with
    batches := e.batches.map fun b => if done.any fun x => x.id == b.id then
      { b with fin := some s.clock.toNat, late := (s.promiseOf b).any fun p => decide (p ≤ s.clock.toNat) } else b }

/-- CSEAL (R290). A batch whose operations have all finished is finished at once, and never was unfinished: its counter rises and falls in
the same cycle. -/
def execCseal (h : Gd) (k : Fin 8) (s : State) : Out :=
  .next (s.issue h (sealAsk (.cseal h k)) fun ts s1 => ts.foldl (fun s' t =>
    let b : Batch := ⟨s'.nextId, t.id, t.out.batchNo, t.out.unsealed, s.clock.toNat, none, false⟩
    let now := (s.opsOf b).all fun c => c.finished
    ((({ s' with nextId := s'.nextId + 1 }).onEn fun e => { e with
      batches := e.batches ++ [{ b with fin := if now then some s.clock.toNat else none }] }).onThread t.id fun x => { x with
        ctr := { x.ctr with batches := if now then x.ctr.batches else x.ctr.batches + 1 },
        regs := x.regs.setK k.val (some (.batch b.id)),
        out := { x.out with
          unsealed := [], batchNo := (x.out.batchNo + 1) % 2 ^ 16, unseenC := if now then x.out.unseenC ++ s.batchWrites b else x.out.unseenC } }).advance
          t.id) s1)

/-- CWAIT (R291). -/
def execCwait (h : Gd) (n : Fin 64) (s : State) : Out :=
  .next (s.issue h (Ask.of (useOf (.cwait h n))) fun ts s1 => ts.foldl (fun s' t => s'.waitOrGo t.id (.batches n.val)) s1)

/-- CPROM (R292): the promise, at once or once it is set. -/
def execCprom (h : Gd) (d : Opnd) (k : Fin 8) (s : State) : Out :=
  .next (s.issue h (Ask.of (useOf (.cprom h d k))) fun ts s1 => ts.foldl (fun s' t =>
    match s.batchOf t k.val with
    | none => s'.trapHere t 0x02 0 0 0
    | some b =>
      match s.promiseOf b with
      | some p => (s'.advance t.id).wrSpan t (isLead ts t) d (toWords 2 p)
      | none => (s'.hold t b.id (destOf ts t d) 2).waitOn t.id (.prom b.id (destOf ts t d))) s1)

/-- The cycle counter has reached the promise of a batch while it was unfinished (R292, R293). -/
def State.batchLate (s : State) (b : Batch) : Bool :=
  if b.fin.isSome then b.late else (s.promiseOf b).any fun p => decide (p ≤ s.clock.toNat)

/-- The status of a batch (R292). -/
def State.batchStat (s : State) (b : Batch) : Word :=
  let bad := (s.opsOf b).any fun c => c.fault.isSome || c.badBlock
  BitVec.ofNat 32 ((if b.fin.isSome then 1 else 0) + (if bad then 2 else 0) + (if s.batchLate b then 4 else 0) + b.no * 2 ^ 16)

def execCpromStat (h : Gd) (d : Opnd) (k : Fin 8) (s : State) : Out :=
  .next (s.issue h (Ask.of (useOf (.cpromStat h d k))) fun ts s1 => ts.foldl (fun s' t =>
    match s.batchOf t k.val with
    | none => s'.trapHere t 0x02 0 0 0
    | some b => (s'.advance t.id).wrSpan t (isLead ts t) d [s.batchStat b]) s1)

/-! ## Command blocks (R278 to R285) -/

/-- A 48-bit global address extended, as an exact integer. -/
def gAddr (x : Nat) : Int := signExtend x 48

/-- An exact integer address is canonical. -/
def canonInt (x : Int) : Bool := decide (-2 ^ 47 ≤ x) && decide (x < 2 ^ 47)

/-- The smaller of 0 and n·d, and the larger. -/
def spanLo (n : Nat) (d : Int) : Int := if d < 0 then n * d else 0
def spanHi (n : Nat) (d : Int) : Int := if d < 0 then 0 else n * d

/-- One side of a dense block: vault or global, base, plane and row stride. -/
structure Side where
  vault : Bool
  base : Nat
  zs : Int
  ys : Int
  deriving DecidableEq, Repr

def denseDst (b : Nat) : Side := ⟨bitsOf b 97 97 == 1, bitsOf b 95 48, signExtend (bitsOf b 255 228) 28, signExtend (bitsOf b 227 200) 28⟩
def denseSrc (b : Nat) : Side := ⟨bitsOf b 96 96 == 1, bitsOf b 47 0, signExtend (bitsOf b 199 172) 28, signExtend (bitsOf b 171 144) 28⟩
def denseX (b : Nat) : Nat := bitsOf b 119 100 + 1
def denseY (b : Nat) : Nat := bitsOf b 131 120 + 1
def denseZ (b : Nat) : Nat := bitsOf b 143 132 + 1

/-- Every byte of a global side is canonical. -/
def sideOk (b : Nat) (d : Side) : Bool :=
  d.vault ||
    (canonInt (gAddr d.base + spanLo (denseZ b - 1) d.zs + spanLo (denseY b - 1) d.ys) &&
      canonInt (gAddr d.base + spanHi (denseZ b - 1) d.zs + spanHi (denseY b - 1) d.ys + (denseX b - 1 : Nat)))

/-- Address of byte (x, y, z) of a side. -/
def Side.at (d : Side) (x y z : Nat) : Nat :=
  if d.vault then wrapInt ((d.base : Int) + z * d.zs + y * d.ys + x) 32 else wrapInt (gAddr d.base + z * d.zs + y * d.ys + x) 64

/-- Element bytes of CPYS; of a storage format of CPYX. -/
def sparseEs (b : Nat) : Nat := 2 ^ bitsOf b 225 224
def sparseRow (b : Nat) : Nat := if bitsOf b 207 176 = 0 then 64 * sparseEs b else bitsOf b 207 176
def xSf (b : Nat) : Nat := bitsOf b 241 240
def xDf (b : Nat) : Nat := bitsOf b 243 242
def xEsz (b : Nat) : Nat := if xSf b = 0 then 4 else 2
def xKb (b : Nat) : Nat := bitsOf b 238 232 + 1
def xRole (b : Nat) : Bool := bitsOf b 239 239 == 1
def xStride (b : Nat) : Nat := if bitsOf b 199 168 = 0 then mxRegion (xDf b) else bitsOf b 199 168
def xDist (b : Nat) : Nat := if bitsOf b 247 244 = 0 then (if xDf b = 0 then 6 else 3) else bitsOf b 247 244
/-- Bytes of a block of DX storage. -/
def xBlk (b : Nat) : Nat := if xDf b = 0 then 34 else 18

/-- The last source byte of a CPYX, from its base. -/
def xReach (b : Nat) : Nat :=
  let sp := bitsOf b 231 200
  if xSf b = 3 then 31 * sp + xKb b * xBlk b - 1
  else if xRole b then (32 * xKb b - 1) * sp + 32 * xEsz b - 1
  else 31 * sp + 32 * xKb b * xEsz b - 1

/-- The copy fault found at admission (R295 reasons 1 and 2), and the destination bytes. Of the tiles of CPYS the block says that each
takes its mask at least; what a mask or a table entry leads to beyond that is met when it is read (log 66). -/
def checkBlock (k : CopyKind) (b : Nat) : Option Nat × Nat :=
  match k with
  | .cpy =>
    (if bitsOf b 99 98 != 0 || (bitsOf b 97 97 == 1 && bitsOf b 95 80 != 0) || (bitsOf b 96 96 == 1 && bitsOf b 47 32 != 0) then some 1
      else if !(sideOk b (denseDst b) && sideOk b (denseSrc b)) then some 2 else none, denseX b * denseY b * denseZ b)
  | .fill _ =>
    (if bitsOf b 99 98 != 0 || (bitsOf b 97 97 == 1 && bitsOf b 95 80 != 0) || bitsOf b 96 96 != 0 || bitsOf b 47 0 != 0 || bitsOf b 199 144 != 0 then some 1
      else if !sideOk b (denseDst b) then some 2 else none, denseX b * denseY b * denseZ b)
  | .cpys =>
    (if bitsOf b 255 226 != 0 || bitsOf b 175 128 != 0 || bitsOf b 95 48 != 0 then some 1
      else if bitsOf b 225 224 == 3 || bitsOf b 207 176 % 64 != 0 || bitsOf b 127 96 % 64 != 0 || bitsOf b 47 0 % 8 != 0 ||
          !canonInt (gAddr (bitsOf b 47 0) + 8 * bitsOf b 223 208 + 7) then some 2
      else none, (bitsOf b 223 208 + 1) * 64 * sparseEs b)
  | .cpyb =>
    let nb := bitsOf b 235 220
    (if bitsOf b 159 97 != 0 || (bitsOf b 96 96 == 1 && bitsOf b 47 32 != 0) then some 1
      else if bitsOf b 95 48 % 8 != 0 || !canonInt (gAddr (bitsOf b 95 48) + 8 * nb + 7) ||
          (bitsOf b 96 96 == 0 && !canonInt (gAddr (bitsOf b 47 0) + nb * bitsOf b 191 160 + bitsOf b 255 236)) then some 2
      else none, (nb + 1) * (bitsOf b 255 236 + 1))
  | .cpyx =>
    (if bitsOf b 255 248 != 0 || bitsOf b 167 128 != 0 || bitsOf b 95 48 != 0 then some 1
      else if (decide (2 ≤ xDf b) && bitsOf b 247 244 != 0) || (xSf b == 3 && (decide (2 ≤ xDf b) || xRole b)) || bitsOf b 127 96 % 64 != 0 ||
          bitsOf b 199 168 % 64 != 0 || !canonInt (gAddr (bitsOf b 47 0) + xReach b) then some 2
      else none, xKb b * mxRegion (xDf b))
  | _ => (none, 0)

/-! ## Admission (R276, R277, R294, R301) -/

/-- Vault latency of R22 from a core. -/
def vaultLat (c : CoreId) (va : Nat) : Nat :=
  if bitsOf va 31 30 != c.die then 200 else if bitsOf va 29 24 = c.core then 24 else lateral c.core (bitsOf va 29 24)

/-- Latency of a global byte for a core (R22, R24): the place that serves it: the core's L1, a slice of its die, one of another die, HBM, a
peer. Of the host the manual gives no figure: it is free. -/
def State.globalLat (s : State) (c : Copy) (va : Nat) : Nat :=
  match s.agentOf c.tid with
  | none => 520
  | some (x, _) => match s.translate x .read va with
    | .error _ => 520
    | .ok pa =>
      if s.inPeer pa then 585
      else if isHost pa then Config.freeNat s.free
      else if s.uncached x va then 520
      else if (s.l1Of c.core (pa / 64)).isSome then 28
      else if (s.l2Of c.core.die (pa / 128)).isSome then 160
      else if s.dies.any fun d => (s.l2Of d (pa / 128)).isSome then 300 else 520

/-- The first source byte of a CPYB: of its first block, or, where that is a hole, of its table (log 65). -/
def State.firstBlock (s : State) (c : Copy) (b : Nat) : Nat :=
  let ta := wrapInt (gAddr (bitsOf b 95 48)) 64
  match s.agentOf c.tid with
  | none => ta
  | some (x, w) => let e := s.peek x w ta 8; if e = 0 then ta else (e + bitsOf b 219 192) % 2 ^ 64

/-- Cycles from admission to completion (R301). -/
def State.copyCycles (s : State) (c : Copy) (b bytes : Nat) : Nat :=
  let n := ceilDiv bytes 128
  let side := fun (d : Side) (src : Bool) => if d.vault then vaultLat c.core d.base else if src then s.globalLat c (d.at 0 0 0) else 160
  let src := wrapInt (gAddr (bitsOf b 47 0)) 64
  match c.kind with
  | .cpy => side (denseSrc b) true + side (denseDst b) false + n
  | .fill _ => side (denseDst b) false + n
  | .cpys => s.globalLat c src + vaultLat c.core (bitsOf b 127 96) + n
  | .cpyb => s.globalLat c (s.firstBlock c b) + (if bitsOf b 96 96 = 1 then vaultLat c.core (bitsOf b 47 0) else 160) + 4 * (bitsOf b 235 220 + 1) + n
  | .cpyx => s.globalLat c src + vaultLat c.core (bitsOf b 127 96) + n + (if xDf b < 2 ∧ xSf b ≠ 3 then 2 * xKb b else 0)
  | _ => 40

/-- Operations that hold a slot of a lighter, or of a channel of a die. -/
def State.slotsHeld (s : State) (c : CoreId) (chan : Nat) : List Copy :=
  s.en.copies.filter fun x => x.adm.isSome && !x.finished && x.chan == chan && if chan = 0 then x.core == c else x.core.die == c.die

/-- The channel with a free slot that admits an operation. -/
def State.channelFor (s : State) (c : Copy) : Option Nat :=
  let free := fun (n cap : Nat) => decide ((s.slotsHeld c.core n).length < cap)
  match c.kind with
  | .cpyb =>
    let first := if (s.slotsHeld c.core 2).length < (s.slotsHeld c.core 1).length then [2, 1] else [1, 2]
    first.find? fun n => free n 32
  | _ => if free 0 16 then some 0 else none

/-- The backlog of a channel (R294). -/
def State.backlog (s : State) (c : CoreId) (chan : Nat) : Nat := ((s.slotsHeld c chan).map fun x => ceilDiv x.bytes 128).foldl (· + ·) 0

/-- Copy operations of a context issued before one, not finished. -/
def State.priorCopies (s : State) (c : Copy) : List Copy := s.en.copies.filter fun x => x.ctx == c.ctx && decide (x.id < c.id) && !x.finished

/-- The promise of CPUB and CSHAD.OFF (R294): the later of the admission with its backlog, and the latest completion of earlier agents of
the context, plus 40. -/
def State.pubPromise (s : State) (c : Copy) : Nat :=
  let now := s.clock.toNat + s.backlog c.core 0
  listMax (now :: s.enginesEnd c.ctx c.id :: (s.priorCopies c).map fun x => x.promise.getD 0) + 40

/-- A copy operation has completed (R289): its causes wait for its thread's next header (R295, R296, R459). -/
def State.copyDone (s : State) (id : Nat) : State :=
  match s.copy id with
  | none => s
  | some c =>
    let s1 := s.onCopy id fun x => { x with finished := true }
    let causes : List Cause := (match c.fault with
      | some r => [⟨0x31, r, c.cb, 0, false, none⟩]
      | none => []) ++ (if c.poison || c.badBlock then [poisonCause (if c.badBlock then c.cb else 0) engLighter] else []) ++ c.extra
    (causes.foldl (fun s' x => s'.causeLive c.tid x) s1).finishBatches

/-- Threads waiting at CPROM whose batch now has its promise receive it. -/
def State.promised (s : State) : State :=
  s.wk.threads.foldl (fun s' t =>
    match t.wait with
    | .prom b d => match s.en.batches.find? fun x => x.id == b with
      | some x => match s.promiseOf x with
        | some p => (s'.deliver t.id b d (toWords 2 p)).wake t.id
        | none => s'
      | none => s'
    | _ => s') s

/-- A CSHAD.OFF closes the pending set of its region with its admission (R298). -/
def State.closeShadow (s : State) (c : Copy) (adm : Nat) : State :=
  match c.kind with
  | .off sh => s.onCtx c.ctx fun x => { x with shadows := x.shadows.modify sh fun r => r.map fun r => { r with closed := some (r.closed.getD adm) } }
  | _ => s

/-- Admits an operation: its promise goes to D (R277). -/
def State.admitCopy (s : State) (c : Copy) (chan bytes promise : Nat) (blk fault : Option Nat) (bad : Bool) (extra : List Cause) : State :=
  let s1 := (({ s with nextId := s.nextId + 1, free := s.free + 1 }).onCopy c.id fun x => { x with
    adm := some s.nextId, chan := chan, bits := blk, bytes := bytes, promise := some promise, fault := fault, badBlock := bad, extra := extra }).closeShadow
      c s.nextId
  let s2 := (s1.deliver c.tid c.id c.d (toWords 2 promise)).promised
  if fault.isSome || bad || !extra.isEmpty then s2.copyDone c.id else s2

/-- An agent's fault stalls its copy, with a record (R410). -/
def State.stallCopy (s : State) (c : Copy) (f : Flt) (addr : Nat) : State :=
  ((s.tried c.tid addr).onCopy c.id fun x => { x with stalled := true }).agentFault engLighter c.id c.launch c.core c.pos f addr

/-- The read of the command block of an operation, while it is to be made. -/
def State.blockAcc (s : State) (c : Copy) : Option Access := s.ms.accs.find? fun a => a.kind == .copyBlock c.id

/-- The read of a command block is over. -/
def State.dropBlock (s : State) (c : Copy) : State := s.onMs fun m => { m with accs := m.accs.filter fun a => a.kind != .copyBlock c.id }

/-- The lighter reads a command block, once the order of its thread lets it (R215, R277). -/
def State.fetchBlock (s : State) (c : Copy) (a : Access) (x : Xl) (w : Who) : State :=
  let ends := fun (k : Cause) => (s.dropBlock c).onCopy c.id fun y => { y with raw := some (0, false), extra := [k] }
  if !s.ordered a then s
  else match s.agentAt x .read c.cb with
    | .error (.flt f v) => s.stallCopy c f v
    | .error (.lost r v) => ends ⟨0x21, r, v, engLighter, false, none⟩
    | .error (.cut v) => ends ⟨0x20, 3, v, engLighter, false, none⟩
    | .error .held => s
    | .ok pa =>
      let r := s.readAt w .core pa 32
      (((s.fillTlb x c.cb).takeRead w r.wids).dropBlock c).onCopy c.id fun y => { y with raw := some (r.val, r.poison) }

/-- Checks a command block and admits its operation, when a slot is free (R277, R294, R295, R459). -/
def State.admitBlock (s : State) (c : Copy) (b : Nat) (bad : Bool) : State :=
  let now := s.clock.toNat
  match s.channelFor c with
  | none => s
  | some n =>
    if !c.extra.isEmpty then s.admitCopy c n 0 now none none false c.extra
    else if bad then s.admitCopy c n 0 now none none true []
    else match checkBlock c.kind b with
      | (some f, _) => s.admitCopy c n 0 now none (some f) false []
      | (none, bytes) => s.admitCopy c n bytes (now + s.copyCycles c b bytes + s.backlog c.core n) (some b) none false []

/-- Admits a CPUB or a CSHAD.OFF, once every copy operation of its context issued before it is admitted, and a slot is free. -/
def State.admitPub (s : State) (c : Copy) : State :=
  if (s.priorCopies c).all fun x => x.adm.isSome then
    match s.channelFor c with
    | some n => s.admitCopy c n 0 (s.pubPromise c) none none false []
    | none => s
  else s

/-- An operation has a command block. -/
def CopyKind.block : CopyKind → Bool
  | .pub _ => false
  | .off _ => false
  | _ => true

/-- COPY_ADMISSION: reads the command block where that is still to be done, then checks it and admits the operation (R277). One whose
block the handler has failed is admitted at once (R295 reason 3). -/
def State.admission (s : State) (c : Copy) : State :=
  if !c.kind.block then s.admitPub c
  else if c.fault == some 3 then (s.dropBlock c).admitCopy c 0 0 s.clock.toNat none (some 3) false []
  else
    let s1 := match s.blockAcc c, s.agentOf c.tid with
      | some a, some (x, w) => s.fetchBlock c a x w
      | _, _ => s
    match s1.copy c.id with
    | none => s1
    | some y => match y.raw with
      | some (b, bad) => s1.admitBlock y b bad
      | none => s1

def execCopyAdmission (op : Nat) (s : State) : Out :=
  .next (match s.copy op with
    | some c => if c.adm.isSome || c.stalled || c.finished then s else s.admission c
    | none => s)

/-! ## Moving bytes (R279 to R288) -/

/-- What ends or stalls a unit. -/
inductive CErr where
  | fault (n : Nat)
  | agent (e : AErr)

/-- The key of n vault bytes, or copy fault 4. -/
def State.copyKey (s : State) (c : Copy) (va n : Nat) : Except CErr Nat :=
  match s.thread c.tid with
  | none => .error (.fault 4)
  | some t => match s.vaultKey t.place va n false with
    | .ok k => .ok k
    | .error _ => .error (.fault 4)

/-- A copy reads n bytes of a word; a global one that is not canonical is copy fault 2 (R295). -/
def State.copyRead (s : State) (c : Copy) (x : Xl) (w : Who) (vault : Bool) (a n : Nat) : Except CErr (ReadRes × State) :=
  if vault then
    match s.copyKey c a n with
    | .error e => .error e
    | .ok k => .ok (s.vread k n, s)
  else if !canonical a then .error (.fault 2)
  else match s.agentRead x w c.scope a n with
    | .error e => .error (.agent e)
    | .ok r => .ok (r, s.agentFill x a n)

/-- Where the ranges taken beyond an offset leave it, and the ranges that remain; the number bounds them. -/
def skipEarly : Nat → List (Nat × Nat) → Nat → Nat × List (Nat × Nat)
  | 0, l, d => (d, l)
  | f + 1, l, d =>
    match l.find? fun e => e.1 == d with
    | some e => skipEarly f (l.erase e) (d + e.2)
    | none => (d, l)

/-- A copy has taken n bytes at an offset in hand. -/
def Copy.took (y : Copy) (o n : Nat) : Copy :=
  if o = y.done then
    let r := skipEarly y.early.length y.early (o + n)
    { y with done := r.1, early := r.2 }
  else { y with early := y.early ++ [(o, n)] }

/-- A copy writes a piece: the numbers of the writes committed. -/
def State.writePiece (s : State) (c : Copy) (x : Xl) (w : Who) (p : HeldPiece) : Except CErr (List Nat × State) :=
  if p.vault then
    match s.copyKey c p.addr p.bytes.length with
    | .error e => .error e
    | .ok k => .ok ([], s.vwrite k p.bytes p.bad)
  else match s.agentWrite ⟨w, x, c.ctx, c.adm.getD 0⟩ p.bad (pieces p.addr p.bytes.length) p.bytes with
    | .error e => .error (.agent e)
    | .ok r => .ok r

/-- What a copy has in hand for an offset: it writes the piece, or keeps it. -/
def State.copyWrite (s : State) (c : Copy) (x : Xl) (w : Who) (o : Nat) (keep : Bool) (p : HeldPiece) (aux : List Nat) : Except CErr State :=
  let count := fun (s : State) (ids : List Nat) (l : List HeldPiece) => s.onCopy c.id fun y => { y.took o p.bytes.length with
    aux := aux, writes := y.writes ++ ids, poison := y.poison || p.bad, held := y.held ++ l }
  if keep then .ok (count s [] [p])
  else match s.writePiece c x w p with
    | .error e => .error e
    | .ok r => .ok (count r.2 r.1 [])

/-- Reads n bytes, and has them in hand for an offset. -/
def State.copyBytes (s : State) (c : Copy) (x : Xl) (w : Who) (o : Nat) (keep : Bool) (sv : Bool) (sa : Nat) (dv : Bool) (da n : Nat) (aux : List Nat) :
    Except CErr State :=
  match s.copyRead c x w sv sa n with
  | .error e => .error e
  | .ok r => r.2.copyWrite c x w o keep ⟨dv, da, r.1.bytes, r.1.poison⟩ aux

/-- Bytes from an address to the end of its 4-byte word, at most n. -/
def toWordEnd (a n : Nat) : Nat := Nat.min n (4 - a % 4)

/-- What a copy keeps between units without writing. -/
def State.keepAux (s : State) (c : Copy) (aux : List Nat) (bad : Bool) : State :=
  s.onCopy c.id fun y => { y with aux := aux, poison := y.poison || bad }

/-- The block of a global address holds poison. -/
def State.poisonAt (s : State) (x : Xl) (a : Nat) : Bool :=
  match s.translate x .write a with
  | .ok pa => (List.range 64).any fun i => s.poisonOf (s.lastWrite (pa / 64 * 64 + i)) (pa / 64 * 64 + i)
  | .error _ => false

/-- Bytes that CFILL writes next, of n left in a row: a word, or a whole block where that ends its poison (R427). -/
def State.fillLen (s : State) (x : Xl) (vault : Bool) (a n : Nat) : Nat :=
  if !vault && a % 64 == 0 && decide (64 ≤ n) && s.poisonAt x a then 64 else toWordEnd a n

/-- The unit of CPY and CFILL at a destination offset (R279, R280): the bytes of one source word, or a word of the pattern. Other offsets
begin no unit. -/
def State.unitDense (s : State) (c : Copy) (x : Xl) (w : Who) (b o : Nat) (keep : Bool) : Except CErr State :=
  let px := o % denseX b
  let py := o / denseX b % denseY b
  let pz := o / denseX b / denseY b
  let da := (denseDst b).at px py pz
  match c.kind with
  | .fill pat =>
    if px != 0 && da % 4 != 0 then .ok s
    else
      let k := s.fillLen x (denseDst b).vault da (denseX b - px)
      s.copyWrite c x w o keep ⟨(denseDst b).vault, da, (List.range k).map fun i => BitVec.ofNat 8 (pat.toNat / 2 ^ (8 * ((da + i) % 4))), false⟩ []
  | _ =>
    let sa := (denseSrc b).at px py pz
    if px != 0 && sa % 4 != 0 then .ok s
    else s.copyBytes c x w o keep (denseSrc b).vault sa (denseDst b).vault da (toWordEnd sa (denseX b - px)) []

/-- A unit of CPYS (R281): a word of the mask of a tile, or one element of its row. aux: the address of the tile; with it the low half of
its mask, and 1 when that is poisoned; or the mask, 1 when it is poisoned, and 0. -/
def State.unitSparse (s : State) (c : Copy) (x : Xl) (w : Who) (b : Nat) (keep : Bool) : Except CErr State :=
  let es := sparseEs b
  let src0 := wrapInt (gAddr (bitsOf b 47 0)) 64
  match c.aux with
  | [a, m, bad, _] =>
    let t := c.done / (64 * es)
    let e := c.done / es % 64
    let da := (bitsOf b 127 96 + t * sparseRow b + e * es) % 2 ^ 32
    let next := if e = 63 then [(a + 8 + (popCount 64 m * es + 7) / 8 * 8) % 2 ^ 64] else [a, m, bad, 0]
    if m / 2 ^ e % 2 = 1 then s.copyBytes c x w c.done keep false ((a + 8 + popCount e m * es) % 2 ^ 64) true da es next
    else s.copyWrite c x w c.done keep ⟨true, da, List.replicate es 0, bad == 1⟩ next
  | [a, lo, bad] =>
    match s.copyRead c x w false ((a + 4) % 2 ^ 64) 4 with
    | .error e => .error e
    | .ok r => .ok (r.2.keepAux c (if r.1.poison || bad == 1 then [a, 0, 1, 0] else [a, lo + r.1.val * 2 ^ 32, 0, 0]) r.1.poison)
  | l =>
    let a := l.headD src0
    match s.copyRead c x w false a 4 with
    | .error e => .error e
    | .ok r => .ok (r.2.keepAux c [a, r.1.val, if r.1.poison then 1 else 0] r.1.poison)

/-- What a copy has read of the table entry of a block: nothing, its low word, or all of it, with 1 when it is poisoned. -/
def Copy.entry (c : Copy) (blk : Nat) : List Nat := ((c.table.find? fun e => e.1 == blk).map Prod.snd).getD []

/-- Keeps what has been read of a table entry. -/
def State.keepEntry (s : State) (c : Copy) (blk : Nat) (l : List Nat) (bad : Bool) : State :=
  s.onCopy c.id fun y => { y with table := (blk, l) :: y.table.filter fun e => e.1 != blk, poison := y.poison || bad }

/-- The unit of CPYB at a destination offset (R282): a word of the table entry of its block, while that is not read, then bytes of the
block. -/
def State.unitBlocks (s : State) (c : Copy) (x : Xl) (w : Who) (b o : Nat) (keep : Bool) : Except CErr State :=
  let len := bitsOf b 255 236 + 1
  let blk := o / len
  let px := o % len
  let dv := bitsOf b 96 96 == 1
  let base : Int := if dv then (bitsOf b 47 0 : Int) else gAddr (bitsOf b 47 0)
  let da := wrapInt (base + (blk * bitsOf b 191 160 + px : Nat)) (if dv then 32 else 64)
  let ta := wrapInt (gAddr (bitsOf b 95 48) + (8 * blk : Nat)) 64
  match c.entry blk with
  | [] => match s.copyRead c x w false ta 4 with
    | .error e => .error e
    | .ok r => .ok (r.2.keepEntry c blk [r.1.val, if r.1.poison then 1 else 0] r.1.poison)
  | [lo, p] => match s.copyRead c x w false (ta + 4) 4 with
    | .error e => .error e
    | .ok r =>
      let e := lo + r.1.val * 2 ^ 32
      if p == 1 || r.1.poison then .ok (r.2.keepEntry c blk [0, 1, 0] true)
      else if e != 0 && (!canonical e || e % 64 != 0) then .error (.fault 5)
      else .ok (r.2.keepEntry c blk [e, 0, 0] false)
  | e :: p :: _ =>
    if e = 0 then
      if px != 0 && da % 4 != 0 then .ok s
      else s.copyWrite c x w o keep ⟨dv, da, List.replicate (toWordEnd da (len - px)) 0, p == 1⟩ []
    else
      let sa := e + bitsOf b 219 192 + px
      if !(canonInt (signExtend e 64 + bitsOf b 219 192 + px)) then .error (.fault 2)
      else if px != 0 && sa % 4 != 0 then .ok s
      else s.copyBytes c x w o keep false (sa % 2 ^ 64) dv da (toWordEnd sa (len - px)) []
  | _ => .error (.fault 5)

/-- An element of a storage format, widened to FP32. -/
def xWiden (sf p : Nat) : Nat := if sf = 0 then p else (cvtFF fp32 .rn ((if sf = 1 then fp16 else bf16).decode p)).1

/-- The bytes of a layout row with their offsets in its region (R79, R285). -/
def xRow (b r : Nat) (vals : List Nat) : List (Nat × Byte) :=
  let df := xDf b
  if 2 ≤ df then
    (indexed vals).flatMap fun p =>
      let y := (cvtFF (if df = 2 then fp16 else bf16) .rn (fDec p.2)).1
      [(64 * r + 2 * p.1, BitVec.ofNat 8 y), (64 * r + 2 * p.1 + 1, BitVec.ofNat 8 (y / 256))]
  else
    let e := dxEncode (df == 1) (xDist b) (vals.map fDec)
    let code := fun (k : Nat) => ((e.2.2.getD k (0, 0)).1)
    let codes := if df = 0 then (List.range 32).map fun k => (32 * r + k, BitVec.ofNat 8 (code k))
      else (List.range 16).map fun j => (16 * r + j, BitVec.ofNat 8 (code (2 * j) + 16 * code (2 * j + 1)))
    let at_ := (if df = 0 then 1024 else 512) + 2 * r
    codes ++ [(at_, BitVec.ofNat 8 e.1), (at_ + 1, BitVec.ofNat 8 e.2.1)]

/-- Bytes of a layout row. -/
def xRowLen (b : Nat) : Nat := if xDf b = 0 then 34 else if xDf b = 1 then 18 else 64

/-- The bytes of a layout row copied from a block of DX storage: codes as they stand, then E0 and E1 (R285). -/
def xStored (b r : Nat) (bytes : List Nat) : List (Nat × Byte) :=
  let n := xBlk b - 2
  ((indexed (bytes.drop 2)).map fun p => (n * r + p.1, BitVec.ofNat 8 p.2)) ++
    (indexed (bytes.take 2)).map fun p => ((if xDf b = 0 then 1024 else 512) + 2 * r + p.1, BitVec.ofNat 8 p.2)

/-- Bytes of the source of a row: 32 elements, or a block of DX storage. -/
def xSrcLen (b : Nat) : Nat := if xSf b = 3 then xBlk b else 32 * xEsz b

/-- The source address of byte n of a row (R285), and how many bytes of one piece follow from there. -/
def xSrcAt (b kb r n : Nat) : Nat × Nat :=
  let sp := bitsOf b 231 200
  let src := gAddr (bitsOf b 47 0)
  if xSf b = 3 then (wrapInt (src + (r * sp + kb * xBlk b + n : Nat)) 64, xBlk b - n)
  else
    let col := 32 * kb + n / xEsz b
    let o := n % xEsz b
    (wrapInt (src + ((if xRole b then col * sp + r * xEsz b else r * sp + col * xEsz b) + o : Nat)) 64, xEsz b - o)

/-- The elements of a row from its source bytes, widened. -/
def xVals (b : Nat) (bytes : List Nat) : List Nat :=
  (List.range 32).map fun k => xWiden (xSf b) (ofBytes (((bytes.drop (xEsz b * k)).take (xEsz b)).map (BitVec.ofNat 8)))

/-- A unit of CPYX (R284, R285): the bytes of a word of a row's source are read, then, with all of it, the row is written word by word.
aux: 1 when a byte was poisoned, then the bytes read. -/
def State.unitConvert (s : State) (c : Copy) (x : Xl) (w : Who) (b : Nat) (keep : Bool) : Except CErr State :=
  let len := xRowLen b
  let row := c.done / len
  let kb := row / 32
  let r := row % 32
  let o := c.done % len
  let reg := bitsOf b 127 96 + kb * xStride b
  let bytes := c.aux.drop 1
  let bad := c.aux.headD 0
  if bytes.length < xSrcLen b then
    let a := xSrcAt b kb r bytes.length
    match s.copyRead c x w false a.1 (toWordEnd a.1 a.2) with
    | .error e => .error e
    | .ok q => .ok (q.2.keepAux c ((if q.1.poison || bad == 1 then 1 else 0) :: bytes ++ q.1.bytes.map BitVec.toNat) q.1.poison)
  else
    let out := if xSf b = 3 then xStored b r bytes else xRow b r (xVals b bytes)
    let p := out.getD o (0, 0)
    let n := Nat.min (toWordEnd (reg + p.1) (len - o)) (if o < len - 2 ∧ xDf b < 2 then len - 2 - o else len - o)
    s.copyWrite c x w c.done keep ⟨true, (reg + p.1) % 2 ^ 32, ((out.drop o).take n).map Prod.snd, bad == 1⟩ (if o + n = len then [] else c.aux)

/-- The unit of an admitted copy at a destination offset; those of CPYS and CPYX follow each other. -/
def State.copyUnit (s : State) (c : Copy) (x : Xl) (w : Who) (o : Nat) (keep : Bool) : Except CErr State :=
  let b := c.bits.getD 0
  match c.kind with
  | .cpys => if o = c.done then s.unitSparse c x w b keep else .ok s
  | .cpyb => s.unitBlocks c x w b o keep
  | .cpyx => if o = c.done then s.unitConvert c x w b keep else .ok s
  | _ => s.unitDense c x w b o keep

/-- A copy ends where it stands, with a cause (R430, R432). -/
def State.copyEnds (s : State) (c : Copy) (k : Cause) : State :=
  s.onCopy c.id fun y => { y with done := y.bytes, early := [], held := [], extra := y.extra ++ [k] }

/-- A unit that could not be: the copy ends there, or stalls, or waits for a link (R295, R410, R429, R430, R432). -/
def State.copyStop (s : State) (c : Copy) (e : CErr) : State :=
  match e with
  | .fault n => s.onCopy c.id fun y => { y with fault := some n }
  | .agent (.flt f a) => s.stallCopy c f a
  | .agent (.lost r a) => s.copyEnds c ⟨0x21, r, a, engLighter, false, none⟩
  | .agent (.cut a) => s.copyEnds c ⟨0x20, 3, a, engLighter, false, none⟩
  | .agent .held => s

/-- R286: an admitted copy may begin; a release beyond core scope also waits for the gather buffer (R273). -/
def State.mayStart (s : State) (c : Copy) : Bool :=
  let mine := s.ms.accs.filter fun a => a.tid == c.tid && decide (a.id < c.bound) && !a.silent
  (c.stream == 15 || !mine.any fun a => a.stream == c.stream) &&
    (!c.rel || (mine.all Access.performed && (c.scope == .core || !s.gathering c.tid c.bound) &&
      s.visible (s.obsOf c.tid) (s.performedAt (s.whoOf c.tid c.core) c.scope)))

/-- A lighter or channel serves its copies in admission order (R276): every one admitted before has begun, or may not begin yet. -/
def State.servedNow (s : State) (c : Copy) : Bool :=
  (s.slotsHeld c.core c.chan).all fun x =>
    decide (c.adm.getD 0 ≤ x.adm.getD 0) || x.started || x.bits.isNone || x.stalled || !s.mayStart x

/-- A copy can take or write something. -/
def Copy.moves (c : Copy) : Bool := !c.stalled && !c.finished && c.fault.isNone

/-- Takes the unit at a destination offset in hand. -/
def State.takeUnit (s : State) (c : Copy) (o : Nat) (keep : Bool) : State :=
  match s.agentOf c.tid with
  | none => s
  | some (x, w) => match s.copyUnit c x w o keep with
    | .error e => s.copyStop c e
    | .ok s1 => s1

/-- Moves units in ascending order, while there are any. -/
def State.copyUnits (s : State) (op : Nat) : Nat → State
  | 0 => s
  | n + 1 =>
    match s.copy op with
    | some c => if c.moves && decide (c.done < c.bytes) then (s.takeUnit c c.done false).copyUnits op n else s
    | none => s

/-- A destination offset that a copy has not taken in hand. -/
def Copy.opens (c : Copy) (o : Nat) : Bool := decide (c.done ≤ o) && decide (o < c.bytes) && !c.early.any fun e => decide (e.1 ≤ o) && decide (o < e.1 + e.2)

/-- Writes the k-th piece that a copy has in hand. -/
def State.putHeld (s : State) (c : Copy) (k : Nat) : State :=
  match c.held[k]?, s.agentOf c.tid with
  | some p, some (x, w) => match s.writePiece c x w p with
    | .error e => s.copyStop c e
    | .ok r => r.2.onCopy c.id fun y => { y with held := y.held.eraseIdx k, writes := y.writes ++ r.1 }
  | _, _ => s

/-- A copy goes on. -/
def State.copyGoes (s : State) (op : Nat) (how : CopyStep) : State :=
  match s.copy op with
  | none => s
  | some c =>
    if !c.moves then s
    else match how with
      | .units n => s.copyUnits op n
      | .take o => if c.opens o then s.takeUnit c o true else s
      | .put k => s.putHeld c k

/-- COPY_START (R276, R286 to R288): a copy begins, or goes on. -/
def execCopyStart (op : Nat) (how : CopyStep) (s : State) : Out :=
  .next (match s.copy op with
    | some c =>
      if c.bits.isNone || !(c.started || (s.mayStart c && s.servedNow c)) then s
      else (s.onCopy op fun y => { y with started := true }).copyGoes op how
    | none => s)

/-- COPY_COMPLETE (R289): every write is performed at the copy's scope. -/
def execCopyComplete (op : Nat) (s : State) : Out :=
  .next (match s.copy op with
    | some c =>
      let moved := c.adm.isSome && !c.stalled && (c.fault.isSome || (if c.bits.isSome then decide (c.bytes ≤ c.done) && c.held.isEmpty else c.ran))
      if c.finished || !moved || !s.visible c.writes (s.performedAt (s.whoOf c.tid c.core) c.scope) then s else s.copyDone op
    | none => s)

/-! ## CPUB and CSHAD.OFF (R226, R297, R299) -/

/-- Every agent of the context issued before an operation has completed. -/
def State.pubReady (s : State) (c : Copy) : Bool := c.adm.isSome && !c.ran && (s.priorCopies c).isEmpty && !s.enginesWork c.ctx c.id

/-- Commits pending writes, in order, at every point of the system. -/
def State.publishAll (s : State) (w : Who) : List HeldWrite → List Nat × State
  | [] => ([], s)
  | h :: l =>
    let r := s.commitPub w h.cells h.bad
    let q := r.2.publishAll w l
    (r.1 :: q.1, q.2)

/-- PUBLISH (R226, R299): the writes of agents admitted before the CPUB. -/
def execPublish (op : Nat) (s : State) : Out :=
  .next (match s.copy op, (s.copy op).bind fun c => s.ctx c.ctx with
    | some c, some x =>
      match c.kind with
      | .pub sh =>
        if !s.pubReady c then s
        else
          let adm := c.adm.getD 0
          let ws := match x.shadows.getD sh none with
            | some r => r.pending.filter fun h => decide (h.adm < adm)
            | none => []
          let r := s.publishAll (s.whoOf c.tid c.core) ws
          ((r.2.onCtx c.ctx fun y => { y with shadows := y.shadows.modify sh fun g => g.map fun g =>
            { g with pending := g.pending.filter fun h => !decide (h.adm < adm) } }).onCopy op fun y =>
              { y with ran := true, writes := y.writes ++ r.1 }).settle
      | _ => s
    | _, _ => s)

/-- SHADOW_DISARM (R297): the pending set is discarded and the region is free. -/
def execShadowDisarm (op : Nat) (s : State) : Out :=
  .next (match s.copy op with
    | some c =>
      match c.kind with
      | .off sh =>
        if s.pubReady c then (s.onCtx c.ctx fun y => { y with shadows := y.shadows.set sh none }).onCopy op fun y => { y with ran := true }
        else s
      | _ => s
    | none => s)

end Sys2Proof.Machine
end

