-- ==== Sys2Proof/Machine/Ctl.lean ====
section
/-!
DEFINITION. Control, waiting and barriers (R355 to R365, R374): transfers, EXIT, WAITC, SLEEP, SLEEPU, YIELD, BKPT, team and
cluster barriers with the Barrier step of R221.
-/
namespace Sys2Proof.Machine

/-! ## Transfers of control (R355, R356) -/

/-- A thread transfers to an address, or traps where it is misaligned (R27). -/
def State.jump (s : State) (t : Thread) (dest : Dword) : State :=
  if dest.toNat % 8 != 0 then s.trapHere t 0x03 0 0 0 else s.onThread t.id fun x => x.goto dest

/-- A transfer to an address of each thread. -/
def jumpIssue (i : Instr) (h : Gd) (dest : State → Thread → Dword) (s : State) : Out :=
  .next (s.issue h (Ask.of (useOf i)) fun ts s1 => ts.foldl (fun s' t => s'.jump t (dest s t)) s1)

/-- The target of BRA and CALL: the word's own address plus the signed offset. -/
def relTarget (t : Thread) (imm : Word) : Dword := t.pos.pc + imm.signExtend 64

def execBra (h : Gd) (imm : Word) (s : State) : Out := jumpIssue (.bra h imm) h (fun _ t => relTarget t imm) s
def execBrx (h : Gd) (a : Opnd) (s : State) : Out := jumpIssue (.brx h a) h (fun s t => s.rd2 t a) s
def execRet (h : Gd) (a : Opnd) (s : State) : Out := jumpIssue (.ret h a) h (fun s t => s.rd2 t a) s

/-- The link of a CALL: the header that follows its clause. -/
def linkOf (t : Thread) : Dword := t.pos.hdr + BitVec.ofNat 64 (8 * (t.clause.words.length + 1))

def execCall (h : Gd) (d : Opnd) (imm : Word) (s : State) : Out :=
  .next (s.issue h (Ask.of (useOf (.call h d imm))) fun ts s1 => ts.foldl (fun s' t =>
    let dest := relTarget t imm
    if dest.toNat % 8 != 0 then s'.trapHere t 0x03 0 0 0
    else (s'.onThread t.id fun x => x.goto dest).wrSpan t (isLead ts t) d (toWords 2 (linkOf t).toNat)) s1)

/-- EXIT (R357). -/
def execExit (h : Gd) (s : State) : Out :=
  .next (s.issue h (Ask.of (useOf (.exit h))) fun ts s1 => ts.foldl (fun s' t => s'.exit t.id) s1)

/-! ## Waits (R358 to R361) -/

/-- WAITC. -/
def execWaitc (h : Gd) (wl ws wc wt : Fin 16) (s : State) : Out :=
  .next (s.issue h (Ask.of (useOf (.waitc h wl ws wc wt))) fun ts s1 => ts.foldl (fun s' t =>
    s'.waitOrGo t.id (.counters wl.val ws.val wc.val wt.val)) s1)

/-- SLEEP: SLEEP 0 does not wait. -/
def execSleep (h : Gd) (n : Word) (s : State) : Out :=
  .next (s.issue h (Ask.of (useOf (.sleep h n))) fun ts s1 => ts.foldl (fun s' t =>
    if n.toNat = 0 then s'.advance t.id else s'.waitOn t.id (.sleep (s.clock.toNat + n.toNat))) s1)

/-- SLEEP_DEADLINE (R359). -/
def execSleepDeadline (t : Nat) (s : State) : Out :=
  .next (match s.thread t with
    | none => s
    | some x => match x.wait with
      | .sleep d => if d ≤ s.clock.toNat then s.wake t else s
      | _ => s)

/-- The promise of a batch has passed with the batch unfinished (R293, R360). -/
def State.missed (s : State) (b : Batch) : Option Nat :=
  match s.promiseOf b with
  | some p => if b.fin.isNone && decide (p ≤ s.clock.toNat) then some p else none
  | none => none

/-- The trap of a missed promise, at the SLEEPU. -/
def State.trapMissed (s : State) (t : Thread) (b : Batch) (p : Nat) (at_ skip : Pos) : State :=
  s.trap t ⟨0x30, 0, p, b.no, false, at_.pc.toNat, at_, skip⟩

/-- SLEEPU (R360). -/
def execSleepu (h : Gd) (k : Fin 8) (s : State) : Out :=
  .next (s.issue h (Ask.of (useOf (.sleepu h k))) fun ts s1 => ts.foldl (fun s' t =>
    match s.batchOf t k.val with
    | none => s'.trapHere t 0x02 0 0 0
    | some b => match s.missed b with
      | some p => s'.trapMissed t b p t.pos t.nextPos
      | none => s'.waitOrGo t.id (.sleepu b.id t.pos)) s1)

/-- MISSED_PROMISE (R293, R360): the promise that a thread awaits has passed, and the thread can take the trap. -/
def execMissedPromise (t : Nat) (s : State) : Out :=
  .next (match s.thread t with
    | none => s
    | some x => match x.wait with
      | .sleepu bid at_ => match s.en.batches.find? fun b => b.id == bid with
        | some b => match s.missed b with
          | some p => if s.mayWake x then s.trapMissed x b p at_ x.pos else s
          | none => s
        | none => s
      | _ => s)

/-- YIELD (R361): the rest of the clause is a continuation, and its threads leave the issue set. -/
def execYieldI (h : Gd) (s : State) : Out :=
  .next (s.issue h (Ask.of (useOf (.yieldI h))) fun ts s1 =>
    let s2 := ts.foldl (fun s' t => (s'.leave t.id).waitOn t.id .none) s1
    match s.focus with
    | some q => if ts.isEmpty then s2 else s2.yieldGroups q (ts.map fun t => t.place.grp)
    | none => s2)

/-- BKPT (R374). -/
def execBkpt (h : Gd) (imm : Word) (s : State) : Out :=
  .next (s.issue h (Ask.of (useOf (.bkpt h imm))) fun ts s1 => ts.foldl (fun s' t => s'.trapHere t 0x61 0 0 imm.toNat) s1)

/-! ## Barriers (R221, R362 to R365) -/

/-- One more arrival of a thread at a barrier of its team or its cluster. -/
def Thread.bump (t : Thread) (team : Bool) (b : Nat) : Thread :=
  let up := fun (l : List (Nat × Nat)) => (b, phases l b + 1) :: l.filter fun x => x.1 != b
  { t with cnt := if team then { t.cnt with tbar := up t.cnt.tbar } else { t.cnt with cbar := up t.cnt.cbar } }

/-- Records an arrival of a thread, as it stood before the issue. -/
def State.arriveBar (s : State) (t : Thread) (team : Bool) (r : BarRef) (b : Nat) (act : Bool) (bound : Nat) : State :=
  (s.onWk fun w => { w with
    bars := w.bars ++ [⟨r, phases (if team then t.cnt.tbar else t.cnt.cbar) b, t.id, act, bound, t.obs⟩] }).onThread t.id fun x => x.bump team b

/-- The cluster of a thread. -/
def State.clusterOf (s : State) (t : Thread) : Nat := ((s.team t.place.team).map Team.cluster).getD 0

/-- BAR (R363). -/
def execBar (h : Gd) (b : Fin 16) (s : State) : Out :=
  let ask := Ask.of (useOf (.bar h b))
  .next (s.issue h ask fun ts s1 =>
    let s2 := (s.skippers h ask).foldl (fun s' t => s'.arriveBar t true (.team t.place.team b.val) b.val false s.nextId) s1
    ts.foldl (fun s' t =>
      (s'.arriveBar t true (.team t.place.team b.val) b.val true s.nextId).waitOn t.id (.bar b.val (phases t.cnt.tbar b.val))) s2)

/-- The phase of a thread's previous arrival at a cluster barrier has completed. -/
def State.priorDone (s : State) (t : Thread) (b : Nat) : Bool :=
  let n := phases t.cnt.cbar b
  n == 0 || s.phaseDone (s.clusterOf t) b (n - 1)

/-- What ARRIVE asks (R364): a guarded-off ARRIVE waits too. -/
def State.arriveAsk (s : State) (i : Instr) (b : Nat) : Ask := { Ask.of (useOf i) with ready := fun t => s.priorDone t b, always := true }

/-- The wait of an ARRIVE for the phase of its thread's previous arrival. -/
def State.priorWait (s : State) (t : Thread) (b : Nat) : Wait := .prior (s.clusterOf t) b (phases t.cnt.cbar b - 1)

/-- ARRIVE (R364). -/
def execArrive (h : Gd) (k : Fin 8) (b : Fin 4) (s : State) : Out :=
  let ask := s.arriveAsk (.arrive h k b) b.val
  .next (s.issue h ask fun ts s1 =>
    let s2 := (s.front.filter fun t => s.fate h ask t == .hold && !s.priorDone t b.val).foldl (fun s' t =>
      s'.holdFor t (s.priorWait t b.val)) s1
    let s3 := (s.skippers h ask).foldl (fun s' t => s'.arriveBar t false (.cluster (s.clusterOf t) b.val) b.val false s.nextId) s2
    ts.foldl (fun s' t =>
      ((s'.arriveBar t false (.cluster (s.clusterOf t) b.val) b.val true s.nextId).wrK t.id k.val
        (some (.phase (s.clusterOf t) b.val (phases t.cnt.cbar b.val)))).advance t.id) s3)

/-- BWAIT (R365). -/
def execBwait (h : Gd) (k : Fin 8) (s : State) : Out :=
  .next (s.issue h (Ask.of (useOf (.bwait h k))) fun ts s1 => ts.foldl (fun s' t =>
    match t.regs.getK k.val with
    | some (.phase cl b n) =>
      let s2 := s'.wrK t.id k.val none
      if s.phaseDone cl b n then (s2.refresh t.who .cluster).advance t.id else s2.waitOn t.id (.phase cl b n)
    | _ => s'.trapHere t 0x02 0 0 0) s1)

/-- Participants of a barrier (R362). -/
def State.participants (s : State) (r : BarRef) : List Thread :=
  match r with
  | .team tm _ => s.wk.threads.filter fun t => t.place.team == tm
  | .cluster cl _ => s.wk.threads.filter fun t => s.clusterOf t == cl

/-- The phase that a barrier is at. -/
def State.phaseOf (s : State) (r : BarRef) : Nat :=
  match r with
  | .team tm b => ((s.team tm).map fun x => phases x.tph b).getD 0
  | .cluster cl b => ((s.cluster cl).map fun x => phases x.cph b).getD 0

/-- The scope of a barrier. -/
def barScope : BarRef → Scope
  | .team _ _ => .core
  | .cluster _ _ => .cluster

/-- What R221 asks of an active arrival: its earlier accesses are performed at the scope, and what its thread had observed
is visible there. -/
def State.arrivalOk (s : State) (sc : Scope) (a : BarArrival) (t : Thread) : Bool :=
  let own := (s.ms.writes.filter fun w => w.tid == t.id && w.acc != 0 && decide (w.acc < a.bound)).map WriteRec.id
  (s.ms.accs.all fun x => x.silent || x.performed || !(x.tid == t.id && decide (x.id < a.bound))) &&
    s.visible (a.obs ++ own) (s.performedAt t.who sc)

/-- Counts a phase. -/
def bumpPhase (l : List (Nat × Nat)) (b : Nat) : List (Nat × Nat) := (b, phases l b + 1) :: l.filter fun x => x.1 != b

def State.countPhase (s : State) (r : BarRef) : State :=
  match r with
  | .team tm b => s.onTeam tm fun x => { x with tph := bumpPhase x.tph b }
  | .cluster cl b => s.onCluster cl fun x => { x with cph := bumpPhase x.cph b }

/-- A thread waits for the phase of a barrier that completes. -/
def Thread.waitsAt (t : Thread) (r : BarRef) (n : Nat) : Bool :=
  match r, t.wait with
  | .team tm b, .bar c m => t.place.team == tm && b == c && n == m
  | .cluster cl b, .phase x c m => cl == x && b == c && n == m
  | _, _ => false

/-- BARRIER (R221): the phase of a barrier completes. -/
def execBarrier (r : BarRef) (s : State) : Out :=
  let n := s.phaseOf r
  let ps := s.participants r
  let arr := s.wk.bars.filter fun a => a.bar == r && a.n == n
  let here := fun (t : Thread) => arr.find? fun a => a.tid == t.id
  let ok := !arr.isEmpty && ps.all fun t => match here t with
    | some a => !a.active || s.arrivalOk (barScope r) a t
    | none => t.exited
  .next (if !ok then s
    else
      -- all but inactive arrivals: participants that have exited take part with what they had observed (R221, R362)
      let act := ps.filter fun t => ((here t).map BarArrival.active).getD true
      let union := (act.flatMap Thread.obs).eraseDups
      let s1 := act.foldl (fun s' t => (s'.observe t.id union).refresh t.who (barScope r)) s
      let s2 := (s1.countPhase r).onWk fun w => { w with bars := w.bars.filter fun a => !(a.bar == r && a.n == n) }
      (ps.filter fun t => t.waitsAt r n).foldl (fun s' t => s'.wake t.id) s2)

end Sys2Proof.Machine
end

