-- ==== Sys2Proof/Machine/Field.lean ====
section
/-!
DEFINITION. Fields and history loads (R175 to R208): the Field Slot Tables, field descriptors, chain walks with their
snapshots, FCOMP, FINV and FREL, and the FLD instructions.
-/
namespace Sys2Proof.Machine

/-! ## The Field Slot Table (R175 to R178) -/

/-- One table step on a slot. -/
def State.setSlot (s : State) (p d n : Nat) (x : Slot) : State :=
  let old := match s.en.fsts.find? fun f => f.part == p && f.die == d with
    | some f => f.slots
    | none => []
  s.onEn fun e => { e with
    fsts := (e.fsts.filter fun f => !(f.part == p && f.die == d)) ++ [⟨p, d, (old.filter fun y => y.1 != n) ++ [(n, x)]⟩] }

/-- One table step on a slot that a thread names. -/
def State.setSlotOf (s : State) (t : Thread) (n : Nat) (x : Slot) : State := s.setSlot t.place.part t.place.core.die n x

/-! ## Checks of field descriptors (R180) -/

/-- Between 1 and a bound. -/
def from1 (x hi : Nat) : Bool := decide (1 ≤ x) && decide (x ≤ hi)

/-- The checks of R180 that the descriptor alone decides, for the slot being opened. -/
def fdCheck (slot d : Nat) : Option Nat :=
  let one := fdOned d
  if bitsOf d 511 256 != 0 || bitsOf d 127 116 != 0 || bitsOf d 111 111 != 0 || bitsOf d 103 99 != 0 ||
      (!fdHasp d && fdParent d != 0) ||
      (one && (bitsOf d 255 224 != 0 || bitsOf d 223 223 != 0 || bitsOf d 191 128 != 0 || bitsOf d 95 95 != 0)) then some 0x03
  else if fdCell d == 5 || fdCell d == 6 || (decide (5 ≤ fdFmt d) && decide (fdFmt d ≤ 14)) || (one && fdFmt d != 15) then some 0x02
  else if one && !(from1 (fdLen d) (2 ^ 30) && from1 (fdAncLen d) (2 ^ 30)) then some 0x02
  else if !one && !(from1 (fdGw d) 4096 && from1 (fdGh d) 4096 && from1 (fdAncW d) 16384 && from1 (fdAncH d) 16384) then some 0x02
  else if fdEbase d % 64 != 0 then some 0x02
  else if !one && fdFmt d != 15 &&
      (fdAncBase d % 16 != 0 || fdPitch d % 16 != 0 || decide (fdPitch d < fdAncW d * surfBytes (fdFmt d))) then some 0x02
  else if fdHasp d && fdParent d == slot then some 0x02
  else none

/-- The parent's checks of R180, at the installing step. -/
def fdParentOk (d : Nat) (p : Slot) : Bool :=
  match p.desc with
  | none => false
  | some e => (p.state == .opened || p.state == .sealed) && fdOned e == fdOned d && decide (p.depth < 8) &&
      (if fdOned d then decide (fdAncLen d ≤ fdLen e)
        else decide (fdAncW d ≤ fdGw e * fdPix e) && decide (fdAncH d ≤ fdGh e * fdPix e))

/-! ## Chains and walks (R184) -/

/-- The chain from a slot: the slots with descriptors, at most n of them, with the snapshot of their states. -/
def State.chainFrom (s : State) (p d : Nat) : Nat → Nat → List Link
  | 0, _ => []
  | n + 1, k =>
    match (s.slot p d k).desc with
    | none => []
    | some e => ⟨k, (s.slot p d k).state, e⟩ :: if fdHasp e then s.chainFrom p d n (fdParent e) else []

/-- The chain of a walk: HOPS slots, or all up to the root; none when it is shorter. -/
def State.chainOf (s : State) (p d k hops : Nat) : Option (List Link) :=
  let l := s.chainFrom p d (if hops = 0 then 64 else hops) k
  if decide (hops ≤ l.length) && !l.isEmpty then some l else none

/-- The last descriptor of a chain. -/
def lastDesc (l : List Link) : Nat := (l.getLast?.map Link.desc).getD 0

/-- A position coordinate lies in 0 ≤ x < n. -/
def inRange (x n : Nat) : Bool := fFinite x && fLe 0 x && fLt x (fInt n)

/-- The index of the cell of a position (R184). -/
def cellIndex (d x y : Nat) : Option Nat :=
  if fdOned d then (if x < fdLen d then some x else none)
  else if !(fFinite x && fFinite y && fLe 0 x && fLe 0 y) then none
  else
    let cx := fFloor x / fdPix d
    let cy := fFloor y / fdPix d
    if cx < fdGw d ∧ cy < fdGh d then some (cy.toNat * fdGw d + cx.toNat) else none

/-- The displacements of an entry. -/
def entryDx (w : Nat) : Int := signExtend (bitsOf w 11 0) 12
def entryDy (w : Nat) : Int := signExtend (bitsOf w 23 12) 12

/-- A coordinate moved by eighths of a pixel, rounded once. -/
def moved (x : Nat) (d : Int) : Nat := fAdd x (fMul (fInt d) 0x3E000000)

/-- Step (R184), with the sums of R189. -/
def WalkAt.step (a : WalkAt) (d w : Nat) : WalkAt :=
  if fdOned d then { a with x := bitsOf w 29 0 }
  else
    { a with
      x := moved a.x (entryDx w), y := moved a.y (entryDy w), conf := Nat.min a.conf (bitsOf w 29 24),
      dx := a.dx + entryDx w, dy := a.dy + entryDy w }

/-- A position lies in the ancestor of a field. -/
def WalkAt.inside (a : WalkAt) (d : Nat) : Bool :=
  if fdOned d then decide (a.x < fdAncLen d) else inRange a.x (fdAncW d) && inRange a.y (fdAncH d)

/-- What a walk finds at a slot of its chain. -/
inductive WalkLook where
  | entry (w : Nat)
  | disocc (reason : Nat)
  | park
  | err (e : AErr)
  | poison

/-- A walk looks at the entry of its position in a slot (R184). -/
def State.walkLook (s : State) (x : Xl) (w : Who) (p die : Nat) (l : Link) (em : Empty) (a : WalkAt) : WalkLook :=
  if l.state == .retired then .disocc 1
  else match cellIndex l.desc a.x a.y with
    | none => .disocc 4
    | some i =>
      match s.agentRead x w .die (fdEbase l.desc + 4 * i) 4 with
      | .error e => .err e
      | .ok r =>
        if r.poison then .poison
        else if bitsOf r.val 31 31 = 0 then
          (if l.state == .sealed then .disocc 3
          else match em with
            | .zero => .entry (0xC0000000 + if fdOned l.desc then a.x else 0)
            | .miss => .disocc 3
            | .wait => match (s.slot p die l.slot).state with
              | .opened => .park
              | .sealed => .disocc 3
              | _ => .disocc 1)
        else if bitsOf r.val 30 30 = 0 then .disocc 2
        else .entry r.val

/-- The start of a walk. -/
def WalkAt.start (x y : Nat) : WalkAt := ⟨x, y, 63, 0, 0, 0⟩

/-! ## Walks of history loads -/

/-- A walk stalls at a fault of translation (R198, R410). -/
def State.walkStall (s : State) (w : Walk) (f : Flt) (addr : Nat) : State :=
  ((s.tried w.tid addr).onWalk w.id fun x => { x with stalled := true }).agentFault engWalker w.id w.launch w.core w.pos f addr

/-- A walk looks at the slot at which it stands. -/
def State.walkSlot (s : State) (w : Walk) (x : Xl) (who : Who) (l : Link) : State :=
  let end_ := fun (e : WalkEnd) (a : WalkAt) => s.onWalk w.id fun y => { y with st := e, at_ := a }
  match s.walkLook x who w.part w.core.die l w.em w.at_ with
  | .disocc r => end_ (.disocc r l.slot) w.at_
  | .park => end_ .parked w.at_
  | .poison => end_ (.failed 0x20 1 (fdEbase l.desc + 4 * (cellIndex l.desc w.at_.x w.at_.y).getD 0)) w.at_
  | .err (.flt f a) => s.walkStall w f a
  | .err (.lost r a) => end_ (.failed 0x21 r a) w.at_
  | .err (.cut a) => end_ (.failed 0x20 3 a) w.at_
  | .err .held => s
  | .entry v =>
    let s1 := s.agentFill x (fdEbase l.desc + 4 * (cellIndex l.desc w.at_.x w.at_.y).getD 0) 4
    let a := w.at_.step l.desc v
    if !a.inside l.desc then s1.onWalk w.id fun y => { y with st := .disocc 5 l.slot, at_ := a }
    else
      let a' := { a with n := a.n + 1 }
      s1.onWalk w.id fun y => { y with st := if a'.n == w.chain.length then .reached else .going, at_ := a' }

/-- The texels that an HLD filters, in order (R186). -/
def Walk.texelsAt (w : Walk) : List Nat :=
  let d := lastDesc w.chain
  let c := cornerOf true w.at_.x w.at_.y
  (cornerTexels true c).map fun ij =>
    let i := (clampInt ij.1 0 ((fdAncW d : Int) - 1)).toNat
    let j := (clampInt ij.2 0 ((fdAncH d : Int) - 1)).toNat
    fdAncBase d + j * fdPitch d + i * surfBytes (fdFmt d)

/-- A walk that has reached its end reads its next texel (R186, R195). -/
def State.walkTexel (s : State) (w : Walk) (x : Xl) (who : Who) (a : Nat) : State :=
  let n := surfBytes (fdFmt (lastDesc w.chain))
  match s.agentRead x who .die a n with
  | .error (.flt f a) => s.walkStall w f a
  | .error (.lost r a) => s.onWalk w.id fun y => { y with st := .failed 0x21 r a }
  | .error (.cut a) => s.onWalk w.id fun y => { y with st := .failed 0x20 3 a }
  | .error .held => s
  | .ok r =>
    if r.poison then s.onWalk w.id fun y => { y with st := .failed 0x20 1 a }
    else (s.agentFill x a n).onWalk w.id fun y => { y with texels := y.texels ++ [r.val] }

/-- The context of a thread runs. -/
def State.ctxRuns (s : State) (tid : Nat) : Bool :=
  match (s.thread tid).bind s.ctxOf with
  | some c => c.place == .running
  | none => false

/-- The checks of R207 on a slot's chain: the chain, or the cause of a trap. -/
def State.histCheck (s : State) (p die k hops budget : Nat) (hres : Bool) (d : Opnd) : Except Nat (List Link × Nat) :=
  let sl := s.slot p die k
  if sl.state == .free then .error 0x02
  else match s.chainOf p die k hops with
    | none => .error 0x02
    | some l =>
      let n := if hres then 4 else surfChans (fdFmt (lastDesc l))
      if !hres && ((l.head?.map fun x => fdOned x.desc).getD false || fdFmt (lastDesc l) == 15) then .error 0x02
      else if !(d.spanOk n && inBudget budget (d, n)) then .error 0x02
      else .ok (l, n)

/-- A withdrawn history load is issued again, with a new snapshot, once the chain walker of its core has room (R17, R194, R207). -/
def State.walkAgain (s : State) (w : Walk) : State :=
  let budget := ((s.thread w.tid).map fun t => t.place.budget).getD 0
  if (s.slot w.part w.core.die w.slot).pending || decide (64 ≤ s.walkerLoad w.core) then s
  else match s.histCheck w.part w.core.die w.slot w.hops budget w.hres w.d with
    | .ok (l, _) => s.onWalk w.id fun y => { y with chain := l, at_ := WalkAt.start w.x0 w.y0, st := .going, texels := [] }
    | .error c =>
      let s1 := ((s.down w.tid .load).onEn fun e => { e with walks := e.walks.filter fun y => y.id != w.id }).onThread w.tid fun t =>
        { t with out := { t.out with hits := t.out.hits ++ [⟨c, 0, 0, 0, false, some w.pos.pc.toNat⟩] } }
      match s1.thread w.tid with
      | some t => s1.unhold t w.id
      | none => s1

/-- WALK_REREAD (R184, R185, R194): a walk reads, or reads again, the entry or the texel at which it stands. -/
def execWalkReread (w : Nat) (s : State) : Out :=
  .next (match s.walk w, (s.walk w).bind fun x => s.agentOf x.tid with
    | some k, some (x, who) =>
      if k.stalled then s
      else match k.st with
        | .again => if s.ctxRuns k.tid then s.walkAgain k else s
        | .going => match k.chain[k.at_.n]? with
          | some l => s.walkSlot k x who l
          | none => s
        | .parked => match k.chain[k.at_.n]? with
          | some l => s.walkSlot k x who l
          | none => s
        | .reached => if k.hres then s else match k.texelsAt[k.texels.length]? with
          | some a => s.walkTexel k x who a
          | none => s
        | _ => s
    | _, _ => s)

/-- The words that a walk without disocclusion delivers (R186, R207). -/
def Walk.result (w : Walk) : List Word :=
  let d := lastDesc w.chain
  if w.hres then
    [BitVec.ofNat 32 w.at_.x, if fdOned d then 0 else BitVec.ofNat 32 w.at_.y, BitVec.ofNat 32 w.at_.conf, BitVec.ofNat 32 w.at_.n]
  else
    let n := surfBytes (fdFmt d)
    let tx := w.texels.map fun v => texelOf (fdFmt d) (toBytes n v)
    (sampleOf true (cornerOf true w.at_.x w.at_.y) (surfChans (fdFmt d)) tx).map (BitVec.ofNat 32)

/-- INFO of a disocclusion (R398): slot, generation, hops. -/
def State.disoccInfo (s : State) (w : Walk) (slot : Nat) : Nat :=
  slot + (s.slot w.part w.core.die slot).gen.toNat * 2 ^ 6 + w.at_.n * 2 ^ 22

/-- A walk ends: its destination, its predicate, its counter, a cause (R33, R188, R198). -/
def State.endWalk (s : State) (w : Walk) (ws : List Word) (pred : Bool) (c : Option Cause) : State :=
  let s1 := (s.deliver w.tid w.id w.d ws).down w.tid .load
  let s2 := match w.pred with
    | some p => s1.wrP w.tid p pred
    | none => s1
  let s3 := match c with
    | some c => s2.causeLive w.tid c
    | none => s2
  s3.onEn fun e => { e with walks := e.walks.filter fun y => y.id != w.id }

/-- WALK_END (R184, R186 to R188, R198). -/
def execWalkEnd (w : Nat) (s : State) : Out :=
  .next (match s.walk w with
    | none => s
    | some k =>
      if k.stalled then s
      else match k.st with
        | .reached => if k.hres || k.texels.length == 4 then s.endWalk k k.result true none else s
        | .disocc r slot =>
          let c : Cause := ⟨0x40, r, k.at_.x + k.at_.y * 2 ^ 32, s.disoccInfo k slot, true, none⟩
          s.endWalk k (List.replicate k.regs 0) false (if k.pred.isSome then none else some c)
        | .failed c r a => s.endWalk k (List.replicate k.regs (BitVec.ofNat 32 fNaN)) false (some ⟨c, r, a, engWalker, false, none⟩)
        | _ => s)

/-! ## Issue of FLD instructions (R199 to R207) -/

/-- A field operation of a thread, as it stood before the issue. -/
def State.putFop (s : State) (t : Thread) (k : FKind) : State :=
  let f : FOp := ⟨s.nextId, t.id, s.launchNo t, t.place.part, t.place.core, t.pos, k, [], false, [], s.clock.toNat⟩
  ((({ s with nextId := s.nextId + 1 }).onEn fun e => { e with fops := e.fops ++ [f] }).up t.id .tile).advance t.id

/-- What an FLD instruction asks: room in its counter (R34). -/
def fldAsk (i : Instr) (c : Ctr) : Ask := { Ask.of (useOf i) with ready := fun t => decide (t.ctr.get c < 63) }

/-- An FLD instruction: each thread takes its own table steps in turn. -/
def fldIssue (i : Instr) (h : Gd) (c : Ctr) (f : List Thread → Thread → State → State) (s : State) : Out :=
  .next (s.issue h (fldAsk i c) fun ts s1 => ts.foldl (fun s' t => f ts t s') s1)

/-- A thread waits at issue for a pending slot (R177), else goes on. -/
def State.unlessPending (s : State) (t : Thread) (ks : List Nat) (f : State → State) : State :=
  if ks.any fun k => (s.slotOf t k).pending then s.holdFor t (.slots ks) else f s

/-- FOPEN (R200). -/
def execFopen (h : Gd) (d a : Opnd) (sl : Fin 64) (s : State) : Out :=
  fldIssue (.fopen h d a sl) h .tile (fun ts t s' =>
    let va := (s.rd2 t a).toNat
    let x := s'.slotOf t sl.val
    if va % 64 != 0 || x.state != .free then s'.trapHere t 0x02 0 0 0
    else
      let g := x.gen + 1
      ((s'.setSlotOf t sl.val { x with state := .opened, pending := true, gen := g }).putFop t (.open_ sl.val va)).wrSpan t (isLead ts t) d
        [g.setWidth 32]) s

/-- FST (R195, R201): an operation that writes the entry as a store with release at die scope (R226; log 57). -/
def execFst (h : Gd) (a b : Opnd) (sl : Fin 64) (s : State) : Out :=
  fldIssue (.fst h a b sl) h .tile (fun _ t s' => s'.unlessPending t [sl.val] fun s' =>
    let x := s'.slotOf t sl.val
    let i := (s.rd t a).toNat
    match x.desc with
    | none => s'.trapHere t 0x02 0 0 0
    | some e =>
      if x.state != .opened || decide (fdCells e ≤ i) then s'.trapHere t 0x02 0 0 0
      else
        let v := bitsOf (s.rd t b).toNat 30 0 + 2 ^ 31
        s'.putFop t (.put ((fdEbase e + 4 * i) % 2 ^ 64) v false)) s

/-- FSEAL (R202). -/
def execFseal (h : Gd) (sl : Fin 64) (s : State) : Out :=
  fldIssue (.fseal h sl) h .tile (fun _ t s' => s'.unlessPending t [sl.val] fun s' =>
    let x := s'.slotOf t sl.val
    if x.state != .opened then s'.trapHere t 0x02 0 0 0
    else (s'.setSlotOf t sl.val { x with state := .sealed }).putFop t (.seal sl.val)) s

/-- The descriptor of a composed field (R189): the grid of the source, the ancestor and the parent of the last slot. -/
def compDesc (arr src last : Nat) : Nat :=
  arr + bitsOf src 95 64 * 2 ^ 64 + fdCell src * 2 ^ 96 + bitsOf last 110 104 * 2 ^ 104 + bitsOf last 255 112 * 2 ^ 112

/-- FCOMP (R190, R203). -/
def execFcomp (h : Gd) (a : Opnd) (src dst : Fin 64) (hops : Fin 16) (em : Empty) (s : State) : Out :=
  fldIssue (.fcomp h a src dst hops em) h .tile (fun _ t s' => s'.unlessPending t [src.val, dst.val] fun s' =>
    let arr := (s.rd2 t a).toNat
    let x := s'.slotOf t src.val
    let y := s'.slotOf t dst.val
    match s'.chainOf t.place.part t.place.core.die src.val hops.val with
    | none => s'.trapHere t 0x02 0 0 0
    | some l =>
      if arr % 64 != 0 || y.state != .free || !(x.state == .opened || x.state == .sealed) || l.any (fun k => k.slot == dst.val) then
        s'.trapHere t 0x02 0 0 0
      else
        let e := compDesc arr (x.desc.getD 0) (lastDesc l)
        let mask := l.foldl (fun (m : BitVec 64) k => m ||| (s'.slotOf t k.slot).mask) (1#64 <<< dst.val)
        (s'.setSlotOf t dst.val ⟨.opened, true, some e, y.gen + 1, mask, x.depth - l.length + 1⟩).putFop t (.comp src.val dst.val arr l em [])) s

/-- FINV (R204). -/
def execFinv (h : Gd) (sl : Fin 64) (s : State) : Out :=
  fldIssue (.finv h sl) h .tile (fun _ t s' => s'.unlessPending t [sl.val] fun s' =>
    if (s'.slotOf t sl.val).state == .free then s'.trapHere t 0x02 0 0 0 else s'.putFop t (.inv sl.val none)) s

/-- FREL (R205). -/
def execFrel (h : Gd) (sl : Fin 64) (s : State) : Out :=
  fldIssue (.frel h sl) h .tile (fun _ t s' =>
    if (s'.slotOf t sl.val).state != .retired then s'.trapHere t 0x02 0 0 0 else s'.putFop t (.rel sl.val)) s

/-- A walk in flight, or an FCOMP, whose snapshot includes a slot (R184, R191, R193, R206). -/
def State.walksOf (s : State) (p die k : Nat) : Nat :=
  (s.en.walks.filter fun w => w.part == p && w.core.die == die && w.st != .discarded && w.st != .again && w.chain.any fun l => l.slot == k).length +
  (s.en.fops.filter fun f => f.part == p && f.core.die == die && match f.kind with
    | .comp _ _ _ l _ _ => l.any fun x => x.slot == k
    | _ => false).length

/-- The code of a state (R206). -/
def SlotState.code : SlotState → Nat
  | .free => 0 | .opened => 1 | .sealed => 2 | .retired => 3

/-- The low word of FQRY (R206); a pending slot reads as OPEN. -/
def fqryWord (x : Slot) : Nat :=
  let e := x.desc.getD 0
  let st := if x.pending then SlotState.opened else x.state
  let dep := if x.state == .free || x.desc.isNone then 0 else x.depth
  x.gen.toNat + st.code * 2 ^ 16 + (if fdHasp e then 2 ^ 18 else 0) + fdParent e * 2 ^ 19 + dep * 2 ^ 25 + (if fdOned e then 2 ^ 29 else 0)

/-- FQRY (R206). -/
def execFqry (h : Gd) (d : Opnd) (sl : Fin 64) (s : State) : Out :=
  fldIssue (.fqry h d sl) h .tile (fun ts t s' =>
    (s'.advance t.id).wrSpan t (isLead ts t) d [BitVec.ofNat 32 (fqryWord (s'.slotOf t sl.val)),
      BitVec.ofNat 32 (Nat.min 64 (s'.walksOf t.place.part t.place.core.die sl.val))]) s

/-- FQRY.ANC (R206). -/
def execFqryAnc (h : Gd) (d : Opnd) (sl : Fin 64) (s : State) : Out :=
  fldIssue (.fqryAnc h d sl) h .tile (fun ts t s' =>
    (s'.advance t.id).wrSpan t (isLead ts t) d (toWords 2 (s'.slotOf t sl.val).mask.toNat)) s

/-- A predicate destination of an outstanding operation; p7 takes no writes (R47). -/
def State.holdPred (s : State) (t : Nat) (op : Nat) (p : Option Nat) : State :=
  match p with
  | some n => if n < 7 then s.holdP t op n else s
  | none => s

/-- HLD and HRES (R207): the issue checks, then a walk with its snapshot. -/
def histIssue (i : Instr) (h : Gd) (d a : Opnd) (sl hops : Nat) (em : Empty) (pred : Option Nat) (hres : Bool) (s : State) : Out :=
  fldIssue i h .load (fun ts t s' => s'.unlessPending t [sl] fun s' =>
    match s'.histCheck t.place.part t.place.core.die sl hops t.place.budget hres d with
    | .error c => s'.trapHere t c 0 0 0
    | .ok (l, n) =>
      if s.pending t (spanRefs (d, n)) then s'.settleFate t .hold
      else if 64 ≤ s'.walkerLoad t.place.core then s'.holdFor t .walker
      else
        let dd := destOf ts t d
        let one := (l.head?.map fun x => fdOned x.desc).getD false
        let x := (s.rdReg t a 0).toNat
        let y := if one then 0 else (s.rdReg t a 1).toNat
        let w : Walk := {
          id := s'.nextId, tid := t.id, launch := s'.launchNo t, core := t.place.core, part := t.place.part, pos := t.pos, slot := sl, hops := hops,
          x0 := x, y0 := y, em := em, d := dd, regs := n, hres := hres, pred := pred, chain := l, at_ := WalkAt.start x y, st := .going,
          stalled := false, texels := [], since := s.clock.toNat }
        ((((({ s' with nextId := s'.nextId + 1 }).onEn fun e => { e with walks := e.walks ++ [w] }).hold t w.id dd n).holdPred t.id w.id pred).up
          t.id .load).advance t.id) s

def execHld (h : Gd) (d a : Opnd) (sl : Fin 64) (hops : Fin 16) (em : Empty) (pred : Option (Fin 8)) (s : State) : Out :=
  histIssue (.hld h d a sl hops em pred) h d a sl.val hops.val em (pred.map Fin.val) false s
def execHres (h : Gd) (d a : Opnd) (sl : Fin 64) (hops : Fin 16) (em : Empty) (pred : Option (Fin 8)) (s : State) : Out :=
  histIssue (.hres h d a sl hops em pred) h d a sl.val hops.val em (pred.map Fin.val) true s

/-! ## Field operations -/

/-- A field operation completes: its counter falls, its writes are seen with it, its causes wait for a header. -/
def State.fopDone (s : State) (f : FOp) : State :=
  let s1 := ((s.onEn fun e => { e with fops := e.fops.filter fun x => x.id != f.id }).tileDone f.tid 0).tileWrites f.tid f.writes
  f.causes.foldl (fun s' c => s'.causeLive f.tid c) s1

/-- A field operation stalls at a fault of translation (R198, R410). -/
def State.fopStall (s : State) (f : FOp) (e : Flt) (addr : Nat) : State :=
  ((s.tried f.tid addr).onFop f.id fun x => { x with stalled := true }).agentFault engWalker f.id f.launch f.core f.pos e addr

/-- An FOPEN fails (R180, R459): the slot is RETIRED and holds no descriptor. -/
def State.fopenFail (s : State) (f : FOp) (k : Nat) (c : Cause) : State :=
  let x := s.slot f.part f.core.die k
  (s.setSlot f.part f.core.die k { x with state := .retired, pending := false, desc := none, mask := 1#64 <<< k, depth := 0 }).fopDone
    { f with causes := f.causes ++ [c] }

/-- FOPEN_INSTALL (R177, R180, R190). -/
def execFopenInstall (op : Nat) (s : State) : Out :=
  .next (match s.fop op, (s.fop op).bind fun f => s.agentOf f.tid with
    | some f, some (x, w) =>
      match f.kind with
      | .open_ k va =>
        if f.stalled then s
        else match s.agentRead x w .core va 64 with
          | .error (.flt e a) => s.fopStall f e a
          | .error (.lost r a) => s.fopenFail f k ⟨0x21, r, a, engWalker, false, none⟩
          | .error (.cut a) => s.fopenFail f k ⟨0x20, 3, a, engWalker, false, none⟩
          | .error .held => s
          | .ok r =>
            let s1 := s.agentFill x va 64
            let d := r.val
            if r.poison then s1.fopenFail f k (poisonCause va engWalker)
            else match fdCheck k d with
              | some c => s1.fopenFail f k ⟨c, 0, 0, 0, false, none⟩
              | none =>
                let p := s1.slot f.part f.core.die (fdParent d)
                let y := s1.slot f.part f.core.die k
                if !fdHasp d then
                  (s1.setSlot f.part f.core.die k { y with pending := false, desc := some d, mask := 1#64 <<< k, depth := 1 }).fopDone f
                else if p.pending then s
                else if !fdParentOk d p then s1.fopenFail f k ⟨0x02, 0, 0, 0, false, none⟩
                else
                  (s1.setSlot f.part f.core.die k
                    { y with pending := false, desc := some d, mask := 1#64 <<< k ||| p.mask, depth := p.depth + 1 }).fopDone f
      | _ => s
    | _, _ => s)

/-- The entry of an FST may be written: every earlier access of its thread has performed, and what the thread has observed is visible at
die scope (R195, R217). -/
def State.putReady (s : State) (f : FOp) (w : Who) : Bool :=
  s.ms.accs.all (fun a => a.tid != f.tid || decide (f.id ≤ a.id) || a.silent || a.performed) &&
    s.visible (s.obsOf f.tid) (s.performedAt w .die)

/-- An FST writes its entry (R195, R201). -/
def State.putEntry (s : State) (op : Nat) : State :=
  match s.fop op, (s.fop op).bind fun f => s.agentOf f.tid with
  | some f, some (x, w) =>
    match f.kind with
    | .put ea v false =>
      if f.stalled || !s.putReady f w then s
      else match s.agentWrite ⟨w, x, ((s.thread f.tid).bind s.ctxOf).elim 0 Ctx.id, f.id⟩ false (pieces ea 4) (toBytes 4 v) with
        | .error (.flt e a) => s.fopStall f e a
        | .error (.lost r a) => s.fopDone { f with causes := f.causes ++ [⟨0x21, r, a, engWalker, false, none⟩] }
        | .error (.cut _) => s
        | .error .held => s
        | .ok r => (r.2.onFop op fun y => { y with kind := .put ea v true, writes := y.writes ++ r.1 }).settle
    | _ => s
  | _, _ => s

/-- PERFORM (R215, R216): part k of an access performs where the conditions hold, or the entry of an FST is written (R195). -/
def execPerform (acc part : Nat) (s : State) : Out :=
  .next (match s.access acc with
    | some a => s.performAccess a part
    | none => s.putEntry acc)

/-- FSEAL_ACK (R202). -/
def execFsealAck (op : Nat) (s : State) : Out :=
  .next (match s.fop op with
    | some f => match f.kind with
      | .seal _ => s.fopDone f
      | _ => s
    | none => s)

/-! ## FCOMP (R189) -/

/-- The centre of a cell. -/
def cellCentre (d c : Nat) : WalkAt :=
  if fdOned d then WalkAt.start c 0
  else
    let at_ := fun (k : Nat) => fMul (fInt (2 * k + 1 : Nat)) (fDiv (fInt (fdPix d : Nat)) (fInt 2))
    WalkAt.start (at_ (c % fdGw d)) (at_ (c / fdGw d))

/-- How the walk of a cell ends. -/
inductive CellEnd where
  | reached (a : WalkAt)
  | disocc
  | park
  | poison
  | err (e : AErr)

/-- The walk of a cell along a chain. -/
def State.cellWalk (s : State) (x : Xl) (w : Who) (p die : Nat) (em : Empty) : List Link → WalkAt → CellEnd
  | [], a => .reached a
  | l :: r, a =>
    match s.walkLook x w p die l em a with
    | .disocc _ => .disocc
    | .park => .park
    | .poison => .poison
    | .err e => .err e
    | .entry v =>
      let a' := a.step l.desc v
      if a'.inside l.desc then s.cellWalk x w p die em r { a' with n := a'.n + 1 } else .disocc

/-- A composed entry (R189). -/
def compEntry (one : Bool) (a : WalkAt) : Nat :=
  if one then 0xC0000000 + a.x
  else if a.dx < -2048 ∨ 2047 < a.dx ∨ a.dy < -2048 ∨ 2047 < a.dy then 0x80000000
  else 0xC0000000 + a.conf * 2 ^ 24 + wrapInt a.dy 12 * 2 ^ 12 + wrapInt a.dx 12

/-- Fills one cell: not at all while its walk waits, or when a fault stalls the operation. -/
def State.fillCell (s : State) (f : FOp) (x : Xl) (w : Who) (c : Nat) : State :=
  match f.kind with
  | .comp src dst arr l em filled =>
    let d := (l.head?.map Link.desc).getD 0
    let put := fun (v : Nat) (cs : List Cause) =>
      match s.agentWrite ⟨w, x, ((s.thread f.tid).bind s.ctxOf).elim 0 Ctx.id, f.id⟩ false (pieces (arr + 4 * c) 4) (toBytes 4 v) with
      | .error (.flt e a) => s.fopStall f e a
      | .error (.lost r a) => s.onFop f.id fun y => { y with
          kind := .comp src dst arr l em (c :: filled), causes := y.causes ++ cs ++ [⟨0x21, r, a, engWalker, false, none⟩] }
      | .error (.cut _) => s
      | .error .held => s
      | .ok r => r.2.onFop f.id fun y => { y with
          kind := .comp src dst arr l em (c :: filled), causes := y.causes ++ cs, writes := y.writes ++ r.1 }
    if filled.contains c || decide (fdCells d ≤ c) then s
    else match s.cellWalk x w f.part f.core.die em l (cellCentre d c) with
      | .reached a => put (compEntry (fdOned d) a) []
      | .disocc => put 0x80000000 []
      | .poison => put 0x80000000 [poisonCause 0 engWalker]
      | .park => s
      | .err (.flt e a) => s.fopStall f e a
      | .err (.lost r a) => put 0x80000000 [⟨0x21, r, a, engWalker, false, none⟩]
      | .err (.cut a) => put 0x80000000 [⟨0x20, 3, a, engWalker, false, none⟩]
      | .err .held => s
  | _ => s

/-- Fills cells in the order given, while the operation is not stalled. -/
def State.fillCells (s : State) (op : Nat) : List Nat → State
  | [] => s
  | c :: l =>
    match s.fop op, (s.fop op).bind fun f => s.agentOf f.tid with
    | some f, some (x, w) => if f.stalled then s else (s.fillCell f x w c).fillCells op l
    | _, _ => s

/-- FCOMP_COMPLETE (R189, R192, R203): fills cells, and completes once every entry is performed at die scope. -/
def execFcompComplete (op : Nat) (cells : List Nat) (s : State) : Out :=
  let s1 := s.fillCells op cells
  .next (match s1.fop op with
    | some f => match f.kind with
      | .comp _ dst _ l _ filled =>
        let d := (l.head?.map Link.desc).getD 0
        let y := s1.slot f.part f.core.die dst
        if f.stalled || decide (filled.length < fdCells d) || !s1.visible f.writes [.die f.core.die] then s1
        else (s1.setSlot f.part f.core.die dst { y with pending := false, state := if y.state == .opened then .sealed else y.state }).fopDone f
      | _ => s1
    | none => s1)

/-! ## FINV and FREL (R191 to R193) -/

/-- Slots that an FINV of slot k retires. -/
def State.retiredBy (s : State) (p die k : Nat) : List Nat :=
  (List.range 64).filter fun n => let x := s.slot p die n; (x.state == .opened || x.state == .sealed) && x.mask.getLsbD k

/-- FINV_RETIRE_POINT (R191). -/
def execFinvRetirePoint (op : Nat) (s : State) : Out :=
  .next (match s.fop op with
    | some f => match f.kind with
      | .inv k none =>
        let ks := s.retiredBy f.part f.core.die k
        let s1 := ks.foldl (fun s' n => s'.setSlot f.part f.core.die n { s'.slot f.part f.core.die n with state := .retired }) s
        (s1.onFop op fun y => { y with kind := .inv k (some ks) }).onEn fun e => { e with
          walks := e.walks.map fun w => match w.st, w.chain[w.at_.n]? with
            | .parked, some l => if w.part == f.part && w.core.die == f.core.die && ks.contains l.slot then { w with st := .disocc 1 l.slot } else w
            | _, _ => w }
      | _ => s
    | none => s)

/-- FINV_COMPLETE (R191). -/
def execFinvComplete (op : Nat) (s : State) : Out :=
  .next (match s.fop op with
    | some f => match f.kind with
      | .inv _ (some ks) => if ks.all fun n => s.walksOf f.part f.core.die n == 0 then s.fopDone f else s
      | _ => s
    | none => s)

/-- FREL_COMPLETE (R193): the slot is FREE, and keeps its generation. A slot that an FCOMP still fills stays until then (R177; log 51). -/
def execFrelComplete (op : Nat) (s : State) : Out :=
  .next (match s.fop op with
    | some f => match f.kind with
      | .rel k =>
        let x := s.slot f.part f.core.die k
        if s.walksOf f.part f.core.die k == 0 && !x.pending then
          (if x.state == .retired then s.setSlot f.part f.core.die k { Slot.reset with gen := x.gen } else s).fopDone f
        else s
      | _ => s
    | none => s)

end Sys2Proof.Machine
end

