-- ==== Sys2Proof/Machine/Queue.lean ====
section
/-!
DEFINITION. Queues of a gang and the queue instructions (R222, R329, R330, R335 to R338, R341, R342, R347, R366 to R372).
-/
namespace Sys2Proof.Machine

/-! ## Stage and queue entries (R327, R330) -/

def stPc (e : Nat) : Nat := extend48 (bitsOf e 47 0)
def stWidth (e : Nat) : Nat := bitsOf e 52 50
def stBudget (e : Nat) : Nat := 8 * (bitsOf e 59 56 + 1)
def stRole (e : Nat) : Nat := bitsOf e 49 48
def stMinc (e : Nat) : Nat := bitsOf e 70 64
def stMaxc (e : Nat) : Nat := bitsOf e 78 72
/-- Queue of binding n: the input, then the three outputs; 15 for none (R329). -/
def stQueue (e n : Nat) : Nat := bitsOf e (83 + 4 * n) (80 + 4 * n)
def stOutputs (e : Nat) : List Nat := [stQueue e 1, stQueue e 2, stQueue e 3].filter fun q => q != 15
def stCoal (e : Nat) : Nat := bitsOf e 108 96
def stTimer (e : Nat) : Nat := bitsOf e 127 112
def stSrcn (e : Nat) : Nat := bitsOf e 143 128
def stGpc (e : Nat) : Nat := bitsOf e 150 144
def stSarg (e : Nat) : Nat := bitsOf e 255 224
def stSource (e : Nat) : Bool := stQueue e 0 == 15

def quBofs (e : Nat) : Nat := bitsOf e 21 0
def quBcore (e : Nat) : Nat := bitsOf e 27 22
def quBerths (e : Nat) : Nat := bitsOf e 43 32 + 1
/-- Bytes of a berth. -/
def quSize (e : Nat) : Nat := 16 * (bitsOf e 47 44 + 1)
def quSpill (e : Nat) : Bool := bitsOf e 48 48 == 1
def quSbase (e : Nat) : Nat := extend48 (bitsOf e 111 64)
def quScap (e : Nat) : Nat := bitsOf e 159 128

/-! ## Bindings (R52, R329) -/

/-- A queue of a gang. -/
def State.queue (s : State) (g q : Nat) : Option Queue := (s.gang g).bind fun x => x.queues[q]?

def State.onQueue (s : State) (g q : Nat) (f : Queue → Queue) : State := s.onGang g fun x => { x with queues := x.queues.modify q f }

/-- The gang and the stage of a thread. -/
def State.stageOf (s : State) (t : Thread) : Option (Gang × Nat) :=
  match s.team t.place.team with
  | some x => match x.stage, s.gang x.launch with
    | some st, some g => some (g, st)
    | _, _ => none
  | none => none

/-- The queue that a binding of a thread's stage names: its gang and its number; none where it is not listed. -/
def State.binding (s : State) (t : Thread) (b : Nat) : Option (Nat × Nat) :=
  match s.stageOf t with
  | some (g, st) => match g.stages[st]? with
    | some e => if b ≤ 3 && stQueue e.entry b != 15 then some (g.launch, stQueue e.entry b) else none
    | none => none
  | none => none

/-- Registers of a record of a queue (R366). -/
def State.recRegs (s : State) (gq : Nat × Nat) : Nat :=
  match s.queue gq.1 gq.2 with
  | some q => quSize q.entry / 4
  | none => 4

/-- The checks of R58 items 7 and 8 on a binding, with the kinds that an instruction accepts, and the span of a record. -/
def State.bindCheck (s : State) (b : Nat) (kindOk : Bool) (rec_ : Option Opnd) (t : Thread) : Option Nat :=
  match s.binding t b with
  | none => some 0x70
  | some gq =>
    if !kindOk then some 0x70
    else match rec_ with
      | none => none
      | some o => if o.spanOk (s.recRegs gq) && inBudget t.place.budget (o, s.recRegs gq) then none else some 0x02

/-- No register of the record's span is pending. -/
def State.spanReady (s : State) (b : Nat) (o : Opnd) (t : Thread) : Bool :=
  match s.binding t b with
  | some gq => !s.pending t (spanRefs (o, s.recRegs gq))
  | none => true

/-! ## Queue steps (R335, R336) -/

/-- The vault key of a berth. -/
def berthKey (g : Gang) (e n : Nat) : Nat :=
  let c := ((g.cores[quBcore e]?).map GCore.core).getD 0
  g.die * 2 ^ 30 + c * 2 ^ 24 + (quBofs e + n * quSize e)

/-- Berths that hold a record. -/
def Queue.occupied (q : Queue) : List QRec := q.recs.filter fun r => !r.spilled
def Queue.spilled (q : Queue) : List QRec := q.recs.filter QRec.spilled

/-- The lowest number below n that is not listed. -/
def lowestFree (n : Nat) (l : List Nat) : Option Nat := (List.range n).find? fun i => !l.contains i

/-- The lowest free berth, where a push may take one. -/
def Queue.freeBerth (q : Queue) : Option Nat :=
  if q.spilled.isEmpty then lowestFree (quBerths q.entry) (q.occupied.map QRec.at_) else none

/-- The place that a push finds: spilled or not, and its number. -/
def Queue.place (q : Queue) : Option (Bool × Nat) :=
  match q.freeBerth with
  | some n => some (false, n)
  | none =>
    if quSpill q.entry && decide (q.spilled.length < quScap q.entry) then
      -- the spill area is as large as it need be: one more place than there are records
      (lowestFree (q.spilled.length + 1) (q.spilled.map QRec.at_)).map fun n => (true, n)
    else none

/-- The bytes of words. -/
def wordBytes (ws : List Word) : List Byte := ws.flatMap fun w => toBytes 4 w.toNat

/-- A record in the spill area holds poison (R426). -/
def State.spillBad (s : State) (r : QRec) : Bool := s.ms.writes.any fun w => w.id == r.wid && !w.bad.isEmpty

/-- The oldest spilled record moves into a berth that has become free (R336). -/
def State.unspill (s : State) (g : Gang) (q : Nat) : State :=
  match s.queue g.launch q with
  | none => s
  | some x =>
    match x.recs.find? QRec.spilled, lowestFree (quBerths x.entry) (x.occupied.map QRec.at_) with
    | some r, some n =>
      (s.vwrite (berthKey g x.entry n) (wordBytes r.words) (s.spillBad r)).onQueue g.launch q fun y => { y with
        recs := y.recs.map fun z => if z.spilled && z.at_ == r.at_ then { z with spilled := false, at_ := n } else z }
    | _, _ => s

/-- A record leaves its queue: its berth frees. -/
def State.takeRec (s : State) (g : Gang) (q : Nat) (r : QRec) : State :=
  (s.onQueue g.launch q fun y => { y with recs := y.recs.filter fun z => !(z.spilled == r.spilled && z.at_ == r.at_) }).unspill g q

/-- Groups of a stage that are resident: a group ends with its last thread (R357). -/
def State.resident (s : State) (g st : Nat) : List Team :=
  s.wk.teams.filter fun t => t.launch == g && t.stage == some st && !t.ended && s.wk.threads.any fun x => x.place.team == t.id && !x.exited

/-- A stage has finished (R347). -/
def State.stageDone (s : State) (g : Gang) (st : Nat) : Bool :=
  match g.stages[st]? with
  | none => true
  | some e =>
    (s.resident g.launch st).isEmpty &&
      if stSource e.entry then decide (stSrcn e.entry ≤ e.launched)
      else match g.queues[stQueue e.entry 0]? with
        | some q => q.closed && q.recs.isEmpty
        | none => true

/-- Queues all of whose writers have finished close (R338). -/
def State.closeOnce (s : State) (g : Nat) : State :=
  match s.gang g with
  | none => s
  | some x =>
    let writers := fun (q : Nat) => (List.range x.stages.length).filter fun st => ((x.stages[st]?).map fun e => (stOutputs e.entry).contains q).getD false
    (List.range x.queues.length).foldl (fun s' q =>
      if (writers q).all fun st => s.stageDone x st then s'.onQueue g q fun y => { y with closed := true } else s') s

/-- Queues close along the graph: there are at most 8 stages. -/
def State.closeQueues (s : State) (g : Nat) : State := (List.range 8).foldl (fun s' _ => s'.closeOnce g) s

/-! ## QPUSH (R222, R275, R366, R367) -/

/-- The cores that may pop from a queue: those of the stage that reads it, and those that still run its groups. -/
def Gang.readers (g : Gang) (q : Nat) : List CoreId :=
  (g.cores.filter fun c =>
    let reads := fun (st : Nat) => ((g.stages[st]?).map fun e => stQueue e.entry 0 == q).getD false
    reads c.stage || (c.from_.map reads).getD false).map fun c => ⟨g.die, c.core⟩

/-- The core that pops will be another than the producer's. Where it may be either, the stage graph's choice is free (log 60). -/
def State.popsElsewhere (s : State) (g : Gang) (q : Nat) (c : CoreId) : Bool × State :=
  let l := g.readers q
  if l.all fun x => x == c then (false, s)
  else if !l.contains c then (true, s)
  else let d := s.draw; (d.1 % 2 == 1, d.2)

/-- The lines that a group has dirtied, every dirty line of its core's L1 where their set has overflowed, are written back to the
L2 of the die, on which every core of the gang stands (R275, R332). -/
def State.cleanGroup (s : State) (x : Group) : State :=
  (s.co.l1.filter fun b => b.core == x.core && b.dirty && (x.overflow || x.dirty.contains (b.blk / 2))).foldl (fun s' b => s'.cleanBlk x.core b.blk false) s

/-- What a QPUSH does with the lines that its group has dirtied; the set is empty then (R275). -/
def State.writeBackGroup (s : State) (g : Gang) (q grp : Nat) : State :=
  match s.group grp with
  | none => s
  | some x =>
    let e := s.popsElsewhere g q x.core
    (if e.1 then e.2.cleanGroup x else e.2).onGroup grp fun y => { y with dirty := [], overflow := false }

/-- What QPUSH asks. -/
def State.pushAsk (s : State) (i : Instr) (q : Nat) (a : Opnd) : Ask :=
  { Ask.of (useOf i) with bind := s.bindCheck q (decide (1 ≤ q)) (some a), ready := s.spanReady q a }

/-- QPUSH: the access of a push carries the number of the step of its issue (R366). -/
def execQpush (h : Gd) (q : Fin 8) (a : Opnd) (sc : Scope) (s : State) : Out :=
  .next (s.issue h (s.pushAsk (.qpush h q a sc) q.val a) fun ts s1 => ts.foldl (fun s' t =>
    match s.binding t q.val with
    | none => s'
    | some gq =>
      if (useRW [(a, s.recRegs gq)] []).readsBad t then s'.trapHere t 0x20 2 0 0
      else
        let id := s'.nextId
        ((s'.place t false ⟨15, sc, false, true, false⟩ (.push gq.1 gq.2 (s.rdSpan t a (s.recRegs gq))) .none 0 [APart.new 0 0 0]).onAccess id
          fun x => { x with arrived := some s.tick }).waitOn t.id (.push id)) s1)

/-- A push ends its thread's wait with a trap at the QPUSH. -/
def State.trapPush (s : State) (a : Access) (cause reason addr : Nat) : State := s.trapAtomic a cause reason addr

/-- A push of a lower lane of the same issue has still to take its step at the queue (R366). -/
def State.pushBehind (s : State) (a : Access) (g q : Nat) : Bool :=
  s.ms.accs.any fun b => decide (b.id < a.id) && !b.performed && b.arrived.isSome && b.arrived == a.arrived &&
    match b.kind with
    | .push g' q' _ => g' == g && q' == q
    | _ => false

/-- The queue step of a push: its record stands last, and its thread goes on. -/
def State.pushed (s : State) (a : Access) (g q : Nat) (r : QRec) : State :=
  (((s.onQueue g q fun y => { y with recs := y.recs ++ [r] }).doneAt a.id 0 r.wid).wake a.tid).settle

/-- A push writes its record into a spill slot, through the address space of its thread (R336, R408, R430, R432). -/
def State.pushSpill (s : State) (a : Access) (t : Thread) (gg : Gang) (qu : Queue) (q n : Nat) (ws : List Word) : State :=
  let ea := quSbase qu.entry + n * quSize qu.entry
  let s0 := s.fillTlb t.xl ea
  match s.translate t.xl .write ea with
  | .error f => s0.defer a 0 f ea
  | .ok pa =>
    if s0.lost pa != 0 then s0.trapPush a 0x21 (s0.lost pa) ea
    else if s0.linkHeld pa then s0
    else
      let r := s0.commitOwn t.who a.id a.relScope (cellsAt pa (wordBytes ws)) (s0.goesHome t.xl ea pa)
      (r.2.writeBackGroup gg q t.place.grp).pushed a gg.launch q ⟨ws, s.clock.toNat, true, n, none, r.1⟩

/-- PUSH_QUEUE_STEP (R336, R366, R367): once the release may perform, the push takes its step, where it finds a place. -/
def execPushQueueStep (acc : Nat) (s : State) : Out :=
  .next (match s.access acc with
    | none => s
    | some a =>
      match a.kind, s.thread a.tid with
      | .push g q ws, some t =>
        if a.performed || a.parts.any (fun p => p.stalled) || !s.ordered a || s.pushBehind a g q then s
        else match s.gang g, s.queue g q with
          | some gg, some qu =>
            if qu.closed then s.trapPush a 0x70 0 0
            else match qu.place with
              | none => s
              | some (false, n) =>
                (((s.vwrite (berthKey gg qu.entry n) (wordBytes ws) false).vaultRelease t.who a).writeBackGroup gg q t.place.grp).pushed a g q
                  ⟨ws, s.clock.toNat, false, n, none, 0⟩
              | some (true, n) => s.pushSpill a t gg qu q n ws
          | _, _ => s
      | _, _ => s)

/-! ## QPOP and QTRY (R215, R222, R341, R368, R369) -/

/-- The records that pops of a group take, in order: those reserved to it, then, for QTRY, those unreserved. -/
def Queue.offers (q : Queue) (grp : Nat) (try_ : Bool) : List QRec :=
  q.recs.filter (fun r => r.holder == some grp) ++ if try_ then q.recs.filter fun r => r.holder.isNone else []

/-- The record that a pop takes: the oldest reserved to the group, or, for QTRY, the oldest unreserved. -/
def Queue.next (q : Queue) (grp : Nat) (try_ : Bool) : Option QRec := (q.offers grp try_).head?

/-- The read of a record as an access of its thread: of its berth, or of its spill slot. -/
def recordAccess (t : Thread) (id : Nat) (g : Gang) (qu : Queue) (r : QRec) : Access :=
  { smpAccess t id 15 .pref 0 0 with
    vault := !r.spilled, ctr := .none,
    parts := [APart.new 0 (quSize qu.entry) (if r.spilled then quSbase qu.entry + r.at_ * quSize qu.entry else berthKey g qu.entry r.at_)] }

/-- A pop that takes a record is an acquire, and may perform (R215, R222): so for each record that the thread may find, after those that
threads of its group before it in the issue may take. A pop that takes none waits for nothing. -/
def State.popReady (s : State) (h : Gd) (q : Nat) (try_ : Bool) (t : Thread) : Bool :=
  match s.stageOf t, s.binding t q with
  | some (g, _), some (gl, qn) =>
    match s.queue gl qn with
    | none => true
    | some qu =>
      let before := ((s.front.takeWhile fun u => u.id != t.id).filter fun u => u.guard h && u.place.grp == t.place.grp).length
      ((qu.offers t.place.grp try_).take (before + 1)).all fun r => s.ordered (recordAccess t s.nextId g qu r)
  | _, _ => true

/-- What QPOP and QTRY ask. -/
def State.popAsk (s : State) (i : Instr) (h : Gd) (q : Nat) (d : Opnd) (try_ : Bool) : Ask :=
  { Ask.of (useOf i) with bind := s.bindCheck q (decide (q = 0)) (some d), ready := fun t => s.spanReady q d t && s.popReady h q try_ t }

/-- The words of a record in its berth, or spilled, and whether it is poisoned. -/
def State.recordOf (s : State) (g : Gang) (qu : Queue) (r : QRec) : List Word × Bool :=
  if r.spilled then (r.words, s.spillBad r)
  else let b := s.vread (berthKey g qu.entry r.at_) (quSize qu.entry); (toWords (quSize qu.entry / 4) (ofBytes b.bytes), b.poison)

/-- A pop takes a record in one queue step, an acquire; the record is on its way to the registers (R368). -/
def State.pop (s : State) (ts : List Thread) (t : Thread) (g : Gang) (q : Nat) (qu : Queue) (r : QRec) (d st : Opnd) (sc : Scope) : State :=
  let x := s.recordOf g qu r
  let s1 := ((s.takeRec g q r).takeRead t.who (if r.spilled && r.wid != 0 then [r.wid] else [])).refresh t.who sc
  let id := s1.nextId
  let d' := destOf ts t d
  let st' := destOf ts t st
  ((((s1.place t true ⟨15, sc, false, false, false⟩ (.record d' st' x.1) .none 0 [APart.new 0 0 0]).onAccess id fun a => { a with bad := x.2 }).hold
    t id d' x.1.length).hold t id st' 1).advance t.id

/-- QPOP and QTRY at issue. -/
def popIssue (i : Instr) (h : Gd) (d : Opnd) (q : Nat) (st : Opnd) (sc : Scope) (try_ : Bool) (s : State) : Out :=
  .next (s.issue h (s.popAsk i h q d try_) fun ts s1 => ts.foldl (fun s' t =>
    match s'.stageOf t, s'.binding t q with
    | some (g, _), some (gl, qn) =>
      match s'.queue gl qn with
      | none => s'
      | some qu =>
        match qu.next t.place.grp try_ with
        | some r => s'.pop ts t g qn qu r d st sc
        | none => ((s'.advance t.id).wrSpan t (isLead ts t) d (List.replicate (quSize qu.entry / 4) 0)).wrSpan t (isLead ts t) st [0]
    | _, _ => s') s1)

def execQpop (h : Gd) (d : Opnd) (q : Fin 8) (st : Opnd) (sc : Scope) (s : State) : Out :=
  popIssue (.qpop h d q st sc) h d q.val st sc false s
def execQtry (h : Gd) (d : Opnd) (q : Fin 8) (st : Opnd) (sc : Scope) (s : State) : Out :=
  popIssue (.qtry h d q st sc) h d q.val st sc true s

/-! ## QCLOSE and QQRY (R370, R371) -/

/-- What QCLOSE asks. A thread's earlier pushes have taken their steps, since it waits for each of them (R367). -/
def State.closeAsk (s : State) (i : Instr) (q : Nat) : Ask := { Ask.of (useOf i) with bind := s.bindCheck q (decide (1 ≤ q)) none }

/-- What QQRY asks. -/
def State.qqryAsk (s : State) (i : Instr) (q : Nat) : Ask := { Ask.of (useOf i) with bind := s.bindCheck q true none }

def execQclose (h : Gd) (q : Fin 8) (s : State) : Out :=
  .next (s.issue h (s.closeAsk (.qclose h q) q.val) fun ts s1 => ts.foldl (fun s' t =>
    match s.binding t q.val with
    | none => s'
    | some gq => ((s'.onQueue gq.1 gq.2 fun y => { y with closed := true }).closeQueues gq.1).advance t.id) s1)

/-- The two words of QQRY: the held count, and the word of the table. -/
def Queue.query (q : Queue) : List Word :=
  let unres := (q.occupied.filter fun r => r.holder.isNone).length
  [BitVec.ofNat 32 (Nat.min (2 ^ 32 - 1) q.recs.length),
    BitVec.ofNat 32 ((quBerths q.entry - q.occupied.length) + (if q.closed then 2 ^ 13 else 0) + (if q.spilled.isEmpty then 0 else 2 ^ 14) + unres * 2 ^ 15)]

def execQqry (h : Gd) (d : Opnd) (q : Fin 8) (s : State) : Out :=
  .next (s.issue h (s.qqryAsk (.qqry h d q) q.val) fun ts s1 => ts.foldl (fun s' t =>
    match s.binding t q.val with
    | none => s'
    | some gq => match s'.queue gq.1 gq.2 with
      | none => s'
      | some qu => (s'.advance t.id).wrSpan t (isLead ts t) d qu.query) s1)

end Sys2Proof.Machine
end

