-- ==== Sys2Proof/Machine/Launch.lean ====
section
/-!
DEFINITION. Launch blocks and the tables of gangs: their checks (R305, R306, R326 to R331, R459), and their entry into a
launch channel (R308 to R312, R373).
-/
namespace Sys2Proof.Machine

/-! ## Fields of a launch block -/

def Block.gridX (b : Block) : Nat := b.f 79 64
def Block.gridY (b : Block) : Nat := b.f 95 80
def Block.gridZ (b : Block) : Nat := b.f 111 96
def Block.nx (b : Block) : Nat := b.f 121 112 + 1
def Block.ny (b : Block) : Nat := b.f 131 122 + 1
def Block.nz (b : Block) : Nat := b.f 141 132 + 1
def Block.cw (b : Block) : Nat := b.f 149 146 + 1
def Block.ch (b : Block) : Nat := b.f 153 150 + 1
def Block.vault (b : Block) : Nat := 4096 * b.f 186 176
def Block.drain (b : Block) : Nat := b.f 167 158
def Block.interactive (b : Block) : Bool := b.f 154 154 == 1
/-- Rank (R312): every interactive launch above every throughput launch, then PRIO. -/
def Block.rank (b : Block) : Nat := b.f 154 154 * 8 + b.f 157 155
def Block.threads (b : Block) : Nat := b.nx * b.ny * b.nz
def Block.arg (b : Block) (n : Nat) : Word := BitVec.ofNat 32 (b.f (512 + 32 * n + 31) (512 + 32 * n))
def Block.doneval (b : Block) : Nat := b.f 383 320
/-- A die that DIEMASK allows; 0 allows every die. -/
def Block.allows (b : Block) (d : Nat) : Bool := b.f 199 196 == 0 || b.f (196 + d) (196 + d) == 1
/-- Clusters of a grid (R313). -/
def Block.clusters (b : Block) : Nat := (b.gridX / b.cw) * (b.gridY / b.ch) * b.gridZ
/-- Fixed width; none where history chooses (R305). -/
def fixedWidth (w : Nat) : Option Nat := if w = 0 then none else some (8 * 2 ^ (w - 1))
def Block.nCore (b : Block) : Nat := b.f 153 147
def Block.nq (b : Block) : Nat := b.f 146 143
def Block.nst (b : Block) : Nat := b.f 142 140 + 1
def Block.stab (b : Block) : Nat := extend48 (b.f 511 464)
def Block.qtab (b : Block) : Nat := extend48 (b.f 463 416)
/-- Cycles of a cadence (R326). -/
def Block.cadence (b : Block) : Nat := if b.f 175 169 = 0 then 8192 else b.f 175 169 * 1024
def Block.thr (b : Block) : Nat := if b.f 183 180 = 0 then 4 else b.f 183 180

/-- Some bit of the listed ranges of a record is set. -/
def anySet (x : Nat) (l : List (Nat × Nat)) : Bool := l.any fun r => bitsOf x r.1 r.2 != 0

/-! ## Checks (R306, R331) -/

/-- Dies on which a launch may place work: allowed, booted, working, with rows of the partition. -/
def State.launchDies (s : State) (p : Nat) (b : Block) : List Nat :=
  s.dies.filter fun d => b.allows d && !s.md.failed.getLsbD d && (List.range 8).any fun y => (s.part p).hasRow d y

/-- Code 2 on DRAIN: 1 to 1000 for a throughput launch, 0 for an interactive one. -/
def Block.drainBad (b : Block) : Bool :=
  if b.interactive then b.drain != 0 else b.drain == 0 || decide (1000 < b.drain)

/-- Codes 1 to 7 of a kernel's block (R306), 0 for none. -/
def State.checkKernel (s : State) (p : Nat) (b : Block) : Nat :=
  if anySet b.bits [(511, 384), (319, 304), (207, 200), (195, 195), (191, 187), (175, 171), (63, 48)] || (b.hmp && b.f 255 208 == 0) then 1
  else if decide (2 ≤ b.f 193 192) || decide (5 ≤ b.f 170 168) || b.drainBad then 2
  else if b.f 47 0 % 8 != 0 || b.f 255 208 % 8 != 0 || b.f 303 256 % 8 != 0 then 3
  else if b.gridX == 0 || b.gridY == 0 || b.gridZ == 0 then 4
  else if decide (1024 < b.threads) then 5
  else if decide (8 < b.cw) || decide (8 < b.ch) || decide (12 < b.cw * b.ch) || decide (8192 < b.cw * b.ch * b.threads) ||
      b.gridX % b.cw != 0 || b.gridY % b.ch != 0 then 6
  else if decide (1024 < b.f 186 176) || (s.launchDies p b).isEmpty then 7
  else 0

/-- Codes 1 to 3 of a gang's block itself (R331). -/
def checkGangBlock (b : Block) : Nat :=
  if anySet b.bits [(415, 384), (319, 304), (207, 200), (195, 195), (191, 184), (179, 176), (168, 168), (139, 0)] ||
      (b.hmp && b.f 255 208 == 0) then 1
  else if b.drainBad then 2
  else if b.f 511 464 % 64 != 0 || (b.nq != 0 && b.f 463 416 % 32 != 0) || b.f 255 208 % 8 != 0 || b.f 303 256 % 8 != 0 then 3
  else 0

/-- Berths of the input queue of a stage. -/
def inBerths (qs : List Nat) (e : Nat) : Nat := ((qs[stQueue e 0]?).map quBerths).getD 4096

/-- Code 9: roles, source stages and counts (R328). -/
def stageBad (qs : List Nat) (e : Nat) : Bool :=
  let src := stSource e
  let outs := !(stOutputs e).isEmpty
  (stRole e == 1 && !src) || (stRole e == 2 && (src || !outs)) || (stRole e == 3 && (src || outs)) ||
    (src && stSrcn e == 0) || (!src && stSrcn e != 0) || (src && stCoal e != 1) ||
    (!src && (stCoal e == 0 || decide (inBerths qs e < stCoal e))) || stGpc e == 0

/-- Queues that a stage names. -/
def stNames (e : Nat) : List Nat := (if stSource e then [] else [stQueue e 0]) ++ stOutputs e

/-- Code 10: queue fields. -/
def queuesBad (nq : Nat) (st : List Nat) : Bool :=
  st.any (fun e => (stNames e).any (fun q => decide (nq ≤ q)) || (stNames e).eraseDups.length != (stNames e).length) ||
    (List.range nq).any fun q => (st.filter fun e => stQueue e 0 == q).length != 1 || !st.any fun e => (stOutputs e).contains q

/-- Code 11: numbers of cores. -/
def State.coresBad (s : State) (p : Nat) (b : Block) (st : List Nat) : Bool :=
  b.nCore == 0 || st.any (fun e => decide (stMaxc e < stMinc e) || decide (b.nCore < stMaxc e)) ||
    decide (b.nCore < (st.map stMinc).foldl (· + ·) 0) || decide ((st.map stMaxc).foldl (· + ·) 0 < b.nCore) ||
    !(s.launchDies p b).any fun d => decide (b.nCore ≤ ((s.part p).coresOn d).length)

/-- The vault range of a queue's berths: core index, first offset, end. -/
def berthRange (e : Nat) : Nat × Nat × Nat := (quBcore e, quBofs e, quBofs e + quBerths e * quSize e)

/-- Two ranges of berths overlap. -/
def berthsMeet (a b : Nat × Nat × Nat) : Bool := a.1 == b.1 && decide (a.2.1 < b.2.2) && decide (b.2.1 < a.2.2)

/-- Code 12: berths and spill areas. -/
def berthsBad (nCore : Nat) (qs : List Nat) : Bool :=
  qs.any (fun e => decide (nCore ≤ quBcore e) || quBofs e % 16 != 0 || decide (2 ^ 22 < (berthRange e).2.2) ||
      (if quSpill e then quScap e == 0 || bitsOf e 111 64 % 64 != 0 else quScap e != 0 || bitsOf e 111 64 != 0)) ||
    (indexed qs).any fun a => (indexed qs).any fun b => decide (a.1 < b.1) && berthsMeet (berthRange a.2) (berthRange b.2)

/-- Codes 3 and 8 to 12 on the tables of a gang (R331). -/
def State.checkTables (s : State) (p : Nat) (b : Block) (st qs : List Nat) : Nat :=
  if st.any fun e => bitsOf e 47 0 % 8 != 0 then 3
  else if decide (64 < b.f 175 169) || st.any (fun e =>
      anySet e [(223, 151), (111, 109), (79, 79), (71, 71), (63, 60), (55, 53)] || decide (5 ≤ stWidth e)) ||
      qs.any fun e => anySet e [(255, 160), (127, 112), (63, 49), (31, 28)] then 8
  else if st.any (stageBad qs) then 9
  else if queuesBad b.nq st then 10
  else if s.coresBad p b st then 11
  else if berthsBad b.nCore qs then 12
  else 0

/-! ## Reading the tables of a gang -/

/-- The launcher's address space for a channel: no core of the mesh translates for it (log 17). -/
def State.launcherXl (s : State) (p ch : Nat) : Xl :=
  let x := s.part p
  ⟨p, (x.asroot.toList.getD ch 0).toNat, (x.asasid.toList.getD ch 0).toNat, true, ⟨(s.dies.head?).getD 0, 128⟩⟩

/-- A word of a table as the launcher reads it: what had performed at system scope when it reads, or one of the writes that
race with the release, whole for each 32-bit word (R331). -/
def State.tableWord (s : State) (pick pa : Nat) : ReadRes :=
  let xs := (List.range 4).map (pa + ·)
  let sure := s.ms.writes.filter fun w => xs.any w.covers && s.systemPoints.all fun pt => s.visibleAt w pt
  let base := listMax (sure.map WriteRec.id)
  let race := (s.ms.writes.filter fun w => xs.any w.covers && decide (base < w.id)).map WriteRec.id
  let top := (base :: race).getD (pick % (race.length + 1)) base
  s.readBy (fun x => listMax ((s.ms.writes.filter fun w => w.covers x && decide (w.id ≤ top)).map WriteRec.id)) pa 4

/-- What the launcher finds at a table. -/
inductive TableRead where
  | bad
  | poison (pa : Nat)
  | words (l : List Nat)
  deriving DecidableEq, Repr

/-- Reads n words of 32 bits from an effective address. -/
def State.readTable (s : State) (x : Xl) (ea : Nat) : Nat → Nat → TableRead
  | 0, _ => .words []
  | n + 1, k =>
    match s.translate x .read (ea + 4 * k) with
    | .error _ => .bad
    | .ok pa =>
      if s.lost pa != 0 || s.linkCut pa then .bad
      else
        let r := s.tableWord (Config.racingWrite s.tick (ea + 4 * k)) pa
        match s.readTable x ea n (k + 1) with
        | .bad => .bad
        | .poison q => .poison (if r.poison then pa else q)
        | .words l => if r.poison then .poison pa else .words (r.val :: l)

/-- Where the tables of a gang stand: address and bytes. -/
def Block.tables (b : Block) : List (Nat × Nat) := if b.isGang then [(b.stab, 32 * b.nst), (b.qtab, 32 * b.nq)] else []

/-- The translations that reading the tables leaves (R379, R382). -/
def State.tablesRead (s : State) (p ch : Nat) (b : Block) : State :=
  b.tables.foldl (fun s' x => s'.agentFill (s.launcherXl p ch) x.1 x.2) s

/-- Some part of the tables lies beyond a link that retrains: the launcher waits (R429). -/
def State.tablesHeld (s : State) (p ch : Nat) (b : Block) : Bool :=
  b.tables.any fun x => (pieces x.1 x.2).any fun y => match s.translate (s.launcherXl p ch) .read (y.1 % 2 ^ 64) with
    | .ok pa => s.linkHeld pa && !s.linkCut pa
    | .error _ => false

/-- Words as entries of eight words each. -/
def entriesOf (n : Nat) (ws : List Nat) : List Nat :=
  (List.range n).map fun i => ((List.range 8).map fun j => ws.getD (8 * i + j) 0 * 2 ^ (32 * j)).foldl (· + ·) 0

/-- The outcome of the check of a block: a code, with the address of poison under code 14, or the tables of a gang. -/
inductive Verdict where
  | reject (code : Nat) (pa : Option Nat)
  | accept (stages queues : List Nat)
  deriving DecidableEq, Repr

/-- Checks a block as it enters a channel (R306, R331); tables that cannot be read are rejected with code 3. -/
def State.verdict (s : State) (p ch : Nat) (b : Block) : Verdict :=
  if !b.isGang then
    match s.checkKernel p b with
    | 0 => .accept [] []
    | c => .reject c none
  else
    let x := s.launcherXl p ch
    match s.readTable x b.stab (8 * b.nst) 0, s.readTable x b.qtab (8 * b.nq) 0 with
    | .poison pa, _ => .reject 14 (some pa)
    | _, .poison pa => .reject 14 (some pa)
    | .words st, .words qs =>
      match checkGangBlock b with
      | 0 => match s.checkTables p b (entriesOf b.nst st) (entriesOf b.nq qs) with
        | 0 => .accept (entriesOf b.nst st) (entriesOf b.nq qs)
        | c => .reject c none
      | c => .reject c none
    | _, _ => .reject (if checkGangBlock b = 0 then 3 else checkGangBlock b) none

/-! ## Entering a channel (R308 to R310) -/

/-- A channel of a partition. -/
def State.chan (s : State) (p ch : Nat) : Chan := (s.part p).chans.getD ch Chan.reset

def State.onChan (s : State) (p ch : Nat) (f : Chan → Chan) : State := s.onPart p fun x => { x with chans := x.chans.modify ch f }

/-- A gang that waits to be placed. -/
def Gang.waiting (l : Nat) (st qs : List Nat) : Gang where
  launch := l
  die := 0
  ctxs := []
  stages := st.map fun e => ⟨e, 0, none, none⟩
  queues := qs.map fun e => ⟨e, [], false⟩
  cores := []
  cad0 := 0
  placed := false
  running := false
  stopping := false

/-- A launch enters its channel's queue. -/
def State.putLaunch (s : State) (p ch : Nat) (b : Block) (st qs : List Nat) : State :=
  let x := s.launcherXl p ch
  let l : Launch := ⟨s.nextId, p, ch, b, b.rank, x.root, x.asid, 0, none, .queued, none, none⟩
  (({ s with nextId := s.nextId + 1 } : State).onWk fun w => { w with
    launches := w.launches ++ [l], gangs := if b.isGang then w.gangs ++ [Gang.waiting l.id st qs] else w.gangs }).onChan p ch
    fun c => { c with code := 0, queue := c.queue ++ [l.id] }

/-- A block reaches a channel (R309, R310): the queue is tested first, then the partition's STATE, then the block. The code,
whether the queue was full, the address of poison, the state. -/
def State.enqueue (s : State) (p ch : Nat) (b : Block) : Nat × Bool × Option Nat × State :=
  if decide (64 ≤ (s.chan p ch).queue.length) then (0, true, none, s.onChan p ch fun c => { c with ovf := true })
  else if (s.part p).state != .running then (13, false, none, s.onChan p ch fun c => { c with code := 13 })
  else match s.verdict p ch b with
    | .reject c pa => (c, false, pa, (s.tablesRead p ch b).onChan p ch fun x => { x with code := c })
    | .accept st qs => (0, false, none, (s.tablesRead p ch b).putLaunch p ch b st qs)

/-- The firmware does not run, before the boot ROM has started it or because a step of the boot failed: the module answers nothing
but its identity word and BOOTST (R393). -/
def State.unbooted (s : State) : Bool := bitsOf s.md.bootst.toNat 3 0 != 2

/-- The host link is down: nothing that the host writes arrives, and every launch channel stops until reset (R430). -/
def State.hostCut (s : State) : Bool := s.md.links.any fun l => l.id == 0 && l.down

/-- What the host has observed is visible to the whole system: a release of the host may perform (R217, R227, R311). -/
def State.hostReleased (s : State) : Bool :=
  s.visible s.md.hostObs s.systemPoints

/-- A record of poison that rejects a host's doorbell: an entry of severity 2 (R459); its place is not stated. -/
def State.logPoison (s : State) (pa : Nat) : State :=
  s.logFree pa none (s.homeDie pa) 2

/-- DOORBELL (R309 to R311): the host's write, a release at system scope, enqueues the block as it then stands, unless its link is
down or retrains (R429, R430). -/
def State.ring (s : State) (p ch : Nat) : State :=
  if s.unbooted || s.linkBusy 0 || decide (16 ≤ p) || decide (8 ≤ ch) || !s.hostReleased || s.tablesHeld p ch ⟨(s.chan p ch).blk⟩ then s
  else
    let r := s.enqueue p ch ⟨(s.chan p ch).blk⟩
    match r.2.2.1 with
    | some pa => r.2.2.2.logPoison pa
    | none => r.2.2.2

def execDoorbell (p ch : Nat) (s : State) : Out := .next (s.ring p ch)

end Sys2Proof.Machine
end

