-- ==== Sys2Proof/Machine/Place.lean ====
section
/-!
DEFINITION. Contexts of a core and their switches (R316, R413 to R415), room on a core (R304, R314, R458), the placing of
clusters with pre-emption (R312 to R317), the ends of teams and of grids (R311, R314, R318, R342, R345, R347, R357).
-/
namespace Sys2Proof.Machine

/-! ## What a core holds -/

/-- The running context of a partition on a core. -/
def State.runCtx (s : State) (p : Nat) (c : CoreId) : Option Ctx :=
  s.en.ctxs.find? fun x => x.core == c && x.part == p && x.place == .running

/-- Teams of a context that have not ended and are not saved away. -/
def State.teamsIn (s : State) (cx : Nat) : List Team := s.wk.teams.filter fun t => t.ctx == cx && !t.ended && !t.saved && decide (t.core.core < 64)

/-- Teams that a core holds in the running context of a partition. -/
def State.teamsOn (s : State) (p : Nat) (c : CoreId) : List Team :=
  match s.runCtx p c with
  | some x => s.teamsIn x.id
  | none => []

/-- Rank of a launch by its number. -/
def State.rankOfLaunch (s : State) (l : Nat) : Nat := ((s.launch l).map Launch.rank).getD 0

/-- The gang that a core of a partition runs. -/
def State.gangOn (s : State) (p : Nat) (c : CoreId) : Option Gang :=
  s.wk.gangs.find? fun g => g.placed && g.running && g.die == c.die && (s.launch g.launch).any (fun l => l.part == p) && g.cores.any fun x => x.core == c.core

/-- Live threads of a core in the running context: the load that placement weighs. -/
def State.residents (s : State) (p : Nat) (c : CoreId) : Nat :=
  ((s.teamsOn p c).map fun t => (s.wk.threads.filter fun x => x.place.team == t.id && !x.exited).length).foldl (· + ·) 0

/-! ## Room (R304, R314, R458) -/

/-- What is taken of a quadrant: registers of each lane, member sets, group slots. -/
structure Load where
  regs : Nat
  sets : Nat
  slots : Nat
  deriving DecidableEq, Repr

/-- Adds a member set to the load of a quadrant. -/
def addSet (l : List Load) (q budget width : Nat) : List Load := l.modify q fun x => ⟨x.regs + budget, x.sets + 1, x.slots + 64 / width⟩

/-- The load of the quadrants of a core under listed teams. -/
def loadOf (ts : List Team) : List Load :=
  ts.foldl (fun l t => t.quads.foldl (fun l' q => addSet l' q t.budget t.width) l) (List.replicate 4 ⟨0, 0, 0⟩)

/-- A quadrant has room for a member set. -/
def Load.fits (x : Load) (budget width : Nat) : Bool :=
  decide (x.regs + budget ≤ 1024) && decide (x.sets < 8) && decide (x.slots + 64 / width ≤ 64)

/-- The quadrants of n member sets, in order: each goes to the one with most free registers, the lower on a tie. -/
def pickQuads (budget width : Nat) : Nat → List Load → Option (List Nat)
  | 0, _ => some []
  | n + 1, l =>
    match argMin (fun p => (p.2 : Load).regs) ((indexed l).filter fun p => p.2.fits budget width) with
    | none => none
    | some p => (pickQuads budget width n (addSet l p.1 budget width)).map fun qs => p.1 :: qs

/-- Vault ranges that a core holds for a partition: allocations of its teams, switched out and saved ones too, and the
berths of its gangs' queues. -/
def State.vaultHeld (s : State) (p : Nat) (c : CoreId) (drop : Team → Bool) : List (Nat × Nat) :=
  ((s.wk.teams.filter fun t => t.part == p && t.core == c && !t.ended && t.vlen != 0 && !drop t).map fun t => (t.vbase % 2 ^ 22, t.vlen)) ++
    (s.wk.gangs.filter fun g => g.placed && g.die == c.die && (s.launch g.launch).any fun l => l.part == p).flatMap fun g =>
      (g.queues.filter fun q => (g.cores[quBcore q.entry]?).any fun x => x.core == c.core).map fun q => (quBofs q.entry, quBerths q.entry * quSize q.entry)

/-- The lowest offset, a multiple of 4 KiB, at which n bytes are free (R458). -/
def freeOffset (held : List (Nat × Nat)) (n : Nat) : Option Nat :=
  if n = 0 then some 0
  else ((List.range 1024).map (4096 * ·)).find? fun o => decide (o + n ≤ 2 ^ 22) && !held.any fun h => rangesMeet o n h.1 h.2

/-- What a core offers to a cluster: places for the member sets and an offset; or places after a switch or a drain. -/
inductive Offer where
  | now (quads : List Nat) (ofs : Nat)
  | later (drains : List Nat)
  | no
  deriving DecidableEq, Repr

/-- A drain keeps a launch's work off a core, while work of higher rank waits. -/
def State.drainedOff (s : State) (l : Launch) (c : CoreId) : Bool :=
  (match l.drain with
    | some d => d.clears c
    | none => false) && s.wk.launches.any fun x => x.part == l.part && x.phase == .queued && decide (l.rank < x.rank)

/-- The launches that hold a core: those of its teams, and of a gang. -/
def State.holders (s : State) (p : Nat) (c : CoreId) : List Nat :=
  (((s.teamsOn p c).map Team.launch) ++ (match s.gangOn p c with
    | some g => [g.launch]
    | none => [])).eraseDups

/-- A launch is of the throughput class. -/
def State.throughput (s : State) (l : Nat) : Bool := (s.launch l).any fun x => !x.blk.interactive

/-- What a core offers to a team of a launch (R314 to R316). -/
def State.offer (s : State) (l : Launch) (width : Nat) (c : CoreId) : Offer :=
  let b := l.blk
  let sets := ceilDiv b.threads 64
  if !(s.part l.part).hasCore c || s.drainedOff l c then .no
  else
    let hs := s.holders l.part c
    if (s.gangOn l.part c).isNone && hs.all fun h => s.rankOfLaunch h == l.rank then
      match pickQuads b.budget width sets (loadOf (s.teamsOn l.part c)), freeOffset (s.vaultHeld l.part c fun _ => false) b.vault with
      | some qs, some o => .now qs o
      | _, _ => .no
    else if hs.all fun h => decide (s.rankOfLaunch h < l.rank) then
      let ds := hs.filter s.throughput
      match pickQuads b.budget width sets (loadOf []), freeOffset (s.vaultHeld l.part c fun t => ds.contains t.launch) b.vault with
      | some _, some _ => .later ds
      | _, _ => .no
    else .no

/-- The cores of a rectangle, row by row. -/
def rectCores (die corner w h : Nat) : List CoreId :=
  (List.range h).flatMap fun y => (List.range w).map fun x => ⟨die, corner + x + 8 * y⟩

/-- The rectangles of a shape on listed dies, by die and corner. -/
def rectangles (dies : List Nat) (w h : Nat) : List (Nat × Nat) :=
  dies.flatMap fun d => (List.range (9 - h)).flatMap fun y => (List.range (9 - w)).map fun x => (d, x + 8 * y)

/-- The width that history gives to a fraction (R317). -/
def widthOfF (f : Nat) : Nat := if 231 ≤ f then 64 else if 180 ≤ f then 32 else if 103 ≤ f then 16 else 8

/-- The fraction that a partition's history holds for an entry PC; 256 where there is none. -/
def State.histF (s : State) (p pc : Nat) : Nat := (((s.part p).hist.find? fun e => e.pc == pc).map HistEntry.f).getD 256

/-- Looks up an entry PC: the entry is made where it is missing, and becomes the one used last. -/
def State.touchHist (s : State) (p pc : Nat) : State :=
  s.onPart p fun x => { x with hist := (⟨pc, s.histF p pc⟩ :: x.hist.filter fun e => e.pc != pc).take 16 }

/-- The width of a launch, before and after it is fixed. -/
def State.widthOf (s : State) (l : Launch) : Nat :=
  match l.width, fixedWidth (l.blk.f 170 168) with
  | some w, _ => w
  | none, some w => w
  | none, none => widthOfF (s.histF l.part l.blk.pc)

/-! ## Waiting launches (R309, R312) -/

/-- The launches of a partition that wait to place work: the heads of its channels, highest rank first, then earliest. -/
def State.waiting (s : State) (p : Nat) : List Launch :=
  if s.hostCut || (s.part p).state != .running then []
  else
    let hs := (s.part p).chans.filterMap fun c => c.queue.head?.bind s.launch
    sortBy (fun (a b : Launch) => decide (b.rank < a.rank) || (a.rank == b.rank && decide (a.id ≤ b.id))) hs

/-! ## Switching contexts (R316, R413, R414) -/

/-- Work of a context's engines that is not complete. -/
def State.ctxBusy (s : State) (c : Ctx) : Bool :=
  !c.mxq.isEmpty || !c.splq.isEmpty || s.en.copies.any (fun x => x.ctx == c.id && !x.finished) ||
    s.en.walks.any (fun w => s.tidIn w.tid c.id) || s.en.fops.any fun f => s.tidIn f.tid c.id

/-- Shadow contexts that hold no team, and whose work has completed, are freed (R316). -/
def State.freeCtxs (s : State) : State :=
  s.onEn fun e => { e with
    ctxs := e.ctxs.filter fun c => c.place == .running || s.ctxBusy c || s.wk.teams.any fun t => t.ctx == c.id && !t.ended }

/-- Streams a context of a core out to its save area. -/
def State.streamOut (s : State) (cx : Nat) : State := s.onCtx cx fun x => { x with place := .save }

/-- A free bank of a core for a partition: a bank that no context holds, or that of the older shadow context, which is
streamed out; `keep` is not streamed out. -/
def State.freeBank (s : State) (p : Nat) (c : CoreId) (keep : Option Nat) : Nat × State :=
  let held := s.en.ctxs.filter fun x => x.core == c && x.part == p && (x.place == .bank 0 || x.place == .bank 1)
  match [0, 1].find? fun n => !held.any fun x => x.place == .bank n with
  | some n => (n, s)
  | none =>
    match argMin Ctx.since (held.filter fun x => some x.id != keep) with
    | some x => (if x.place == .bank 0 then 0 else 1, s.streamOut x.id)
    | none => (0, s)

/-- Threads of a context's teams. -/
def State.inCtx (s : State) (cx : Nat) (t : Thread) : Bool := (s.team t.place.team).any fun x => x.ctx == cx && !x.saved

/-- Operations that were withdrawn are issued again (R194, R243, R351, R415). -/
def State.reissue (s : State) (sel : Thread → Bool) : State :=
  let mine := fun (t : Nat) => s.wk.threads.any fun x => x.id == t && sel x && !x.exited
  let as_ := s.ms.accs.filter fun a => a.withdrawn && mine a.tid
  let ws := s.en.walks.filter fun w => w.st == .discarded && mine w.tid
  let s1 := as_.foldl (fun s a => s.up a.tid a.ctr) s
  let s2 := ws.foldl (fun s w => s.up w.tid .load) s1
  (s2.onMs fun m => { m with accs := m.accs.map fun a => if as_.any fun b => b.id == a.id then { a with withdrawn := false } else a }).onEn
    fun e => { e with walks := e.walks.map fun w => if ws.any fun x => x.id == w.id then { w with st := .again, stalled := false } else w }

/-- R414: the running context of a core goes to a bank, and another, or a new one, becomes the running context. -/
def State.switchTo (s : State) (p : Nat) (c : CoreId) (y : Option Nat) : State :=
  let s0 := s.freeCtxs
  let new : Ctx := Ctx.fresh s0.nextId c p
  match s0.runCtx p c with
  | none =>
    match y with
    | some n => (s0.onCtx n fun x => { x with place := .running }).reissue (s0.inCtx n)
    | none => ({ s0 with nextId := s0.nextId + 1 } : State).onEn fun e => { e with ctxs := e.ctxs ++ [new] }
  | some x =>
    let s1 := (s0.withdraw (s0.inCtx x.id)).stopIssue (s0.inCtx x.id)
    match y.bind s1.ctx with
    | some yc =>
      let b := match yc.place with
        | .bank n => (n, s1)
        | _ => s1.freeBank p c (some yc.id)
      (((b.2.onCtx x.id fun z => { z with place := .bank b.1, since := s.clock.toNat }).onCtx yc.id fun z => { z with place := .running }).reissue
        (s1.inCtx yc.id)).freeCtxs
    | none =>
      let b := s1.freeBank p c none
      let s2 := b.2.onCtx x.id fun z => { z with place := .bank b.1, since := s.clock.toNat }
      (({ s2 with nextId := s2.nextId + 1 } : State).onEn fun e => { e with ctxs := e.ctxs ++ [{ new with id := s2.nextId }] }).freeCtxs

/-! ## Pre-emption (R315, R349) -/

/-- The drain of a launch on cores begins, or takes in further cores, whose own drain begins now. -/
def State.drain (s : State) (l : Nat) (cs : List CoreId) : State :=
  (s.onLaunch l fun x =>
    let old := (x.drain.map Drain.cores).getD []
    { x with drain := some ⟨old ++ (cs.filter fun c => !old.any fun y => y.1 == c).map fun c => (c, s.clock.toNat + 13000 * x.blk.drain)⟩ }).onGang
      l fun g => { g with stopping := true }

/-- Drains of kernels for which no launch of higher rank waits any more are over (log 67). -/
def State.endDrains (s : State) : State :=
  if s.wk.launches.all fun l => l.drain.isNone then s
  else s.onWk fun w => { w with
    launches := w.launches.map fun l =>
      if l.blk.isGang || w.launches.any (fun x => x.part == l.part && x.phase == .queued && decide (l.rank < x.rank)) then l else { l with drain := none } }

/-- All cores of a gang. -/
def Gang.coreIds (g : Gang) : List CoreId := g.cores.map fun x => ⟨g.die, x.core⟩

/-- An interactive gang is switched out as a whole, in one pre-emption. -/
def State.switchGang (s : State) (p : Nat) (g : Gang) : State :=
  (g.coreIds.foldl (fun s' c => s'.switchTo p c none) s).onGang g.launch fun x => { x with running := false }

/-- A core is taken from interactive work: its context is switched out, with the other cores of a gang. -/
def State.takeCore (s : State) (p : Nat) (c : CoreId) : State :=
  if (s.holders p c).isEmpty then s
  else match s.gangOn p c with
    | some g => s.switchGang p g
    | none => s.switchTo p c none

/-- A throughput gang whose groups have ended or are saved is switched out (R349). -/
def State.retireGangs (s : State) : State :=
  s.onWk fun w => { w with
    gangs := w.gangs.map fun g =>
      if g.stopping && g.running && !w.teams.any fun t => t.launch == g.launch && !t.ended && !t.saved then { g with running := false } else g }

/-! ## Placing a cluster (R307, R313, R314) -/

/-- The threads of a team that stand in its member set s, on quadrant q. -/
def setThreads (tm : Team) (pl : Place) (pc : Dword) (base groups now : Nat) (st q : Nat) : List Thread :=
  let n := tm.nx * tm.ny * tm.nz
  (List.range (Nat.min 64 (n - 64 * st))).map fun m =>
    let t := 64 * st + m
    { Thread.fresh (base + groups + t) { pl with
        quad := q, lane := 64 * q + m, grp := base + st * (64 / tm.width) + m / tm.width, grpid := st * (64 / tm.width) + m / tm.width,
        set := st, member := m, tx := t % tm.nx, ty := t / tm.nx % tm.ny, tz := t / (tm.nx * tm.ny) } pc with since := now }

/-- The registers of a group at its start (R307, R334). -/
def groupRegs (b : Block) (extra : List (Nat × Nat)) : Vector Word 64 :=
  let ws := (List.range 16).map fun n => (n, (b.arg n).toNat)
  (ws ++ extra).foldl (fun v x => v.setIfInBounds x.1 (BitVec.ofNat 32 x.2)) (Vector.replicate 64 0)

/-- The groups of a team's member set: those with a member. -/
def setGroups (tm : Team) (g : Vector Word 64) (base now : Nat) (st q : Nat) : List Group :=
  let n := Nat.min 64 (tm.nx * tm.ny * tm.nz - 64 * st)
  (List.range (ceilDiv n tm.width)).map fun k =>
    { Group.fresh (base + st * (64 / tm.width) + k) tm.id tm.core q tm.width with g := g, active := false, entered := now }

/-- A team with its groups and threads starts on its core (R303, R307); its instruction cache is empty (R30), and each thread
starts after an acquire that returns the doorbell (R311). The numbers that it takes begin at nextId. -/
def State.startTeam (s : State) (l : Launch) (tm : Team) (pc : Nat) (clp : Point) (extra : List (Nat × Nat)) : State :=
  let base := s.nextId
  let groups := tm.quads.length * (64 / tm.width)
  let pl : Place := {
    core := tm.core, quad := 0, lane := 0, team := tm.id, grp := 0, grpid := 0, set := 0, member := 0, tx := 0, ty := 0, tz := 0,
    part := l.part, root := l.root, asid := l.asid, priv := false, budget := tm.budget, clp := clp }
  let now := s.clock.toNat
  let g := groupRegs l.blk extra
  let s1 := ({ s with nextId := base + groups + tm.nx * tm.ny * tm.nz } : State).onWk fun w => { w with
    teams := w.teams ++ [tm],
    groups := w.groups ++ (indexed tm.quads).flatMap fun p => setGroups tm g base now p.1 p.2,
    threads := w.threads ++ (indexed tm.quads).flatMap fun p => setThreads tm pl (BitVec.ofNat 64 pc) base groups now p.1 p.2 }
  s1.refresh ⟨0, tm.core, clp⟩ .system

/-- The instruction cache of a core is invalidated (R30). -/
def State.dropCache (s : State) (c : CoreId) : State := s.onMs fun m => { m with icache := m.icache.filter fun e => e.1 != c }

/-- The running context of a core, made where there is none. -/
def State.needCtx (s : State) (p : Nat) (c : CoreId) : Nat × State :=
  match s.runCtx p c with
  | some x => (x.id, s)
  | none => (s.nextId, s.switchTo p c none)

/-- The team of a cluster at a core of its rectangle. -/
def State.placeTeam (s : State) (l : Launch) (width cl i corner die k : Nat) (quads : List Nat) (ofs : Nat) : State :=
  let b := l.blk
  let core : CoreId := ⟨die, corner + k % b.cw + 8 * (k / b.cw)⟩
  let r := s.needCtx l.part core
  let x := i % (b.gridX / b.cw)
  let y := i / (b.gridX / b.cw) % (b.gridY / b.ch)
  let id := r.2.nextId
  let tm : Team := {
    id := id, launch := l.id, cluster := cl, part := l.part, core := core, ctx := r.1, quads := quads, nx := b.nx, ny := b.ny, nz := b.nz,
    tmx := b.cw * x + k % b.cw, tmy := b.ch * y + k / b.cw, tmz := i / ((b.gridX / b.cw) * (b.gridY / b.ch)), clx := k % b.cw, cly := k / b.cw,
    gx := b.gridX, gy := b.gridY, gz := b.gridZ, stage := none, budget := b.budget, width := width,
    vbase := if b.vault = 0 then 0 else die * 2 ^ 30 + core.core * 2 ^ 24 + ofs, vlen := b.vault, a := 0, l := 0, tph := [], saved := false, ended := false }
  let s1 := ({ r.2 with nextId := id + 1 } : State).dropCache core
  (s1.onCluster cl fun z => { z with teams := z.teams ++ [id] }).startTeam l tm b.pc (.cluster die corner b.cw b.ch) [(63, tm.vbase)]

/-- A launch takes its address space and its width when its dispatch begins (R317, R389). -/
def State.beginDispatch (s : State) (l : Launch) (width : Nat) : State :=
  if l.phase != .queued || l.next != 0 then s
  else
    let x := s.launcherXl l.part l.ch
    let s1 := if !l.blk.isGang && l.width.isNone && (fixedWidth (l.blk.f 170 168)).isNone then s.touchHist l.part l.blk.pc else s
    s1.onLaunch l.id fun y => { y with root := x.root, asid := x.asid, width := some width }

/-- A launch that is fully dispatched leaves its channel. -/
def State.dispatched (s : State) (l : Launch) : State :=
  (s.onLaunch l.id fun x => { x with phase := .placed }).onChan l.part l.ch fun c => { c with queue := c.queue.filter fun x => x != l.id }

/-- Cores given to a launch are no longer being drained for it. -/
def State.drainsDone (s : State) (cs : List CoreId) : State :=
  s.onWk fun w => { w with
    launches := w.launches.map fun l => { l with drain := match l.drain with
      | some d => d.without cs.contains
      | none => none } }

/-- The next cluster of a launch goes to a rectangle, with the places that its cores offer. -/
def State.putCluster (s : State) (l : Launch) (width die corner : Nat) (offers : List (List Nat × Nat)) : State :=
  let b := l.blk
  let cl := s.nextId
  let s1 := ({ s.beginDispatch l width with nextId := cl + 1 } : State).onWk fun w => { w with clusters := w.clusters ++ [⟨cl, die, corner, b.cw, b.ch, [], []⟩] }
  match s1.launch l.id with
  | none => s
  | some l1 =>
    let s2 := (indexed offers).foldl (fun s' p => s'.placeTeam l1 width cl l.next corner die p.1 p.2.1 p.2.2) s1
    let s3 := (s2.onLaunch l.id fun x => { x with next := x.next + 1 }).drainsDone (rectCores die corner b.cw b.ch)
    if l.next + 1 = b.clusters then s3.dispatched l1 else s3

/-- What can be done for the next cluster of a launch: place it, or pre-empt on a rectangle. -/
inductive Plan where
  | place (die corner : Nat) (offers : List (List Nat × Nat))
  | preempt (die corner : Nat) (drains : List (CoreId × List Nat))
  | nothing
  deriving DecidableEq, Repr

/-- Offers that are all at hand. -/
def allNow : List Offer → Option (List (List Nat × Nat))
  | [] => some []
  | .now q o :: l => (allNow l).map fun r => (q, o) :: r
  | _ :: _ => none

/-- Launches to drain behind an offer. -/
def Offer.drains : Offer → List Nat
  | .later d => d
  | _ => []

/-- A drain of a launch on a core has begun. -/
def State.draining (s : State) (l : Nat) (c : CoreId) : Bool :=
  (s.launch l).any fun x => match x.drain with
    | some d => d.clears c
    | none => false

/-- The rectangle for the next cluster of a launch (R314): of those that fit, the one with fewest resident threads, then the
lowest die and corner; where none fits, of those that pre-emption can clear (R315), chosen likewise. -/
def State.plan (s : State) (l : Launch) : Plan :=
  let b := l.blk
  let width := s.widthOf l
  let rs := (rectangles (s.launchDies l.part b) b.cw b.ch).map fun r =>
    let cs := rectCores r.1 r.2 b.cw b.ch
    (r, (cs.map (s.residents l.part)).foldl (· + ·) 0, cs.map fun c => (c, s.offer l width c))
  match argMin (fun x => x.2.1) (rs.filter fun x => (allNow (x.2.2.map Prod.snd)).isSome) with
  | some x => .place x.1.1 x.1.2 ((allNow (x.2.2.map Prod.snd)).getD [])
  | none =>
    match argMin (fun x => x.2.1) (rs.filter fun x => x.2.2.all fun o => o.2 != .no) with
    | some x => .preempt x.1.1 x.1.2 ((x.2.2.map fun o => (o.1, o.2.drains)))
    | none => .nothing

/-- Something can be done at this moment for a launch's next cluster. -/
def State.planActs (s : State) : Plan → Bool
  | .place _ _ _ => true
  | .preempt _ _ ds => !(ds.any fun d => !d.2.isEmpty) || ds.any fun d => d.2.any fun l => !s.draining l d.1
  | .nothing => false

/-! ## Gangs: which cores (R332) -/

/-- Cores of a die free of resident work, and those whose work a rank pre-empts. -/
def State.freeCores (s : State) (p d : Nat) : List Nat := ((s.part p).coresOn d).filter fun c => (s.holders p ⟨d, c⟩).isEmpty
def State.lowerCores (s : State) (p d rank : Nat) : List Nat :=
  ((s.part p).coresOn d).filter fun c => let hs := s.holders p ⟨d, c⟩; !hs.isEmpty && hs.all fun h => decide (s.rankOfLaunch h < rank)

/-- The berths of a gang's queues, on cores of a die, touch no vault range that a core still holds for work that is away (R350). -/
def State.berthsFree (s : State) (l : Launch) (d : Nat) (cs : List Nat) (drop : Team → Bool) : Bool :=
  match s.gang l.id with
  | none => true
  | some g => g.queues.all fun q => match cs[quBcore q.entry]? with
    | none => true
    | some c => !(s.vaultHeld l.part ⟨d, c⟩ drop).any fun h => rangesMeet (quBofs q.entry) (quBerths q.entry * quSize q.entry) h.1 h.2

/-- What can be done for a gang: the die with most free cores, the lowest on a tie; where it has too few, a die on which
pre-emption frees enough, its free cores first. It waits while its berths would lie in the vault of work that is away (log 68). -/
def State.gangPlan (s : State) (l : Launch) : Plan :=
  let n := l.blk.nCore
  let free := fun d => s.freeCores l.part d
  let low := fun d => s.lowerCores l.part d l.rank
  let dies := s.launchDies l.part l.blk
  match argMin (fun d => 64 - (free d).length) dies with
  | none => .nothing
  | some d =>
    if n ≤ (free d).length then
      (if s.berthsFree l d ((free d).take n) fun _ => false then .place d 0 (((free d).take n).map fun c => ([c], 0)) else .nothing)
    else match argMin (fun d => 64 - (free d).length) (dies.filter fun d => decide (n ≤ (free d).length + (low d).length)) with
      | none => .nothing
      | some e =>
        let cs := sortBy (fun (a b : Nat) => decide (a ≤ b)) (free e ++ (low e).take (n - (free e).length))
        if !s.berthsFree l e cs fun t => decide (s.rankOfLaunch t.launch < l.rank) && s.throughput t.launch then .nothing
        else .preempt e 0 (((low e).take (n - (free e).length)).map fun c => (⟨e, c⟩, (s.holders l.part ⟨e, c⟩).filter s.throughput))

/-- What can be done for a launch. -/
def State.planOf (s : State) (l : Launch) : Plan := if l.blk.isGang then s.gangPlan l else s.plan l

/-- R312: a launch is served when no launch before it in the launcher's order can have something done for it. -/
def State.served (s : State) (l : Launch) : Bool :=
  match (s.waiting l.part).find? fun x => x.id == l.id || s.planActs (s.planOf x) with
  | some x => x.id == l.id
  | none => false

/-- Pre-emption on cores (R315): drains begin, or, once none is needed, contexts are switched out. A gang without a group is switched
out as its drain begins (R349). -/
def State.preempt (s : State) (p : Nat) (ds : List (CoreId × List Nat)) : State :=
  if ds.any fun d => !d.2.isEmpty then
    (ds.foldl (fun s' d => d.2.foldl (fun s'' l => s''.drain l (match s''.gang l with
      | some g => if g.placed then g.coreIds else [d.1]
      | none => [d.1])) s') s).retireGangs
  else ds.foldl (fun s' d => s'.takeCore p d.1) s

/-- CLUSTER_PLACE (R312 to R317): the launcher places the next cluster of a launch, or pre-empts for it; where pre-emption is a
switch alone, the cluster is placed with it. -/
def execClusterPlace (l : Nat) (s : State) : Out :=
  .next (match s.launch l with
    | none => s
    | some x =>
      if x.blk.isGang || !s.served x then s
      else match s.plan x with
        | .place d c os => s.putCluster x (s.widthOf x) d c os
        | .preempt _ _ ds =>
          let s1 := s.preempt x.part ds
          match s1.plan x with
          | .place d c os => s1.putCluster x (s1.widthOf x) d c os
          | _ => s1
        | .nothing => s)

/-! ## Gangs: placing (R332, R333) -/

/-- Deals the cores left over to the stages in rounds: the allotments, with fuel for the cores. -/
def dealCores (maxc : List Nat) : Nat → Nat → Nat → List Nat → List Nat
  | 0, _, _, al => al
  | _ + 1, 0, _, al => al
  | f + 1, left + 1, st, al =>
    let k := st % al.length
    if al.getD k 0 < maxc.getD k 0 then dealCores maxc f left (k + 1) (al.modify k (· + 1)) else dealCores maxc f (left + 1) (k + 1) al

/-- The allotment of a gang's cores to its stages. -/
def allot (n : Nat) (st : List Nat) : List Nat :=
  let al := st.map stMinc
  dealCores (st.map stMaxc) (8 * n + 8) (n - al.foldl (· + ·) 0) 0 al

/-- The stage of each core of a gang, in order. -/
def coreStages (al : List Nat) : List Nat := (indexed al).flatMap fun p => List.replicate p.2 p.1

/-- A gang takes its cores. -/
def State.putGang (s : State) (l : Launch) (die : Nat) (cs : List Nat) : State :=
  match s.gang l.id with
  | none => s
  | some g =>
    let s1 := cs.foldl (fun s' c => ((s'.needCtx l.part ⟨die, c⟩).2).dropCache ⟨die, c⟩) (s.beginDispatch l 64)
    let ctxs := cs.filterMap fun c => (s1.runCtx l.part ⟨die, c⟩).map Ctx.id
    let stages := coreStages (allot cs.length (g.stages.map Stage.entry))
    ((s1.onGang l.id fun y => { y with
      die := die, ctxs := ctxs, cores := (indexed cs).map fun p => ⟨p.2, stages.getD p.1 0, none, none⟩, cad0 := s.clock.toNat,
      placed := true, running := true }).drainsDone (cs.map fun c => ⟨die, c⟩)).dispatched l

/-- The cores of a plan for a gang. -/
def planCores (os : List (List Nat × Nat)) : List Nat := os.flatMap Prod.fst

/-- GANG_PLACE (R332, R333). -/
def execGangPlace (l : Nat) (s : State) : Out :=
  .next (match s.launch l with
    | none => s
    | some x =>
      if !x.blk.isGang || !s.served x then s
      else match s.gangPlan x with
        | .place d _ os => s.putGang x d (planCores os)
        | .preempt _ _ ds =>
          let s1 := s.preempt x.part ds
          match s1.gangPlan x with
          | .place d _ os => s1.putGang x d (planCores os)
          | _ => s1
        | .nothing => s)

/-! ## Teams end (R314, R318, R342, R345, R357) -/

/-- An access delivers a value to a register. -/
def Access.delivers (a : Access) : Bool :=
  match a.kind with
  | .record _ _ _ => true
  | .copyBlock _ => false
  | _ => a.reads

/-- A value is still bound for a register of a thread (R357). -/
def State.boundFor (s : State) (t : Nat) : Bool :=
  s.ms.accs.any (fun a => a.tid == t && a.delivers && !a.performed && !a.withdrawn) ||
    s.en.walks.any (fun w => w.tid == t && w.st != .parked && w.st != .discarded) ||
    s.en.copies.any fun c => c.tid == t && c.adm.isNone && c.d != .z

/-- The entry PC that a team's history is kept under. -/
def State.histPc (s : State) (tm : Team) : Nat :=
  match tm.stage, s.gang tm.launch with
  | some st, some g => ((g.stages[st]?).map fun e => stPc e.entry).getD 0
  | _, _ => ((s.launch tm.launch).map fun l => l.blk.pc).getD 0

/-- The history table takes the divergence of a team that has ended (R318). -/
def State.learn (s : State) (tm : Team) : State :=
  let pc := s.histPc tm
  if tm.l = 0 then s
  else s.onPart tm.part fun x => { x with
    hist := x.hist.map fun e => if e.pc == pc then { e with f := (3 * e.f + 256 * tm.a / tm.l) / 4 } else e }

/-- Cores of a gang whose old stage has no group left take their new stage, and may launch from the next cycle (R345). -/
def State.drainedCores (s : State) (g : Nat) : State :=
  s.onWk fun w => { w with
    gangs := w.gangs.map fun x =>
      if x.launch == g then { x with
        cores := x.cores.map fun c => match c.from_ with
          | some st =>
            if w.teams.any fun t => t.launch == g && t.stage == some st && t.core == ⟨x.die, c.core⟩ && !t.ended then c
            else { c with from_ := none, last := some s.clock.toNat }
          | none => c }
      else x }

/-- Members of a team. -/
def State.members (s : State) (tm : Nat) : List Thread := s.wk.threads.filter fun t => t.place.team == tm

/-- A team has ended: it frees its place and its allocation. -/
def State.endTeam (s : State) (tm : Team) : State :=
  let ts := (s.members tm.id).map Thread.id
  let s1 := (s.learn tm).onWk fun w => { w with
    teams := w.teams.map fun x => if x.id == tm.id then { x with ended := true } else x,
    arrivals := w.arrivals.filter fun a => a.team != tm.id,
    bars := w.bars.filter fun b => !(match b.bar with
      | .team n _ => n == tm.id
      | .cluster _ _ => false),
    groups := w.groups.map fun g => if g.team == tm.id then { g with active := false } else g }
  let s2 := s1.onEn fun e => { e with walks := e.walks.filter fun w => !(ts.contains w.tid && (w.st == .parked || w.st == .discarded)) }
  (((s2.closeQueues tm.launch).drainedCores tm.launch).retireGangs).freeCtxs

/-- TEAM_END (R314): the last thread has exited, and every value bound for the team's registers has arrived. -/
def execTeamEnd (tm : Nat) (s : State) : Out :=
  .next (match s.team tm with
    | none => s
    | some x =>
      if x.ended || decide (64 ≤ x.core.core) || (s.members tm).any (fun t => !t.exited || s.boundFor t.id) then s else s.endTeam x)

/-! ## Grids and gangs end (R311, R347, R406) -/

/-- No team of a launch remains, and none will come. -/
def State.allEnded (s : State) (l : Launch) : Bool :=
  s.wk.teams.all (fun t => t.launch != l.id || t.ended) &&
    (l.killed.isSome || (l.phase == .placed && (match s.gang l.id with
      | some g => (List.range g.stages.length).all fun st => s.stageDone g st
      | none => true)))

/-- No engine agent of a launch is at work; a record for a queue that is closed never leaves. -/
def State.agentsDone (s : State) (l : Nat) : Bool :=
  s.en.ctxs.all (fun c => (c.mxq.all fun o => o.eng.launch != l) && (c.splq.all fun o => o.eng.launch != l) &&
      c.tilesDone.all fun t => t.queue.1 != l || ((s.queue t.queue.1 t.queue.2).map Queue.closed).getD true) &&
    s.en.copies.all (fun c => c.launch != l || c.finished) && s.en.walks.all (fun w => w.launch != l || w.st == .discarded) &&
    s.en.fops.all fun f => f.launch != l

/-- Every access of the threads of a launch, and of their agents, has performed at system scope, and their FSAMPs have completed
(R224, R311). -/
def State.stilled (s : State) (l : Launch) : Bool :=
  let own := s.wk.threads.filter (s.ofLaunch l.id)
  let ts := own.map Thread.id
  s.agentsDone l.id && own.all (fun t => t.out.fsamp.isEmpty) && s.ms.accs.all (fun a => !ts.contains a.tid || a.silent) &&
    s.visible ((s.ms.writes.filter fun w => ts.contains w.tid).map WriteRec.id) s.systemPoints

/-- The address space in which DONE of a launch is written. -/
def State.doneXl (s : State) (l : Launch) : Xl := ⟨l.part, l.root, l.asid, true, ⟨(s.dies.head?).getD 0, 128⟩⟩

/-- DONE lies beyond a link that retrains: the launcher waits (R429). -/
def State.doneHeld (s : State) (l : Launch) : Bool :=
  l.blk.done != 0 && match s.translate (s.doneXl l) .write l.blk.done with
    | .ok pa => s.linkHeld pa && !s.linkCut pa
    | .error _ => false

/-- The launcher writes DONE, as a release at system scope in the launch's address space; a write that cannot be made is
dropped. -/
def State.writeDone (s : State) (l : Launch) : State :=
  let v := match l.killed with
    | some low => low + 2 ^ 63
    | none => l.blk.doneval
  if l.blk.done = 0 then s
  else
    let s0 := s.fillTlb (s.doneXl l) l.blk.done
    match s.translate (s.doneXl l) .write l.blk.done with
    | .error _ => s0
    | .ok pa =>
      if s0.lost pa != 0 then s0
      else if s0.linkCut pa then s0.logFree pa (some 5) 0 2
      else (s0.commit ⟨0, ⟨0, 128⟩, ownCluster ⟨0, 128⟩⟩ 0 (some .system) (cellsAt pa (toBytes 8 v)) [] []).2

/-- What a launch leaves behind is forgotten. -/
def State.forget (s : State) (l : Nat) : State :=
  let tms := (s.wk.teams.filter fun t => t.launch == l).map Team.id
  let cls := (s.wk.teams.filter fun t => t.launch == l).map Team.cluster
  let ts := (s.wk.threads.filter fun t => tms.contains t.place.team).map Thread.id
  let s1 := s.onWk fun w => { w with
    threads := w.threads.filter fun t => !ts.contains t.id,
    groups := w.groups.filter fun g => !tms.contains g.team,
    teams := w.teams.filter fun t => !tms.contains t.id,
    clusters := w.clusters.filter fun c => !cls.contains c.id,
    bars := w.bars.filter fun b => !ts.contains b.tid,
    launches := w.launches.filter fun x => x.id != l,
    gangs := w.gangs.filter fun g => g.launch != l }
  let s2 := s1.onEn fun e => { e with
    copies := e.copies.filter fun c => !ts.contains c.tid, batches := e.batches.filter fun b => !ts.contains b.tid,
    walks := e.walks.filter fun w => !ts.contains w.tid,
    ctxs := e.ctxs.map fun c => { c with tilesDone := c.tilesDone.filter fun t => t.queue.1 != l } }
  (s2.onMs fun m => { m with
    accs := m.accs.filter fun a => !ts.contains a.tid, fences := m.fences.filter fun f => !ts.contains f.tid }).freeCtxs

/-- GRID_END (R311, R347, R406): DONE is written, DONECNT rises. -/
def execGridEnd (l : Nat) (s : State) : Out :=
  .next (match s.launch l with
    | none => s
    | some x =>
      if !s.allEnded x || !s.stilled x || s.doneHeld x then s
      else ((s.writeDone x).onChan x.part x.ch fun c => { c with done := (c.done + 1) % 2 ^ 16 }).forget l)

end Sys2Proof.Machine
end

