-- ==== Sys2Proof/Machine/SplatOps.lean ====
section
/-!
DEFINITION. The splat units (R137 to R139, R144 to R147, R153, R156 to R173): the SPL instructions, and the operations of the
SPL queue in order, with their passes, units, memory effects, reports and faults.
-/
namespace Sys2Proof.Machine

/-! ## Issue (R138, R166 to R173) -/

/-- Operations in the SPL queue of a thread's context (R137). -/
def State.splCount (s : State) (t : Thread) : Nat := ((s.ctxOf t).map fun c => c.splq.length).getD 0

/-- An SPL instruction waits for a queue entry and for its counter. -/
def State.splAsk (s : State) (i : Instr) (h : Gd) : Ask :=
  { Ask.of (useOf i) with ready := fun t => decide (t.ctr.tiles < 63) && decide (s.splCount t + s.rankOf h t < 16) }

/-- What SPBEGIN asks: a named queue must be listed (R168, log 53). -/
def State.beginAsk (s : State) (i : Instr) (h : Gd) (q : Option (Fin 8)) : Ask :=
  { s.splAsk i h with bind := fun t => match q with
    | some b => s.bindCheck b.val true none t
    | none => none }

/-- Enqueues an operation of a thread. -/
def State.splPut (s : State) (t : Thread) (c : Ctx) (k : SplKind) (f : Ctx → Ctx) : State :=
  let op : SplOp := ⟨s.engOp t, k, false, 0, [], [], none, [], []⟩
  ((({ s with nextId := s.nextId + 1 }).onCtx c.id fun x =>
    let y := f x
    { y with splq := y.splq ++ [op], splSince := if y.splq.isEmpty then s.clock.toNat else y.splSince }).up t.id .tile).advance t.id

/-- An SPL instruction: each thread in turn checks its operands and enqueues its operation. -/
def splIssue (h : Gd) (ask : Ask) (f : Thread → State → Ctx → Option (SplKind × (Ctx → Ctx))) (s : State) : Out :=
  .next (s.issue h ask fun ts s1 => ts.foldl (fun s' t =>
    match s'.ctxOf t with
    | none => s'.advance t.id
    | some c => match f t s' c with
      | some k => s'.splPut t c k.1 k.2
      | none => s'.trapHere t 0x02 0 0 0) s1)

def execSpview (h : Gd) (a b : Opnd) (s : State) : Out :=
  splIssue h (s.splAsk (.spview h a b) h) (fun t _ _ =>
    let va := (s.rd2 t a).toNat
    let n := (s.rd t b).toNat
    if va % 64 != 0 || decide (n < 1) || decide (128 < n) then none else some (.view va n, id)) s

/-- SPBEGIN (R168): the pass is open at issue; a named queue must be listed, as an input or as an output (log 53). -/
def execSpbegin (h : Gd) (a : Opnd) (q : Option (Fin 8)) (s : State) : Out :=
  splIssue h (s.beginAsk (.spbegin h a q) h q) (fun t s' c =>
    let va := (s.rd2 t a).toNat
    let qu := q.bind fun b => s.binding t b.val
    if va % 64 != 0 || c.open_.isSome then none
    else some (.beginP s'.nextId, fun x => { x with
      open_ := some ⟨s'.nextId, t.id, 0, 0⟩, passes := x.passes ++ [⟨s'.nextId, t.id, va, 0, 0, qu, false, []⟩] })) s

/-- SPSUB (R169): the batch takes its number and its indices. -/
def execSpsub (h : Gd) (a b : Opnd) (s : State) : Out :=
  splIssue h (s.splAsk (.spsub h a b) h) (fun t _ c =>
    let va := (s.rd2 t a).toNat
    let n := (s.rd t b).toNat
    match c.open_ with
    | none => none
    | some p =>
      if va % 64 != 0 || decide (2 ^ 24 < n) || decide (1024 ≤ p.batches) || decide (2 ^ 31 < p.count + n) then none
      else some (.sub p.id va n p.batches p.count, fun x => { x with open_ := some { p with count := p.count + n, batches := p.batches + 1 } })) s

/-- SPEND and SPEND.ABORT (R170): the pass is closed at issue. -/
def execSpend (h : Gd) (s : State) : Out :=
  splIssue h (s.splAsk (.spend h) h) (fun _ _ c => c.open_.map fun p => (.endP p.id false, fun x => { x with open_ := none })) s
def execSpendAbort (h : Gd) (s : State) : Out :=
  splIssue h (s.splAsk (.spendAbort h) h) (fun _ _ c => c.open_.map fun p => (.endP p.id true, fun x => { x with open_ := none })) s

def execSpbwd (h : Gd) (a b : Opnd) (s : State) : Out :=
  splIssue h (s.splAsk (.spbwd h a b) h) (fun t _ _ =>
    let x := (s.rd2 t a).toNat
    let y := (s.rd2 t b).toNat
    if x % 64 != 0 || y % 64 != 0 then none else some (.bwd x y, id)) s
def execSpred (h : Gd) (a b : Opnd) (s : State) : Out :=
  splIssue h (s.splAsk (.spred h a b) h) (fun t _ _ =>
    let x := (s.rd2 t a).toNat
    let y := (s.rd2 t b).toNat
    if x % 64 != 0 || y % 64 != 0 then none else some (.red x y, id)) s

/-- A core's units have a holder (R146). -/
def State.held (s : State) (c : CoreId) : Bool := s.en.holders.any fun x => x.1 == c

/-- SPQRY (R173). -/
def State.spqry (s : State) (t : Thread) : Word :=
  match s.ctxOf t with
  | none => 0
  | some c =>
    let bad := match c.open_ with
      | some p => c.passes.any fun x => x.id == p.id && x.failed
      | none => false
    BitVec.ofNat 32 ((if c.open_.isSome then 1 else 0) + (if bad then 2 else 0) + (if s.held t.place.core then 4 else 0) +
      s.splCount t % 32 * 2 ^ 8 + c.ovf.toNat * 2 ^ 16)

def execSpqry (h : Gd) (d : Opnd) (s : State) : Out := mxQuery (.spqry h d) h d (fun s t => [s.spqry t]) s

/-! ## Operations -/

/-- The operation at the head of a context's SPL queue. -/
def State.splHead (s : State) (cx : Nat) : Option (Ctx × SplOp) :=
  match s.ctx cx with
  | none => none
  | some c => match c.splq with
    | [] => none
    | o :: _ => if o.stalled || s.md.failed.getLsbD c.core.die then none else some (c, o)

/-- Updates the operation at the head. -/
def State.onSpl (s : State) (cx : Nat) (f : SplOp → SplOp) : State :=
  s.onCtx cx fun c => { c with splq := match c.splq with
    | [] => []
    | o :: l => f o :: l }

/-- Updates a pass of a context. -/
def State.onPass (s : State) (cx p : Nat) (f : Pass → Pass) : State :=
  s.onCtx cx fun c => { c with passes := c.passes.map fun x => if x.id == p then f x else x }

/-- The head has made its writes, and completes once they are performed, with causes and reports. -/
def State.splRan (s : State) (cx : Nat) (ws : List Nat) (last : Option (Nat × List Byte)) (cs : List Cause) (rs : List (Nat × Nat × Nat)) : State :=
  s.onSpl cx fun o => { o with phase := 1, writes := o.writes ++ ws, last := last, causes := o.causes ++ cs, reports := rs }

/-- Causes of the operations. -/
def splCause (c : Nat) : Cause := ⟨c, 0, 0, 0, false, none⟩
def splPoison : Cause := poisonCause 0 engSplat

/-- What ends an operation early. -/
inductive SErr where
  | flt (f : Flt) (addr : Nat)
  /-- A record that cannot be used: the cause (R432, R459). -/
  | bad (c : Cause)
  /-- A link retrains: the operation waits (R429). -/
  | held

def AErr.spl (e : AErr) : SErr :=
  match e with
  | .flt f a => .flt f a
  | .lost r a => .bad ⟨0x21, r, a, engSplat, false, none⟩
  | .cut a => .bad ⟨0x20, 3, a, engSplat, false, none⟩
  | .held => .held

/-- An operation reads n bytes at die scope (R157), with the poison that it met. -/
def State.splRead (s : State) (x : Xl) (w : Who) (a n : Nat) : Except SErr (Nat × Bool) :=
  match s.agentRead x w .die a n with
  | .error e => .error e.spl
  | .ok r => .ok (r.val, r.poison)

/-- A record that steers an operation: poison is an error (R459). -/
def State.splSteer (s : State) (x : Xl) (w : Who) (a n : Nat) : Except SErr Nat :=
  match s.splRead x w a n with
  | .error e => .error e
  | .ok r => if r.2 then .error (.bad splPoison) else .ok r.1

/-- Writes listed pieces: the numbers of the writes committed. -/
def State.splWrites (s : State) (g : Agent) : List (Nat × List Byte) → Except SErr (List Nat × State)
  | [] => .ok ([], s)
  | (a, bs) :: l =>
    match s.agentWrite g false (pieces a bs.length) bs with
    | .error e => .error e.spl
    | .ok r => match r.2.splWrites g l with
      | .error e => .error e
      | .ok q => .ok (r.1 ++ q.1, q.2)

/-- An operation stalls at a fault of translation (R164, R410). -/
def State.splStall (s : State) (c : Ctx) (o : SplOp) (f : Flt) (a : Nat) : State :=
  ((s.tried o.eng.tid a).onSpl c.id fun x => { x with stalled := true }).agentFault engSplat o.eng.id o.eng.launch c.core o.eng.pos f a

/-- A record of cause 0x51 (R163). -/
def State.splReport (s : State) (c : Ctx) (o : SplOp) (r : Nat × Nat × Nat) : State :=
  ({ s with nextId := s.nextId + 1 } : State).post {
    id := s.nextId, quay := quayOf c.core, cause := 0x51, reason := r.1, kind := 4, loc := false, entry := 0, core := c.core, lane := 0, pc := 0,
    addr := r.2.1, info := r.2.2, party := .nobody, launch := o.eng.launch }

/-- What SPQRY shows after an operation (R173). -/
def ovfAfter (k : SplKind) (rs : List (Nat × Nat × Nat)) (old : BitVec 3) : BitVec 3 :=
  let has := fun (r : Nat) => rs.any fun x => x.1 == r
  let put := fun (v : BitVec 3) (i : Nat) => if has (i + 1) then v ||| (1#3 <<< i) else v &&& ~~~(1#3 <<< i)
  match k with
  | .endP _ _ => put (put old 0) 1
  | .bwd _ _ => put (put old 1) 2
  | .red _ _ => put old 2
  | _ => old

/-- The number under which an operation, or its pass, holds units. -/
def SplKind.holder (k : SplKind) (op : Nat) : Option Nat :=
  match k with
  | .endP p _ => some p
  | .bwd _ _ => some op
  | _ => none

/-- The head completes: units are released, its counter falls, its causes and reports follow (R157, R163, R170, R171). -/
def State.splPop (s : State) (c : Ctx) (o : SplOp) : State :=
  let s1 := match o.kind.holder o.eng.id with
    | some n => s.onEn fun e => { e with holders := e.holders.filter fun x => x.2 != n }
    | none => s
  let s2 := s1.onCtx c.id fun x => { x with
    splq := x.splq.drop 1, splSince := s.clock.toNat, ovf := ovfAfter o.kind o.reports x.ovf,
    passes := match o.kind with
      | .endP p _ => x.passes.filter fun y => y.id != p
      | _ => x.passes }
  let s3 := (s2.tileDone o.eng.tid 0).tileWrites o.eng.tid o.writes
  let s4 := o.causes.foldl (fun s' x => s'.causeLive o.eng.tid x) s3
  o.reports.foldl (fun s' r => s'.splReport c o r) s4

/-- The head, once it has run: its last write when the others are performed at system scope, then its completion (R157). -/
def State.splFinish (s : State) (cx : Nat) : State :=
  match s.splHead cx with
  | none => s
  | some (c, o) =>
    let w := s.whoOf o.eng.tid c.core
    let done := s.visible o.writes (s.performedAt w .system)
    let tiles := match o.kind with
      | .endP p _ => c.tilesDone.any fun t => t.pass == p
      | _ => false
    if o.phase = 0 || !done || tiles then s
    else match o.last, s.agentOf o.eng.tid with
      | some (a, bs), some (x, who) =>
        match s.splWrites ⟨who, x, cx, o.eng.id⟩ [(a, bs)] with
        | .error (.flt f v) => s.splStall c o f v
        | .error (.bad k) => s.onSpl cx fun y => { y with last := none, causes := y.causes ++ [k] }
        | .error .held => s
        | .ok r => r.2.onSpl cx fun y => { y with last := none, writes := y.writes ++ r.1 }
      | some _, none => s.splPop c o
      | none, _ => s.splPop c o

/-- Runs the head of a context's queue when it is of the kind of an event, then lets it finish. -/
def splRun (sel : SplKind → Bool) (run : State → Ctx → SplOp → Xl → Who → Except SErr State) (onBad : State → Ctx → SplOp → Cause → State)
    (cx : Nat) (s : State) : Out :=
  .next (match s.splHead cx, (s.splHead cx).bind fun p => s.agentOf p.2.eng.tid with
    | some (c, o), some (x, w) =>
      if !sel o.kind then s
      else if o.phase != 0 then s.splFinish cx
      else match run s c o x w with
        | .ok s1 => s1.splFinish cx
        | .error (.flt f a) => s.splStall c o f a
        | .error (.bad k) => (onBad s c o k).splFinish cx
        | .error .held => s
    | _, _ => s)

/-- An operation that writes nothing, with a cause. -/
def splNothing (s : State) (c : Ctx) (_ : SplOp) (k : Cause) : State := s.splRan c.id [] none [k] []

/-! ## SPVIEW (R167) -/

def runView (s : State) (c : Ctx) (o : SplOp) (x : Xl) (w : Who) : Except SErr State :=
  match o.kind with
  | .view va n =>
    match (List.range n).mapM fun i => s.splSteer x w (va + 64 * i) 64 with
    | .error e => .error e
    | .ok vs => .ok ((s.onCtx c.id fun y => { y with views := vs }).splRan c.id [] none [] [])
  | _ => .ok s

def execSpviewOperation (cx : Nat) (s : State) : Out :=
  splRun (fun k => match k with
    | .view _ _ => true
    | _ => false) runView (fun s c o k => splNothing (s.onCtx c.id fun y => { y with views := [] }) c o k) cx s

/-! ## SPBEGIN (R145 to R147, R168) -/

/-- A pass of a context. -/
def Ctx.passOf (c : Ctx) (p : Nat) : Option Pass := c.passes.find? fun x => x.id == p

/-- Takes the units of cores for a holder, in one step; none when one of them is held. -/
def State.takeUnits (s : State) (cs : List CoreId) (n : Nat) : Option State :=
  if cs.any s.held then none else some (s.onEn fun e => { e with holders := e.holders ++ cs.map fun c => (c, n) })

/-- The units of a holder are held. -/
def State.passHolds (s : State) (p : Nat) : Bool := s.en.holders.any fun x => x.2 == p

/-- The thread of an operation that finds units held waits, at its next word, while the operation does (R146, log 77). -/
def State.unitsWait (s : State) (o : SplOp) : State :=
  match s.thread o.eng.tid with
  | none => s
  | some t =>
    if t.exited || t.stop.isSome || t.wait != .none then s
    else (s.leave t.id).onThread t.id fun x => { x with wait := .units o.eng.id, mode := if x.mode == .run then .cont false else x.mode }

/-- A pass whose partition has come back without its units takes them again before its next operation runs (R146, R418): the step that
it takes instead. -/
def State.retake (s : State) (o : SplOp) (ps : Pass) : Option State :=
  if ps.failed || s.passHolds ps.id then none else some ((s.takeUnits (pdCores ps.bits) ps.id).getD (s.unitsWait o))

/-- A step of an operation that holds units: what ends it early leaves them held. -/
def State.splHolding (s : State) (c : Ctx) (o : SplOp) (onBad : State → Cause → State) : Except SErr State → Except SErr State
  | .ok r => .ok r
  | .error (.flt f a) => .ok (s.splStall c o f a)
  | .error (.bad k) => .ok (onBad s k)
  | .error .held => .ok s

/-- Bytes of tile memory that no rule gives a value: free. -/
def freeBytes (s : State) (from_ n : Nat) : List Byte := (List.range n).map fun i => BitVec.ofNat 8 (Config.freeNat (s.free + from_ + i))

/-- The first 0x8000 bytes of tile memory of a new pass: descriptor, STATE 0, view table, empty batch list (R147). The entries
of the list that no SPSUB has used hold zeros (log 83). -/
def tileMemory (s : State) (d : Nat) (views : List Nat) : List Byte :=
  toBytes 256 d ++ toBytes 8 0 ++ freeBytes s 0 248 ++ views.flatMap (toBytes 64) ++ freeBytes s 248 (8192 - 64 * views.length) ++
    freeBytes s 8440 0x1E00 ++ List.replicate 0x4000 0

/-- The queue of a pass cannot serve it (R145). -/
def queueBad (p : Pass) (core : CoreId) (d : Nat) : Bool := p.queue.isSome && (pdDies d).any fun x => x != core.die

/-- A pass fails (R145, R459). -/
def State.failPass (s : State) (c : Ctx) (o : SplOp) (k : Cause) : State :=
  match o.kind with
  | .beginP p => (s.onPass c.id p fun y => { y with failed := true }).splRan c.id [] none [k] []
  | .sub p _ _ _ _ => (s.onPass c.id p fun y => { y with failed := true }).splRan c.id [] none [k] []
  | _ => s.splRan c.id [] none [k] []

/-- Step 3 of SPBEGIN: the pass holds its units, and writes tile memory (R168). -/
def State.writeTm (s : State) (c : Ctx) (o : SplOp) (x : Xl) (w : Who) (d : Nat) : Except SErr State :=
  match s.splWrites ⟨w, x, c.id, o.eng.id⟩ [(pdTm d, tileMemory s d c.views)] with
  | .error e => .error e
  | .ok r => .ok (({ r.2 with free := r.2.free + 0x8000 } : State).splRan c.id r.1 none [] [])

def runBegin (s : State) (c : Ctx) (o : SplOp) (x : Xl) (w : Who) : Except SErr State :=
  match o.kind with
  | .beginP p =>
    match c.passOf p with
    | none => .ok (s.splRan c.id [] none [] [])
    | some ps =>
      if s.passHolds p then s.splHolding c o (fun s k => s.failPass c o k) (s.writeTm c o x w ps.bits)
      else match s.splSteer x w ps.desc 256 with
      | .error e => .error e
      | .ok d =>
        match pdCheck (fun i => s.md.dies.getLsbD i) c.views.length (queueBad ps c.core d) d with
        | some k => .error (.bad (splCause k))
        | none =>
          match s.takeUnits (pdCores d) p with
          | none => .ok (s.unitsWait o)
          | some s1 =>
            let s2 := s1.onPass c.id p fun y => { y with tm := pdTm d, bits := d }
            s2.splHolding c o (fun s k => s.failPass c o k) (s2.writeTm c o x w d)
  | _ => .ok s

def execSpbeginOperation (cx : Nat) (s : State) : Out :=
  splRun (fun k => match k with
    | .beginP _ => true
    | _ => false) runBegin State.failPass cx s

/-! ## SPSUB (R157, R169) -/

/-- Reads the primitives of a batch, as each die does. -/
def State.readPrims (s : State) (x : Xl) (w : Who) (dies : List Nat) (va first : Nat) : Nat → Except SErr (List PrimRead)
  | 0 => .ok []
  | n + 1 =>
    match s.readPrims x w dies va first n with
    | .error e => .error e
    | .ok l => match s.splRead x w (va + 64 * n) 64 with
      | .error e => .error e
      | .ok r => .ok (l ++ dies.map fun d => ⟨first + n, d, r.1, r.2, s.nextId⟩)

def runSub (s : State) (c : Ctx) (o : SplOp) (x : Xl) (w : Who) : Except SErr State :=
  match o.kind with
  | .sub p va n batch first =>
    match c.passOf p with
    | none => .ok (s.splRan c.id [] none [] [])
    | some ps =>
      if ps.failed then .ok (s.splRan c.id [] none [] [])
      else match s.retake o ps, s.splSteer x w ps.tm 0x2200 with
        | some s1, _ => .ok s1
        | none, .error e => .error e
        | none, .ok m => match s.readPrims x w (pdDies m) va first n with
          | .error e => .error e
          | .ok ls =>
            match s.splWrites ⟨w, x, c.id, o.eng.id⟩ [(ps.tm + 0x4000 + 16 * batch, toBytes 8 va ++ toBytes 4 n ++ toBytes 4 first)] with
            | .error e => .error e
            | .ok r => .ok ((r.2.onPass c.id p fun y => { y with prims := y.prims ++ ls }).splRan c.id r.1 none [] [])
  | _ => .ok s

def execSpsubOperation (cx : Nat) (s : State) : Out :=
  splRun (fun k => match k with
    | .sub _ _ _ _ _ => true
    | _ => false) runSub State.failPass cx s

/-! ## SPEND (R153, R156, R158, R170, R460) -/

/-- What a word of a record has been since it was read: as read, after each write that the die has taken since, and as it stands;
and whether it was poisoned (R157). -/
def State.wordSince (s : State) (w : Who) (p : PrimRead) (pa k now : Nat) (bad : Bool) : List (Nat × Bool) :=
  let xs := (List.range 4).map fun i => pa + 4 * k + i
  let ws := s.ms.writes.filter fun r => decide (p.since ≤ r.id) && r.seenAt (w.upTo .die) && xs.any r.covers
  let old := toBytes 4 (bitsOf p.bits (32 * k + 31) (32 * k))
  let after := (List.range ws.length).map fun n =>
    let l := ws.take (n + 1)
    let at_ := xs.map fun x => (l.reverse.find? fun r => r.covers x)
    (ofBytes ((indexed at_).map fun e => match e.2 with
      | some r => Memory.read r.cells (pa + 4 * k + e.1)
      | none => old.getD e.1 0),
      (indexed at_).any fun e => match e.2 with
        | some r => r.bad.contains (pa + 4 * k + e.1)
        | none => p.bad)
  (ofBytes old, p.bad) :: after ++ [(bitsOf now (32 * k + 31) (32 * k), bad)]

/-- A reading of a record at some time since it was read first: of each word a value that it has had, which one being free (R157). -/
def State.rereadRecord (s : State) (w : Who) (p : PrimRead) (pa seed now : Nat) (bad : Bool) : Nat × Bool :=
  (List.range 16).foldl (fun a k =>
    let l := s.wordSince w p pa k now bad
    let v := l.getD (Config.freeNat (s.free + seed + k) % l.length) (0, false)
    (a.1 + v.1 * 2 ^ (32 * k), a.2 || v.2)) (0, false)

/-- Free numbers that a primitive or a tile of a SPEND may take. -/
def endStride : Nat := 18

/-- The readings of a pass's primitives, each at some time between the start of its SPSUB and the end of the pass. -/
def State.finalPrims (s : State) (x : Xl) (w : Who) (bs : List (Nat × Nat × Nat)) : List (Nat × PrimRead) → Except SErr (List PrimRead)
  | [] => .ok []
  | (k, p) :: l =>
    match s.finalPrims x w bs l with
    | .error e => .error e
    | .ok r =>
      match tmPrim bs p.idx with
      | none => .ok (p :: r)
      | some a =>
        match s.splRead x w a 64, s.agentAt x .read a with
        | .ok q, .ok pa =>
          let v := s.rereadRecord w p pa (endStride * k + 2) q.1 q.2
          .ok ({ p with bits := v.1, bad := v.2 } :: r)
        | .error e, _ => .error e
        | _, .error e => .error e.spl

/-- The bytes of a list: Gaussians with their keys, then triangles with key 0 (R460). -/
def listBytes (l : TileList) : List Byte :=
  (l.gs.flatMap fun g => toBytes 4 g.key ++ toBytes 4 g.idx) ++ l.tris.flatMap fun t => toBytes 4 0 ++ toBytes 4 t.idx

/-- A directory entry (R460); LOFS of an empty list is free. -/
def dirBytes (s : State) (d k : Nat) (t : TileOut) : List Byte :=
  let used := !t.empty && t.size != 0
  let lofs := if used then pdLists d + t.lofs.getD 0 else Config.freeNat (s.free + endStride * k + 1) % 2 ^ 45 * 8
  toBytes 8 lofs ++ toBytes 8 (if t.empty then 2 ^ 63 + (if t.ovl then 2 ^ 62 else 0)
    else t.list.gs.length + t.list.tris.length * 2 ^ 32 + (if t.ovl then 2 ^ 62 else 0))

/-- Offset of a pixel's slot, in pixels. -/
def pixelNo (d w x y : Nat) : Nat := (w * pdHeight d + y) * pdWidth d + x

/-- The pixel writes of a tile (R156). -/
def tileWritesOf (d : Nat) (t : TileOut) : List (Nat × List Byte) :=
  (tilePixels d t.tx t.ty).flatMap fun p =>
    let r := if t.empty then emptyPixel d else resolvePixel d t.list p.1 p.2
    let k := pixelNo d t.w p.1 p.2
    ((pdCbase d + 16 * k) % 2 ^ 64, (r.1 ++ [r.2.1]).flatMap (toBytes 4)) ::
      if pdLbase d = 0 then [] else [((pdLbase d + 4 * k) % 2 ^ 64, toBytes 4 r.2.2)]

/-- The tile record (R158). -/
def tileRecord (d : Nat) (t : TileOut) : List Word :=
  [BitVec.ofNat 32 (t.tx + t.ty * 2 ^ 16), BitVec.ofNat 32 t.w, BitVec.ofNat 32 ((if t.ovl then 1 else 0) + (if t.empty then 2 else 0)),
    BitVec.ofNat 32 (pdTm d)]

/-- Writes every tile, noting the finished tiles where a queue is bound. -/
def State.putTiles (s : State) (c : Ctx) (g : Agent) (p : Pass) (d : Nat) : List TileOut → Except SErr (List Nat × State)
  | [] => .ok ([], s)
  | t :: l =>
    match s.splWrites g (tileWritesOf d t) with
    | .error e => .error e
    | .ok r =>
      let s1 := match p.queue with
        | some q => r.2.onCtx c.id fun y => { y with tilesDone := y.tilesDone ++ [(⟨p.id, q, tileRecord d t, r.1⟩ : TileDone)] }
        | none => r.2
      match s1.putTiles c g p d l with
      | .error e => .error e
      | .ok q => .ok (r.1 ++ q.1, q.2)

/-- Causes of a pass's primitives, taken at the end of its SPEND (R141, R164). -/
def primCauses (ps : List PrimRead) : List Cause :=
  (if ps.any fun p => !p.bad && (primOf p.bits).isNone then [splCause 0x03] else []) ++ (if ps.any PrimRead.bad then [splPoison] else [])

/-- The reports of a pass (R163). -/
def passReports (d : Nat) (ts : List TileOut) : List (Nat × Nat × Nat) :=
  (ts.filter TileOut.ovl).map (fun t => (1, pdTm d, t.tx + t.ty * 2 ^ 16 + t.w * 2 ^ 32 + Nat.min t.n (2 ^ 25 - 1) * 2 ^ 39)) ++
    (if ts.any TileOut.empty then [(2, pdTm d, 0)] else [])

/-- The end of a pass that failed (R145, R459): STATE 3 where it holds units. -/
def State.endFailed (s : State) (c : Ctx) (p : Pass) (cs : List Cause) : State :=
  s.splRan c.id [] (if s.passHolds p.id then some (p.tm + 0x100, toBytes 4 3) else none) (cs ++ primCauses p.prims) []

/-- SPEND and SPEND.ABORT (R170). A pass that failed while it held its units ends with STATE 3 under either form (R147, R459, log 84). -/
def runEnd (s : State) (c : Ctx) (o : SplOp) (x : Xl) (w : Who) : Except SErr State :=
  match o.kind with
  | .endP p abort =>
    match c.passOf p with
    | none => .ok (s.splRan c.id [] none [] [])
    | some ps =>
      if ps.failed then .ok (s.endFailed c ps [])
      else if abort then .ok (s.splRan c.id [] (some (ps.tm + 0x100, toBytes 4 2)) (primCauses ps.prims) [])
      else match s.retake o ps, s.splSteer x w ps.tm 0x8000 with
        | some s1, _ => .ok s1
        | none, .error e => .error e
        | none, .ok m =>
          let d := m % 2 ^ 2048
          match s.finalPrims x w (tmBatches m) (indexed ps.prims) with
          | .error e => .error e
          | .ok prims =>
            let ts := tilesOf s d (tmView m) prims
            let st := (if ts.any TileOut.ovl then 1 else 0) + (if ts.any TileOut.empty then 2 else 0)
            let g : Agent := ⟨w, x, c.id, o.eng.id⟩
            let tables := [(ps.tm + 0x104, toBytes 4 st), (ps.tm + 0x8000, (indexed ts).flatMap fun t => dirBytes s d t.1 t.2)] ++
              (ts.filter fun t => !t.empty && t.size != 0).map fun t => (ps.tm + pdLists d + t.lofs.getD 0, listBytes t.list)
            match s.splWrites g tables with
            | .error e => .error e
            | .ok r => match r.2.putTiles c g ps d ts with
              | .error e => .error e
              | .ok q =>
                .ok (({ q.2 with free := q.2.free + endStride * (prims.length + ts.length) }).splRan c.id (r.1 ++ q.1) (some (ps.tm + 0x100, toBytes 4 1))
                  (primCauses prims) (passReports d ts))
  | _ => .ok s

/-- A SPEND that cannot use the pass state (R459). -/
def badEnd (s : State) (c : Ctx) (o : SplOp) (k : Cause) : State :=
  match o.kind with
  | .endP p _ => match c.passOf p with
    | some ps => (s.onPass c.id p fun y => { y with failed := true }).endFailed c ps [k]
    | none => splNothing s c o k
  | _ => splNothing s c o k

def execSpendOperation (cx : Nat) (s : State) : Out :=
  splRun (fun k => match k with
    | .endP _ false => true
    | _ => false) runEnd badEnd cx s
def execSpendAbortOperation (cx : Nat) (s : State) : Out :=
  splRun (fun k => match k with
    | .endP _ true => true
    | _ => false) runEnd badEnd cx s

/-- TILE_RECORD_PUSH (R158): once the tile's pixel writes are performed at die scope, its record goes to the queue, where it
finds a place. -/
def execTileRecordPush (cx n : Nat) (s : State) : Out :=
  .next (match s.ctx cx, (s.ctx cx).bind fun c => c.tilesDone[n]? with
    | some c, some t =>
      match s.gang t.queue.1, s.queue t.queue.1 t.queue.2, s.splHead cx with
      | some g, some q, some (_, o) =>
        let ws := t.words ++ List.replicate (quSize q.entry / 4 - 4) 0
        let gone := fun (s : State) => s.onCtx cx fun y => { y with tilesDone := y.tilesDone.take n ++ y.tilesDone.drop (n + 1) }
        if q.closed || !s.visible t.writes [.die c.core.die] then s
        else match q.place with
          | none => s
          | some (false, k) =>
            gone ((s.vwrite (berthKey g q.entry k) (wordBytes ws) false).onQueue t.queue.1 t.queue.2 fun y => { y with
              recs := y.recs ++ [⟨ws, s.clock.toNat, false, k, none, 0⟩] })
          | some (true, k) =>
            match s.agentOf o.eng.tid with
            | none => s
            | some (x, w) =>
              match s.splWrites ⟨w, x, cx, o.eng.id⟩ [(quSbase q.entry + k * quSize q.entry, wordBytes ws)] with
              | .error (.flt f a) => s.splStall c o f a
              | .error (.bad _) => gone s
              | .error .held => s
              | .ok r => gone (r.2.onQueue t.queue.1 t.queue.2 fun y => { y with recs := y.recs ++ [⟨ws, s.clock.toNat, true, k, none, r.1.headD 0⟩] })
      | _, _, _ => s
    | _, _ => s)

/-! ## SPBWD (R159 to R161, R171) -/

/-- A list as tile memory holds it (R460): Gaussians with their keys, and triangles. -/
structure StoredList where
  gs : List (Nat × Nat)
  tris : List Nat
  deriving DecidableEq, Repr

/-- Reads n entries of a stored list. -/
def State.readList (s : State) (x : Xl) (w : Who) (a n : Nat) : Except SErr (List (Nat × Nat)) :=
  (List.range n).mapM fun i => match s.splSteer x w (a + 8 * i) 8 with
    | .error e => .error e
    | .ok v => .ok (bitsOf v 31 0, bitsOf v 63 32)

/-- Reads a primitive again; none where no batch holds its index, or it is malformed. -/
def State.rereadPrim (s : State) (x : Xl) (w : Who) (bs : List (Nat × Nat × Nat)) (i : Nat) : Except SErr (Option Prim) :=
  match tmPrim bs i with
  | none => .ok none
  | some a => match s.splSteer x w a 64 with
    | .error e => .error e
    | .ok v => .ok (primOf v)

/-- The list of a tile, projected again from the primitives as they stand, in the stored order. -/
def State.rereadTile (s : State) (x : Xl) (w : Who) (d view : Nat) (bs : List (Nat × Nat × Nat)) (l : StoredList) : Except SErr TileList :=
  match l.gs.mapM fun e => (s.rereadPrim x w bs e.2).map fun p => (p.bind fun q => if q.tri then none else projGauss d view q e.2).map fun g =>
      { g with key := e.1 } with
  | .error e => .error e
  | .ok gs => match l.tris.mapM fun i => (s.rereadPrim x w bs i).map fun p => p.bind fun q => if q.tri then projTri d view q i else none with
    | .error e => .error e
    | .ok ts => .ok ⟨gs.filterMap id, ts.filterMap id⟩

/-- The contributions of the pixels of a tile. -/
def State.tileBack (s : State) (x : Xl) (w : Who) (d gbase wv : Nat) (tl : TileList) : List (Nat × Nat) → Except SErr (List (Nat × List Nat))
  | [] => .ok []
  | p :: l =>
    let k := 16 * pixelNo d wv p.1 p.2
    match s.splSteer x w ((pdCbase d + k) % 2 ^ 64) 16, s.splSteer x w ((gbase + k) % 2 ^ 64) 16 with
    | .ok c, .ok g =>
      let f := fun (v i : Nat) => bitsOf v (32 * i + 31) (32 * i)
      match s.tileBack x w d gbase wv tl l with
      | .error e => .error e
      | .ok r => .ok (pixelGrads (f c 3) (f g 3) [f c 0, f c 1, f c 2] [f g 0, f g 1, f g 2] fOne [0, 0, 0] (pixelHits d tl p.1 p.2).1 ++ r)
    | .error e, _ => .error e
    | _, .error e => .error e

/-- The gradient records of a pass, tile by tile. -/
def State.backTiles (s : State) (x : Xl) (w : Who) (tm d gbase : Nat) (m : Nat) : List (Nat × Nat × Nat × Nat) → Except SErr (List GradRec)
  | [] => .ok []
  | (k, wv, tx, ty) :: l =>
    match s.splSteer x w (tm + 0x8000 + 16 * k) 16 with
    | .error e => .error e
    | .ok e =>
      let rest := s.backTiles x w tm d gbase m l
      if bitsOf e 127 127 = 1 then rest
      else
        let ng := bitsOf e 88 64
        match s.readList x w (tm + bitsOf e 47 0) (ng + bitsOf e 120 96) with
        | .error e => .error e
        | .ok es => match s.rereadTile x w d (tmView m wv) (tmBatches m) ⟨es.take ng, (es.drop ng).map Prod.snd⟩ with
          | .error e => .error e
          | .ok tl => match s.tileBack x w d gbase wv tl (tilePixels d tx ty), rest with
            | .ok cs, .ok r => .ok (tileGrads wv (pdTw d * ty + tx) tl.gs cs ++ r)
            | .error e, _ => .error e
            | _, .error e => .error e

/-- The writes of records into a buffer of a capacity, in the order given. -/
def recordWrites (buf cap : Nat) (l : List GradRec) : List (Nat × List Byte) :=
  (indexed (l.take cap)).map fun p => (buf + 64 + 48 * p.1, p.2.bytes)

/-- Records in an order that is free (R161). -/
def shuffled (s : State) (l : List GradRec) : List GradRec :=
  (sortBy (fun (a b : Nat × GradRec) => decide (Config.freeNat (s.free + a.1) ≤ Config.freeNat (s.free + b.1))) (indexed l)).map Prod.snd

/-- COUNT follows the records, and a buffer that is full is reported (R161, R163). -/
def State.bufferRan (s : State) (c : Ctx) (ws : List Nat) (buf cap n : Nat) : State :=
  s.splRan c.id ws (some (buf, toBytes 8 n)) [] (if cap < n then [(3, buf, 0)] else [])

/-- The records of an SPBWD that holds its units (R159 to R161). -/
def State.backRecords (s : State) (c : Ctx) (o : SplOp) (x : Xl) (w : Who) (tm m gbase rbase cap : Nat) : Except SErr State :=
  let d := m % 2 ^ 2048
  match s.backTiles x w tm d gbase m (indexed (pdTiles d)) with
  | .error e => .error e
  | .ok rs => match s.splWrites ⟨w, x, c.id, o.eng.id⟩ (recordWrites rbase cap (shuffled s rs)) with
    | .error e => .error e
    | .ok r => .ok (({ r.2 with free := r.2.free + rs.length } : State).bufferRan c r.1 rbase cap rs.length)

/-- COUNT 0, and a cause (R171, R459). -/
def State.noRecords (s : State) (c : Ctx) (rbase : Nat) (k : Cause) : State := s.splRan c.id [] (some (rbase, toBytes 8 0)) [k] []

/-- What SPBWD does once its descriptor and its buffer's header are good: STATE, its units, its records. -/
def State.backPass (s : State) (c : Ctx) (o : SplOp) (x : Xl) (w : Who) (tm gbase rbase cap : Nat) : Except SErr State :=
  match s.splSteer x w tm 0x8000 with
  | .error e => .error e
  | .ok m =>
    if tmBits m 0x100 4 != 1 then .ok (s.noRecords c rbase (splCause 0x02))
    else
      match s.takeUnits (pdCores (m % 2 ^ 2048)) o.eng.id with
      | none => .ok (s.unitsWait o)
      | some s1 =>
        let s2 := s1.onSpl c.id fun y => { y with aux := [gbase, rbase, cap] }
        s2.splHolding c o (fun s k => s.noRecords c rbase k) (s2.backRecords c o x w tm m gbase rbase cap)

def runBwd (s : State) (c : Ctx) (o : SplOp) (x : Xl) (w : Who) : Except SErr State :=
  match o.kind, o.aux with
  | .bwd tm _, [gbase, rbase, cap] =>
    s.splHolding c o (fun s k => s.noRecords c rbase k) (match s.splSteer x w tm 0x8000 with
      | .error e => .error e
      | .ok m => s.backRecords c o x w tm m gbase rbase cap)
  | .bwd tm desc, _ =>
    match s.splSteer x w desc 64 with
    | .error e => .error e
    | .ok b =>
      let gbase := bitsOf b 63 0
      let rbase := bitsOf b 127 64
      if bitsOf b 511 128 != 0 then .error (.bad (splCause 0x03))
      else if gbase % 64 != 0 || rbase % 64 != 0 then .error (.bad (splCause 0x02))
      else match s.splSteer x w rbase 64 with
        | .error e => .error e
        | .ok h =>
          if bitsOf h 511 128 != 0 then .error (.bad (splCause 0x03))
          else match s.backPass c o x w tm gbase rbase (bitsOf h 127 64) with
            -- poison beyond the header: COUNT 0 (R459)
            | .error (.bad k) => .ok (s.noRecords c rbase k)
            | r => r
  | _, _ => .ok s

def execSpbwdOperation (cx : Nat) (s : State) : Out :=
  splRun (fun k => match k with
    | .bwd _ _ => true
    | _ => false) runBwd splNothing cx s

/-! ## SPRED (R162, R172) -/

def runRed (s : State) (c : Ctx) (o : SplOp) (x : Xl) (w : Who) : Except SErr State :=
  match o.kind with
  | .red src dst =>
    match s.splSteer x w src 64, s.splSteer x w dst 64 with
    | .ok h, .ok k =>
      let cs := bitsOf h 127 64
      let cd := bitsOf k 127 64
      if bitsOf h 511 128 != 0 || bitsOf k 511 128 != 0 then .error (.bad (splCause 0x03))
      else if rangesMeet src (64 + 48 * cs) dst (64 + 48 * cd) then .error (.bad (splCause 0x02))
      else
        match (List.range (Nat.min (bitsOf h 63 0) cs)).mapM fun i => s.splSteer x w (src + 64 + 48 * i) 48 with
        | .error e => .error e
        | .ok bs =>
          let rs := reduceGrads (bs.map gradOf)
          match s.splWrites ⟨w, x, c.id, o.eng.id⟩ (recordWrites dst cd rs) with
          | .error e => .error e
          | .ok r => .ok (r.2.bufferRan c r.1 dst cd rs.length)
    | .error e, _ => .error e
    | _, .error e => .error e
  | _ => .ok s

def execSpredOperation (cx : Nat) (s : State) : Out :=
  splRun (fun k => match k with
    | .red _ _ => true
    | _ => false) runRed splNothing cx s

end Sys2Proof.Machine
end

