-- ==== Sys2Proof/Machine/Sys.lean ====
section
/-!
DEFINITION. The SYS class: TRAP and TRET (R405 to R411, R419, R420), the operand log and the fault queues (R397, R404, R408, R421),
privileged registers (R391), TLBI and SPLIT (R383 to R385), LAUNCH (R373), ATTEST (R394).
-/
namespace Sys2Proof.Machine

/-! ## TRAP (R419) -/

def execTrap (h : Gd) (imm : Word) (s : State) : Out :=
  .next (s.issue h (Ask.of (useOf (.trap h imm))) fun ts s1 => ts.foldl (fun s' t => s'.trapHere t 0x60 0 0 imm.toNat) s1)

/-! ## Fault queues (R397, R404) -/

/-- Engine work of a partition that is not complete: what its quay cores go on serving in a halt (R417). A parked walk does not end; it
is discarded. -/
def State.workLeft (s : State) (p : Nat) : Bool :=
  s.en.ctxs.any (fun c => c.part == p && (!c.mxq.isEmpty || !c.splq.isEmpty)) ||
    s.en.copies.any (fun c => !c.finished && (s.thread c.tid).any fun t => t.place.part == p) ||
    s.en.walks.any (fun w => w.part == p && w.st != .parked && w.st != .discarded && w.st != .again) || s.en.fops.any fun f => f.part == p

/-- The oldest record not yet returned; a halting partition with no work left gives none (R417, R421). -/
def State.nextRecord (s : State) (c : CoreId) : Option Held :=
  match s.quay c with
  | none => none
  | some q => if (s.part q.part).state == .halting && !s.workLeft q.part then none else q.fq.find? fun h => !h.returned

/-- A thread of a quay core receives a record. -/
def State.takeRecord (s : State) (t : Thread) (d : Opnd) (h : Held) : State :=
  (s.onQuay t.place.core fun x => { x with fq := x.fq.map fun y => if y.rcd.id == h.rcd.id then { y with returned := true } else y }).wrSpan t true d
    (toWords 8 (h.rcd.bits h.seq.toNat))

/-- A thread that waits at OLOGR.NEXT receives a record, where there is one. -/
def State.giveRecord (s : State) (c : CoreId) : State :=
  match (s.quay c).bind fun q => s.thread q.tid, s.nextRecord c with
  | some t, some h =>
    match t.wait with
    | .record d => (s.takeRecord t d h).wake t.id
    | _ => s
  | _, _ => s

/-- FAULT_RECORD_QUEUED (R404): the n-th waiting record takes a place and a sequence number. -/
def execFaultRecordQueued (n : Nat) (s : State) : Out :=
  .next (match s.wk.recs[n]? with
    | none => s
    | some r => match s.quay r.quay with
      | none => s
      | some q =>
        if decide (1024 ≤ q.fq.length) || s.md.failed.getLsbD r.quay.die then s
        else ((s.onWk fun w => { w with recs := w.recs.eraseIdx n }).onQuay r.quay fun x => { x with
          seq := x.seq + 1, fq := x.fq ++ [⟨r, x.seq, false⟩] }).giveRecord r.quay)

/-- OLOGR.NEXT (R421). -/
def execOlogrNext (h : Gd) (d : Opnd) (s : State) : Out :=
  .next (s.issue h (Ask.priv (useOf (.ologrNext h d))) fun ts s1 => ts.foldl (fun s' t =>
    match s'.nextRecord t.place.core with
    | some r => (s'.advance t.id).takeRecord t d r
    | none => s'.waitOn t.id (.record d)) s1)

/-- AKIND of an operand-log entry: a steered cache line counts with the stores. -/
def Access.akind (a : Access) : Nat :=
  match a.kind with
  | .load _ _ _ => 0 | .ldt _ _ _ => 0
  | .atomic _ _ _ _ _ => 2
  | .lds _ _ _ => 3 | .smp _ _ _ _ _ _ _ => 3 | .pref => 3
  | _ => 1

/-- AOP (R244). -/
def AOp.code : AOp → Nat
  | .add => 0 | .and => 1 | .or => 2 | .xor => 3 | .minS => 4 | .minZ => 5 | .maxS => 6 | .maxZ => 7
  | .xchg => 8 | .cas => 9 | .inc => 10 | .dec => 11 | .fadd => 12 | .fmin => 13 | .fmax => 14

def scopeCode : Scope → Nat
  | .core => 0 | .cluster => 1 | .die => 2 | .system => 3

/-- DATA of an operand-log entry: the bytes of a store, or B and C of an atomic. -/
def Access.logData (a : Access) : Nat :=
  match a.kind with
  | .store bs => ofBytes bs
  | .stt bs => ofBytes bs
  | .push _ _ ws => ofWords ws % 2 ^ 128
  | .atomic _ _ _ b c => b % 2 ^ 64 + c % 2 ^ 64 * 2 ^ 64
  | _ => 0

/-- The operand-log entry of a part of an access (R408). -/
def Access.logBits (a : Access) (k : Nat) : Nat :=
  let aop := match a.kind with
    | .atomic op _ _ _ _ => op.code
    | _ => 0
  let ord := (if a.acq then 1 else 0) + if a.rel then 2 else 0
  ((a.parts[k]?).map APart.ea).getD 0 % 2 ^ 64 + a.logData * 2 ^ 64 + a.stream % 16 * 2 ^ 194 + scopeCode a.scope * 2 ^ 198 + ord * 2 ^ 200 +
    aop * 2 ^ 202 + a.akind * 2 ^ 206 + a.dreg % 256 * 2 ^ 208 + 2 ^ 223

/-- A held record by its handle (R397). -/
def Quay.find (q : Quay) (handle : Nat) : Option Held := q.fq.find? fun h => h.rcd.bits h.seq.toNat % 2 ^ 64 == handle

/-- What OLOGR.OPND returns for a handle: zero for any but a kind-1 record's. -/
def State.logEntry (s : State) (c : CoreId) (handle : Nat) : Nat :=
  match (s.quay c).bind fun q => q.find handle with
  | none => 0
  | some h =>
    match h.rcd.party with
    | .access a k => ((s.access a).map fun x => x.logBits k).getD 0
    | _ => 0

/-- OLOGR.OPND (R421). -/
def execOlogrOpnd (h : Gd) (d a : Opnd) (s : State) : Out :=
  .next (s.issue h (Ask.priv (useOf (.ologrOpnd h d a))) fun ts s1 => ts.foldl (fun s' t =>
    (s'.advance t.id).wrSpan t (isLead ts t) d (toWords 8 (s.logEntry t.place.core (s.rd2 t a).toNat))) s1)

/-! ## Dispositions (R405, R406, R409 to R411) -/

/-- Dispositions of TRET (R420). -/
inductive Disp where
  | resume | skip | retry | fail | kill | assist (res : Nat) (flags : BitVec 5)
  deriving DecidableEq, Repr

/-- R405. -/
def Disp.allowed (d : Disp) (kind : Nat) : Bool :=
  match kind, d with
  | 0, .resume => true | 0, .skip => true | 0, .kill => true
  | 1, .retry => true | 1, .fail => true | 1, .kill => true
  | 2, .retry => true | 2, .fail => true | 2, .kill => true
  | 3, .assist _ _ => true
  | 4, .resume => true
  | _, _ => false

/-- A stopped thread goes on at one of its resume points. -/
def State.resume (s : State) (t : Nat) (rid : Nat) (skip : Bool) : State :=
  s.onThread t fun x => match x.stop with
    | some p => if p.rid == rid && !x.exited then x.resumeAt (if skip then p.skip else p.resume) else x
    | none => x

/-- A deferred access is translated again and performed in its place (R409). -/
def State.retryAccess (s : State) (a k : Nat) : State := s.onPart1 a k fun p => { p with stalled := false }

/-- A deferred access performs nothing; its thread takes the cause at its next issue, or at the atomic or push itself (R409). -/
def State.failAccess (s : State) (r : Rec) (a : Nat) : State :=
  match s.access a with
  | none => s
  | some x =>
    match x.kind with
    | .atomic _ _ _ _ _ => s.trapAtomic x r.cause r.reason r.addr
    | .push _ _ _ => s.trapPush x r.cause r.reason r.addr
    | _ => (s.dropAccess x).onThread x.tid fun t =>
        if t.exited then t else { t with out := { t.out with hits := t.out.hits ++ [⟨r.cause, r.reason, r.addr, 0, false, some r.pc⟩] } }

/-- An agent goes on after its fault (R410). -/
def State.retryAgent (s : State) (op : Nat) : State :=
  s.onEn fun e => { e with
    copies := e.copies.map fun c => if c.id == op then { c with stalled := false } else c,
    walks := e.walks.map fun w => if w.id == op then { w with stalled := false } else w,
    fops := e.fops.map fun f => if f.id == op then { f with stalled := false } else f,
    ctxs := e.ctxs.map fun c => { c with
      mxrun := if c.mxq.head?.any fun o => o.eng.id == op then { c.mxrun with stalled := false } else c.mxrun,
      splq := c.splq.map fun o => if o.eng.id == op then { o with stalled := false } else o } }

/-- A copy that faulted ends with copy-fault reason 3 (R295, R410): one that is not admitted is admitted as it ends. -/
def State.failCopy (s : State) (c : Copy) : State :=
  let s1 := s.onCopy c.id fun x => { x with stalled := false, fault := some 3 }
  if c.adm.isNone then s1.admitCopy { c with stalled := false, fault := some 3 } 0 0 s.clock.toNat none (some 3) false [] else s1

/-- An assist's answer (R411). -/
def State.answer (s : State) (cx res : Nat) (fl : BitVec 5) : State :=
  s.onCtx cx fun c => if c.mxrun.stopped then { c with mxrun := { c.mxrun with stopped := false, answer := some (res % 2 ^ 48, fl) } } else c

/-- KILL of a record (R406): its own agent ends with those of the records still held. -/
def State.killFrom (s : State) (h : Held) (low : Nat) : State :=
  (s.kill h.rcd.launch low).killAgents h.rcd.party.agentOf.toList h.rcd.party.assistOf.toList

/-- Applies a disposition to a record. -/
def State.dispose (s : State) (h : Held) (d : Disp) : State :=
  let low := h.rcd.bits h.seq.toNat % 2 ^ 32
  match d, h.rcd.party with
  | .resume, .thread t => s.resume t h.rcd.id false
  | .skip, .thread t => s.resume t h.rcd.id true
  | .retry, .access a k => s.retryAccess a k
  | .fail, .access a _ => s.failAccess h.rcd a
  | .retry, .agent op => s.retryAgent op
  | .fail, .agent op => match s.copy op with
    | some c => s.failCopy c
    | none => s.killFrom h low
  | .kill, _ => s.killFrom h low
  | .assist r f, .assist cx => s.answer cx r f
  | _, _ => s

/-- The quay form of TRET for one thread: status 1 for a handle that names no held record, 2 for a disposition not allowed. -/
def State.tret (s : State) (ts : List Thread) (t : Thread) (d : Opnd) (handle : Nat) (disp : Disp) : State :=
  let c := t.place.core
  match (s.quay c).bind fun q => q.find handle with
  | none => (s.advance t.id).wrSpan t (isLead ts t) d [1]
  | some h =>
    if !disp.allowed h.rcd.kind then (s.advance t.id).wrSpan t (isLead ts t) d [2]
    else
      let s1 := (s.advance t.id).onQuay c fun q => { q with fq := q.fq.filter fun x => x.rcd.id != h.rcd.id }
      (s1.dispose h disp).wrSpan t (isLead ts t) d [0]

/-- TRET in the quay form. -/
def tretQuay (i : Instr) (h : Gd) (d a : Opnd) (disp : Thread → Disp) (s : State) : Out :=
  .next (s.issue h (Ask.of (useOf i)) fun ts s1 => ts.foldl (fun s' t => s'.tret ts t d (s.rd2 t a).toNat (disp t)) s1)

/-- What the kernel-local form of TRET asks: outside a handler it raises cause 0x04, whatever its guard (R57, R59). -/
def Ask.inLocal (u : Use) : Ask := { Ask.of u with deny := fun t => t.kl.isNone }

/-- TRET in the kernel-local form (R403). -/
def tretLocal (i : Instr) (h : Gd) (skip keep : Bool) (s : State) : Out :=
  .next (s.issue h (Ask.inLocal (useOf i)) fun ts s1 => ts.foldl (fun s' t =>
    match t.kl with
    | some k => s'.onThread t.id fun x => x.returnLocal k skip keep
    | none => s') s1)

def execTretResume (h : Gd) (x : TretArg) (s : State) : Out :=
  match x with
  | .kernelLocal keep => tretLocal (.tretResume h x) h false keep s
  | .quay d a => tretQuay (.tretResume h x) h d a (fun _ => .resume) s
def execTretSkip (h : Gd) (x : TretArg) (s : State) : Out :=
  match x with
  | .kernelLocal keep => tretLocal (.tretSkip h x) h true keep s
  | .quay d a => tretQuay (.tretSkip h x) h d a (fun _ => .skip) s
def execTretRetry (h : Gd) (d a : Opnd) (s : State) : Out := tretQuay (.tretRetry h d a) h d a (fun _ => .retry) s
def execTretFail (h : Gd) (d a : Opnd) (s : State) : Out := tretQuay (.tretFail h d a) h d a (fun _ => .fail) s
def execTretKill (h : Gd) (d a : Opnd) (s : State) : Out := tretQuay (.tretKill h d a) h d a (fun _ => .kill) s
def execTretAssist (h : Gd) (d a b c : Opnd) (s : State) : Out :=
  tretQuay (.tretAssist h d a b c) h d a (fun t => .assist (s.rd2 t b).toNat (BitVec.ofNat 5 (s.rd t c).toNat)) s

/-! ## Privileged registers (R389, R391) -/

/-- The limit in force, in watts (R386, R392). -/
def State.powerLimit (s : State) : Nat := Nat.min s.md.plimit s.md.fwlimit

/-- An ASID lies in a partition's ASIDW. -/
def Part.hasAsid (p : Part) (a : Nat) : Bool :=
  decide (bitsOf p.cfg.asidw.toNat 15 0 ≤ a) && decide (a ≤ bitsOf p.cfg.asidw.toNat 15 0 + bitsOf p.cfg.asidw.toNat 31 16)

/-- The value of a privileged register for a quay core. -/
def State.privReg (s : State) (t : Thread) (r : PrivReg) : Nat :=
  let p := s.part t.place.part
  match r with
  | .partid => t.place.part
  | .prows => p.cfg.rows.toNat
  | .asidw => p.cfg.asidw.toNat
  | .plimit => s.powerLimit
  | .wroot => ((s.quay t.place.core).map fun q => q.wroot.toNat).getD 0
  | .wasid => ((s.quay t.place.core).map fun q => q.wasid.toNat).getD 0
  | .btgrant => p.btgrant.toNat
  | .asroot c => (p.asroot.toList.getD c.val 0).toNat
  | .asasid c => (p.asasid.toList.getD c.val 0).toNat

/-- Registers that a privileged register takes. -/
def privWidth : PrivReg → Nat
  | .wroot => 2
  | .asroot _ => 2
  | _ => 1

/-- What a write of a privileged register meets: a trap, or nothing. -/
def State.privTrap (s : State) (t : Thread) (r : PrivReg) (v : Nat) : Option Flt :=
  let p := s.part t.place.part
  let root : Option Flt := if bitsOf v 63 52 != 0 || bitsOf v 11 0 != 0 then some ⟨0x02, 0⟩ else if !p.inHbmw v then some ⟨0x11, 4⟩ else none
  let asid : Option Flt := if bitsOf v 31 16 != 0 then some ⟨0x02, 0⟩ else if !p.hasAsid v then some ⟨0x11, 5⟩ else none
  match r with
  | .wroot => root
  | .asroot _ => root
  | .wasid => asid
  | .asasid _ => asid
  | .btgrant => if decide (2 ≤ v) then some ⟨0x02, 0⟩ else none
  | _ => some ⟨0x02, 0⟩

/-- Writes a privileged register. -/
def State.setPriv (s : State) (t : Thread) (r : PrivReg) (v : Nat) : State :=
  let x := BitVec.ofNat 64 v
  match r with
  | .wroot => s.onQuay t.place.core fun q => { q with wroot := x }
  | .wasid => s.onQuay t.place.core fun q => { q with wasid := BitVec.ofNat 32 v }
  | .btgrant => s.onPart t.place.part fun p => { p with btgrant := x }
  | .asroot c => s.onPart t.place.part fun p => { p with asroot := p.asroot.setIfInBounds c.val x }
  | .asasid c => s.onPart t.place.part fun p => { p with asasid := p.asasid.setIfInBounds c.val x }
  | _ => s

/-- A trap of cause 0x11 without an address: what ADDR holds is free. -/
def State.trapNoAddr (s : State) (t : Thread) (f : Flt) : State :=
  if f.cause = 0x11 then let q := s.draw; q.2.trapHere t f.cause f.reason q.1 0 else s.trapHere t f.cause f.reason 0 0

/-- SWR. -/
def execSwr (h : Gd) (r : PrivReg) (a : Opnd) (s : State) : Out :=
  .next (s.issue h (Ask.priv (useOf (.swr h r a))) fun ts s1 => ts.foldl (fun s' t =>
    let v := s.opndNum t (privWidth r == 2) a
    match s'.privTrap t r v with
    | some f => s'.trapNoAddr t f
    | none => (s'.setPriv t r v).advance t.id) s1)

/-- SRDP. -/
def execSrdp (h : Gd) (d : Opnd) (r : PrivReg) (s : State) : Out :=
  .next (s.issue h (Ask.priv (useOf (.srdp h d r))) fun ts s1 => ts.foldl (fun s' t =>
    (s'.advance t.id).wrSpan t (isLead ts t) d (toWords (privWidth r) (s.privReg t r))) s1)

/-! ## TLBI (R383, R384) -/

/-- A TLBI names an entry: by an address, every one that translates the address's page, each fragment of a 1 GiB page included. -/
def Tlbi.names (i : Tlbi) (e : TlbEntry) : Bool :=
  e.part == i.part && (match i.va, i.asid with
    | some va, some a => (e.glob || e.asid == a) &&
        (if e.frag then e.vbase / 2 ^ 30 == bitsOf va 47 30 else decide (e.vbase ≤ bitsOf va 47 0) && decide (bitsOf va 47 0 < e.vbase + e.size))
    | none, some a => !e.glob && e.asid == a
    | _, none => true)

/-- Starts a TLBI for a thread, which waits for it. -/
def State.startTlbi (s : State) (t : Thread) (va asid : Option Nat) (d : Opnd) : State :=
  let i : Tlbi := ⟨s.nextId, t.id, t.place.part, va, asid, s.nextId, t.obs, false, [], []⟩
  (({ s with nextId := s.nextId + 1 } : State).onMs fun m => { m with tlbis := m.tlbis ++ [i] }).waitOn t.id (.tlbi i.id d)

/-- A TLBI instruction: the ASID named must lie in ASIDW. -/
def tlbiIssue (i : Instr) (h : Gd) (va asid : Thread → Option Nat) (s : State) : Out :=
  .next (s.issue h (Ask.priv (useOf i)) fun ts s1 => ts.foldl (fun s' t =>
    if (asid t).any fun a => !(s.part t.place.part).hasAsid a then
      match va t with
      | some v => s'.trapHere t 0x11 5 v 0
      | none => s'.trapNoAddr t ⟨0x11, 5⟩
    else s'.startTlbi t (va t) (asid t) .z) s1)

def execTlbiVa (h : Gd) (a b : Opnd) (s : State) : Out :=
  tlbiIssue (.tlbiVa h a b) h (fun t => some (s.rd2 t a).toNat) (fun t => some ((s.rd t b).toNat % 2 ^ 16)) s
def execTlbiAsid (h : Gd) (b : Opnd) (s : State) : Out :=
  tlbiIssue (.tlbiAsid h b) h (fun _ => none) (fun t => some ((s.rd t b).toNat % 2 ^ 16)) s
def execTlbiAll (h : Gd) (s : State) : Out := tlbiIssue (.tlbiAll h) h (fun _ => none) (fun _ => none) s

/-- The release of a TLBI, or of a LAUNCH, at system scope may perform (R217, R273): every access of its thread numbered below a
bound has performed and left the gather buffer, and what the thread has observed is visible to the whole system. -/
def State.releasedBy (s : State) (t bound : Nat) (obs : List Nat) : Bool :=
  s.ms.accs.all (fun a => a.tid != t || decide (bound ≤ a.id) || a.silent || a.performed) && !s.gathering t bound && s.visible obs s.systemPoints

/-- What must complete before a TLBI does: parts of accesses translated under what it invalidates, and writes so translated that
have not performed at system scope, whatever their own scope. -/
def State.tlbiAwaits (s : State) (i : Tlbi) : List (Nat × Nat) :=
  s.ms.accs.flatMap fun a => ((indexed a.parts).filter fun p => p.2.page.any i.names).map fun p => (a.id, p.1)
def State.tlbiWrites (s : State) (i : Tlbi) : List Nat :=
  (s.ms.writes.filter fun w => w.page.any i.names && !s.visible [w.id] s.systemPoints).map WriteRec.id

/-- The invalidation of a TLBI. -/
def State.invalidate (s : State) (i : Tlbi) : State :=
  s.onMs fun m => { m with
    l1tlb := m.l1tlb.filter fun e => !i.names e.2,
    l2tlb := m.l2tlb.filter fun e => !i.names e.2,
    tlbis := m.tlbis.map fun x => if x.id == i.id then { x with begun := true, awaits := s.tlbiAwaits i, awaitW := s.tlbiWrites i } else x }

/-- A part of an access that a TLBI awaited has completed: it has performed, or its access is gone, and what the access has written is
visible to the whole system. -/
def State.partDone (s : State) (a k : Nat) : Bool :=
  ((s.access a).all fun x => (x.parts[k]?).all APart.done) &&
    s.visible ((s.ms.writes.filter fun w => w.acc == a).map WriteRec.id) s.systemPoints

/-- TLBI_COMPLETE (R384): first the release and the invalidation, then, once every access awaited has completed, the end of
the wait; a SPLIT receives its result. The thread waits, so what it has observed when the release performs is what its earlier
accesses brought. -/
def execTlbiComplete (op : Nat) (s : State) : Out :=
  .next (match s.ms.tlbis.find? fun i => i.id == op with
    | none => s
    | some i =>
      if !i.begun then (if s.releasedBy i.tid i.bound (i.obs ++ s.obsOf i.tid) then s.invalidate i else s)
      else if i.awaits.all (fun p => s.partDone p.1 p.2) && s.visible i.awaitW s.systemPoints then
        let s1 := s.onMs fun m => { m with tlbis := m.tlbis.filter fun x => x.id != op }
        match s1.thread i.tid with
        | some t => match t.wait with
          | .tlbi n d => if n == op then (s1.wrSpan t true d [0]).wake t.id else s1
          | _ => s1
        | none => s1
      else s)

/-! ## SPLIT (R385) -/

/-- The leaf that maps an address in the address space of WROOT and WASID, without permission checks. -/
def State.splitLeaf (s : State) (t : Thread) (root va : Nat) : Option Leaf :=
  let p := s.part t.place.part
  let pts := t.who.upTo .system
  if !canonical va then none
  else (walkFrom (fun a => (s.readBy (s.latest pts) a 8).val) p.inHbmw (bitsOf va 47 0) 4 root).toOption

/-- Entry i of the table that replaces a leaf. -/
def splitEntry (l : Leaf) (cont : Bool) (i : Nat) : Nat :=
  let e := l.e - pteFrame l.e + (pteFrame l.e + i * leafSize (l.lvl - 1)) % 2 ^ 52
  if l.lvl = 3 then e else if cont then e ||| 2 ^ 11 else e &&& (2 ^ 64 - 1 - 2 ^ 11)

/-- What SPLIT comes to: a result, a trap at a lost line (R432), or the swap made. -/
inductive SplitEnd where
  | code (n : Nat)
  | lost (reason addr : Nat)
  | swapped
  deriving DecidableEq, Repr

/-- The first lost line of n bytes of memory: its reason and address. -/
def State.lostIn (s : State) (pa n : Nat) : Option (Nat × Nat) :=
  ((blksOf pa n).find? fun b => s.lost (64 * b) != 0).map fun b => (s.lost (64 * b), 64 * b)

/-- The new table of a SPLIT, whole before the swap. -/
def State.splitTable (s : State) (t : Thread) (l : Leaf) (b : Nat) (cont : Bool) : State :=
  let tbl := cellsAt b ((List.range 512).flatMap fun i => toBytes 8 (splitEntry l cont i))
  let r := s.commitPub t.who tbl []
  r.2.observe t.id [r.1]

/-- The walk, the new table and the swap. -/
def State.splitLarge (s : State) (t : Thread) (va b : Nat) (cont : Bool) : SplitEnd × State :=
  let p := s.part t.place.part
  let root := ((s.quay t.place.core).map fun q => q.wroot.toNat).getD 0
  let s0 := s.refresh t.who .system
  match s.splitLeaf t root va with
  | none => (.code 1, s0)
  | some l =>
    if l.lvl = 1 then (.code 1, s0)
    else if b % 4096 != 0 || !p.inHbmw b then (.code 3, s0)
    else match s.lostIn b 4096, s.lostIn l.ea 8 with
      | some x, _ => (.lost x.1 x.2, s0)
      | none, some x => (.lost x.1 x.2, s0)
      | none, none =>
        let s1 := s0.splitTable t l b cont
        if (s1.readLast l.ea 8).val = l.e then
          let q := s1.commitOwn t.who 0 none (cellsAt l.ea (toBytes 8 (b + 1))) false
          (.swapped, q.2)
        else (.code 2, s1)

/-- SPLIT: the swap at issue, then the TLBI of the page, whose end gives D := 0. -/
def execSplit (h : Gd) (d a b : Opnd) (cont : Bool) (s : State) : Out :=
  .next (s.issue h (Ask.priv (useOf (.split h d a b cont))) fun ts s1 => ts.foldl (fun s' t =>
    let va := (s.rd2 t a).toNat
    let r := s'.splitLarge t va (s.rd2 t b).toNat cont
    match r.1, r.2.thread t.id with
    | .code n, _ => (r.2.advance t.id).wrSpan t (isLead ts t) d [BitVec.ofNat 32 n]
    | .lost n x, _ => r.2.trapHere t 0x21 n x 0
    | .swapped, some t' =>
      r.2.startTlbi t' (some va) (some (((s.quay t.place.core).map fun q => q.wasid.toNat).getD 0)) (destOf ts t d)
    | .swapped, none => r.2) s1)

/-! ## LAUNCH (R373) -/

/-- LAUNCH: the block's address is checked at issue; the thread waits at the LAUNCH for the check. -/
def execLaunch (h : Gd) (d a : Opnd) (ch : Fin 8) (s : State) : Out :=
  .next (s.issue h (Ask.of (useOf (.launch h d a ch))) fun ts s1 => ts.foldl (fun s' t =>
    let ea := (s.rd2 t a).toNat
    if ea % 64 != 0 || !canonical ea then s'.trapHere t 0x02 0 0 0
    else
      let s2 := ({ s' with nextId := s'.nextId + 1 } : State).hold t s'.nextId (destOf ts t d) 2
      s2.holdFor t (.launch s'.nextId s.nextId (destOf ts t d) ch.val ea)) s1)

/-- The trap in which an access ends that a thread awaits at its word; none while it waits for a link (R429, R430, R432). -/
def AErr.trap : AErr → Option (Flt × Nat)
  | .flt f a => some (f, a)
  | .lost r a => some (⟨0x21, r⟩, a)
  | .cut a => some (⟨0x20, 3⟩, a)
  | .held => none

/-- A thread that waits at its word traps there; registers held for operation op are free. -/
def State.trapWaiting (s : State) (x : Thread) (op : Nat) (f : Flt) (addr : Nat) : State :=
  ((s.unhold x op).wake x.id).trapHere { x with wait := .none } f.cause f.reason addr 0

/-- A thread that waited at a word has executed it: the rest of its clause is a continuation, fetched again where its thread was
stopped meanwhile (R354, R400). -/
def Thread.pastWord (t : Thread) : Thread :=
  let p := t.nextPos
  { t with pos := p, mode := if p.mid then .cont (t.mode == .cont true) else .header, wait := .none }

/-- The result of a LAUNCH goes to its destination, and the thread goes on. -/
def State.launched (s : State) (t : Thread) (op : Nat) (d : Opnd) (code : Nat) (full : Bool) (done : Nat) : State :=
  (s.deliver t.id op d [BitVec.ofNat 32 (code + if full then 2 ^ 8 else 0), BitVec.ofNat 32 done]).onThread t.id Thread.pastWord

/-- A launch whose block has been read reaches its channel (R309, R310, R459): the result, with what the launcher has done. -/
def State.launchBlock (s : State) (x : Thread) (op : Nat) (d : Opnd) (ch ea : Nat) (r : ReadRes) : State :=
  let e : Nat × Bool × Option Nat × State :=
    if r.poison then (14, false, some 0, s.onChan x.place.part ch fun c => { c with code := 14 })
    else s.enqueue x.place.part ch ⟨ofBytes r.bytes⟩
  let s2 := e.2.2.2.launched x op d e.1 e.2.1 (s.chan x.place.part ch).done
  if e.1 = 14 then s2.cause x.id (poisonCause ea 0) else s2

/-- The launcher reads a block for a LAUNCH, or the launch ends before that: at a full queue, or in a partition that does not run,
whose launches are rejected unread (R309, R310). -/
def State.takeLaunch (s : State) (x : Thread) (op : Nat) (d : Opnd) (ch ea : Nat) : State :=
  if decide (64 ≤ (s.chan x.place.part ch).queue.length) || (s.part x.place.part).state != .running then
    let e := s.enqueue x.place.part ch ⟨0⟩
    e.2.2.2.launched x op d e.1 e.2.1 (s.chan x.place.part ch).done
  else match s.agentRead x.xl x.who .system ea 128 with
    | .error e => match e.trap with
      | some f => (s.agentFill x.xl ea 128).trapWaiting x op f.1 f.2
      | none => s
    | .ok r =>
      if !r.poison && s.tablesHeld x.place.part ch ⟨ofBytes r.bytes⟩ then s
      else ((s.agentFill x.xl ea 128).takeRead x.who r.wids).launchBlock x op d ch ea r

/-- LAUNCH_RESULT (R309 to R311, R373, R459): once the release may perform, and no earlier LAUNCH of the same issue waits, the
block is copied and checked, and enters the channel. -/
def execLaunchResult (t : Nat) (s : State) : Out :=
  .next (match s.thread t with
    | none => s
    | some x =>
      match x.wait with
      | .launch op iss d ch ea =>
        let before := s.wk.threads.any fun u => match u.wait with
          | .launch o i _ _ _ => i == iss && decide (o < op)
          | _ => false
        if before || !s.releasedBy t s.nextId x.obs then s else s.takeLaunch x op d ch ea
      | _ => s)

/-! ## ATTEST (R394) -/

/-- Effective addresses of the pages of a buffer at which a range of n bytes begins anew. -/
def pageStarts (ea n : Nat) : List Nat := ea :: ((List.range (n / 4096 + 1)).map fun i => (ea / 4096 + i + 1) * 4096).filter fun a => decide (a < ea + n)

/-- The first fault of a range of a thread. -/
def State.rangeFault (s : State) (t : Thread) (acc : Acc) (ea n : Nat) : Option (Flt × Nat) :=
  (pageStarts ea n).findSome? fun a => match s.translate t.xl acc a with
    | .error f => some (f, a)
    | .ok _ => none

/-- ATTEST: alignment at issue; the thread waits at it for the signing unit. -/
def execAttest (h : Gd) (d a b : Opnd) (s : State) : Out :=
  .next (s.issue h (Ask.priv (useOf (.attest h d a b))) fun ts s1 => ts.foldl (fun s' t =>
    let na := (s.rd2 t a).toNat
    let bu := (s.rd2 t b).toNat
    if na % 32 != 0 || bu % 64 != 0 then s'.trapHere t 0x02 0 0 0
    else
      let s2 := (s'.agentFill t.xl na 32).agentFill t.xl bu 2560
      match s'.rangeFault t .read na 32, s'.rangeFault t .write bu 2560 with
      | some f, _ => s2.trapFlt t f.1 f.2
      | none, some f => s2.trapFlt t f.1 f.2
      | none, none => (s2.holdFor t (.attest (destOf ts t d) na bu)).onMd fun m => { m with signing := m.signing ++ [t.id] }) s1)

/-- The identity word (R1): a die that is lost reads as not there. -/
def State.identity (s : State) : Nat :=
  (Config.fuseRev 0).toNat + (s.md.dies &&& ~~~s.md.failed).toNat * 2 ^ 20 + 0x20 * 2 ^ 24 + 0x0E29 * 2 ^ 32 + 0x1C4D * 2 ^ 48

/-- Bytes 0x000 to 0x04F of a partition block, PCTL as RUN leaves it (R386, R394). -/
def State.blockBytes (s : State) (p : Nat) : List Nat :=
  let x := s.part p
  let c := x.cfg
  let pctl := 1 + 2 ^ 4 + if x.errAtRun then 2 ^ 3 else 0
  ([pctl, c.rows.toNat, c.asidw.toNat, c.ways.toNat] ++ c.hbmw.toList.map BitVec.toNat ++ [c.links.toNat, c.fwgrant.toNat]).flatMap
    fun v => (toBytes 8 v).map BitVec.toNat

/-- The report (R394). -/
def State.report (s : State) (p nonce : Nat) : Nat :=
  s.identity + bitsOf s.md.bootst.toNat 63 32 * 2 ^ 64 + (Config.firmwareDigest 0).toNat * 2 ^ 128 + (Config.sha3 (s.blockBytes p)).toNat * 2 ^ 384 +
    nonce % 2 ^ 256 * 2 ^ 640 + p * 2 ^ 896

/-- The bytes that ATTEST writes: report, signature, zeros. -/
def State.attestBytes (s : State) (p nonce : Nat) : List Byte :=
  let rep := toBytes 128 (s.report p nonce)
  rep ++ (List.range 2420).map (Config.mlDsa (Config.sha3 (rep.map BitVec.toNat))) ++ List.replicate 12 0

/-- The bytes of a buffer that lie where their writes arrive: those beyond a link that is down are discarded (R430). -/
def State.bufferCells (s : State) (t : Thread) (ea : Nat) (bs : List Byte) : List Host.Cell :=
  (indexed bs).filterMap fun b => match s.translate t.xl .write (ea + b.1) with
    | .ok pa => if s.linkCut pa then none else some (pa, b.2)
    | .error _ => none

/-- Writes of a thread's bytes at every point of the system, some of them poisoned. -/
def State.writeBuffer (s : State) (t : Thread) (ea : Nat) (bs : List Byte) (bad : List Nat) : State :=
  let cells := s.bufferCells t ea bs
  let s0 := s.agentFill t.xl ea bs.length
  let s1 := if cells.length = bs.length then s0 else s0.logFree ((s.translate t.xl .write ea).toOption.getD 0) (some 5) t.place.core.die 2
  let r := s1.commitPub t.who cells (bad.filterMap fun b => (s.translate t.xl .write (ea + b)).toOption)
  r.2.observe t.id [r.1]

/-- What keeps the signing unit from writing a buffer: a fault or a lost line; a link that retrains. -/
def State.bufferErr (s : State) (t : Thread) (ea n : Nat) : Option AErr :=
  (pieces ea n).findSome? fun p => match s.agentAt t.xl .write p.1 with
    | .ok _ => none
    | .error (.cut _) => none
    | .error e => some e

/-- The signing unit serves an ATTEST whose nonce it has read; a nonce that is poisoned leaves the unit of the report that holds it
poisoned. -/
def State.sign (s : State) (x : Thread) (d : Opnd) (na bu : Nat) (r : ReadRes) : State :=
  let s1 := (((s.agentFill x.xl na 32).takeRead x.who r.wids).refresh x.who .system).onMd fun m => { m with signing := m.signing.drop 1 }
  let s2 := s1.writeBuffer x bu (s1.attestBytes x.place.part r.val) (if r.poison then [80] else [])
  let s3 := if r.poison then s2.cause x.id (poisonCause na 0) else s2
  (s3.wrSpan x true d [0]).onThread x.id Thread.pastWord

/-- The signing unit ends an ATTEST in a trap, or waits for a link. -/
def State.signFails (s : State) (x : Thread) (na bu : Nat) (e : AErr) : State :=
  match e.trap with
  | none => s
  | some f => (((s.agentFill x.xl na 32).agentFill x.xl bu 2560).onMd fun m => { m with signing := m.signing.drop 1 }).trapWaiting x 0 f.1 f.2

/-- ATTEST_COMPLETE (R394): the signing unit serves ATTESTs in the order of their arrival. -/
def execAttestComplete (t : Nat) (s : State) : Out :=
  .next (match s.thread t, s.md.signing with
    | some x, u :: rest =>
      match x.wait with
      | .attest d na bu =>
        if u != t then s
        else if Config.attestFuse 0 % 2 == 0 then
          ((s.onMd fun m => { m with signing := rest }).wrSpan x true d [2]).onThread t Thread.pastWord
        else match s.agentRead x.xl x.who .system na 32, s.bufferErr x bu 2560 with
          | .error e, _ => s.signFails x na bu e
          | .ok _, some e => s.signFails x na bu e
          | .ok r, none => s.sign x d na bu r
      | _ => s
    | _, _ => s)

end Sys2Proof.Machine
end

