-- ==== Sys2Proof/Machine/Compose.lean ====
section
/-!
DEFINITION. The issue composer (R36, R319, R320, R354) and the active and pending sets (R321 to R323): which threads are ready,
the set that a quadrant starts next, and what follows the issue of a word.
-/
namespace Sys2Proof.Machine

/-! ## What a word asks before it executes -/

/-- What the instruction of a word asks of a thread, as its meaning asks it (R34, R38, R57, R117, R138). -/
def State.askOf (s : State) (i : Instr) : Ask :=
  match i with
  | .ld .. | .ldv .. | .ldt .. => s.memAsk i .load false false
  | .lds .. => s.memAsk i .load true false
  | .st .. | .stv .. | .stt .. | .tagopEmpty .. | .tagopFull .. | .cwb .. => s.memAsk i .store false false
  | .atom _ x | .atomv _ x _ => s.memAsk i (atomForm x).ctr false false
  | .pref .. => s.memAsk i .none false false
  | .cinvIcache .. | .cinvDiscard .. => s.memAsk i .store false true
  | .smp _ d a _ _ _ _ stream => s.smpAsk i d a stream.val
  | .mxld h .. | .mxrun h .. | .mxz h .. | .mxst h .. | .mxlda h .. => s.mxAsk i h
  | .mxqryOcc .. | .mxqryEst .. | .spqry .. => queryAsk i
  | .cpyb .. => { Ask.of (useOf i) with deny := fun t => !(s.part t.place.part).btgrant.getLsbD 0 }
  | .cseal .. => sealAsk i
  | .fopen .. | .fst .. | .fseal .. | .fcomp .. | .finv .. | .frel .. | .fqry .. | .fqryAnc .. => fldAsk i .tile
  | .hld .. | .hres .. => fldAsk i .load
  | .spbegin h _ q => s.beginAsk i h q
  | .spview h .. | .spsub h .. | .spend h | .spendAbort h | .spbwd h .. | .spred h .. => s.splAsk i h
  | .arrive _ _ b => s.arriveAsk i b.val
  | .qpush _ q a _ => s.pushAsk i q.val a
  | .qpop h d q _ _ => s.popAsk i h q.val d false
  | .qtry h d q _ _ => s.popAsk i h q.val d true
  | .qclose _ q => s.closeAsk i q.val
  | .qqry _ _ q => s.qqryAsk i q.val
  | .tretResume _ (.kernelLocal _) | .tretSkip _ (.kernelLocal _) => Ask.inLocal (useOf i)
  | .tretResume .. | .tretSkip .. | .tretRetry .. | .tretFail .. | .tretKill .. | .tretAssist .. | .swr .. | .srdp .. | .tlbiVa ..
  | .tlbiAsid .. | .tlbiAll .. | .split .. | .attest .. | .ologrNext .. | .ologrOpnd .. => Ask.priv (useOf i)
  | _ => Ask.of (useOf i)

/-- The wait of a thread for a slot that is pending (R177). -/
def State.slotWait (s : State) (t : Thread) (ks : List Nat) : Option Wait :=
  if ks.any fun k => (s.slotOf t k).pending then some (.slots ks) else none

/-- What a history load waits for at issue: its slot, or the chain walker (R17, R177, R207). -/
def State.histWait (s : State) (t : Thread) (d : Opnd) (sl hops : Nat) (hres : Bool) : Option Wait :=
  match s.slotWait t [sl] with
  | some w => some w
  | none =>
    match s.histCheck t.place.part t.place.core.die sl hops t.place.budget hres d with
    | .error _ => none
    | .ok (_, n) => if !s.pending t (spanRefs (d, n)) && decide (64 ≤ s.walkerLoad t.place.core) then some .walker else none

/-- The wait of long latency that holds a thread at its instruction (R136, R177, R207, R321, R364). -/
def State.wordWait (s : State) (t : Thread) (i : Instr) : Option Wait :=
  match i with
  | .fst _ _ _ sl | .fseal _ sl | .finv _ sl => s.slotWait t [sl.val]
  | .fcomp _ _ src dst _ _ => s.slotWait t [src.val, dst.val]
  | .hld _ d _ sl hops _ _ => s.histWait t d sl.val hops.val false
  | .hres _ d _ sl hops _ _ => s.histWait t d sl.val hops.val true
  | .mxld .. | .mxrun .. | .mxz .. | .mxst .. | .mxlda .. => if s.engineBusy t then some .engine else none
  | .arrive _ _ b => if s.priorDone t b.val then none else some (s.priorWait t b.val)
  | _ => none

/-- A history load whose destination is that of an outstanding operation: a wait at issue that only its chain shows (R38, R207). -/
def State.histHeld (s : State) (t : Thread) (d : Opnd) (sl hops : Nat) (hres : Bool) : Bool :=
  match s.histCheck t.place.part t.place.core.die sl hops t.place.budget hres d with
  | .error _ => false
  | .ok (_, n) => s.pending t (spanRefs (d, n))

def State.wordHeld (s : State) (t : Thread) (i : Instr) : Bool :=
  match i with
  | .hld _ d _ sl hops _ _ => s.histHeld t d sl.val hops.val false
  | .hres _ d _ sl hops _ _ => s.histHeld t d sl.val hops.val true
  | _ => false

/-- How the next word of a thread stands to issue. -/
inductive Readiness where
  | ready
  /-- A wait at issue, or of the scoreboard: the group stays in the active set. -/
  | hold
  /-- A long-latency wait (R321). -/
  | long
  deriving DecidableEq, Repr

/-- The next word of a thread, as the thread stands when it has started. -/
def State.wordReady (s : State) (t : Thread) : Readiness :=
  match t.clause.words[t.idx]? with
  | none => .ready
  | some w =>
    match decodeWord (decide (64 ≤ t.place.core.core)) t.clause.cls w with
    | .ok i =>
      let f := s.fate i.guard (s.askOf i) t
      if f == .go then (if (s.wordWait t i).isSome then .long else if s.wordHeld t i then .hold else .ready)
      else if f == .hold then
        match i with
        | .arrive _ _ b => if s.priorDone t b.val then .hold else .long
        | _ => .hold
      else .ready
    | _ => .ready

/-! ## Readiness (R319, R321) -/

/-- A thread takes a cause where it would start (R400). -/
def Thread.hasDue (t : Thread) : Bool := !t.out.hits.isEmpty || (t.mode != .cont true && t.mode != .held && !t.out.causes.isEmpty)

/-- What the thread executes next: the words of a clause at a header, or at a continuation that fetches it again, and else those
that it has in hand. -/
def State.clauseAt (s : State) (t : Thread) : Clausal :=
  if t.mode == .header || t.mode == .cont true then (s.fetchClause t).1
  else .clause ⟨t.clause.cls, t.clause.words.length, 15, 15, 15, 15, t.clause.yld⟩ t.clause.words

/-- The thread as it stands at the first word that it would execute. -/
def Thread.begun (t : Thread) (h : Header) (ws : List Nat) : Thread :=
  let u := if t.mode == .header then t.pass.sees (h.wt != 15) (h.wc != 15) else t.pass
  { u with clause := ⟨h.cls, h.yld, ws⟩, pos := if t.pos.mid then t.pos else ⟨t.pos.hdr, t.pos.pc + 8, true⟩ }

/-- How a thread that may go on stands to issue (R319). -/
def State.readiness (s : State) (t : Thread) : Readiness :=
  if t.wait.short && !s.waitOver t then .hold
  else if !s.waitOver t then .long
  else match s.clauseAt t with
    | .trap _ _ => .ready
    | .held => .hold
    | .clause h ws =>
      if t.mode == .header && !t.ctr.meet h.wl h.ws h.wc h.wt then .long
      else if t.hasDue then .ready
      else s.wordReady (t.begun h ws)

/-- A thread is ready (R319); whether its group is active is another matter. -/
def State.ready (s : State) (t : Thread) : Bool := s.mayWake t && t.mode != .run && s.readiness t == .ready

/-- A thread is held by a long-latency wait (R321). -/
def State.longWait (s : State) (t : Thread) : Bool := t.stop.isNone && t.mode != .run && s.readiness t == .long

/-- A group is blocked (R321). -/
def State.blocked (s : State) (g : Nat) : Bool := (s.live g).all s.longWait

/-- A group has a ready thread (R322). -/
def State.groupReady (s : State) (g : Nat) : Bool := (s.live g).any s.ready

/-! ## The active set (R322) -/

/-- Blocked groups and groups with no live thread leave the active set, and the pending groups that became ready first take free
slots of it (R322). -/
def State.manage (s : State) (q : QuadId) : State :=
  let gs := s.groupsOn q
  let dead := s.wk.groups.filter fun g => g.core == q.core && g.quad == q.quad && g.active && !gs.any fun x => x.id == g.id
  let out := (gs.filter fun g => g.active && s.blocked g.id) ++ dead
  let s1 := out.foldl (fun s g => s.deactivate g.id) s
  let since := fun (g : Group) => g.rdyAt.getD (s.clock.toNat, s.tick)
  let wait := sortBy (fun (a b : Group) => decide ((since a).1 < (since b).1) || ((since a).1 == (since b).1 && decide ((since a).2 ≤ (since b).2)))
    (gs.filter fun g => !g.active && s.groupReady g.id)
  wait.foldl State.activate s1

/-- A group stands at a clause boundary for all of its threads (R322, R354). -/
def State.atBoundary (s : State) (g : Group) : Bool :=
  (s.live g.id).all fun t => t.mode == .header || t.mode == .cont false

/-- PENDING_TIMEOUT (R322): a pending group that has been ready for 2048 cycles takes the place of the active group that
entered earliest among those at a clause boundary for all of their threads. -/
def State.pendingTimeout (s : State) (grp : Nat) : State :=
  match s.group grp with
  | none => s
  | some g =>
    match g.rdyAt with
    | none => s
    | some at_ =>
      if g.active || !s.groupReady grp || decide (s.clock.toNat < at_.1 + 2048) then s
      else
        match argMin Group.entered ((s.groupsOn ⟨g.core, g.quad⟩).filter fun x => x.active && s.atBoundary x) with
        | none => s
        | some x => (s.deactivate x.id).activate g

/-! ## Composing an issue set (R319) -/

/-- The first group in a round of the slots, from the one after the slot named. -/
def inTurn (gs : List Group) (after : Option Nat) : Option Group :=
  let first := match after with
    | some n => n + 1
    | none => 0
  argMin (fun g => (g.slot + 8 - first % 8) % 8) gs

/-- The leading group of a quadrant: the next active group in turn with a ready thread, where another can lead none that has yielded
to a ready group (R36). -/
def State.leading (s : State) (q : QuadId) : Option Group :=
  let gs := (s.groupsOn q).filter fun g => g.active && s.groupReady g.id
  let free := gs.filter fun g => !g.yld.any fun y => gs.any fun x => x.id == y
  inTurn (if free.isEmpty then gs else free) ((s.wk.leads.find? fun x => x.1 == q).map Prod.snd)

/-- The thread that has waited longest; of those that have waited alike, that of the lower lane. -/
def longest (ts : List Thread) : Option Thread :=
  argMin (fun t => t.since * 256 + t.place.lane) ts

/-- Two threads can join: they execute the same words from the same place. -/
def State.joins (s : State) (t u : Thread) : Bool :=
  t.sameCode u && (match s.clauseAt t, s.clauseAt u with
    | .clause _ a, .clause _ b => a == b
    | .trap f a, .trap g b => f == g && a == b
    | _, _ => false)

/-- The threads that start next on a quadrant, in lane order: the leader, and the ready threads of the active set at its place, the
one that has waited longest on each lane; a thread held in the middle of a clause goes on alone. -/
def State.compose (s : State) (q : QuadId) : List Thread :=
  match s.leading q with
  | none => []
  | some g =>
    match longest ((s.live g.id).filter s.ready) with
    | none => []
    | some t =>
      if t.mode == .held then [t]
      else
        let act := fun (u : Thread) => match s.group u.place.grp with
          | some x => x.active
          | none => false
        let all := s.wk.threads.filter fun u => u.on q && u.mode != .held && s.ready u && act u && s.joins t u
        let best := fun (u : Thread) =>
          if u.place.lane == t.place.lane then u.id == t.id
          else (longest (all.filter fun x => x.place.lane == u.place.lane)).any fun x => x.id == u.id
        sortBy (fun a b => decide (a.place.lane ≤ b.place.lane)) (all.filter best)

/-! ## Continuing after a wait (R354) -/

/-- The threads of a set that wait after their word: those whose wait is over go on with the set, the others divide their clause. -/
def State.divide (s : State) (q : QuadId) : State :=
  let ts := ((s.setOf q).filterMap s.thread).filter fun t => t.mode == .cont false
  ts.foldl (fun s' t => if s'.mayIssue t then s'.onThread t.id fun x => { x.pass with mode := .run } else s'.leave t.id) s

/-- The threads named, when they are the set that the quadrant starts next, at a clause or inside one (R319). -/
def State.startable (s : State) (q : QuadId) (ts : List Nat) (cont : Bool) : Option (List Thread) :=
  let l := s.compose q
  if (s.setOf q).isEmpty && !l.isEmpty && l.map Thread.id == ts && l.all (fun t => t.pos.mid == cont) then some l else none

/-- The set of a quadrant as it stands before it issues or a set starts: divided, with the active set brought up to date. -/
def State.settleSet (s : State) (q : QuadId) : State := (s.divide q).manage q

/-! ## Starting (R319, R320, R400) -/

/-- The slot of the group that leads a start (R319). -/
def State.noteLead (s : State) (q : QuadId) : State :=
  match s.leading q with
  | none => s
  | some g => s.onWk fun w => { w with leads := (w.leads.filter fun x => x.1 != q) ++ [(q, g.slot)] }

/-- Threads that take a trap at the header of a clause that cannot be fetched or decoded (R59). -/
def State.trapStart (s : State) (ts : List Thread) (f : Flt) (a : Nat) (pc : Thread → Nat) : State :=
  ts.foldl (fun s' u => s'.trap u ⟨f.cause, f.reason, a, 0, false, pc u, u.pos, u.pos⟩) s

/-- CLAUSE_START (R319): the threads start the clause at which they stand; a trap of the header is theirs all (R59). -/
def State.startClause (s : State) (q : QuadId) (ts : List Nat) : State :=
  let s0 := s.settleSet q
  match s0.startable q ts false with
  | none => s0
  | some [] => s0
  | some (t :: l) =>
    let s1 := s0.noteLead q
    match s1.fetchClause t with
    | (.held, _) => s1
    | (.trap f a, s2) => s2.trapStart (t :: l) f a fun u => u.pos.pc.toNat
    | (.clause h ws, s2) =>
      let seen := (t :: l).map fun u => u.pass.sees (h.wt != 15) (h.wc != 15)
      let s3 := seen.foldl (fun s' u => s'.onThread u.id fun _ => u) s2
      let r := s3.takeDue seen true
      let s4 := r.1.countStart r.2 t.pos.pc
      let s5 := r.2.foldl (fun s' u => s'.onThread u.id fun x => x.start ⟨h.cls, h.yld, ws⟩ s.clock.toNat) s4
      s5.putSet q r.2

/-- A thread goes on in the middle of its clause: with the words fetched again after a trap or a pre-emption (R400, R412), and else
with those that it has. -/
def State.goOn (s : State) (u : Thread) : State :=
  let r := (s.onThread u.id fun _ => u.pass).takeDue [u.pass] (u.mode == .cont false)
  match r.2 with
  | [] => r.1
  | v :: _ =>
    if u.mode == .cont true then
      match r.1.fetchClause v with
      | (.held, _) => r.1
      | (.trap f a, s1) => s1.trapStart [v] f a fun x => x.pos.hdr.toNat
      | (.clause h ws, s1) => s1.onThread u.id fun x => x.start ⟨h.cls, h.yld, ws⟩ s.clock.toNat
    else r.1.onThread u.id fun x => { x with mode := .run, since := s.clock.toNat }

/-- CONTINUATION_START (R354): the threads go on inside their clause. A thread held at issue goes on alone (R319). -/
def State.startCont (s : State) (q : QuadId) (ts : List Nat) : State :=
  let s0 := s.settleSet q
  match s0.startable q ts true with
  | none => s0
  | some l =>
    let s1 := l.foldl State.goOn (s0.noteLead q)
    s1.putSet q (l.filter fun u => (s1.thread u.id).any fun x => x.mode == .run)

/-! ## After a word -/

/-- After the issue of a word: threads that left the clause leave the set, those that issued have issued now, and a yielding clause
that all of the set have ended gives way to the other ready groups of the active set (R36, R319). -/
def State.afterIssue (s : State) (q : QuadId) (before : List Thread) : State :=
  let stay := (s.setOf q).filter fun t => match s.thread t with
    | some x => x.mode == .run || x.mode == .cont false
    | none => false
  let s1 := s.onWk fun w => { w with
    sets := (w.sets.map fun x => if x.1 == q then (x.1, stay) else x).filter fun x => !x.2.isEmpty,
    threads := w.threads.map fun t => if before.any fun b => b.id == t.id then { t with since := s.clock.toNat } else t }
  if before.all s.executed && before.any fun t => t.clause.yld && t.idx + 1 == t.clause.words.length then
    s1.yieldGroups q (before.map fun t => t.place.grp)
  else s1

/-! ## The end of a step -/

/-- Threads that have become ready wait from now on (R319). -/
def State.noteReady (s : State) : State :=
  s.onWk fun w => { w with threads := w.threads.map fun t =>
    let r := t.mode == .run || s.ready t
    if r == t.rdy then t else { t with rdy := r, since := if r then s.clock.toNat else t.since } }

/-- Pending groups that have become ready, since now; and groups without a ready thread are preferred to none (R36, R322). -/
def State.noteGroups (s : State) : State :=
  s.onWk fun w => { w with groups := w.groups.map fun g =>
    let at_ := if !g.active && s.groupReady g.id then some (g.rdyAt.getD (s.clock.toNat, s.tick)) else none
    { g with rdyAt := at_, yld := g.yld.filter fun y => (s.live y).any fun t => t.mode == .run || s.ready t } }

/-- Pending groups whose wait has lasted 2048 cycles, longest first (R322). -/
def State.timedOut (s : State) : List Group :=
  sortBy (fun (a b : Group) => decide ((a.rdyAt.getD (0, 0)).1 ≤ (b.rdyAt.getD (0, 0)).1))
    (s.wk.groups.filter fun g => !g.active && g.rdyAt.any fun x => decide (x.1 + 2048 ≤ s.clock.toNat))

/-- The quadrants that hold groups. -/
def State.quadrants (s : State) : List QuadId := (s.wk.groups.map fun g => (⟨g.core, g.quad⟩ : QuadId)).eraseDups

/-- What the schedulers do at the end of a step: readiness, the active sets, and swaps that are due (R319, R322). -/
def State.reschedule (s : State) : State :=
  let s1 := s.noteReady.noteGroups
  let s2 := s1.quadrants.foldl State.manage s1
  s2.timedOut.foldl (fun s' g => s'.pendingTimeout g.id) s2

/-- The end of a step: accesses reach their vault words, drains that nothing asks for any more end, contexts without work are freed,
the schedulers act, and the memories stand in their canonical form. -/
def State.endStep (s : State) : State := s.arrivals.endDrains.freeCtxs.reschedule.tidy

/-! ## The next move, and the passing of time (log 1) -/

/-- Ready pending groups, but where every active group of their quadrant is held in the middle of a clause: they enter the active set
within 4096 cycles (R323). -/
def State.waited (s : State) : List Group := s.wk.groups.filter fun g => !g.active && g.rdyAt.isSome &&
  !(s.wk.groups.filter fun x => x.core == g.core && x.quad == g.quad && x.active).all fun x => (s.live x.id).any fun t => t.mode == .held

/-- The cycle to which time passes in place of a cycle named: not beyond 3072 cycles after a pending group became ready, so that the
words of the clauses in hand are left time to issue (R323, log 77). -/
def State.passTo (s : State) (n : Nat) : Nat :=
  match argMin (fun (g : Group) => (g.rdyAt.getD (0, 0)).1) s.waited with
  | none => n
  | some g => Nat.max s.clock.toNat (Nat.min n ((g.rdyAt.getD (0, 0)).1 + 3072))

/-- The cycle at which a quadrant issues: one word a cycle, and the quadrants of a core in rising order within a cycle (R116, R319). A
quadrant with a pending group to let in may pass the bound on time; another may not. -/
def State.issueAt (s : State) (q : QuadId) (n : Nat) : Option Nat :=
  let m := if s.wk.issued.any fun x => x.1 == q.core && x.2.1 == n && decide (q.quad ≤ x.2.2) then n + 1 else n
  if (s.waited.any fun g => g.core == q.core && g.quad == q.quad) || s.passTo m == m then some m else none

/-- Time passes to a cycle, and the step is counted. -/
def State.at (s : State) (l : List Stim) (n : Nat) : State :=
  { s with agenda := l, tick := s.tick + 1, clock := s.clock + BitVec.ofNat 64 (n - s.clock.toNat) }

/-- Takes the next move of the agenda: the cycles before it pass, and the tick counts on. With no move named, one cycle
passes. -/
def State.pick (s : State) : Option Move × State :=
  match s.agenda with
  | [] => (none, s.at [] (s.passTo (s.clock.toNat + 1)))
  | x :: l =>
    let n := s.passTo (s.clock.toNat + x.elapsed)
    match x.move with
    | .event i => (some (.event i), s.at l n)
    | .issue q =>
      match s.issueAt q n with
      | none => (none, s.at l n)
      | some m => (some (.issue q), (s.at l m).onWk fun w => { w with
          issued := (w.issued.filter fun y => y.1 != q.core) ++ [(q.core, m, q.quad)] })

/-! ## Meanings of the events -/

def execClauseStart (q : QuadId) (ts : List Nat) (s : State) : Out := .next (s.startClause q ts)
def execContinuationStart (q : QuadId) (ts : List Nat) (s : State) : Out := .next (s.startCont q ts)
def execPendingTimeout (grp : Nat) (s : State) : Out := .next (s.pendingTimeout grp)

end Sys2Proof.Machine
end

