-- ==== Sys2Proof/Machine/Coherence.lean ====
section
/-!
DEFINITION. The events of coherence (R260 to R275): requests, probes, acknowledgements and grants as they are sent and as they
arrive, drop notices and write-backs, rebuilt signatures, the directory, ownership of gathered writes, promotion. An event that
sends a message sends it while none like it is in flight, and delivers it otherwise, when the fabric's order lets it arrive.
-/
namespace Sys2Proof.Machine

/-! ## Requests (R262, R263, R272, R273) -/

/-- An access of a core, still to perform, needs a block in its L1: a cached load, or an atomic (R262, R378). -/
def State.wants (s : State) (c : CoreId) (blk : Nat) (own : Bool) : Bool :=
  s.ms.accs.any fun a => a.core == c && !a.vault && !a.performed &&
    (match a.kind with
      | .load _ _ _ => !own
      | .atomic _ _ _ _ _ => true
      | _ => false) &&
    match s.xlOf a with
    | none => false
    | some x => (s.touches a fun p => !p.done).any fun t => t.pa.any fun pa => rangesMeet pa t.len (64 * blk) 64 && !s.goesHome x t.ea pa

/-- HOME_READ_REQUEST (R262): a core that holds no copy of a block asks for one, or its request arrives. -/
def execHomeReadRequest (die blk : Nat) (c : CoreId) (s : State) : Out :=
  .next (
    if c.die != die then s
    else match s.next fun m => (match m with
      | .read d b x _ => d == die && b == blk && x == c
      | _ => false) with
    | some (.read d b x n) => (s.taken (.read d b x n)).queueReq die blk (.read c n)
    | _ =>
      if s.working c && s.homed blk && !s.asking c blk && (s.l1Of c blk).isNone && s.wants c blk false then s.ask c blk false else s)

/-- A core asks for ownership of a block that it may not write, unless it already asks. -/
def State.askOwn (s : State) (c : CoreId) (blk : Nat) : State :=
  if s.working c && s.homed blk && !s.asking c blk && !(s.l1Of c blk).any L1Blk.takesWrites then s.ask c blk true else s

/-- HOME_OWNERSHIP_REQUEST (R262, R272, R273): the request of a core arrives; or its gathered writes enter a block that it may
write, or reach their home; or it asks for ownership, for the gather buffer or for an atomic. -/
def execHomeOwnershipRequest (die blk : Nat) (c : CoreId) (s : State) : Out :=
  .next (
    if c.die != die then s
    else match s.next fun m => (match m with
      | .own d b x _ => d == die && b == blk && x == c
      | _ => false) with
    | some (.own d b x n) => (s.taken (.own d b x n)).queueReq die blk (.own c n)
    | _ =>
      let s1 := (s.drainHome c blk).drainGather c blk
      if !(s1.gathered c blk false).isEmpty || s1.wants c blk true then (s1.askOwn c blk).settle else s1.settle)

/-- The write-back of a core arrives (R262, R263): its data is in L2, and a probe that waits for it completes. -/
def State.wroteBack (s : State) (die blk : Nat) (c : CoreId) : State :=
  ((s.l2Data die blk c).homeTold c blk true).probeDone die blk fun p => p.core == c && p.pending

/-- A die's write-back arrives at the directory: a die that has given the block up holds it no more. -/
def State.dirWroteBack (s : State) (blk die : Nat) : State :=
  let e := s.dirOf blk
  let s1 := if e.st == .owned die && (s.home die blk).right == .none then s.putDir { e with st := .uncached } else s
  s1.recallDone blk fun p => p.1 == die && p.2.2

/-- HOME_WRITE_BACK (R262, R263): a core sends the write-back of a dirty block, or one on its way arrives, from a core or, to
the directory, from the die's slice. -/
def execHomeWriteBack (die blk : Nat) (c : CoreId) (s : State) : Out :=
  .next (
    if c.die != die then s
    else match s.next fun m => (match m with
      | .wback d b x => d == die && b == blk && x == c
      | .dwback b d => d == die && b == blk
      | _ => false) with
    | some (.wback d b x) => (s.taken (.wback d b x)).wroteBack die blk c
    | some (.dwback b d) => (s.taken (.dwback b d)).dirWroteBack b d
    | _ => match s.l1Of c blk with
      | some b => if b.dirty then s.evict b else s
      | none => s)

/-- DROP_NOTICE (R263): a core drops a clean block of S or E, or its notice arrives: it counts as the acknowledgement of a probe
of the block to that core, and an owner by that grant holds nothing. -/
def execDropNotice (die blk : Nat) (c : CoreId) (s : State) : Out :=
  .next (
    if c.die != die then s
    else match s.next fun m => (match m with
      | .drop d b x _ => d == die && b == blk && x == c
      | _ => false) with
    | some (.drop d b x n) =>
      let s1 := s.taken (.drop d b x n)
      let h := s1.home die blk
      let s2 := if h.owner == some c && h.st == .e then s1.putHome { h with st := .i, owner := none } else s1
      s2.probeDone die blk fun p => p.core == c
    | _ => match s.l1Of c blk with
      | some b => if b.dirty then s else s.evict b
      | none => s)

/-! ## Control messages (R263, R265 to R268, R274) -/

/-- A number is older than another, modulo 2^16 in a window of 2^15 (R263). -/
def older (a b : BitVec 16) : Bool :=
  let d := (b - a).toNat
  decide (1 ≤ d) && decide (d < 2 ^ 15)

/-- A grant made before a probe, to the same core, is still on its way: the probe waits for it (log 60). -/
def State.granting (s : State) (die blk : Nat) (c : CoreId) (seq : BitVec 16) : Bool :=
  s.inFlight fun m => match m with
    | .grant d b x n _ _ => d == die && b == blk && x == c && older n seq
    | _ => false

/-- A write-back of a block by a core is on its way. -/
def State.writingBack (s : State) (blk : Nat) (c : CoreId) : Bool :=
  s.inFlight fun m => match m with
    | .wback _ b x => b == blk && x == c
    | _ => false

/-- An invalidating probe acts at a core: every block with the probe's pair goes, and dirty ones other than the block itself,
whose data the acknowledgement carries, are written back (R265). -/
def State.invalidatePair (s : State) (blk : Nat) (c : CoreId) : State :=
  let hit := fun (b : L1Blk) => b.core == c && pairOf b.blk == pairOf blk
  let wbs := (s.co.l1.filter fun b => hit b && b.dirty && b.blk != blk).map fun b => Msg.wback c.die b.blk c
  s.onCo fun x => { x with l1 := x.l1.filter fun b => !hit b, msgs := x.msgs ++ wbs }

/-- A probe arrives at a core (R263, R265): a stale one changes nothing. -/
def State.probed (s : State) (die blk : Nat) (c : CoreId) (seq : BitVec 16) (inv : Bool) : State :=
  let b := s.l1Of c blk
  if b.any fun b => older seq b.seq then s.send (.ack die blk c seq .clean)
  else
    let kind : AckKind := if s.writingBack blk c then .pending else if b.any L1Blk.dirty then .data else .clean
    let s1 := if inv then s.invalidatePair blk c
      else s.onL1 c blk fun b => { b with st := if b.dirty then .o else .s, wr := false }
    s1.send (.ack die blk c seq kind)

/-- The directory's grant to a party is on its way. -/
def State.dirGranting (s : State) (blk who : Nat) (seq : BitVec 16) : Bool :=
  s.inFlight fun m => match m with
    | .dgrant b w n _ => b == blk && w == who && older n seq
    | _ => false

/-- A die's write-back of a block is on its way. -/
def State.dieWritingBack (s : State) (blk die : Nat) : Bool :=
  s.inFlight fun m => match m with
    | .dwback b d => b == blk && d == die
    | _ => false

/-- A recall arrives at a party (R267 to R269): a slice serves it among its requests; the host and a peer give up what they hold at
once. -/
def State.recallArrives (s : State) (blk who : Nat) (seq : BitVec 16) (inv : Bool) : State :=
  if who < 4 then
    if older seq (s.home who blk).dseq then s.send (.dack blk who seq .clean)
    else if s.dieWritingBack blk who then s.send (.dack blk who seq .pending)
    else s.queueRecall who blk seq inv
  else s.send (.dack blk who seq .clean)

/-- Links let messages reach a party of the directory: the host's or a peer's, while it is up and does not retrain (R268, R429). -/
def State.partyUp (s : State) (who : Nat) : Bool :=
  decide (who < 4) || !s.linkBusy (if who = 4 then 0 else portOf (who - 8))

/-- A promote message arrives (R274): the core asks for ownership of the blocks of every write that entered its gather buffer
before the named one; it acknowledges, and the message is over, once they have left the buffer. -/
def State.promoteAt (s : State) (m : Msg) (c : CoreId) (blk w acc : Nat) : State :=
  let ws := s.ms.writes.filter fun r => decide (r.id < w) && s.co.gather.any fun g => g.core == c && g.wid == r.id
  if ws.isEmpty then (s.taken m).send (.pack blk c acc)
  else ((ws.flatMap WriteRec.blks).eraseDups).foldl (fun s' b => ((s'.drainHome c b).drainGather c b).askOwn c b) s

/-- A slice takes a rebuilt signature: with the pairs of every grant for a later request (R266). -/
def State.rebuilt (s : State) (c : CoreId) (slice : Nat) (sig : BitVec 512) (n : Nat) : State :=
  let m := s.mirrorOf c slice
  let l := m.grants.filter fun g => decide (n < g.1)
  s.putMirror { m with bits := (l.map Prod.snd).foldl setPair sig, grants := l }

/-- A message of PROBE: a probe, a recall, a rebuilt signature. -/
def Msg.control : Msg → Bool
  | .probe _ _ _ _ _ => true
  | .recall _ _ _ _ => true
  | .rebuild _ _ _ _ => true
  | _ => false

/-- PROBE (R263, R265 to R268): the n-th control message in flight arrives, unless a grant made before it is still on its way. -/
def execProbe (n : Nat) (s : State) : Out :=
  .next (match s.nth Msg.control n with
    | some (.probe die blk c seq inv) =>
      if s.granting die blk c seq then s else (s.taken (.probe die blk c seq inv)).probed die blk c seq inv
    | some (.recall blk who seq inv) =>
      if s.dirGranting blk who seq || !s.partyUp who then s else (s.taken (.recall blk who seq inv)).recallArrives blk who seq inv
    | some (.rebuild c slice sig k) => (s.taken (.rebuild c slice sig k)).rebuilt c slice sig k
    | _ => s)

/-- PROMOTE (R274): the promote message that names write w arrives at a core. -/
def execPromote (c : CoreId) (w : Nat) (s : State) : Out :=
  .next (match s.next fun m => (match m with
      | .promote _ x r _ => x == c && r == w
      | _ => false) with
    | some (.promote b x r a) => (s.promoteAt (.promote b x r a) c b w a).settle
    | _ => s)

/-! ## Acknowledgements (R262, R263, R267, R274) -/

/-- An acknowledgement arrives at a home slice: "write-back pending" waits for a write-back that has not arrived; one with data
says that an owner of E has written; one of a probe already completed is discarded (R263). -/
def State.acked (s : State) (die blk : Nat) (c : CoreId) (seq : BitVec 16) (kind : AckKind) : State :=
  let h := s.home die blk
  let mine := fun (p : Probe) => p.core == c && p.seq == seq
  if !h.probes.any mine then s
  else match kind with
    | .pending =>
      if s.writingBack blk c then s.putHome { h with probes := h.probes.map fun p => if mine p then { p with pending := true } else p }
      else s.probeDone die blk mine
    | .data => (s.putHome { h with st := if h.st == .e then .m else h.st }).probeDone die blk mine
    | .clean => s.probeDone die blk mine

/-- An acknowledgement arrives at the directory. -/
def State.dacked (s : State) (blk who : Nat) (seq : BitVec 16) (kind : AckKind) : State :=
  let e := s.dirOf blk
  let mine := fun (p : Nat × BitVec 16 × Bool) => p.1 == who && p.2.1 == seq
  if kind == .pending && s.dieWritingBack blk who then
    s.putDir { e with probes := e.probes.map fun p => if mine p then (p.1, p.2.1, true) else p }
  else s.recallDone blk mine

/-- A message of PROBE_ACKNOWLEDGEMENT. -/
def Msg.ackLike : Msg → Bool
  | .ack _ _ _ _ _ => true
  | .dack _ _ _ _ => true
  | .pack _ _ _ => true
  | _ => false

/-- PROBE_ACKNOWLEDGEMENT (R262, R263, R267, R274): the n-th acknowledgement in flight arrives: at a slice, at the directory, or
for the acquire that waits for a promotion. -/
def execProbeAcknowledgement (n : Nat) (s : State) : Out :=
  .next (match s.nth Msg.ackLike n with
    | some (.ack die blk c seq kind) => (s.taken (.ack die blk c seq kind)).acked die blk c seq kind
    | some (.dack blk who seq kind) => if s.partyUp who then (s.taken (.dack blk who seq kind)).dacked blk who seq kind else s
    | some (.pack blk c acc) => (s.taken (.pack blk c acc)).onAccess acc fun a => { a with promo := some true }
    | _ => s)

/-! ## Grants (R262 to R264, R267) -/

/-- A grant arrives at a core: it holds the block by its number, with what the die's slice has, and sets its signature; gathered
writes enter a block that it may write. -/
def State.granted (s : State) (blk : Nat) (c : CoreId) (seq : BitVec 16) (st : Moesi) (wr : Bool) : State :=
  let g := s.sigOf c
  let s1 := ((s.l1Room c blk).dropL1 c blk).putSig { g with sig := setPair g.sig blk }
  let s2 := s1.onCo fun x => { x with l1 := x.l1 ++ [(⟨c, blk, seq, st, wr, s1.nextId⟩ : L1Blk)] }
  ((s2.copyView [.die c.die] [.core c] blk).drainGather c blk).settle

/-- The directory's grant arrives: a slice serves what waited for it, and the copies of the host and of peers are brought up to
date (R260, R267, R268). -/
def State.dirGranted (s : State) (blk who : Nat) (seq : BitVec 16) (own : Bool) : State :=
  let s1 := (s.copyView (s.dies.map Point.die) (partyPoints who) blk).settle
  if who < 4 then
    let h := s1.home who blk
    (s1.putHome { h with right := if own then .owned else .shared, dseq := seq }).serveAll who blk
  else s1

/-- A message of GRANT. -/
def Msg.grantLike : Msg → Bool
  | .grant _ _ _ _ _ _ => true
  | .dgrant _ _ _ _ => true
  | _ => false

/-- GRANT (R262 to R264, R267): the n-th grant in flight arrives. -/
def execGrant (n : Nat) (s : State) : Out :=
  .next (match s.nth Msg.grantLike n with
    | some (.grant die blk c seq st wr) => (s.taken (.grant die blk c seq st wr)).granted blk c seq st wr
    | some (.dgrant blk who seq own) => if s.partyUp who then (s.taken (.dgrant blk who seq own)).dirGranted blk who seq own else s
    | _ => s)

/-! ## Signatures (R266) -/

/-- Blocks for which a core has a request outstanding. -/
def State.asked (s : State) (c : CoreId) : List Nat :=
  ((s.co.homes.filter fun h => h.die == c.die).map HomeBlk.blk ++ s.co.msgs.filterMap fun m => match m with
    | .read _ b _ _ => some b
    | .own _ b _ _ => some b
    | .grant _ b _ _ _ _ => some b
    | _ => none).eraseDups.filter (s.asking c)

/-- SIGNATURE_REBUILD (R266): a signature with more than 320 bits set is computed again, and sent to the slices of the die with the
request count. -/
def execSignatureRebuild (c : CoreId) (s : State) : Out :=
  .next (
    let g := s.sigOf c
    if popCount 512 g.sig.toNat ≤ 320 then s
    else
      let x := (((s.co.l1.filter fun b => b.core == c).map L1Blk.blk) ++ s.asked c).foldl setPair 0
      (List.range 32).foldl (fun s' n => s'.send (.rebuild c n x g.reqs)) (s.putSig { g with sig := x }))

/-! ## The directory (R227, R267 to R269) -/

/-- Who may ask the directory: a die whose slice waits for more than it holds, the host over a link that is up, and, for a shared copy
alone, a peer that is present. -/
def State.mayAsk (s : State) (blk who : Nat) (own : Bool) : Bool :=
  if who < 4 then
    s.md.dies.getLsbD who && !s.md.failed.getLsbD who &&
      match (s.home who blk).reqs with
      | .read _ _ :: _ => (s.home who blk).right == .none && !own
      | .own _ _ :: _ => (s.home who blk).right != .owned && own
      | _ => false
  else if who = 4 then s.partyUp 4
  else decide (8 ≤ who) && !own && s.peerDevs.contains (who - 8)

/-- A party already asks the directory for a block. -/
def State.dirAsking (s : State) (blk who : Nat) : Bool :=
  ((s.dirOf blk).reqs.any fun r => r.1 == who) || s.inFlight fun m => match m with
    | .dreq b w _ => b == blk && w == who
    | .dgrant b w _ _ => b == blk && w == who
    | _ => false

/-- DIRECTORY_REQUEST (R227, R267 to R269): a party asks for a block, or its request arrives, and is served in order. -/
def execDirectoryRequest (blk who : Nat) (own : Bool) (s : State) : Out :=
  .next (
    if !s.homed blk then s
    else match s.next fun m => (match m with
      | .dreq b w o => b == blk && w == who && o == own
      | _ => false) with
    | some (.dreq b w o) =>
      if !s.partyUp who then s
      else
        let s1 := s.taken (.dreq b w o)
        let e := s1.dirOf blk
        (s1.putDir { e with reqs := e.reqs ++ [(who, own)] }).dirServeAll blk
    | _ => if s.mayAsk blk who own && !s.dirAsking blk who then s.send (.dreq blk who own) else s)

end Sys2Proof.Machine
end

