-- ==== Sys2Proof/Machine/Preempt.lean ====
section
/-!
DEFINITION. Pre-emption and partitions: the end of a drain (R416), context switches and restores (R412 to R415, R349 to R351), RUN
and HALT (R310, R387, R404, R417, R418), the halt of a partition and its image.
-/
namespace Sys2Proof.Machine

/-! ## Forced save (R416) -/

/-- Teams of a launch resident on listed cores. -/
def State.residentOn (s : State) (l : Nat) (cs : List CoreId) : List Team :=
  s.wk.teams.filter fun t => t.launch == l && !t.ended && !t.saved && cs.contains t.core

/-- The record of a forced save on a row (R398). -/
def savedRec (id : Nat) (q : CoreId) (ts : List Team) (pc launch : Nat) : Rec :=
  let mine := ts.filter fun t => quayOf t.core == q
  { id := id, quay := q, cause := 0x80, reason := 0, kind := 4, loc := false, entry := 0, core := ((mine.head?).map Team.core).getD q, lane := 0,
    pc := 0, addr := pc, info := mine.length % 2 ^ 16, party := .nobody, launch := launch }

/-- Saves teams of a launch by force. -/
def State.forceSave (s : State) (l : Launch) (ts : List Team) : State :=
  let ids := ts.map Team.id
  let sel := fun (t : Thread) => ids.contains t.place.team
  let s1 := ((s.withdraw sel).stopIssue sel).onWk fun w => { w with
    teams := w.teams.map fun t => if ids.contains t.id then { t with saved := true } else t }
  let rows := (ts.map fun t => quayOf t.core).eraseDups
  (rows.foldl (fun s' q => ({ s' with nextId := s'.nextId + 1 } : State).post (savedRec s'.nextId q ts l.blk.pc l.id)) s1).retireGangs

/-- The cores of a drain whose limit has passed. -/
def Drain.passed (d : Drain) (now : Nat) : List CoreId := (d.cores.filter fun c => decide (c.2 ≤ now)).map Prod.fst

/-- DRAIN_LIMIT_EXPIRY (R416): the teams that remain on the cores whose limit has passed. -/
def execDrainLimitExpiry (l : Nat) (s : State) : Out :=
  .next (match s.launch l with
    | none => s
    | some x => match x.drain with
      | none => s
      | some d =>
        let ts := s.residentOn l (d.passed s.clock.toNat)
        if ts.isEmpty then s else s.forceSave x ts)

/-! ## Restoring (R350, R351, R415) -/

/-- What waits to come back to a core of a partition, by rank: shadow contexts with teams, saved teams, gangs switched out. -/
def State.waitersOn (s : State) (p : Nat) (c : CoreId) : List Nat :=
  ((s.wk.teams.filter fun t => t.part == p && t.core == c && !t.ended &&
      (t.saved || (s.ctx t.ctx).any fun x => x.place != .running)).map fun t => s.rankOfLaunch t.launch) ++
    (s.wk.gangs.filter fun g => g.placed && !g.running && g.coreIds.contains c).map fun g => s.rankOfLaunch g.launch

/-- R415: no resident team of higher rank needs a core, and nothing of higher rank waits for it. -/
def State.mayReturn (s : State) (p rank : Nat) (c : CoreId) : Bool :=
  (s.part p).state == .running && !s.md.failed.getLsbD c.die && (s.holders p c).all (fun h => decide (s.rankOfLaunch h ≤ rank)) &&
    (s.waitersOn p c).all fun r => decide (r ≤ rank)

/-- Rank of the teams of a context. -/
def State.ctxRank (s : State) (cx : Nat) : Nat :=
  listMax ((s.wk.teams.filter fun t => t.ctx == cx && !t.ended).map fun t => s.rankOfLaunch t.launch)

/-- The gang, switched out, that a context holds, or whose cores' running context it is. -/
def State.gangAway (s : State) (c : Ctx) : Option Gang :=
  s.wk.gangs.find? fun g => g.placed && !g.running && (g.ctxs.contains c.id || (c.place == .running && g.coreIds.contains c.core)) &&
    (s.launch g.launch).any fun l => l.part == c.part

/-- Saved teams come back to their lanes, and what was withdrawn is issued again. -/
def State.unsave (s : State) (ids : List Nat) : State :=
  (s.onWk fun w => { w with teams := w.teams.map fun t => if ids.contains t.id then { t with saved := false } else t }).reissue
    fun t => ids.contains t.place.team

/-- A gang runs again: its cadence counter restarts from 0 (R350). -/
def State.rerunGang (s : State) (g : Gang) (ctxs : List Nat) : State :=
  ((s.onGang g.launch fun x => { x with running := true, stopping := false, ctxs := ctxs, cad0 := s.clock.toNat }).onLaunch g.launch
    fun l => { l with drain := none }).drainedCores g.launch

/-- How a gang that was switched out takes a core again (R316, R350): by a switch, to its context or to a new one where its own held
no team and is freed; in the running context, which holds nothing; or not yet. -/
inductive Regain where
  | switch (cx : Option Nat)
  | stay
  | wait
  deriving DecidableEq, Repr

def State.regain (s : State) (p : Nat) (g : Gang) (c : CoreId) : Regain :=
  let idle := (s.holders p c).isEmpty
  match s.en.ctxs.find? fun x => x.core == c && g.ctxs.contains x.id with
  | some x => if x.place != .running then .switch (some x.id) else if idle then .stay else .wait
  | none =>
    if (s.runCtx p c).isNone then .switch none
    else if idle then .stay
    else if (s.holders p c).any s.throughput then .wait
    else .switch none

/-- A core goes to a gang that returns. -/
def State.regained (s : State) (p : Nat) (c : CoreId) : Regain → State
  | .switch y => s.switchTo p c y
  | _ => s

/-- A gang returns to its die and its cores, all at once (R349, R350), with its groups that were saved. -/
def State.returnGang (s : State) (p : Nat) (g : Gang) : State :=
  let rs := g.coreIds.map fun c => (c, s.regain p g c)
  if !g.coreIds.all (s.mayReturn p (s.rankOfLaunch g.launch)) || rs.any (fun r => r.2 == .wait) then s
  else
    let s1 := rs.foldl (fun s' r => s'.regained p r.1 r.2) s
    let away := (s.wk.teams.filter fun t => t.launch == g.launch && t.saved && !t.ended).map Team.id
    (s1.unsave away).rerunGang g (g.coreIds.filterMap fun c => (s1.runCtx p c).map Ctx.id)

/-- Saved teams of the launch of highest rank on a core return where their quadrants have room (R316, R416). -/
def State.returnSaved (s : State) (c : Ctx) : State :=
  let away := s.wk.teams.filter fun t => t.ctx == c.id && t.saved && !t.ended
  match argMin (fun t => 16 - s.rankOfLaunch (Team.launch t)) away with
  | none => s
  | some t =>
    let mine := away.filter fun u => u.launch == t.launch
    let rank := s.rankOfLaunch t.launch
    let ld := loadOf (s.teamsIn c.id ++ mine)
    if s.mayReturn c.part rank c.core && (s.holders c.part c.core).all (fun h => s.rankOfLaunch h == rank) &&
        ld.all fun x => decide (x.regs ≤ 1024) && decide (x.sets ≤ 8) && decide (x.slots ≤ 64)
    then (s.unsave (mine.map Team.id)).onLaunch t.launch fun l => { l with drain := l.drain.bind fun d => d.without (· == c.core) }
    else s

/-- A context comes back: with its gang, by a switch, or with the saved teams of the running context (R415). -/
def State.comeBack (s : State) (cx : Nat) : State :=
  match s.ctx cx with
  | none => s
  | some c =>
    match s.gangAway c with
    | some g => s.returnGang c.part g
    | none =>
      if c.place == .running then s.returnSaved c
      else if s.mayReturn c.part (s.ctxRank cx) c.core then s.switchTo c.part c.core (some cx) else s

/-- CONTEXT_RESTORE (R415); a shadow context that holds nothing any more has been freed, and none comes back in its place (R316). -/
def execContextRestore (cx : Nat) (s : State) : Out := .next (s.freeCtxs.comeBack cx)

/-- The running partition that holds a core. -/
def State.partOf (s : State) (c : CoreId) : Option Nat := (List.range 16).find? fun p => (s.part p).state == .running && (s.part p).hasCore c

/-- The core is one that the launcher's next pre-emption takes by a switch alone (R315, R349). -/
def State.switchWanted (s : State) (p : Nat) (c : CoreId) : Bool :=
  match (s.waiting p).find? fun l => s.planActs (s.planOf l) with
  | none => false
  | some l => match s.planOf l with
    | .preempt _ _ ds => (ds.all fun d => d.2.isEmpty) && ds.any fun d => d.1 == c
    | _ => false

/-- SHADOW_CONTEXT_SWITCH (R414): to a shadow context that may return, or, pre-empted, to a new context. -/
def execShadowContextSwitch (c : CoreId) (cx : Option Nat) (s : State) : Out :=
  .next (match s.partOf c, cx with
    | some p, none => if s.switchWanted p c then s.takeCore p c else s
    | some _, some y => if (s.ctx y).any fun x => x.core == c && x.place != .running then s.freeCtxs.comeBack y else s
    | none, _ => s)

/-! ## Partitions: wiping and starting (R310, R387, R404) -/

/-- Threads of a partition. -/
def State.threadsOf (s : State) (p : Nat) : List Nat := (s.wk.threads.filter fun t => t.place.part == p).map Thread.id

/-- Everything that a partition holds is gone, but for its registers. -/
def State.wipe (s : State) (p : Nat) : State :=
  let ts := s.threadsOf p
  let mine := fun (t : Nat) => ts.contains t
  let ls := (s.wk.launches.filter fun l => l.part == p).map Launch.id
  let qs := (s.wk.quays.filter fun q => q.part == p).map Quay.core
  let tms := (s.wk.teams.filter fun t => t.part == p).map Team.id
  let cls := (s.wk.teams.filter fun t => t.part == p).map Team.cluster
  let cxs := (s.en.ctxs.filter fun c => c.part == p).flatMap fun c => c.passes.map Pass.id
  let s1 := s.onWk fun w => { w with
    threads := w.threads.filter fun t => !mine t.id,
    groups := w.groups.filter fun g => !tms.contains g.team,
    teams := w.teams.filter fun t => t.part != p,
    clusters := w.clusters.filter fun c => !cls.contains c.id,
    launches := w.launches.filter fun l => l.part != p,
    gangs := w.gangs.filter fun g => !ls.contains g.launch,
    arrivals := w.arrivals.filter fun a => !tms.contains a.team,
    bars := w.bars.filter fun b => !mine b.tid,
    sets := (w.sets.map fun x => (x.1, x.2.filter fun t => !mine t)).filter fun x => !x.2.isEmpty,
    quays := w.quays.filter fun q => q.part != p,
    recs := w.recs.filter fun r => !qs.contains r.quay }
  let s2 := s1.onEn fun e => { e with
    ctxs := e.ctxs.filter fun c => c.part != p,
    copies := e.copies.filter fun c => !mine c.tid,
    batches := e.batches.filter fun b => !mine b.tid,
    holders := e.holders.filter fun h => !cxs.contains h.2,
    fsts := e.fsts.filter fun f => f.part != p,
    walks := e.walks.filter fun w => w.part != p,
    fops := e.fops.filter fun f => f.part != p }
  let s3 := s2.onMs fun m => { m with
    oplog := m.oplog.filter fun o => !m.accs.any fun a => a.id == o.acc && mine a.tid,
    accs := m.accs.filter fun a => !mine a.tid,
    fences := m.fences.filter fun f => !mine f.tid,
    tlbis := m.tlbis.filter fun i => i.part != p,
    l1tlb := m.l1tlb.filter fun e => e.2.part != p,
    l2tlb := m.l2tlb.filter fun e => e.2.part != p }
  (s3.onMd fun m => { m with signing := m.signing.filter fun t => !mine t }).onPart p fun x => { x with
    hist := [], chans := x.chans.map fun c => { c with queue := [], code := 0, done := 0 } }

/-- Rows that a value of ROWS names. -/
def rowsOf (rows : Nat) : List (Nat × Nat) := ((List.range 32).filter fun i => rows / 2 ^ i % 2 = 1).map fun i => (i / 8, i % 8)

/-- The quay core of a row starts its thread (R404). What its special registers read beyond R54's list is log 69. -/
def State.startQuay (s : State) (p : Nat) (r : Nat × Nat) : State :=
  let c : CoreId := ⟨r.1, 64 + r.2⟩
  let x := s.part p
  let n := s.nextId
  let pl : Place := {
    core := c, quad := 0, lane := 0, team := n, grp := n + 1, grpid := 0, set := 0, member := 0, tx := 0, ty := 0, tz := 0,
    part := p, root := x.hroot.toNat, asid := x.hasid.toNat, priv := true, budget := 128, clp := ownCluster c }
  let tm : Team := { Team.single n 0 (n + 3) p c 0 128 with gx := 1 }
  ({ s with nextId := n + 4 } : State).onWk fun w => { w with
    threads := w.threads ++ [{ Thread.fresh (n + 2) pl 0x1000 with since := s.clock.toNat }],
    groups := w.groups ++ [Group.fresh (n + 1) n c 0 64],
    teams := w.teams ++ [tm],
    clusters := w.clusters ++ [⟨n + 3, c.die, c.core, 1, 1, [n], []⟩],
    quays := w.quays ++ [Quay.fresh c p (n + 2)] }

/-- A partition starts afresh. -/
def State.startPart (s : State) (p : Nat) : State :=
  let s1 := s.wipe p
  let rows := rowsOf (s1.part p).cfg.rows.toNat
  let dies := (rows.map Prod.fst).eraseDups
  let s2 := s1.onEn fun e => { e with fsts := e.fsts ++ dies.map fun d => (⟨p, d, []⟩ : Fst) }
  rows.foldl (fun s' r => s'.startQuay p r) s2

/-- Two ranges in 2 MiB units of window registers overlap. -/
def windowsMeet (a b : Dword) : Bool :=
  let lo := fun (w : Dword) => bitsOf w.toNat 23 0
  let hi := fun (w : Dword) => bitsOf w.toNat 55 32
  decide (lo a < hi b) && decide (lo b < hi a) && decide (lo a < hi a) && decide (lo b < hi b)

/-- A window overlaps a window of the firmware (R392); an empty one overlaps none. -/
def firmwareMeets (w : Dword) : Bool :=
  let lo := bitsOf w.toNat 23 0 * 2 ^ 21
  let hi := bitsOf w.toNat 55 32 * 2 ^ 21
  decide (lo < hi) && (List.range 4).any fun n =>
    decide (Config.firmwareWindow (2 * n) < Config.firmwareWindow (2 * n + 1)) && decide (lo < Config.firmwareWindow (2 * n + 1)) &&
      decide (Config.firmwareWindow (2 * n) < hi)

/-- The ASID windows of two partitions overlap. -/
def asidsMeet (a b : Part) : Bool :=
  let lo := fun (x : Part) => bitsOf x.cfg.asidw.toNat 15 0
  let hi := fun (x : Part) => lo x + bitsOf x.cfg.asidw.toNat 31 16
  decide (lo a ≤ hi b) && decide (lo b ≤ hi a)

/-- A RUN is refused (R387, R418). -/
def State.runRefused (s : State) (p : Nat) : Bool :=
  let x := s.part p
  let others := ((List.range 16).filter fun q => q != p && (s.part q).state != .stopped).map s.part
  let rows := x.cfg.rows.toNat % 2 ^ 32
  rows == 0 || others.any (fun o => o.cfg.rows.toNat &&& rows != 0) ||
    (rowsOf rows).any (fun r => !s.md.dies.getLsbD r.1 || s.md.failed.getLsbD r.1) ||
    x.cfg.ways == 0 ||
    x.cfg.hbmw.toList.any (fun w => firmwareMeets w || others.any fun o => o.cfg.hbmw.toList.any (windowsMeet w)) ||
    others.any (asidsMeet x) ||
    !x.inHbmw x.hroot.toNat || !(x.hasid :: x.asasid.toList).all (fun a => x.hasAsid a.toNat) ||
    (match x.image with
      | some i => i.cfg.rows != x.cfg.rows || i.cfg.hbmw != x.cfg.hbmw
      | none => false)

/-- Vault ranges of a partition's allocations and berths (R417). -/
def State.vaultRanges (s : State) (p : Nat) : List (Nat × Nat) :=
  ((s.wk.teams.filter fun t => t.part == p && !t.ended && t.vlen != 0).map fun t => (t.vbase, t.vlen)) ++
    (s.wk.gangs.filter fun g => g.placed && (s.launch g.launch).any fun l => l.part == p).flatMap fun g =>
      g.queues.map fun q => (berthKey g q.entry 0, quBerths q.entry * quSize q.entry)

/-- A key lies in listed ranges. -/
def inRanges (rs : List (Nat × Nat)) (k : Nat) : Bool := rs.any fun r => decide (r.1 ≤ k) && decide (k < r.1 + r.2)

/-- The units of passes are taken again where none of a pass's is held; another pass takes its units as its next operation runs (R146,
R418). -/
def State.retakeUnits (s : State) (us : List (CoreId × Nat)) : State :=
  ((us.map Prod.snd).eraseDups).foldl (fun s' p =>
    let mine := us.filter fun u => u.2 == p
    if mine.any fun u => s'.held u.1 then s' else s'.onEn fun e => { e with holders := e.holders ++ mine }) s

/-- The cadence counters of a partition's gangs restart (R350). -/
def State.restartCadence (s : State) (p : Nat) : State :=
  s.onWk fun w => { w with gangs := w.gangs.map fun g =>
    if g.running && (s.launch g.launch).any fun l => l.part == p then { g with cad0 := s.clock.toNat } else g }

/-- The image of a partition comes back (R418). -/
def State.restoreImage (s : State) (p : Nat) (i : Image) : State :=
  let rs := s.vaultRanges p
  let s1 := s.onMs fun m => { m with
    vault := Memory.writes (m.vault.filter fun c => !inRanges rs c.1) i.vault,
    tags := (m.tags.filter fun k => !inRanges rs k) ++ i.tags,
    vpoison := (m.vpoison.filter fun k => !inRanges rs k) ++ i.bad,
    oplog := m.oplog ++ i.oplog }
  let s2 := ((s1.retakeUnits i.units).restartCadence p).onWk fun w => { w with quays := w.quays ++ i.quays, recs := w.recs ++ i.recs }
  let s3 := s2.onPart p fun x => { x with state := .running, image := none }
  let run := fun (t : Thread) => t.place.part == p && (s3.team t.place.team).any fun tm => !tm.saved && (s3.ctx tm.ctx).any fun c => c.place == .running
  (i.quays.map Quay.core).foldl State.giveRecord (s3.reissue run)

/-- RUN = 1 written to a partition (R387, R418). -/
def State.runPart (s : State) (p : Nat) : State :=
  if s.unbooted || s.linkBusy 0 || decide (16 ≤ p) then s
  else
    let s0 := s.onPart p fun x => { x with run := true }
    if (s0.part p).state != .stopped then s0
    else if s0.runRefused p then s0.onPart p fun x => { x with cfgerr := true }
    else
      let s1 := s0.onPart p fun x => { x with cfgerr := false, errAtRun := x.lockerr }
      match (s1.part p).image with
      | some i => s1.restoreImage p i
      | none => (s1.startPart p).onPart p fun x => { x with state := .running }

/-- RUN. -/
def execRun (p : Nat) (s : State) : Out := .next (s.runPart p)

/-- HALT = 1 written to a partition (R310, R417, R418). -/
def State.haltPart (s : State) (p : Nat) : State :=
  if s.unbooted || s.linkBusy 0 || decide (16 ≤ p) then s
  else
    let s0 := s.onPart p fun x => { x with run := false }
    match (s0.part p).state with
    | .running => s0.beginHalt p
    | .halting => s0
    | .stopped => if (s0.part p).image.isSome then (s0.wipe p).onPart p fun x => { x with image := none } else s0

/-- HALT. -/
def execHalt (p : Nat) (s : State) : Out := .next (s.haltPart p)

/-! ## Halted (R417) -/

/-- A quay core has stopped: it waits at OLOGR.NEXT, or its thread has trapped or ended. -/
def State.quayStopped (s : State) (q : Quay) : Bool :=
  match s.thread q.tid with
  | none => true
  | some t => t.exited || t.stop.isSome || (match t.wait with
    | .record _ => true
    | _ => false)

/-- An access that can still perform keeps its partition from being halted, and so does a record on its way to registers; one that is
withdrawn, that waits at a fault, or that stands behind such a one, cannot perform. -/
def State.accessOpen (s : State) (a : Access) : Bool :=
  match a.kind with
  | .pref => false
  | .record _ _ _ => true
  | _ => !(a.withdrawn || a.parts.any fun p => p.stalled) && (a.performed || (s.ordered a && s.tagsOk a))

/-- The cores of a partition are halted. -/
def State.isHalted (s : State) (p : Nat) : Bool :=
  let ts := s.threadsOf p
  !s.workLeft p && (s.wk.quays.all fun q => q.part != p || s.quayStopped q) && !s.ms.accs.any (fun a => ts.contains a.tid && s.accessOpen a) &&
    s.ms.tlbis.all fun i => i.part != p

/-- The image of a partition, as it is saved. -/
def State.takeImage (s : State) (p : Nat) : Image :=
  let ts := s.threadsOf p
  let rs := s.vaultRanges p
  let ps := (s.en.ctxs.filter fun c => c.part == p).flatMap fun c => c.passes.map Pass.id
  let qs := s.wk.quays.filter fun q => q.part == p
  { cfg := (s.part p).cfg,
    units := s.en.holders.filter fun h => ps.contains h.2,
    quays := qs,
    recs := s.wk.recs.filter fun r => qs.any fun q => q.core == r.quay,
    oplog := s.ms.oplog.filter fun o => s.ms.accs.any fun a => a.id == o.acc && ts.contains a.tid,
    vault := s.ms.vault.filter fun c => inRanges rs c.1,
    tags := s.ms.tags.filter (inRanges rs),
    bad := s.ms.vpoison.filter (inRanges rs) }

/-- Dirty lines of a partition's memory are written back to HBM (R417). -/
def State.cleanPart (s : State) (p : Nat) : State :=
  let mine := fun (b : Nat) => (s.part p).inHbmw (64 * b)
  let s1 := (s.co.l1.filter fun b => b.dirty && mine b.blk).foldl (fun s' b => s'.cleanBlk b.core b.blk false) s
  s1.onCo fun c => { c with l2 := c.l2.map fun l => if mine (2 * l.line) then { l with dirty := 0 } else l }

/-- The cores are halted: walks that have parked meanwhile are discarded, dirty lines written back, every translation of the partition
invalidated (R417 steps 2 and 4). -/
def State.halted (s : State) (p : Nat) : State :=
  ((s.withdraw fun t => t.place.part == p && decide (t.place.core.core < 64)).cleanPart p).onMs fun m => { m with
    l1tlb := m.l1tlb.filter fun e => e.2.part != p, l2tlb := m.l2tlb.filter fun e => e.2.part != p }

/-- PARTITION_HALTED (R417): the image is saved, the units of open passes freed, STATE 0. -/
def execPartitionHalted (p : Nat) (s : State) : Out :=
  .next (
    if (s.part p).state != .halting || !s.isHalted p then s
    else
      let s0 := s.halted p
      let i := s0.takeImage p
      let s1 := (s0.onPart p fun x => { x with state := .stopped, image := some i }).onWk fun w => { w with
        quays := w.quays.filter fun q => q.part != p, recs := w.recs.filter fun r => !i.recs.any fun x => x.id == r.id }
      (s1.onEn fun e => { e with holders := e.holders.filter fun h => !i.units.contains h }).onMs fun m => { m with
        oplog := m.oplog.filter fun o => !i.oplog.contains o })

end Sys2Proof.Machine
end

