-- ==== Sys2Proof/Machine/HostEv.lean ====
section
/-!
DEFINITION. What reaches the module from outside: the configuration window as the host reads and writes it (R308, R386, R393,
R435), the power limit (R386, R392), reset and boot (R393), accesses of the host and of peers (R227, R269), and firmware's
writes of memory (R392).
-/
namespace Sys2Proof.Machine

/-! ## The configuration window, read (R308, R386, R393, R435, R436) -/

/-- PCTL (R386). -/
def Part.pctl (p : Part) : Nat :=
  (if p.run then 1 else 0) + (if p.cfgerr then 4 else 0) + (if p.lockerr then 8 else 0) +
    16 * match p.state with
      | .stopped => 0
      | .running => 1
      | .halting => 2

/-- STATUS of a channel (R308). -/
def Chan.status (c : Chan) : Nat := c.queue.length + (if c.ovf then 2 ^ 7 else 0) + c.done % 2 ^ 16 * 2 ^ 16 + c.code % 2 ^ 8 * 2 ^ 32

/-- A doubleword of an entry of the error log (R435). -/
def LogEntry.dword (e : LogEntry) (k : Nat) : Nat :=
  if k = 0 then e.cause.toNat + e.sev.toNat * 2 ^ 8 + e.die.toNat * 2 ^ 10 + e.place.toNat * 2 ^ 12
  else if k = 2 then e.addr.toNat
  else if k = 3 then e.time.toNat
  else 0

/-- AGEd (R436). -/
def Age.dword (a : Age) : Nat := a.state.toNat + a.margin.toNat * 4 + a.hours.toNat * 2 ^ 32

/-- A doubleword of a launch channel's window (R308). -/
def Chan.dword (c : Chan) (o : Nat) : Nat := if o < 0x80 then bitsOf c.blk (8 * o + 63) (8 * o) else if o = 0x88 then c.status else 0

/-- A doubleword of a partition block (R386). -/
def Part.dword (p : Part) (o : Nat) : Nat :=
  if o = 0 then p.pctl
  else if o = 0x08 then p.cfg.rows.toNat
  else if o = 0x10 then p.cfg.asidw.toNat
  else if o = 0x18 then p.cfg.ways.toNat
  else if o = 0x40 then p.cfg.links.toNat
  else if o = 0x48 then p.cfg.fwgrant.toNat
  else if o = 0x50 then p.btgrant.toNat
  else if o = 0x58 then p.hroot.toNat
  else if o = 0x60 then p.hasid.toNat
  else if 0x20 ≤ o ∧ o < 0x40 then (p.cfg.hbmw.toList.getD ((o - 0x20) / 8) 0).toNat
  else if 0x80 ≤ o ∧ o < 0xC0 then (p.asroot.toList.getD ((o - 0x80) / 8) 0).toNat
  else if 0xC0 ≤ o ∧ o < 0x100 then (p.asasid.toList.getD ((o - 0xC0) / 8) 0).toNat
  else if 0x800 ≤ o then (p.chans.getD ((o - 0x800) / 256) Chan.reset).dword (o % 256)
  else 0

/-- Eight bytes of a table of bytes that the implementation fixes, within its length. -/
def fixedDword (f : Nat → BitVec 8) (len o : Nat) : Nat := ofBytes ((List.range 8).map fun i => if o + i < len then f (o + i) else 0)

/-- Eight bytes of the configuration window as the host reads them; a module that did not boot answers with the identity word
and BOOTST alone (R386, R393). -/
def State.configRead (s : State) (o : Nat) : Option Nat :=
  if o = 0 then some s.identity
  else if o = 8 then some s.md.bootst.toNat
  else if s.unbooted then none
  else if o = 0x10 then some s.md.plimit
  else if o = 0x100 then some s.md.errsum.toNat
  else if o = 0x108 then some s.md.errhead.toNat
  else if 0x200 ≤ o ∧ o < 0x220 then some ((s.md.ages.getD ((o - 0x200) / 8) ⟨0, 0, 0⟩).dword)
  else if 0x1000 ≤ o ∧ o < 0x2000 then
    some (((s.md.errlog.find? fun e => e.1 == (o - 0x1000) / 32).map fun e => e.2.dword (o / 8 % 4)).getD 0)
  else if 0x10000 ≤ o ∧ o < 0x20000 then some ((s.part ((o - 0x10000) / 0x1000)).dword (o % 0x1000))
  else if 0x30000 ≤ o ∧ o < 0x30520 then some (fixedDword Config.attestKey 1312 (o - 0x30000))
  else if 0x30800 ≤ o ∧ o < 0x31800 then some (fixedDword Config.certificate 4096 (o - 0x30800))
  else some 0

/-! ## The power limit (R386, R392) -/

/-- PLIMIT: the host sets it, larger values read as 1800, and what a value below 100 gives is free; firmware lowers its own limit,
and never raises it. -/
def State.setLimit (s : State) (host : Bool) (w : Nat) : State :=
  if s.unbooted then s
  else if !host then s.onMd fun m => { m with fwlimit := Nat.min m.fwlimit w }
  else if s.linkBusy 0 then s
  else if w < 100 then let q := s.draw; q.2.onMd fun m => { m with plimit := 100 + q.1 % 1701 }
  else s.onMd fun m => { m with plimit := Nat.min w 1800 }

/-- PLIMIT. -/
def execPlimit (host : Bool) (w : Nat) (s : State) : Out := .next (s.setLimit host w)

/-! ## The configuration window, written (R308, R386, R387, R389) -/

/-- A write to a locked field, discarded with LOCKERR unless STATE is 0 (R387). -/
def Part.lockedWrite (p : Part) (f : Locked → Locked) : Part :=
  if p.state == .stopped then { p with cfg := f p.cfg } else { p with lockerr := true }

/-- A window register: base and limit, reserved bits 0 (R386). -/
def windowVal (v : Dword) : Dword := BitVec.ofNat 64 (bitsOf v.toNat 23 0 + bitsOf v.toNat 55 32 * 2 ^ 32)

/-- Quay cores of a partition translate through its new handler address space (R376). -/
def State.syncQuays (s : State) (p : Nat) : State :=
  let x := s.part p
  s.onWk fun w => { w with threads := w.threads.map fun t =>
    if t.place.part == p && t.place.priv then { t with place := { t.place with root := x.hroot.toNat, asid := x.hasid.toNat } } else t }

/-- A write of eight bytes of a channel's launch block (R308). -/
def Chan.put (c : Chan) (o : Nat) (v : Dword) : Chan :=
  { c with blk := c.blk - bitsOf c.blk (8 * o + 63) (8 * o) * 2 ^ (8 * o) + v.toNat * 2 ^ (8 * o) }

/-- A write of a partition block (R386, R387). -/
def State.blockWrite (s : State) (p o : Nat) (v : Dword) : State :=
  let low := fun (n : Nat) => BitVec.ofNat 64 (v.toNat % 2 ^ n)
  let locked := fun (f : Locked → Locked) => s.onPart p fun x => x.lockedWrite f
  if o = 0 then (if v.getLsbD 1 then s.haltPart p else if v.getLsbD 0 then s.runPart p else s.onPart p fun x => { x with run := false })
  else if o = 0x08 then locked fun c => { c with rows := low 32 }
  else if o = 0x10 then locked fun c => { c with asidw := low 32 }
  else if o = 0x18 then locked fun c => { c with ways := low 16 }
  else if o = 0x40 then locked fun c => { c with links := low 2 }
  else if o = 0x48 then locked fun c => { c with fwgrant := windowVal v }
  else if o = 0x50 then s.onPart p fun x => { x with btgrant := low 1 }
  else if o = 0x58 then (s.onPart p fun x => { x with hroot := BitVec.ofNat 64 (bitsOf v.toNat 51 12 * 4096) }).syncQuays p
  else if o = 0x60 then (s.onPart p fun x => { x with hasid := low 16 }).syncQuays p
  else if 0x20 ≤ o ∧ o < 0x40 then locked fun c => { c with hbmw := c.hbmw.setIfInBounds ((o - 0x20) / 8) (windowVal v) }
  else if 0x80 ≤ o ∧ o < 0xC0 then
    s.onPart p fun x => { x with asroot := x.asroot.setIfInBounds ((o - 0x80) / 8) (BitVec.ofNat 64 (bitsOf v.toNat 51 12 * 4096)) }
  else if 0xC0 ≤ o ∧ o < 0x100 then s.onPart p fun x => { x with asasid := x.asasid.setIfInBounds ((o - 0xC0) / 8) (low 16) }
  else if 0x800 ≤ o then
    (if o % 256 < 0x80 then s.onChan p ((o - 0x800) / 256) fun c => c.put (o % 256) v
    else if o % 256 = 0x80 then s.ring p ((o - 0x800) / 256)
    else s)
  else s

/-- A write of the configuration window, which a link that is down or retrains does not carry (R429, R430). -/
def State.configWrite (s : State) (o : Nat) (v : Dword) : State :=
  if s.unbooted || s.linkBusy 0 || o % 8 != 0 then s
  else if o = 0x10 then s.setLimit true (v.toNat % 2 ^ 16)
  else if 0x10000 ≤ o ∧ o < 0x20000 then s.blockWrite ((o - 0x10000) / 0x1000) (o % 0x1000) v
  else s

/-- CONFIG_REGISTER_WRITE. -/
def execConfigRegisterWrite (ofs : Nat) (val : Dword) (s : State) : Out := .next (s.configWrite ofs val)

/-! ## Reset (R393) -/

/-- What lies beyond the module outlives its reset: memory of peers and of the host, the peers present; the model's own fields go
on counting. -/
def State.afterReset (s : State) : State :=
  let r := State.reset
  { r with
    tick := s.tick, free := s.free, nextId := s.nextId, agenda := s.agenda,
    md := { r.md with peers := s.md.peers },
    ms := { r.ms with mem := s.ms.mem.filter fun c => decide (2 ^ 48 ≤ c.1) } }

/-- The step of the boot that fails, 0 for none (R393): an image whose rollback version lies below the fused counter fails step 4, unless
an earlier step has failed. -/
def bootFail (fail : Nat) (rbver : Word) : Nat :=
  if (fail = 0 ∨ fail = 5) ∧ rbver.toNat < (Config.rollbackFuse 0).toNat then 4 else fail

/-- RESET (R393): the boot ROM's steps, of which one may fail; then the dies boot. `fail` names the step: 0 none, 1 to 5 the step that
fails; 6 and 7 show the module on its way, at STAGE 0 in the ROM and at STAGE 1 while it verifies. After a boot that fails, and before
step 5, no die has booted, and DIES reads 0; BOOTST then shows no running image, and RBVER 0 (log 70). -/
def execReset (fail : Nat) (dies : BitVec 4) (rbver : Word) (s : State) : Out :=
  .next (
    if 8 ≤ fail then s
    else s.afterReset.onMd fun m =>
      match bootFail fail rbver with
      | 0 => { m with bootst := BitVec.ofNat 64 (rbver.toNat * 2 ^ 32 + 2), dies := dies }
      | 6 => { m with bootst := 0, dies := 0 }
      | 7 => { m with bootst := 1, dies := 0 }
      | n => { m with bootst := BitVec.ofNat 64 (n * 2 ^ 8 + 0xF), dies := 0 })

/-! ## The host and peers (R227, R268, R269) -/

/-- A party beyond the module, as a reader and writer: it is no thread, and stands at no point of the dies. -/
def outsider (who : Nat) : Who := ⟨0, ⟨4 + who, 0⟩, ownCluster ⟨4 + who, 0⟩⟩

/-- The party of the directory that the host (64) or a device is. -/
def partyNo (who : Nat) : Nat := if who = 64 then 4 else who + 8

/-- An access of a party reaches bytes of memory: its link, and that of the memory, carry traffic, and no line is lost. -/
def State.reaches (s : State) (who pa n : Nat) : Bool :=
  !s.unbooted && decide (0 < n) && s.inMap pa && s.inMap (pa + n - 1) && (s.lostIn pa n).isNone &&
    (if who = 64 then isHost pa || (!s.linkBusy 0 && !s.linkHeld pa)
    else decide (who < 64) && s.md.peers.getLsbD who && !s.md.cut.getLsbD who && !s.linkBusy (portOf who) && !s.linkHeld pa)

/-- The host holds a block in E or M: the directory has granted it, and no recall has taken it back (R268). -/
def State.hostOwns (s : State) (blk : Nat) : Bool :=
  let e := s.dirOf blk
  e.st == .owned 4 && !(e.probes.any fun p => p.1 == 4) && !s.inFlight fun m => match m with
    | .dgrant b w _ _ => b == blk && w == 4
    | _ => false

/-- A party may write bytes of the module's memory: the host in its own copy, a peer at the home (R268, R269). -/
def State.partyMayWrite (s : State) (who pa n : Nat) : Bool :=
  !s.inHbm pa || (if who = 64 then (blksOf pa n).all s.hostOwns else s.homeReady pa n)

/-- A party has received data, marked poisoned or not (R426). -/
def State.receive (s : State) (who pa : Nat) (r : ReadRes) : State :=
  s.onMd fun m => { m with
    received := (m.received.filter fun x => x.1 != who) ++ [(who, pa, r.bytes, r.poison)],
    hostObs := if who = 64 then m.hostObs ++ r.wids.filter fun i => !m.hostObs.contains i else m.hostObs }

/-- A party writes bytes: every other copy of the module's memory has been taken back, and the write stands at every point of the
system beyond the cores (R260); the host joins the write to what it has observed. -/
def State.partyWrite (s : State) (who pa : Nat) (bs : List Byte) : State :=
  let home := s.inHbm pa
  let s1 := if home && who != 64 then (blksOf pa bs.length).foldl State.dirTake s else s
  let r := s1.commit (outsider who) 0 none (cellsAt pa bs) [] (if home then s.systemPoints else if who = 64 then [.host] else [])
  (if who = 64 then r.2.onMd fun m => { m with hostObs := m.hostObs ++ [r.1] } else r.2).settle

/-- A party reads what its points hold (R227). -/
def State.partyRead (s : State) (who pa n : Nat) : State := s.receive who pa (s.readBy (s.latest (partyPoints (partyNo who))) pa n)

/-- The operation of a code of R244. -/
def aopOf (n : Nat) : Option AOp :=
  ([.add, .and, .or, .xor, .minS, .minZ, .maxS, .maxZ, .xchg, .cas, .inc, .dec, .fadd, .fmin, .fmax] : List AOp)[n]?

/-- An atomic of a party: it reads the last write and writes in one step; one that reads poison performs nothing (R245, R248). -/
def State.partyAtomic (s : State) (who pa : Nat) (op : AOp) (b64 : Bool) (b c : Nat) : State :=
  let n := if b64 then 8 else 4
  let r := s.readLast pa n
  let s1 := s.receive who pa r
  if r.poison then s1
  else match (atomicNew op b64 r.val (b % 2 ^ (8 * n)) (c % 2 ^ (8 * n))).1 with
    | some v => s1.partyWrite who pa (toBytes n v)
    | none => s1

/-- PEER_ACCESS (R227, R269, R272). -/
def execPeerAccess (who : Nat) (op : PeerOp) (pa : Nat) (s : State) : Out :=
  .next (match op with
    | .read n => if s.reaches who pa n then s.partyRead who pa n else s
    | .write bs => if s.reaches who pa bs.length && s.partyMayWrite who pa bs.length then s.partyWrite who pa bs else s
    | .atomic o b64 b c =>
      let n := if b64 then 8 else 4
      match aopOf o with
      | some x => if s.reaches who pa n && pa % n == 0 && s.partyMayWrite who pa n then s.partyAtomic who pa x b64 b c else s
      | none => s)

/-! ## Firmware's writes (R392) -/

/-- A byte that firmware may not write: in a window of a partition that is not stopped, and outside its FWGRANT. -/
def State.fenced (s : State) (pa : Nat) : Bool :=
  (List.range 16).any fun p =>
    let x := s.part p
    x.state != .stopped && x.inHbmw pa && !inWindow x.cfg.fwgrant pa

/-- FIRMWARE_MEMORY_WRITE (R392): discarded where a byte of it is fenced. -/
def execFirmwareMemoryWrite (pa : Nat) (data : List Byte) (s : State) : Out :=
  .next (
    let xs := (cellsAt pa data).map Prod.fst
    if s.unbooted || data.isEmpty || xs.any (fun x => !s.inHbm x || s.lost x != 0 || s.fenced x) then s
    else (s.commit (outsider 65) 0 none (cellsAt pa data) [] []).2)

end Sys2Proof.Machine
end

