-- ==== Sys2Proof/Machine/Errors.lean ====
section
/-!
DEFINITION. Errors and wear: corrected errors and poison (R423 to R428), links (R429, R430), the loss of a die and salvage
(R431 to R433), and the ageing report (R435, R436).
-/
namespace Sys2Proof.Machine

/-! ## Corrected errors and poison (R424, R425) -/

/-- Cycles of an hour (R6). -/
def hourCycles : Nat := 3600 * 1300000000

/-- ERRSUM with the count of a die raised, saturating (R435). -/
def bumpErr (x : Dword) (die : Nat) : Dword :=
  let c := bitsOf x.toNat (16 * die + 15) (16 * die)
  if c = 2 ^ 16 - 1 then x else x + BitVec.ofNat 64 (2 ^ (16 * die))

/-- Key of a unit of a place of a die. -/
def unitKey (place die unit : Nat) : Nat := place + 16 * (die + 4 * unit)

/-- A corrected error: the die's count rises, and the 16th of a unit within one hour writes an entry of severity 1 (R424). -/
def State.corrected (s : State) (place die unit : Nat) : State :=
  let k := unitKey place die unit
  let now := s.clock.toNat
  let fresh := (s.md.corrected.filter fun e => e.1 != k || decide (now < e.2 + hourCycles)) ++ [(k, now)]
  let full := decide (16 ≤ (fresh.filter fun e => e.1 == k).length)
  let s1 := s.onMd fun m => { m with
    errsum := bumpErr m.errsum die, corrected := if full then fresh.filter fun e => e.1 != k else fresh }
  if full then s1.logError unit place die 1 0 else s1

/-- CORRECTED_ERROR (R424). -/
def execCorrectedError (place die unit : Nat) (s : State) : Out :=
  .next (if 6 ≤ place ∨ 4 ≤ die ∨ s.unbooted then s else s.corrected place die unit)

/-- The last write of each byte of a block becomes poisoned (R425). -/
def State.poisonBlock (s : State) (blk : Nat) : State :=
  let xs := (List.range 64).map (64 * blk + ·)
  s.onMs fun m => { m with
    writes := m.writes.map fun w => { w with bad := w.bad ++ xs.filter fun x => w.covers x && s.lastWrite x == w.id && !w.bad.contains x },
    poison0 := m.poison0 ++ xs.filter fun x => s.lastWrite x == 0 && !m.poison0.contains x }

/-- An element of a tile of a context has an uncorrectable error (R127, R423): its number is 2^13 times the context's, plus 1024 times the
tile's, plus the element's. -/
def State.tileError (s : State) (addr : Nat) : State :=
  s.onCtx (addr / 2 ^ 13) fun c => { c with badElems := if c.badElems.contains (addr % 2 ^ 13) then c.badElems else c.badElems ++ [addr % 2 ^ 13] }

/-- POISON (R423, R425): a 64-byte block of HBM or of a cache, or a vault word, becomes poisoned, with an entry of severity 2; of place 3
an accumulator element, which the manual gives no place of its own (log 72). -/
def execPoison (place addr : Nat) (s : State) : Out :=
  .next (
    if s.unbooted then s
    else if place = 0 then
      if s.inHbm addr then (s.poisonBlock (addr / 64)).logFree (addr / 64 * 64) (some 0) (s.homeDie addr) 2 else s
    else if place = 1 then
      if s.inMap addr then (s.poisonBlock (addr / 64)).logFree (addr / 64 * 64) (some 1) (if s.inHbm addr then s.homeDie addr else 0) 2 else s
    else if place = 2 then
      let w := addr / 4 * 4
      let die := bitsOf addr 31 30
      if decide (2 ^ 32 ≤ addr) || bitsOf addr 23 22 != 0 || !s.md.dies.getLsbD die || s.md.failed.getLsbD die then s
      else (s.onMs fun m => { m with vpoison := if m.vpoison.contains w then m.vpoison else m.vpoison ++ [w] }).logFree w (some 2) die 2
    else if place = 3 then s.tileError addr
    else s)

/-- REGISTER_FILE_ERROR (R423, R428): a v register of a thread, resident or in a shadow-context bank. -/
def execRegisterFileError (t r : Nat) (s : State) : Out :=
  .next (match s.thread t with
    | none => s
    | some x =>
      if x.exited || decide (x.place.budget ≤ r) || x.out.bad.contains r then s
      else s.onThread t fun y => { y with out := { y.out with bad := y.out.bad ++ [r] } })

/-! ## Links (R429, R430) -/

/-- Updates a link. -/
def State.onLink (s : State) (l : Nat) (f : HLink → HLink) : State :=
  s.onMd fun m => { m with links := m.links.map fun x => if x.id == l then f x else x }

def State.link (s : State) (l : Nat) : Option HLink := s.md.links.find? fun x => x.id == l

/-- Cycles of a second (R6). -/
def secondCycles : Nat := 1300000000

/-- A retrain is asked for: it starts, unless 4 have started within a second; a refusal brings the link down (R392, R430). -/
def HLink.retrain (x : HLink) (now : Nat) : HLink :=
  let l := x.starts.filter fun t => decide (now < t + secondCycles)
  if 4 ≤ l.length then { x with starts := l, bad := 2 } else { x with starts := l ++ [now], training := some now }

/-- A flit of a link has failed; the 32nd in a row asks for a retrain, which firmware answers at once (R429, log 73). -/
def HLink.failed (x : HLink) (now : Nat) : HLink :=
  let y := { x with fails := x.fails + 1 }
  if 32 ≤ y.fails then { y with fails := 0 }.retrain now else y

/-- FLIT_RETRY (R429): failed flits in a row are counted; a flit that arrives ends the row. -/
def execFlitRetry (l : Nat) (ok : Bool) (s : State) : Out :=
  .next (match s.link l with
    | none => s
    | some x =>
      if x.down || x.training.isSome then s
      else s.onLink l fun y => if ok then { y with fails := 0 } else y.failed s.clock.toNat)

/-- LINK_RETRAIN (R392, R429): firmware asks for a retrain. -/
def execLinkRetrain (l : Nat) (s : State) : Out :=
  .next (match s.link l with
    | none => s
    | some x => if s.unbooted || x.down || x.training.isSome then s else s.onLink l fun y => y.retrain s.clock.toNat)

/-- RETRAIN_COMPLETE (R429, R430). -/
def execRetrainComplete (l : Nat) (ok : Bool) (s : State) : Out :=
  .next (match s.link l with
    | none => s
    | some x =>
      if x.training.isNone then s
      else s.onLink l fun y => { y with training := none, fails := 0, bad := if ok then 0 else y.bad + 1 })

/-- The devices of the load-store domain beyond a port. -/
def beyond (l : Nat) : BitVec 64 := BitVec.ofNat 64 (maskOf ((List.range 64).filter fun d => portOf d == l))

/-- Peers none of whose bit's devices can be reached hold no copy (R430). -/
def State.dropPeers (s : State) : State :=
  let keep : BitVec 8 := BitVec.ofNat 8 (maskOf ((s.peerDevs.map fun d => d / 8).eraseDups))
  s.onCo fun c => { c with dirs := c.dirs.map fun e => { e with peers := e.peers &&& keep } }

/-- LINK_DOWN (R430): a link whose retrain was refused, or failed twice in a row, is down; the host or the devices beyond it hold no
copy, and what waited for them goes on (log 71). -/
def execLinkDown (l : Nat) (s : State) : Out :=
  .next (match s.link l with
    | none => s
    | some x =>
      if x.down || decide (x.bad < 2) then s
      else
        let s1 := s.onLink l fun y => { y with down := true, training := none }
        let s2 := if l = 0 then s1 else (s1.onMd fun m => { m with cut := m.cut ||| beyond l }).dropPeers
        let gone := fun (w : Nat) => decide (4 ≤ w) && s2.partyGone w
        s2.forgetParties gone (outNode gone))

/-- Where a part of an access lies. -/
def State.partAt (s : State) (a : Access) (x : Xl) (p : APart) : Option Nat :=
  if p.pa.isSome then p.pa else (s.translate x a.need p.ea).toOption

/-- Parts of an access, still to perform, that need a link that is down: their places in it. -/
def State.cutParts (s : State) (a : Access) (x : Xl) : List Nat :=
  ((indexed a.parts).filter fun p => !p.2.done && (s.partAt a x p.2).any s.linkCut).map Prod.fst

/-- A write to memory beyond a link that is down is discarded, with an entry of severity 2 (R430). -/
def State.discardWrite (s : State) (a : Access) (x : Xl) (k : Nat) : State :=
  let pa := ((a.parts[k]?).bind (s.partAt a x)).getD 0
  (s.doneAt a.id k 0).logFree pa (some 5) a.core.die 2

/-- The spill slot that a push has before it lies beyond a link that is down: its address. -/
def State.pushCut (s : State) (x : Xl) (g q : Nat) : Option Nat :=
  match s.queue g q with
  | none => none
  | some qu => match qu.place with
    | some (true, n) => match s.translate x .write (quSbase qu.entry + n * quSize qu.entry) with
      | .ok pa => if s.linkCut pa then some pa else none
      | .error _ => none
    | _ => none

/-- DOWN_LINK_TIMEOUT (R430): a read or an atomic ends with cause 0x20, reason 3; a write is discarded, with an entry of severity 2: a
push ends with its record (log 74), and what CWB and CINV ask is over. -/
def execDownLinkTimeout (acc : Nat) (s : State) : Out :=
  .next (match s.access acc with
    | none => s
    | some a => match s.xlOf a with
      | none => s
      | some x =>
        if a.vault || !s.ordered a then s
        else match a.kind with
          | .smp _ _ _ _ _ _ desc => if (s.touches a fun p => !p.done).any fun t => t.pa.any s.linkCut then s.refuse a 0x20 3 desc else s
          | .push g q _ => match s.pushCut x g q with
            | some pa => (((s.doneAt a.id 0 0).wake a.tid).logFree pa (some 5) a.core.die 2).settle
            | none => s
          | .store _ => ((s.cutParts a x).foldl (fun s' k => s'.discardWrite a x k) s).settle
          | .cache _ => ((s.cutParts a x).foldl (fun s' k => s'.doneAt a.id k 0) s).settle
          | .copyBlock _ => s
          | .pref => s
          | .record _ _ _ => s
          | _ => match (s.cutParts a x).head?.bind fun k => a.parts[k]? with
            | some p => s.refuse a 0x20 3 p.ea
            | none => s)

/-! ## The loss of a die (R431, R432) -/

/-- Blocks homed on a die that another die, or the host, holds in M or O, in a slice or in an L1 of it (R432). -/
def State.orphansOf (s : State) (d : Nat) : List Nat :=
  let slices := (s.co.homes.filter fun h => h.die != d && (h.st == .m || h.st == .o)).map HomeBlk.blk
  let l1s := (s.co.l1.filter fun b => b.core.die != d && b.dirty).map L1Blk.blk
  let l2s := (s.co.l2.filter fun l => l.die != d).flatMap fun l => [2 * l.line, 2 * l.line + 1].filter fun b => l.dirty &&& blkBit b != 0
  let host := (s.co.dirs.filter fun e => e.st == .owned 4).map DirEntry.blk
  (slices ++ l1s ++ l2s ++ host).eraseDups.filter fun b => s.inHbm (64 * b) && s.blkDie b == d

/-- Partitions with work that name a die. -/
def State.partsOn (s : State) (d : Nat) : List Nat :=
  (List.range 16).filter fun p => (s.part p).state != .stopped && (List.range 8).any fun y => (s.part p).hasRow d y

/-- Launches that end with a die: those of such partitions, and those with a resident team or a gang on it. -/
def State.launchesOn (s : State) (d : Nat) : List Nat :=
  (s.wk.launches.filter fun l => (s.partsOn d).contains l.part ||
    (s.wk.teams.any fun t => t.launch == l.id && !t.ended && t.core.die == d) ||
    (s.wk.gangs.any fun g => g.launch == l.id && g.placed && g.die == d)).map Launch.id

/-- A partition ends: its quay cores stop, and STATE is 0. -/
def State.endPart (s : State) (p : Nat) : State :=
  let qs := s.wk.quays.filter fun q => q.part == p
  let s1 := (qs.map Quay.tid).foldl State.exit s
  (((s1.onWk fun w => { w with
    quays := w.quays.filter fun q => q.part != p,
    recs := w.recs.filter fun r => !qs.any fun q => q.core == r.quay }).onMs fun m => { m with
      tlbis := m.tlbis.filter fun i => i.part != p }).onPart p fun x => { x with state := .stopped })

/-- What stands on the cores of a die, in its vault's reach and in its caches is lost. Units on other dies that a pass of its cores held stay
held: nothing of the manual frees them (log 75). -/
def State.dropDie (s : State) (d : Nat) : State :=
  let ts := (s.wk.threads.filter fun t => t.place.core.die == d).map Thread.id
  let mine := fun (t : Nat) => ts.contains t
  let s1 := s.onWk fun w => { w with
    threads := w.threads.map fun t => if t.place.core.die == d then { t with out := { t.out with pend := [] } } else t,
    groups := w.groups.map fun g => if g.core.die == d then { g with pend := [] } else g }
  let s2 := s1.onEn fun e => { e with
    ctxs := e.ctxs.filter fun c => c.core.die != d,
    copies := e.copies.filter fun c => c.core.die != d,
    batches := e.batches.filter fun b => !mine b.tid,
    holders := e.holders.filter fun h => h.1.die != d,
    fsts := e.fsts.filter fun f => f.die != d,
    walks := e.walks.filter fun w => w.core.die != d,
    fops := e.fops.filter fun f => f.core.die != d }
  let s3 := s2.onMs fun m => { m with
    accs := m.accs.filter fun a => a.core.die != d,
    oplog := m.oplog.filter fun o => o.core.die != d,
    fences := m.fences.filter fun f => !mine f.tid,
    smp := m.smp.filter fun e => e.1.die != d,
    smpLines := m.smpLines.filter fun e => e.1.die != d,
    smpUsed := m.smpUsed.filter fun e => e.1.die != d,
    icache := m.icache.filter fun e => e.1.die != d,
    l1tlb := m.l1tlb.filter fun e => e.1.die != d,
    l2tlb := m.l2tlb.filter fun e => e.1.die != d }
  let s4 := s3.onCo fun c => { c with
    homes := c.homes.filter fun h => h.die != d,
    l1 := c.l1.filter fun b => b.core.die != d,
    l2 := c.l2.filter fun l => l.die != d,
    sigs := c.sigs.filter fun x => x.core.die != d,
    mirrors := c.mirrors.filter fun x => x.core.die != d,
    gather := c.gather.filter fun g => g.core.die != d,
    dirs := c.dirs.filter fun e => s.blkDie e.blk != d }
  s4.forgetParties (· == d) (onDie d)

/-- A die has failed (R431, R432): KILL with cause 0x20, reason 4, whose other low bits the manual does not give. -/
def State.failDie (s : State) (d : Nat) : State :=
  let orph := s.orphansOf d
  let ps := s.partsOn d
  let ls := s.launchesOn d
  let q := s.draw
  let s1 := q.2.onMd fun m => { m with failed := m.failed ||| BitVec.ofNat 4 (2 ^ d), orphans := m.orphans ++ orph.filter fun b => !m.orphans.contains b }
  let s2 := ls.foldl (fun s' l => s'.kill l (0x20 + 4 * 2 ^ 8 + q.1 % 2 ^ 20 * 2 ^ 12)) s1
  (ps.foldl State.endPart s2).dropDie d

/-- A die can fail: it booted and has not failed. -/
def State.canFail (s : State) (d : Nat) : Bool := !s.unbooted && decide (d < 4) && s.md.dies.getLsbD d && !s.md.failed.getLsbD d

/-- DIE_FAILURE (R431, R435): an entry of severity 3, whose address and place the manual does not give. -/
def execDieFailure (d : Nat) (s : State) : Out :=
  .next (if s.canFail d then let q := (s.failDie d).draw; q.2.logFree (q.1 % 2 ^ 64) none d 3 else s)

/-! ## Salvage (R433) -/

/-- The write that the HBM copy of a byte holds: any that has reached it, which the manual does not fix. -/
def State.hbmWrite (s : State) (top x : Nat) : Nat := listMax ((s.ms.writes.filter fun w => w.covers x && decide (w.id ≤ top)).map WriteRec.id)

/-- SALVAGE_COPY (R433): the orphan copy where one exists, else the HBM copy, with its poison, to host memory. -/
def execSalvageCopy (blk dst : Nat) (s : State) : Out :=
  .next (
    let lost := s.lost (64 * blk)
    if s.unbooted || lost == 0 || dst % 64 != 0 || !isHost dst || s.linkBusy 0 then s
    else
      let q := s.draw
      let ids := 0 :: (s.ms.writes.filter fun w => w.cells.any fun c => c.1 / 64 == blk).map WriteRec.id
      let top := ids.getD (q.1 % ids.length) 0
      let f := if lost = 1 then s.lastWrite else s.hbmWrite top
      let r := s.readBy f (64 * blk) 64
      let bad := (List.range 64).filter fun i => s.poisonOf (f (64 * blk + i)) (64 * blk + i)
      let t := q.2.commit (outsider 65) 0 none (cellsAt dst r.bytes) (bad.map (dst + ·)) [.host]
      t.2.onMd fun m => { m with salvaged := m.salvaged ++ [(blk, dst)] })

/-! ## Ageing (R436) -/

/-- STATE of an estimate: a margin of 0 is exhausted. -/
def ageState (hours margin : Nat) : Nat := if margin = 0 then 3 else if hours < 720 then 2 else if hours < 8760 then 1 else 0

/-- AGEING_ESTIMATE (R431, R436): a change of STATE writes an entry, of severity 3 for state 3, and state 3 fails the die. -/
def execAgeingEstimate (d hours margin : Nat) (s : State) : Out :=
  .next (
    if s.unbooted || decide (4 ≤ d) || decide (2 ^ 32 ≤ hours) || decide (64 ≤ margin) then s
    else
      let old := s.md.ages.getD d ⟨0xFFFFFFFF, 63, 0⟩
      let new : Age := ⟨BitVec.ofNat 32 hours, BitVec.ofNat 6 margin, BitVec.ofNat 2 (ageState hours margin)⟩
      let s1 := s.onMd fun m => { m with ages := m.ages.set d new }
      if new.state == old.state then s1
      else
        let s2 := if new.state == 3 && s1.canFail d then s1.failDie d else s1
        let q := s2.draw
        q.2.logFree (q.1 % 2 ^ 64) none d (if new.state == 3 then 3 else 1))

end Sys2Proof.Machine
end

