-- ==== Sys2Proof/Machine/Gang.lean ====
section
/-!
DEFINITION. Stage graphs at run time: stages that are due and the groups that they launch (R334, R339, R340), and the derailleur
(R343 to R346).
-/
namespace Sys2Proof.Machine

/-- The stage timer has passed for the oldest unreserved record of a stage (R339). -/
def State.timerPassed (s : State) (e : Nat) (q : Queue) : Bool :=
  match q.recs.find? fun r => r.holder.isNone with
  | some r => stTimer e != 0 && decide (r.time + 64 * stTimer e ≤ s.clock.toNat)
  | none => false

/-- Unreserved records, oldest first. -/
def Queue.unreserved (q : Queue) : List QRec := q.recs.filter fun r => r.holder.isNone

/-- A stage is due (R339). -/
def State.stageDue (s : State) (g : Gang) (st : Stage) : Bool :=
  if stSource st.entry then decide (st.launched < stSrcn st.entry)
  else match g.queues[stQueue st.entry 0]? with
    | none => false
    | some q =>
      let n := q.unreserved.length
      decide (stCoal st.entry ≤ n) || (decide (1 ≤ n) && (q.closed || s.timerPassed st.entry q))

/-- Groups of a stage on a core: a group ends with its last thread (R340, R357). -/
def State.groupsAt (s : State) (g : Gang) (st core : Nat) : Nat :=
  ((s.resident g.launch st).filter fun t => t.core == ⟨g.die, core⟩).length

/-- The width of a stage (R317, R327). -/
def State.stageWidth (s : State) (l : Launch) (st : Stage) : Nat :=
  match st.width, fixedWidth (stWidth st.entry) with
  | some w, _ => w
  | none, some w => w
  | none, none => widthOfF (s.histF l.part (stPc st.entry))

/-- The cores on which a stage may launch now (R340, R345): its own, not draining, that have launched nothing in this cycle,
with a free group slot. -/
def State.launchCores (s : State) (l : Launch) (g : Gang) (st : Nat) (e : Stage) : List GCore :=
  let w := s.stageWidth l e
  g.cores.filter fun c => c.stage == st && c.from_.isNone && c.last != some s.clock.toNat && decide (s.groupsAt g st c.core < stGpc e.entry) &&
    (pickQuads (stBudget e.entry) w 1 (loadOf (s.teamsOn l.part ⟨g.die, c.core⟩))).isSome

/-- Records are reserved to a group: the oldest unreserved ones. -/
def reserve (grp : Nat) : Nat → List QRec → List QRec
  | 0, l => l
  | _ + 1, [] => []
  | n + 1, r :: l => if r.holder.isNone then { r with holder := some grp } :: reserve grp n l else r :: reserve grp (n + 1) l

/-- A stage launches a group on a core (R334, R340): the reservation is part of the same queue step. -/
def State.launchGroup (s : State) (l : Launch) (g : Gang) (st : Nat) (e : Stage) (c : GCore) : State :=
  let w := s.stageWidth l e
  let core : CoreId := ⟨g.die, c.core⟩
  let s0 := if e.width.isNone && (fixedWidth (stWidth e.entry)).isNone then s.touchHist l.part (stPc e.entry) else s
  let quads := (pickQuads (stBudget e.entry) w 1 (loadOf (s.teamsOn l.part core))).getD [0]
  let cl := s0.nextId
  let id := cl + 1
  let n := match g.queues[stQueue e.entry 0]? with
    | some q => if stSource e.entry then 0 else Nat.min (stCoal e.entry) q.unreserved.length
    | none => 0
  let tm : Team := {
    id := id, launch := l.id, cluster := cl, part := l.part, core := core, ctx := ((s0.runCtx l.part core).map Ctx.id).getD 0, quads := quads,
    nx := w, ny := 1, nz := 1, tmx := 0, tmy := 0, tmz := 0, clx := 0, cly := 0, gx := 1, gy := 1, gz := 1, stage := some st,
    budget := stBudget e.entry, width := w, vbase := 0, vlen := 0, a := 0, l := 0, tph := [], saved := false, ended := false }
  let s1 := ({ s0 with nextId := id + 1 } : State).onWk fun x => { x with clusters := x.clusters ++ [⟨cl, g.die, c.core, 1, 1, [id], []⟩] }
  let grp := s1.nextId
  let s2 := s1.startTeam l tm (stPc e.entry) (ownCluster core) [(16, stSarg e.entry), (17, n), (18, e.launched % 2 ^ 32), (63, 0)]
  s2.onGang l.id fun x => { x with
    stages := x.stages.modify st fun y => { y with launched := y.launched + 1, width := some w, last := some s.clock.toNat },
    cores := x.cores.map fun y => if y.core == c.core then { y with last := some s.clock.toNat } else y,
    queues := if stSource e.entry then x.queues else x.queues.modify (stQueue e.entry 0) fun q => { q with recs := reserve grp n q.recs } }

/-- A due stage launches a group on the core with fewest groups of the stage, the lowest on a tie; one group of a stage in a cycle
(R340). -/
def State.binLaunch (s : State) (gang st : Nat) : State :=
  match s.gang gang, s.launch gang with
    | some g, some l => match g.stages[st]? with
      | none => s
      | some e =>
        if !g.running || g.stopping || l.killed.isSome || (s.part l.part).state != .running || s.md.failed.getLsbD g.die ||
            e.last == some s.clock.toNat || !s.stageDue g e then s
        else match argMin (fun c => s.groupsAt g st (GCore.core c)) (s.launchCores l g st e) with
          | none => s
          | some c => s.launchGroup l g st e c
    | _, _ => s

/-- BIN_LAUNCH (R340). -/
def execBinLaunch (gang st : Nat) (s : State) : Out := .next (s.binLaunch gang st)

/-- STAGE_TIMER_EXPIRY (R339): the timer of a stage has passed for its oldest unreserved record. The stage is due, and launches
where it can. -/
def execStageTimerExpiry (gang st : Nat) (s : State) : Out :=
  .next (match s.gang gang, (s.gang gang).bind fun g => g.stages[st]? with
    | some g, some e => match g.queues[stQueue e.entry 0]? with
      | some q => if s.timerPassed e.entry q then s.binLaunch gang st else s
      | none => s
    | _, _ => s)

/-! ## The derailleur -/

/-- Fill of a queue, in units of 1/4096 (R343). -/
def Queue.fill (q : Queue) : Nat := 4096 * Nat.min q.recs.length (quBerths q.entry) / quBerths q.entry

/-- Pressure of a stage. -/
def State.pressure (s : State) (g : Gang) (st : Stage) : Int :=
  let fillOf := fun (q : Nat) => ((g.queues[q]?).map Queue.fill).getD 0
  let in_ := if stSource st.entry then (if s.stageDue g st then 4096 else 0) else fillOf (stQueue st.entry 0)
  (in_ : Int) - listMax ((stOutputs st.entry).map fillOf)

/-- Cores allotted to a stage; those of them that do not drain. -/
def Gang.allotted (g : Gang) (st : Nat) : List GCore := g.cores.filter fun c => c.stage == st
def Gang.steady (g : Gang) (st : Nat) : List GCore := (g.allotted st).filter fun c => c.from_.isNone

/-- The listed pair of greatest key, the earlier on a tie. -/
def argMaxInt {α : Type} (key : α → Int) : List α → Option α
  | [] => none
  | a :: l =>
    match argMaxInt key l with
    | none => some a
    | some b => if key b ≤ key a then some a else some b

/-- The move that the sampled pressures ask for (R344): the core, its stage and its new stage. -/
def State.moveOf (s : State) (g : Gang) (thr : Nat) (ps : List Int) : Option (GCore × Nat × Nat) :=
  let sts := indexed g.stages
  let p := fun (n : Nat × Stage) => ps.getD n.1 0
  let donor := argMaxInt (fun n => - p n) (sts.filter fun n => decide (stMinc n.2.entry < (g.allotted n.1).length) && !(g.steady n.1).isEmpty)
  let taker := argMaxInt p (sts.filter fun n => decide ((g.allotted n.1).length < stMaxc n.2.entry))
  match donor, taker with
  | some d, some t =>
    if d.1 = t.1 ∨ p t - p d ≤ 256 * thr then none
    else
      -- higher core number on ties: the list is taken from its end
      (argMin (fun c => s.groupsAt g d.1 (GCore.core c)) (g.steady d.1).reverse).map fun c => (c, d.1, t.1)
  | _, _ => none

/-- Up to n moves. -/
def State.moves (s : State) (l thr : Nat) (ps : List Int) : Nat → State
  | 0 => s
  | n + 1 =>
    match s.gang l with
    | none => s
    | some g => match s.moveOf g thr ps with
      | none => s
      | some m =>
        let s1 := s.onGang l fun x => { x with cores := x.cores.map fun c => if c.core == m.1.core then { c with stage := m.2.2, from_ := some m.2.1 } else c }
        (s1.drainedCores l).moves l thr ps n

/-- CADENCE_BOUNDARY (R343 to R346). -/
def execCadenceBoundary (gang : Nat) (s : State) : Out :=
  .next (match s.gang gang, s.launch gang with
    | some g, some l =>
      if !g.running || !g.placed || (s.part l.part).state != .running || decide (s.clock.toNat < g.cad0 + l.blk.cadence) then s
      else
        let s1 := s.onGang gang fun x => { x with cad0 := x.cad0 + l.blk.cadence }
        if g.stopping then s1
        else s1.moves gang l.blk.thr (g.stages.map (s.pressure g)) (Nat.max 1 (g.cores.length / 8))
    | _, _ => s)

end Sys2Proof.Machine
end

