-- ==== Sys2Proof/Machine/Dispatch.lean ====
section
/-!
DEFINITION. The dispatch: what each instruction or event does, one call of its meaning each.
-/
namespace Sys2Proof.Machine

/-- What an instruction, issued for the set in focus, or an event does. -/
def exec (i : Instr) (s : State) : Host.Outcome State Fault Refusal :=
  match i with
  | .nop h => Sys2Proof.Machine.execNop h s
  | .iadd h d a b sat => Sys2Proof.Machine.execIadd h d a b sat s
  | .iaddI h d a imm => Sys2Proof.Machine.execIaddI h d a imm s
  | .isub h d a b sat => Sys2Proof.Machine.execIsub h d a b sat s
  | .isubI h d a imm => Sys2Proof.Machine.execIsubI h d a imm s
  | .imul h d a b => Sys2Proof.Machine.execImul h d a b s
  | .imulI h d a imm => Sys2Proof.Machine.execImulI h d a imm s
  | .imulh h d a b uns => Sys2Proof.Machine.execImulh h d a b uns s
  | .imad h d a b c => Sys2Proof.Machine.execImad h d a b c s
  | .imadw h d a b c uns => Sys2Proof.Machine.execImadw h d a b c uns s
  | .idiv h d a b uns => Sys2Proof.Machine.execIdiv h d a b uns s
  | .irem h d a b uns => Sys2Proof.Machine.execIrem h d a b uns s
  | .iabs h d a sat => Sys2Proof.Machine.execIabs h d a sat s
  | .ineg h d a sat => Sys2Proof.Machine.execIneg h d a sat s
  | .imin h d a b uns => Sys2Proof.Machine.execImin h d a b uns s
  | .iminI h d a imm => Sys2Proof.Machine.execIminI h d a imm s
  | .imax h d a b uns => Sys2Proof.Machine.execImax h d a b uns s
  | .imaxI h d a imm => Sys2Proof.Machine.execImaxI h d a imm s
  | .iclamp h d a b c uns => Sys2Proof.Machine.execIclamp h d a b c uns s
  | .andB h d a b => Sys2Proof.Machine.execAndB h d a b s
  | .andI h d a imm => Sys2Proof.Machine.execAndI h d a imm s
  | .orB h d a b => Sys2Proof.Machine.execOrB h d a b s
  | .orI h d a imm => Sys2Proof.Machine.execOrI h d a imm s
  | .xorB h d a b => Sys2Proof.Machine.execXorB h d a b s
  | .xorI h d a imm => Sys2Proof.Machine.execXorI h d a imm s
  | .andnB h d a b => Sys2Proof.Machine.execAndnB h d a b s
  | .andnI h d a imm => Sys2Proof.Machine.execAndnI h d a imm s
  | .lop3 h d a b c lut => Sys2Proof.Machine.execLop3 h d a b c lut s
  | .shl h d a b => Sys2Proof.Machine.execShl h d a b s
  | .shlI h d a imm => Sys2Proof.Machine.execShlI h d a imm s
  | .shr h d a b sx_ => Sys2Proof.Machine.execShr h d a b sx_ s
  | .shrI h d a imm => Sys2Proof.Machine.execShrI h d a imm s
  | .rot h d a b rt => Sys2Proof.Machine.execRot h d a b rt s
  | .rotI h d a imm => Sys2Proof.Machine.execRotI h d a imm s
  | .shf h d a b c rt => Sys2Proof.Machine.execShf h d a b c rt s
  | .bfe h d a b sx_ => Sys2Proof.Machine.execBfe h d a b sx_ s
  | .bfi h d a b c => Sys2Proof.Machine.execBfi h d a b c s
  | .popc h d a => Sys2Proof.Machine.execPopc h d a s
  | .clz h d a => Sys2Proof.Machine.execClz h d a s
  | .ctz h d a => Sys2Proof.Machine.execCtz h d a s
  | .brev h d a => Sys2Proof.Machine.execBrev h d a s
  | .perm h d a b c => Sys2Proof.Machine.execPerm h d a b c s
  | .iadd64 h d a b => Sys2Proof.Machine.execIadd64 h d a b s
  | .iadd64I h d a imm => Sys2Proof.Machine.execIadd64I h d a imm s
  | .isub64 h d a b => Sys2Proof.Machine.execIsub64 h d a b s
  | .imad64 h d a b c => Sys2Proof.Machine.execImad64 h d a b c s
  | .shl64 h d a b => Sys2Proof.Machine.execShl64 h d a b s
  | .shr64 h d a b sx_ => Sys2Proof.Machine.execShr64 h d a b sx_ s
  | .lea h d a b sh sx_ => Sys2Proof.Machine.execLea h d a b sh sx_ s
  | .isetp h p a b c uns mg => Sys2Proof.Machine.execIsetp h p a b c uns mg s
  | .fsetp h p a b c mg => Sys2Proof.Machine.execFsetp h p a b c mg s
  | .dsetp h p a b c mg => Sys2Proof.Machine.execDsetp h p a b c mg s
  | .sel h d a b c => Sys2Proof.Machine.execSel h d a b c s
  | .plop h d a b c lut => Sys2Proof.Machine.execPlop h d a b c lut s
  | .p2v h d => Sys2Proof.Machine.execP2v h d s
  | .v2p h a mask => Sys2Proof.Machine.execV2p h a mask s
  | .mov h d a b64 => Sys2Proof.Machine.execMov h d a b64 s
  | .movi h d imm => Sys2Proof.Machine.execMovi h d imm s
  | .srd h d r => Sys2Proof.Machine.execSrd h d r s
  | .srdClr h d => Sys2Proof.Machine.execSrdClr h d s
  | .fadd h d a b rm na nb => Sys2Proof.Machine.execFadd h d a b rm na nb s
  | .fmul h d a b rm na nb => Sys2Proof.Machine.execFmul h d a b rm na nb s
  | .ffma h d a b c rm na nb nc => Sys2Proof.Machine.execFfma h d a b c rm na nb nc s
  | .fmin h d a b => Sys2Proof.Machine.execFmin h d a b s
  | .fmax h d a b => Sys2Proof.Machine.execFmax h d a b s
  | .frnd h d a rm x => Sys2Proof.Machine.execFrnd h d a rm x s
  | .fdiv h d a b rm => Sys2Proof.Machine.execFdiv h d a b rm s
  | .fsqrt h d a rm => Sys2Proof.Machine.execFsqrt h d a rm s
  | .frsq h d a => Sys2Proof.Machine.execFrsq h d a s
  | .frcp h d a => Sys2Proof.Machine.execFrcp h d a s
  | .fex2 h d a => Sys2Proof.Machine.execFex2 h d a s
  | .flg2 h d a => Sys2Proof.Machine.execFlg2 h d a s
  | .fsinpi h d a => Sys2Proof.Machine.execFsinpi h d a s
  | .fcospi h d a => Sys2Proof.Machine.execFcospi h d a s
  | .fclass h d a => Sys2Proof.Machine.execFclass h d a s
  | .fscale h d a b rm => Sys2Proof.Machine.execFscale h d a b rm s
  | .dadd h d a b rm na nb => Sys2Proof.Machine.execDadd h d a b rm na nb s
  | .dmul h d a b rm na nb => Sys2Proof.Machine.execDmul h d a b rm na nb s
  | .dfma h d a b c rm na nb nc => Sys2Proof.Machine.execDfma h d a b c rm na nb nc s
  | .dmin h d a b => Sys2Proof.Machine.execDmin h d a b s
  | .dmax h d a b => Sys2Proof.Machine.execDmax h d a b s
  | .ddiv h d a b rm => Sys2Proof.Machine.execDdiv h d a b rm s
  | .dsqrt h d a rm => Sys2Proof.Machine.execDsqrt h d a rm s
  | .hadd2 h d a b na nb => Sys2Proof.Machine.execHadd2 h d a b na nb s
  | .hmul2 h d a b na nb => Sys2Proof.Machine.execHmul2 h d a b na nb s
  | .hfma2 h d a b c na nb nc => Sys2Proof.Machine.execHfma2 h d a b c na nb nc s
  | .hmin2 h d a b => Sys2Proof.Machine.execHmin2 h d a b s
  | .hmax2 h d a b => Sys2Proof.Machine.execHmax2 h d a b s
  | .bfma2 h d a b c na nb nc => Sys2Proof.Machine.execBfma2 h d a b c na nb nc s
  | .badd2 h d a b na nb => Sys2Proof.Machine.execBadd2 h d a b na nb s
  | .bmul2 h d a b na nb => Sys2Proof.Machine.execBmul2 h d a b na nb s
  | .idot4 h d a b c ua ub sat => Sys2Proof.Machine.execIdot4 h d a b c ua ub sat s
  | .cvt h d a rm dst src elem => Sys2Proof.Machine.execCvt h d a rm dst src elem s
  | .dxpack h d a b dx4 dist => Sys2Proof.Machine.execDxpack h d a b dx4 dist s
  | .dxunpk h d a b dx4 hi => Sys2Proof.Machine.execDxunpk h d a b dx4 hi s
  | .shfl h d a b c m => Sys2Proof.Machine.execShfl h d a b c m s
  | .vote h d a b k => Sys2Proof.Machine.execVote h d a b k s
  | .redux h d a b op => Sys2Proof.Machine.execRedux h d a b op s
  | .elect h d b => Sys2Proof.Machine.execElect h d b s
  | .matchL h d a b w64 => Sys2Proof.Machine.execMatchL h d a b w64 s
  | .scan h d a b op excl => Sys2Proof.Machine.execScan h d a b op excl s
  | .rdfirst h d a b w64 => Sys2Proof.Machine.execRdfirst h d a b w64 s
  | .crossLaneCompletion ts => Sys2Proof.Machine.execCrossLaneCompletion ts s
  | .ld h d m sz sx acq prom => Sys2Proof.Machine.execLd h d m sz sx acq prom s
  | .st h d m sz rel => Sys2Proof.Machine.execSt h d m sz rel s
  | .ldv h d m sz sx acq cr => Sys2Proof.Machine.execLdv h d m sz sx acq cr s
  | .stv h d m sz rel cr => Sys2Proof.Machine.execStv h d m sz rel cr s
  | .ldt h d m sz take acq cr => Sys2Proof.Machine.execLdt h d m sz take acq cr s
  | .stt h d m sz rel cr => Sys2Proof.Machine.execStt h d m sz rel cr s
  | .tagopEmpty h m sz rel cr => Sys2Proof.Machine.execTagopEmpty h m sz rel cr s
  | .tagopFull h m sz rel cr => Sys2Proof.Machine.execTagopFull h m sz rel cr s
  | .atom h x => Sys2Proof.Machine.execAtom h x s
  | .atomv h x cr => Sys2Proof.Machine.execAtomv h x cr s
  | .lds h d m sz sx => Sys2Proof.Machine.execLds h d m sz sx s
  | .smp h d a b lin wrap norm stream => Sys2Proof.Machine.execSmp h d a b lin wrap norm stream s
  | .fsamp h sc => Sys2Proof.Machine.execFsamp h sc s
  | .fsampComplete t => Sys2Proof.Machine.execFsampComplete t s
  | .fence h k sc scFence cover => Sys2Proof.Machine.execFence h k sc scFence cover s
  | .fwait h k => Sys2Proof.Machine.execFwait h k s
  | .fwaitComplete t => Sys2Proof.Machine.execFwaitComplete t s
  | .fjoin h mask => Sys2Proof.Machine.execFjoin h mask s
  | .pref h a ofs tgt => Sys2Proof.Machine.execPref h a ofs tgt s
  | .cwb h m inv => Sys2Proof.Machine.execCwb h m inv s
  | .cinvIcache h a ofs => Sys2Proof.Machine.execCinvIcache h a ofs s
  | .cinvDiscard h a ofs => Sys2Proof.Machine.execCinvDiscard h a ofs s
  | .perform acc part => Sys2Proof.Machine.execPerform acc part s
  | .propagate w pt => Sys2Proof.Machine.execPropagate w pt s
  | .advance n => Sys2Proof.Machine.execAdvance n s
  | .publish op => Sys2Proof.Machine.execPublish op s
  | .barrier b => Sys2Proof.Machine.execBarrier b s
  | .scStep t => Sys2Proof.Machine.execScStep t s
  | .mxld h a slot => Sys2Proof.Machine.execMxld h a slot s
  | .mxrun h t slot acc => Sys2Proof.Machine.execMxrun h t slot acc s
  | .mxz h t => Sys2Proof.Machine.execMxz h t s
  | .mxst h t a form relu scale => Sys2Proof.Machine.execMxst h t a form relu scale s
  | .mxlda h t a f32 => Sys2Proof.Machine.execMxlda h t a f32 s
  | .mxqryOcc h d => Sys2Proof.Machine.execMxqryOcc h d s
  | .mxqryEst h d => Sys2Proof.Machine.execMxqryEst h d s
  | .mxldOperation cx => Sys2Proof.Machine.execMxldOperation cx s
  | .mxrunOperation cx n => Sys2Proof.Machine.execMxrunOperation cx n s
  | .mxzOperation cx => Sys2Proof.Machine.execMxzOperation cx s
  | .mxstOperation cx n => Sys2Proof.Machine.execMxstOperation cx n s
  | .mxldaOperation cx => Sys2Proof.Machine.execMxldaOperation cx s
  | .cpy h x => Sys2Proof.Machine.execCpy h x s
  | .cpys h x => Sys2Proof.Machine.execCpys h x s
  | .cpyb h x => Sys2Proof.Machine.execCpyb h x s
  | .cpyx h x => Sys2Proof.Machine.execCpyx h x s
  | .cfill h x b => Sys2Proof.Machine.execCfill h x b s
  | .cseal h k => Sys2Proof.Machine.execCseal h k s
  | .cwait h n => Sys2Proof.Machine.execCwait h n s
  | .cprom h d k => Sys2Proof.Machine.execCprom h d k s
  | .cpromStat h d k => Sys2Proof.Machine.execCpromStat h d k s
  | .cpub h d sh => Sys2Proof.Machine.execCpub h d sh s
  | .cshad h sh a b => Sys2Proof.Machine.execCshad h sh a b s
  | .cshadOff h d sh => Sys2Proof.Machine.execCshadOff h d sh s
  | .copyAdmission op => Sys2Proof.Machine.execCopyAdmission op s
  | .copyStart op n => Sys2Proof.Machine.execCopyStart op n s
  | .copyComplete op => Sys2Proof.Machine.execCopyComplete op s
  | .shadowDisarm op => Sys2Proof.Machine.execShadowDisarm op s
  | .fopen h d a sx_ => Sys2Proof.Machine.execFopen h d a sx_ s
  | .fst h a b sx_ => Sys2Proof.Machine.execFst h a b sx_ s
  | .fseal h sx_ => Sys2Proof.Machine.execFseal h sx_ s
  | .fcomp h a src dst hops em => Sys2Proof.Machine.execFcomp h a src dst hops em s
  | .finv h sx_ => Sys2Proof.Machine.execFinv h sx_ s
  | .frel h sx_ => Sys2Proof.Machine.execFrel h sx_ s
  | .fqry h d sx_ => Sys2Proof.Machine.execFqry h d sx_ s
  | .fqryAnc h d sx_ => Sys2Proof.Machine.execFqryAnc h d sx_ s
  | .hld h d a sx_ hops em pred => Sys2Proof.Machine.execHld h d a sx_ hops em pred s
  | .hres h d a sx_ hops em pred => Sys2Proof.Machine.execHres h d a sx_ hops em pred s
  | .fopenInstall op => Sys2Proof.Machine.execFopenInstall op s
  | .fsealAck op => Sys2Proof.Machine.execFsealAck op s
  | .fcompComplete op cells => Sys2Proof.Machine.execFcompComplete op cells s
  | .finvRetirePoint op => Sys2Proof.Machine.execFinvRetirePoint op s
  | .finvComplete op => Sys2Proof.Machine.execFinvComplete op s
  | .frelComplete op => Sys2Proof.Machine.execFrelComplete op s
  | .walkReread w => Sys2Proof.Machine.execWalkReread w s
  | .walkEnd w => Sys2Proof.Machine.execWalkEnd w s
  | .spview h a b => Sys2Proof.Machine.execSpview h a b s
  | .spbegin h a q => Sys2Proof.Machine.execSpbegin h a q s
  | .spsub h a b => Sys2Proof.Machine.execSpsub h a b s
  | .spend h => Sys2Proof.Machine.execSpend h s
  | .spendAbort h => Sys2Proof.Machine.execSpendAbort h s
  | .spbwd h a b => Sys2Proof.Machine.execSpbwd h a b s
  | .spred h a b => Sys2Proof.Machine.execSpred h a b s
  | .spqry h d => Sys2Proof.Machine.execSpqry h d s
  | .spviewOperation cx => Sys2Proof.Machine.execSpviewOperation cx s
  | .spbeginOperation cx => Sys2Proof.Machine.execSpbeginOperation cx s
  | .spsubOperation cx => Sys2Proof.Machine.execSpsubOperation cx s
  | .spendOperation cx => Sys2Proof.Machine.execSpendOperation cx s
  | .spendAbortOperation cx => Sys2Proof.Machine.execSpendAbortOperation cx s
  | .spbwdOperation cx => Sys2Proof.Machine.execSpbwdOperation cx s
  | .spredOperation cx => Sys2Proof.Machine.execSpredOperation cx s
  | .tileRecordPush cx n => Sys2Proof.Machine.execTileRecordPush cx n s
  | .bra h imm => Sys2Proof.Machine.execBra h imm s
  | .brx h a => Sys2Proof.Machine.execBrx h a s
  | .call h d imm => Sys2Proof.Machine.execCall h d imm s
  | .ret h a => Sys2Proof.Machine.execRet h a s
  | .exit h => Sys2Proof.Machine.execExit h s
  | .waitc h wl ws wc wt => Sys2Proof.Machine.execWaitc h wl ws wc wt s
  | .sleep h n => Sys2Proof.Machine.execSleep h n s
  | .sleepDeadline t => Sys2Proof.Machine.execSleepDeadline t s
  | .sleepu h k => Sys2Proof.Machine.execSleepu h k s
  | .missedPromise t => Sys2Proof.Machine.execMissedPromise t s
  | .yieldI h => Sys2Proof.Machine.execYieldI h s
  | .bar h b => Sys2Proof.Machine.execBar h b s
  | .arrive h k b => Sys2Proof.Machine.execArrive h k b s
  | .bwait h k => Sys2Proof.Machine.execBwait h k s
  | .qpush h q a sc => Sys2Proof.Machine.execQpush h q a sc s
  | .qpop h d q st sc => Sys2Proof.Machine.execQpop h d q st sc s
  | .qtry h d q st sc => Sys2Proof.Machine.execQtry h d q st sc s
  | .qclose h q => Sys2Proof.Machine.execQclose h q s
  | .qqry h d q => Sys2Proof.Machine.execQqry h d q s
  | .bkpt h imm => Sys2Proof.Machine.execBkpt h imm s
  | .pushQueueStep acc => Sys2Proof.Machine.execPushQueueStep acc s
  | .stageTimerExpiry gang st => Sys2Proof.Machine.execStageTimerExpiry gang st s
  | .binLaunch gang st => Sys2Proof.Machine.execBinLaunch gang st s
  | .cadenceBoundary gang => Sys2Proof.Machine.execCadenceBoundary gang s
  | .trap h imm => Sys2Proof.Machine.execTrap h imm s
  | .tretResume h x => Sys2Proof.Machine.execTretResume h x s
  | .tretSkip h x => Sys2Proof.Machine.execTretSkip h x s
  | .tretRetry h d a => Sys2Proof.Machine.execTretRetry h d a s
  | .tretFail h d a => Sys2Proof.Machine.execTretFail h d a s
  | .tretKill h d a => Sys2Proof.Machine.execTretKill h d a s
  | .tretAssist h d a b c => Sys2Proof.Machine.execTretAssist h d a b c s
  | .swr h r a => Sys2Proof.Machine.execSwr h r a s
  | .srdp h d r => Sys2Proof.Machine.execSrdp h d r s
  | .tlbiVa h a b => Sys2Proof.Machine.execTlbiVa h a b s
  | .tlbiAsid h b => Sys2Proof.Machine.execTlbiAsid h b s
  | .tlbiAll h => Sys2Proof.Machine.execTlbiAll h s
  | .tlbiComplete op => Sys2Proof.Machine.execTlbiComplete op s
  | .split h d a b cont => Sys2Proof.Machine.execSplit h d a b cont s
  | .launch h d a ch => Sys2Proof.Machine.execLaunch h d a ch s
  | .launchResult t => Sys2Proof.Machine.execLaunchResult t s
  | .attest h d a b => Sys2Proof.Machine.execAttest h d a b s
  | .attestComplete t => Sys2Proof.Machine.execAttestComplete t s
  | .ologrNext h d => Sys2Proof.Machine.execOlogrNext h d s
  | .ologrOpnd h d a => Sys2Proof.Machine.execOlogrOpnd h d a s
  | .faultRecordQueued n => Sys2Proof.Machine.execFaultRecordQueued n s
  | .clauseStart q ts => Sys2Proof.Machine.execClauseStart q ts s
  | .continuationStart q ts => Sys2Proof.Machine.execContinuationStart q ts s
  | .pendingTimeout grp => Sys2Proof.Machine.execPendingTimeout grp s
  | .doorbell p ch => Sys2Proof.Machine.execDoorbell p ch s
  | .clusterPlace l => Sys2Proof.Machine.execClusterPlace l s
  | .gangPlace l => Sys2Proof.Machine.execGangPlace l s
  | .drainLimitExpiry l => Sys2Proof.Machine.execDrainLimitExpiry l s
  | .shadowContextSwitch c cx => Sys2Proof.Machine.execShadowContextSwitch c cx s
  | .contextRestore cx => Sys2Proof.Machine.execContextRestore cx s
  | .teamEnd tm => Sys2Proof.Machine.execTeamEnd tm s
  | .gridEnd l => Sys2Proof.Machine.execGridEnd l s
  | .run p => Sys2Proof.Machine.execRun p s
  | .halt p => Sys2Proof.Machine.execHalt p s
  | .partitionHalted p => Sys2Proof.Machine.execPartitionHalted p s
  | .plimit host w => Sys2Proof.Machine.execPlimit host w s
  | .configRegisterWrite ofs val => Sys2Proof.Machine.execConfigRegisterWrite ofs val s
  | .homeReadRequest die blk c => Sys2Proof.Machine.execHomeReadRequest die blk c s
  | .homeOwnershipRequest die blk c => Sys2Proof.Machine.execHomeOwnershipRequest die blk c s
  | .homeWriteBack die blk c => Sys2Proof.Machine.execHomeWriteBack die blk c s
  | .probe n => Sys2Proof.Machine.execProbe n s
  | .dropNotice die blk c => Sys2Proof.Machine.execDropNotice die blk c s
  | .signatureRebuild c => Sys2Proof.Machine.execSignatureRebuild c s
  | .directoryRequest blk who own => Sys2Proof.Machine.execDirectoryRequest blk who own s
  | .promote c w => Sys2Proof.Machine.execPromote c w s
  | .reset fail dies rbver => Sys2Proof.Machine.execReset fail dies rbver s
  | .correctedError place die unit => Sys2Proof.Machine.execCorrectedError place die unit s
  | .poison place addr => Sys2Proof.Machine.execPoison place addr s
  | .flitRetry l ok => Sys2Proof.Machine.execFlitRetry l ok s
  | .linkRetrain l => Sys2Proof.Machine.execLinkRetrain l s
  | .linkDown l => Sys2Proof.Machine.execLinkDown l s
  | .dieFailure d => Sys2Proof.Machine.execDieFailure d s
  | .ageingEstimate d hours margin => Sys2Proof.Machine.execAgeingEstimate d hours margin s
  | .probeAcknowledgement n => Sys2Proof.Machine.execProbeAcknowledgement n s
  | .grant n => Sys2Proof.Machine.execGrant n s
  | .peerAccess who op pa => Sys2Proof.Machine.execPeerAccess who op pa s
  | .retrainComplete l ok => Sys2Proof.Machine.execRetrainComplete l ok s
  | .downLinkTimeout acc => Sys2Proof.Machine.execDownLinkTimeout acc s
  | .registerFileError t r => Sys2Proof.Machine.execRegisterFileError t r s
  | .salvageCopy blk dst => Sys2Proof.Machine.execSalvageCopy blk dst s
  | .firmwareMemoryWrite pa data => Sys2Proof.Machine.execFirmwareMemoryWrite pa data s

end Sys2Proof.Machine
end

