-- ==== Sys2Proof/Machine/Step.lean ====
section
/-!
DEFINITION. One step of the module: time passes, then a quadrant issues the next word of its issue set, or an event
comes about (R213, R319; log 1).
-/
namespace Sys2Proof.Machine

/-- The set in focus issues the word that it has fetched: its instruction, or the trap of a word that is none. -/
def State.issueNext (s : State) : Out :=
  match s.nextWord with
  | none => .next s
  | some (.ok i) => exec i s
  | some (.reserved i) => .next (s.reservedWord i)
  | some (.bad _) => .next (s.trapSet 0x02)

/-- What follows the issue of a word for a set. -/
def afterWord (q : QuadId) (before : List Thread) : Out → Out
  | .next s => .next (s.afterIssue q before)
  | .fault f => .fault f
  | .refused r => .refused r

/-- The end of every step. -/
def tidied : Out → Out
  | .next s => .next s.endStep
  | .fault f => .fault f
  | .refused r => .refused r

/-- One step. -/
def step (s : State) : Host.Outcome State Fault Refusal :=
  let p := s.pick
  match p.1 with
  | none => tidied (.next p.2)
  | some (.issue q) => let s1 := { p.2.divide q with focus := some q }; tidied (afterWord q s1.front s1.issueNext)
  | some (.event i) => tidied (exec i { p.2 with focus := none })

/-- The state with one instruction ready: a running partition 0 with one thread of a team of one thread on core 0 of die
0, or on the quay core of its row for an instruction of privileged mode, whose clause holds the instruction's word alone
and has been fetched, and an agenda that issues it next. `w` is the header with the word above it. It stands for the
events from RESET to CLAUSE_START by which a program comes to run (log 3). -/
def State.withFetchWord (s : State) (nbits w : Nat) : State := s.placeWord (w % 2 ^ nbits)

end Sys2Proof.Machine
end

