-- ==== Sys2Proof/Laws/Encoding.lean ====
section
/-!
SUPPORT. The fields of an encoded word, read back (R40 to R45).
-/
namespace Sys2Proof
open Code

theorem bn_lt (b : Bool) : bn b < 2 := by cases b <;> decide
theorem bn_eq_one (b : Bool) : (bn b == 1) = b := by cases b <;> rfl
theorem bool_bn (b : Bool) : Code.bool (bn b) = .ok b := by cases b <;> rfl

theorem Opnd.byte_lt (o : Opnd) : o.byte < 256 := by
  cases o with
  | v n => simp only [Opnd.byte]; omega
  | g n => simp only [Opnd.byte]; omega
  | z => decide

theorem o32_byte (o : Opnd) : o32 o.byte = .ok o := by
  cases o with
  | v n => simp [o32, Opnd.byte, n.isLt]
  | g n =>
    have hn := n.isLt
    show o32 (128 + n.val) = _
    unfold o32
    rw [dif_neg (by omega), dif_pos ⟨by omega, by omega⟩]
    have : (⟨128 + n.val - 128, by omega⟩ : Fin 64) = n := Fin.ext (Nat.add_sub_cancel_left ..)
    rw [this]
  | z => rfl

theorem oN_byte {n : Nat} {o : Opnd} (h : o.spanOk n = true) : oN n o.byte = .ok o := by
  simp only [oN, o32_byte]
  show (if o.spanOk n then Except.ok o else Except.error Reject.badSpan) = _
  rw [if_pos h]

theorem oP_byte {o : Opnd} (h : o.spanOk 2 = true) : oP o.byte = .ok o := oN_byte h
theorem oN1or2_byte {b : Bool} {o : Opnd} (h : o.spanOk (if b then 2 else 1) = true) : oN1or2 b o.byte = .ok o := oN_byte h

theorem onlyV_byte {n : Nat} {o : Opnd} (h : o.spanOk n = true) (hg : o.isG = false) : onlyV (oN n o.byte) = .ok o := by
  rw [oN_byte h]
  show (if o.isG then Except.error Reject.badOperand else Except.ok o) = _
  rw [if_neg (by simp [hg])]

/-- The word above its fields: opcode, guard, format, and the lower 48 bits. -/
theorem packWord_fields (opc : Nat) (h : Gd) (fmt l : Nat) (ho : opc < 256) (hf : fmt < 4) (hl : l < 2 ^ 48) :
    fb (packWord opc h fmt l) 63 56 = opc ∧ fb (packWord opc h fmt l) 49 48 = fmt ∧ guardOf (packWord opc h fmt l) = h ∧
      fb (packWord opc h fmt l) 47 0 = l := by
  have hp := h.p.isLt
  have h1 := bn_lt h.neg; have h2 := bn_lt h.reua; have h3 := bn_lt h.reub
  have e4 : fb (packWord opc h fmt l) 55 53 = h.p.val := by simp only [fb, packWord]; omega
  have e5 : fb (packWord opc h fmt l) 52 52 = bn h.neg := by simp only [fb, packWord]; omega
  have e6 : fb (packWord opc h fmt l) 51 51 = bn h.reua := by simp only [fb, packWord]; omega
  have e7 : fb (packWord opc h fmt l) 50 50 = bn h.reub := by simp only [fb, packWord]; omega
  refine ⟨by simp only [fb, packWord]; omega, by simp only [fb, packWord]; omega, ?_, by simp only [fb, packWord]; omega⟩
  simp only [guardOf, e4, e5, e6, e7, bn_eq_one]

theorem ok_bind {α β : Type} (x : α) (f : α → Except Reject β) : (Except.ok x >>= f) = f x := rfl
theorem map_ok {α β : Type} (x : α) (f : α → β) : (f <$> (Except.ok x : Except Reject α)) = .ok (f x) := rfl

/-! ## Words of a class -/

section
variable (quay : Bool) {opc : Nat} {h : Gd} {fmt l : Nat} (ho : opc < 256) (hf : fmt < 4) (hl : l < 2 ^ 48)
include ho hf hl

theorem decodeWord_alu : decodeWord quay 0 (packWord opc h fmt l) = decodeAlu opc fmt h l := by
  obtain ⟨e1, e2, e3, e4⟩ := packWord_fields opc h fmt l ho hf hl
  simp only [decodeWord, e1, e2, e3, e4]
theorem decodeWord_mem : decodeWord quay 1 (packWord opc h fmt l) = decodeMem opc fmt h l := by
  obtain ⟨e1, e2, e3, e4⟩ := packWord_fields opc h fmt l ho hf hl
  simp only [decodeWord, e1, e2, e3, e4]
theorem decodeWord_mx : decodeWord quay 2 (packWord opc h fmt l) = decodeMx opc fmt h l := by
  obtain ⟨e1, e2, e3, e4⟩ := packWord_fields opc h fmt l ho hf hl
  simp only [decodeWord, e1, e2, e3, e4]
theorem decodeWord_cpy : decodeWord quay 3 (packWord opc h fmt l) = decodeCpy opc fmt h l := by
  obtain ⟨e1, e2, e3, e4⟩ := packWord_fields opc h fmt l ho hf hl
  simp only [decodeWord, e1, e2, e3, e4]
theorem decodeWord_fld : decodeWord quay 4 (packWord opc h fmt l) = decodeFld opc fmt h l := by
  obtain ⟨e1, e2, e3, e4⟩ := packWord_fields opc h fmt l ho hf hl
  simp only [decodeWord, e1, e2, e3, e4]
theorem decodeWord_spl : decodeWord quay 5 (packWord opc h fmt l) = decodeSpl opc fmt h l := by
  obtain ⟨e1, e2, e3, e4⟩ := packWord_fields opc h fmt l ho hf hl
  simp only [decodeWord, e1, e2, e3, e4]
theorem decodeWord_ctl : decodeWord quay 6 (packWord opc h fmt l) = decodeCtl opc fmt h l := by
  obtain ⟨e1, e2, e3, e4⟩ := packWord_fields opc h fmt l ho hf hl
  simp only [decodeWord, e1, e2, e3, e4]
theorem decodeWord_sys : decodeWord quay 7 (packWord opc h fmt l) = decodeSys quay opc fmt h l := by
  obtain ⟨e1, e2, e3, e4⟩ := packWord_fields opc h fmt l ho hf hl
  simp only [decodeWord, e1, e2, e3, e4]
end

/-! ## Fields of the lower 48 bits -/

/-- A field below bit n of a value over a multiple of 2^n. -/
theorem fb_low (n k low hi lo : Nat) (h : hi < n) : fb (k * 2 ^ n + low) hi lo = fb low hi lo := by
  by_cases hlo : lo ≤ n
  · obtain ⟨m, rfl⟩ := Nat.exists_eq_add_of_le hlo
    obtain ⟨q, hq⟩ : ∃ q, m = (hi + 1 - lo) + q := ⟨m - (hi + 1 - lo), by omega⟩
    unfold fb
    rw [show k * 2 ^ (lo + m) + low = low + 2 ^ lo * (k * 2 ^ m) by
      rw [Nat.pow_add, Nat.mul_left_comm, Nat.add_comm]]
    rw [Nat.add_mul_div_left _ _ (Nat.two_pow_pos lo)]
    generalize hi + 1 - lo = w at hq ⊢
    rw [hq, Nat.pow_add, show k * (2 ^ w * 2 ^ q) = 2 ^ w * (k * 2 ^ q) by rw [Nat.mul_left_comm], Nat.add_mul_mod_self_left]
  · unfold fb
    rw [show hi + 1 - lo = 0 by omega]
    simp [Nat.mod_one]

theorem fb_small {l hi lo : Nat} (h : l < 2 ^ lo) : fb l hi lo = 0 := by
  unfold fb
  rw [Nat.div_eq_of_lt h, Nat.zero_mod]

theorem fb_at (n k : Nat) {l low hi lo : Nat} (h : hi < n) (e : l = k * 2 ^ n + low) : fb l hi lo = fb low hi lo := by
  rw [e, fb_low n k low hi lo h]

section
variable {d a b c low : Nat}

theorem fieldsR (hd : d < 256) (ha : a < 256) (hb : b < 256) (hc : c < 256) (hl : low < 2 ^ 16) {l : Nat}
    (e : d * 2 ^ 40 + a * 2 ^ 32 + b * 2 ^ 24 + c * 2 ^ 16 + low = l) :
    l < 2 ^ 48 ∧ fb l 47 40 = d ∧ fb l 39 32 = a ∧ fb l 31 24 = b ∧ fb l 23 16 = c ∧
      (∀ hi lo, hi < 16 → fb l hi lo = fb low hi lo) ∧ (∀ hi lo, hi < 24 → fb l hi lo = fb (c * 2 ^ 16 + low) hi lo) ∧
      (∀ hi lo, hi < 32 → fb l hi lo = fb (b * 2 ^ 24 + c * 2 ^ 16 + low) hi lo) ∧
      ∀ hi lo, hi < 40 → fb l hi lo = fb (a * 2 ^ 32 + b * 2 ^ 24 + c * 2 ^ 16 + low) hi lo := by
  refine ⟨by omega, by unfold fb; omega, by unfold fb; omega, by unfold fb; omega, by unfold fb; omega, fun hi lo h => ?_, fun hi lo h => ?_, fun hi lo h => ?_, fun hi lo h => ?_⟩
  · exact fb_at 16 (d * 2 ^ 24 + a * 2 ^ 16 + b * 2 ^ 8 + c) h (by omega)
  · exact fb_at 24 (d * 2 ^ 16 + a * 2 ^ 8 + b) h (by omega)
  · exact fb_at 32 (d * 2 ^ 8 + a) h (by omega)
  · exact fb_at 40 d h (by omega)

theorem fieldsX (hd : d < 256) (ha : a < 256) (hb : b < 256) (hl : low < 2 ^ 24) {l : Nat}
    (e : d * 2 ^ 40 + a * 2 ^ 32 + b * 2 ^ 24 + low = l) :
    l < 2 ^ 48 ∧ fb l 47 40 = d ∧ fb l 39 32 = a ∧ fb l 31 24 = b ∧
      (∀ hi lo, hi < 24 → fb l hi lo = fb low hi lo) ∧ (∀ hi lo, hi < 32 → fb l hi lo = fb (b * 2 ^ 24 + low) hi lo) ∧
      ∀ hi lo, hi < 40 → fb l hi lo = fb (a * 2 ^ 32 + b * 2 ^ 24 + low) hi lo := by
  refine ⟨by omega, by unfold fb; omega, by unfold fb; omega, by unfold fb; omega, fun hi lo h => ?_, fun hi lo h => ?_, fun hi lo h => ?_⟩
  · exact fb_at 24 (d * 2 ^ 16 + a * 2 ^ 8 + b) h (by omega)
  · exact fb_at 32 (d * 2 ^ 8 + a) h (by omega)
  · exact fb_at 40 d h (by omega)

theorem fieldsI (hd : d < 256) (ha : a < 256) (hl : low < 2 ^ 32) {l : Nat} (e : d * 2 ^ 40 + a * 2 ^ 32 + low = l) :
    l < 2 ^ 48 ∧ fb l 47 40 = d ∧ fb l 39 32 = a ∧ (∀ hi lo, hi < 32 → fb l hi lo = fb low hi lo) ∧
      ∀ hi lo, hi < 40 → fb l hi lo = fb (a * 2 ^ 32 + low) hi lo := by
  refine ⟨by omega, by unfold fb; omega, by unfold fb; omega, fun hi lo h => ?_, fun hi lo h => ?_⟩
  · exact fb_at 32 (d * 2 ^ 8 + a) h (by omega)
  · exact fb_at 40 d h (by omega)
end

/-! ## Codes -/

theorem SatMode.code_lt (x : SatMode) : x.code < 4 := by cases x <;> decide
theorem satC_code (x : SatMode) : satC x.code = .ok x := by cases x <;> rfl
theorem RMode.code_lt (x : RMode) : x.code < 4 := by cases x <;> decide
theorem rmC_code (x : RMode) : rmC x.code = .ok x := by cases x <;> rfl
theorem ICmp.code_lt (x : ICmp) : x.code < 6 := by cases x <;> decide
theorem icmpC_code (x : ICmp) : icmpC x.code = .ok x := by cases x <;> rfl
theorem FCmp.code_lt (x : FCmp) : x.code < 16 := by
  rcases x with ⟨c, u⟩ | _ | _
  · cases c <;> cases u <;> decide
  · decide
  · decide
theorem fcmpC_code (x : FCmp) : fcmpC x.code = .ok x := by
  rcases x with ⟨c, u⟩ | _ | _
  · cases c <;> cases u <;> rfl
  · rfl
  · rfl
theorem Merge.code_lt (x : Merge) : x.code < 4 := by cases x <;> decide
theorem mergeC_code (x : Merge) : mergeC x.code = .ok x := by cases x <;> rfl
theorem CvtTy.code_lt (x : CvtTy) : x.code < 13 := by cases x <;> decide
theorem cvtC_code (x : CvtTy) : cvtC x.code = .ok x := by cases x <;> rfl
theorem ShflMode.code_lt (x : ShflMode) : x.code < 4 := by cases x <;> decide
theorem shflC_code (x : ShflMode) : shflC x.code = .ok x := by cases x <;> rfl
theorem VoteKind.code_lt (x : VoteKind) : x.code < 5 := by cases x <;> decide
theorem voteC_code (x : VoteKind) : voteC x.code = .ok x := by cases x <;> rfl
theorem RedOp.code_lt (x : RedOp) : x.code < 8 := by cases x <;> decide
theorem redC_code (x : RedOp) : redC x.code = .ok x := by cases x <;> rfl
theorem Scope.code_lt (x : Scope) : x.code < 4 := by cases x <;> decide
theorem scopeC_code (x : Scope) : scopeC x.code = .ok x := by cases x <;> rfl
theorem Size.code_lt (x : Size) : x.code < 5 := by cases x <;> decide
theorem sizeC_code (x : Size) : sizeC x.code = .ok x := by cases x <;> rfl
theorem tagSizeC_code {x : Size} (h : 4 ≤ x.bytes) : tagSizeC x.code = .ok x := by
  cases x <;> first | rfl | exact absurd h (by decide)
theorem WrapMode.code_lt (x : WrapMode) : x.code < 3 := by cases x <;> decide
theorem wrapC_code (x : WrapMode) : wrapC x.code = .ok x := by cases x <;> rfl
theorem PrefTgt.code_lt (x : PrefTgt) : x.code < 4 := by cases x <;> decide
theorem prefC_code (x : PrefTgt) : prefC x.code = .ok x := by cases x <;> rfl
theorem MxForm.code_lt (x : MxForm) : x.code < 4 := by cases x <;> decide
theorem formC_code (x : MxForm) : formC x.code = .ok x := by cases x <;> rfl
theorem Empty.code_lt (x : Empty) : x.code < 3 := by cases x <;> decide
theorem emptyC_code (x : Empty) : emptyC x.code = .ok x := by cases x <;> rfl
theorem MOrd.code_lt (x : MOrd) : x.code < 4 := by cases x <;> decide
theorem ordC_code (x : MOrd) : ordC x.code = .ok x := by cases x <;> rfl
theorem SrdReg.code_lt (x : SrdReg) : x.code < 256 := by cases x <;> decide
theorem srdC_code (x : SrdReg) : srdC x.code = .ok x := by cases x <;> rfl
theorem AtOp.code_lt (x : AtOp) : x.code < 16 := by cases x <;> simp [AtOp.code]
theorem AtOp.cByte_lt (x : AtOp) : x.cByte < 256 := by
  cases x with
  | cas c => exact c.byte_lt
  | _ => decide
theorem Cover.code_lt (x : Cover) : x.code < 3 := by cases x <;> decide
theorem coverC_code {f : Bool} {s : Scope} {x : Cover} (h : f = false ∨ (s = .system ∧ x = .all)) : coverC f s x.code = .ok x := by
  rcases h with rfl | ⟨rfl, rfl⟩
  · cases x <;> rfl
  · cases f <;> rfl
theorem finC_val {n : Nat} (x : Fin n) (e : Reject) : finC n x.val e = .ok x := by simp [finC, x.isLt]
theorem fin4_val (x : Fin 4) : fin4 x.val = .ok x := finC_val x _
theorem fin8_val (x : Fin 8) : fin8 x.val = .ok x := finC_val x _
theorem fin16_val (x : Fin 16) : fin16 x.val = .ok x := finC_val x _
theorem fin64_val (x : Fin 64) : fin64 x.val = .ok x := finC_val x _
theorem prd_val (x : Fin 8) : prd x.val = .ok x := finC_val x _
theorem tok_val (x : Fin 8) : tok (192 + x.val) = .ok x := by
  unfold tok; rw [if_pos (by omega), Nat.add_sub_cancel_left]; exact finC_val x _
theorem qb_val (x : Fin 8) : qb (200 + x.val) = .ok x := by
  unfold qb; rw [if_pos (by omega), Nat.add_sub_cancel_left]; exact finC_val x _
theorem tile_val (x : Fin 8) : tile (208 + x.val) = .ok x := by
  unfold tile; rw [if_pos (by omega), Nat.add_sub_cancel_left]; exact finC_val x _
theorem qbCode_lt (x : Option (Fin 8)) : qbCode x < 256 := by
  cases x with
  | none => decide
  | some q => have := q.isLt; simp only [qbCode]; omega
theorem qbO_code (x : Option (Fin 8)) : qbO (qbCode x) = .ok x := by
  cases x with
  | none => rfl
  | some q =>
    have := q.isLt
    show qbO (200 + q.val) = _
    unfold qbO
    rw [if_neg (by omega), qb_val]; rfl
theorem byte_toNat (x : Byte) : Code.byte x.toNat = .ok x := by simp [Code.byte]
theorem word_toNat (x : Word) : Code.word x.toNat = .ok x := by simp [Code.word]
theorem bv7_toNat (x : BitVec 7) : bv7 x.toNat = .ok x := by simp [bv7]
theorem bv19_toNat (x : BitVec 19) : bv19 x.toNat = .ok x := by simp [bv19]
theorem fjoinC_toNat {x : BitVec 16} (h : ¬ x = 0) : fjoinC x.toNat = .ok x := by
  have : x.toNat ≠ 0 := fun e => h (BitVec.eq_of_toNat_eq e)
  simp [fjoinC, this]
theorem hopsC_val {x : Fin 16} (h : x.val ≤ 8) : hopsC x.val = .ok x := by rw [hopsC, if_pos h, fin16_val]
theorem distC_val {x : Fin 16} (h : ¬ x.val = 0) : distC x.val = .ok x := by rw [distC, if_neg h, fin16_val]
theorem hiC_bn {d x : Bool} (h : d = true ∨ x = false) : hiC d (bn x) = .ok x := by
  rcases h with rfl | rfl
  · cases x <;> rfl
  · cases d <;> rfl
theorem elemC_val {s : CvtTy} {x : Fin 4} (h : x.val < s.elems) : elemC s x.val = .ok x := by rw [elemC, if_pos h, fin4_val]
theorem ldOrd_bn (x : Bool) : ldOrd (bn x) = .ok x := by cases x <;> rfl
theorem stOrd_bn (x : Bool) : stOrd (2 * bn x) = .ok x := by cases x <;> rfl
theorem sxC_bn {s : Size} {x : Bool} (h : x = false ∨ s.bytes < 4) : sxC s (bn x) = .ok x := by
  rcases h with rfl | h
  · cases s <;> rfl
  · rw [sxC, if_neg (by omega), bool_bn]
theorem promC_bn {a : Bool} {m : MemArg} {x : Bool} (h : x = false ∨ (a = true ∧ 2 ≤ m.scope.code)) : promC a m (bn x) = .ok x := by
  rcases h with rfl | h
  · rfl
  · rw [promC, if_neg (fun e => e.2 h), bool_bn]
theorem cwbScope_code {s : Scope} (h : 2 ≤ s.code) : cwbScope s.code = .ok () := by rw [cwbScope, if_pos h]
theorem zOnly_z : zOnly 255 = .ok () := rfl
theorem oVP_byte {o : Opnd} (h : o.spanOk 2 = true) (hg : o.isG = false) : oVP o.byte = .ok o := onlyV_byte h hg
theorem spanOk_one (o : Opnd) : o.spanOk 1 = true := by cases o <;> simp [Opnd.spanOk, Nat.mod_one] <;> omega
theorem oVZ_byte {o : Opnd} (hg : o.isG = false) : oVZ o.byte = .ok o := onlyV_byte (spanOk_one o) hg
theorem oVB4_byte {o : Opnd} (h : o.spanOk 4 = true) (hg : o.isG = false) : oVB4 o.byte = .ok o := onlyV_byte h hg
theorem oVB8_byte {o : Opnd} (h : o.spanOk 8 = true) (hg : o.isG = false) : oVB8 o.byte = .ok o := onlyV_byte h hg
theorem PrivReg.code_lt (x : PrivReg) : x.code < 32 := by
  cases x with
  | asroot c => have := c.isLt; simp only [PrivReg.code]; omega
  | asasid c => have := c.isLt; simp only [PrivReg.code]; omega
  | _ => decide
theorem privC_code (x : PrivReg) : privC x.code = .ok x := by
  cases x with
  | asroot c =>
    have := c.isLt
    have e : privC (16 + c.val) = if 16 ≤ 16 + c.val ∧ 16 + c.val < 24 then PrivReg.asroot <$> fin8 (16 + c.val - 16)
         else if 24 ≤ 16 + c.val ∧ 16 + c.val < 32 then PrivReg.asasid <$> fin8 (16 + c.val - 24) else .error .badNumber := by
      unfold privC; split <;> first | omega | rfl
    rw [PrivReg.code, e, if_pos ⟨by omega, by omega⟩, Nat.add_sub_cancel_left, fin8_val]; rfl
  | asasid c =>
    have := c.isLt
    have e : privC (24 + c.val) = if 16 ≤ 24 + c.val ∧ 24 + c.val < 24 then PrivReg.asroot <$> fin8 (24 + c.val - 16)
         else if 24 ≤ 24 + c.val ∧ 24 + c.val < 32 then PrivReg.asasid <$> fin8 (24 + c.val - 24) else .error .badNumber := by
      unfold privC; split <;> first | omega | rfl
    rw [PrivReg.code, e, if_neg (by omega), if_pos ⟨by omega, by omega⟩, Nat.add_sub_cancel_left, fin8_val]; rfl
  | _ => rfl
theorem predByte_lt (x : Option (Fin 8)) : predByte x < 256 := by
  cases x with
  | none => decide
  | some p => have := p.isLt; simp only [predByte]; omega
theorem scaleByte_lt (x : Option Opnd) : scaleByte x < 256 := by
  cases x with
  | none => decide
  | some o => exact o.byte_lt

/-! ## Operand groups -/

theorem memP_code {l : Nat} {m : MemArg} (h : m.a.spanOk 2 = true) (e1 : fb l 39 32 = m.a.byte) (e2 : fb l 18 0 = m.ofs.toNat)
    (e3 : fb l 31 28 = m.stream.val) (e4 : fb l 27 26 = m.scope.code) : memP l = .ok m := by
  simp only [memP, e1, e2, e3, e4, oP_byte h, bv19_toNat, fin16_val, scopeC_code, ok_bind]; rfl
theorem memW_code {l : Nat} {m : MemArg} (h : m.a.spanOk 2 = true) (e1 : fb l 39 32 = m.a.byte) (e2 : fb l 18 0 = m.ofs.toNat)
    (e3 : fb l 31 28 = m.stream.val) (e4 : fb l 27 26 = m.scope.code) : memW l = .ok m := memP_code h e1 e2 e3 e4
theorem memV_code {l : Nat} {m : MemArg} (e1 : fb l 39 32 = m.a.byte) (e2 : fb l 18 0 = m.ofs.toNat)
    (e3 : fb l 31 28 = m.stream.val) (e4 : fb l 27 26 = m.scope.code) : memV l = .ok m := by
  simp only [memV, e1, e2, e3, e4, o32_byte, bv19_toNat, fin16_val, scopeC_code, ok_bind]; rfl
theorem memS_code {l : Nat} {m : MemArg} (h : m.a.spanOk 2 = true) (hs : m.scope = .core) (e1 : fb l 39 32 = m.a.byte) (e2 : fb l 18 0 = m.ofs.toNat)
    (e3 : fb l 31 28 = m.stream.val) : memS l = .ok m := by
  simp only [memS, e1, e2, e3, oP_byte h, bv19_toNat, fin16_val, ok_bind]
  rw [← hs]; rfl
theorem copyA_code {l : Nat} {x : CopyArg} (h1 : x.d.spanOk 2 = true) (h2 : x.a.spanOk 2 = true) (e1 : fb l 47 40 = x.d.byte)
    (e2 : fb l 39 32 = x.a.byte) (e3 : fb l 3 0 = x.stream.val) (e4 : fb l 5 4 = x.scope.code) (e5 : fb l 6 6 = bn x.rel) : copyA l = .ok x := by
  simp only [copyA, e1, e2, e3, e4, e5, oP_byte h1, oP_byte h2, fin16_val, scopeC_code, bool_bn, ok_bind]; rfl
theorem predO_code {l : Nat} {x : Option (Fin 8)} (e1 : fb l 12 12 = predCode x / 4096) (e2 : fb l 31 24 = predByte x) : predO l = .ok x := by
  cases x with
  | none => simp only [predO, e1]; rfl
  | some p =>
    rw [predO, e1, e2, if_neg (by show ¬ 4096 / 4096 = 0; decide)]
    simp only [predByte, prd_val]; rfl
theorem scaleO_code {l : Nat} {x : Option Opnd} (e1 : fb l 3 3 = scaleCode x / 8) (e2 : fb l 31 24 = scaleByte x) : scaleO l = .ok x := by
  cases x with
  | none => simp only [scaleO, e1]; rfl
  | some o =>
    rw [scaleO, e1, e2, if_neg (by show ¬ 8 / 8 = 0; decide)]
    simp only [scaleByte, o32_byte]; rfl
theorem atSizeC_bn (b : Bool) : atSizeC (2 + bn b) = .ok b := by cases b <;> rfl
theorem atopC_code {n : Nat} {op : AtOp} (h : match op with | .cas c => c.spanOk n = true | .inc => n = 1 | .dec => n = 1 | _ => True) :
    atopC n op.code op.cByte = .ok op := by
  cases op with
  | cas c => simp only [atopC, AtOp.code, AtOp.cByte, oN_byte h]; rfl
  | inc => simp only at h; subst h; rfl
  | dec => simp only at h; subst h; rfl
  | _ => rfl
theorem atomA_code {glob : Bool} {l : Nat} {x : AtomArg} (h : x.wf glob = true) (e1 : fb l 47 40 = x.d.byte) (e2 : fb l 39 32 = x.a.byte)
    (e3 : fb l 31 24 = x.b.byte) (e4 : fb l 23 16 = x.op.cByte) (e5 : fb l 3 1 = 2 + bn x.b64) (e6 : fb l 7 4 = x.op.code)
    (e7 : fb l 15 12 = x.stream.val) (e8 : fb l 11 10 = x.scope.code) (e9 : fb l 9 8 = x.ord.code) : atomA glob l = .ok x := by
  obtain ⟨d, a, b, op, b64, st, sc, ord⟩ := x
  simp only [AtomArg.wf, Bool.and_eq_true] at h
  obtain ⟨⟨⟨h1, h2⟩, h3⟩, h4⟩ := h
  have h5 : atopC (if b64 then 2 else 1) op.code op.cByte = .ok op := atopC_code (by
    cases op <;> simp_all)
  simp only [atomA, e1, e2, e3, e4, e5, e6, e7, e8, e9, atSizeC_bn, oN1or2_byte h1, oN1or2_byte h2, oN1or2_byte h3, h5, fin16_val,
    scopeC_code, ordC_code, ok_bind]
  rfl

end Sys2Proof
end

