-- ==== Sys2Proof/Laws/PerInstr.lean ====
section
/-!
SUPPORT. The family RoundTrip: every well-formed instruction is read back from its own word.
-/
set_option linter.unusedSimpArgs false
set_option linter.unusedVariables false

namespace Sys2Proof.Laws.RoundTrip
open Sys2Proof.Code

/-- TRET has one form on the quay cores and one on the others (R420); every other word is the same on both. -/
def formOk (quay : Bool) : Instr → Bool
  | .tretResume _ (.quay _ _) => quay
  | .tretSkip _ (.quay _ _) => quay
  | .tretResume _ (.kernelLocal _) => !quay
  | .tretSkip _ (.kernelLocal _) => !quay
  | .tretRetry _ _ _ => quay
  | .tretFail _ _ _ => quay
  | .tretKill _ _ _ => quay
  | .tretAssist _ _ _ _ _ => quay
  | _ => true

/-- The word of a well-formed instruction decodes to that instruction; an event has no word. -/
def Statement (i : Instr) : Prop :=
  i.wf = true → ∀ quay, formOk quay i = true → ∀ w, encode i = some w → decodeWord quay w.1 w.2 = .ok i

theorem nop (h : Gd) : Statement (.nop h) := by
  intro hw quay hq w hE; obtain rfl := Option.some.inj hE
  obtain ⟨L, hL⟩ : ∃ L, 0 * 2 ^ 40 + 0 * 2 ^ 32 + 0 * 2 ^ 24 + 0 * 2 ^ 16 + 0 = L := ⟨_, rfl⟩
  obtain ⟨g0, g1, g2, g3, g4, l16, l24, l32, l40⟩ := fieldsR (by omega) (by omega) (by omega) (by omega) (by omega) hL
  refine Eq.trans (b := decodeAlu 0 0 h L) (by subst hL; exact decodeWord_alu quay (by decide) (by decide) g0) ?_
  have f47_0 : fb L 47 0 = 0 := fb_small (by omega)
  show fin (do pure (.nop h)) ((fb L 47 0)) = _
  simp only [f47_0, ok_bind]
  rfl
theorem iadd (h : Gd) (d a b : Opnd) (sat : SatMode) : Statement (.iadd h d a b sat) := by
  intro hw quay hq w hE; obtain rfl := Option.some.inj hE
  have k0 := d.byte_lt; have k1 := a.byte_lt; have k2 := b.byte_lt; have k3 := sat.code_lt
  obtain ⟨L, hL⟩ : ∃ L, d.byte * 2 ^ 40 + a.byte * 2 ^ 32 + b.byte * 2 ^ 24 + 0 * 2 ^ 16 + sat.code = L := ⟨_, rfl⟩
  obtain ⟨g0, g1, g2, g3, g4, l16, l24, l32, l40⟩ := fieldsR (by omega) (by omega) (by omega) (by omega) (by omega) hL
  refine Eq.trans (b := decodeAlu 1 0 h L) (by subst hL; exact decodeWord_alu quay (by decide) (by decide) g0) ?_
  have f1_0 : fb L 1 0 = sat.code := (l16 1 0 (by decide)).trans (by unfold fb; omega)
  have f23_2 : fb L 23 2 = 0 := (l24 23 2 (by decide)).trans (by unfold fb; omega)
  show fin (do let d ← o32 (fb L 47 40); let a ← o32 (fb L 39 32); let b ← o32 (fb L 31 24); let sat ← satC (fb L 1 0); pure (.iadd h d a b sat)) ((fb L 23 2)) = _
  simp only [g1, g2, g3, f1_0, f23_2, o32_byte, satC_code, ok_bind]
  rfl
theorem iaddI (h : Gd) (d a : Opnd) (imm : Word) : Statement (.iaddI h d a imm) := by
  intro hw quay hq w hE; obtain rfl := Option.some.inj hE
  have k0 := d.byte_lt; have k1 := a.byte_lt; have k2 := imm.isLt
  obtain ⟨L, hL⟩ : ∃ L, d.byte * 2 ^ 40 + a.byte * 2 ^ 32 + imm.toNat = L := ⟨_, rfl⟩
  obtain ⟨g0, g1, g2, l32, l40⟩ := fieldsI (by omega) (by omega) (by omega) hL
  refine Eq.trans (b := decodeAlu 1 1 h L) (by subst hL; exact decodeWord_alu quay (by decide) (by decide) g0) ?_
  have f31_0 : fb L 31 0 = imm.toNat := (l32 31 0 (by decide)).trans (by unfold fb; omega)
  show fin (do let d ← o32 (fb L 47 40); let a ← o32 (fb L 39 32); let imm ← word (fb L 31 0); pure (.iaddI h d a imm)) (0) = _
  simp only [g1, g2, f31_0, o32_byte, word_toNat, ok_bind]
  rfl
theorem isub (h : Gd) (d a b : Opnd) (sat : SatMode) : Statement (.isub h d a b sat) := by
  intro hw quay hq w hE; obtain rfl := Option.some.inj hE
  have k0 := d.byte_lt; have k1 := a.byte_lt; have k2 := b.byte_lt; have k3 := sat.code_lt
  obtain ⟨L, hL⟩ : ∃ L, d.byte * 2 ^ 40 + a.byte * 2 ^ 32 + b.byte * 2 ^ 24 + 0 * 2 ^ 16 + sat.code = L := ⟨_, rfl⟩
  obtain ⟨g0, g1, g2, g3, g4, l16, l24, l32, l40⟩ := fieldsR (by omega) (by omega) (by omega) (by omega) (by omega) hL
  refine Eq.trans (b := decodeAlu 2 0 h L) (by subst hL; exact decodeWord_alu quay (by decide) (by decide) g0) ?_
  have f1_0 : fb L 1 0 = sat.code := (l16 1 0 (by decide)).trans (by unfold fb; omega)
  have f23_2 : fb L 23 2 = 0 := (l24 23 2 (by decide)).trans (by unfold fb; omega)
  show fin (do let d ← o32 (fb L 47 40); let a ← o32 (fb L 39 32); let b ← o32 (fb L 31 24); let sat ← satC (fb L 1 0); pure (.isub h d a b sat)) ((fb L 23 2)) = _
  simp only [g1, g2, g3, f1_0, f23_2, o32_byte, satC_code, ok_bind]
  rfl
theorem isubI (h : Gd) (d a : Opnd) (imm : Word) : Statement (.isubI h d a imm) := by
  intro hw quay hq w hE; obtain rfl := Option.some.inj hE
  have k0 := d.byte_lt; have k1 := a.byte_lt; have k2 := imm.isLt
  obtain ⟨L, hL⟩ : ∃ L, d.byte * 2 ^ 40 + a.byte * 2 ^ 32 + imm.toNat = L := ⟨_, rfl⟩
  obtain ⟨g0, g1, g2, l32, l40⟩ := fieldsI (by omega) (by omega) (by omega) hL
  refine Eq.trans (b := decodeAlu 2 1 h L) (by subst hL; exact decodeWord_alu quay (by decide) (by decide) g0) ?_
  have f31_0 : fb L 31 0 = imm.toNat := (l32 31 0 (by decide)).trans (by unfold fb; omega)
  show fin (do let d ← o32 (fb L 47 40); let a ← o32 (fb L 39 32); let imm ← word (fb L 31 0); pure (.isubI h d a imm)) (0) = _
  simp only [g1, g2, f31_0, o32_byte, word_toNat, ok_bind]
  rfl
theorem imul (h : Gd) (d a b : Opnd) : Statement (.imul h d a b) := by
  intro hw quay hq w hE; obtain rfl := Option.some.inj hE
  have k0 := d.byte_lt; have k1 := a.byte_lt; have k2 := b.byte_lt
  obtain ⟨L, hL⟩ : ∃ L, d.byte * 2 ^ 40 + a.byte * 2 ^ 32 + b.byte * 2 ^ 24 + 0 * 2 ^ 16 + 0 = L := ⟨_, rfl⟩
  obtain ⟨g0, g1, g2, g3, g4, l16, l24, l32, l40⟩ := fieldsR (by omega) (by omega) (by omega) (by omega) (by omega) hL
  refine Eq.trans (b := decodeAlu 3 0 h L) (by subst hL; exact decodeWord_alu quay (by decide) (by decide) g0) ?_
  have f23_0 : fb L 23 0 = 0 := (l24 23 0 (by decide)).trans (by unfold fb; omega)
  show fin (do let d ← o32 (fb L 47 40); let a ← o32 (fb L 39 32); let b ← o32 (fb L 31 24); pure (.imul h d a b)) ((fb L 23 0)) = _
  simp only [g1, g2, g3, f23_0, o32_byte, ok_bind]
  rfl
theorem imulI (h : Gd) (d a : Opnd) (imm : Word) : Statement (.imulI h d a imm) := by
  intro hw quay hq w hE; obtain rfl := Option.some.inj hE
  have k0 := d.byte_lt; have k1 := a.byte_lt; have k2 := imm.isLt
  obtain ⟨L, hL⟩ : ∃ L, d.byte * 2 ^ 40 + a.byte * 2 ^ 32 + imm.toNat = L := ⟨_, rfl⟩
  obtain ⟨g0, g1, g2, l32, l40⟩ := fieldsI (by omega) (by omega) (by omega) hL
  refine Eq.trans (b := decodeAlu 3 1 h L) (by subst hL; exact decodeWord_alu quay (by decide) (by decide) g0) ?_
  have f31_0 : fb L 31 0 = imm.toNat := (l32 31 0 (by decide)).trans (by unfold fb; omega)
  show fin (do let d ← o32 (fb L 47 40); let a ← o32 (fb L 39 32); let imm ← word (fb L 31 0); pure (.imulI h d a imm)) (0) = _
  simp only [g1, g2, f31_0, o32_byte, word_toNat, ok_bind]
  rfl
theorem imulh (h : Gd) (d a b : Opnd) (uns : Bool) : Statement (.imulh h d a b uns) := by
  intro hw quay hq w hE; obtain rfl := Option.some.inj hE
  have k0 := d.byte_lt; have k1 := a.byte_lt; have k2 := b.byte_lt; have k3 := bn_lt uns
  obtain ⟨L, hL⟩ : ∃ L, d.byte * 2 ^ 40 + a.byte * 2 ^ 32 + b.byte * 2 ^ 24 + 0 * 2 ^ 16 + (bn uns) = L := ⟨_, rfl⟩
  obtain ⟨g0, g1, g2, g3, g4, l16, l24, l32, l40⟩ := fieldsR (by omega) (by omega) (by omega) (by omega) (by omega) hL
  refine Eq.trans (b := decodeAlu 4 0 h L) (by subst hL; exact decodeWord_alu quay (by decide) (by decide) g0) ?_
  have f0_0 : fb L 0 0 = bn uns := (l16 0 0 (by decide)).trans (by unfold fb; omega)
  have f23_1 : fb L 23 1 = 0 := (l24 23 1 (by decide)).trans (by unfold fb; omega)
  show fin (do let d ← o32 (fb L 47 40); let a ← o32 (fb L 39 32); let b ← o32 (fb L 31 24); let uns ← bool (fb L 0 0); pure (.imulh h d a b uns)) ((fb L 23 1)) = _
  simp only [g1, g2, g3, f0_0, f23_1, o32_byte, bool_bn, ok_bind]
  rfl
theorem imad (h : Gd) (d a b c : Opnd) : Statement (.imad h d a b c) := by
  intro hw quay hq w hE; obtain rfl := Option.some.inj hE
  have k0 := d.byte_lt; have k1 := a.byte_lt; have k2 := b.byte_lt; have k3 := c.byte_lt
  obtain ⟨L, hL⟩ : ∃ L, d.byte * 2 ^ 40 + a.byte * 2 ^ 32 + b.byte * 2 ^ 24 + c.byte * 2 ^ 16 + 0 = L := ⟨_, rfl⟩
  obtain ⟨g0, g1, g2, g3, g4, l16, l24, l32, l40⟩ := fieldsR (by omega) (by omega) (by omega) (by omega) (by omega) hL
  refine Eq.trans (b := decodeAlu 5 0 h L) (by subst hL; exact decodeWord_alu quay (by decide) (by decide) g0) ?_
  have f15_0 : fb L 15 0 = 0 := (l16 15 0 (by decide)).trans (by unfold fb; omega)
  show fin (do let d ← o32 (fb L 47 40); let a ← o32 (fb L 39 32); let b ← o32 (fb L 31 24); let c ← o32 (fb L 23 16); pure (.imad h d a b c)) ((fb L 15 0)) = _
  simp only [g1, g2, g3, g4, f15_0, o32_byte, ok_bind]
  rfl
theorem imadw (h : Gd) (d a b c : Opnd) (uns : Bool) : Statement (.imadw h d a b c uns) := by
  intro hw quay hq w hE; obtain rfl := Option.some.inj hE
  have hw : (d.spanOk 2 && c.spanOk 2) = true := hw
  simp only [Bool.and_eq_true, Bool.or_eq_true, Bool.not_eq_true', decide_eq_true_eq, bne_iff_ne, beq_iff_eq, ne_eq] at hw
  have k0 := d.byte_lt; have k1 := a.byte_lt; have k2 := b.byte_lt; have k3 := c.byte_lt; have k4 := bn_lt uns
  obtain ⟨L, hL⟩ : ∃ L, d.byte * 2 ^ 40 + a.byte * 2 ^ 32 + b.byte * 2 ^ 24 + c.byte * 2 ^ 16 + (bn uns) = L := ⟨_, rfl⟩
  obtain ⟨g0, g1, g2, g3, g4, l16, l24, l32, l40⟩ := fieldsR (by omega) (by omega) (by omega) (by omega) (by omega) hL
  refine Eq.trans (b := decodeAlu 6 0 h L) (by subst hL; exact decodeWord_alu quay (by decide) (by decide) g0) ?_
  have f0_0 : fb L 0 0 = bn uns := (l16 0 0 (by decide)).trans (by unfold fb; omega)
  have f15_1 : fb L 15 1 = 0 := (l16 15 1 (by decide)).trans (by unfold fb; omega)
  show fin (do let d ← oP (fb L 47 40); let a ← o32 (fb L 39 32); let b ← o32 (fb L 31 24); let c ← oP (fb L 23 16); let uns ← bool (fb L 0 0); pure (.imadw h d a b c uns)) ((fb L 15 1)) = _
  simp only [g1, g2, g3, g4, f0_0, f15_1, oP_byte, o32_byte, bool_bn, hw, ok_bind]
  rfl
theorem idiv (h : Gd) (d a b : Opnd) (uns : Bool) : Statement (.idiv h d a b uns) := by
  intro hw quay hq w hE; obtain rfl := Option.some.inj hE
  have k0 := d.byte_lt; have k1 := a.byte_lt; have k2 := b.byte_lt; have k3 := bn_lt uns
  obtain ⟨L, hL⟩ : ∃ L, d.byte * 2 ^ 40 + a.byte * 2 ^ 32 + b.byte * 2 ^ 24 + 0 * 2 ^ 16 + (bn uns) = L := ⟨_, rfl⟩
  obtain ⟨g0, g1, g2, g3, g4, l16, l24, l32, l40⟩ := fieldsR (by omega) (by omega) (by omega) (by omega) (by omega) hL
  refine Eq.trans (b := decodeAlu 7 0 h L) (by subst hL; exact decodeWord_alu quay (by decide) (by decide) g0) ?_
  have f0_0 : fb L 0 0 = bn uns := (l16 0 0 (by decide)).trans (by unfold fb; omega)
  have f23_1 : fb L 23 1 = 0 := (l24 23 1 (by decide)).trans (by unfold fb; omega)
  show fin (do let d ← o32 (fb L 47 40); let a ← o32 (fb L 39 32); let b ← o32 (fb L 31 24); let uns ← bool (fb L 0 0); pure (.idiv h d a b uns)) ((fb L 23 1)) = _
  simp only [g1, g2, g3, f0_0, f23_1, o32_byte, bool_bn, ok_bind]
  rfl
theorem irem (h : Gd) (d a b : Opnd) (uns : Bool) : Statement (.irem h d a b uns) := by
  intro hw quay hq w hE; obtain rfl := Option.some.inj hE
  have k0 := d.byte_lt; have k1 := a.byte_lt; have k2 := b.byte_lt; have k3 := bn_lt uns
  obtain ⟨L, hL⟩ : ∃ L, d.byte * 2 ^ 40 + a.byte * 2 ^ 32 + b.byte * 2 ^ 24 + 0 * 2 ^ 16 + (bn uns) = L := ⟨_, rfl⟩
  obtain ⟨g0, g1, g2, g3, g4, l16, l24, l32, l40⟩ := fieldsR (by omega) (by omega) (by omega) (by omega) (by omega) hL
  refine Eq.trans (b := decodeAlu 8 0 h L) (by subst hL; exact decodeWord_alu quay (by decide) (by decide) g0) ?_
  have f0_0 : fb L 0 0 = bn uns := (l16 0 0 (by decide)).trans (by unfold fb; omega)
  have f23_1 : fb L 23 1 = 0 := (l24 23 1 (by decide)).trans (by unfold fb; omega)
  show fin (do let d ← o32 (fb L 47 40); let a ← o32 (fb L 39 32); let b ← o32 (fb L 31 24); let uns ← bool (fb L 0 0); pure (.irem h d a b uns)) ((fb L 23 1)) = _
  simp only [g1, g2, g3, f0_0, f23_1, o32_byte, bool_bn, ok_bind]
  rfl
theorem iabs (h : Gd) (d a : Opnd) (sat : Bool) : Statement (.iabs h d a sat) := by
  intro hw quay hq w hE; obtain rfl := Option.some.inj hE
  have k0 := d.byte_lt; have k1 := a.byte_lt; have k2 := bn_lt sat
  obtain ⟨L, hL⟩ : ∃ L, d.byte * 2 ^ 40 + a.byte * 2 ^ 32 + 0 * 2 ^ 24 + 0 * 2 ^ 16 + (bn sat * 2) = L := ⟨_, rfl⟩
  obtain ⟨g0, g1, g2, g3, g4, l16, l24, l32, l40⟩ := fieldsR (by omega) (by omega) (by omega) (by omega) (by omega) hL
  refine Eq.trans (b := decodeAlu 9 0 h L) (by subst hL; exact decodeWord_alu quay (by decide) (by decide) g0) ?_
  have f1_1 : fb L 1 1 = bn sat := (l16 1 1 (by decide)).trans (by unfold fb; omega)
  have f0_0 : fb L 0 0 = 0 := (l16 0 0 (by decide)).trans (by unfold fb; omega)
  have f31_2 : fb L 31 2 = 0 := (l32 31 2 (by decide)).trans (by unfold fb; omega)
  show fin (do let d ← o32 (fb L 47 40); let a ← o32 (fb L 39 32); let sat ← bool (fb L 1 1); pure (.iabs h d a sat)) ((fb L 0 0) + (fb L 31 2)) = _
  simp only [g1, g2, f1_1, f0_0, f31_2, o32_byte, bool_bn, ok_bind]
  rfl
theorem ineg (h : Gd) (d a : Opnd) (sat : Bool) : Statement (.ineg h d a sat) := by
  intro hw quay hq w hE; obtain rfl := Option.some.inj hE
  have k0 := d.byte_lt; have k1 := a.byte_lt; have k2 := bn_lt sat
  obtain ⟨L, hL⟩ : ∃ L, d.byte * 2 ^ 40 + a.byte * 2 ^ 32 + 0 * 2 ^ 24 + 0 * 2 ^ 16 + (bn sat * 2) = L := ⟨_, rfl⟩
  obtain ⟨g0, g1, g2, g3, g4, l16, l24, l32, l40⟩ := fieldsR (by omega) (by omega) (by omega) (by omega) (by omega) hL
  refine Eq.trans (b := decodeAlu 10 0 h L) (by subst hL; exact decodeWord_alu quay (by decide) (by decide) g0) ?_
  have f1_1 : fb L 1 1 = bn sat := (l16 1 1 (by decide)).trans (by unfold fb; omega)
  have f0_0 : fb L 0 0 = 0 := (l16 0 0 (by decide)).trans (by unfold fb; omega)
  have f31_2 : fb L 31 2 = 0 := (l32 31 2 (by decide)).trans (by unfold fb; omega)
  show fin (do let d ← o32 (fb L 47 40); let a ← o32 (fb L 39 32); let sat ← bool (fb L 1 1); pure (.ineg h d a sat)) ((fb L 0 0) + (fb L 31 2)) = _
  simp only [g1, g2, f1_1, f0_0, f31_2, o32_byte, bool_bn, ok_bind]
  rfl
theorem imin (h : Gd) (d a b : Opnd) (uns : Bool) : Statement (.imin h d a b uns) := by
  intro hw quay hq w hE; obtain rfl := Option.some.inj hE
  have k0 := d.byte_lt; have k1 := a.byte_lt; have k2 := b.byte_lt; have k3 := bn_lt uns
  obtain ⟨L, hL⟩ : ∃ L, d.byte * 2 ^ 40 + a.byte * 2 ^ 32 + b.byte * 2 ^ 24 + 0 * 2 ^ 16 + (bn uns) = L := ⟨_, rfl⟩
  obtain ⟨g0, g1, g2, g3, g4, l16, l24, l32, l40⟩ := fieldsR (by omega) (by omega) (by omega) (by omega) (by omega) hL
  refine Eq.trans (b := decodeAlu 11 0 h L) (by subst hL; exact decodeWord_alu quay (by decide) (by decide) g0) ?_
  have f0_0 : fb L 0 0 = bn uns := (l16 0 0 (by decide)).trans (by unfold fb; omega)
  have f23_1 : fb L 23 1 = 0 := (l24 23 1 (by decide)).trans (by unfold fb; omega)
  show fin (do let d ← o32 (fb L 47 40); let a ← o32 (fb L 39 32); let b ← o32 (fb L 31 24); let uns ← bool (fb L 0 0); pure (.imin h d a b uns)) ((fb L 23 1)) = _
  simp only [g1, g2, g3, f0_0, f23_1, o32_byte, bool_bn, ok_bind]
  rfl
theorem iminI (h : Gd) (d a : Opnd) (imm : Word) : Statement (.iminI h d a imm) := by
  intro hw quay hq w hE; obtain rfl := Option.some.inj hE
  have k0 := d.byte_lt; have k1 := a.byte_lt; have k2 := imm.isLt
  obtain ⟨L, hL⟩ : ∃ L, d.byte * 2 ^ 40 + a.byte * 2 ^ 32 + imm.toNat = L := ⟨_, rfl⟩
  obtain ⟨g0, g1, g2, l32, l40⟩ := fieldsI (by omega) (by omega) (by omega) hL
  refine Eq.trans (b := decodeAlu 11 1 h L) (by subst hL; exact decodeWord_alu quay (by decide) (by decide) g0) ?_
  have f31_0 : fb L 31 0 = imm.toNat := (l32 31 0 (by decide)).trans (by unfold fb; omega)
  show fin (do let d ← o32 (fb L 47 40); let a ← o32 (fb L 39 32); let imm ← word (fb L 31 0); pure (.iminI h d a imm)) (0) = _
  simp only [g1, g2, f31_0, o32_byte, word_toNat, ok_bind]
  rfl
theorem imax (h : Gd) (d a b : Opnd) (uns : Bool) : Statement (.imax h d a b uns) := by
  intro hw quay hq w hE; obtain rfl := Option.some.inj hE
  have k0 := d.byte_lt; have k1 := a.byte_lt; have k2 := b.byte_lt; have k3 := bn_lt uns
  obtain ⟨L, hL⟩ : ∃ L, d.byte * 2 ^ 40 + a.byte * 2 ^ 32 + b.byte * 2 ^ 24 + 0 * 2 ^ 16 + (bn uns) = L := ⟨_, rfl⟩
  obtain ⟨g0, g1, g2, g3, g4, l16, l24, l32, l40⟩ := fieldsR (by omega) (by omega) (by omega) (by omega) (by omega) hL
  refine Eq.trans (b := decodeAlu 12 0 h L) (by subst hL; exact decodeWord_alu quay (by decide) (by decide) g0) ?_
  have f0_0 : fb L 0 0 = bn uns := (l16 0 0 (by decide)).trans (by unfold fb; omega)
  have f23_1 : fb L 23 1 = 0 := (l24 23 1 (by decide)).trans (by unfold fb; omega)
  show fin (do let d ← o32 (fb L 47 40); let a ← o32 (fb L 39 32); let b ← o32 (fb L 31 24); let uns ← bool (fb L 0 0); pure (.imax h d a b uns)) ((fb L 23 1)) = _
  simp only [g1, g2, g3, f0_0, f23_1, o32_byte, bool_bn, ok_bind]
  rfl
theorem imaxI (h : Gd) (d a : Opnd) (imm : Word) : Statement (.imaxI h d a imm) := by
  intro hw quay hq w hE; obtain rfl := Option.some.inj hE
  have k0 := d.byte_lt; have k1 := a.byte_lt; have k2 := imm.isLt
  obtain ⟨L, hL⟩ : ∃ L, d.byte * 2 ^ 40 + a.byte * 2 ^ 32 + imm.toNat = L := ⟨_, rfl⟩
  obtain ⟨g0, g1, g2, l32, l40⟩ := fieldsI (by omega) (by omega) (by omega) hL
  refine Eq.trans (b := decodeAlu 12 1 h L) (by subst hL; exact decodeWord_alu quay (by decide) (by decide) g0) ?_
  have f31_0 : fb L 31 0 = imm.toNat := (l32 31 0 (by decide)).trans (by unfold fb; omega)
  show fin (do let d ← o32 (fb L 47 40); let a ← o32 (fb L 39 32); let imm ← word (fb L 31 0); pure (.imaxI h d a imm)) (0) = _
  simp only [g1, g2, f31_0, o32_byte, word_toNat, ok_bind]
  rfl
theorem iclamp (h : Gd) (d a b c : Opnd) (uns : Bool) : Statement (.iclamp h d a b c uns) := by
  intro hw quay hq w hE; obtain rfl := Option.some.inj hE
  have k0 := d.byte_lt; have k1 := a.byte_lt; have k2 := b.byte_lt; have k3 := c.byte_lt; have k4 := bn_lt uns
  obtain ⟨L, hL⟩ : ∃ L, d.byte * 2 ^ 40 + a.byte * 2 ^ 32 + b.byte * 2 ^ 24 + c.byte * 2 ^ 16 + (bn uns) = L := ⟨_, rfl⟩
  obtain ⟨g0, g1, g2, g3, g4, l16, l24, l32, l40⟩ := fieldsR (by omega) (by omega) (by omega) (by omega) (by omega) hL
  refine Eq.trans (b := decodeAlu 13 0 h L) (by subst hL; exact decodeWord_alu quay (by decide) (by decide) g0) ?_
  have f0_0 : fb L 0 0 = bn uns := (l16 0 0 (by decide)).trans (by unfold fb; omega)
  have f15_1 : fb L 15 1 = 0 := (l16 15 1 (by decide)).trans (by unfold fb; omega)
  show fin (do let d ← o32 (fb L 47 40); let a ← o32 (fb L 39 32); let b ← o32 (fb L 31 24); let c ← o32 (fb L 23 16); let uns ← bool (fb L 0 0); pure (.iclamp h d a b c uns)) ((fb L 15 1)) = _
  simp only [g1, g2, g3, g4, f0_0, f15_1, o32_byte, bool_bn, ok_bind]
  rfl
theorem andB (h : Gd) (d a b : Opnd) : Statement (.andB h d a b) := by
  intro hw quay hq w hE; obtain rfl := Option.some.inj hE
  have k0 := d.byte_lt; have k1 := a.byte_lt; have k2 := b.byte_lt
  obtain ⟨L, hL⟩ : ∃ L, d.byte * 2 ^ 40 + a.byte * 2 ^ 32 + b.byte * 2 ^ 24 + 0 * 2 ^ 16 + 0 = L := ⟨_, rfl⟩
  obtain ⟨g0, g1, g2, g3, g4, l16, l24, l32, l40⟩ := fieldsR (by omega) (by omega) (by omega) (by omega) (by omega) hL
  refine Eq.trans (b := decodeAlu 16 0 h L) (by subst hL; exact decodeWord_alu quay (by decide) (by decide) g0) ?_
  have f23_0 : fb L 23 0 = 0 := (l24 23 0 (by decide)).trans (by unfold fb; omega)
  show fin (do let d ← o32 (fb L 47 40); let a ← o32 (fb L 39 32); let b ← o32 (fb L 31 24); pure (.andB h d a b)) ((fb L 23 0)) = _
  simp only [g1, g2, g3, f23_0, o32_byte, ok_bind]
  rfl
theorem andI (h : Gd) (d a : Opnd) (imm : Word) : Statement (.andI h d a imm) := by
  intro hw quay hq w hE; obtain rfl := Option.some.inj hE
  have k0 := d.byte_lt; have k1 := a.byte_lt; have k2 := imm.isLt
  obtain ⟨L, hL⟩ : ∃ L, d.byte * 2 ^ 40 + a.byte * 2 ^ 32 + imm.toNat = L := ⟨_, rfl⟩
  obtain ⟨g0, g1, g2, l32, l40⟩ := fieldsI (by omega) (by omega) (by omega) hL
  refine Eq.trans (b := decodeAlu 16 1 h L) (by subst hL; exact decodeWord_alu quay (by decide) (by decide) g0) ?_
  have f31_0 : fb L 31 0 = imm.toNat := (l32 31 0 (by decide)).trans (by unfold fb; omega)
  show fin (do let d ← o32 (fb L 47 40); let a ← o32 (fb L 39 32); let imm ← word (fb L 31 0); pure (.andI h d a imm)) (0) = _
  simp only [g1, g2, f31_0, o32_byte, word_toNat, ok_bind]
  rfl
theorem orB (h : Gd) (d a b : Opnd) : Statement (.orB h d a b) := by
  intro hw quay hq w hE; obtain rfl := Option.some.inj hE
  have k0 := d.byte_lt; have k1 := a.byte_lt; have k2 := b.byte_lt
  obtain ⟨L, hL⟩ : ∃ L, d.byte * 2 ^ 40 + a.byte * 2 ^ 32 + b.byte * 2 ^ 24 + 0 * 2 ^ 16 + 0 = L := ⟨_, rfl⟩
  obtain ⟨g0, g1, g2, g3, g4, l16, l24, l32, l40⟩ := fieldsR (by omega) (by omega) (by omega) (by omega) (by omega) hL
  refine Eq.trans (b := decodeAlu 17 0 h L) (by subst hL; exact decodeWord_alu quay (by decide) (by decide) g0) ?_
  have f23_0 : fb L 23 0 = 0 := (l24 23 0 (by decide)).trans (by unfold fb; omega)
  show fin (do let d ← o32 (fb L 47 40); let a ← o32 (fb L 39 32); let b ← o32 (fb L 31 24); pure (.orB h d a b)) ((fb L 23 0)) = _
  simp only [g1, g2, g3, f23_0, o32_byte, ok_bind]
  rfl
theorem orI (h : Gd) (d a : Opnd) (imm : Word) : Statement (.orI h d a imm) := by
  intro hw quay hq w hE; obtain rfl := Option.some.inj hE
  have k0 := d.byte_lt; have k1 := a.byte_lt; have k2 := imm.isLt
  obtain ⟨L, hL⟩ : ∃ L, d.byte * 2 ^ 40 + a.byte * 2 ^ 32 + imm.toNat = L := ⟨_, rfl⟩
  obtain ⟨g0, g1, g2, l32, l40⟩ := fieldsI (by omega) (by omega) (by omega) hL
  refine Eq.trans (b := decodeAlu 17 1 h L) (by subst hL; exact decodeWord_alu quay (by decide) (by decide) g0) ?_
  have f31_0 : fb L 31 0 = imm.toNat := (l32 31 0 (by decide)).trans (by unfold fb; omega)
  show fin (do let d ← o32 (fb L 47 40); let a ← o32 (fb L 39 32); let imm ← word (fb L 31 0); pure (.orI h d a imm)) (0) = _
  simp only [g1, g2, f31_0, o32_byte, word_toNat, ok_bind]
  rfl
theorem xorB (h : Gd) (d a b : Opnd) : Statement (.xorB h d a b) := by
  intro hw quay hq w hE; obtain rfl := Option.some.inj hE
  have k0 := d.byte_lt; have k1 := a.byte_lt; have k2 := b.byte_lt
  obtain ⟨L, hL⟩ : ∃ L, d.byte * 2 ^ 40 + a.byte * 2 ^ 32 + b.byte * 2 ^ 24 + 0 * 2 ^ 16 + 0 = L := ⟨_, rfl⟩
  obtain ⟨g0, g1, g2, g3, g4, l16, l24, l32, l40⟩ := fieldsR (by omega) (by omega) (by omega) (by omega) (by omega) hL
  refine Eq.trans (b := decodeAlu 18 0 h L) (by subst hL; exact decodeWord_alu quay (by decide) (by decide) g0) ?_
  have f23_0 : fb L 23 0 = 0 := (l24 23 0 (by decide)).trans (by unfold fb; omega)
  show fin (do let d ← o32 (fb L 47 40); let a ← o32 (fb L 39 32); let b ← o32 (fb L 31 24); pure (.xorB h d a b)) ((fb L 23 0)) = _
  simp only [g1, g2, g3, f23_0, o32_byte, ok_bind]
  rfl
theorem xorI (h : Gd) (d a : Opnd) (imm : Word) : Statement (.xorI h d a imm) := by
  intro hw quay hq w hE; obtain rfl := Option.some.inj hE
  have k0 := d.byte_lt; have k1 := a.byte_lt; have k2 := imm.isLt
  obtain ⟨L, hL⟩ : ∃ L, d.byte * 2 ^ 40 + a.byte * 2 ^ 32 + imm.toNat = L := ⟨_, rfl⟩
  obtain ⟨g0, g1, g2, l32, l40⟩ := fieldsI (by omega) (by omega) (by omega) hL
  refine Eq.trans (b := decodeAlu 18 1 h L) (by subst hL; exact decodeWord_alu quay (by decide) (by decide) g0) ?_
  have f31_0 : fb L 31 0 = imm.toNat := (l32 31 0 (by decide)).trans (by unfold fb; omega)
  show fin (do let d ← o32 (fb L 47 40); let a ← o32 (fb L 39 32); let imm ← word (fb L 31 0); pure (.xorI h d a imm)) (0) = _
  simp only [g1, g2, f31_0, o32_byte, word_toNat, ok_bind]
  rfl
theorem andnB (h : Gd) (d a b : Opnd) : Statement (.andnB h d a b) := by
  intro hw quay hq w hE; obtain rfl := Option.some.inj hE
  have k0 := d.byte_lt; have k1 := a.byte_lt; have k2 := b.byte_lt
  obtain ⟨L, hL⟩ : ∃ L, d.byte * 2 ^ 40 + a.byte * 2 ^ 32 + b.byte * 2 ^ 24 + 0 * 2 ^ 16 + 0 = L := ⟨_, rfl⟩
  obtain ⟨g0, g1, g2, g3, g4, l16, l24, l32, l40⟩ := fieldsR (by omega) (by omega) (by omega) (by omega) (by omega) hL
  refine Eq.trans (b := decodeAlu 19 0 h L) (by subst hL; exact decodeWord_alu quay (by decide) (by decide) g0) ?_
  have f23_0 : fb L 23 0 = 0 := (l24 23 0 (by decide)).trans (by unfold fb; omega)
  show fin (do let d ← o32 (fb L 47 40); let a ← o32 (fb L 39 32); let b ← o32 (fb L 31 24); pure (.andnB h d a b)) ((fb L 23 0)) = _
  simp only [g1, g2, g3, f23_0, o32_byte, ok_bind]
  rfl
theorem andnI (h : Gd) (d a : Opnd) (imm : Word) : Statement (.andnI h d a imm) := by
  intro hw quay hq w hE; obtain rfl := Option.some.inj hE
  have k0 := d.byte_lt; have k1 := a.byte_lt; have k2 := imm.isLt
  obtain ⟨L, hL⟩ : ∃ L, d.byte * 2 ^ 40 + a.byte * 2 ^ 32 + imm.toNat = L := ⟨_, rfl⟩
  obtain ⟨g0, g1, g2, l32, l40⟩ := fieldsI (by omega) (by omega) (by omega) hL
  refine Eq.trans (b := decodeAlu 19 1 h L) (by subst hL; exact decodeWord_alu quay (by decide) (by decide) g0) ?_
  have f31_0 : fb L 31 0 = imm.toNat := (l32 31 0 (by decide)).trans (by unfold fb; omega)
  show fin (do let d ← o32 (fb L 47 40); let a ← o32 (fb L 39 32); let imm ← word (fb L 31 0); pure (.andnI h d a imm)) (0) = _
  simp only [g1, g2, f31_0, o32_byte, word_toNat, ok_bind]
  rfl
theorem lop3 (h : Gd) (d a b c : Opnd) (lut : Byte) : Statement (.lop3 h d a b c lut) := by
  intro hw quay hq w hE; obtain rfl := Option.some.inj hE
  have k0 := d.byte_lt; have k1 := a.byte_lt; have k2 := b.byte_lt; have k3 := c.byte_lt; have k4 := lut.isLt
  obtain ⟨L, hL⟩ : ∃ L, d.byte * 2 ^ 40 + a.byte * 2 ^ 32 + b.byte * 2 ^ 24 + c.byte * 2 ^ 16 + lut.toNat = L := ⟨_, rfl⟩
  obtain ⟨g0, g1, g2, g3, g4, l16, l24, l32, l40⟩ := fieldsR (by omega) (by omega) (by omega) (by omega) (by omega) hL
  refine Eq.trans (b := decodeAlu 20 0 h L) (by subst hL; exact decodeWord_alu quay (by decide) (by decide) g0) ?_
  have f7_0 : fb L 7 0 = lut.toNat := (l16 7 0 (by decide)).trans (by unfold fb; omega)
  have f15_8 : fb L 15 8 = 0 := (l16 15 8 (by decide)).trans (by unfold fb; omega)
  show fin (do let d ← o32 (fb L 47 40); let a ← o32 (fb L 39 32); let b ← o32 (fb L 31 24); let c ← o32 (fb L 23 16); let lut ← byte (fb L 7 0); pure (.lop3 h d a b c lut)) ((fb L 15 8)) = _
  simp only [g1, g2, g3, g4, f7_0, f15_8, o32_byte, byte_toNat, ok_bind]
  rfl
theorem shl (h : Gd) (d a b : Opnd) : Statement (.shl h d a b) := by
  intro hw quay hq w hE; obtain rfl := Option.some.inj hE
  have k0 := d.byte_lt; have k1 := a.byte_lt; have k2 := b.byte_lt
  obtain ⟨L, hL⟩ : ∃ L, d.byte * 2 ^ 40 + a.byte * 2 ^ 32 + b.byte * 2 ^ 24 + 0 * 2 ^ 16 + 0 = L := ⟨_, rfl⟩
  obtain ⟨g0, g1, g2, g3, g4, l16, l24, l32, l40⟩ := fieldsR (by omega) (by omega) (by omega) (by omega) (by omega) hL
  refine Eq.trans (b := decodeAlu 21 0 h L) (by subst hL; exact decodeWord_alu quay (by decide) (by decide) g0) ?_
  have f23_0 : fb L 23 0 = 0 := (l24 23 0 (by decide)).trans (by unfold fb; omega)
  show fin (do let d ← o32 (fb L 47 40); let a ← o32 (fb L 39 32); let b ← o32 (fb L 31 24); pure (.shl h d a b)) ((fb L 23 0)) = _
  simp only [g1, g2, g3, f23_0, o32_byte, ok_bind]
  rfl
theorem shlI (h : Gd) (d a : Opnd) (imm : Word) : Statement (.shlI h d a imm) := by
  intro hw quay hq w hE; obtain rfl := Option.some.inj hE
  have k0 := d.byte_lt; have k1 := a.byte_lt; have k2 := imm.isLt
  obtain ⟨L, hL⟩ : ∃ L, d.byte * 2 ^ 40 + a.byte * 2 ^ 32 + imm.toNat = L := ⟨_, rfl⟩
  obtain ⟨g0, g1, g2, l32, l40⟩ := fieldsI (by omega) (by omega) (by omega) hL
  refine Eq.trans (b := decodeAlu 21 1 h L) (by subst hL; exact decodeWord_alu quay (by decide) (by decide) g0) ?_
  have f31_0 : fb L 31 0 = imm.toNat := (l32 31 0 (by decide)).trans (by unfold fb; omega)
  show fin (do let d ← o32 (fb L 47 40); let a ← o32 (fb L 39 32); let imm ← word (fb L 31 0); pure (.shlI h d a imm)) (0) = _
  simp only [g1, g2, f31_0, o32_byte, word_toNat, ok_bind]
  rfl
theorem shr (h : Gd) (d a b : Opnd) (s : Bool) : Statement (.shr h d a b s) := by
  intro hw quay hq w hE; obtain rfl := Option.some.inj hE
  have k0 := d.byte_lt; have k1 := a.byte_lt; have k2 := b.byte_lt; have k3 := bn_lt s
  obtain ⟨L, hL⟩ : ∃ L, d.byte * 2 ^ 40 + a.byte * 2 ^ 32 + b.byte * 2 ^ 24 + 0 * 2 ^ 16 + (bn s) = L := ⟨_, rfl⟩
  obtain ⟨g0, g1, g2, g3, g4, l16, l24, l32, l40⟩ := fieldsR (by omega) (by omega) (by omega) (by omega) (by omega) hL
  refine Eq.trans (b := decodeAlu 22 0 h L) (by subst hL; exact decodeWord_alu quay (by decide) (by decide) g0) ?_
  have f0_0 : fb L 0 0 = bn s := (l16 0 0 (by decide)).trans (by unfold fb; omega)
  have f23_1 : fb L 23 1 = 0 := (l24 23 1 (by decide)).trans (by unfold fb; omega)
  show fin (do let d ← o32 (fb L 47 40); let a ← o32 (fb L 39 32); let b ← o32 (fb L 31 24); let s ← bool (fb L 0 0); pure (.shr h d a b s)) ((fb L 23 1)) = _
  simp only [g1, g2, g3, f0_0, f23_1, o32_byte, bool_bn, ok_bind]
  rfl
theorem shrI (h : Gd) (d a : Opnd) (imm : Word) : Statement (.shrI h d a imm) := by
  intro hw quay hq w hE; obtain rfl := Option.some.inj hE
  have k0 := d.byte_lt; have k1 := a.byte_lt; have k2 := imm.isLt
  obtain ⟨L, hL⟩ : ∃ L, d.byte * 2 ^ 40 + a.byte * 2 ^ 32 + imm.toNat = L := ⟨_, rfl⟩
  obtain ⟨g0, g1, g2, l32, l40⟩ := fieldsI (by omega) (by omega) (by omega) hL
  refine Eq.trans (b := decodeAlu 22 1 h L) (by subst hL; exact decodeWord_alu quay (by decide) (by decide) g0) ?_
  have f31_0 : fb L 31 0 = imm.toNat := (l32 31 0 (by decide)).trans (by unfold fb; omega)
  show fin (do let d ← o32 (fb L 47 40); let a ← o32 (fb L 39 32); let imm ← word (fb L 31 0); pure (.shrI h d a imm)) (0) = _
  simp only [g1, g2, f31_0, o32_byte, word_toNat, ok_bind]
  rfl
theorem rot (h : Gd) (d a b : Opnd) (rt : Bool) : Statement (.rot h d a b rt) := by
  intro hw quay hq w hE; obtain rfl := Option.some.inj hE
  have k0 := d.byte_lt; have k1 := a.byte_lt; have k2 := b.byte_lt; have k3 := bn_lt rt
  obtain ⟨L, hL⟩ : ∃ L, d.byte * 2 ^ 40 + a.byte * 2 ^ 32 + b.byte * 2 ^ 24 + 0 * 2 ^ 16 + (bn rt) = L := ⟨_, rfl⟩
  obtain ⟨g0, g1, g2, g3, g4, l16, l24, l32, l40⟩ := fieldsR (by omega) (by omega) (by omega) (by omega) (by omega) hL
  refine Eq.trans (b := decodeAlu 23 0 h L) (by subst hL; exact decodeWord_alu quay (by decide) (by decide) g0) ?_
  have f0_0 : fb L 0 0 = bn rt := (l16 0 0 (by decide)).trans (by unfold fb; omega)
  have f23_1 : fb L 23 1 = 0 := (l24 23 1 (by decide)).trans (by unfold fb; omega)
  show fin (do let d ← o32 (fb L 47 40); let a ← o32 (fb L 39 32); let b ← o32 (fb L 31 24); let rt ← bool (fb L 0 0); pure (.rot h d a b rt)) ((fb L 23 1)) = _
  simp only [g1, g2, g3, f0_0, f23_1, o32_byte, bool_bn, ok_bind]
  rfl
theorem rotI (h : Gd) (d a : Opnd) (imm : Word) : Statement (.rotI h d a imm) := by
  intro hw quay hq w hE; obtain rfl := Option.some.inj hE
  have k0 := d.byte_lt; have k1 := a.byte_lt; have k2 := imm.isLt
  obtain ⟨L, hL⟩ : ∃ L, d.byte * 2 ^ 40 + a.byte * 2 ^ 32 + imm.toNat = L := ⟨_, rfl⟩
  obtain ⟨g0, g1, g2, l32, l40⟩ := fieldsI (by omega) (by omega) (by omega) hL
  refine Eq.trans (b := decodeAlu 23 1 h L) (by subst hL; exact decodeWord_alu quay (by decide) (by decide) g0) ?_
  have f31_0 : fb L 31 0 = imm.toNat := (l32 31 0 (by decide)).trans (by unfold fb; omega)
  show fin (do let d ← o32 (fb L 47 40); let a ← o32 (fb L 39 32); let imm ← word (fb L 31 0); pure (.rotI h d a imm)) (0) = _
  simp only [g1, g2, f31_0, o32_byte, word_toNat, ok_bind]
  rfl
theorem shf (h : Gd) (d a b c : Opnd) (rt : Bool) : Statement (.shf h d a b c rt) := by
  intro hw quay hq w hE; obtain rfl := Option.some.inj hE
  have k0 := d.byte_lt; have k1 := a.byte_lt; have k2 := b.byte_lt; have k3 := c.byte_lt; have k4 := bn_lt rt
  obtain ⟨L, hL⟩ : ∃ L, d.byte * 2 ^ 40 + a.byte * 2 ^ 32 + b.byte * 2 ^ 24 + c.byte * 2 ^ 16 + (bn rt) = L := ⟨_, rfl⟩
  obtain ⟨g0, g1, g2, g3, g4, l16, l24, l32, l40⟩ := fieldsR (by omega) (by omega) (by omega) (by omega) (by omega) hL
  refine Eq.trans (b := decodeAlu 24 0 h L) (by subst hL; exact decodeWord_alu quay (by decide) (by decide) g0) ?_
  have f0_0 : fb L 0 0 = bn rt := (l16 0 0 (by decide)).trans (by unfold fb; omega)
  have f15_1 : fb L 15 1 = 0 := (l16 15 1 (by decide)).trans (by unfold fb; omega)
  show fin (do let d ← o32 (fb L 47 40); let a ← o32 (fb L 39 32); let b ← o32 (fb L 31 24); let c ← o32 (fb L 23 16); let rt ← bool (fb L 0 0); pure (.shf h d a b c rt)) ((fb L 15 1)) = _
  simp only [g1, g2, g3, g4, f0_0, f15_1, o32_byte, bool_bn, ok_bind]
  rfl
theorem bfe (h : Gd) (d a b : Opnd) (s : Bool) : Statement (.bfe h d a b s) := by
  intro hw quay hq w hE; obtain rfl := Option.some.inj hE
  have k0 := d.byte_lt; have k1 := a.byte_lt; have k2 := b.byte_lt; have k3 := bn_lt s
  obtain ⟨L, hL⟩ : ∃ L, d.byte * 2 ^ 40 + a.byte * 2 ^ 32 + b.byte * 2 ^ 24 + 0 * 2 ^ 16 + (bn s) = L := ⟨_, rfl⟩
  obtain ⟨g0, g1, g2, g3, g4, l16, l24, l32, l40⟩ := fieldsR (by omega) (by omega) (by omega) (by omega) (by omega) hL
  refine Eq.trans (b := decodeAlu 25 0 h L) (by subst hL; exact decodeWord_alu quay (by decide) (by decide) g0) ?_
  have f0_0 : fb L 0 0 = bn s := (l16 0 0 (by decide)).trans (by unfold fb; omega)
  have f23_1 : fb L 23 1 = 0 := (l24 23 1 (by decide)).trans (by unfold fb; omega)
  show fin (do let d ← o32 (fb L 47 40); let a ← o32 (fb L 39 32); let b ← o32 (fb L 31 24); let s ← bool (fb L 0 0); pure (.bfe h d a b s)) ((fb L 23 1)) = _
  simp only [g1, g2, g3, f0_0, f23_1, o32_byte, bool_bn, ok_bind]
  rfl
theorem bfi (h : Gd) (d a b c : Opnd) : Statement (.bfi h d a b c) := by
  intro hw quay hq w hE; obtain rfl := Option.some.inj hE
  have k0 := d.byte_lt; have k1 := a.byte_lt; have k2 := b.byte_lt; have k3 := c.byte_lt
  obtain ⟨L, hL⟩ : ∃ L, d.byte * 2 ^ 40 + a.byte * 2 ^ 32 + b.byte * 2 ^ 24 + c.byte * 2 ^ 16 + 0 = L := ⟨_, rfl⟩
  obtain ⟨g0, g1, g2, g3, g4, l16, l24, l32, l40⟩ := fieldsR (by omega) (by omega) (by omega) (by omega) (by omega) hL
  refine Eq.trans (b := decodeAlu 26 0 h L) (by subst hL; exact decodeWord_alu quay (by decide) (by decide) g0) ?_
  have f15_0 : fb L 15 0 = 0 := (l16 15 0 (by decide)).trans (by unfold fb; omega)
  show fin (do let d ← o32 (fb L 47 40); let a ← o32 (fb L 39 32); let b ← o32 (fb L 31 24); let c ← o32 (fb L 23 16); pure (.bfi h d a b c)) ((fb L 15 0)) = _
  simp only [g1, g2, g3, g4, f15_0, o32_byte, ok_bind]
  rfl
theorem popc (h : Gd) (d a : Opnd) : Statement (.popc h d a) := by
  intro hw quay hq w hE; obtain rfl := Option.some.inj hE
  have k0 := d.byte_lt; have k1 := a.byte_lt
  obtain ⟨L, hL⟩ : ∃ L, d.byte * 2 ^ 40 + a.byte * 2 ^ 32 + 0 * 2 ^ 24 + 0 * 2 ^ 16 + 0 = L := ⟨_, rfl⟩
  obtain ⟨g0, g1, g2, g3, g4, l16, l24, l32, l40⟩ := fieldsR (by omega) (by omega) (by omega) (by omega) (by omega) hL
  refine Eq.trans (b := decodeAlu 27 0 h L) (by subst hL; exact decodeWord_alu quay (by decide) (by decide) g0) ?_
  have f31_0 : fb L 31 0 = 0 := (l32 31 0 (by decide)).trans (by unfold fb; omega)
  show fin (do let d ← o32 (fb L 47 40); let a ← o32 (fb L 39 32); pure (.popc h d a)) ((fb L 31 0)) = _
  simp only [g1, g2, f31_0, o32_byte, ok_bind]
  rfl
theorem clz (h : Gd) (d a : Opnd) : Statement (.clz h d a) := by
  intro hw quay hq w hE; obtain rfl := Option.some.inj hE
  have k0 := d.byte_lt; have k1 := a.byte_lt
  obtain ⟨L, hL⟩ : ∃ L, d.byte * 2 ^ 40 + a.byte * 2 ^ 32 + 0 * 2 ^ 24 + 0 * 2 ^ 16 + 0 = L := ⟨_, rfl⟩
  obtain ⟨g0, g1, g2, g3, g4, l16, l24, l32, l40⟩ := fieldsR (by omega) (by omega) (by omega) (by omega) (by omega) hL
  refine Eq.trans (b := decodeAlu 28 0 h L) (by subst hL; exact decodeWord_alu quay (by decide) (by decide) g0) ?_
  have f31_0 : fb L 31 0 = 0 := (l32 31 0 (by decide)).trans (by unfold fb; omega)
  show fin (do let d ← o32 (fb L 47 40); let a ← o32 (fb L 39 32); pure (.clz h d a)) ((fb L 31 0)) = _
  simp only [g1, g2, f31_0, o32_byte, ok_bind]
  rfl
theorem ctz (h : Gd) (d a : Opnd) : Statement (.ctz h d a) := by
  intro hw quay hq w hE; obtain rfl := Option.some.inj hE
  have k0 := d.byte_lt; have k1 := a.byte_lt
  obtain ⟨L, hL⟩ : ∃ L, d.byte * 2 ^ 40 + a.byte * 2 ^ 32 + 0 * 2 ^ 24 + 0 * 2 ^ 16 + 0 = L := ⟨_, rfl⟩
  obtain ⟨g0, g1, g2, g3, g4, l16, l24, l32, l40⟩ := fieldsR (by omega) (by omega) (by omega) (by omega) (by omega) hL
  refine Eq.trans (b := decodeAlu 29 0 h L) (by subst hL; exact decodeWord_alu quay (by decide) (by decide) g0) ?_
  have f31_0 : fb L 31 0 = 0 := (l32 31 0 (by decide)).trans (by unfold fb; omega)
  show fin (do let d ← o32 (fb L 47 40); let a ← o32 (fb L 39 32); pure (.ctz h d a)) ((fb L 31 0)) = _
  simp only [g1, g2, f31_0, o32_byte, ok_bind]
  rfl
theorem brev (h : Gd) (d a : Opnd) : Statement (.brev h d a) := by
  intro hw quay hq w hE; obtain rfl := Option.some.inj hE
  have k0 := d.byte_lt; have k1 := a.byte_lt
  obtain ⟨L, hL⟩ : ∃ L, d.byte * 2 ^ 40 + a.byte * 2 ^ 32 + 0 * 2 ^ 24 + 0 * 2 ^ 16 + 0 = L := ⟨_, rfl⟩
  obtain ⟨g0, g1, g2, g3, g4, l16, l24, l32, l40⟩ := fieldsR (by omega) (by omega) (by omega) (by omega) (by omega) hL
  refine Eq.trans (b := decodeAlu 30 0 h L) (by subst hL; exact decodeWord_alu quay (by decide) (by decide) g0) ?_
  have f31_0 : fb L 31 0 = 0 := (l32 31 0 (by decide)).trans (by unfold fb; omega)
  show fin (do let d ← o32 (fb L 47 40); let a ← o32 (fb L 39 32); pure (.brev h d a)) ((fb L 31 0)) = _
  simp only [g1, g2, f31_0, o32_byte, ok_bind]
  rfl
theorem perm (h : Gd) (d a b c : Opnd) : Statement (.perm h d a b c) := by
  intro hw quay hq w hE; obtain rfl := Option.some.inj hE
  have k0 := d.byte_lt; have k1 := a.byte_lt; have k2 := b.byte_lt; have k3 := c.byte_lt
  obtain ⟨L, hL⟩ : ∃ L, d.byte * 2 ^ 40 + a.byte * 2 ^ 32 + b.byte * 2 ^ 24 + c.byte * 2 ^ 16 + 0 = L := ⟨_, rfl⟩
  obtain ⟨g0, g1, g2, g3, g4, l16, l24, l32, l40⟩ := fieldsR (by omega) (by omega) (by omega) (by omega) (by omega) hL
  refine Eq.trans (b := decodeAlu 31 0 h L) (by subst hL; exact decodeWord_alu quay (by decide) (by decide) g0) ?_
  have f15_0 : fb L 15 0 = 0 := (l16 15 0 (by decide)).trans (by unfold fb; omega)
  show fin (do let d ← o32 (fb L 47 40); let a ← o32 (fb L 39 32); let b ← o32 (fb L 31 24); let c ← o32 (fb L 23 16); pure (.perm h d a b c)) ((fb L 15 0)) = _
  simp only [g1, g2, g3, g4, f15_0, o32_byte, ok_bind]
  rfl
theorem iadd64 (h : Gd) (d a b : Opnd) : Statement (.iadd64 h d a b) := by
  intro hw quay hq w hE; obtain rfl := Option.some.inj hE
  have hw : (d.spanOk 2 && a.spanOk 2 && b.spanOk 2) = true := hw
  simp only [Bool.and_eq_true, Bool.or_eq_true, Bool.not_eq_true', decide_eq_true_eq, bne_iff_ne, beq_iff_eq, ne_eq] at hw
  have k0 := d.byte_lt; have k1 := a.byte_lt; have k2 := b.byte_lt
  obtain ⟨L, hL⟩ : ∃ L, d.byte * 2 ^ 40 + a.byte * 2 ^ 32 + b.byte * 2 ^ 24 + 0 * 2 ^ 16 + 0 = L := ⟨_, rfl⟩
  obtain ⟨g0, g1, g2, g3, g4, l16, l24, l32, l40⟩ := fieldsR (by omega) (by omega) (by omega) (by omega) (by omega) hL
  refine Eq.trans (b := decodeAlu 32 0 h L) (by subst hL; exact decodeWord_alu quay (by decide) (by decide) g0) ?_
  have f23_0 : fb L 23 0 = 0 := (l24 23 0 (by decide)).trans (by unfold fb; omega)
  show fin (do let d ← oP (fb L 47 40); let a ← oP (fb L 39 32); let b ← oP (fb L 31 24); pure (.iadd64 h d a b)) ((fb L 23 0)) = _
  simp only [g1, g2, g3, f23_0, oP_byte, hw, ok_bind]
  rfl
theorem iadd64I (h : Gd) (d a : Opnd) (imm : Word) : Statement (.iadd64I h d a imm) := by
  intro hw quay hq w hE; obtain rfl := Option.some.inj hE
  have hw : (d.spanOk 2 && a.spanOk 2) = true := hw
  simp only [Bool.and_eq_true, Bool.or_eq_true, Bool.not_eq_true', decide_eq_true_eq, bne_iff_ne, beq_iff_eq, ne_eq] at hw
  have k0 := d.byte_lt; have k1 := a.byte_lt; have k2 := imm.isLt
  obtain ⟨L, hL⟩ : ∃ L, d.byte * 2 ^ 40 + a.byte * 2 ^ 32 + imm.toNat = L := ⟨_, rfl⟩
  obtain ⟨g0, g1, g2, l32, l40⟩ := fieldsI (by omega) (by omega) (by omega) hL
  refine Eq.trans (b := decodeAlu 32 1 h L) (by subst hL; exact decodeWord_alu quay (by decide) (by decide) g0) ?_
  have f31_0 : fb L 31 0 = imm.toNat := (l32 31 0 (by decide)).trans (by unfold fb; omega)
  show fin (do let d ← oP (fb L 47 40); let a ← oP (fb L 39 32); let imm ← word (fb L 31 0); pure (.iadd64I h d a imm)) (0) = _
  simp only [g1, g2, f31_0, oP_byte, word_toNat, hw, ok_bind]
  rfl
theorem isub64 (h : Gd) (d a b : Opnd) : Statement (.isub64 h d a b) := by
  intro hw quay hq w hE; obtain rfl := Option.some.inj hE
  have hw : (d.spanOk 2 && a.spanOk 2 && b.spanOk 2) = true := hw
  simp only [Bool.and_eq_true, Bool.or_eq_true, Bool.not_eq_true', decide_eq_true_eq, bne_iff_ne, beq_iff_eq, ne_eq] at hw
  have k0 := d.byte_lt; have k1 := a.byte_lt; have k2 := b.byte_lt
  obtain ⟨L, hL⟩ : ∃ L, d.byte * 2 ^ 40 + a.byte * 2 ^ 32 + b.byte * 2 ^ 24 + 0 * 2 ^ 16 + 0 = L := ⟨_, rfl⟩
  obtain ⟨g0, g1, g2, g3, g4, l16, l24, l32, l40⟩ := fieldsR (by omega) (by omega) (by omega) (by omega) (by omega) hL
  refine Eq.trans (b := decodeAlu 33 0 h L) (by subst hL; exact decodeWord_alu quay (by decide) (by decide) g0) ?_
  have f23_0 : fb L 23 0 = 0 := (l24 23 0 (by decide)).trans (by unfold fb; omega)
  show fin (do let d ← oP (fb L 47 40); let a ← oP (fb L 39 32); let b ← oP (fb L 31 24); pure (.isub64 h d a b)) ((fb L 23 0)) = _
  simp only [g1, g2, g3, f23_0, oP_byte, hw, ok_bind]
  rfl
theorem imad64 (h : Gd) (d a b c : Opnd) : Statement (.imad64 h d a b c) := by
  intro hw quay hq w hE; obtain rfl := Option.some.inj hE
  have hw : (d.spanOk 2 && a.spanOk 2 && b.spanOk 2 && c.spanOk 2) = true := hw
  simp only [Bool.and_eq_true, Bool.or_eq_true, Bool.not_eq_true', decide_eq_true_eq, bne_iff_ne, beq_iff_eq, ne_eq] at hw
  have k0 := d.byte_lt; have k1 := a.byte_lt; have k2 := b.byte_lt; have k3 := c.byte_lt
  obtain ⟨L, hL⟩ : ∃ L, d.byte * 2 ^ 40 + a.byte * 2 ^ 32 + b.byte * 2 ^ 24 + c.byte * 2 ^ 16 + 0 = L := ⟨_, rfl⟩
  obtain ⟨g0, g1, g2, g3, g4, l16, l24, l32, l40⟩ := fieldsR (by omega) (by omega) (by omega) (by omega) (by omega) hL
  refine Eq.trans (b := decodeAlu 34 0 h L) (by subst hL; exact decodeWord_alu quay (by decide) (by decide) g0) ?_
  have f15_0 : fb L 15 0 = 0 := (l16 15 0 (by decide)).trans (by unfold fb; omega)
  show fin (do let d ← oP (fb L 47 40); let a ← oP (fb L 39 32); let b ← oP (fb L 31 24); let c ← oP (fb L 23 16); pure (.imad64 h d a b c)) ((fb L 15 0)) = _
  simp only [g1, g2, g3, g4, f15_0, oP_byte, hw, ok_bind]
  rfl
theorem shl64 (h : Gd) (d a b : Opnd) : Statement (.shl64 h d a b) := by
  intro hw quay hq w hE; obtain rfl := Option.some.inj hE
  have hw : (d.spanOk 2 && a.spanOk 2) = true := hw
  simp only [Bool.and_eq_true, Bool.or_eq_true, Bool.not_eq_true', decide_eq_true_eq, bne_iff_ne, beq_iff_eq, ne_eq] at hw
  have k0 := d.byte_lt; have k1 := a.byte_lt; have k2 := b.byte_lt
  obtain ⟨L, hL⟩ : ∃ L, d.byte * 2 ^ 40 + a.byte * 2 ^ 32 + b.byte * 2 ^ 24 + 0 * 2 ^ 16 + 0 = L := ⟨_, rfl⟩
  obtain ⟨g0, g1, g2, g3, g4, l16, l24, l32, l40⟩ := fieldsR (by omega) (by omega) (by omega) (by omega) (by omega) hL
  refine Eq.trans (b := decodeAlu 35 0 h L) (by subst hL; exact decodeWord_alu quay (by decide) (by decide) g0) ?_
  have f23_0 : fb L 23 0 = 0 := (l24 23 0 (by decide)).trans (by unfold fb; omega)
  show fin (do let d ← oP (fb L 47 40); let a ← oP (fb L 39 32); let b ← o32 (fb L 31 24); pure (.shl64 h d a b)) ((fb L 23 0)) = _
  simp only [g1, g2, g3, f23_0, oP_byte, o32_byte, hw, ok_bind]
  rfl
theorem shr64 (h : Gd) (d a b : Opnd) (s : Bool) : Statement (.shr64 h d a b s) := by
  intro hw quay hq w hE; obtain rfl := Option.some.inj hE
  have hw : (d.spanOk 2 && a.spanOk 2) = true := hw
  simp only [Bool.and_eq_true, Bool.or_eq_true, Bool.not_eq_true', decide_eq_true_eq, bne_iff_ne, beq_iff_eq, ne_eq] at hw
  have k0 := d.byte_lt; have k1 := a.byte_lt; have k2 := b.byte_lt; have k3 := bn_lt s
  obtain ⟨L, hL⟩ : ∃ L, d.byte * 2 ^ 40 + a.byte * 2 ^ 32 + b.byte * 2 ^ 24 + 0 * 2 ^ 16 + (bn s) = L := ⟨_, rfl⟩
  obtain ⟨g0, g1, g2, g3, g4, l16, l24, l32, l40⟩ := fieldsR (by omega) (by omega) (by omega) (by omega) (by omega) hL
  refine Eq.trans (b := decodeAlu 36 0 h L) (by subst hL; exact decodeWord_alu quay (by decide) (by decide) g0) ?_
  have f0_0 : fb L 0 0 = bn s := (l16 0 0 (by decide)).trans (by unfold fb; omega)
  have f23_1 : fb L 23 1 = 0 := (l24 23 1 (by decide)).trans (by unfold fb; omega)
  show fin (do let d ← oP (fb L 47 40); let a ← oP (fb L 39 32); let b ← o32 (fb L 31 24); let s ← bool (fb L 0 0); pure (.shr64 h d a b s)) ((fb L 23 1)) = _
  simp only [g1, g2, g3, f0_0, f23_1, oP_byte, o32_byte, bool_bn, hw, ok_bind]
  rfl
theorem lea (h : Gd) (d a b : Opnd) (sh : Fin 8) (s : Bool) : Statement (.lea h d a b sh s) := by
  intro hw quay hq w hE; obtain rfl := Option.some.inj hE
  have hw : (d.spanOk 2 && a.spanOk 2) = true := hw
  simp only [Bool.and_eq_true, Bool.or_eq_true, Bool.not_eq_true', decide_eq_true_eq, bne_iff_ne, beq_iff_eq, ne_eq] at hw
  have k0 := d.byte_lt; have k1 := a.byte_lt; have k2 := b.byte_lt; have k3 := sh.isLt; have k4 := bn_lt s
  obtain ⟨L, hL⟩ : ∃ L, d.byte * 2 ^ 40 + a.byte * 2 ^ 32 + b.byte * 2 ^ 24 + 0 * 2 ^ 16 + (sh.val + bn s * 8) = L := ⟨_, rfl⟩
  obtain ⟨g0, g1, g2, g3, g4, l16, l24, l32, l40⟩ := fieldsR (by omega) (by omega) (by omega) (by omega) (by omega) hL
  refine Eq.trans (b := decodeAlu 37 0 h L) (by subst hL; exact decodeWord_alu quay (by decide) (by decide) g0) ?_
  have f2_0 : fb L 2 0 = sh.val := (l16 2 0 (by decide)).trans (by unfold fb; omega)
  have f3_3 : fb L 3 3 = bn s := (l16 3 3 (by decide)).trans (by unfold fb; omega)
  have f23_4 : fb L 23 4 = 0 := (l24 23 4 (by decide)).trans (by unfold fb; omega)
  show fin (do let d ← oP (fb L 47 40); let a ← oP (fb L 39 32); let b ← o32 (fb L 31 24); let sh ← fin8 (fb L 2 0); let s ← bool (fb L 3 3); pure (.lea h d a b sh s)) ((fb L 23 4)) = _
  simp only [g1, g2, g3, f2_0, f3_3, f23_4, oP_byte, o32_byte, fin8_val, bool_bn, hw, ok_bind]
  rfl
theorem isetp (h : Gd) (p : Fin 8) (a b : Opnd) (c : ICmp) (uns : Bool) (mg : Merge) : Statement (.isetp h p a b c uns mg) := by
  intro hw quay hq w hE; obtain rfl := Option.some.inj hE
  have k0 := a.byte_lt; have k1 := b.byte_lt; have k2 := c.code_lt; have k3 := mg.code_lt; have k4 := p.isLt; have k5 := bn_lt uns
  obtain ⟨L, hL⟩ : ∃ L, p.val * 2 ^ 40 + a.byte * 2 ^ 32 + b.byte * 2 ^ 24 + 0 * 2 ^ 16 + (c.code + bn uns * 8 + mg.code * 16) = L := ⟨_, rfl⟩
  obtain ⟨g0, g1, g2, g3, g4, l16, l24, l32, l40⟩ := fieldsR (by omega) (by omega) (by omega) (by omega) (by omega) hL
  refine Eq.trans (b := decodeAlu 40 0 h L) (by subst hL; exact decodeWord_alu quay (by decide) (by decide) g0) ?_
  have f2_0 : fb L 2 0 = c.code := (l16 2 0 (by decide)).trans (by unfold fb; omega)
  have f3_3 : fb L 3 3 = bn uns := (l16 3 3 (by decide)).trans (by unfold fb; omega)
  have f5_4 : fb L 5 4 = mg.code := (l16 5 4 (by decide)).trans (by unfold fb; omega)
  have f23_6 : fb L 23 6 = 0 := (l24 23 6 (by decide)).trans (by unfold fb; omega)
  show fin (do let p ← prd (fb L 47 40); let a ← o32 (fb L 39 32); let b ← o32 (fb L 31 24); let c ← icmpC (fb L 2 0); let uns ← bool (fb L 3 3); let mg ← mergeC (fb L 5 4); pure (.isetp h p a b c uns mg)) ((fb L 23 6)) = _
  simp only [g1, g2, g3, f2_0, f3_3, f5_4, f23_6, prd_val, o32_byte, icmpC_code, bool_bn, mergeC_code, ok_bind]
  rfl
theorem fsetp (h : Gd) (p : Fin 8) (a b : Opnd) (c : FCmp) (mg : Merge) : Statement (.fsetp h p a b c mg) := by
  intro hw quay hq w hE; obtain rfl := Option.some.inj hE
  have k0 := a.byte_lt; have k1 := b.byte_lt; have k2 := c.code_lt; have k3 := mg.code_lt; have k4 := p.isLt
  obtain ⟨L, hL⟩ : ∃ L, p.val * 2 ^ 40 + a.byte * 2 ^ 32 + b.byte * 2 ^ 24 + 0 * 2 ^ 16 + (c.code + mg.code * 16) = L := ⟨_, rfl⟩
  obtain ⟨g0, g1, g2, g3, g4, l16, l24, l32, l40⟩ := fieldsR (by omega) (by omega) (by omega) (by omega) (by omega) hL
  refine Eq.trans (b := decodeAlu 41 0 h L) (by subst hL; exact decodeWord_alu quay (by decide) (by decide) g0) ?_
  have f3_0 : fb L 3 0 = c.code := (l16 3 0 (by decide)).trans (by unfold fb; omega)
  have f5_4 : fb L 5 4 = mg.code := (l16 5 4 (by decide)).trans (by unfold fb; omega)
  have f23_6 : fb L 23 6 = 0 := (l24 23 6 (by decide)).trans (by unfold fb; omega)
  show fin (do let p ← prd (fb L 47 40); let a ← o32 (fb L 39 32); let b ← o32 (fb L 31 24); let c ← fcmpC (fb L 3 0); let mg ← mergeC (fb L 5 4); pure (.fsetp h p a b c mg)) ((fb L 23 6)) = _
  simp only [g1, g2, g3, f3_0, f5_4, f23_6, prd_val, o32_byte, fcmpC_code, mergeC_code, ok_bind]
  rfl
theorem dsetp (h : Gd) (p : Fin 8) (a b : Opnd) (c : FCmp) (mg : Merge) : Statement (.dsetp h p a b c mg) := by
  intro hw quay hq w hE; obtain rfl := Option.some.inj hE
  have hw : (a.spanOk 2 && b.spanOk 2) = true := hw
  simp only [Bool.and_eq_true, Bool.or_eq_true, Bool.not_eq_true', decide_eq_true_eq, bne_iff_ne, beq_iff_eq, ne_eq] at hw
  have k0 := a.byte_lt; have k1 := b.byte_lt; have k2 := c.code_lt; have k3 := mg.code_lt; have k4 := p.isLt
  obtain ⟨L, hL⟩ : ∃ L, p.val * 2 ^ 40 + a.byte * 2 ^ 32 + b.byte * 2 ^ 24 + 0 * 2 ^ 16 + (c.code + mg.code * 16) = L := ⟨_, rfl⟩
  obtain ⟨g0, g1, g2, g3, g4, l16, l24, l32, l40⟩ := fieldsR (by omega) (by omega) (by omega) (by omega) (by omega) hL
  refine Eq.trans (b := decodeAlu 42 0 h L) (by subst hL; exact decodeWord_alu quay (by decide) (by decide) g0) ?_
  have f3_0 : fb L 3 0 = c.code := (l16 3 0 (by decide)).trans (by unfold fb; omega)
  have f5_4 : fb L 5 4 = mg.code := (l16 5 4 (by decide)).trans (by unfold fb; omega)
  have f23_6 : fb L 23 6 = 0 := (l24 23 6 (by decide)).trans (by unfold fb; omega)
  show fin (do let p ← prd (fb L 47 40); let a ← oP (fb L 39 32); let b ← oP (fb L 31 24); let c ← fcmpC (fb L 3 0); let mg ← mergeC (fb L 5 4); pure (.dsetp h p a b c mg)) ((fb L 23 6)) = _
  simp only [g1, g2, g3, f3_0, f5_4, f23_6, prd_val, oP_byte, fcmpC_code, mergeC_code, hw, ok_bind]
  rfl
theorem sel (h : Gd) (d a b c : Opnd) : Statement (.sel h d a b c) := by
  intro hw quay hq w hE; obtain rfl := Option.some.inj hE
  have k0 := d.byte_lt; have k1 := a.byte_lt; have k2 := b.byte_lt; have k3 := c.byte_lt
  obtain ⟨L, hL⟩ : ∃ L, d.byte * 2 ^ 40 + a.byte * 2 ^ 32 + b.byte * 2 ^ 24 + c.byte * 2 ^ 16 + 0 = L := ⟨_, rfl⟩
  obtain ⟨g0, g1, g2, g3, g4, l16, l24, l32, l40⟩ := fieldsR (by omega) (by omega) (by omega) (by omega) (by omega) hL
  refine Eq.trans (b := decodeAlu 44 0 h L) (by subst hL; exact decodeWord_alu quay (by decide) (by decide) g0) ?_
  have f15_0 : fb L 15 0 = 0 := (l16 15 0 (by decide)).trans (by unfold fb; omega)
  show fin (do let d ← o32 (fb L 47 40); let a ← o32 (fb L 39 32); let b ← o32 (fb L 31 24); let c ← o32 (fb L 23 16); pure (.sel h d a b c)) ((fb L 15 0)) = _
  simp only [g1, g2, g3, g4, f15_0, o32_byte, ok_bind]
  rfl
theorem plop (h : Gd) (d a b c : Fin 8) (lut : Byte) : Statement (.plop h d a b c lut) := by
  intro hw quay hq w hE; obtain rfl := Option.some.inj hE
  have k0 := d.isLt; have k1 := a.isLt; have k2 := b.isLt; have k3 := c.isLt; have k4 := lut.isLt
  obtain ⟨L, hL⟩ : ∃ L, d.val * 2 ^ 40 + a.val * 2 ^ 32 + b.val * 2 ^ 24 + c.val * 2 ^ 16 + lut.toNat = L := ⟨_, rfl⟩
  obtain ⟨g0, g1, g2, g3, g4, l16, l24, l32, l40⟩ := fieldsR (by omega) (by omega) (by omega) (by omega) (by omega) hL
  refine Eq.trans (b := decodeAlu 45 0 h L) (by subst hL; exact decodeWord_alu quay (by decide) (by decide) g0) ?_
  have f7_0 : fb L 7 0 = lut.toNat := (l16 7 0 (by decide)).trans (by unfold fb; omega)
  have f15_8 : fb L 15 8 = 0 := (l16 15 8 (by decide)).trans (by unfold fb; omega)
  show fin (do let d ← prd (fb L 47 40); let a ← prd (fb L 39 32); let b ← prd (fb L 31 24); let c ← prd (fb L 23 16); let lut ← byte (fb L 7 0); pure (.plop h d a b c lut)) ((fb L 15 8)) = _
  simp only [g1, g2, g3, g4, f7_0, f15_8, prd_val, byte_toNat, ok_bind]
  rfl
theorem p2v (h : Gd) (d : Opnd) : Statement (.p2v h d) := by
  intro hw quay hq w hE; obtain rfl := Option.some.inj hE
  have k0 := d.byte_lt
  obtain ⟨L, hL⟩ : ∃ L, d.byte * 2 ^ 40 + 0 * 2 ^ 32 + 0 * 2 ^ 24 + 0 * 2 ^ 16 + 0 = L := ⟨_, rfl⟩
  obtain ⟨g0, g1, g2, g3, g4, l16, l24, l32, l40⟩ := fieldsR (by omega) (by omega) (by omega) (by omega) (by omega) hL
  refine Eq.trans (b := decodeAlu 46 0 h L) (by subst hL; exact decodeWord_alu quay (by decide) (by decide) g0) ?_
  have f39_0 : fb L 39 0 = 0 := (l40 39 0 (by decide)).trans (by unfold fb; omega)
  show fin (do let d ← o32 (fb L 47 40); pure (.p2v h d)) ((fb L 39 0)) = _
  simp only [g1, f39_0, o32_byte, ok_bind]
  rfl
theorem v2p (h : Gd) (a : Opnd) (mask : BitVec 7) : Statement (.v2p h a mask) := by
  intro hw quay hq w hE; obtain rfl := Option.some.inj hE
  have k0 := a.byte_lt; have k1 := mask.isLt
  obtain ⟨L, hL⟩ : ∃ L, 0 * 2 ^ 40 + a.byte * 2 ^ 32 + 0 * 2 ^ 24 + 0 * 2 ^ 16 + mask.toNat = L := ⟨_, rfl⟩
  obtain ⟨g0, g1, g2, g3, g4, l16, l24, l32, l40⟩ := fieldsR (by omega) (by omega) (by omega) (by omega) (by omega) hL
  refine Eq.trans (b := decodeAlu 47 0 h L) (by subst hL; exact decodeWord_alu quay (by decide) (by decide) g0) ?_
  have f6_0 : fb L 6 0 = mask.toNat := (l16 6 0 (by decide)).trans (by unfold fb; omega)
  have f31_7 : fb L 31 7 = 0 := (l32 31 7 (by decide)).trans (by unfold fb; omega)
  show fin (do let a ← o32 (fb L 39 32); let mask ← bv7 (fb L 6 0); pure (.v2p h a mask)) ((fb L 31 7) + (fb L 47 40)) = _
  simp only [g2, f6_0, f31_7, g1, o32_byte, bv7_toNat, ok_bind]
  rfl
theorem mov (h : Gd) (d a : Opnd) (b64 : Bool) : Statement (.mov h d a b64) := by
  intro hw quay hq w hE; obtain rfl := Option.some.inj hE
  have hw : (let n := if b64 then 2 else 1; d.spanOk n && a.spanOk n) = true := hw
  simp only [Bool.and_eq_true, Bool.or_eq_true, Bool.not_eq_true', decide_eq_true_eq, bne_iff_ne, beq_iff_eq, ne_eq] at hw
  have k0 := d.byte_lt; have k1 := a.byte_lt; have k2 := bn_lt b64
  obtain ⟨L, hL⟩ : ∃ L, d.byte * 2 ^ 40 + a.byte * 2 ^ 32 + 0 * 2 ^ 24 + 0 * 2 ^ 16 + (bn b64) = L := ⟨_, rfl⟩
  obtain ⟨g0, g1, g2, g3, g4, l16, l24, l32, l40⟩ := fieldsR (by omega) (by omega) (by omega) (by omega) (by omega) hL
  refine Eq.trans (b := decodeAlu 48 0 h L) (by subst hL; exact decodeWord_alu quay (by decide) (by decide) g0) ?_
  have f0_0 : fb L 0 0 = bn b64 := (l16 0 0 (by decide)).trans (by unfold fb; omega)
  have f31_1 : fb L 31 1 = 0 := (l32 31 1 (by decide)).trans (by unfold fb; omega)
  show fin (do let b64 ← bool (fb L 0 0); let d ← oN1or2 b64 (fb L 47 40); let a ← oN1or2 b64 (fb L 39 32); pure (.mov h d a b64)) ((fb L 31 1)) = _
  simp only [f0_0, g1, g2, f31_1, bool_bn, oN1or2_byte, hw, ok_bind]
  rfl
theorem movi (h : Gd) (d : Opnd) (imm : Word) : Statement (.movi h d imm) := by
  intro hw quay hq w hE; obtain rfl := Option.some.inj hE
  have k0 := d.byte_lt; have k1 := imm.isLt
  obtain ⟨L, hL⟩ : ∃ L, d.byte * 2 ^ 40 + 0 * 2 ^ 32 + imm.toNat = L := ⟨_, rfl⟩
  obtain ⟨g0, g1, g2, l32, l40⟩ := fieldsI (by omega) (by omega) (by omega) hL
  refine Eq.trans (b := decodeAlu 49 1 h L) (by subst hL; exact decodeWord_alu quay (by decide) (by decide) g0) ?_
  have f31_0 : fb L 31 0 = imm.toNat := (l32 31 0 (by decide)).trans (by unfold fb; omega)
  show fin (do let d ← o32 (fb L 47 40); let imm ← word (fb L 31 0); pure (.movi h d imm)) ((fb L 39 32)) = _
  simp only [g1, f31_0, g2, o32_byte, word_toNat, ok_bind]
  rfl
theorem srd (h : Gd) (d : Opnd) (r : SrdReg) : Statement (.srd h d r) := by
  intro hw quay hq w hE; obtain rfl := Option.some.inj hE
  have k0 := d.byte_lt; have k1 := r.code_lt
  obtain ⟨L, hL⟩ : ∃ L, d.byte * 2 ^ 40 + r.code * 2 ^ 32 + 0 * 2 ^ 24 + 0 * 2 ^ 16 + 0 = L := ⟨_, rfl⟩
  obtain ⟨g0, g1, g2, g3, g4, l16, l24, l32, l40⟩ := fieldsR (by omega) (by omega) (by omega) (by omega) (by omega) hL
  refine Eq.trans (b := decodeAlu 50 0 h L) (by subst hL; exact decodeWord_alu quay (by decide) (by decide) g0) ?_
  have f31_16 : fb L 31 16 = 0 := (l32 31 16 (by decide)).trans (by unfold fb; omega)
  have f15_1 : fb L 15 1 = 0 := (l16 15 1 (by decide)).trans (by unfold fb; omega)
  have s0_0 : fb L 0 0 = 0 := (l16 0 0 (by decide)).trans (by unfold fb; omega)
  refine Eq.trans (b := fin (do let d ← o32 (fb L 47 40); let r ← srdC (fb L 39 32); pure (.srd h d r)) (fb L 31 16 + fb L 15 1)) ?_ ?_
  · unfold decodeAlu; simp only [s0_0]; rfl
  · simp only [g1, g2, f31_16, f15_1, o32_byte, srdC_code, ok_bind]
    rfl
theorem srdClr (h : Gd) (d : Opnd) : Statement (.srdClr h d) := by
  intro hw quay hq w hE; obtain rfl := Option.some.inj hE
  have k0 := d.byte_lt
  obtain ⟨L, hL⟩ : ∃ L, d.byte * 2 ^ 40 + 28 * 2 ^ 32 + 0 * 2 ^ 24 + 0 * 2 ^ 16 + 1 = L := ⟨_, rfl⟩
  obtain ⟨g0, g1, g2, g3, g4, l16, l24, l32, l40⟩ := fieldsR (by omega) (by omega) (by omega) (by omega) (by omega) hL
  refine Eq.trans (b := decodeAlu 50 0 h L) (by subst hL; exact decodeWord_alu quay (by decide) (by decide) g0) ?_
  have f31_16 : fb L 31 16 = 0 := (l32 31 16 (by decide)).trans (by unfold fb; omega)
  have f15_1 : fb L 15 1 = 0 := (l16 15 1 (by decide)).trans (by unfold fb; omega)
  have s0_0 : fb L 0 0 = 1 := (l16 0 0 (by decide)).trans (by unfold fb; omega)
  refine Eq.trans (b := fin (do let d ← o32 (fb L 47 40); pure (.srdClr h d)) (fb L 31 16 + fb L 15 1)) ?_ ?_
  · unfold decodeAlu; simp only [s0_0, g2]; rfl
  · simp only [g1, f31_16, f15_1, o32_byte, ok_bind]
    rfl
theorem fadd (h : Gd) (d a b : Opnd) (rm : RMode) (na nb : Bool) : Statement (.fadd h d a b rm na nb) := by
  intro hw quay hq w hE; obtain rfl := Option.some.inj hE
  have k0 := d.byte_lt; have k1 := a.byte_lt; have k2 := b.byte_lt; have k3 := rm.code_lt; have k4 := bn_lt na; have k5 := bn_lt nb
  obtain ⟨L, hL⟩ : ∃ L, d.byte * 2 ^ 40 + a.byte * 2 ^ 32 + b.byte * 2 ^ 24 + 0 * 2 ^ 16 + (rm.code + bn na * 16 + bn nb * 32) = L := ⟨_, rfl⟩
  obtain ⟨g0, g1, g2, g3, g4, l16, l24, l32, l40⟩ := fieldsR (by omega) (by omega) (by omega) (by omega) (by omega) hL
  refine Eq.trans (b := decodeAlu 64 0 h L) (by subst hL; exact decodeWord_alu quay (by decide) (by decide) g0) ?_
  have f1_0 : fb L 1 0 = rm.code := (l16 1 0 (by decide)).trans (by unfold fb; omega)
  have f4_4 : fb L 4 4 = bn na := (l16 4 4 (by decide)).trans (by unfold fb; omega)
  have f5_5 : fb L 5 5 = bn nb := (l16 5 5 (by decide)).trans (by unfold fb; omega)
  have f3_2 : fb L 3 2 = 0 := (l16 3 2 (by decide)).trans (by unfold fb; omega)
  have f23_6 : fb L 23 6 = 0 := (l24 23 6 (by decide)).trans (by unfold fb; omega)
  show fin (do let d ← o32 (fb L 47 40); let a ← o32 (fb L 39 32); let b ← o32 (fb L 31 24); let rm ← rmC (fb L 1 0); let na ← bool (fb L 4 4); let nb ← bool (fb L 5 5); pure (.fadd h d a b rm na nb)) ((fb L 3 2) + (fb L 23 6)) = _
  simp only [g1, g2, g3, f1_0, f4_4, f5_5, f3_2, f23_6, o32_byte, rmC_code, bool_bn, ok_bind]
  rfl
theorem fmul (h : Gd) (d a b : Opnd) (rm : RMode) (na nb : Bool) : Statement (.fmul h d a b rm na nb) := by
  intro hw quay hq w hE; obtain rfl := Option.some.inj hE
  have k0 := d.byte_lt; have k1 := a.byte_lt; have k2 := b.byte_lt; have k3 := rm.code_lt; have k4 := bn_lt na; have k5 := bn_lt nb
  obtain ⟨L, hL⟩ : ∃ L, d.byte * 2 ^ 40 + a.byte * 2 ^ 32 + b.byte * 2 ^ 24 + 0 * 2 ^ 16 + (rm.code + bn na * 16 + bn nb * 32) = L := ⟨_, rfl⟩
  obtain ⟨g0, g1, g2, g3, g4, l16, l24, l32, l40⟩ := fieldsR (by omega) (by omega) (by omega) (by omega) (by omega) hL
  refine Eq.trans (b := decodeAlu 65 0 h L) (by subst hL; exact decodeWord_alu quay (by decide) (by decide) g0) ?_
  have f1_0 : fb L 1 0 = rm.code := (l16 1 0 (by decide)).trans (by unfold fb; omega)
  have f4_4 : fb L 4 4 = bn na := (l16 4 4 (by decide)).trans (by unfold fb; omega)
  have f5_5 : fb L 5 5 = bn nb := (l16 5 5 (by decide)).trans (by unfold fb; omega)
  have f3_2 : fb L 3 2 = 0 := (l16 3 2 (by decide)).trans (by unfold fb; omega)
  have f23_6 : fb L 23 6 = 0 := (l24 23 6 (by decide)).trans (by unfold fb; omega)
  show fin (do let d ← o32 (fb L 47 40); let a ← o32 (fb L 39 32); let b ← o32 (fb L 31 24); let rm ← rmC (fb L 1 0); let na ← bool (fb L 4 4); let nb ← bool (fb L 5 5); pure (.fmul h d a b rm na nb)) ((fb L 3 2) + (fb L 23 6)) = _
  simp only [g1, g2, g3, f1_0, f4_4, f5_5, f3_2, f23_6, o32_byte, rmC_code, bool_bn, ok_bind]
  rfl
theorem ffma (h : Gd) (d a b c : Opnd) (rm : RMode) (na nb nc : Bool) : Statement (.ffma h d a b c rm na nb nc) := by
  intro hw quay hq w hE; obtain rfl := Option.some.inj hE
  have k0 := d.byte_lt; have k1 := a.byte_lt; have k2 := b.byte_lt; have k3 := c.byte_lt; have k4 := rm.code_lt; have k5 := bn_lt na; have k6 := bn_lt nb; have k7 := bn_lt nc
  obtain ⟨L, hL⟩ : ∃ L, d.byte * 2 ^ 40 + a.byte * 2 ^ 32 + b.byte * 2 ^ 24 + c.byte * 2 ^ 16 + (rm.code + bn na * 16 + bn nb * 32 + bn nc * 64) = L := ⟨_, rfl⟩
  obtain ⟨g0, g1, g2, g3, g4, l16, l24, l32, l40⟩ := fieldsR (by omega) (by omega) (by omega) (by omega) (by omega) hL
  refine Eq.trans (b := decodeAlu 66 0 h L) (by subst hL; exact decodeWord_alu quay (by decide) (by decide) g0) ?_
  have f1_0 : fb L 1 0 = rm.code := (l16 1 0 (by decide)).trans (by unfold fb; omega)
  have f4_4 : fb L 4 4 = bn na := (l16 4 4 (by decide)).trans (by unfold fb; omega)
  have f5_5 : fb L 5 5 = bn nb := (l16 5 5 (by decide)).trans (by unfold fb; omega)
  have f6_6 : fb L 6 6 = bn nc := (l16 6 6 (by decide)).trans (by unfold fb; omega)
  have f3_2 : fb L 3 2 = 0 := (l16 3 2 (by decide)).trans (by unfold fb; omega)
  have f15_7 : fb L 15 7 = 0 := (l16 15 7 (by decide)).trans (by unfold fb; omega)
  show fin (do let d ← o32 (fb L 47 40); let a ← o32 (fb L 39 32); let b ← o32 (fb L 31 24); let c ← o32 (fb L 23 16); let rm ← rmC (fb L 1 0); let na ← bool (fb L 4 4); let nb ← bool (fb L 5 5); let nc ← bool (fb L 6 6); pure (.ffma h d a b c rm na nb nc)) ((fb L 3 2) + (fb L 15 7)) = _
  simp only [g1, g2, g3, g4, f1_0, f4_4, f5_5, f6_6, f3_2, f15_7, o32_byte, rmC_code, bool_bn, ok_bind]
  rfl
theorem fmin (h : Gd) (d a b : Opnd) : Statement (.fmin h d a b) := by
  intro hw quay hq w hE; obtain rfl := Option.some.inj hE
  have k0 := d.byte_lt; have k1 := a.byte_lt; have k2 := b.byte_lt
  obtain ⟨L, hL⟩ : ∃ L, d.byte * 2 ^ 40 + a.byte * 2 ^ 32 + b.byte * 2 ^ 24 + 0 * 2 ^ 16 + 0 = L := ⟨_, rfl⟩
  obtain ⟨g0, g1, g2, g3, g4, l16, l24, l32, l40⟩ := fieldsR (by omega) (by omega) (by omega) (by omega) (by omega) hL
  refine Eq.trans (b := decodeAlu 67 0 h L) (by subst hL; exact decodeWord_alu quay (by decide) (by decide) g0) ?_
  have f23_0 : fb L 23 0 = 0 := (l24 23 0 (by decide)).trans (by unfold fb; omega)
  show fin (do let d ← o32 (fb L 47 40); let a ← o32 (fb L 39 32); let b ← o32 (fb L 31 24); pure (.fmin h d a b)) ((fb L 23 0)) = _
  simp only [g1, g2, g3, f23_0, o32_byte, ok_bind]
  rfl
theorem fmax (h : Gd) (d a b : Opnd) : Statement (.fmax h d a b) := by
  intro hw quay hq w hE; obtain rfl := Option.some.inj hE
  have k0 := d.byte_lt; have k1 := a.byte_lt; have k2 := b.byte_lt
  obtain ⟨L, hL⟩ : ∃ L, d.byte * 2 ^ 40 + a.byte * 2 ^ 32 + b.byte * 2 ^ 24 + 0 * 2 ^ 16 + 0 = L := ⟨_, rfl⟩
  obtain ⟨g0, g1, g2, g3, g4, l16, l24, l32, l40⟩ := fieldsR (by omega) (by omega) (by omega) (by omega) (by omega) hL
  refine Eq.trans (b := decodeAlu 68 0 h L) (by subst hL; exact decodeWord_alu quay (by decide) (by decide) g0) ?_
  have f23_0 : fb L 23 0 = 0 := (l24 23 0 (by decide)).trans (by unfold fb; omega)
  show fin (do let d ← o32 (fb L 47 40); let a ← o32 (fb L 39 32); let b ← o32 (fb L 31 24); pure (.fmax h d a b)) ((fb L 23 0)) = _
  simp only [g1, g2, g3, f23_0, o32_byte, ok_bind]
  rfl
theorem frnd (h : Gd) (d a : Opnd) (rm : RMode) (x : Bool) : Statement (.frnd h d a rm x) := by
  intro hw quay hq w hE; obtain rfl := Option.some.inj hE
  have k0 := d.byte_lt; have k1 := a.byte_lt; have k2 := rm.code_lt; have k3 := bn_lt x
  obtain ⟨L, hL⟩ : ∃ L, d.byte * 2 ^ 40 + a.byte * 2 ^ 32 + 0 * 2 ^ 24 + 0 * 2 ^ 16 + (rm.code + bn x * 4) = L := ⟨_, rfl⟩
  obtain ⟨g0, g1, g2, g3, g4, l16, l24, l32, l40⟩ := fieldsR (by omega) (by omega) (by omega) (by omega) (by omega) hL
  refine Eq.trans (b := decodeAlu 69 0 h L) (by subst hL; exact decodeWord_alu quay (by decide) (by decide) g0) ?_
  have f1_0 : fb L 1 0 = rm.code := (l16 1 0 (by decide)).trans (by unfold fb; omega)
  have f2_2 : fb L 2 2 = bn x := (l16 2 2 (by decide)).trans (by unfold fb; omega)
  have f31_3 : fb L 31 3 = 0 := (l32 31 3 (by decide)).trans (by unfold fb; omega)
  show fin (do let d ← o32 (fb L 47 40); let a ← o32 (fb L 39 32); let rm ← rmC (fb L 1 0); let x ← bool (fb L 2 2); pure (.frnd h d a rm x)) ((fb L 31 3)) = _
  simp only [g1, g2, f1_0, f2_2, f31_3, o32_byte, rmC_code, bool_bn, ok_bind]
  rfl
theorem fdiv (h : Gd) (d a b : Opnd) (rm : RMode) : Statement (.fdiv h d a b rm) := by
  intro hw quay hq w hE; obtain rfl := Option.some.inj hE
  have k0 := d.byte_lt; have k1 := a.byte_lt; have k2 := b.byte_lt; have k3 := rm.code_lt
  obtain ⟨L, hL⟩ : ∃ L, d.byte * 2 ^ 40 + a.byte * 2 ^ 32 + b.byte * 2 ^ 24 + 0 * 2 ^ 16 + rm.code = L := ⟨_, rfl⟩
  obtain ⟨g0, g1, g2, g3, g4, l16, l24, l32, l40⟩ := fieldsR (by omega) (by omega) (by omega) (by omega) (by omega) hL
  refine Eq.trans (b := decodeAlu 70 0 h L) (by subst hL; exact decodeWord_alu quay (by decide) (by decide) g0) ?_
  have f1_0 : fb L 1 0 = rm.code := (l16 1 0 (by decide)).trans (by unfold fb; omega)
  have f23_2 : fb L 23 2 = 0 := (l24 23 2 (by decide)).trans (by unfold fb; omega)
  show fin (do let d ← o32 (fb L 47 40); let a ← o32 (fb L 39 32); let b ← o32 (fb L 31 24); let rm ← rmC (fb L 1 0); pure (.fdiv h d a b rm)) ((fb L 23 2)) = _
  simp only [g1, g2, g3, f1_0, f23_2, o32_byte, rmC_code, ok_bind]
  rfl
theorem fsqrt (h : Gd) (d a : Opnd) (rm : RMode) : Statement (.fsqrt h d a rm) := by
  intro hw quay hq w hE; obtain rfl := Option.some.inj hE
  have k0 := d.byte_lt; have k1 := a.byte_lt; have k2 := rm.code_lt
  obtain ⟨L, hL⟩ : ∃ L, d.byte * 2 ^ 40 + a.byte * 2 ^ 32 + 0 * 2 ^ 24 + 0 * 2 ^ 16 + rm.code = L := ⟨_, rfl⟩
  obtain ⟨g0, g1, g2, g3, g4, l16, l24, l32, l40⟩ := fieldsR (by omega) (by omega) (by omega) (by omega) (by omega) hL
  refine Eq.trans (b := decodeAlu 71 0 h L) (by subst hL; exact decodeWord_alu quay (by decide) (by decide) g0) ?_
  have f1_0 : fb L 1 0 = rm.code := (l16 1 0 (by decide)).trans (by unfold fb; omega)
  have f31_2 : fb L 31 2 = 0 := (l32 31 2 (by decide)).trans (by unfold fb; omega)
  show fin (do let d ← o32 (fb L 47 40); let a ← o32 (fb L 39 32); let rm ← rmC (fb L 1 0); pure (.fsqrt h d a rm)) ((fb L 31 2)) = _
  simp only [g1, g2, f1_0, f31_2, o32_byte, rmC_code, ok_bind]
  rfl
theorem frsq (h : Gd) (d a : Opnd) : Statement (.frsq h d a) := by
  intro hw quay hq w hE; obtain rfl := Option.some.inj hE
  have k0 := d.byte_lt; have k1 := a.byte_lt
  obtain ⟨L, hL⟩ : ∃ L, d.byte * 2 ^ 40 + a.byte * 2 ^ 32 + 0 * 2 ^ 24 + 0 * 2 ^ 16 + 0 = L := ⟨_, rfl⟩
  obtain ⟨g0, g1, g2, g3, g4, l16, l24, l32, l40⟩ := fieldsR (by omega) (by omega) (by omega) (by omega) (by omega) hL
  refine Eq.trans (b := decodeAlu 72 0 h L) (by subst hL; exact decodeWord_alu quay (by decide) (by decide) g0) ?_
  have f31_0 : fb L 31 0 = 0 := (l32 31 0 (by decide)).trans (by unfold fb; omega)
  show fin (do let d ← o32 (fb L 47 40); let a ← o32 (fb L 39 32); pure (.frsq h d a)) ((fb L 31 0)) = _
  simp only [g1, g2, f31_0, o32_byte, ok_bind]
  rfl
theorem frcp (h : Gd) (d a : Opnd) : Statement (.frcp h d a) := by
  intro hw quay hq w hE; obtain rfl := Option.some.inj hE
  have k0 := d.byte_lt; have k1 := a.byte_lt
  obtain ⟨L, hL⟩ : ∃ L, d.byte * 2 ^ 40 + a.byte * 2 ^ 32 + 0 * 2 ^ 24 + 0 * 2 ^ 16 + 0 = L := ⟨_, rfl⟩
  obtain ⟨g0, g1, g2, g3, g4, l16, l24, l32, l40⟩ := fieldsR (by omega) (by omega) (by omega) (by omega) (by omega) hL
  refine Eq.trans (b := decodeAlu 73 0 h L) (by subst hL; exact decodeWord_alu quay (by decide) (by decide) g0) ?_
  have f31_0 : fb L 31 0 = 0 := (l32 31 0 (by decide)).trans (by unfold fb; omega)
  show fin (do let d ← o32 (fb L 47 40); let a ← o32 (fb L 39 32); pure (.frcp h d a)) ((fb L 31 0)) = _
  simp only [g1, g2, f31_0, o32_byte, ok_bind]
  rfl
theorem fex2 (h : Gd) (d a : Opnd) : Statement (.fex2 h d a) := by
  intro hw quay hq w hE; obtain rfl := Option.some.inj hE
  have k0 := d.byte_lt; have k1 := a.byte_lt
  obtain ⟨L, hL⟩ : ∃ L, d.byte * 2 ^ 40 + a.byte * 2 ^ 32 + 0 * 2 ^ 24 + 0 * 2 ^ 16 + 0 = L := ⟨_, rfl⟩
  obtain ⟨g0, g1, g2, g3, g4, l16, l24, l32, l40⟩ := fieldsR (by omega) (by omega) (by omega) (by omega) (by omega) hL
  refine Eq.trans (b := decodeAlu 74 0 h L) (by subst hL; exact decodeWord_alu quay (by decide) (by decide) g0) ?_
  have f31_0 : fb L 31 0 = 0 := (l32 31 0 (by decide)).trans (by unfold fb; omega)
  show fin (do let d ← o32 (fb L 47 40); let a ← o32 (fb L 39 32); pure (.fex2 h d a)) ((fb L 31 0)) = _
  simp only [g1, g2, f31_0, o32_byte, ok_bind]
  rfl
theorem flg2 (h : Gd) (d a : Opnd) : Statement (.flg2 h d a) := by
  intro hw quay hq w hE; obtain rfl := Option.some.inj hE
  have k0 := d.byte_lt; have k1 := a.byte_lt
  obtain ⟨L, hL⟩ : ∃ L, d.byte * 2 ^ 40 + a.byte * 2 ^ 32 + 0 * 2 ^ 24 + 0 * 2 ^ 16 + 0 = L := ⟨_, rfl⟩
  obtain ⟨g0, g1, g2, g3, g4, l16, l24, l32, l40⟩ := fieldsR (by omega) (by omega) (by omega) (by omega) (by omega) hL
  refine Eq.trans (b := decodeAlu 75 0 h L) (by subst hL; exact decodeWord_alu quay (by decide) (by decide) g0) ?_
  have f31_0 : fb L 31 0 = 0 := (l32 31 0 (by decide)).trans (by unfold fb; omega)
  show fin (do let d ← o32 (fb L 47 40); let a ← o32 (fb L 39 32); pure (.flg2 h d a)) ((fb L 31 0)) = _
  simp only [g1, g2, f31_0, o32_byte, ok_bind]
  rfl
theorem fsinpi (h : Gd) (d a : Opnd) : Statement (.fsinpi h d a) := by
  intro hw quay hq w hE; obtain rfl := Option.some.inj hE
  have k0 := d.byte_lt; have k1 := a.byte_lt
  obtain ⟨L, hL⟩ : ∃ L, d.byte * 2 ^ 40 + a.byte * 2 ^ 32 + 0 * 2 ^ 24 + 0 * 2 ^ 16 + 0 = L := ⟨_, rfl⟩
  obtain ⟨g0, g1, g2, g3, g4, l16, l24, l32, l40⟩ := fieldsR (by omega) (by omega) (by omega) (by omega) (by omega) hL
  refine Eq.trans (b := decodeAlu 76 0 h L) (by subst hL; exact decodeWord_alu quay (by decide) (by decide) g0) ?_
  have f31_0 : fb L 31 0 = 0 := (l32 31 0 (by decide)).trans (by unfold fb; omega)
  show fin (do let d ← o32 (fb L 47 40); let a ← o32 (fb L 39 32); pure (.fsinpi h d a)) ((fb L 31 0)) = _
  simp only [g1, g2, f31_0, o32_byte, ok_bind]
  rfl
theorem fcospi (h : Gd) (d a : Opnd) : Statement (.fcospi h d a) := by
  intro hw quay hq w hE; obtain rfl := Option.some.inj hE
  have k0 := d.byte_lt; have k1 := a.byte_lt
  obtain ⟨L, hL⟩ : ∃ L, d.byte * 2 ^ 40 + a.byte * 2 ^ 32 + 0 * 2 ^ 24 + 0 * 2 ^ 16 + 0 = L := ⟨_, rfl⟩
  obtain ⟨g0, g1, g2, g3, g4, l16, l24, l32, l40⟩ := fieldsR (by omega) (by omega) (by omega) (by omega) (by omega) hL
  refine Eq.trans (b := decodeAlu 77 0 h L) (by subst hL; exact decodeWord_alu quay (by decide) (by decide) g0) ?_
  have f31_0 : fb L 31 0 = 0 := (l32 31 0 (by decide)).trans (by unfold fb; omega)
  show fin (do let d ← o32 (fb L 47 40); let a ← o32 (fb L 39 32); pure (.fcospi h d a)) ((fb L 31 0)) = _
  simp only [g1, g2, f31_0, o32_byte, ok_bind]
  rfl
theorem fclass (h : Gd) (d a : Opnd) : Statement (.fclass h d a) := by
  intro hw quay hq w hE; obtain rfl := Option.some.inj hE
  have k0 := d.byte_lt; have k1 := a.byte_lt
  obtain ⟨L, hL⟩ : ∃ L, d.byte * 2 ^ 40 + a.byte * 2 ^ 32 + 0 * 2 ^ 24 + 0 * 2 ^ 16 + 0 = L := ⟨_, rfl⟩
  obtain ⟨g0, g1, g2, g3, g4, l16, l24, l32, l40⟩ := fieldsR (by omega) (by omega) (by omega) (by omega) (by omega) hL
  refine Eq.trans (b := decodeAlu 78 0 h L) (by subst hL; exact decodeWord_alu quay (by decide) (by decide) g0) ?_
  have f31_0 : fb L 31 0 = 0 := (l32 31 0 (by decide)).trans (by unfold fb; omega)
  show fin (do let d ← o32 (fb L 47 40); let a ← o32 (fb L 39 32); pure (.fclass h d a)) ((fb L 31 0)) = _
  simp only [g1, g2, f31_0, o32_byte, ok_bind]
  rfl
theorem fscale (h : Gd) (d a b : Opnd) (rm : RMode) : Statement (.fscale h d a b rm) := by
  intro hw quay hq w hE; obtain rfl := Option.some.inj hE
  have k0 := d.byte_lt; have k1 := a.byte_lt; have k2 := b.byte_lt; have k3 := rm.code_lt
  obtain ⟨L, hL⟩ : ∃ L, d.byte * 2 ^ 40 + a.byte * 2 ^ 32 + b.byte * 2 ^ 24 + 0 * 2 ^ 16 + rm.code = L := ⟨_, rfl⟩
  obtain ⟨g0, g1, g2, g3, g4, l16, l24, l32, l40⟩ := fieldsR (by omega) (by omega) (by omega) (by omega) (by omega) hL
  refine Eq.trans (b := decodeAlu 79 0 h L) (by subst hL; exact decodeWord_alu quay (by decide) (by decide) g0) ?_
  have f1_0 : fb L 1 0 = rm.code := (l16 1 0 (by decide)).trans (by unfold fb; omega)
  have f23_2 : fb L 23 2 = 0 := (l24 23 2 (by decide)).trans (by unfold fb; omega)
  show fin (do let d ← o32 (fb L 47 40); let a ← o32 (fb L 39 32); let b ← o32 (fb L 31 24); let rm ← rmC (fb L 1 0); pure (.fscale h d a b rm)) ((fb L 23 2)) = _
  simp only [g1, g2, g3, f1_0, f23_2, o32_byte, rmC_code, ok_bind]
  rfl
theorem dadd (h : Gd) (d a b : Opnd) (rm : RMode) (na nb : Bool) : Statement (.dadd h d a b rm na nb) := by
  intro hw quay hq w hE; obtain rfl := Option.some.inj hE
  have hw : (d.spanOk 2 && a.spanOk 2 && b.spanOk 2) = true := hw
  simp only [Bool.and_eq_true, Bool.or_eq_true, Bool.not_eq_true', decide_eq_true_eq, bne_iff_ne, beq_iff_eq, ne_eq] at hw
  have k0 := d.byte_lt; have k1 := a.byte_lt; have k2 := b.byte_lt; have k3 := rm.code_lt; have k4 := bn_lt na; have k5 := bn_lt nb
  obtain ⟨L, hL⟩ : ∃ L, d.byte * 2 ^ 40 + a.byte * 2 ^ 32 + b.byte * 2 ^ 24 + 0 * 2 ^ 16 + (rm.code + bn na * 16 + bn nb * 32) = L := ⟨_, rfl⟩
  obtain ⟨g0, g1, g2, g3, g4, l16, l24, l32, l40⟩ := fieldsR (by omega) (by omega) (by omega) (by omega) (by omega) hL
  refine Eq.trans (b := decodeAlu 80 0 h L) (by subst hL; exact decodeWord_alu quay (by decide) (by decide) g0) ?_
  have f1_0 : fb L 1 0 = rm.code := (l16 1 0 (by decide)).trans (by unfold fb; omega)
  have f4_4 : fb L 4 4 = bn na := (l16 4 4 (by decide)).trans (by unfold fb; omega)
  have f5_5 : fb L 5 5 = bn nb := (l16 5 5 (by decide)).trans (by unfold fb; omega)
  have f3_2 : fb L 3 2 = 0 := (l16 3 2 (by decide)).trans (by unfold fb; omega)
  have f23_6 : fb L 23 6 = 0 := (l24 23 6 (by decide)).trans (by unfold fb; omega)
  show fin (do let d ← oP (fb L 47 40); let a ← oP (fb L 39 32); let b ← oP (fb L 31 24); let rm ← rmC (fb L 1 0); let na ← bool (fb L 4 4); let nb ← bool (fb L 5 5); pure (.dadd h d a b rm na nb)) ((fb L 3 2) + (fb L 23 6)) = _
  simp only [g1, g2, g3, f1_0, f4_4, f5_5, f3_2, f23_6, oP_byte, rmC_code, bool_bn, hw, ok_bind]
  rfl
theorem dmul (h : Gd) (d a b : Opnd) (rm : RMode) (na nb : Bool) : Statement (.dmul h d a b rm na nb) := by
  intro hw quay hq w hE; obtain rfl := Option.some.inj hE
  have hw : (d.spanOk 2 && a.spanOk 2 && b.spanOk 2) = true := hw
  simp only [Bool.and_eq_true, Bool.or_eq_true, Bool.not_eq_true', decide_eq_true_eq, bne_iff_ne, beq_iff_eq, ne_eq] at hw
  have k0 := d.byte_lt; have k1 := a.byte_lt; have k2 := b.byte_lt; have k3 := rm.code_lt; have k4 := bn_lt na; have k5 := bn_lt nb
  obtain ⟨L, hL⟩ : ∃ L, d.byte * 2 ^ 40 + a.byte * 2 ^ 32 + b.byte * 2 ^ 24 + 0 * 2 ^ 16 + (rm.code + bn na * 16 + bn nb * 32) = L := ⟨_, rfl⟩
  obtain ⟨g0, g1, g2, g3, g4, l16, l24, l32, l40⟩ := fieldsR (by omega) (by omega) (by omega) (by omega) (by omega) hL
  refine Eq.trans (b := decodeAlu 81 0 h L) (by subst hL; exact decodeWord_alu quay (by decide) (by decide) g0) ?_
  have f1_0 : fb L 1 0 = rm.code := (l16 1 0 (by decide)).trans (by unfold fb; omega)
  have f4_4 : fb L 4 4 = bn na := (l16 4 4 (by decide)).trans (by unfold fb; omega)
  have f5_5 : fb L 5 5 = bn nb := (l16 5 5 (by decide)).trans (by unfold fb; omega)
  have f3_2 : fb L 3 2 = 0 := (l16 3 2 (by decide)).trans (by unfold fb; omega)
  have f23_6 : fb L 23 6 = 0 := (l24 23 6 (by decide)).trans (by unfold fb; omega)
  show fin (do let d ← oP (fb L 47 40); let a ← oP (fb L 39 32); let b ← oP (fb L 31 24); let rm ← rmC (fb L 1 0); let na ← bool (fb L 4 4); let nb ← bool (fb L 5 5); pure (.dmul h d a b rm na nb)) ((fb L 3 2) + (fb L 23 6)) = _
  simp only [g1, g2, g3, f1_0, f4_4, f5_5, f3_2, f23_6, oP_byte, rmC_code, bool_bn, hw, ok_bind]
  rfl
theorem dfma (h : Gd) (d a b c : Opnd) (rm : RMode) (na nb nc : Bool) : Statement (.dfma h d a b c rm na nb nc) := by
  intro hw quay hq w hE; obtain rfl := Option.some.inj hE
  have hw : (d.spanOk 2 && a.spanOk 2 && b.spanOk 2 && c.spanOk 2) = true := hw
  simp only [Bool.and_eq_true, Bool.or_eq_true, Bool.not_eq_true', decide_eq_true_eq, bne_iff_ne, beq_iff_eq, ne_eq] at hw
  have k0 := d.byte_lt; have k1 := a.byte_lt; have k2 := b.byte_lt; have k3 := c.byte_lt; have k4 := rm.code_lt; have k5 := bn_lt na; have k6 := bn_lt nb; have k7 := bn_lt nc
  obtain ⟨L, hL⟩ : ∃ L, d.byte * 2 ^ 40 + a.byte * 2 ^ 32 + b.byte * 2 ^ 24 + c.byte * 2 ^ 16 + (rm.code + bn na * 16 + bn nb * 32 + bn nc * 64) = L := ⟨_, rfl⟩
  obtain ⟨g0, g1, g2, g3, g4, l16, l24, l32, l40⟩ := fieldsR (by omega) (by omega) (by omega) (by omega) (by omega) hL
  refine Eq.trans (b := decodeAlu 82 0 h L) (by subst hL; exact decodeWord_alu quay (by decide) (by decide) g0) ?_
  have f1_0 : fb L 1 0 = rm.code := (l16 1 0 (by decide)).trans (by unfold fb; omega)
  have f4_4 : fb L 4 4 = bn na := (l16 4 4 (by decide)).trans (by unfold fb; omega)
  have f5_5 : fb L 5 5 = bn nb := (l16 5 5 (by decide)).trans (by unfold fb; omega)
  have f6_6 : fb L 6 6 = bn nc := (l16 6 6 (by decide)).trans (by unfold fb; omega)
  have f3_2 : fb L 3 2 = 0 := (l16 3 2 (by decide)).trans (by unfold fb; omega)
  have f15_7 : fb L 15 7 = 0 := (l16 15 7 (by decide)).trans (by unfold fb; omega)
  show fin (do let d ← oP (fb L 47 40); let a ← oP (fb L 39 32); let b ← oP (fb L 31 24); let c ← oP (fb L 23 16); let rm ← rmC (fb L 1 0); let na ← bool (fb L 4 4); let nb ← bool (fb L 5 5); let nc ← bool (fb L 6 6); pure (.dfma h d a b c rm na nb nc)) ((fb L 3 2) + (fb L 15 7)) = _
  simp only [g1, g2, g3, g4, f1_0, f4_4, f5_5, f6_6, f3_2, f15_7, oP_byte, rmC_code, bool_bn, hw, ok_bind]
  rfl
theorem dmin (h : Gd) (d a b : Opnd) : Statement (.dmin h d a b) := by
  intro hw quay hq w hE; obtain rfl := Option.some.inj hE
  have hw : (d.spanOk 2 && a.spanOk 2 && b.spanOk 2) = true := hw
  simp only [Bool.and_eq_true, Bool.or_eq_true, Bool.not_eq_true', decide_eq_true_eq, bne_iff_ne, beq_iff_eq, ne_eq] at hw
  have k0 := d.byte_lt; have k1 := a.byte_lt; have k2 := b.byte_lt
  obtain ⟨L, hL⟩ : ∃ L, d.byte * 2 ^ 40 + a.byte * 2 ^ 32 + b.byte * 2 ^ 24 + 0 * 2 ^ 16 + 0 = L := ⟨_, rfl⟩
  obtain ⟨g0, g1, g2, g3, g4, l16, l24, l32, l40⟩ := fieldsR (by omega) (by omega) (by omega) (by omega) (by omega) hL
  refine Eq.trans (b := decodeAlu 83 0 h L) (by subst hL; exact decodeWord_alu quay (by decide) (by decide) g0) ?_
  have f23_0 : fb L 23 0 = 0 := (l24 23 0 (by decide)).trans (by unfold fb; omega)
  show fin (do let d ← oP (fb L 47 40); let a ← oP (fb L 39 32); let b ← oP (fb L 31 24); pure (.dmin h d a b)) ((fb L 23 0)) = _
  simp only [g1, g2, g3, f23_0, oP_byte, hw, ok_bind]
  rfl
theorem dmax (h : Gd) (d a b : Opnd) : Statement (.dmax h d a b) := by
  intro hw quay hq w hE; obtain rfl := Option.some.inj hE
  have hw : (d.spanOk 2 && a.spanOk 2 && b.spanOk 2) = true := hw
  simp only [Bool.and_eq_true, Bool.or_eq_true, Bool.not_eq_true', decide_eq_true_eq, bne_iff_ne, beq_iff_eq, ne_eq] at hw
  have k0 := d.byte_lt; have k1 := a.byte_lt; have k2 := b.byte_lt
  obtain ⟨L, hL⟩ : ∃ L, d.byte * 2 ^ 40 + a.byte * 2 ^ 32 + b.byte * 2 ^ 24 + 0 * 2 ^ 16 + 0 = L := ⟨_, rfl⟩
  obtain ⟨g0, g1, g2, g3, g4, l16, l24, l32, l40⟩ := fieldsR (by omega) (by omega) (by omega) (by omega) (by omega) hL
  refine Eq.trans (b := decodeAlu 84 0 h L) (by subst hL; exact decodeWord_alu quay (by decide) (by decide) g0) ?_
  have f23_0 : fb L 23 0 = 0 := (l24 23 0 (by decide)).trans (by unfold fb; omega)
  show fin (do let d ← oP (fb L 47 40); let a ← oP (fb L 39 32); let b ← oP (fb L 31 24); pure (.dmax h d a b)) ((fb L 23 0)) = _
  simp only [g1, g2, g3, f23_0, oP_byte, hw, ok_bind]
  rfl
theorem ddiv (h : Gd) (d a b : Opnd) (rm : RMode) : Statement (.ddiv h d a b rm) := by
  intro hw quay hq w hE; obtain rfl := Option.some.inj hE
  have hw : (d.spanOk 2 && a.spanOk 2 && b.spanOk 2) = true := hw
  simp only [Bool.and_eq_true, Bool.or_eq_true, Bool.not_eq_true', decide_eq_true_eq, bne_iff_ne, beq_iff_eq, ne_eq] at hw
  have k0 := d.byte_lt; have k1 := a.byte_lt; have k2 := b.byte_lt; have k3 := rm.code_lt
  obtain ⟨L, hL⟩ : ∃ L, d.byte * 2 ^ 40 + a.byte * 2 ^ 32 + b.byte * 2 ^ 24 + 0 * 2 ^ 16 + rm.code = L := ⟨_, rfl⟩
  obtain ⟨g0, g1, g2, g3, g4, l16, l24, l32, l40⟩ := fieldsR (by omega) (by omega) (by omega) (by omega) (by omega) hL
  refine Eq.trans (b := decodeAlu 85 0 h L) (by subst hL; exact decodeWord_alu quay (by decide) (by decide) g0) ?_
  have f1_0 : fb L 1 0 = rm.code := (l16 1 0 (by decide)).trans (by unfold fb; omega)
  have f23_2 : fb L 23 2 = 0 := (l24 23 2 (by decide)).trans (by unfold fb; omega)
  show fin (do let d ← oP (fb L 47 40); let a ← oP (fb L 39 32); let b ← oP (fb L 31 24); let rm ← rmC (fb L 1 0); pure (.ddiv h d a b rm)) ((fb L 23 2)) = _
  simp only [g1, g2, g3, f1_0, f23_2, oP_byte, rmC_code, hw, ok_bind]
  rfl
theorem dsqrt (h : Gd) (d a : Opnd) (rm : RMode) : Statement (.dsqrt h d a rm) := by
  intro hw quay hq w hE; obtain rfl := Option.some.inj hE
  have hw : (d.spanOk 2 && a.spanOk 2) = true := hw
  simp only [Bool.and_eq_true, Bool.or_eq_true, Bool.not_eq_true', decide_eq_true_eq, bne_iff_ne, beq_iff_eq, ne_eq] at hw
  have k0 := d.byte_lt; have k1 := a.byte_lt; have k2 := rm.code_lt
  obtain ⟨L, hL⟩ : ∃ L, d.byte * 2 ^ 40 + a.byte * 2 ^ 32 + 0 * 2 ^ 24 + 0 * 2 ^ 16 + rm.code = L := ⟨_, rfl⟩
  obtain ⟨g0, g1, g2, g3, g4, l16, l24, l32, l40⟩ := fieldsR (by omega) (by omega) (by omega) (by omega) (by omega) hL
  refine Eq.trans (b := decodeAlu 86 0 h L) (by subst hL; exact decodeWord_alu quay (by decide) (by decide) g0) ?_
  have f1_0 : fb L 1 0 = rm.code := (l16 1 0 (by decide)).trans (by unfold fb; omega)
  have f31_2 : fb L 31 2 = 0 := (l32 31 2 (by decide)).trans (by unfold fb; omega)
  show fin (do let d ← oP (fb L 47 40); let a ← oP (fb L 39 32); let rm ← rmC (fb L 1 0); pure (.dsqrt h d a rm)) ((fb L 31 2)) = _
  simp only [g1, g2, f1_0, f31_2, oP_byte, rmC_code, hw, ok_bind]
  rfl
theorem hadd2 (h : Gd) (d a b : Opnd) (na nb : Bool) : Statement (.hadd2 h d a b na nb) := by
  intro hw quay hq w hE; obtain rfl := Option.some.inj hE
  have k0 := d.byte_lt; have k1 := a.byte_lt; have k2 := b.byte_lt; have k3 := bn_lt na; have k4 := bn_lt nb
  obtain ⟨L, hL⟩ : ∃ L, d.byte * 2 ^ 40 + a.byte * 2 ^ 32 + b.byte * 2 ^ 24 + 0 * 2 ^ 16 + (bn na * 16 + bn nb * 32) = L := ⟨_, rfl⟩
  obtain ⟨g0, g1, g2, g3, g4, l16, l24, l32, l40⟩ := fieldsR (by omega) (by omega) (by omega) (by omega) (by omega) hL
  refine Eq.trans (b := decodeAlu 88 0 h L) (by subst hL; exact decodeWord_alu quay (by decide) (by decide) g0) ?_
  have f4_4 : fb L 4 4 = bn na := (l16 4 4 (by decide)).trans (by unfold fb; omega)
  have f5_5 : fb L 5 5 = bn nb := (l16 5 5 (by decide)).trans (by unfold fb; omega)
  have f3_0 : fb L 3 0 = 0 := (l16 3 0 (by decide)).trans (by unfold fb; omega)
  have f23_6 : fb L 23 6 = 0 := (l24 23 6 (by decide)).trans (by unfold fb; omega)
  show fin (do let d ← o32 (fb L 47 40); let a ← o32 (fb L 39 32); let b ← o32 (fb L 31 24); let na ← bool (fb L 4 4); let nb ← bool (fb L 5 5); pure (.hadd2 h d a b na nb)) ((fb L 3 0) + (fb L 23 6)) = _
  simp only [g1, g2, g3, f4_4, f5_5, f3_0, f23_6, o32_byte, bool_bn, ok_bind]
  rfl
theorem hmul2 (h : Gd) (d a b : Opnd) (na nb : Bool) : Statement (.hmul2 h d a b na nb) := by
  intro hw quay hq w hE; obtain rfl := Option.some.inj hE
  have k0 := d.byte_lt; have k1 := a.byte_lt; have k2 := b.byte_lt; have k3 := bn_lt na; have k4 := bn_lt nb
  obtain ⟨L, hL⟩ : ∃ L, d.byte * 2 ^ 40 + a.byte * 2 ^ 32 + b.byte * 2 ^ 24 + 0 * 2 ^ 16 + (bn na * 16 + bn nb * 32) = L := ⟨_, rfl⟩
  obtain ⟨g0, g1, g2, g3, g4, l16, l24, l32, l40⟩ := fieldsR (by omega) (by omega) (by omega) (by omega) (by omega) hL
  refine Eq.trans (b := decodeAlu 89 0 h L) (by subst hL; exact decodeWord_alu quay (by decide) (by decide) g0) ?_
  have f4_4 : fb L 4 4 = bn na := (l16 4 4 (by decide)).trans (by unfold fb; omega)
  have f5_5 : fb L 5 5 = bn nb := (l16 5 5 (by decide)).trans (by unfold fb; omega)
  have f3_0 : fb L 3 0 = 0 := (l16 3 0 (by decide)).trans (by unfold fb; omega)
  have f23_6 : fb L 23 6 = 0 := (l24 23 6 (by decide)).trans (by unfold fb; omega)
  show fin (do let d ← o32 (fb L 47 40); let a ← o32 (fb L 39 32); let b ← o32 (fb L 31 24); let na ← bool (fb L 4 4); let nb ← bool (fb L 5 5); pure (.hmul2 h d a b na nb)) ((fb L 3 0) + (fb L 23 6)) = _
  simp only [g1, g2, g3, f4_4, f5_5, f3_0, f23_6, o32_byte, bool_bn, ok_bind]
  rfl
theorem hfma2 (h : Gd) (d a b c : Opnd) (na nb nc : Bool) : Statement (.hfma2 h d a b c na nb nc) := by
  intro hw quay hq w hE; obtain rfl := Option.some.inj hE
  have k0 := d.byte_lt; have k1 := a.byte_lt; have k2 := b.byte_lt; have k3 := c.byte_lt; have k4 := bn_lt na; have k5 := bn_lt nb; have k6 := bn_lt nc
  obtain ⟨L, hL⟩ : ∃ L, d.byte * 2 ^ 40 + a.byte * 2 ^ 32 + b.byte * 2 ^ 24 + c.byte * 2 ^ 16 + (bn na * 16 + bn nb * 32 + bn nc * 64) = L := ⟨_, rfl⟩
  obtain ⟨g0, g1, g2, g3, g4, l16, l24, l32, l40⟩ := fieldsR (by omega) (by omega) (by omega) (by omega) (by omega) hL
  refine Eq.trans (b := decodeAlu 90 0 h L) (by subst hL; exact decodeWord_alu quay (by decide) (by decide) g0) ?_
  have f4_4 : fb L 4 4 = bn na := (l16 4 4 (by decide)).trans (by unfold fb; omega)
  have f5_5 : fb L 5 5 = bn nb := (l16 5 5 (by decide)).trans (by unfold fb; omega)
  have f6_6 : fb L 6 6 = bn nc := (l16 6 6 (by decide)).trans (by unfold fb; omega)
  have f3_0 : fb L 3 0 = 0 := (l16 3 0 (by decide)).trans (by unfold fb; omega)
  have f15_7 : fb L 15 7 = 0 := (l16 15 7 (by decide)).trans (by unfold fb; omega)
  show fin (do let d ← o32 (fb L 47 40); let a ← o32 (fb L 39 32); let b ← o32 (fb L 31 24); let c ← o32 (fb L 23 16); let na ← bool (fb L 4 4); let nb ← bool (fb L 5 5); let nc ← bool (fb L 6 6); pure (.hfma2 h d a b c na nb nc)) ((fb L 3 0) + (fb L 15 7)) = _
  simp only [g1, g2, g3, g4, f4_4, f5_5, f6_6, f3_0, f15_7, o32_byte, bool_bn, ok_bind]
  rfl
theorem hmin2 (h : Gd) (d a b : Opnd) : Statement (.hmin2 h d a b) := by
  intro hw quay hq w hE; obtain rfl := Option.some.inj hE
  have k0 := d.byte_lt; have k1 := a.byte_lt; have k2 := b.byte_lt
  obtain ⟨L, hL⟩ : ∃ L, d.byte * 2 ^ 40 + a.byte * 2 ^ 32 + b.byte * 2 ^ 24 + 0 * 2 ^ 16 + 0 = L := ⟨_, rfl⟩
  obtain ⟨g0, g1, g2, g3, g4, l16, l24, l32, l40⟩ := fieldsR (by omega) (by omega) (by omega) (by omega) (by omega) hL
  refine Eq.trans (b := decodeAlu 91 0 h L) (by subst hL; exact decodeWord_alu quay (by decide) (by decide) g0) ?_
  have f23_0 : fb L 23 0 = 0 := (l24 23 0 (by decide)).trans (by unfold fb; omega)
  show fin (do let d ← o32 (fb L 47 40); let a ← o32 (fb L 39 32); let b ← o32 (fb L 31 24); pure (.hmin2 h d a b)) ((fb L 23 0)) = _
  simp only [g1, g2, g3, f23_0, o32_byte, ok_bind]
  rfl
theorem hmax2 (h : Gd) (d a b : Opnd) : Statement (.hmax2 h d a b) := by
  intro hw quay hq w hE; obtain rfl := Option.some.inj hE
  have k0 := d.byte_lt; have k1 := a.byte_lt; have k2 := b.byte_lt
  obtain ⟨L, hL⟩ : ∃ L, d.byte * 2 ^ 40 + a.byte * 2 ^ 32 + b.byte * 2 ^ 24 + 0 * 2 ^ 16 + 0 = L := ⟨_, rfl⟩
  obtain ⟨g0, g1, g2, g3, g4, l16, l24, l32, l40⟩ := fieldsR (by omega) (by omega) (by omega) (by omega) (by omega) hL
  refine Eq.trans (b := decodeAlu 92 0 h L) (by subst hL; exact decodeWord_alu quay (by decide) (by decide) g0) ?_
  have f23_0 : fb L 23 0 = 0 := (l24 23 0 (by decide)).trans (by unfold fb; omega)
  show fin (do let d ← o32 (fb L 47 40); let a ← o32 (fb L 39 32); let b ← o32 (fb L 31 24); pure (.hmax2 h d a b)) ((fb L 23 0)) = _
  simp only [g1, g2, g3, f23_0, o32_byte, ok_bind]
  rfl
theorem bfma2 (h : Gd) (d a b c : Opnd) (na nb nc : Bool) : Statement (.bfma2 h d a b c na nb nc) := by
  intro hw quay hq w hE; obtain rfl := Option.some.inj hE
  have k0 := d.byte_lt; have k1 := a.byte_lt; have k2 := b.byte_lt; have k3 := c.byte_lt; have k4 := bn_lt na; have k5 := bn_lt nb; have k6 := bn_lt nc
  obtain ⟨L, hL⟩ : ∃ L, d.byte * 2 ^ 40 + a.byte * 2 ^ 32 + b.byte * 2 ^ 24 + c.byte * 2 ^ 16 + (bn na * 16 + bn nb * 32 + bn nc * 64) = L := ⟨_, rfl⟩
  obtain ⟨g0, g1, g2, g3, g4, l16, l24, l32, l40⟩ := fieldsR (by omega) (by omega) (by omega) (by omega) (by omega) hL
  refine Eq.trans (b := decodeAlu 93 0 h L) (by subst hL; exact decodeWord_alu quay (by decide) (by decide) g0) ?_
  have f4_4 : fb L 4 4 = bn na := (l16 4 4 (by decide)).trans (by unfold fb; omega)
  have f5_5 : fb L 5 5 = bn nb := (l16 5 5 (by decide)).trans (by unfold fb; omega)
  have f6_6 : fb L 6 6 = bn nc := (l16 6 6 (by decide)).trans (by unfold fb; omega)
  have f3_0 : fb L 3 0 = 0 := (l16 3 0 (by decide)).trans (by unfold fb; omega)
  have f15_7 : fb L 15 7 = 0 := (l16 15 7 (by decide)).trans (by unfold fb; omega)
  show fin (do let d ← o32 (fb L 47 40); let a ← o32 (fb L 39 32); let b ← o32 (fb L 31 24); let c ← o32 (fb L 23 16); let na ← bool (fb L 4 4); let nb ← bool (fb L 5 5); let nc ← bool (fb L 6 6); pure (.bfma2 h d a b c na nb nc)) ((fb L 3 0) + (fb L 15 7)) = _
  simp only [g1, g2, g3, g4, f4_4, f5_5, f6_6, f3_0, f15_7, o32_byte, bool_bn, ok_bind]
  rfl
theorem badd2 (h : Gd) (d a b : Opnd) (na nb : Bool) : Statement (.badd2 h d a b na nb) := by
  intro hw quay hq w hE; obtain rfl := Option.some.inj hE
  have k0 := d.byte_lt; have k1 := a.byte_lt; have k2 := b.byte_lt; have k3 := bn_lt na; have k4 := bn_lt nb
  obtain ⟨L, hL⟩ : ∃ L, d.byte * 2 ^ 40 + a.byte * 2 ^ 32 + b.byte * 2 ^ 24 + 0 * 2 ^ 16 + (bn na * 16 + bn nb * 32) = L := ⟨_, rfl⟩
  obtain ⟨g0, g1, g2, g3, g4, l16, l24, l32, l40⟩ := fieldsR (by omega) (by omega) (by omega) (by omega) (by omega) hL
  refine Eq.trans (b := decodeAlu 94 0 h L) (by subst hL; exact decodeWord_alu quay (by decide) (by decide) g0) ?_
  have f4_4 : fb L 4 4 = bn na := (l16 4 4 (by decide)).trans (by unfold fb; omega)
  have f5_5 : fb L 5 5 = bn nb := (l16 5 5 (by decide)).trans (by unfold fb; omega)
  have f3_0 : fb L 3 0 = 0 := (l16 3 0 (by decide)).trans (by unfold fb; omega)
  have f23_6 : fb L 23 6 = 0 := (l24 23 6 (by decide)).trans (by unfold fb; omega)
  show fin (do let d ← o32 (fb L 47 40); let a ← o32 (fb L 39 32); let b ← o32 (fb L 31 24); let na ← bool (fb L 4 4); let nb ← bool (fb L 5 5); pure (.badd2 h d a b na nb)) ((fb L 3 0) + (fb L 23 6)) = _
  simp only [g1, g2, g3, f4_4, f5_5, f3_0, f23_6, o32_byte, bool_bn, ok_bind]
  rfl
theorem bmul2 (h : Gd) (d a b : Opnd) (na nb : Bool) : Statement (.bmul2 h d a b na nb) := by
  intro hw quay hq w hE; obtain rfl := Option.some.inj hE
  have k0 := d.byte_lt; have k1 := a.byte_lt; have k2 := b.byte_lt; have k3 := bn_lt na; have k4 := bn_lt nb
  obtain ⟨L, hL⟩ : ∃ L, d.byte * 2 ^ 40 + a.byte * 2 ^ 32 + b.byte * 2 ^ 24 + 0 * 2 ^ 16 + (bn na * 16 + bn nb * 32) = L := ⟨_, rfl⟩
  obtain ⟨g0, g1, g2, g3, g4, l16, l24, l32, l40⟩ := fieldsR (by omega) (by omega) (by omega) (by omega) (by omega) hL
  refine Eq.trans (b := decodeAlu 95 0 h L) (by subst hL; exact decodeWord_alu quay (by decide) (by decide) g0) ?_
  have f4_4 : fb L 4 4 = bn na := (l16 4 4 (by decide)).trans (by unfold fb; omega)
  have f5_5 : fb L 5 5 = bn nb := (l16 5 5 (by decide)).trans (by unfold fb; omega)
  have f3_0 : fb L 3 0 = 0 := (l16 3 0 (by decide)).trans (by unfold fb; omega)
  have f23_6 : fb L 23 6 = 0 := (l24 23 6 (by decide)).trans (by unfold fb; omega)
  show fin (do let d ← o32 (fb L 47 40); let a ← o32 (fb L 39 32); let b ← o32 (fb L 31 24); let na ← bool (fb L 4 4); let nb ← bool (fb L 5 5); pure (.bmul2 h d a b na nb)) ((fb L 3 0) + (fb L 23 6)) = _
  simp only [g1, g2, g3, f4_4, f5_5, f3_0, f23_6, o32_byte, bool_bn, ok_bind]
  rfl
theorem idot4 (h : Gd) (d a b c : Opnd) (ua ub sat : Bool) : Statement (.idot4 h d a b c ua ub sat) := by
  intro hw quay hq w hE; obtain rfl := Option.some.inj hE
  have k0 := d.byte_lt; have k1 := a.byte_lt; have k2 := b.byte_lt; have k3 := c.byte_lt; have k4 := bn_lt ua; have k5 := bn_lt ub; have k6 := bn_lt sat
  obtain ⟨L, hL⟩ : ∃ L, d.byte * 2 ^ 40 + a.byte * 2 ^ 32 + b.byte * 2 ^ 24 + c.byte * 2 ^ 16 + (bn ua + bn ub * 2 + bn sat * 4) = L := ⟨_, rfl⟩
  obtain ⟨g0, g1, g2, g3, g4, l16, l24, l32, l40⟩ := fieldsR (by omega) (by omega) (by omega) (by omega) (by omega) hL
  refine Eq.trans (b := decodeAlu 96 0 h L) (by subst hL; exact decodeWord_alu quay (by decide) (by decide) g0) ?_
  have f0_0 : fb L 0 0 = bn ua := (l16 0 0 (by decide)).trans (by unfold fb; omega)
  have f1_1 : fb L 1 1 = bn ub := (l16 1 1 (by decide)).trans (by unfold fb; omega)
  have f2_2 : fb L 2 2 = bn sat := (l16 2 2 (by decide)).trans (by unfold fb; omega)
  have f15_3 : fb L 15 3 = 0 := (l16 15 3 (by decide)).trans (by unfold fb; omega)
  show fin (do let d ← o32 (fb L 47 40); let a ← o32 (fb L 39 32); let b ← o32 (fb L 31 24); let c ← o32 (fb L 23 16); let ua ← bool (fb L 0 0); let ub ← bool (fb L 1 1); let sat ← bool (fb L 2 2); pure (.idot4 h d a b c ua ub sat)) ((fb L 15 3)) = _
  simp only [g1, g2, g3, g4, f0_0, f1_1, f2_2, f15_3, o32_byte, bool_bn, ok_bind]
  rfl
theorem cvt (h : Gd) (d a : Opnd) (rm : RMode) (dst src : CvtTy) (elem : Fin 4) : Statement (.cvt h d a rm dst src elem) := by
  intro hw quay hq w hE; obtain rfl := Option.some.inj hE
  have hw : (d.spanOk dst.regs && a.spanOk src.regs && decide (elem.val < src.elems)) = true := hw
  simp only [Bool.and_eq_true, Bool.or_eq_true, Bool.not_eq_true', decide_eq_true_eq, bne_iff_ne, beq_iff_eq, ne_eq] at hw
  have k0 := d.byte_lt; have k1 := a.byte_lt; have k2 := dst.code_lt; have k3 := src.code_lt; have k4 := rm.code_lt; have k5 := elem.isLt
  obtain ⟨L, hL⟩ : ∃ L, d.byte * 2 ^ 40 + a.byte * 2 ^ 32 + 0 * 2 ^ 24 + 0 * 2 ^ 16 + (dst.code * 64 + src.code * 4 + rm.code + elem.val * 1024) = L := ⟨_, rfl⟩
  obtain ⟨g0, g1, g2, g3, g4, l16, l24, l32, l40⟩ := fieldsR (by omega) (by omega) (by omega) (by omega) (by omega) hL
  refine Eq.trans (b := decodeAlu 104 0 h L) (by subst hL; exact decodeWord_alu quay (by decide) (by decide) g0) ?_
  have f9_6 : fb L 9 6 = dst.code := (l16 9 6 (by decide)).trans (by unfold fb; omega)
  have f5_2 : fb L 5 2 = src.code := (l16 5 2 (by decide)).trans (by unfold fb; omega)
  have f1_0 : fb L 1 0 = rm.code := (l16 1 0 (by decide)).trans (by unfold fb; omega)
  have f11_10 : fb L 11 10 = elem.val := (l16 11 10 (by decide)).trans (by unfold fb; omega)
  have f31_12 : fb L 31 12 = 0 := (l32 31 12 (by decide)).trans (by unfold fb; omega)
  show fin (do let dst ← cvtC (fb L 9 6); let src ← cvtC (fb L 5 2); let d ← oN dst.regs (fb L 47 40); let a ← oN src.regs (fb L 39 32); let rm ← rmC (fb L 1 0); let elem ← elemC src (fb L 11 10); pure (.cvt h d a rm dst src elem)) ((fb L 31 12)) = _
  simp only [f9_6, f5_2, g1, g2, f1_0, f11_10, f31_12, cvtC_code, oN_byte, rmC_code, elemC_val, hw, ok_bind]
  rfl
theorem dxpack (h : Gd) (d a b : Opnd) (dx4 : Bool) (dist : Fin 16) : Statement (.dxpack h d a b dx4 dist) := by
  intro hw quay hq w hE; obtain rfl := Option.some.inj hE
  have hw : (b.spanOk 2 && dist.val != 0) = true := hw
  simp only [Bool.and_eq_true, Bool.or_eq_true, Bool.not_eq_true', decide_eq_true_eq, bne_iff_ne, beq_iff_eq, ne_eq] at hw
  have k0 := d.byte_lt; have k1 := a.byte_lt; have k2 := b.byte_lt; have k3 := dist.isLt; have k4 := bn_lt dx4
  obtain ⟨L, hL⟩ : ∃ L, d.byte * 2 ^ 40 + a.byte * 2 ^ 32 + b.byte * 2 ^ 24 + 0 * 2 ^ 16 + (bn dx4 + dist.val * 2) = L := ⟨_, rfl⟩
  obtain ⟨g0, g1, g2, g3, g4, l16, l24, l32, l40⟩ := fieldsR (by omega) (by omega) (by omega) (by omega) (by omega) hL
  refine Eq.trans (b := decodeAlu 105 0 h L) (by subst hL; exact decodeWord_alu quay (by decide) (by decide) g0) ?_
  have f0_0 : fb L 0 0 = bn dx4 := (l16 0 0 (by decide)).trans (by unfold fb; omega)
  have f4_1 : fb L 4 1 = dist.val := (l16 4 1 (by decide)).trans (by unfold fb; omega)
  have f23_5 : fb L 23 5 = 0 := (l24 23 5 (by decide)).trans (by unfold fb; omega)
  show fin (do let d ← o32 (fb L 47 40); let a ← o32 (fb L 39 32); let b ← oP (fb L 31 24); let dx4 ← bool (fb L 0 0); let dist ← distC (fb L 4 1); pure (.dxpack h d a b dx4 dist)) ((fb L 23 5)) = _
  simp only [g1, g2, g3, f0_0, f4_1, f23_5, o32_byte, oP_byte, bool_bn, distC_val, not_false_eq_true, hw, ok_bind]
  rfl
theorem dxunpk (h : Gd) (d a b : Opnd) (dx4 hi : Bool) : Statement (.dxunpk h d a b dx4 hi) := by
  intro hw quay hq w hE; obtain rfl := Option.some.inj hE
  have hw : (dx4 || !hi) = true := hw
  simp only [Bool.and_eq_true, Bool.or_eq_true, Bool.not_eq_true', decide_eq_true_eq, bne_iff_ne, beq_iff_eq, ne_eq] at hw
  have k0 := d.byte_lt; have k1 := a.byte_lt; have k2 := b.byte_lt; have k3 := bn_lt dx4; have k4 := bn_lt hi
  obtain ⟨L, hL⟩ : ∃ L, d.byte * 2 ^ 40 + a.byte * 2 ^ 32 + b.byte * 2 ^ 24 + 0 * 2 ^ 16 + (bn dx4 + bn hi * 2) = L := ⟨_, rfl⟩
  obtain ⟨g0, g1, g2, g3, g4, l16, l24, l32, l40⟩ := fieldsR (by omega) (by omega) (by omega) (by omega) (by omega) hL
  refine Eq.trans (b := decodeAlu 106 0 h L) (by subst hL; exact decodeWord_alu quay (by decide) (by decide) g0) ?_
  have f0_0 : fb L 0 0 = bn dx4 := (l16 0 0 (by decide)).trans (by unfold fb; omega)
  have f1_1 : fb L 1 1 = bn hi := (l16 1 1 (by decide)).trans (by unfold fb; omega)
  have f23_2 : fb L 23 2 = 0 := (l24 23 2 (by decide)).trans (by unfold fb; omega)
  show fin (do let dx4 ← bool (fb L 0 0); let d ← o32 (fb L 47 40); let a ← o32 (fb L 39 32); let b ← o32 (fb L 31 24); let hi ← hiC dx4 (fb L 1 1); pure (.dxunpk h d a b dx4 hi)) ((fb L 23 2)) = _
  simp only [f0_0, g1, g2, g3, f1_1, f23_2, bool_bn, o32_byte, hiC_bn, hw, ok_bind]
  rfl
theorem shfl (h : Gd) (d a b c : Opnd) (m : ShflMode) : Statement (.shfl h d a b c m) := by
  intro hw quay hq w hE; obtain rfl := Option.some.inj hE
  have hw : (b.spanOk 2) = true := hw
  have k0 := d.byte_lt; have k1 := a.byte_lt; have k2 := b.byte_lt; have k3 := c.byte_lt; have k4 := m.code_lt
  obtain ⟨L, hL⟩ : ∃ L, d.byte * 2 ^ 40 + a.byte * 2 ^ 32 + b.byte * 2 ^ 24 + c.byte * 2 ^ 16 + m.code = L := ⟨_, rfl⟩
  obtain ⟨g0, g1, g2, g3, g4, l16, l24, l32, l40⟩ := fieldsR (by omega) (by omega) (by omega) (by omega) (by omega) hL
  refine Eq.trans (b := decodeAlu 112 0 h L) (by subst hL; exact decodeWord_alu quay (by decide) (by decide) g0) ?_
  have f1_0 : fb L 1 0 = m.code := (l16 1 0 (by decide)).trans (by unfold fb; omega)
  have f15_2 : fb L 15 2 = 0 := (l16 15 2 (by decide)).trans (by unfold fb; omega)
  show fin (do let d ← o32 (fb L 47 40); let a ← o32 (fb L 39 32); let b ← oP (fb L 31 24); let c ← o32 (fb L 23 16); let m ← shflC (fb L 1 0); pure (.shfl h d a b c m)) ((fb L 15 2)) = _
  simp only [g1, g2, g3, g4, f1_0, f15_2, o32_byte, oP_byte, shflC_code, hw, ok_bind]
  rfl
theorem vote (h : Gd) (d a b : Opnd) (k : VoteKind) : Statement (.vote h d a b k) := by
  intro hw quay hq w hE; obtain rfl := Option.some.inj hE
  have hw : (d.spanOk k.regs && b.spanOk 2) = true := hw
  simp only [Bool.and_eq_true, Bool.or_eq_true, Bool.not_eq_true', decide_eq_true_eq, bne_iff_ne, beq_iff_eq, ne_eq] at hw
  have k0 := d.byte_lt; have k1 := a.byte_lt; have k2 := b.byte_lt; have k3 := k.code_lt
  obtain ⟨L, hL⟩ : ∃ L, d.byte * 2 ^ 40 + a.byte * 2 ^ 32 + b.byte * 2 ^ 24 + 0 * 2 ^ 16 + k.code = L := ⟨_, rfl⟩
  obtain ⟨g0, g1, g2, g3, g4, l16, l24, l32, l40⟩ := fieldsR (by omega) (by omega) (by omega) (by omega) (by omega) hL
  refine Eq.trans (b := decodeAlu 113 0 h L) (by subst hL; exact decodeWord_alu quay (by decide) (by decide) g0) ?_
  have f2_0 : fb L 2 0 = k.code := (l16 2 0 (by decide)).trans (by unfold fb; omega)
  have f23_3 : fb L 23 3 = 0 := (l24 23 3 (by decide)).trans (by unfold fb; omega)
  show fin (do let k ← voteC (fb L 2 0); let d ← oN k.regs (fb L 47 40); let a ← o32 (fb L 39 32); let b ← oP (fb L 31 24); pure (.vote h d a b k)) ((fb L 23 3)) = _
  simp only [f2_0, g1, g2, g3, f23_3, voteC_code, oN_byte, o32_byte, oP_byte, hw, ok_bind]
  rfl
theorem redux (h : Gd) (d a b : Opnd) (op : RedOp) : Statement (.redux h d a b op) := by
  intro hw quay hq w hE; obtain rfl := Option.some.inj hE
  have hw : (b.spanOk 2) = true := hw
  have k0 := d.byte_lt; have k1 := a.byte_lt; have k2 := b.byte_lt; have k3 := op.code_lt
  obtain ⟨L, hL⟩ : ∃ L, d.byte * 2 ^ 40 + a.byte * 2 ^ 32 + b.byte * 2 ^ 24 + 0 * 2 ^ 16 + op.code = L := ⟨_, rfl⟩
  obtain ⟨g0, g1, g2, g3, g4, l16, l24, l32, l40⟩ := fieldsR (by omega) (by omega) (by omega) (by omega) (by omega) hL
  refine Eq.trans (b := decodeAlu 114 0 h L) (by subst hL; exact decodeWord_alu quay (by decide) (by decide) g0) ?_
  have f2_0 : fb L 2 0 = op.code := (l16 2 0 (by decide)).trans (by unfold fb; omega)
  have f23_3 : fb L 23 3 = 0 := (l24 23 3 (by decide)).trans (by unfold fb; omega)
  show fin (do let d ← o32 (fb L 47 40); let a ← o32 (fb L 39 32); let b ← oP (fb L 31 24); let op ← redC (fb L 2 0); pure (.redux h d a b op)) ((fb L 23 3)) = _
  simp only [g1, g2, g3, f2_0, f23_3, o32_byte, oP_byte, redC_code, hw, ok_bind]
  rfl
theorem elect (h : Gd) (d b : Opnd) : Statement (.elect h d b) := by
  intro hw quay hq w hE; obtain rfl := Option.some.inj hE
  have hw : (b.spanOk 2) = true := hw
  have k0 := d.byte_lt; have k1 := b.byte_lt
  obtain ⟨L, hL⟩ : ∃ L, d.byte * 2 ^ 40 + 0 * 2 ^ 32 + b.byte * 2 ^ 24 + 0 * 2 ^ 16 + 0 = L := ⟨_, rfl⟩
  obtain ⟨g0, g1, g2, g3, g4, l16, l24, l32, l40⟩ := fieldsR (by omega) (by omega) (by omega) (by omega) (by omega) hL
  refine Eq.trans (b := decodeAlu 115 0 h L) (by subst hL; exact decodeWord_alu quay (by decide) (by decide) g0) ?_
  have f23_0 : fb L 23 0 = 0 := (l24 23 0 (by decide)).trans (by unfold fb; omega)
  show fin (do let d ← o32 (fb L 47 40); let b ← oP (fb L 31 24); pure (.elect h d b)) ((fb L 23 0) + (fb L 39 32)) = _
  simp only [g1, g3, f23_0, g2, o32_byte, oP_byte, hw, ok_bind]
  rfl
theorem matchL (h : Gd) (d a b : Opnd) (w64 : Bool) : Statement (.matchL h d a b w64) := by
  intro hw quay hq w hE; obtain rfl := Option.some.inj hE
  have hw : (d.spanOk 2 && a.spanOk (if w64 then 2 else 1) && b.spanOk 2) = true := hw
  simp only [Bool.and_eq_true, Bool.or_eq_true, Bool.not_eq_true', decide_eq_true_eq, bne_iff_ne, beq_iff_eq, ne_eq] at hw
  have k0 := d.byte_lt; have k1 := a.byte_lt; have k2 := b.byte_lt; have k3 := bn_lt w64
  obtain ⟨L, hL⟩ : ∃ L, d.byte * 2 ^ 40 + a.byte * 2 ^ 32 + b.byte * 2 ^ 24 + 0 * 2 ^ 16 + (bn w64) = L := ⟨_, rfl⟩
  obtain ⟨g0, g1, g2, g3, g4, l16, l24, l32, l40⟩ := fieldsR (by omega) (by omega) (by omega) (by omega) (by omega) hL
  refine Eq.trans (b := decodeAlu 116 0 h L) (by subst hL; exact decodeWord_alu quay (by decide) (by decide) g0) ?_
  have f0_0 : fb L 0 0 = bn w64 := (l16 0 0 (by decide)).trans (by unfold fb; omega)
  have f23_1 : fb L 23 1 = 0 := (l24 23 1 (by decide)).trans (by unfold fb; omega)
  show fin (do let w64 ← bool (fb L 0 0); let d ← oP (fb L 47 40); let a ← oN1or2 w64 (fb L 39 32); let b ← oP (fb L 31 24); pure (.matchL h d a b w64)) ((fb L 23 1)) = _
  simp only [f0_0, g1, g2, g3, f23_1, bool_bn, oP_byte, oN1or2_byte, hw, ok_bind]
  rfl
theorem scan (h : Gd) (d a b : Opnd) (op : RedOp) (excl : Bool) : Statement (.scan h d a b op excl) := by
  intro hw quay hq w hE; obtain rfl := Option.some.inj hE
  have hw : (b.spanOk 2) = true := hw
  have k0 := d.byte_lt; have k1 := a.byte_lt; have k2 := b.byte_lt; have k3 := op.code_lt; have k4 := bn_lt excl
  obtain ⟨L, hL⟩ : ∃ L, d.byte * 2 ^ 40 + a.byte * 2 ^ 32 + b.byte * 2 ^ 24 + 0 * 2 ^ 16 + (op.code + bn excl * 8) = L := ⟨_, rfl⟩
  obtain ⟨g0, g1, g2, g3, g4, l16, l24, l32, l40⟩ := fieldsR (by omega) (by omega) (by omega) (by omega) (by omega) hL
  refine Eq.trans (b := decodeAlu 117 0 h L) (by subst hL; exact decodeWord_alu quay (by decide) (by decide) g0) ?_
  have f2_0 : fb L 2 0 = op.code := (l16 2 0 (by decide)).trans (by unfold fb; omega)
  have f3_3 : fb L 3 3 = bn excl := (l16 3 3 (by decide)).trans (by unfold fb; omega)
  have f23_4 : fb L 23 4 = 0 := (l24 23 4 (by decide)).trans (by unfold fb; omega)
  show fin (do let d ← o32 (fb L 47 40); let a ← o32 (fb L 39 32); let b ← oP (fb L 31 24); let op ← redC (fb L 2 0); let excl ← bool (fb L 3 3); pure (.scan h d a b op excl)) ((fb L 23 4)) = _
  simp only [g1, g2, g3, f2_0, f3_3, f23_4, o32_byte, oP_byte, redC_code, bool_bn, hw, ok_bind]
  rfl
theorem rdfirst (h : Gd) (d a b : Opnd) (w64 : Bool) : Statement (.rdfirst h d a b w64) := by
  intro hw quay hq w hE; obtain rfl := Option.some.inj hE
  have hw : (let n := if w64 then 2 else 1; d.spanOk n && a.spanOk n && b.spanOk 2) = true := hw
  simp only [Bool.and_eq_true, Bool.or_eq_true, Bool.not_eq_true', decide_eq_true_eq, bne_iff_ne, beq_iff_eq, ne_eq] at hw
  have k0 := d.byte_lt; have k1 := a.byte_lt; have k2 := b.byte_lt; have k3 := bn_lt w64
  obtain ⟨L, hL⟩ : ∃ L, d.byte * 2 ^ 40 + a.byte * 2 ^ 32 + b.byte * 2 ^ 24 + 0 * 2 ^ 16 + (bn w64) = L := ⟨_, rfl⟩
  obtain ⟨g0, g1, g2, g3, g4, l16, l24, l32, l40⟩ := fieldsR (by omega) (by omega) (by omega) (by omega) (by omega) hL
  refine Eq.trans (b := decodeAlu 118 0 h L) (by subst hL; exact decodeWord_alu quay (by decide) (by decide) g0) ?_
  have f0_0 : fb L 0 0 = bn w64 := (l16 0 0 (by decide)).trans (by unfold fb; omega)
  have f23_1 : fb L 23 1 = 0 := (l24 23 1 (by decide)).trans (by unfold fb; omega)
  show fin (do let w64 ← bool (fb L 0 0); let d ← oN1or2 w64 (fb L 47 40); let a ← oN1or2 w64 (fb L 39 32); let b ← oP (fb L 31 24); pure (.rdfirst h d a b w64)) ((fb L 23 1)) = _
  simp only [f0_0, g1, g2, g3, f23_1, bool_bn, oN1or2_byte, oP_byte, hw, ok_bind]
  rfl
theorem crossLaneCompletion (ts : List Nat) : Statement (.crossLaneCompletion ts) := fun _ _ _ _ h => (Option.some_ne_none _ h.symm).elim
theorem ld (h : Gd) (d : Opnd) (m : MemArg) (sz : Size) (sx acq prom : Bool) : Statement (.ld h d m sz sx acq prom) := by
  intro hw quay hq w hE; obtain rfl := Option.some.inj hE
  have hw : (d.spanOk sz.regs && m.a.spanOk 2 && (!sx || decide (sz.bytes < 4)) && (!prom || (acq && decide (2 ≤ m.scope.code)))) = true := hw
  simp only [Bool.and_eq_true, Bool.or_eq_true, Bool.not_eq_true', decide_eq_true_eq, bne_iff_ne, beq_iff_eq, ne_eq] at hw
  have k0 := d.byte_lt; have k1 := m.a.byte_lt; have k2 := sz.code_lt; have k3 := m.scope.code_lt; have k4 := m.stream.isLt; have k5 := m.ofs.isLt; have k6 := bn_lt sx; have k7 := bn_lt acq; have k8 := bn_lt prom
  obtain ⟨L, hL⟩ : ∃ L, d.byte * 2 ^ 40 + m.a.byte * 2 ^ 32 + (sz.code * 2097152 + (m.stream.val * 2 ^ 28 + m.scope.code * 2 ^ 26 + m.ofs.toNat) + bn sx * 524288 + bn acq * 16777216 + bn prom * 1048576) = L := ⟨_, rfl⟩
  obtain ⟨g0, g1, g2, l32, l40⟩ := fieldsI (by omega) (by omega) (by omega) hL
  refine Eq.trans (b := decodeMem 0 2 h L) (by subst hL; exact decodeWord_mem quay (by decide) (by decide) g0) ?_
  have f23_21 : fb L 23 21 = sz.code := (l32 23 21 (by decide)).trans (by unfold fb; omega)
  have f18_0 : fb L 18 0 = m.ofs.toNat := (l32 18 0 (by decide)).trans (by unfold fb; omega)
  have f31_28 : fb L 31 28 = m.stream.val := (l32 31 28 (by decide)).trans (by unfold fb; omega)
  have f27_26 : fb L 27 26 = m.scope.code := (l32 27 26 (by decide)).trans (by unfold fb; omega)
  have f25_24 : fb L 25 24 = bn acq := (l32 25 24 (by decide)).trans (by unfold fb; omega)
  have f19_19 : fb L 19 19 = bn sx := (l32 19 19 (by decide)).trans (by unfold fb; omega)
  have f20_20 : fb L 20 20 = bn prom := (l32 20 20 (by decide)).trans (by unfold fb; omega)
  show fin (do let sz ← sizeC (fb L 23 21); let m ← memP L; let acq ← ldOrd (fb L 25 24); let d ← oN sz.regs (fb L 47 40); let sx ← sxC sz (fb L 19 19); let prom ← promC acq m (fb L 20 20); pure (.ld h d m sz sx acq prom)) (0) = _
  simp only [f23_21, g2, f18_0, f31_28, f27_26, f25_24, g1, f19_19, f20_20, sizeC_code, memP_code (by simp only [hw]) g2 f18_0 f31_28 f27_26, ldOrd_bn, oN_byte, sxC_bn, promC_bn, hw, ok_bind]
  rfl
theorem st (h : Gd) (d : Opnd) (m : MemArg) (sz : Size) (rel : Bool) : Statement (.st h d m sz rel) := by
  intro hw quay hq w hE; obtain rfl := Option.some.inj hE
  have hw : (d.spanOk sz.regs && m.a.spanOk 2) = true := hw
  simp only [Bool.and_eq_true, Bool.or_eq_true, Bool.not_eq_true', decide_eq_true_eq, bne_iff_ne, beq_iff_eq, ne_eq] at hw
  have k0 := d.byte_lt; have k1 := m.a.byte_lt; have k2 := sz.code_lt; have k3 := m.scope.code_lt; have k4 := m.stream.isLt; have k5 := m.ofs.isLt; have k6 := bn_lt rel
  obtain ⟨L, hL⟩ : ∃ L, d.byte * 2 ^ 40 + m.a.byte * 2 ^ 32 + (sz.code * 2097152 + (m.stream.val * 2 ^ 28 + m.scope.code * 2 ^ 26 + m.ofs.toNat) + (2 * bn rel) * 16777216) = L := ⟨_, rfl⟩
  obtain ⟨g0, g1, g2, l32, l40⟩ := fieldsI (by omega) (by omega) (by omega) hL
  refine Eq.trans (b := decodeMem 1 2 h L) (by subst hL; exact decodeWord_mem quay (by decide) (by decide) g0) ?_
  have f23_21 : fb L 23 21 = sz.code := (l32 23 21 (by decide)).trans (by unfold fb; omega)
  have f18_0 : fb L 18 0 = m.ofs.toNat := (l32 18 0 (by decide)).trans (by unfold fb; omega)
  have f31_28 : fb L 31 28 = m.stream.val := (l32 31 28 (by decide)).trans (by unfold fb; omega)
  have f27_26 : fb L 27 26 = m.scope.code := (l32 27 26 (by decide)).trans (by unfold fb; omega)
  have f25_24 : fb L 25 24 = 2 * bn rel := (l32 25 24 (by decide)).trans (by unfold fb; omega)
  have f20_19 : fb L 20 19 = 0 := (l32 20 19 (by decide)).trans (by unfold fb; omega)
  show fin (do let sz ← sizeC (fb L 23 21); let d ← oN sz.regs (fb L 47 40); let m ← memP L; let rel ← stOrd (fb L 25 24); pure (.st h d m sz rel)) ((fb L 20 19)) = _
  simp only [f23_21, g1, g2, f18_0, f31_28, f27_26, f25_24, f20_19, sizeC_code, oN_byte, memP_code (by simp only [hw]) g2 f18_0 f31_28 f27_26, stOrd_bn, hw, ok_bind]
  rfl
theorem ldv (h : Gd) (d : Opnd) (m : MemArg) (sz : Size) (sx acq cr : Bool) : Statement (.ldv h d m sz sx acq cr) := by
  intro hw quay hq w hE; obtain rfl := Option.some.inj hE
  have hw : (d.spanOk sz.regs && (!sx || decide (sz.bytes < 4))) = true := hw
  simp only [Bool.and_eq_true, Bool.or_eq_true, Bool.not_eq_true', decide_eq_true_eq, bne_iff_ne, beq_iff_eq, ne_eq] at hw
  have k0 := d.byte_lt; have k1 := m.a.byte_lt; have k2 := sz.code_lt; have k3 := m.scope.code_lt; have k4 := m.stream.isLt; have k5 := m.ofs.isLt; have k6 := bn_lt sx; have k7 := bn_lt acq; have k8 := bn_lt cr
  obtain ⟨L, hL⟩ : ∃ L, d.byte * 2 ^ 40 + m.a.byte * 2 ^ 32 + (sz.code * 2097152 + (m.stream.val * 2 ^ 28 + m.scope.code * 2 ^ 26 + m.ofs.toNat) + bn sx * 524288 + bn acq * 16777216 + bn cr * 1048576) = L := ⟨_, rfl⟩
  obtain ⟨g0, g1, g2, l32, l40⟩ := fieldsI (by omega) (by omega) (by omega) hL
  refine Eq.trans (b := decodeMem 2 2 h L) (by subst hL; exact decodeWord_mem quay (by decide) (by decide) g0) ?_
  have f23_21 : fb L 23 21 = sz.code := (l32 23 21 (by decide)).trans (by unfold fb; omega)
  have f18_0 : fb L 18 0 = m.ofs.toNat := (l32 18 0 (by decide)).trans (by unfold fb; omega)
  have f31_28 : fb L 31 28 = m.stream.val := (l32 31 28 (by decide)).trans (by unfold fb; omega)
  have f27_26 : fb L 27 26 = m.scope.code := (l32 27 26 (by decide)).trans (by unfold fb; omega)
  have f19_19 : fb L 19 19 = bn sx := (l32 19 19 (by decide)).trans (by unfold fb; omega)
  have f25_24 : fb L 25 24 = bn acq := (l32 25 24 (by decide)).trans (by unfold fb; omega)
  have f20_20 : fb L 20 20 = bn cr := (l32 20 20 (by decide)).trans (by unfold fb; omega)
  show fin (do let sz ← sizeC (fb L 23 21); let d ← oN sz.regs (fb L 47 40); let m ← memV L; let sx ← sxC sz (fb L 19 19); let acq ← ldOrd (fb L 25 24); let cr ← bool (fb L 20 20); pure (.ldv h d m sz sx acq cr)) (0) = _
  simp only [f23_21, g1, g2, f18_0, f31_28, f27_26, f19_19, f25_24, f20_20, sizeC_code, oN_byte, memV_code g2 f18_0 f31_28 f27_26, sxC_bn, ldOrd_bn, bool_bn, hw, ok_bind]
  rfl
theorem stv (h : Gd) (d : Opnd) (m : MemArg) (sz : Size) (rel cr : Bool) : Statement (.stv h d m sz rel cr) := by
  intro hw quay hq w hE; obtain rfl := Option.some.inj hE
  have hw : (d.spanOk sz.regs) = true := hw
  have k0 := d.byte_lt; have k1 := m.a.byte_lt; have k2 := sz.code_lt; have k3 := m.scope.code_lt; have k4 := m.stream.isLt; have k5 := m.ofs.isLt; have k6 := bn_lt rel; have k7 := bn_lt cr
  obtain ⟨L, hL⟩ : ∃ L, d.byte * 2 ^ 40 + m.a.byte * 2 ^ 32 + (sz.code * 2097152 + (m.stream.val * 2 ^ 28 + m.scope.code * 2 ^ 26 + m.ofs.toNat) + (2 * bn rel) * 16777216 + bn cr * 1048576) = L := ⟨_, rfl⟩
  obtain ⟨g0, g1, g2, l32, l40⟩ := fieldsI (by omega) (by omega) (by omega) hL
  refine Eq.trans (b := decodeMem 3 2 h L) (by subst hL; exact decodeWord_mem quay (by decide) (by decide) g0) ?_
  have f23_21 : fb L 23 21 = sz.code := (l32 23 21 (by decide)).trans (by unfold fb; omega)
  have f18_0 : fb L 18 0 = m.ofs.toNat := (l32 18 0 (by decide)).trans (by unfold fb; omega)
  have f31_28 : fb L 31 28 = m.stream.val := (l32 31 28 (by decide)).trans (by unfold fb; omega)
  have f27_26 : fb L 27 26 = m.scope.code := (l32 27 26 (by decide)).trans (by unfold fb; omega)
  have f25_24 : fb L 25 24 = 2 * bn rel := (l32 25 24 (by decide)).trans (by unfold fb; omega)
  have f20_20 : fb L 20 20 = bn cr := (l32 20 20 (by decide)).trans (by unfold fb; omega)
  have f19_19 : fb L 19 19 = 0 := (l32 19 19 (by decide)).trans (by unfold fb; omega)
  show fin (do let sz ← sizeC (fb L 23 21); let d ← oN sz.regs (fb L 47 40); let m ← memV L; let rel ← stOrd (fb L 25 24); let cr ← bool (fb L 20 20); pure (.stv h d m sz rel cr)) ((fb L 19 19)) = _
  simp only [f23_21, g1, g2, f18_0, f31_28, f27_26, f25_24, f20_20, f19_19, sizeC_code, oN_byte, memV_code g2 f18_0 f31_28 f27_26, stOrd_bn, bool_bn, hw, ok_bind]
  rfl
theorem ldt (h : Gd) (d : Opnd) (m : MemArg) (sz : Size) (take acq cr : Bool) : Statement (.ldt h d m sz take acq cr) := by
  intro hw quay hq w hE; obtain rfl := Option.some.inj hE
  have hw : (d.spanOk sz.regs && decide (4 ≤ sz.bytes)) = true := hw
  simp only [Bool.and_eq_true, Bool.or_eq_true, Bool.not_eq_true', decide_eq_true_eq, bne_iff_ne, beq_iff_eq, ne_eq] at hw
  have k0 := d.byte_lt; have k1 := m.a.byte_lt; have k2 := sz.code_lt; have k3 := m.scope.code_lt; have k4 := m.stream.isLt; have k5 := m.ofs.isLt; have k6 := bn_lt take; have k7 := bn_lt acq; have k8 := bn_lt cr
  obtain ⟨L, hL⟩ : ∃ L, d.byte * 2 ^ 40 + m.a.byte * 2 ^ 32 + (sz.code * 2097152 + (m.stream.val * 2 ^ 28 + m.scope.code * 2 ^ 26 + m.ofs.toNat) + bn take * 524288 + bn acq * 16777216 + bn cr * 1048576) = L := ⟨_, rfl⟩
  obtain ⟨g0, g1, g2, l32, l40⟩ := fieldsI (by omega) (by omega) (by omega) hL
  refine Eq.trans (b := decodeMem 4 2 h L) (by subst hL; exact decodeWord_mem quay (by decide) (by decide) g0) ?_
  have f23_21 : fb L 23 21 = sz.code := (l32 23 21 (by decide)).trans (by unfold fb; omega)
  have f18_0 : fb L 18 0 = m.ofs.toNat := (l32 18 0 (by decide)).trans (by unfold fb; omega)
  have f31_28 : fb L 31 28 = m.stream.val := (l32 31 28 (by decide)).trans (by unfold fb; omega)
  have f27_26 : fb L 27 26 = m.scope.code := (l32 27 26 (by decide)).trans (by unfold fb; omega)
  have f19_19 : fb L 19 19 = bn take := (l32 19 19 (by decide)).trans (by unfold fb; omega)
  have f25_24 : fb L 25 24 = bn acq := (l32 25 24 (by decide)).trans (by unfold fb; omega)
  have f20_20 : fb L 20 20 = bn cr := (l32 20 20 (by decide)).trans (by unfold fb; omega)
  show fin (do let sz ← tagSizeC (fb L 23 21); let d ← oN sz.regs (fb L 47 40); let m ← memV L; let take ← bool (fb L 19 19); let acq ← ldOrd (fb L 25 24); let cr ← bool (fb L 20 20); pure (.ldt h d m sz take acq cr)) (0) = _
  simp only [f23_21, g1, g2, f18_0, f31_28, f27_26, f19_19, f25_24, f20_20, tagSizeC_code, oN_byte, memV_code g2 f18_0 f31_28 f27_26, bool_bn, ldOrd_bn, hw, ok_bind]
  rfl
theorem stt (h : Gd) (d : Opnd) (m : MemArg) (sz : Size) (rel cr : Bool) : Statement (.stt h d m sz rel cr) := by
  intro hw quay hq w hE; obtain rfl := Option.some.inj hE
  have hw : (d.spanOk sz.regs && decide (4 ≤ sz.bytes)) = true := hw
  simp only [Bool.and_eq_true, Bool.or_eq_true, Bool.not_eq_true', decide_eq_true_eq, bne_iff_ne, beq_iff_eq, ne_eq] at hw
  have k0 := d.byte_lt; have k1 := m.a.byte_lt; have k2 := sz.code_lt; have k3 := m.scope.code_lt; have k4 := m.stream.isLt; have k5 := m.ofs.isLt; have k6 := bn_lt rel; have k7 := bn_lt cr
  obtain ⟨L, hL⟩ : ∃ L, d.byte * 2 ^ 40 + m.a.byte * 2 ^ 32 + (sz.code * 2097152 + (m.stream.val * 2 ^ 28 + m.scope.code * 2 ^ 26 + m.ofs.toNat) + (2 * bn rel) * 16777216 + bn cr * 1048576) = L := ⟨_, rfl⟩
  obtain ⟨g0, g1, g2, l32, l40⟩ := fieldsI (by omega) (by omega) (by omega) hL
  refine Eq.trans (b := decodeMem 5 2 h L) (by subst hL; exact decodeWord_mem quay (by decide) (by decide) g0) ?_
  have f23_21 : fb L 23 21 = sz.code := (l32 23 21 (by decide)).trans (by unfold fb; omega)
  have f18_0 : fb L 18 0 = m.ofs.toNat := (l32 18 0 (by decide)).trans (by unfold fb; omega)
  have f31_28 : fb L 31 28 = m.stream.val := (l32 31 28 (by decide)).trans (by unfold fb; omega)
  have f27_26 : fb L 27 26 = m.scope.code := (l32 27 26 (by decide)).trans (by unfold fb; omega)
  have f25_24 : fb L 25 24 = 2 * bn rel := (l32 25 24 (by decide)).trans (by unfold fb; omega)
  have f20_20 : fb L 20 20 = bn cr := (l32 20 20 (by decide)).trans (by unfold fb; omega)
  have f19_19 : fb L 19 19 = 0 := (l32 19 19 (by decide)).trans (by unfold fb; omega)
  show fin (do let sz ← tagSizeC (fb L 23 21); let d ← oN sz.regs (fb L 47 40); let m ← memV L; let rel ← stOrd (fb L 25 24); let cr ← bool (fb L 20 20); pure (.stt h d m sz rel cr)) ((fb L 19 19)) = _
  simp only [f23_21, g1, g2, f18_0, f31_28, f27_26, f25_24, f20_20, f19_19, tagSizeC_code, oN_byte, memV_code g2 f18_0 f31_28 f27_26, stOrd_bn, bool_bn, hw, ok_bind]
  rfl
theorem tagopEmpty (h : Gd) (m : MemArg) (sz : Size) (rel cr : Bool) : Statement (.tagopEmpty h m sz rel cr) := by
  intro hw quay hq w hE; obtain rfl := Option.some.inj hE
  have hw : (decide (4 ≤ sz.bytes)) = true := hw
  simp only [Bool.and_eq_true, Bool.or_eq_true, Bool.not_eq_true', decide_eq_true_eq, bne_iff_ne, beq_iff_eq, ne_eq] at hw
  have k0 := m.a.byte_lt; have k1 := sz.code_lt; have k2 := m.scope.code_lt; have k3 := m.stream.isLt; have k4 := m.ofs.isLt; have k5 := bn_lt rel; have k6 := bn_lt cr
  obtain ⟨L, hL⟩ : ∃ L, 255 * 2 ^ 40 + m.a.byte * 2 ^ 32 + (sz.code * 2097152 + (m.stream.val * 2 ^ 28 + m.scope.code * 2 ^ 26 + m.ofs.toNat) + (2 * bn rel) * 16777216 + bn cr * 1048576) = L := ⟨_, rfl⟩
  obtain ⟨g0, g1, g2, l32, l40⟩ := fieldsI (by omega) (by omega) (by omega) hL
  refine Eq.trans (b := decodeMem 6 2 h L) (by subst hL; exact decodeWord_mem quay (by decide) (by decide) g0) ?_
  have f23_21 : fb L 23 21 = sz.code := (l32 23 21 (by decide)).trans (by unfold fb; omega)
  have f18_0 : fb L 18 0 = m.ofs.toNat := (l32 18 0 (by decide)).trans (by unfold fb; omega)
  have f31_28 : fb L 31 28 = m.stream.val := (l32 31 28 (by decide)).trans (by unfold fb; omega)
  have f27_26 : fb L 27 26 = m.scope.code := (l32 27 26 (by decide)).trans (by unfold fb; omega)
  have f25_24 : fb L 25 24 = 2 * bn rel := (l32 25 24 (by decide)).trans (by unfold fb; omega)
  have f20_20 : fb L 20 20 = bn cr := (l32 20 20 (by decide)).trans (by unfold fb; omega)
  have s19_19 : fb L 19 19 = 0 := (l32 19 19 (by decide)).trans (by unfold fb; omega)
  refine Eq.trans (b := fin (do let _ ← zOnly (fb L 47 40); let sz ← tagSizeC (fb L 23 21); let m ← memV L; let rel ← stOrd (fb L 25 24); let cr ← bool (fb L 20 20); pure (.tagopEmpty h m sz rel cr)) (0)) ?_ ?_
  · unfold decodeMem; simp only [s19_19]; rfl
  · simp only [g1, f23_21, g2, f18_0, f31_28, f27_26, f25_24, f20_20, zOnly_z, tagSizeC_code, memV_code g2 f18_0 f31_28 f27_26, stOrd_bn, bool_bn, hw, ok_bind]
    rfl
theorem tagopFull (h : Gd) (m : MemArg) (sz : Size) (rel cr : Bool) : Statement (.tagopFull h m sz rel cr) := by
  intro hw quay hq w hE; obtain rfl := Option.some.inj hE
  have hw : (decide (4 ≤ sz.bytes)) = true := hw
  simp only [Bool.and_eq_true, Bool.or_eq_true, Bool.not_eq_true', decide_eq_true_eq, bne_iff_ne, beq_iff_eq, ne_eq] at hw
  have k0 := m.a.byte_lt; have k1 := sz.code_lt; have k2 := m.scope.code_lt; have k3 := m.stream.isLt; have k4 := m.ofs.isLt; have k5 := bn_lt rel; have k6 := bn_lt cr
  obtain ⟨L, hL⟩ : ∃ L, 255 * 2 ^ 40 + m.a.byte * 2 ^ 32 + (sz.code * 2097152 + (m.stream.val * 2 ^ 28 + m.scope.code * 2 ^ 26 + m.ofs.toNat) + (2 * bn rel) * 16777216 + bn cr * 1048576 + 524288) = L := ⟨_, rfl⟩
  obtain ⟨g0, g1, g2, l32, l40⟩ := fieldsI (by omega) (by omega) (by omega) hL
  refine Eq.trans (b := decodeMem 6 2 h L) (by subst hL; exact decodeWord_mem quay (by decide) (by decide) g0) ?_
  have f23_21 : fb L 23 21 = sz.code := (l32 23 21 (by decide)).trans (by unfold fb; omega)
  have f18_0 : fb L 18 0 = m.ofs.toNat := (l32 18 0 (by decide)).trans (by unfold fb; omega)
  have f31_28 : fb L 31 28 = m.stream.val := (l32 31 28 (by decide)).trans (by unfold fb; omega)
  have f27_26 : fb L 27 26 = m.scope.code := (l32 27 26 (by decide)).trans (by unfold fb; omega)
  have f25_24 : fb L 25 24 = 2 * bn rel := (l32 25 24 (by decide)).trans (by unfold fb; omega)
  have f20_20 : fb L 20 20 = bn cr := (l32 20 20 (by decide)).trans (by unfold fb; omega)
  have s19_19 : fb L 19 19 = 1 := (l32 19 19 (by decide)).trans (by unfold fb; omega)
  refine Eq.trans (b := fin (do let _ ← zOnly (fb L 47 40); let sz ← tagSizeC (fb L 23 21); let m ← memV L; let rel ← stOrd (fb L 25 24); let cr ← bool (fb L 20 20); pure (.tagopFull h m sz rel cr)) (0)) ?_ ?_
  · unfold decodeMem; simp only [s19_19]; rfl
  · simp only [g1, f23_21, g2, f18_0, f31_28, f27_26, f25_24, f20_20, zOnly_z, tagSizeC_code, memV_code g2 f18_0 f31_28 f27_26, stOrd_bn, bool_bn, hw, ok_bind]
    rfl
theorem atom (h : Gd) (x : AtomArg) : Statement (.atom h x) := by
  intro hw quay hq w hE; obtain rfl := Option.some.inj hE
  have hw : (x.wf true) = true := hw
  have k0 := x.d.byte_lt; have k1 := x.a.byte_lt; have k2 := x.b.byte_lt; have k3 := x.op.cByte_lt; have k4 := x.scope.code_lt; have k5 := x.ord.code_lt; have k6 := x.op.code_lt; have k7 := x.stream.isLt; have k8 := bn_lt x.b64
  obtain ⟨L, hL⟩ : ∃ L, x.d.byte * 2 ^ 40 + x.a.byte * 2 ^ 32 + x.b.byte * 2 ^ 24 + x.op.cByte * 2 ^ 16 + ((x.stream.val * 2 ^ 12 + x.scope.code * 2 ^ 10 + x.ord.code * 2 ^ 8 + x.op.code * 2 ^ 4 + (2 + bn x.b64) * 2)) = L := ⟨_, rfl⟩
  obtain ⟨g0, g1, g2, g3, g4, l16, l24, l32, l40⟩ := fieldsR (by omega) (by omega) (by omega) (by omega) (by omega) hL
  refine Eq.trans (b := decodeMem 8 0 h L) (by subst hL; exact decodeWord_mem quay (by decide) (by decide) g0) ?_
  have f3_1 : fb L 3 1 = 2 + bn x.b64 := (l16 3 1 (by decide)).trans (by unfold fb; omega)
  have f7_4 : fb L 7 4 = x.op.code := (l16 7 4 (by decide)).trans (by unfold fb; omega)
  have f15_12 : fb L 15 12 = x.stream.val := (l16 15 12 (by decide)).trans (by unfold fb; omega)
  have f11_10 : fb L 11 10 = x.scope.code := (l16 11 10 (by decide)).trans (by unfold fb; omega)
  have f9_8 : fb L 9 8 = x.ord.code := (l16 9 8 (by decide)).trans (by unfold fb; omega)
  have f0_0 : fb L 0 0 = 0 := (l16 0 0 (by decide)).trans (by unfold fb; omega)
  have fu : (if x.op.code = 9 then 0 else x.op.cByte) = 0 := by cases x.op <;> rfl
  show fin (do let x ← atomA true L; pure (.atom h x)) (fb L 0 0 + (if fb L 7 4 = 9 then 0 else fb L 23 16)) = _
  simp only [g1, g2, g3, g4, f3_1, f7_4, f15_12, f11_10, f9_8, f0_0, fu, atomA_code hw g1 g2 g3 g4 f3_1 f7_4 f15_12 f11_10 f9_8, ok_bind]
  rfl
theorem atomv (h : Gd) (x : AtomArg) (cr : Bool) : Statement (.atomv h x cr) := by
  intro hw quay hq w hE; obtain rfl := Option.some.inj hE
  have hw : (x.wf false) = true := hw
  have k0 := x.d.byte_lt; have k1 := x.a.byte_lt; have k2 := x.b.byte_lt; have k3 := x.op.cByte_lt; have k4 := x.scope.code_lt; have k5 := x.ord.code_lt; have k6 := x.op.code_lt; have k7 := x.stream.isLt; have k8 := bn_lt x.b64; have k9 := bn_lt cr
  obtain ⟨L, hL⟩ : ∃ L, x.d.byte * 2 ^ 40 + x.a.byte * 2 ^ 32 + x.b.byte * 2 ^ 24 + x.op.cByte * 2 ^ 16 + ((x.stream.val * 2 ^ 12 + x.scope.code * 2 ^ 10 + x.ord.code * 2 ^ 8 + x.op.code * 2 ^ 4 + (2 + bn x.b64) * 2) + bn cr) = L := ⟨_, rfl⟩
  obtain ⟨g0, g1, g2, g3, g4, l16, l24, l32, l40⟩ := fieldsR (by omega) (by omega) (by omega) (by omega) (by omega) hL
  refine Eq.trans (b := decodeMem 9 0 h L) (by subst hL; exact decodeWord_mem quay (by decide) (by decide) g0) ?_
  have f3_1 : fb L 3 1 = 2 + bn x.b64 := (l16 3 1 (by decide)).trans (by unfold fb; omega)
  have f7_4 : fb L 7 4 = x.op.code := (l16 7 4 (by decide)).trans (by unfold fb; omega)
  have f15_12 : fb L 15 12 = x.stream.val := (l16 15 12 (by decide)).trans (by unfold fb; omega)
  have f11_10 : fb L 11 10 = x.scope.code := (l16 11 10 (by decide)).trans (by unfold fb; omega)
  have f9_8 : fb L 9 8 = x.ord.code := (l16 9 8 (by decide)).trans (by unfold fb; omega)
  have f0_0 : fb L 0 0 = bn cr := (l16 0 0 (by decide)).trans (by unfold fb; omega)
  have fu : (if x.op.code = 9 then 0 else x.op.cByte) = 0 := by cases x.op <;> rfl
  show fin (do let x ← atomA false L; let cr ← bool (fb L 0 0); pure (.atomv h x cr)) (if fb L 7 4 = 9 then 0 else fb L 23 16) = _
  simp only [g1, g2, g3, g4, f3_1, f7_4, f15_12, f11_10, f9_8, f0_0, fu, atomA_code hw g1 g2 g3 g4 f3_1 f7_4 f15_12 f11_10 f9_8, bool_bn, ok_bind]
  rfl
theorem lds (h : Gd) (d : Opnd) (m : MemArg) (sz : Size) (sx : Bool) : Statement (.lds h d m sz sx) := by
  intro hw quay hq w hE; obtain rfl := Option.some.inj hE
  have hw : (d.spanOk sz.regs && m.a.spanOk 2 && m.scope == .core && (!sx || decide (sz.bytes < 4))) = true := hw
  simp only [Bool.and_eq_true, Bool.or_eq_true, Bool.not_eq_true', decide_eq_true_eq, bne_iff_ne, beq_iff_eq, ne_eq] at hw
  have hs : m.scope.code = 0 := by simp only [hw]; rfl
  have k0 := d.byte_lt; have k1 := m.a.byte_lt; have k2 := sz.code_lt; have k3 := m.scope.code_lt; have k4 := m.stream.isLt; have k5 := m.ofs.isLt; have k6 := bn_lt sx
  obtain ⟨L, hL⟩ : ∃ L, d.byte * 2 ^ 40 + m.a.byte * 2 ^ 32 + (sz.code * 2097152 + (m.stream.val * 2 ^ 28 + m.scope.code * 2 ^ 26 + m.ofs.toNat) + bn sx * 524288) = L := ⟨_, rfl⟩
  obtain ⟨g0, g1, g2, l32, l40⟩ := fieldsI (by omega) (by omega) (by omega) hL
  refine Eq.trans (b := decodeMem 16 2 h L) (by subst hL; exact decodeWord_mem quay (by decide) (by decide) g0) ?_
  have f23_21 : fb L 23 21 = sz.code := (l32 23 21 (by decide)).trans (by unfold fb; omega)
  have f18_0 : fb L 18 0 = m.ofs.toNat := (l32 18 0 (by decide)).trans (by unfold fb; omega)
  have f31_28 : fb L 31 28 = m.stream.val := (l32 31 28 (by decide)).trans (by unfold fb; omega)
  have f19_19 : fb L 19 19 = bn sx := (l32 19 19 (by decide)).trans (by unfold fb; omega)
  have f20_20 : fb L 20 20 = 0 := (l32 20 20 (by decide)).trans (by unfold fb; omega)
  have f27_24 : fb L 27 24 = 0 := (l32 27 24 (by decide)).trans (by unfold fb; omega)
  show fin (do let sz ← sizeC (fb L 23 21); let d ← oN sz.regs (fb L 47 40); let m ← memS L; let sx ← sxC sz (fb L 19 19); pure (.lds h d m sz sx)) ((fb L 20 20) + (fb L 27 24)) = _
  simp only [f23_21, g1, g2, f18_0, f31_28, f19_19, f20_20, f27_24, sizeC_code, oN_byte, memS_code (by simp only [hw]) (by simp only [hw]) g2 f18_0 f31_28, sxC_bn, hw, ok_bind]
  rfl
theorem smp (h : Gd) (d a b : Opnd) (lin : Bool) (wrap : WrapMode) (norm : Bool) (stream : Fin 16) : Statement (.smp h d a b lin wrap norm stream) := by
  intro hw quay hq w hE; obtain rfl := Option.some.inj hE
  have hw : (a.spanOk 2 && b.spanOk 2) = true := hw
  simp only [Bool.and_eq_true, Bool.or_eq_true, Bool.not_eq_true', decide_eq_true_eq, bne_iff_ne, beq_iff_eq, ne_eq] at hw
  have k0 := d.byte_lt; have k1 := a.byte_lt; have k2 := b.byte_lt; have k3 := wrap.code_lt; have k4 := stream.isLt; have k5 := bn_lt lin; have k6 := bn_lt norm
  obtain ⟨L, hL⟩ : ∃ L, d.byte * 2 ^ 40 + a.byte * 2 ^ 32 + b.byte * 2 ^ 24 + (bn lin + wrap.code * 2 + bn norm * 8 + stream.val * 16) = L := ⟨_, rfl⟩
  obtain ⟨g0, g1, g2, g3, l24, l32, l40⟩ := fieldsX (by omega) (by omega) (by omega) (by omega) hL
  refine Eq.trans (b := decodeMem 17 3 h L) (by subst hL; exact decodeWord_mem quay (by decide) (by decide) g0) ?_
  have f0_0 : fb L 0 0 = bn lin := (l24 0 0 (by decide)).trans (by unfold fb; omega)
  have f2_1 : fb L 2 1 = wrap.code := (l24 2 1 (by decide)).trans (by unfold fb; omega)
  have f3_3 : fb L 3 3 = bn norm := (l24 3 3 (by decide)).trans (by unfold fb; omega)
  have f7_4 : fb L 7 4 = stream.val := (l24 7 4 (by decide)).trans (by unfold fb; omega)
  have f23_8 : fb L 23 8 = 0 := (l24 23 8 (by decide)).trans (by unfold fb; omega)
  show fin (do let d ← o32 (fb L 47 40); let a ← oP (fb L 39 32); let b ← oP (fb L 31 24); let lin ← bool (fb L 0 0); let wrap ← wrapC (fb L 2 1); let norm ← bool (fb L 3 3); let stream ← fin16 (fb L 7 4); pure (.smp h d a b lin wrap norm stream)) ((fb L 23 8)) = _
  simp only [g1, g2, g3, f0_0, f2_1, f3_3, f7_4, f23_8, o32_byte, oP_byte, bool_bn, wrapC_code, fin16_val, hw, ok_bind]
  rfl
theorem fsamp (h : Gd) (sc : Scope) : Statement (.fsamp h sc) := by
  intro hw quay hq w hE; obtain rfl := Option.some.inj hE
  have k0 := sc.code_lt
  obtain ⟨L, hL⟩ : ∃ L, 0 * 2 ^ 40 + 0 * 2 ^ 32 + 0 * 2 ^ 24 + 0 * 2 ^ 16 + sc.code = L := ⟨_, rfl⟩
  obtain ⟨g0, g1, g2, g3, g4, l16, l24, l32, l40⟩ := fieldsR (by omega) (by omega) (by omega) (by omega) (by omega) hL
  refine Eq.trans (b := decodeMem 18 0 h L) (by subst hL; exact decodeWord_mem quay (by decide) (by decide) g0) ?_
  have f1_0 : fb L 1 0 = sc.code := (l16 1 0 (by decide)).trans (by unfold fb; omega)
  have f47_2 : fb L 47 2 = 0 := fb_small (by omega)
  show fin (do let sc ← scopeC (fb L 1 0); pure (.fsamp h sc)) ((fb L 47 2)) = _
  simp only [f1_0, f47_2, scopeC_code, ok_bind]
  rfl
theorem fsampComplete (t : Nat) : Statement (.fsampComplete t) := fun _ _ _ _ h => (Option.some_ne_none _ h.symm).elim
theorem fence (h : Gd) (k : Fin 8) (sc : Scope) (scFence : Bool) (cover : Cover) : Statement (.fence h k sc scFence cover) := by
  intro hw quay hq w hE; obtain rfl := Option.some.inj hE
  have hw : (!scFence || (sc == .system && cover == .all)) = true := hw
  simp only [Bool.and_eq_true, Bool.or_eq_true, Bool.not_eq_true', decide_eq_true_eq, bne_iff_ne, beq_iff_eq, ne_eq] at hw
  have k0 := sc.code_lt; have k1 := cover.code_lt; have k2 := k.isLt; have k3 := bn_lt scFence
  obtain ⟨L, hL⟩ : ∃ L, (192 + k.val) * 2 ^ 40 + 0 * 2 ^ 32 + 0 * 2 ^ 24 + 0 * 2 ^ 16 + (sc.code + bn scFence * 4 + cover.code * 16) = L := ⟨_, rfl⟩
  obtain ⟨g0, g1, g2, g3, g4, l16, l24, l32, l40⟩ := fieldsR (by omega) (by omega) (by omega) (by omega) (by omega) hL
  refine Eq.trans (b := decodeMem 24 0 h L) (by subst hL; exact decodeWord_mem quay (by decide) (by decide) g0) ?_
  have f1_0 : fb L 1 0 = sc.code := (l16 1 0 (by decide)).trans (by unfold fb; omega)
  have f2_2 : fb L 2 2 = bn scFence := (l16 2 2 (by decide)).trans (by unfold fb; omega)
  have f5_4 : fb L 5 4 = cover.code := (l16 5 4 (by decide)).trans (by unfold fb; omega)
  have f3_3 : fb L 3 3 = 0 := (l16 3 3 (by decide)).trans (by unfold fb; omega)
  have f39_6 : fb L 39 6 = 0 := (l40 39 6 (by decide)).trans (by unfold fb; omega)
  show fin (do let sc ← scopeC (fb L 1 0); let scFence ← bool (fb L 2 2); let k ← tok (fb L 47 40); let cover ← coverC scFence sc (fb L 5 4); pure (.fence h k sc scFence cover)) ((fb L 3 3) + (fb L 39 6)) = _
  simp only [f1_0, f2_2, g1, f5_4, f3_3, f39_6, scopeC_code, bool_bn, tok_val, coverC_code, hw, ok_bind]
  rfl
theorem fwait (h : Gd) (k : Fin 8) : Statement (.fwait h k) := by
  intro hw quay hq w hE; obtain rfl := Option.some.inj hE
  have k0 := k.isLt
  obtain ⟨L, hL⟩ : ∃ L, 0 * 2 ^ 40 + (192 + k.val) * 2 ^ 32 + 0 * 2 ^ 24 + 0 * 2 ^ 16 + 0 = L := ⟨_, rfl⟩
  obtain ⟨g0, g1, g2, g3, g4, l16, l24, l32, l40⟩ := fieldsR (by omega) (by omega) (by omega) (by omega) (by omega) hL
  refine Eq.trans (b := decodeMem 25 0 h L) (by subst hL; exact decodeWord_mem quay (by decide) (by decide) g0) ?_
  have f31_0 : fb L 31 0 = 0 := (l32 31 0 (by decide)).trans (by unfold fb; omega)
  show fin (do let k ← tok (fb L 39 32); pure (.fwait h k)) ((fb L 31 0) + (fb L 47 40)) = _
  simp only [g2, f31_0, g1, tok_val, ok_bind]
  rfl
theorem fwaitComplete (t : Nat) : Statement (.fwaitComplete t) := fun _ _ _ _ h => (Option.some_ne_none _ h.symm).elim
theorem fjoin (h : Gd) (mask : BitVec 16) : Statement (.fjoin h mask) := by
  intro hw quay hq w hE; obtain rfl := Option.some.inj hE
  have hw : (mask != 0) = true := hw
  simp only [Bool.and_eq_true, Bool.or_eq_true, Bool.not_eq_true', decide_eq_true_eq, bne_iff_ne, beq_iff_eq, ne_eq] at hw
  have k0 := mask.isLt
  obtain ⟨L, hL⟩ : ∃ L, 0 * 2 ^ 40 + 0 * 2 ^ 32 + 0 * 2 ^ 24 + 0 * 2 ^ 16 + mask.toNat = L := ⟨_, rfl⟩
  obtain ⟨g0, g1, g2, g3, g4, l16, l24, l32, l40⟩ := fieldsR (by omega) (by omega) (by omega) (by omega) (by omega) hL
  refine Eq.trans (b := decodeMem 26 0 h L) (by subst hL; exact decodeWord_mem quay (by decide) (by decide) g0) ?_
  have f15_0 : fb L 15 0 = mask.toNat := (l16 15 0 (by decide)).trans (by unfold fb; omega)
  have f47_16 : fb L 47 16 = 0 := fb_small (by omega)
  show fin (do let mask ← fjoinC (fb L 15 0); pure (.fjoin h mask)) ((fb L 47 16)) = _
  simp only [f15_0, f47_16, fjoinC_toNat, not_false_eq_true, hw, ok_bind]
  rfl
theorem pref (h : Gd) (a : Opnd) (ofs : BitVec 19) (tgt : PrefTgt) : Statement (.pref h a ofs tgt) := by
  intro hw quay hq w hE; obtain rfl := Option.some.inj hE
  have hw : (a.spanOk 2) = true := hw
  have k0 := a.byte_lt; have k1 := tgt.code_lt; have k2 := ofs.isLt
  obtain ⟨L, hL⟩ : ∃ L, 0 * 2 ^ 40 + a.byte * 2 ^ 32 + (ofs.toNat + tgt.code * 524288) = L := ⟨_, rfl⟩
  obtain ⟨g0, g1, g2, l32, l40⟩ := fieldsI (by omega) (by omega) (by omega) hL
  refine Eq.trans (b := decodeMem 32 2 h L) (by subst hL; exact decodeWord_mem quay (by decide) (by decide) g0) ?_
  have f18_0 : fb L 18 0 = ofs.toNat := (l32 18 0 (by decide)).trans (by unfold fb; omega)
  have f20_19 : fb L 20 19 = tgt.code := (l32 20 19 (by decide)).trans (by unfold fb; omega)
  have f31_21 : fb L 31 21 = 0 := (l32 31 21 (by decide)).trans (by unfold fb; omega)
  show fin (do let a ← oP (fb L 39 32); let ofs ← bv19 (fb L 18 0); let tgt ← prefC (fb L 20 19); pure (.pref h a ofs tgt)) ((fb L 31 21) + (fb L 47 40)) = _
  simp only [g2, f18_0, f20_19, f31_21, g1, oP_byte, bv19_toNat, prefC_code, hw, ok_bind]
  rfl
theorem cwb (h : Gd) (m : MemArg) (inv : Bool) : Statement (.cwb h m inv) := by
  intro hw quay hq w hE; obtain rfl := Option.some.inj hE
  have hw : (m.a.spanOk 2 && decide (2 ≤ m.scope.code)) = true := hw
  simp only [Bool.and_eq_true, Bool.or_eq_true, Bool.not_eq_true', decide_eq_true_eq, bne_iff_ne, beq_iff_eq, ne_eq] at hw
  have k0 := m.a.byte_lt; have k1 := m.scope.code_lt; have k2 := m.stream.isLt; have k3 := m.ofs.isLt; have k4 := bn_lt inv
  obtain ⟨L, hL⟩ : ∃ L, 0 * 2 ^ 40 + m.a.byte * 2 ^ 32 + ((m.stream.val * 2 ^ 28 + m.scope.code * 2 ^ 26 + m.ofs.toNat) + bn inv * 524288) = L := ⟨_, rfl⟩
  obtain ⟨g0, g1, g2, l32, l40⟩ := fieldsI (by omega) (by omega) (by omega) hL
  refine Eq.trans (b := decodeMem 33 2 h L) (by subst hL; exact decodeWord_mem quay (by decide) (by decide) g0) ?_
  have f27_26 : fb L 27 26 = m.scope.code := (l32 27 26 (by decide)).trans (by unfold fb; omega)
  have f18_0 : fb L 18 0 = m.ofs.toNat := (l32 18 0 (by decide)).trans (by unfold fb; omega)
  have f31_28 : fb L 31 28 = m.stream.val := (l32 31 28 (by decide)).trans (by unfold fb; omega)
  have f19_19 : fb L 19 19 = bn inv := (l32 19 19 (by decide)).trans (by unfold fb; omega)
  have f25_20 : fb L 25 20 = 0 := (l32 25 20 (by decide)).trans (by unfold fb; omega)
  show fin (do let _ ← cwbScope (fb L 27 26); let m ← memW L; let inv ← bool (fb L 19 19); pure (.cwb h m inv)) ((fb L 25 20) + (fb L 47 40)) = _
  simp only [f27_26, g2, f18_0, f31_28, f19_19, f25_20, g1, cwbScope_code, memW_code (by simp only [hw]) g2 f18_0 f31_28 f27_26, bool_bn, hw, ok_bind]
  rfl
theorem cinvIcache (h : Gd) (a : Opnd) (ofs : BitVec 19) : Statement (.cinvIcache h a ofs) := by
  intro hw quay hq w hE; obtain rfl := Option.some.inj hE
  have hw : (a.spanOk 2) = true := hw
  have k0 := a.byte_lt; have k1 := ofs.isLt
  obtain ⟨L, hL⟩ : ∃ L, 0 * 2 ^ 40 + a.byte * 2 ^ 32 + ofs.toNat = L := ⟨_, rfl⟩
  obtain ⟨g0, g1, g2, l32, l40⟩ := fieldsI (by omega) (by omega) (by omega) hL
  refine Eq.trans (b := decodeMem 34 2 h L) (by subst hL; exact decodeWord_mem quay (by decide) (by decide) g0) ?_
  have f18_0 : fb L 18 0 = ofs.toNat := (l32 18 0 (by decide)).trans (by unfold fb; omega)
  have f31_21 : fb L 31 21 = 0 := (l32 31 21 (by decide)).trans (by unfold fb; omega)
  have s20_19 : fb L 20 19 = 0 := (l32 20 19 (by decide)).trans (by unfold fb; omega)
  refine Eq.trans (b := fin (do let a ← oP (fb L 39 32); let ofs ← bv19 (fb L 18 0); pure (.cinvIcache h a ofs)) ((fb L 31 21) + (fb L 47 40))) ?_ ?_
  · unfold decodeMem; simp only [s20_19]; rfl
  · simp only [g2, f18_0, f31_21, g1, oP_byte, bv19_toNat, hw, ok_bind]
    rfl
theorem cinvDiscard (h : Gd) (a : Opnd) (ofs : BitVec 19) : Statement (.cinvDiscard h a ofs) := by
  intro hw quay hq w hE; obtain rfl := Option.some.inj hE
  have hw : (a.spanOk 2) = true := hw
  have k0 := a.byte_lt; have k1 := ofs.isLt
  obtain ⟨L, hL⟩ : ∃ L, 0 * 2 ^ 40 + a.byte * 2 ^ 32 + (ofs.toNat + 524288) = L := ⟨_, rfl⟩
  obtain ⟨g0, g1, g2, l32, l40⟩ := fieldsI (by omega) (by omega) (by omega) hL
  refine Eq.trans (b := decodeMem 34 2 h L) (by subst hL; exact decodeWord_mem quay (by decide) (by decide) g0) ?_
  have f18_0 : fb L 18 0 = ofs.toNat := (l32 18 0 (by decide)).trans (by unfold fb; omega)
  have f31_21 : fb L 31 21 = 0 := (l32 31 21 (by decide)).trans (by unfold fb; omega)
  have s20_19 : fb L 20 19 = 1 := (l32 20 19 (by decide)).trans (by unfold fb; omega)
  refine Eq.trans (b := fin (do let a ← oP (fb L 39 32); let ofs ← bv19 (fb L 18 0); pure (.cinvDiscard h a ofs)) ((fb L 31 21) + (fb L 47 40))) ?_ ?_
  · unfold decodeMem; simp only [s20_19]; rfl
  · simp only [g2, f18_0, f31_21, g1, oP_byte, bv19_toNat, hw, ok_bind]
    rfl
theorem perform (acc part : Nat) : Statement (.perform acc part) := fun _ _ _ _ h => (Option.some_ne_none _ h.symm).elim
theorem propagate (w : Nat) (pt : Point) : Statement (.propagate w pt) := fun _ _ _ _ h => (Option.some_ne_none _ h.symm).elim
theorem advance (n : Nat) : Statement (.advance n) := fun _ _ _ _ h => (Option.some_ne_none _ h.symm).elim
theorem publish (op : Nat) : Statement (.publish op) := fun _ _ _ _ h => (Option.some_ne_none _ h.symm).elim
theorem barrier (b : BarRef) : Statement (.barrier b) := fun _ _ _ _ h => (Option.some_ne_none _ h.symm).elim
theorem scStep (t : Nat) : Statement (.scStep t) := fun _ _ _ _ h => (Option.some_ne_none _ h.symm).elim
theorem mxld (h : Gd) (a : Opnd) (slot : Fin 4) : Statement (.mxld h a slot) := by
  intro hw quay hq w hE; obtain rfl := Option.some.inj hE
  have hw : (a.spanOk 8 && !a.isG) = true := hw
  simp only [Bool.and_eq_true, Bool.or_eq_true, Bool.not_eq_true', decide_eq_true_eq, bne_iff_ne, beq_iff_eq, ne_eq] at hw
  have k0 := a.byte_lt; have k1 := slot.isLt
  obtain ⟨L, hL⟩ : ∃ L, 0 * 2 ^ 40 + a.byte * 2 ^ 32 + 0 * 2 ^ 24 + slot.val = L := ⟨_, rfl⟩
  obtain ⟨g0, g1, g2, g3, l24, l32, l40⟩ := fieldsX (by omega) (by omega) (by omega) (by omega) hL
  refine Eq.trans (b := decodeMx 0 3 h L) (by subst hL; exact decodeWord_mx quay (by decide) (by decide) g0) ?_
  have f1_0 : fb L 1 0 = slot.val := (l24 1 0 (by decide)).trans (by unfold fb; omega)
  have f31_2 : fb L 31 2 = 0 := (l32 31 2 (by decide)).trans (by unfold fb; omega)
  show fin (do let a ← oVB8 (fb L 39 32); let slot ← fin4 (fb L 1 0); pure (.mxld h a slot)) ((fb L 31 2) + (fb L 47 40)) = _
  simp only [g2, f1_0, f31_2, g1, oVB8_byte, fin4_val, hw, ok_bind]
  rfl
theorem mxrun (h : Gd) (t : Fin 8) (slot : Fin 4) (acc : Bool) : Statement (.mxrun h t slot acc) := by
  intro hw quay hq w hE; obtain rfl := Option.some.inj hE
  have k0 := t.isLt; have k1 := slot.isLt; have k2 := bn_lt acc
  obtain ⟨L, hL⟩ : ∃ L, (208 + t.val) * 2 ^ 40 + 0 * 2 ^ 32 + 0 * 2 ^ 24 + (slot.val + bn acc * 4) = L := ⟨_, rfl⟩
  obtain ⟨g0, g1, g2, g3, l24, l32, l40⟩ := fieldsX (by omega) (by omega) (by omega) (by omega) hL
  refine Eq.trans (b := decodeMx 1 3 h L) (by subst hL; exact decodeWord_mx quay (by decide) (by decide) g0) ?_
  have f1_0 : fb L 1 0 = slot.val := (l24 1 0 (by decide)).trans (by unfold fb; omega)
  have f2_2 : fb L 2 2 = bn acc := (l24 2 2 (by decide)).trans (by unfold fb; omega)
  have f39_3 : fb L 39 3 = 0 := (l40 39 3 (by decide)).trans (by unfold fb; omega)
  show fin (do let t ← tile (fb L 47 40); let slot ← fin4 (fb L 1 0); let acc ← bool (fb L 2 2); pure (.mxrun h t slot acc)) ((fb L 39 3)) = _
  simp only [g1, f1_0, f2_2, f39_3, tile_val, fin4_val, bool_bn, ok_bind]
  rfl
theorem mxz (h : Gd) (t : Fin 8) : Statement (.mxz h t) := by
  intro hw quay hq w hE; obtain rfl := Option.some.inj hE
  have k0 := t.isLt
  obtain ⟨L, hL⟩ : ∃ L, (208 + t.val) * 2 ^ 40 + 0 * 2 ^ 32 + 0 * 2 ^ 24 + 0 = L := ⟨_, rfl⟩
  obtain ⟨g0, g1, g2, g3, l24, l32, l40⟩ := fieldsX (by omega) (by omega) (by omega) (by omega) hL
  refine Eq.trans (b := decodeMx 2 3 h L) (by subst hL; exact decodeWord_mx quay (by decide) (by decide) g0) ?_
  have f39_0 : fb L 39 0 = 0 := (l40 39 0 (by decide)).trans (by unfold fb; omega)
  show fin (do let t ← tile (fb L 47 40); pure (.mxz h t)) ((fb L 39 0)) = _
  simp only [g1, f39_0, tile_val, ok_bind]
  rfl
theorem mxst (h : Gd) (t : Fin 8) (a : Opnd) (form : MxForm) (relu : Bool) (scale : Option Opnd) : Statement (.mxst h t a form relu scale) := by
  intro hw quay hq w hE; obtain rfl := Option.some.inj hE
  have k0 := a.byte_lt; have k1 := form.code_lt; have k2 := t.isLt; have k3 := bn_lt relu; have k4 := scaleByte_lt scale
  have kp : scaleCode scale = 0 ∨ scaleCode scale = 8 := by cases scale <;> simp [scaleCode]
  obtain ⟨L, hL⟩ : ∃ L, (208 + t.val) * 2 ^ 40 + a.byte * 2 ^ 32 + (scaleByte scale) * 2 ^ 24 + (scaleCode scale + bn relu * 4 + form.code) = L := ⟨_, rfl⟩
  obtain ⟨g0, g1, g2, g3, l24, l32, l40⟩ := fieldsX (by omega) (by omega) (by omega) (by omega) hL
  refine Eq.trans (b := decodeMx 3 3 h L) (by subst hL; exact decodeWord_mx quay (by decide) (by decide) g0) ?_
  have f1_0 : fb L 1 0 = form.code := (l24 1 0 (by decide)).trans (by unfold fb; omega)
  have f2_2 : fb L 2 2 = bn relu := (l24 2 2 (by decide)).trans (by unfold fb; omega)
  have f3_3 : fb L 3 3 = scaleCode scale / 8 := (l24 3 3 (by decide)).trans (by unfold fb; omega)
  have f23_4 : fb L 23 4 = 0 := (l24 23 4 (by decide)).trans (by unfold fb; omega)
  have fu : (if scaleCode scale / 8 = 0 then scaleByte scale else 0) = 0 := by
    cases scale with
    | none => rfl
    | some p => exact if_neg (by show ¬ 8 / 8 = 0; decide)
  show fin (do let t ← tile (fb L 47 40); let a ← o32 (fb L 39 32); let form ← formC (fb L 1 0); let relu ← bool (fb L 2 2); let scale ← scaleO L; pure (.mxst h t a form relu scale)) (fb L 23 4 + (if fb L 3 3 = 0 then fb L 31 24 else 0)) = _
  simp only [g1, g2, f1_0, f2_2, f3_3, g3, f23_4, fu, tile_val, o32_byte, formC_code, bool_bn, scaleO_code f3_3 g3, ok_bind]
  rfl
theorem mxlda (h : Gd) (t : Fin 8) (a : Opnd) (f32 : Bool) : Statement (.mxlda h t a f32) := by
  intro hw quay hq w hE; obtain rfl := Option.some.inj hE
  have k0 := a.byte_lt; have k1 := t.isLt; have k2 := bn_lt f32
  obtain ⟨L, hL⟩ : ∃ L, (208 + t.val) * 2 ^ 40 + a.byte * 2 ^ 32 + 0 * 2 ^ 24 + (bn f32) = L := ⟨_, rfl⟩
  obtain ⟨g0, g1, g2, g3, l24, l32, l40⟩ := fieldsX (by omega) (by omega) (by omega) (by omega) hL
  refine Eq.trans (b := decodeMx 4 3 h L) (by subst hL; exact decodeWord_mx quay (by decide) (by decide) g0) ?_
  have f0_0 : fb L 0 0 = bn f32 := (l24 0 0 (by decide)).trans (by unfold fb; omega)
  have f31_1 : fb L 31 1 = 0 := (l32 31 1 (by decide)).trans (by unfold fb; omega)
  show fin (do let t ← tile (fb L 47 40); let a ← o32 (fb L 39 32); let f32 ← bool (fb L 0 0); pure (.mxlda h t a f32)) ((fb L 31 1)) = _
  simp only [g1, g2, f0_0, f31_1, tile_val, o32_byte, bool_bn, ok_bind]
  rfl
theorem mxqryOcc (h : Gd) (d : Opnd) : Statement (.mxqryOcc h d) := by
  intro hw quay hq w hE; obtain rfl := Option.some.inj hE
  have k0 := d.byte_lt
  obtain ⟨L, hL⟩ : ∃ L, d.byte * 2 ^ 40 + 0 * 2 ^ 32 + 0 * 2 ^ 24 + 0 = L := ⟨_, rfl⟩
  obtain ⟨g0, g1, g2, g3, l24, l32, l40⟩ := fieldsX (by omega) (by omega) (by omega) (by omega) hL
  refine Eq.trans (b := decodeMx 5 3 h L) (by subst hL; exact decodeWord_mx quay (by decide) (by decide) g0) ?_
  have f39_1 : fb L 39 1 = 0 := (l40 39 1 (by decide)).trans (by unfold fb; omega)
  have s0_0 : fb L 0 0 = 0 := (l24 0 0 (by decide)).trans (by unfold fb; omega)
  refine Eq.trans (b := fin (do let d ← o32 (fb L 47 40); pure (.mxqryOcc h d)) ((fb L 39 1))) ?_ ?_
  · unfold decodeMx; simp only [s0_0]; rfl
  · simp only [g1, f39_1, o32_byte, ok_bind]
    rfl
theorem mxqryEst (h : Gd) (d : Opnd) : Statement (.mxqryEst h d) := by
  intro hw quay hq w hE; obtain rfl := Option.some.inj hE
  have hw : (d.spanOk 2) = true := hw
  have k0 := d.byte_lt
  obtain ⟨L, hL⟩ : ∃ L, d.byte * 2 ^ 40 + 0 * 2 ^ 32 + 0 * 2 ^ 24 + 1 = L := ⟨_, rfl⟩
  obtain ⟨g0, g1, g2, g3, l24, l32, l40⟩ := fieldsX (by omega) (by omega) (by omega) (by omega) hL
  refine Eq.trans (b := decodeMx 5 3 h L) (by subst hL; exact decodeWord_mx quay (by decide) (by decide) g0) ?_
  have f39_1 : fb L 39 1 = 0 := (l40 39 1 (by decide)).trans (by unfold fb; omega)
  have s0_0 : fb L 0 0 = 1 := (l24 0 0 (by decide)).trans (by unfold fb; omega)
  refine Eq.trans (b := fin (do let d ← oP (fb L 47 40); pure (.mxqryEst h d)) ((fb L 39 1))) ?_ ?_
  · unfold decodeMx; simp only [s0_0]; rfl
  · simp only [g1, f39_1, oP_byte, hw, ok_bind]
    rfl
theorem mxldOperation (cx : Nat) : Statement (.mxldOperation cx) := fun _ _ _ _ h => (Option.some_ne_none _ h.symm).elim
theorem mxrunOperation (cx n : Nat) : Statement (.mxrunOperation cx n) := fun _ _ _ _ h => (Option.some_ne_none _ h.symm).elim
theorem mxzOperation (cx : Nat) : Statement (.mxzOperation cx) := fun _ _ _ _ h => (Option.some_ne_none _ h.symm).elim
theorem mxstOperation (cx n : Nat) : Statement (.mxstOperation cx n) := fun _ _ _ _ h => (Option.some_ne_none _ h.symm).elim
theorem mxldaOperation (cx : Nat) : Statement (.mxldaOperation cx) := fun _ _ _ _ h => (Option.some_ne_none _ h.symm).elim
theorem cpy (h : Gd) (x : CopyArg) : Statement (.cpy h x) := by
  intro hw quay hq w hE; obtain rfl := Option.some.inj hE
  have hw : (x.d.spanOk 2 && x.a.spanOk 2) = true := hw
  simp only [Bool.and_eq_true, Bool.or_eq_true, Bool.not_eq_true', decide_eq_true_eq, bne_iff_ne, beq_iff_eq, ne_eq] at hw
  have k0 := x.d.byte_lt; have k1 := x.a.byte_lt; have k2 := x.scope.code_lt; have k3 := x.stream.isLt; have k4 := bn_lt x.rel
  obtain ⟨L, hL⟩ : ∃ L, x.d.byte * 2 ^ 40 + x.a.byte * 2 ^ 32 + 0 * 2 ^ 24 + ((bn x.rel * 2 ^ 6 + x.scope.code * 2 ^ 4 + x.stream.val)) = L := ⟨_, rfl⟩
  obtain ⟨g0, g1, g2, g3, l24, l32, l40⟩ := fieldsX (by omega) (by omega) (by omega) (by omega) hL
  refine Eq.trans (b := decodeCpy 0 3 h L) (by subst hL; exact decodeWord_cpy quay (by decide) (by decide) g0) ?_
  have f3_0 : fb L 3 0 = x.stream.val := (l24 3 0 (by decide)).trans (by unfold fb; omega)
  have f5_4 : fb L 5 4 = x.scope.code := (l24 5 4 (by decide)).trans (by unfold fb; omega)
  have f6_6 : fb L 6 6 = bn x.rel := (l24 6 6 (by decide)).trans (by unfold fb; omega)
  have f31_7 : fb L 31 7 = 0 := (l32 31 7 (by decide)).trans (by unfold fb; omega)
  show fin (do let x ← copyA L; pure (.cpy h x)) ((fb L 31 7)) = _
  simp only [g1, g2, f3_0, f5_4, f6_6, f31_7, copyA_code (by simp only [hw]) (by simp only [hw]) g1 g2 f3_0 f5_4 f6_6, hw, ok_bind]
  rfl
theorem cpys (h : Gd) (x : CopyArg) : Statement (.cpys h x) := by
  intro hw quay hq w hE; obtain rfl := Option.some.inj hE
  have hw : (x.d.spanOk 2 && x.a.spanOk 2) = true := hw
  simp only [Bool.and_eq_true, Bool.or_eq_true, Bool.not_eq_true', decide_eq_true_eq, bne_iff_ne, beq_iff_eq, ne_eq] at hw
  have k0 := x.d.byte_lt; have k1 := x.a.byte_lt; have k2 := x.scope.code_lt; have k3 := x.stream.isLt; have k4 := bn_lt x.rel
  obtain ⟨L, hL⟩ : ∃ L, x.d.byte * 2 ^ 40 + x.a.byte * 2 ^ 32 + 0 * 2 ^ 24 + ((bn x.rel * 2 ^ 6 + x.scope.code * 2 ^ 4 + x.stream.val)) = L := ⟨_, rfl⟩
  obtain ⟨g0, g1, g2, g3, l24, l32, l40⟩ := fieldsX (by omega) (by omega) (by omega) (by omega) hL
  refine Eq.trans (b := decodeCpy 1 3 h L) (by subst hL; exact decodeWord_cpy quay (by decide) (by decide) g0) ?_
  have f3_0 : fb L 3 0 = x.stream.val := (l24 3 0 (by decide)).trans (by unfold fb; omega)
  have f5_4 : fb L 5 4 = x.scope.code := (l24 5 4 (by decide)).trans (by unfold fb; omega)
  have f6_6 : fb L 6 6 = bn x.rel := (l24 6 6 (by decide)).trans (by unfold fb; omega)
  have f31_7 : fb L 31 7 = 0 := (l32 31 7 (by decide)).trans (by unfold fb; omega)
  show fin (do let x ← copyA L; pure (.cpys h x)) ((fb L 31 7)) = _
  simp only [g1, g2, f3_0, f5_4, f6_6, f31_7, copyA_code (by simp only [hw]) (by simp only [hw]) g1 g2 f3_0 f5_4 f6_6, hw, ok_bind]
  rfl
theorem cpyb (h : Gd) (x : CopyArg) : Statement (.cpyb h x) := by
  intro hw quay hq w hE; obtain rfl := Option.some.inj hE
  have hw : (x.d.spanOk 2 && x.a.spanOk 2) = true := hw
  simp only [Bool.and_eq_true, Bool.or_eq_true, Bool.not_eq_true', decide_eq_true_eq, bne_iff_ne, beq_iff_eq, ne_eq] at hw
  have k0 := x.d.byte_lt; have k1 := x.a.byte_lt; have k2 := x.scope.code_lt; have k3 := x.stream.isLt; have k4 := bn_lt x.rel
  obtain ⟨L, hL⟩ : ∃ L, x.d.byte * 2 ^ 40 + x.a.byte * 2 ^ 32 + 0 * 2 ^ 24 + ((bn x.rel * 2 ^ 6 + x.scope.code * 2 ^ 4 + x.stream.val)) = L := ⟨_, rfl⟩
  obtain ⟨g0, g1, g2, g3, l24, l32, l40⟩ := fieldsX (by omega) (by omega) (by omega) (by omega) hL
  refine Eq.trans (b := decodeCpy 2 3 h L) (by subst hL; exact decodeWord_cpy quay (by decide) (by decide) g0) ?_
  have f3_0 : fb L 3 0 = x.stream.val := (l24 3 0 (by decide)).trans (by unfold fb; omega)
  have f5_4 : fb L 5 4 = x.scope.code := (l24 5 4 (by decide)).trans (by unfold fb; omega)
  have f6_6 : fb L 6 6 = bn x.rel := (l24 6 6 (by decide)).trans (by unfold fb; omega)
  have f31_7 : fb L 31 7 = 0 := (l32 31 7 (by decide)).trans (by unfold fb; omega)
  show fin (do let x ← copyA L; pure (.cpyb h x)) ((fb L 31 7)) = _
  simp only [g1, g2, f3_0, f5_4, f6_6, f31_7, copyA_code (by simp only [hw]) (by simp only [hw]) g1 g2 f3_0 f5_4 f6_6, hw, ok_bind]
  rfl
theorem cpyx (h : Gd) (x : CopyArg) : Statement (.cpyx h x) := by
  intro hw quay hq w hE; obtain rfl := Option.some.inj hE
  have hw : (x.d.spanOk 2 && x.a.spanOk 2) = true := hw
  simp only [Bool.and_eq_true, Bool.or_eq_true, Bool.not_eq_true', decide_eq_true_eq, bne_iff_ne, beq_iff_eq, ne_eq] at hw
  have k0 := x.d.byte_lt; have k1 := x.a.byte_lt; have k2 := x.scope.code_lt; have k3 := x.stream.isLt; have k4 := bn_lt x.rel
  obtain ⟨L, hL⟩ : ∃ L, x.d.byte * 2 ^ 40 + x.a.byte * 2 ^ 32 + 0 * 2 ^ 24 + ((bn x.rel * 2 ^ 6 + x.scope.code * 2 ^ 4 + x.stream.val)) = L := ⟨_, rfl⟩
  obtain ⟨g0, g1, g2, g3, l24, l32, l40⟩ := fieldsX (by omega) (by omega) (by omega) (by omega) hL
  refine Eq.trans (b := decodeCpy 3 3 h L) (by subst hL; exact decodeWord_cpy quay (by decide) (by decide) g0) ?_
  have f3_0 : fb L 3 0 = x.stream.val := (l24 3 0 (by decide)).trans (by unfold fb; omega)
  have f5_4 : fb L 5 4 = x.scope.code := (l24 5 4 (by decide)).trans (by unfold fb; omega)
  have f6_6 : fb L 6 6 = bn x.rel := (l24 6 6 (by decide)).trans (by unfold fb; omega)
  have f31_7 : fb L 31 7 = 0 := (l32 31 7 (by decide)).trans (by unfold fb; omega)
  show fin (do let x ← copyA L; pure (.cpyx h x)) ((fb L 31 7)) = _
  simp only [g1, g2, f3_0, f5_4, f6_6, f31_7, copyA_code (by simp only [hw]) (by simp only [hw]) g1 g2 f3_0 f5_4 f6_6, hw, ok_bind]
  rfl
theorem cfill (h : Gd) (x : CopyArg) (b : Opnd) : Statement (.cfill h x b) := by
  intro hw quay hq w hE; obtain rfl := Option.some.inj hE
  have hw : (x.d.spanOk 2 && x.a.spanOk 2) = true := hw
  simp only [Bool.and_eq_true, Bool.or_eq_true, Bool.not_eq_true', decide_eq_true_eq, bne_iff_ne, beq_iff_eq, ne_eq] at hw
  have k0 := x.d.byte_lt; have k1 := x.a.byte_lt; have k2 := b.byte_lt; have k3 := x.scope.code_lt; have k4 := x.stream.isLt; have k5 := bn_lt x.rel
  obtain ⟨L, hL⟩ : ∃ L, x.d.byte * 2 ^ 40 + x.a.byte * 2 ^ 32 + b.byte * 2 ^ 24 + ((bn x.rel * 2 ^ 6 + x.scope.code * 2 ^ 4 + x.stream.val)) = L := ⟨_, rfl⟩
  obtain ⟨g0, g1, g2, g3, l24, l32, l40⟩ := fieldsX (by omega) (by omega) (by omega) (by omega) hL
  refine Eq.trans (b := decodeCpy 4 3 h L) (by subst hL; exact decodeWord_cpy quay (by decide) (by decide) g0) ?_
  have f3_0 : fb L 3 0 = x.stream.val := (l24 3 0 (by decide)).trans (by unfold fb; omega)
  have f5_4 : fb L 5 4 = x.scope.code := (l24 5 4 (by decide)).trans (by unfold fb; omega)
  have f6_6 : fb L 6 6 = bn x.rel := (l24 6 6 (by decide)).trans (by unfold fb; omega)
  have f23_7 : fb L 23 7 = 0 := (l24 23 7 (by decide)).trans (by unfold fb; omega)
  show fin (do let x ← copyA L; let b ← o32 (fb L 31 24); pure (.cfill h x b)) ((fb L 23 7)) = _
  simp only [g1, g2, f3_0, f5_4, f6_6, g3, f23_7, copyA_code (by simp only [hw]) (by simp only [hw]) g1 g2 f3_0 f5_4 f6_6, o32_byte, hw, ok_bind]
  rfl
theorem cseal (h : Gd) (k : Fin 8) : Statement (.cseal h k) := by
  intro hw quay hq w hE; obtain rfl := Option.some.inj hE
  have k0 := k.isLt
  obtain ⟨L, hL⟩ : ∃ L, (192 + k.val) * 2 ^ 40 + 0 * 2 ^ 32 + 0 * 2 ^ 24 + 0 * 2 ^ 16 + 0 = L := ⟨_, rfl⟩
  obtain ⟨g0, g1, g2, g3, g4, l16, l24, l32, l40⟩ := fieldsR (by omega) (by omega) (by omega) (by omega) (by omega) hL
  refine Eq.trans (b := decodeCpy 8 0 h L) (by subst hL; exact decodeWord_cpy quay (by decide) (by decide) g0) ?_
  have f39_0 : fb L 39 0 = 0 := (l40 39 0 (by decide)).trans (by unfold fb; omega)
  show fin (do let k ← tok (fb L 47 40); pure (.cseal h k)) ((fb L 39 0)) = _
  simp only [g1, f39_0, tok_val, ok_bind]
  rfl
theorem cwait (h : Gd) (n : Fin 64) : Statement (.cwait h n) := by
  intro hw quay hq w hE; obtain rfl := Option.some.inj hE
  have k0 := n.isLt
  obtain ⟨L, hL⟩ : ∃ L, 0 * 2 ^ 40 + 0 * 2 ^ 32 + 0 * 2 ^ 24 + 0 * 2 ^ 16 + n.val = L := ⟨_, rfl⟩
  obtain ⟨g0, g1, g2, g3, g4, l16, l24, l32, l40⟩ := fieldsR (by omega) (by omega) (by omega) (by omega) (by omega) hL
  refine Eq.trans (b := decodeCpy 9 0 h L) (by subst hL; exact decodeWord_cpy quay (by decide) (by decide) g0) ?_
  have f5_0 : fb L 5 0 = n.val := (l16 5 0 (by decide)).trans (by unfold fb; omega)
  have f47_6 : fb L 47 6 = 0 := fb_small (by omega)
  show fin (do let n ← fin64 (fb L 5 0); pure (.cwait h n)) ((fb L 47 6)) = _
  simp only [f5_0, f47_6, fin64_val, ok_bind]
  rfl
theorem cprom (h : Gd) (d : Opnd) (k : Fin 8) : Statement (.cprom h d k) := by
  intro hw quay hq w hE; obtain rfl := Option.some.inj hE
  have hw : (d.spanOk 2) = true := hw
  have k0 := d.byte_lt; have k1 := k.isLt
  obtain ⟨L, hL⟩ : ∃ L, d.byte * 2 ^ 40 + (192 + k.val) * 2 ^ 32 + 0 * 2 ^ 24 + 0 * 2 ^ 16 + 0 = L := ⟨_, rfl⟩
  obtain ⟨g0, g1, g2, g3, g4, l16, l24, l32, l40⟩ := fieldsR (by omega) (by omega) (by omega) (by omega) (by omega) hL
  refine Eq.trans (b := decodeCpy 10 0 h L) (by subst hL; exact decodeWord_cpy quay (by decide) (by decide) g0) ?_
  have f31_1 : fb L 31 1 = 0 := (l32 31 1 (by decide)).trans (by unfold fb; omega)
  have s0_0 : fb L 0 0 = 0 := (l16 0 0 (by decide)).trans (by unfold fb; omega)
  refine Eq.trans (b := fin (do let d ← oP (fb L 47 40); let k ← tok (fb L 39 32); pure (.cprom h d k)) ((fb L 31 1))) ?_ ?_
  · unfold decodeCpy; simp only [s0_0]; rfl
  · simp only [g1, g2, f31_1, oP_byte, tok_val, hw, ok_bind]
    rfl
theorem cpromStat (h : Gd) (d : Opnd) (k : Fin 8) : Statement (.cpromStat h d k) := by
  intro hw quay hq w hE; obtain rfl := Option.some.inj hE
  have k0 := d.byte_lt; have k1 := k.isLt
  obtain ⟨L, hL⟩ : ∃ L, d.byte * 2 ^ 40 + (192 + k.val) * 2 ^ 32 + 0 * 2 ^ 24 + 0 * 2 ^ 16 + 1 = L := ⟨_, rfl⟩
  obtain ⟨g0, g1, g2, g3, g4, l16, l24, l32, l40⟩ := fieldsR (by omega) (by omega) (by omega) (by omega) (by omega) hL
  refine Eq.trans (b := decodeCpy 10 0 h L) (by subst hL; exact decodeWord_cpy quay (by decide) (by decide) g0) ?_
  have f31_1 : fb L 31 1 = 0 := (l32 31 1 (by decide)).trans (by unfold fb; omega)
  have s0_0 : fb L 0 0 = 1 := (l16 0 0 (by decide)).trans (by unfold fb; omega)
  refine Eq.trans (b := fin (do let d ← o32 (fb L 47 40); let k ← tok (fb L 39 32); pure (.cpromStat h d k)) ((fb L 31 1))) ?_ ?_
  · unfold decodeCpy; simp only [s0_0]; rfl
  · simp only [g1, g2, f31_1, o32_byte, tok_val, ok_bind]
    rfl
theorem cpub (h : Gd) (d : Opnd) (sh : Fin 8) : Statement (.cpub h d sh) := by
  intro hw quay hq w hE; obtain rfl := Option.some.inj hE
  have hw : (d.spanOk 2) = true := hw
  have k0 := d.byte_lt; have k1 := sh.isLt
  obtain ⟨L, hL⟩ : ∃ L, d.byte * 2 ^ 40 + 0 * 2 ^ 32 + 0 * 2 ^ 24 + sh.val = L := ⟨_, rfl⟩
  obtain ⟨g0, g1, g2, g3, l24, l32, l40⟩ := fieldsX (by omega) (by omega) (by omega) (by omega) hL
  refine Eq.trans (b := decodeCpy 12 3 h L) (by subst hL; exact decodeWord_cpy quay (by decide) (by decide) g0) ?_
  have f2_0 : fb L 2 0 = sh.val := (l24 2 0 (by decide)).trans (by unfold fb; omega)
  have f39_3 : fb L 39 3 = 0 := (l40 39 3 (by decide)).trans (by unfold fb; omega)
  show fin (do let d ← oP (fb L 47 40); let sh ← fin8 (fb L 2 0); pure (.cpub h d sh)) ((fb L 39 3)) = _
  simp only [g1, f2_0, f39_3, oP_byte, fin8_val, hw, ok_bind]
  rfl
theorem cshad (h : Gd) (sh : Fin 8) (a b : Opnd) : Statement (.cshad h sh a b) := by
  intro hw quay hq w hE; obtain rfl := Option.some.inj hE
  have hw : (a.spanOk 2) = true := hw
  have k0 := a.byte_lt; have k1 := b.byte_lt; have k2 := sh.isLt
  obtain ⟨L, hL⟩ : ∃ L, 0 * 2 ^ 40 + a.byte * 2 ^ 32 + b.byte * 2 ^ 24 + sh.val = L := ⟨_, rfl⟩
  obtain ⟨g0, g1, g2, g3, l24, l32, l40⟩ := fieldsX (by omega) (by omega) (by omega) (by omega) hL
  refine Eq.trans (b := decodeCpy 13 3 h L) (by subst hL; exact decodeWord_cpy quay (by decide) (by decide) g0) ?_
  have f2_0 : fb L 2 0 = sh.val := (l24 2 0 (by decide)).trans (by unfold fb; omega)
  have f23_4 : fb L 23 4 = 0 := (l24 23 4 (by decide)).trans (by unfold fb; omega)
  have s3_3 : fb L 3 3 = 0 := (l24 3 3 (by decide)).trans (by unfold fb; omega)
  refine Eq.trans (b := fin (do let sh ← fin8 (fb L 2 0); let a ← oP (fb L 39 32); let b ← o32 (fb L 31 24); pure (.cshad h sh a b)) ((fb L 23 4) + (fb L 47 40))) ?_ ?_
  · unfold decodeCpy; simp only [s3_3]; rfl
  · simp only [f2_0, g2, g3, f23_4, g1, fin8_val, oP_byte, o32_byte, hw, ok_bind]
    rfl
theorem cshadOff (h : Gd) (d : Opnd) (sh : Fin 8) : Statement (.cshadOff h d sh) := by
  intro hw quay hq w hE; obtain rfl := Option.some.inj hE
  have hw : (d.spanOk 2) = true := hw
  have k0 := d.byte_lt; have k1 := sh.isLt
  obtain ⟨L, hL⟩ : ∃ L, d.byte * 2 ^ 40 + 0 * 2 ^ 32 + 0 * 2 ^ 24 + (sh.val + 8) = L := ⟨_, rfl⟩
  obtain ⟨g0, g1, g2, g3, l24, l32, l40⟩ := fieldsX (by omega) (by omega) (by omega) (by omega) hL
  refine Eq.trans (b := decodeCpy 13 3 h L) (by subst hL; exact decodeWord_cpy quay (by decide) (by decide) g0) ?_
  have f2_0 : fb L 2 0 = sh.val := (l24 2 0 (by decide)).trans (by unfold fb; omega)
  have f39_4 : fb L 39 4 = 0 := (l40 39 4 (by decide)).trans (by unfold fb; omega)
  have s3_3 : fb L 3 3 = 1 := (l24 3 3 (by decide)).trans (by unfold fb; omega)
  refine Eq.trans (b := fin (do let d ← oP (fb L 47 40); let sh ← fin8 (fb L 2 0); pure (.cshadOff h d sh)) ((fb L 39 4))) ?_ ?_
  · unfold decodeCpy; simp only [s3_3]; rfl
  · simp only [g1, f2_0, f39_4, oP_byte, fin8_val, hw, ok_bind]
    rfl
theorem copyAdmission (op : Nat) : Statement (.copyAdmission op) := fun _ _ _ _ h => (Option.some_ne_none _ h.symm).elim
theorem copyStart (op : Nat) (w : CopyStep) : Statement (.copyStart op w) := fun _ _ _ _ h => (Option.some_ne_none _ h.symm).elim
theorem copyComplete (op : Nat) : Statement (.copyComplete op) := fun _ _ _ _ h => (Option.some_ne_none _ h.symm).elim
theorem shadowDisarm (op : Nat) : Statement (.shadowDisarm op) := fun _ _ _ _ h => (Option.some_ne_none _ h.symm).elim
theorem fopen (h : Gd) (d a : Opnd) (s : Fin 64) : Statement (.fopen h d a s) := by
  intro hw quay hq w hE; obtain rfl := Option.some.inj hE
  have hw : (a.spanOk 2) = true := hw
  have k0 := d.byte_lt; have k1 := a.byte_lt; have k2 := s.isLt
  obtain ⟨L, hL⟩ : ∃ L, d.byte * 2 ^ 40 + a.byte * 2 ^ 32 + 0 * 2 ^ 24 + s.val = L := ⟨_, rfl⟩
  obtain ⟨g0, g1, g2, g3, l24, l32, l40⟩ := fieldsX (by omega) (by omega) (by omega) (by omega) hL
  refine Eq.trans (b := decodeFld 0 3 h L) (by subst hL; exact decodeWord_fld quay (by decide) (by decide) g0) ?_
  have f5_0 : fb L 5 0 = s.val := (l24 5 0 (by decide)).trans (by unfold fb; omega)
  have f31_6 : fb L 31 6 = 0 := (l32 31 6 (by decide)).trans (by unfold fb; omega)
  show fin (do let d ← o32 (fb L 47 40); let a ← oP (fb L 39 32); let s ← fin64 (fb L 5 0); pure (.fopen h d a s)) ((fb L 31 6)) = _
  simp only [g1, g2, f5_0, f31_6, o32_byte, oP_byte, fin64_val, hw, ok_bind]
  rfl
theorem fst (h : Gd) (a b : Opnd) (s : Fin 64) : Statement (.fst h a b s) := by
  intro hw quay hq w hE; obtain rfl := Option.some.inj hE
  have k0 := a.byte_lt; have k1 := b.byte_lt; have k2 := s.isLt
  obtain ⟨L, hL⟩ : ∃ L, 0 * 2 ^ 40 + a.byte * 2 ^ 32 + b.byte * 2 ^ 24 + s.val = L := ⟨_, rfl⟩
  obtain ⟨g0, g1, g2, g3, l24, l32, l40⟩ := fieldsX (by omega) (by omega) (by omega) (by omega) hL
  refine Eq.trans (b := decodeFld 1 3 h L) (by subst hL; exact decodeWord_fld quay (by decide) (by decide) g0) ?_
  have f5_0 : fb L 5 0 = s.val := (l24 5 0 (by decide)).trans (by unfold fb; omega)
  have f23_6 : fb L 23 6 = 0 := (l24 23 6 (by decide)).trans (by unfold fb; omega)
  show fin (do let a ← o32 (fb L 39 32); let b ← o32 (fb L 31 24); let s ← fin64 (fb L 5 0); pure (.fst h a b s)) ((fb L 23 6) + (fb L 47 40)) = _
  simp only [g2, g3, f5_0, f23_6, g1, o32_byte, fin64_val, ok_bind]
  rfl
theorem fseal (h : Gd) (s : Fin 64) : Statement (.fseal h s) := by
  intro hw quay hq w hE; obtain rfl := Option.some.inj hE
  have k0 := s.isLt
  obtain ⟨L, hL⟩ : ∃ L, 0 * 2 ^ 40 + 0 * 2 ^ 32 + 0 * 2 ^ 24 + s.val = L := ⟨_, rfl⟩
  obtain ⟨g0, g1, g2, g3, l24, l32, l40⟩ := fieldsX (by omega) (by omega) (by omega) (by omega) hL
  refine Eq.trans (b := decodeFld 2 3 h L) (by subst hL; exact decodeWord_fld quay (by decide) (by decide) g0) ?_
  have f5_0 : fb L 5 0 = s.val := (l24 5 0 (by decide)).trans (by unfold fb; omega)
  have f47_6 : fb L 47 6 = 0 := fb_small (by omega)
  show fin (do let s ← fin64 (fb L 5 0); pure (.fseal h s)) ((fb L 47 6)) = _
  simp only [f5_0, f47_6, fin64_val, ok_bind]
  rfl
theorem fcomp (h : Gd) (a : Opnd) (src dst : Fin 64) (hops : Fin 16) (em : Empty) : Statement (.fcomp h a src dst hops em) := by
  intro hw quay hq w hE; obtain rfl := Option.some.inj hE
  have hw : (a.spanOk 2 && decide (hops.val ≤ 8)) = true := hw
  simp only [Bool.and_eq_true, Bool.or_eq_true, Bool.not_eq_true', decide_eq_true_eq, bne_iff_ne, beq_iff_eq, ne_eq] at hw
  have k0 := a.byte_lt; have k1 := em.code_lt; have k2 := src.isLt; have k3 := dst.isLt; have k4 := hops.isLt
  obtain ⟨L, hL⟩ : ∃ L, 0 * 2 ^ 40 + a.byte * 2 ^ 32 + 0 * 2 ^ 24 + (src.val + dst.val * 64 + hops.val * 4096 + em.code * 65536) = L := ⟨_, rfl⟩
  obtain ⟨g0, g1, g2, g3, l24, l32, l40⟩ := fieldsX (by omega) (by omega) (by omega) (by omega) hL
  refine Eq.trans (b := decodeFld 3 3 h L) (by subst hL; exact decodeWord_fld quay (by decide) (by decide) g0) ?_
  have f5_0 : fb L 5 0 = src.val := (l24 5 0 (by decide)).trans (by unfold fb; omega)
  have f11_6 : fb L 11 6 = dst.val := (l24 11 6 (by decide)).trans (by unfold fb; omega)
  have f15_12 : fb L 15 12 = hops.val := (l24 15 12 (by decide)).trans (by unfold fb; omega)
  have f17_16 : fb L 17 16 = em.code := (l24 17 16 (by decide)).trans (by unfold fb; omega)
  have f31_18 : fb L 31 18 = 0 := (l32 31 18 (by decide)).trans (by unfold fb; omega)
  show fin (do let a ← oP (fb L 39 32); let src ← fin64 (fb L 5 0); let dst ← fin64 (fb L 11 6); let hops ← hopsC (fb L 15 12); let em ← emptyC (fb L 17 16); pure (.fcomp h a src dst hops em)) ((fb L 31 18) + (fb L 47 40)) = _
  simp only [g2, f5_0, f11_6, f15_12, f17_16, f31_18, g1, oP_byte, fin64_val, hopsC_val, emptyC_code, hw, ok_bind]
  rfl
theorem finv (h : Gd) (s : Fin 64) : Statement (.finv h s) := by
  intro hw quay hq w hE; obtain rfl := Option.some.inj hE
  have k0 := s.isLt
  obtain ⟨L, hL⟩ : ∃ L, 0 * 2 ^ 40 + 0 * 2 ^ 32 + 0 * 2 ^ 24 + s.val = L := ⟨_, rfl⟩
  obtain ⟨g0, g1, g2, g3, l24, l32, l40⟩ := fieldsX (by omega) (by omega) (by omega) (by omega) hL
  refine Eq.trans (b := decodeFld 4 3 h L) (by subst hL; exact decodeWord_fld quay (by decide) (by decide) g0) ?_
  have f5_0 : fb L 5 0 = s.val := (l24 5 0 (by decide)).trans (by unfold fb; omega)
  have f47_6 : fb L 47 6 = 0 := fb_small (by omega)
  show fin (do let s ← fin64 (fb L 5 0); pure (.finv h s)) ((fb L 47 6)) = _
  simp only [f5_0, f47_6, fin64_val, ok_bind]
  rfl
theorem frel (h : Gd) (s : Fin 64) : Statement (.frel h s) := by
  intro hw quay hq w hE; obtain rfl := Option.some.inj hE
  have k0 := s.isLt
  obtain ⟨L, hL⟩ : ∃ L, 0 * 2 ^ 40 + 0 * 2 ^ 32 + 0 * 2 ^ 24 + s.val = L := ⟨_, rfl⟩
  obtain ⟨g0, g1, g2, g3, l24, l32, l40⟩ := fieldsX (by omega) (by omega) (by omega) (by omega) hL
  refine Eq.trans (b := decodeFld 5 3 h L) (by subst hL; exact decodeWord_fld quay (by decide) (by decide) g0) ?_
  have f5_0 : fb L 5 0 = s.val := (l24 5 0 (by decide)).trans (by unfold fb; omega)
  have f47_6 : fb L 47 6 = 0 := fb_small (by omega)
  show fin (do let s ← fin64 (fb L 5 0); pure (.frel h s)) ((fb L 47 6)) = _
  simp only [f5_0, f47_6, fin64_val, ok_bind]
  rfl
theorem fqry (h : Gd) (d : Opnd) (s : Fin 64) : Statement (.fqry h d s) := by
  intro hw quay hq w hE; obtain rfl := Option.some.inj hE
  have hw : (d.spanOk 2) = true := hw
  have k0 := d.byte_lt; have k1 := s.isLt
  obtain ⟨L, hL⟩ : ∃ L, d.byte * 2 ^ 40 + 0 * 2 ^ 32 + 0 * 2 ^ 24 + s.val = L := ⟨_, rfl⟩
  obtain ⟨g0, g1, g2, g3, l24, l32, l40⟩ := fieldsX (by omega) (by omega) (by omega) (by omega) hL
  refine Eq.trans (b := decodeFld 6 3 h L) (by subst hL; exact decodeWord_fld quay (by decide) (by decide) g0) ?_
  have f5_0 : fb L 5 0 = s.val := (l24 5 0 (by decide)).trans (by unfold fb; omega)
  have f39_7 : fb L 39 7 = 0 := (l40 39 7 (by decide)).trans (by unfold fb; omega)
  have s6_6 : fb L 6 6 = 0 := (l24 6 6 (by decide)).trans (by unfold fb; omega)
  refine Eq.trans (b := fin (do let d ← oP (fb L 47 40); let s ← fin64 (fb L 5 0); pure (.fqry h d s)) ((fb L 39 7))) ?_ ?_
  · unfold decodeFld; simp only [s6_6]; rfl
  · simp only [g1, f5_0, f39_7, oP_byte, fin64_val, hw, ok_bind]
    rfl
theorem fqryAnc (h : Gd) (d : Opnd) (s : Fin 64) : Statement (.fqryAnc h d s) := by
  intro hw quay hq w hE; obtain rfl := Option.some.inj hE
  have hw : (d.spanOk 2) = true := hw
  have k0 := d.byte_lt; have k1 := s.isLt
  obtain ⟨L, hL⟩ : ∃ L, d.byte * 2 ^ 40 + 0 * 2 ^ 32 + 0 * 2 ^ 24 + (s.val + 64) = L := ⟨_, rfl⟩
  obtain ⟨g0, g1, g2, g3, l24, l32, l40⟩ := fieldsX (by omega) (by omega) (by omega) (by omega) hL
  refine Eq.trans (b := decodeFld 6 3 h L) (by subst hL; exact decodeWord_fld quay (by decide) (by decide) g0) ?_
  have f5_0 : fb L 5 0 = s.val := (l24 5 0 (by decide)).trans (by unfold fb; omega)
  have f39_7 : fb L 39 7 = 0 := (l40 39 7 (by decide)).trans (by unfold fb; omega)
  have s6_6 : fb L 6 6 = 1 := (l24 6 6 (by decide)).trans (by unfold fb; omega)
  refine Eq.trans (b := fin (do let d ← oP (fb L 47 40); let s ← fin64 (fb L 5 0); pure (.fqryAnc h d s)) ((fb L 39 7))) ?_ ?_
  · unfold decodeFld; simp only [s6_6]; rfl
  · simp only [g1, f5_0, f39_7, oP_byte, fin64_val, hw, ok_bind]
    rfl
theorem hld (h : Gd) (d a : Opnd) (s : Fin 64) (hops : Fin 16) (em : Empty) (pred : Option (Fin 8)) : Statement (.hld h d a s hops em pred) := by
  intro hw quay hq w hE; obtain rfl := Option.some.inj hE
  have hw : (!d.isG && a.spanOk 2 && decide (hops.val ≤ 8)) = true := hw
  simp only [Bool.and_eq_true, Bool.or_eq_true, Bool.not_eq_true', decide_eq_true_eq, bne_iff_ne, beq_iff_eq, ne_eq] at hw
  have k0 := d.byte_lt; have k1 := a.byte_lt; have k2 := em.code_lt; have k3 := s.isLt; have k4 := hops.isLt; have k5 := predByte_lt pred
  have kp : predCode pred = 0 ∨ predCode pred = 4096 := by cases pred <;> simp [predCode]
  obtain ⟨L, hL⟩ : ∃ L, d.byte * 2 ^ 40 + a.byte * 2 ^ 32 + (predByte pred) * 2 ^ 24 + (s.val + hops.val * 64 + em.code * 1024 + predCode pred) = L := ⟨_, rfl⟩
  obtain ⟨g0, g1, g2, g3, l24, l32, l40⟩ := fieldsX (by omega) (by omega) (by omega) (by omega) hL
  refine Eq.trans (b := decodeFld 8 3 h L) (by subst hL; exact decodeWord_fld quay (by decide) (by decide) g0) ?_
  have f5_0 : fb L 5 0 = s.val := (l24 5 0 (by decide)).trans (by unfold fb; omega)
  have f9_6 : fb L 9 6 = hops.val := (l24 9 6 (by decide)).trans (by unfold fb; omega)
  have f11_10 : fb L 11 10 = em.code := (l24 11 10 (by decide)).trans (by unfold fb; omega)
  have f12_12 : fb L 12 12 = predCode pred / 4096 := (l24 12 12 (by decide)).trans (by unfold fb; omega)
  have f23_13 : fb L 23 13 = 0 := (l24 23 13 (by decide)).trans (by unfold fb; omega)
  have fu : (if predCode pred / 4096 = 0 then predByte pred else 0) = 0 := by
    cases pred with
    | none => rfl
    | some p => exact if_neg (by show ¬ 4096 / 4096 = 0; decide)
  show fin (do let d ← oVZ (fb L 47 40); let a ← oP (fb L 39 32); let s ← fin64 (fb L 5 0); let hops ← hopsC (fb L 9 6); let em ← emptyC (fb L 11 10); let pred ← predO L; pure (.hld h d a s hops em pred)) ((fb L 23 13) + (if fb L 12 12 = 0 then fb L 31 24 else 0)) = _
  simp only [g1, g2, f5_0, f9_6, f11_10, f12_12, g3, f23_13, fu, oVZ_byte, oP_byte, fin64_val, hopsC_val, emptyC_code, predO_code f12_12 g3, hw, ok_bind]
  rfl
theorem hres (h : Gd) (d a : Opnd) (s : Fin 64) (hops : Fin 16) (em : Empty) (pred : Option (Fin 8)) : Statement (.hres h d a s hops em pred) := by
  intro hw quay hq w hE; obtain rfl := Option.some.inj hE
  have hw : (d.spanOk 4 && !d.isG && a.spanOk 2 && decide (hops.val ≤ 8)) = true := hw
  simp only [Bool.and_eq_true, Bool.or_eq_true, Bool.not_eq_true', decide_eq_true_eq, bne_iff_ne, beq_iff_eq, ne_eq] at hw
  have k0 := d.byte_lt; have k1 := a.byte_lt; have k2 := em.code_lt; have k3 := s.isLt; have k4 := hops.isLt; have k5 := predByte_lt pred
  have kp : predCode pred = 0 ∨ predCode pred = 4096 := by cases pred <;> simp [predCode]
  obtain ⟨L, hL⟩ : ∃ L, d.byte * 2 ^ 40 + a.byte * 2 ^ 32 + (predByte pred) * 2 ^ 24 + (s.val + hops.val * 64 + em.code * 1024 + predCode pred) = L := ⟨_, rfl⟩
  obtain ⟨g0, g1, g2, g3, l24, l32, l40⟩ := fieldsX (by omega) (by omega) (by omega) (by omega) hL
  refine Eq.trans (b := decodeFld 9 3 h L) (by subst hL; exact decodeWord_fld quay (by decide) (by decide) g0) ?_
  have f5_0 : fb L 5 0 = s.val := (l24 5 0 (by decide)).trans (by unfold fb; omega)
  have f9_6 : fb L 9 6 = hops.val := (l24 9 6 (by decide)).trans (by unfold fb; omega)
  have f11_10 : fb L 11 10 = em.code := (l24 11 10 (by decide)).trans (by unfold fb; omega)
  have f12_12 : fb L 12 12 = predCode pred / 4096 := (l24 12 12 (by decide)).trans (by unfold fb; omega)
  have f23_13 : fb L 23 13 = 0 := (l24 23 13 (by decide)).trans (by unfold fb; omega)
  have fu : (if predCode pred / 4096 = 0 then predByte pred else 0) = 0 := by
    cases pred with
    | none => rfl
    | some p => exact if_neg (by show ¬ 4096 / 4096 = 0; decide)
  show fin (do let d ← oVB4 (fb L 47 40); let a ← oP (fb L 39 32); let s ← fin64 (fb L 5 0); let hops ← hopsC (fb L 9 6); let em ← emptyC (fb L 11 10); let pred ← predO L; pure (.hres h d a s hops em pred)) ((fb L 23 13) + (if fb L 12 12 = 0 then fb L 31 24 else 0)) = _
  simp only [g1, g2, f5_0, f9_6, f11_10, f12_12, g3, f23_13, fu, oVB4_byte, oP_byte, fin64_val, hopsC_val, emptyC_code, predO_code f12_12 g3, hw, ok_bind]
  rfl
theorem fopenInstall (op : Nat) : Statement (.fopenInstall op) := fun _ _ _ _ h => (Option.some_ne_none _ h.symm).elim
theorem fsealAck (op : Nat) : Statement (.fsealAck op) := fun _ _ _ _ h => (Option.some_ne_none _ h.symm).elim
theorem fcompComplete (op : Nat) (cells : List Nat) : Statement (.fcompComplete op cells) := fun _ _ _ _ h => (Option.some_ne_none _ h.symm).elim
theorem finvRetirePoint (op : Nat) : Statement (.finvRetirePoint op) := fun _ _ _ _ h => (Option.some_ne_none _ h.symm).elim
theorem finvComplete (op : Nat) : Statement (.finvComplete op) := fun _ _ _ _ h => (Option.some_ne_none _ h.symm).elim
theorem frelComplete (op : Nat) : Statement (.frelComplete op) := fun _ _ _ _ h => (Option.some_ne_none _ h.symm).elim
theorem walkReread (w : Nat) : Statement (.walkReread w) := fun _ _ _ _ h => (Option.some_ne_none _ h.symm).elim
theorem walkEnd (w : Nat) : Statement (.walkEnd w) := fun _ _ _ _ h => (Option.some_ne_none _ h.symm).elim
theorem spview (h : Gd) (a b : Opnd) : Statement (.spview h a b) := by
  intro hw quay hq w hE; obtain rfl := Option.some.inj hE
  have hw : (a.spanOk 2) = true := hw
  have k0 := a.byte_lt; have k1 := b.byte_lt
  obtain ⟨L, hL⟩ : ∃ L, 0 * 2 ^ 40 + a.byte * 2 ^ 32 + b.byte * 2 ^ 24 + 0 = L := ⟨_, rfl⟩
  obtain ⟨g0, g1, g2, g3, l24, l32, l40⟩ := fieldsX (by omega) (by omega) (by omega) (by omega) hL
  refine Eq.trans (b := decodeSpl 0 3 h L) (by subst hL; exact decodeWord_spl quay (by decide) (by decide) g0) ?_
  have f23_0 : fb L 23 0 = 0 := (l24 23 0 (by decide)).trans (by unfold fb; omega)
  show fin (do let a ← oP (fb L 39 32); let b ← o32 (fb L 31 24); pure (.spview h a b)) ((fb L 23 0) + (fb L 47 40)) = _
  simp only [g2, g3, f23_0, g1, oP_byte, o32_byte, hw, ok_bind]
  rfl
theorem spbegin (h : Gd) (a : Opnd) (q : Option (Fin 8)) : Statement (.spbegin h a q) := by
  intro hw quay hq w hE; obtain rfl := Option.some.inj hE
  have hw : (a.spanOk 2) = true := hw
  have k0 := a.byte_lt; have k1 := qbCode_lt q
  obtain ⟨L, hL⟩ : ∃ L, 0 * 2 ^ 40 + a.byte * 2 ^ 32 + (qbCode q) * 2 ^ 24 + 0 = L := ⟨_, rfl⟩
  obtain ⟨g0, g1, g2, g3, l24, l32, l40⟩ := fieldsX (by omega) (by omega) (by omega) (by omega) hL
  refine Eq.trans (b := decodeSpl 1 3 h L) (by subst hL; exact decodeWord_spl quay (by decide) (by decide) g0) ?_
  have f23_0 : fb L 23 0 = 0 := (l24 23 0 (by decide)).trans (by unfold fb; omega)
  show fin (do let a ← oP (fb L 39 32); let q ← qbO (fb L 31 24); pure (.spbegin h a q)) ((fb L 23 0) + (fb L 47 40)) = _
  simp only [g2, g3, f23_0, g1, oP_byte, qbO_code, hw, ok_bind]
  rfl
theorem spsub (h : Gd) (a b : Opnd) : Statement (.spsub h a b) := by
  intro hw quay hq w hE; obtain rfl := Option.some.inj hE
  have hw : (a.spanOk 2) = true := hw
  have k0 := a.byte_lt; have k1 := b.byte_lt
  obtain ⟨L, hL⟩ : ∃ L, 0 * 2 ^ 40 + a.byte * 2 ^ 32 + b.byte * 2 ^ 24 + 0 = L := ⟨_, rfl⟩
  obtain ⟨g0, g1, g2, g3, l24, l32, l40⟩ := fieldsX (by omega) (by omega) (by omega) (by omega) hL
  refine Eq.trans (b := decodeSpl 2 3 h L) (by subst hL; exact decodeWord_spl quay (by decide) (by decide) g0) ?_
  have f23_0 : fb L 23 0 = 0 := (l24 23 0 (by decide)).trans (by unfold fb; omega)
  show fin (do let a ← oP (fb L 39 32); let b ← o32 (fb L 31 24); pure (.spsub h a b)) ((fb L 23 0) + (fb L 47 40)) = _
  simp only [g2, g3, f23_0, g1, oP_byte, o32_byte, hw, ok_bind]
  rfl
theorem spend (h : Gd) : Statement (.spend h) := by
  intro hw quay hq w hE; obtain rfl := Option.some.inj hE
  obtain ⟨L, hL⟩ : ∃ L, 0 * 2 ^ 40 + 0 * 2 ^ 32 + 0 * 2 ^ 24 + 0 = L := ⟨_, rfl⟩
  obtain ⟨g0, g1, g2, g3, l24, l32, l40⟩ := fieldsX (by omega) (by omega) (by omega) (by omega) hL
  refine Eq.trans (b := decodeSpl 3 3 h L) (by subst hL; exact decodeWord_spl quay (by decide) (by decide) g0) ?_
  have f47_1 : fb L 47 1 = 0 := fb_small (by omega)
  have s0_0 : fb L 0 0 = 0 := (l24 0 0 (by decide)).trans (by unfold fb; omega)
  refine Eq.trans (b := fin (do pure (.spend h)) ((fb L 47 1))) ?_ ?_
  · unfold decodeSpl; simp only [s0_0]; rfl
  · simp only [f47_1, ok_bind]
    rfl
theorem spendAbort (h : Gd) : Statement (.spendAbort h) := by
  intro hw quay hq w hE; obtain rfl := Option.some.inj hE
  obtain ⟨L, hL⟩ : ∃ L, 0 * 2 ^ 40 + 0 * 2 ^ 32 + 0 * 2 ^ 24 + 1 = L := ⟨_, rfl⟩
  obtain ⟨g0, g1, g2, g3, l24, l32, l40⟩ := fieldsX (by omega) (by omega) (by omega) (by omega) hL
  refine Eq.trans (b := decodeSpl 3 3 h L) (by subst hL; exact decodeWord_spl quay (by decide) (by decide) g0) ?_
  have f47_1 : fb L 47 1 = 0 := fb_small (by omega)
  have s0_0 : fb L 0 0 = 1 := (l24 0 0 (by decide)).trans (by unfold fb; omega)
  refine Eq.trans (b := fin (do pure (.spendAbort h)) ((fb L 47 1))) ?_ ?_
  · unfold decodeSpl; simp only [s0_0]; rfl
  · simp only [f47_1, ok_bind]
    rfl
theorem spbwd (h : Gd) (a b : Opnd) : Statement (.spbwd h a b) := by
  intro hw quay hq w hE; obtain rfl := Option.some.inj hE
  have hw : (a.spanOk 2 && b.spanOk 2) = true := hw
  simp only [Bool.and_eq_true, Bool.or_eq_true, Bool.not_eq_true', decide_eq_true_eq, bne_iff_ne, beq_iff_eq, ne_eq] at hw
  have k0 := a.byte_lt; have k1 := b.byte_lt
  obtain ⟨L, hL⟩ : ∃ L, 0 * 2 ^ 40 + a.byte * 2 ^ 32 + b.byte * 2 ^ 24 + 0 = L := ⟨_, rfl⟩
  obtain ⟨g0, g1, g2, g3, l24, l32, l40⟩ := fieldsX (by omega) (by omega) (by omega) (by omega) hL
  refine Eq.trans (b := decodeSpl 4 3 h L) (by subst hL; exact decodeWord_spl quay (by decide) (by decide) g0) ?_
  have f23_0 : fb L 23 0 = 0 := (l24 23 0 (by decide)).trans (by unfold fb; omega)
  show fin (do let a ← oP (fb L 39 32); let b ← oP (fb L 31 24); pure (.spbwd h a b)) ((fb L 23 0) + (fb L 47 40)) = _
  simp only [g2, g3, f23_0, g1, oP_byte, hw, ok_bind]
  rfl
theorem spred (h : Gd) (a b : Opnd) : Statement (.spred h a b) := by
  intro hw quay hq w hE; obtain rfl := Option.some.inj hE
  have hw : (a.spanOk 2 && b.spanOk 2) = true := hw
  simp only [Bool.and_eq_true, Bool.or_eq_true, Bool.not_eq_true', decide_eq_true_eq, bne_iff_ne, beq_iff_eq, ne_eq] at hw
  have k0 := a.byte_lt; have k1 := b.byte_lt
  obtain ⟨L, hL⟩ : ∃ L, 0 * 2 ^ 40 + a.byte * 2 ^ 32 + b.byte * 2 ^ 24 + 0 = L := ⟨_, rfl⟩
  obtain ⟨g0, g1, g2, g3, l24, l32, l40⟩ := fieldsX (by omega) (by omega) (by omega) (by omega) hL
  refine Eq.trans (b := decodeSpl 5 3 h L) (by subst hL; exact decodeWord_spl quay (by decide) (by decide) g0) ?_
  have f23_0 : fb L 23 0 = 0 := (l24 23 0 (by decide)).trans (by unfold fb; omega)
  show fin (do let a ← oP (fb L 39 32); let b ← oP (fb L 31 24); pure (.spred h a b)) ((fb L 23 0) + (fb L 47 40)) = _
  simp only [g2, g3, f23_0, g1, oP_byte, hw, ok_bind]
  rfl
theorem spqry (h : Gd) (d : Opnd) : Statement (.spqry h d) := by
  intro hw quay hq w hE; obtain rfl := Option.some.inj hE
  have k0 := d.byte_lt
  obtain ⟨L, hL⟩ : ∃ L, d.byte * 2 ^ 40 + 0 * 2 ^ 32 + 0 * 2 ^ 24 + 0 = L := ⟨_, rfl⟩
  obtain ⟨g0, g1, g2, g3, l24, l32, l40⟩ := fieldsX (by omega) (by omega) (by omega) (by omega) hL
  refine Eq.trans (b := decodeSpl 6 3 h L) (by subst hL; exact decodeWord_spl quay (by decide) (by decide) g0) ?_
  have f39_0 : fb L 39 0 = 0 := (l40 39 0 (by decide)).trans (by unfold fb; omega)
  show fin (do let d ← o32 (fb L 47 40); pure (.spqry h d)) ((fb L 39 0)) = _
  simp only [g1, f39_0, o32_byte, ok_bind]
  rfl
theorem spviewOperation (cx : Nat) : Statement (.spviewOperation cx) := fun _ _ _ _ h => (Option.some_ne_none _ h.symm).elim
theorem spbeginOperation (cx : Nat) : Statement (.spbeginOperation cx) := fun _ _ _ _ h => (Option.some_ne_none _ h.symm).elim
theorem spsubOperation (cx : Nat) : Statement (.spsubOperation cx) := fun _ _ _ _ h => (Option.some_ne_none _ h.symm).elim
theorem spendOperation (cx : Nat) : Statement (.spendOperation cx) := fun _ _ _ _ h => (Option.some_ne_none _ h.symm).elim
theorem spendAbortOperation (cx : Nat) : Statement (.spendAbortOperation cx) := fun _ _ _ _ h => (Option.some_ne_none _ h.symm).elim
theorem spbwdOperation (cx : Nat) : Statement (.spbwdOperation cx) := fun _ _ _ _ h => (Option.some_ne_none _ h.symm).elim
theorem spredOperation (cx : Nat) : Statement (.spredOperation cx) := fun _ _ _ _ h => (Option.some_ne_none _ h.symm).elim
theorem tileRecordPush (cx n : Nat) : Statement (.tileRecordPush cx n) := fun _ _ _ _ h => (Option.some_ne_none _ h.symm).elim
theorem bra (h : Gd) (imm : Word) : Statement (.bra h imm) := by
  intro hw quay hq w hE; obtain rfl := Option.some.inj hE
  have k0 := imm.isLt
  obtain ⟨L, hL⟩ : ∃ L, 0 * 2 ^ 40 + 0 * 2 ^ 32 + imm.toNat = L := ⟨_, rfl⟩
  obtain ⟨g0, g1, g2, l32, l40⟩ := fieldsI (by omega) (by omega) (by omega) hL
  refine Eq.trans (b := decodeCtl 0 1 h L) (by subst hL; exact decodeWord_ctl quay (by decide) (by decide) g0) ?_
  have f31_0 : fb L 31 0 = imm.toNat := (l32 31 0 (by decide)).trans (by unfold fb; omega)
  have f47_32 : fb L 47 32 = 0 := fb_small (by omega)
  show fin (do let imm ← word (fb L 31 0); pure (.bra h imm)) ((fb L 47 32)) = _
  simp only [f31_0, f47_32, word_toNat, ok_bind]
  rfl
theorem brx (h : Gd) (a : Opnd) : Statement (.brx h a) := by
  intro hw quay hq w hE; obtain rfl := Option.some.inj hE
  have hw : (a.spanOk 2) = true := hw
  have k0 := a.byte_lt
  obtain ⟨L, hL⟩ : ∃ L, 0 * 2 ^ 40 + a.byte * 2 ^ 32 + 0 * 2 ^ 24 + 0 * 2 ^ 16 + 0 = L := ⟨_, rfl⟩
  obtain ⟨g0, g1, g2, g3, g4, l16, l24, l32, l40⟩ := fieldsR (by omega) (by omega) (by omega) (by omega) (by omega) hL
  refine Eq.trans (b := decodeCtl 1 0 h L) (by subst hL; exact decodeWord_ctl quay (by decide) (by decide) g0) ?_
  have f31_0 : fb L 31 0 = 0 := (l32 31 0 (by decide)).trans (by unfold fb; omega)
  show fin (do let a ← oP (fb L 39 32); pure (.brx h a)) ((fb L 31 0) + (fb L 47 40)) = _
  simp only [g2, f31_0, g1, oP_byte, hw, ok_bind]
  rfl
theorem call (h : Gd) (d : Opnd) (imm : Word) : Statement (.call h d imm) := by
  intro hw quay hq w hE; obtain rfl := Option.some.inj hE
  have hw : (d.spanOk 2 && !d.isG) = true := hw
  simp only [Bool.and_eq_true, Bool.or_eq_true, Bool.not_eq_true', decide_eq_true_eq, bne_iff_ne, beq_iff_eq, ne_eq] at hw
  have k0 := d.byte_lt; have k1 := imm.isLt
  obtain ⟨L, hL⟩ : ∃ L, d.byte * 2 ^ 40 + 0 * 2 ^ 32 + imm.toNat = L := ⟨_, rfl⟩
  obtain ⟨g0, g1, g2, l32, l40⟩ := fieldsI (by omega) (by omega) (by omega) hL
  refine Eq.trans (b := decodeCtl 2 1 h L) (by subst hL; exact decodeWord_ctl quay (by decide) (by decide) g0) ?_
  have f31_0 : fb L 31 0 = imm.toNat := (l32 31 0 (by decide)).trans (by unfold fb; omega)
  show fin (do let d ← oVP (fb L 47 40); let imm ← word (fb L 31 0); pure (.call h d imm)) ((fb L 39 32)) = _
  simp only [g1, f31_0, g2, oVP_byte, word_toNat, hw, ok_bind]
  rfl
theorem ret (h : Gd) (a : Opnd) : Statement (.ret h a) := by
  intro hw quay hq w hE; obtain rfl := Option.some.inj hE
  have hw : (a.spanOk 2) = true := hw
  have k0 := a.byte_lt
  obtain ⟨L, hL⟩ : ∃ L, 0 * 2 ^ 40 + a.byte * 2 ^ 32 + 0 * 2 ^ 24 + 0 * 2 ^ 16 + 0 = L := ⟨_, rfl⟩
  obtain ⟨g0, g1, g2, g3, g4, l16, l24, l32, l40⟩ := fieldsR (by omega) (by omega) (by omega) (by omega) (by omega) hL
  refine Eq.trans (b := decodeCtl 3 0 h L) (by subst hL; exact decodeWord_ctl quay (by decide) (by decide) g0) ?_
  have f31_0 : fb L 31 0 = 0 := (l32 31 0 (by decide)).trans (by unfold fb; omega)
  show fin (do let a ← oP (fb L 39 32); pure (.ret h a)) ((fb L 31 0) + (fb L 47 40)) = _
  simp only [g2, f31_0, g1, oP_byte, hw, ok_bind]
  rfl
theorem exit (h : Gd) : Statement (.exit h) := by
  intro hw quay hq w hE; obtain rfl := Option.some.inj hE
  obtain ⟨L, hL⟩ : ∃ L, 0 * 2 ^ 40 + 0 * 2 ^ 32 + 0 * 2 ^ 24 + 0 * 2 ^ 16 + 0 = L := ⟨_, rfl⟩
  obtain ⟨g0, g1, g2, g3, g4, l16, l24, l32, l40⟩ := fieldsR (by omega) (by omega) (by omega) (by omega) (by omega) hL
  refine Eq.trans (b := decodeCtl 4 0 h L) (by subst hL; exact decodeWord_ctl quay (by decide) (by decide) g0) ?_
  have f47_0 : fb L 47 0 = 0 := fb_small (by omega)
  show fin (do pure (.exit h)) ((fb L 47 0)) = _
  simp only [f47_0, ok_bind]
  rfl
theorem waitc (h : Gd) (wl ws wc wt : Fin 16) : Statement (.waitc h wl ws wc wt) := by
  intro hw quay hq w hE; obtain rfl := Option.some.inj hE
  have k0 := wl.isLt; have k1 := ws.isLt; have k2 := wc.isLt; have k3 := wt.isLt
  obtain ⟨L, hL⟩ : ∃ L, 0 * 2 ^ 40 + 0 * 2 ^ 32 + (wl.val + ws.val * 16 + wc.val * 256 + wt.val * 4096) = L := ⟨_, rfl⟩
  obtain ⟨g0, g1, g2, l32, l40⟩ := fieldsI (by omega) (by omega) (by omega) hL
  refine Eq.trans (b := decodeCtl 6 1 h L) (by subst hL; exact decodeWord_ctl quay (by decide) (by decide) g0) ?_
  have f3_0 : fb L 3 0 = wl.val := (l32 3 0 (by decide)).trans (by unfold fb; omega)
  have f7_4 : fb L 7 4 = ws.val := (l32 7 4 (by decide)).trans (by unfold fb; omega)
  have f11_8 : fb L 11 8 = wc.val := (l32 11 8 (by decide)).trans (by unfold fb; omega)
  have f15_12 : fb L 15 12 = wt.val := (l32 15 12 (by decide)).trans (by unfold fb; omega)
  have f47_16 : fb L 47 16 = 0 := fb_small (by omega)
  show fin (do let wl ← fin16 (fb L 3 0); let ws ← fin16 (fb L 7 4); let wc ← fin16 (fb L 11 8); let wt ← fin16 (fb L 15 12); pure (.waitc h wl ws wc wt)) ((fb L 47 16)) = _
  simp only [f3_0, f7_4, f11_8, f15_12, f47_16, fin16_val, ok_bind]
  rfl
theorem sleep (h : Gd) (n : Word) : Statement (.sleep h n) := by
  intro hw quay hq w hE; obtain rfl := Option.some.inj hE
  have k0 := n.isLt
  obtain ⟨L, hL⟩ : ∃ L, 0 * 2 ^ 40 + 0 * 2 ^ 32 + n.toNat = L := ⟨_, rfl⟩
  obtain ⟨g0, g1, g2, l32, l40⟩ := fieldsI (by omega) (by omega) (by omega) hL
  refine Eq.trans (b := decodeCtl 7 1 h L) (by subst hL; exact decodeWord_ctl quay (by decide) (by decide) g0) ?_
  have f31_0 : fb L 31 0 = n.toNat := (l32 31 0 (by decide)).trans (by unfold fb; omega)
  have f47_32 : fb L 47 32 = 0 := fb_small (by omega)
  show fin (do let n ← word (fb L 31 0); pure (.sleep h n)) ((fb L 47 32)) = _
  simp only [f31_0, f47_32, word_toNat, ok_bind]
  rfl
theorem sleepDeadline (t : Nat) : Statement (.sleepDeadline t) := fun _ _ _ _ h => (Option.some_ne_none _ h.symm).elim
theorem sleepu (h : Gd) (k : Fin 8) : Statement (.sleepu h k) := by
  intro hw quay hq w hE; obtain rfl := Option.some.inj hE
  have k0 := k.isLt
  obtain ⟨L, hL⟩ : ∃ L, 0 * 2 ^ 40 + (192 + k.val) * 2 ^ 32 + 0 * 2 ^ 24 + 0 * 2 ^ 16 + 0 = L := ⟨_, rfl⟩
  obtain ⟨g0, g1, g2, g3, g4, l16, l24, l32, l40⟩ := fieldsR (by omega) (by omega) (by omega) (by omega) (by omega) hL
  refine Eq.trans (b := decodeCtl 8 0 h L) (by subst hL; exact decodeWord_ctl quay (by decide) (by decide) g0) ?_
  have f31_0 : fb L 31 0 = 0 := (l32 31 0 (by decide)).trans (by unfold fb; omega)
  show fin (do let k ← tok (fb L 39 32); pure (.sleepu h k)) ((fb L 31 0) + (fb L 47 40)) = _
  simp only [g2, f31_0, g1, tok_val, ok_bind]
  rfl
theorem missedPromise (t : Nat) : Statement (.missedPromise t) := fun _ _ _ _ h => (Option.some_ne_none _ h.symm).elim
theorem yieldI (h : Gd) : Statement (.yieldI h) := by
  intro hw quay hq w hE; obtain rfl := Option.some.inj hE
  obtain ⟨L, hL⟩ : ∃ L, 0 * 2 ^ 40 + 0 * 2 ^ 32 + 0 * 2 ^ 24 + 0 * 2 ^ 16 + 0 = L := ⟨_, rfl⟩
  obtain ⟨g0, g1, g2, g3, g4, l16, l24, l32, l40⟩ := fieldsR (by omega) (by omega) (by omega) (by omega) (by omega) hL
  refine Eq.trans (b := decodeCtl 9 0 h L) (by subst hL; exact decodeWord_ctl quay (by decide) (by decide) g0) ?_
  have f47_0 : fb L 47 0 = 0 := fb_small (by omega)
  show fin (do pure (.yieldI h)) ((fb L 47 0)) = _
  simp only [f47_0, ok_bind]
  rfl
theorem bar (h : Gd) (b : Fin 16) : Statement (.bar h b) := by
  intro hw quay hq w hE; obtain rfl := Option.some.inj hE
  have k0 := b.isLt
  obtain ⟨L, hL⟩ : ∃ L, 0 * 2 ^ 40 + 0 * 2 ^ 32 + b.val = L := ⟨_, rfl⟩
  obtain ⟨g0, g1, g2, l32, l40⟩ := fieldsI (by omega) (by omega) (by omega) hL
  refine Eq.trans (b := decodeCtl 10 1 h L) (by subst hL; exact decodeWord_ctl quay (by decide) (by decide) g0) ?_
  have f3_0 : fb L 3 0 = b.val := (l32 3 0 (by decide)).trans (by unfold fb; omega)
  have f47_4 : fb L 47 4 = 0 := fb_small (by omega)
  show fin (do let b ← fin16 (fb L 3 0); pure (.bar h b)) ((fb L 47 4)) = _
  simp only [f3_0, f47_4, fin16_val, ok_bind]
  rfl
theorem arrive (h : Gd) (k : Fin 8) (b : Fin 4) : Statement (.arrive h k b) := by
  intro hw quay hq w hE; obtain rfl := Option.some.inj hE
  have k0 := k.isLt; have k1 := b.isLt
  obtain ⟨L, hL⟩ : ∃ L, (192 + k.val) * 2 ^ 40 + 0 * 2 ^ 32 + 0 * 2 ^ 24 + 0 * 2 ^ 16 + b.val = L := ⟨_, rfl⟩
  obtain ⟨g0, g1, g2, g3, g4, l16, l24, l32, l40⟩ := fieldsR (by omega) (by omega) (by omega) (by omega) (by omega) hL
  refine Eq.trans (b := decodeCtl 11 0 h L) (by subst hL; exact decodeWord_ctl quay (by decide) (by decide) g0) ?_
  have f1_0 : fb L 1 0 = b.val := (l16 1 0 (by decide)).trans (by unfold fb; omega)
  have f39_2 : fb L 39 2 = 0 := (l40 39 2 (by decide)).trans (by unfold fb; omega)
  show fin (do let k ← tok (fb L 47 40); let b ← fin4 (fb L 1 0); pure (.arrive h k b)) ((fb L 39 2)) = _
  simp only [g1, f1_0, f39_2, tok_val, fin4_val, ok_bind]
  rfl
theorem bwait (h : Gd) (k : Fin 8) : Statement (.bwait h k) := by
  intro hw quay hq w hE; obtain rfl := Option.some.inj hE
  have k0 := k.isLt
  obtain ⟨L, hL⟩ : ∃ L, 0 * 2 ^ 40 + (192 + k.val) * 2 ^ 32 + 0 * 2 ^ 24 + 0 * 2 ^ 16 + 0 = L := ⟨_, rfl⟩
  obtain ⟨g0, g1, g2, g3, g4, l16, l24, l32, l40⟩ := fieldsR (by omega) (by omega) (by omega) (by omega) (by omega) hL
  refine Eq.trans (b := decodeCtl 12 0 h L) (by subst hL; exact decodeWord_ctl quay (by decide) (by decide) g0) ?_
  have f31_0 : fb L 31 0 = 0 := (l32 31 0 (by decide)).trans (by unfold fb; omega)
  show fin (do let k ← tok (fb L 39 32); pure (.bwait h k)) ((fb L 31 0) + (fb L 47 40)) = _
  simp only [g2, f31_0, g1, tok_val, ok_bind]
  rfl
theorem qpush (h : Gd) (q : Fin 8) (a : Opnd) (sc : Scope) : Statement (.qpush h q a sc) := by
  intro hw quay hq w hE; obtain rfl := Option.some.inj hE
  have hw : (!a.isG) = true := hw
  simp only [Bool.and_eq_true, Bool.or_eq_true, Bool.not_eq_true', decide_eq_true_eq, bne_iff_ne, beq_iff_eq, ne_eq] at hw
  have k0 := a.byte_lt; have k1 := sc.code_lt; have k2 := q.isLt
  obtain ⟨L, hL⟩ : ∃ L, (200 + q.val) * 2 ^ 40 + a.byte * 2 ^ 32 + 0 * 2 ^ 24 + 0 * 2 ^ 16 + sc.code = L := ⟨_, rfl⟩
  obtain ⟨g0, g1, g2, g3, g4, l16, l24, l32, l40⟩ := fieldsR (by omega) (by omega) (by omega) (by omega) (by omega) hL
  refine Eq.trans (b := decodeCtl 16 0 h L) (by subst hL; exact decodeWord_ctl quay (by decide) (by decide) g0) ?_
  have f1_0 : fb L 1 0 = sc.code := (l16 1 0 (by decide)).trans (by unfold fb; omega)
  have f31_2 : fb L 31 2 = 0 := (l32 31 2 (by decide)).trans (by unfold fb; omega)
  show fin (do let q ← qb (fb L 47 40); let a ← oVZ (fb L 39 32); let sc ← scopeC (fb L 1 0); pure (.qpush h q a sc)) ((fb L 31 2)) = _
  simp only [g1, g2, f1_0, f31_2, qb_val, oVZ_byte, scopeC_code, hw, ok_bind]
  rfl
theorem qpop (h : Gd) (d : Opnd) (q : Fin 8) (st : Opnd) (sc : Scope) : Statement (.qpop h d q st sc) := by
  intro hw quay hq w hE; obtain rfl := Option.some.inj hE
  have hw : (!d.isG) = true := hw
  simp only [Bool.and_eq_true, Bool.or_eq_true, Bool.not_eq_true', decide_eq_true_eq, bne_iff_ne, beq_iff_eq, ne_eq] at hw
  have k0 := d.byte_lt; have k1 := st.byte_lt; have k2 := sc.code_lt; have k3 := q.isLt
  obtain ⟨L, hL⟩ : ∃ L, d.byte * 2 ^ 40 + (200 + q.val) * 2 ^ 32 + st.byte * 2 ^ 24 + 0 * 2 ^ 16 + sc.code = L := ⟨_, rfl⟩
  obtain ⟨g0, g1, g2, g3, g4, l16, l24, l32, l40⟩ := fieldsR (by omega) (by omega) (by omega) (by omega) (by omega) hL
  refine Eq.trans (b := decodeCtl 17 0 h L) (by subst hL; exact decodeWord_ctl quay (by decide) (by decide) g0) ?_
  have f1_0 : fb L 1 0 = sc.code := (l16 1 0 (by decide)).trans (by unfold fb; omega)
  have f23_2 : fb L 23 2 = 0 := (l24 23 2 (by decide)).trans (by unfold fb; omega)
  show fin (do let d ← oVZ (fb L 47 40); let q ← qb (fb L 39 32); let st ← o32 (fb L 31 24); let sc ← scopeC (fb L 1 0); pure (.qpop h d q st sc)) ((fb L 23 2)) = _
  simp only [g1, g2, g3, f1_0, f23_2, oVZ_byte, qb_val, o32_byte, scopeC_code, hw, ok_bind]
  rfl
theorem qtry (h : Gd) (d : Opnd) (q : Fin 8) (st : Opnd) (sc : Scope) : Statement (.qtry h d q st sc) := by
  intro hw quay hq w hE; obtain rfl := Option.some.inj hE
  have hw : (!d.isG) = true := hw
  simp only [Bool.and_eq_true, Bool.or_eq_true, Bool.not_eq_true', decide_eq_true_eq, bne_iff_ne, beq_iff_eq, ne_eq] at hw
  have k0 := d.byte_lt; have k1 := st.byte_lt; have k2 := sc.code_lt; have k3 := q.isLt
  obtain ⟨L, hL⟩ : ∃ L, d.byte * 2 ^ 40 + (200 + q.val) * 2 ^ 32 + st.byte * 2 ^ 24 + 0 * 2 ^ 16 + sc.code = L := ⟨_, rfl⟩
  obtain ⟨g0, g1, g2, g3, g4, l16, l24, l32, l40⟩ := fieldsR (by omega) (by omega) (by omega) (by omega) (by omega) hL
  refine Eq.trans (b := decodeCtl 18 0 h L) (by subst hL; exact decodeWord_ctl quay (by decide) (by decide) g0) ?_
  have f1_0 : fb L 1 0 = sc.code := (l16 1 0 (by decide)).trans (by unfold fb; omega)
  have f23_2 : fb L 23 2 = 0 := (l24 23 2 (by decide)).trans (by unfold fb; omega)
  show fin (do let d ← oVZ (fb L 47 40); let q ← qb (fb L 39 32); let st ← o32 (fb L 31 24); let sc ← scopeC (fb L 1 0); pure (.qtry h d q st sc)) ((fb L 23 2)) = _
  simp only [g1, g2, g3, f1_0, f23_2, oVZ_byte, qb_val, o32_byte, scopeC_code, hw, ok_bind]
  rfl
theorem qclose (h : Gd) (q : Fin 8) : Statement (.qclose h q) := by
  intro hw quay hq w hE; obtain rfl := Option.some.inj hE
  have k0 := q.isLt
  obtain ⟨L, hL⟩ : ∃ L, 0 * 2 ^ 40 + (200 + q.val) * 2 ^ 32 + 0 * 2 ^ 24 + 0 * 2 ^ 16 + 0 = L := ⟨_, rfl⟩
  obtain ⟨g0, g1, g2, g3, g4, l16, l24, l32, l40⟩ := fieldsR (by omega) (by omega) (by omega) (by omega) (by omega) hL
  refine Eq.trans (b := decodeCtl 19 0 h L) (by subst hL; exact decodeWord_ctl quay (by decide) (by decide) g0) ?_
  have f31_0 : fb L 31 0 = 0 := (l32 31 0 (by decide)).trans (by unfold fb; omega)
  show fin (do let q ← qb (fb L 39 32); pure (.qclose h q)) ((fb L 31 0) + (fb L 47 40)) = _
  simp only [g2, f31_0, g1, qb_val, ok_bind]
  rfl
theorem qqry (h : Gd) (d : Opnd) (q : Fin 8) : Statement (.qqry h d q) := by
  intro hw quay hq w hE; obtain rfl := Option.some.inj hE
  have hw : (d.spanOk 2) = true := hw
  have k0 := d.byte_lt; have k1 := q.isLt
  obtain ⟨L, hL⟩ : ∃ L, d.byte * 2 ^ 40 + (200 + q.val) * 2 ^ 32 + 0 * 2 ^ 24 + 0 * 2 ^ 16 + 0 = L := ⟨_, rfl⟩
  obtain ⟨g0, g1, g2, g3, g4, l16, l24, l32, l40⟩ := fieldsR (by omega) (by omega) (by omega) (by omega) (by omega) hL
  refine Eq.trans (b := decodeCtl 20 0 h L) (by subst hL; exact decodeWord_ctl quay (by decide) (by decide) g0) ?_
  have f31_0 : fb L 31 0 = 0 := (l32 31 0 (by decide)).trans (by unfold fb; omega)
  show fin (do let d ← oP (fb L 47 40); let q ← qb (fb L 39 32); pure (.qqry h d q)) ((fb L 31 0)) = _
  simp only [g1, g2, f31_0, oP_byte, qb_val, hw, ok_bind]
  rfl
theorem bkpt (h : Gd) (imm : Word) : Statement (.bkpt h imm) := by
  intro hw quay hq w hE; obtain rfl := Option.some.inj hE
  have k0 := imm.isLt
  obtain ⟨L, hL⟩ : ∃ L, 0 * 2 ^ 40 + 0 * 2 ^ 32 + imm.toNat = L := ⟨_, rfl⟩
  obtain ⟨g0, g1, g2, l32, l40⟩ := fieldsI (by omega) (by omega) (by omega) hL
  refine Eq.trans (b := decodeCtl 24 1 h L) (by subst hL; exact decodeWord_ctl quay (by decide) (by decide) g0) ?_
  have f31_0 : fb L 31 0 = imm.toNat := (l32 31 0 (by decide)).trans (by unfold fb; omega)
  have f47_32 : fb L 47 32 = 0 := fb_small (by omega)
  show fin (do let imm ← word (fb L 31 0); pure (.bkpt h imm)) ((fb L 47 32)) = _
  simp only [f31_0, f47_32, word_toNat, ok_bind]
  rfl
theorem pushQueueStep (acc : Nat) : Statement (.pushQueueStep acc) := fun _ _ _ _ h => (Option.some_ne_none _ h.symm).elim
theorem stageTimerExpiry (gang st : Nat) : Statement (.stageTimerExpiry gang st) := fun _ _ _ _ h => (Option.some_ne_none _ h.symm).elim
theorem binLaunch (gang st : Nat) : Statement (.binLaunch gang st) := fun _ _ _ _ h => (Option.some_ne_none _ h.symm).elim
theorem cadenceBoundary (gang : Nat) : Statement (.cadenceBoundary gang) := fun _ _ _ _ h => (Option.some_ne_none _ h.symm).elim
theorem trap (h : Gd) (imm : Word) : Statement (.trap h imm) := by
  intro hw quay hq w hE; obtain rfl := Option.some.inj hE
  have k0 := imm.isLt
  obtain ⟨L, hL⟩ : ∃ L, 0 * 2 ^ 40 + 0 * 2 ^ 32 + imm.toNat = L := ⟨_, rfl⟩
  obtain ⟨g0, g1, g2, l32, l40⟩ := fieldsI (by omega) (by omega) (by omega) hL
  refine Eq.trans (b := decodeSys quay 0 1 h L) (by subst hL; exact decodeWord_sys quay (by decide) (by decide) g0) ?_
  have f31_0 : fb L 31 0 = imm.toNat := (l32 31 0 (by decide)).trans (by unfold fb; omega)
  have f47_32 : fb L 47 32 = 0 := fb_small (by omega)
  show fin (do let imm ← word (fb L 31 0); pure (.trap h imm)) ((fb L 47 32)) = _
  simp only [f31_0, f47_32, word_toNat, ok_bind]
  rfl
theorem tretResume (h : Gd) (x : TretArg) : Statement (.tretResume h x) := by
  cases x with
  | kernelLocal k =>
    intro hw quay hq w hE; obtain rfl := Option.some.inj hE
    cases quay with
    | true => exact absurd hq Bool.false_ne_true
    | false =>
      have k0 := bn_lt k
      obtain ⟨L, hL⟩ : ∃ L, 0 * 2 ^ 40 + 0 * 2 ^ 32 + 0 * 2 ^ 24 + 0 * 2 ^ 16 + (bn k * 8) = L := ⟨_, rfl⟩
      obtain ⟨g0, g1, g2, g3, g4, l16, l24, l32, l40⟩ := fieldsR (by omega) (by omega) (by omega) (by omega) (by omega) hL
      refine Eq.trans (b := decodeSys false 1 0 h L) (by subst hL; exact decodeWord_sys false (by decide) (by decide) g0) ?_
      have f3_3 : fb L 3 3 = bn k := (l16 3 3 (by decide)).trans (by unfold fb; omega)
      have f47_16 : fb L 47 16 = 0 := fb_small (by omega)
      have f15_4 : fb L 15 4 = 0 := (l16 15 4 (by decide)).trans (by unfold fb; omega)
      have fs : fb L 2 0 = 0 := (l16 2 0 (by decide)).trans (by unfold fb; omega)
      unfold decodeSys; simp only [fs]
      show fin (do let k ← bool (fb L 3 3); pure (.tretResume h (.kernelLocal k))) (fb L 47 16 + fb L 15 4) = _
      simp only [f3_3, f47_16, f15_4, bool_bn, ok_bind]
      rfl
  | quay d a =>
    intro hw quay hq w hE; obtain rfl := Option.some.inj hE
    cases quay with
    | false => exact absurd hq Bool.false_ne_true
    | true =>
      have hw : (a.spanOk 2) = true := hw
      have k0 := d.byte_lt; have k1 := a.byte_lt
      obtain ⟨L, hL⟩ : ∃ L, d.byte * 2 ^ 40 + a.byte * 2 ^ 32 + 0 * 2 ^ 24 + 0 * 2 ^ 16 + 0 = L := ⟨_, rfl⟩
      obtain ⟨g0, g1, g2, g3, g4, l16, l24, l32, l40⟩ := fieldsR (by omega) (by omega) (by omega) (by omega) (by omega) hL
      refine Eq.trans (b := decodeSys true 1 0 h L) (by subst hL; exact decodeWord_sys true (by decide) (by decide) g0) ?_
      have f31_16 : fb L 31 16 = 0 := (l32 31 16 (by decide)).trans (by unfold fb; omega)
      have f15_3 : fb L 15 3 = 0 := (l16 15 3 (by decide)).trans (by unfold fb; omega)
      have fs : fb L 2 0 = 0 := (l16 2 0 (by decide)).trans (by unfold fb; omega)
      unfold decodeSys; simp only [fs]
      show fin (do let d ← o32 (fb L 47 40); let a ← oP (fb L 39 32); pure (.tretResume h (.quay d a))) (fb L 31 16 + fb L 15 3) = _
      simp only [g1, g2, f31_16, f15_3, o32_byte, oP_byte, hw, ok_bind]
      rfl
theorem tretSkip (h : Gd) (x : TretArg) : Statement (.tretSkip h x) := by
  cases x with
  | kernelLocal k =>
    intro hw quay hq w hE; obtain rfl := Option.some.inj hE
    cases quay with
    | true => exact absurd hq Bool.false_ne_true
    | false =>
      have k0 := bn_lt k
      obtain ⟨L, hL⟩ : ∃ L, 0 * 2 ^ 40 + 0 * 2 ^ 32 + 0 * 2 ^ 24 + 0 * 2 ^ 16 + (bn k * 8 + 1) = L := ⟨_, rfl⟩
      obtain ⟨g0, g1, g2, g3, g4, l16, l24, l32, l40⟩ := fieldsR (by omega) (by omega) (by omega) (by omega) (by omega) hL
      refine Eq.trans (b := decodeSys false 1 0 h L) (by subst hL; exact decodeWord_sys false (by decide) (by decide) g0) ?_
      have f3_3 : fb L 3 3 = bn k := (l16 3 3 (by decide)).trans (by unfold fb; omega)
      have f47_16 : fb L 47 16 = 0 := fb_small (by omega)
      have f15_4 : fb L 15 4 = 0 := (l16 15 4 (by decide)).trans (by unfold fb; omega)
      have fs : fb L 2 0 = 1 := (l16 2 0 (by decide)).trans (by unfold fb; omega)
      unfold decodeSys; simp only [fs]
      show fin (do let k ← bool (fb L 3 3); pure (.tretSkip h (.kernelLocal k))) (fb L 47 16 + fb L 15 4) = _
      simp only [f3_3, f47_16, f15_4, bool_bn, ok_bind]
      rfl
  | quay d a =>
    intro hw quay hq w hE; obtain rfl := Option.some.inj hE
    cases quay with
    | false => exact absurd hq Bool.false_ne_true
    | true =>
      have hw : (a.spanOk 2) = true := hw
      have k0 := d.byte_lt; have k1 := a.byte_lt
      obtain ⟨L, hL⟩ : ∃ L, d.byte * 2 ^ 40 + a.byte * 2 ^ 32 + 0 * 2 ^ 24 + 0 * 2 ^ 16 + 1 = L := ⟨_, rfl⟩
      obtain ⟨g0, g1, g2, g3, g4, l16, l24, l32, l40⟩ := fieldsR (by omega) (by omega) (by omega) (by omega) (by omega) hL
      refine Eq.trans (b := decodeSys true 1 0 h L) (by subst hL; exact decodeWord_sys true (by decide) (by decide) g0) ?_
      have f31_16 : fb L 31 16 = 0 := (l32 31 16 (by decide)).trans (by unfold fb; omega)
      have f15_3 : fb L 15 3 = 0 := (l16 15 3 (by decide)).trans (by unfold fb; omega)
      have fs : fb L 2 0 = 1 := (l16 2 0 (by decide)).trans (by unfold fb; omega)
      unfold decodeSys; simp only [fs]
      show fin (do let d ← o32 (fb L 47 40); let a ← oP (fb L 39 32); pure (.tretSkip h (.quay d a))) (fb L 31 16 + fb L 15 3) = _
      simp only [g1, g2, f31_16, f15_3, o32_byte, oP_byte, hw, ok_bind]
      rfl
theorem tretRetry (h : Gd) (d a : Opnd) : Statement (.tretRetry h d a) := by
  intro hw quay hq w hE; obtain rfl := Option.some.inj hE
  cases quay with
  | false => exact absurd hq Bool.false_ne_true
  | true =>
    have hw : (a.spanOk 2) = true := hw
    have k0 := d.byte_lt; have k1 := a.byte_lt
    obtain ⟨L, hL⟩ : ∃ L, d.byte * 2 ^ 40 + a.byte * 2 ^ 32 + 0 * 2 ^ 24 + 0 * 2 ^ 16 + 2 = L := ⟨_, rfl⟩
    obtain ⟨g0, g1, g2, g3, g4, l16, l24, l32, l40⟩ := fieldsR (by omega) (by omega) (by omega) (by omega) (by omega) hL
    refine Eq.trans (b := decodeSys true 1 0 h L) (by subst hL; exact decodeWord_sys true (by decide) (by decide) g0) ?_
    have f31_16 : fb L 31 16 = 0 := (l32 31 16 (by decide)).trans (by unfold fb; omega)
    have f15_3 : fb L 15 3 = 0 := (l16 15 3 (by decide)).trans (by unfold fb; omega)
    have s2_0 : fb L 2 0 = 2 := (l16 2 0 (by decide)).trans (by unfold fb; omega)
    refine Eq.trans (b := fin (do let d ← o32 (fb L 47 40); let a ← oP (fb L 39 32); pure (.tretRetry h d a)) (fb L 31 16 + fb L 15 3)) ?_ ?_
    · unfold decodeSys; simp only [s2_0]; rfl
    · simp only [g1, g2, f31_16, f15_3, o32_byte, oP_byte, hw, ok_bind]
      rfl
theorem tretFail (h : Gd) (d a : Opnd) : Statement (.tretFail h d a) := by
  intro hw quay hq w hE; obtain rfl := Option.some.inj hE
  cases quay with
  | false => exact absurd hq Bool.false_ne_true
  | true =>
    have hw : (a.spanOk 2) = true := hw
    have k0 := d.byte_lt; have k1 := a.byte_lt
    obtain ⟨L, hL⟩ : ∃ L, d.byte * 2 ^ 40 + a.byte * 2 ^ 32 + 0 * 2 ^ 24 + 0 * 2 ^ 16 + 3 = L := ⟨_, rfl⟩
    obtain ⟨g0, g1, g2, g3, g4, l16, l24, l32, l40⟩ := fieldsR (by omega) (by omega) (by omega) (by omega) (by omega) hL
    refine Eq.trans (b := decodeSys true 1 0 h L) (by subst hL; exact decodeWord_sys true (by decide) (by decide) g0) ?_
    have f31_16 : fb L 31 16 = 0 := (l32 31 16 (by decide)).trans (by unfold fb; omega)
    have f15_3 : fb L 15 3 = 0 := (l16 15 3 (by decide)).trans (by unfold fb; omega)
    have s2_0 : fb L 2 0 = 3 := (l16 2 0 (by decide)).trans (by unfold fb; omega)
    refine Eq.trans (b := fin (do let d ← o32 (fb L 47 40); let a ← oP (fb L 39 32); pure (.tretFail h d a)) (fb L 31 16 + fb L 15 3)) ?_ ?_
    · unfold decodeSys; simp only [s2_0]; rfl
    · simp only [g1, g2, f31_16, f15_3, o32_byte, oP_byte, hw, ok_bind]
      rfl
theorem tretKill (h : Gd) (d a : Opnd) : Statement (.tretKill h d a) := by
  intro hw quay hq w hE; obtain rfl := Option.some.inj hE
  cases quay with
  | false => exact absurd hq Bool.false_ne_true
  | true =>
    have hw : (a.spanOk 2) = true := hw
    have k0 := d.byte_lt; have k1 := a.byte_lt
    obtain ⟨L, hL⟩ : ∃ L, d.byte * 2 ^ 40 + a.byte * 2 ^ 32 + 0 * 2 ^ 24 + 0 * 2 ^ 16 + 4 = L := ⟨_, rfl⟩
    obtain ⟨g0, g1, g2, g3, g4, l16, l24, l32, l40⟩ := fieldsR (by omega) (by omega) (by omega) (by omega) (by omega) hL
    refine Eq.trans (b := decodeSys true 1 0 h L) (by subst hL; exact decodeWord_sys true (by decide) (by decide) g0) ?_
    have f31_16 : fb L 31 16 = 0 := (l32 31 16 (by decide)).trans (by unfold fb; omega)
    have f15_3 : fb L 15 3 = 0 := (l16 15 3 (by decide)).trans (by unfold fb; omega)
    have s2_0 : fb L 2 0 = 4 := (l16 2 0 (by decide)).trans (by unfold fb; omega)
    refine Eq.trans (b := fin (do let d ← o32 (fb L 47 40); let a ← oP (fb L 39 32); pure (.tretKill h d a)) (fb L 31 16 + fb L 15 3)) ?_ ?_
    · unfold decodeSys; simp only [s2_0]; rfl
    · simp only [g1, g2, f31_16, f15_3, o32_byte, oP_byte, hw, ok_bind]
      rfl
theorem tretAssist (h : Gd) (d a b c : Opnd) : Statement (.tretAssist h d a b c) := by
  intro hw quay hq w hE; obtain rfl := Option.some.inj hE
  cases quay with
  | false => exact absurd hq Bool.false_ne_true
  | true =>
    have hw : (a.spanOk 2 && b.spanOk 2) = true := hw
    simp only [Bool.and_eq_true, Bool.or_eq_true, Bool.not_eq_true', decide_eq_true_eq, bne_iff_ne, beq_iff_eq, ne_eq] at hw
    have k0 := d.byte_lt; have k1 := a.byte_lt; have k2 := b.byte_lt; have k3 := c.byte_lt
    obtain ⟨L, hL⟩ : ∃ L, d.byte * 2 ^ 40 + a.byte * 2 ^ 32 + b.byte * 2 ^ 24 + c.byte * 2 ^ 16 + 5 = L := ⟨_, rfl⟩
    obtain ⟨g0, g1, g2, g3, g4, l16, l24, l32, l40⟩ := fieldsR (by omega) (by omega) (by omega) (by omega) (by omega) hL
    refine Eq.trans (b := decodeSys true 1 0 h L) (by subst hL; exact decodeWord_sys true (by decide) (by decide) g0) ?_
    have f15_3 : fb L 15 3 = 0 := (l16 15 3 (by decide)).trans (by unfold fb; omega)
    have s2_0 : fb L 2 0 = 5 := (l16 2 0 (by decide)).trans (by unfold fb; omega)
    refine Eq.trans (b := fin (do let d ← o32 (fb L 47 40); let a ← oP (fb L 39 32); let b ← oP (fb L 31 24); let c ← o32 (fb L 23 16); pure (.tretAssist h d a b c)) (fb L 15 3)) ?_ ?_
    · unfold decodeSys; simp only [s2_0]; rfl
    · simp only [g1, g2, g3, g4, f15_3, o32_byte, oP_byte, hw, ok_bind]
      rfl
theorem swr (h : Gd) (r : PrivReg) (a : Opnd) : Statement (.swr h r a) := by
  intro hw quay hq w hE; obtain rfl := Option.some.inj hE
  have hw : (a.spanOk r.regs && !r.readOnly) = true := hw
  simp only [Bool.and_eq_true, Bool.or_eq_true, Bool.not_eq_true', decide_eq_true_eq, bne_iff_ne, beq_iff_eq, ne_eq] at hw
  have k0 := a.byte_lt; have k1 := r.code_lt
  obtain ⟨L, hL⟩ : ∃ L, 0 * 2 ^ 40 + a.byte * 2 ^ 32 + 0 * 2 ^ 24 + 0 * 2 ^ 16 + r.code = L := ⟨_, rfl⟩
  obtain ⟨g0, g1, g2, g3, g4, l16, l24, l32, l40⟩ := fieldsR (by omega) (by omega) (by omega) (by omega) (by omega) hL
  refine Eq.trans (b := decodeSys quay 2 0 h L) (by subst hL; exact decodeWord_sys quay (by decide) (by decide) g0) ?_
  have f7_0 : fb L 7 0 = r.code := (l16 7 0 (by decide)).trans (by unfold fb; omega)
  have f31_16 : fb L 31 16 = 0 := (l32 31 16 (by decide)).trans (by unfold fb; omega)
  have f15_8 : fb L 15 8 = 0 := (l16 15 8 (by decide)).trans (by unfold fb; omega)
  show fin (do let r ← privC (fb L 7 0); let a ← oN (r.regs) (fb L 39 32); if r.readOnly then .error .reservedValue else pure (.swr h r a)) (fb L 47 40 + fb L 31 16 + fb L 15 8) = _
  simp only [f7_0, g2, g1, f31_16, f15_8, privC_code, oN_byte, hw, ok_bind]
  rfl
theorem srdp (h : Gd) (d : Opnd) (r : PrivReg) : Statement (.srdp h d r) := by
  intro hw quay hq w hE; obtain rfl := Option.some.inj hE
  have hw : (d.spanOk r.regs) = true := hw
  have k0 := d.byte_lt; have k1 := r.code_lt
  obtain ⟨L, hL⟩ : ∃ L, d.byte * 2 ^ 40 + 0 * 2 ^ 32 + 0 * 2 ^ 24 + 0 * 2 ^ 16 + r.code = L := ⟨_, rfl⟩
  obtain ⟨g0, g1, g2, g3, g4, l16, l24, l32, l40⟩ := fieldsR (by omega) (by omega) (by omega) (by omega) (by omega) hL
  refine Eq.trans (b := decodeSys quay 3 0 h L) (by subst hL; exact decodeWord_sys quay (by decide) (by decide) g0) ?_
  have f7_0 : fb L 7 0 = r.code := (l16 7 0 (by decide)).trans (by unfold fb; omega)
  have f39_8 : fb L 39 8 = 0 := (l40 39 8 (by decide)).trans (by unfold fb; omega)
  show fin (do let r ← privC (fb L 7 0); let d ← oN r.regs (fb L 47 40); pure (.srdp h d r)) ((fb L 39 8)) = _
  simp only [f7_0, g1, f39_8, privC_code, oN_byte, hw, ok_bind]
  rfl
theorem tlbiVa (h : Gd) (a b : Opnd) : Statement (.tlbiVa h a b) := by
  intro hw quay hq w hE; obtain rfl := Option.some.inj hE
  have hw : (a.spanOk 2) = true := hw
  have k0 := a.byte_lt; have k1 := b.byte_lt
  obtain ⟨L, hL⟩ : ∃ L, 0 * 2 ^ 40 + a.byte * 2 ^ 32 + b.byte * 2 ^ 24 + 0 * 2 ^ 16 + 0 = L := ⟨_, rfl⟩
  obtain ⟨g0, g1, g2, g3, g4, l16, l24, l32, l40⟩ := fieldsR (by omega) (by omega) (by omega) (by omega) (by omega) hL
  refine Eq.trans (b := decodeSys quay 4 0 h L) (by subst hL; exact decodeWord_sys quay (by decide) (by decide) g0) ?_
  have f23_2 : fb L 23 2 = 0 := (l24 23 2 (by decide)).trans (by unfold fb; omega)
  have s1_0 : fb L 1 0 = 0 := (l16 1 0 (by decide)).trans (by unfold fb; omega)
  refine Eq.trans (b := fin (do let a ← oP (fb L 39 32); let b ← o32 (fb L 31 24); pure (.tlbiVa h a b)) ((fb L 23 2) + (fb L 47 40))) ?_ ?_
  · unfold decodeSys; simp only [s1_0]; rfl
  · simp only [g2, g3, f23_2, g1, oP_byte, o32_byte, hw, ok_bind]
    rfl
theorem tlbiAsid (h : Gd) (b : Opnd) : Statement (.tlbiAsid h b) := by
  intro hw quay hq w hE; obtain rfl := Option.some.inj hE
  have k0 := b.byte_lt
  obtain ⟨L, hL⟩ : ∃ L, 0 * 2 ^ 40 + 0 * 2 ^ 32 + b.byte * 2 ^ 24 + 0 * 2 ^ 16 + 1 = L := ⟨_, rfl⟩
  obtain ⟨g0, g1, g2, g3, g4, l16, l24, l32, l40⟩ := fieldsR (by omega) (by omega) (by omega) (by omega) (by omega) hL
  refine Eq.trans (b := decodeSys quay 4 0 h L) (by subst hL; exact decodeWord_sys quay (by decide) (by decide) g0) ?_
  have f23_2 : fb L 23 2 = 0 := (l24 23 2 (by decide)).trans (by unfold fb; omega)
  have f47_32 : fb L 47 32 = 0 := fb_small (by omega)
  have s1_0 : fb L 1 0 = 1 := (l16 1 0 (by decide)).trans (by unfold fb; omega)
  refine Eq.trans (b := fin (do let b ← o32 (fb L 31 24); pure (.tlbiAsid h b)) ((fb L 23 2) + (fb L 47 32))) ?_ ?_
  · unfold decodeSys; simp only [s1_0]; rfl
  · simp only [g3, f23_2, f47_32, o32_byte, ok_bind]
    rfl
theorem tlbiAll (h : Gd) : Statement (.tlbiAll h) := by
  intro hw quay hq w hE; obtain rfl := Option.some.inj hE
  obtain ⟨L, hL⟩ : ∃ L, 0 * 2 ^ 40 + 0 * 2 ^ 32 + 0 * 2 ^ 24 + 0 * 2 ^ 16 + 2 = L := ⟨_, rfl⟩
  obtain ⟨g0, g1, g2, g3, g4, l16, l24, l32, l40⟩ := fieldsR (by omega) (by omega) (by omega) (by omega) (by omega) hL
  refine Eq.trans (b := decodeSys quay 4 0 h L) (by subst hL; exact decodeWord_sys quay (by decide) (by decide) g0) ?_
  have f47_2 : fb L 47 2 = 0 := fb_small (by omega)
  have s1_0 : fb L 1 0 = 2 := (l16 1 0 (by decide)).trans (by unfold fb; omega)
  refine Eq.trans (b := fin (do pure (.tlbiAll h)) ((fb L 47 2))) ?_ ?_
  · unfold decodeSys; simp only [s1_0]; rfl
  · simp only [f47_2, ok_bind]
    rfl
theorem tlbiComplete (op : Nat) : Statement (.tlbiComplete op) := fun _ _ _ _ h => (Option.some_ne_none _ h.symm).elim
theorem split (h : Gd) (d a b : Opnd) (cont : Bool) : Statement (.split h d a b cont) := by
  intro hw quay hq w hE; obtain rfl := Option.some.inj hE
  have hw : (a.spanOk 2 && b.spanOk 2) = true := hw
  simp only [Bool.and_eq_true, Bool.or_eq_true, Bool.not_eq_true', decide_eq_true_eq, bne_iff_ne, beq_iff_eq, ne_eq] at hw
  have k0 := d.byte_lt; have k1 := a.byte_lt; have k2 := b.byte_lt; have k3 := bn_lt cont
  obtain ⟨L, hL⟩ : ∃ L, d.byte * 2 ^ 40 + a.byte * 2 ^ 32 + b.byte * 2 ^ 24 + 0 * 2 ^ 16 + (bn cont) = L := ⟨_, rfl⟩
  obtain ⟨g0, g1, g2, g3, g4, l16, l24, l32, l40⟩ := fieldsR (by omega) (by omega) (by omega) (by omega) (by omega) hL
  refine Eq.trans (b := decodeSys quay 5 0 h L) (by subst hL; exact decodeWord_sys quay (by decide) (by decide) g0) ?_
  have f0_0 : fb L 0 0 = bn cont := (l16 0 0 (by decide)).trans (by unfold fb; omega)
  have f23_1 : fb L 23 1 = 0 := (l24 23 1 (by decide)).trans (by unfold fb; omega)
  show fin (do let d ← o32 (fb L 47 40); let a ← oP (fb L 39 32); let b ← oP (fb L 31 24); let cont ← bool (fb L 0 0); pure (.split h d a b cont)) ((fb L 23 1)) = _
  simp only [g1, g2, g3, f0_0, f23_1, o32_byte, oP_byte, bool_bn, hw, ok_bind]
  rfl
theorem launch (h : Gd) (d a : Opnd) (ch : Fin 8) : Statement (.launch h d a ch) := by
  intro hw quay hq w hE; obtain rfl := Option.some.inj hE
  have hw : (d.spanOk 2 && !d.isG && a.spanOk 2) = true := hw
  simp only [Bool.and_eq_true, Bool.or_eq_true, Bool.not_eq_true', decide_eq_true_eq, bne_iff_ne, beq_iff_eq, ne_eq] at hw
  have k0 := d.byte_lt; have k1 := a.byte_lt; have k2 := ch.isLt
  obtain ⟨L, hL⟩ : ∃ L, d.byte * 2 ^ 40 + a.byte * 2 ^ 32 + 0 * 2 ^ 24 + ch.val = L := ⟨_, rfl⟩
  obtain ⟨g0, g1, g2, g3, l24, l32, l40⟩ := fieldsX (by omega) (by omega) (by omega) (by omega) hL
  refine Eq.trans (b := decodeSys quay 6 3 h L) (by subst hL; exact decodeWord_sys quay (by decide) (by decide) g0) ?_
  have f23_0 : fb L 23 0 = ch.val := (l24 23 0 (by decide)).trans (by unfold fb; omega)
  have f31_24 : fb L 31 24 = 0 := (l32 31 24 (by decide)).trans (by unfold fb; omega)
  show fin (do let d ← oVP (fb L 47 40); let a ← oP (fb L 39 32); let ch ← fin8 (fb L 23 0); pure (.launch h d a ch)) ((fb L 31 24)) = _
  simp only [g1, g2, f23_0, f31_24, oVP_byte, oP_byte, fin8_val, hw, ok_bind]
  rfl
theorem launchResult (t : Nat) : Statement (.launchResult t) := fun _ _ _ _ h => (Option.some_ne_none _ h.symm).elim
theorem attest (h : Gd) (d a b : Opnd) : Statement (.attest h d a b) := by
  intro hw quay hq w hE; obtain rfl := Option.some.inj hE
  have hw : (a.spanOk 2 && b.spanOk 2) = true := hw
  simp only [Bool.and_eq_true, Bool.or_eq_true, Bool.not_eq_true', decide_eq_true_eq, bne_iff_ne, beq_iff_eq, ne_eq] at hw
  have k0 := d.byte_lt; have k1 := a.byte_lt; have k2 := b.byte_lt
  obtain ⟨L, hL⟩ : ∃ L, d.byte * 2 ^ 40 + a.byte * 2 ^ 32 + b.byte * 2 ^ 24 + 0 = L := ⟨_, rfl⟩
  obtain ⟨g0, g1, g2, g3, l24, l32, l40⟩ := fieldsX (by omega) (by omega) (by omega) (by omega) hL
  refine Eq.trans (b := decodeSys quay 7 3 h L) (by subst hL; exact decodeWord_sys quay (by decide) (by decide) g0) ?_
  have f23_0 : fb L 23 0 = 0 := (l24 23 0 (by decide)).trans (by unfold fb; omega)
  show fin (do let d ← o32 (fb L 47 40); let a ← oP (fb L 39 32); let b ← oP (fb L 31 24); pure (.attest h d a b)) ((fb L 23 0)) = _
  simp only [g1, g2, g3, f23_0, o32_byte, oP_byte, hw, ok_bind]
  rfl
theorem attestComplete (t : Nat) : Statement (.attestComplete t) := fun _ _ _ _ h => (Option.some_ne_none _ h.symm).elim
theorem ologrNext (h : Gd) (d : Opnd) : Statement (.ologrNext h d) := by
  intro hw quay hq w hE; obtain rfl := Option.some.inj hE
  have hw : (d.spanOk 8 && !d.isG) = true := hw
  simp only [Bool.and_eq_true, Bool.or_eq_true, Bool.not_eq_true', decide_eq_true_eq, bne_iff_ne, beq_iff_eq, ne_eq] at hw
  have k0 := d.byte_lt
  obtain ⟨L, hL⟩ : ∃ L, d.byte * 2 ^ 40 + 0 * 2 ^ 32 + 0 * 2 ^ 24 + 0 * 2 ^ 16 + 0 = L := ⟨_, rfl⟩
  obtain ⟨g0, g1, g2, g3, g4, l16, l24, l32, l40⟩ := fieldsR (by omega) (by omega) (by omega) (by omega) (by omega) hL
  refine Eq.trans (b := decodeSys quay 8 0 h L) (by subst hL; exact decodeWord_sys quay (by decide) (by decide) g0) ?_
  have f39_2 : fb L 39 2 = 0 := (l40 39 2 (by decide)).trans (by unfold fb; omega)
  have s1_0 : fb L 1 0 = 0 := (l16 1 0 (by decide)).trans (by unfold fb; omega)
  refine Eq.trans (b := fin (do let d ← oVB8 (fb L 47 40); pure (.ologrNext h d)) ((fb L 39 2))) ?_ ?_
  · unfold decodeSys; simp only [s1_0]; rfl
  · simp only [g1, f39_2, oVB8_byte, hw, ok_bind]
    rfl
theorem ologrOpnd (h : Gd) (d a : Opnd) : Statement (.ologrOpnd h d a) := by
  intro hw quay hq w hE; obtain rfl := Option.some.inj hE
  have hw : (d.spanOk 8 && !d.isG && a.spanOk 2) = true := hw
  simp only [Bool.and_eq_true, Bool.or_eq_true, Bool.not_eq_true', decide_eq_true_eq, bne_iff_ne, beq_iff_eq, ne_eq] at hw
  have k0 := d.byte_lt; have k1 := a.byte_lt
  obtain ⟨L, hL⟩ : ∃ L, d.byte * 2 ^ 40 + a.byte * 2 ^ 32 + 0 * 2 ^ 24 + 0 * 2 ^ 16 + 1 = L := ⟨_, rfl⟩
  obtain ⟨g0, g1, g2, g3, g4, l16, l24, l32, l40⟩ := fieldsR (by omega) (by omega) (by omega) (by omega) (by omega) hL
  refine Eq.trans (b := decodeSys quay 8 0 h L) (by subst hL; exact decodeWord_sys quay (by decide) (by decide) g0) ?_
  have f31_2 : fb L 31 2 = 0 := (l32 31 2 (by decide)).trans (by unfold fb; omega)
  have s1_0 : fb L 1 0 = 1 := (l16 1 0 (by decide)).trans (by unfold fb; omega)
  refine Eq.trans (b := fin (do let d ← oVB8 (fb L 47 40); let a ← oP (fb L 39 32); pure (.ologrOpnd h d a)) ((fb L 31 2))) ?_ ?_
  · unfold decodeSys; simp only [s1_0]; rfl
  · simp only [g1, g2, f31_2, oVB8_byte, oP_byte, hw, ok_bind]
    rfl
theorem faultRecordQueued (n : Nat) : Statement (.faultRecordQueued n) := fun _ _ _ _ h => (Option.some_ne_none _ h.symm).elim
theorem clauseStart (q : QuadId) (ts : List Nat) : Statement (.clauseStart q ts) := fun _ _ _ _ h => (Option.some_ne_none _ h.symm).elim
theorem continuationStart (q : QuadId) (ts : List Nat) : Statement (.continuationStart q ts) := fun _ _ _ _ h => (Option.some_ne_none _ h.symm).elim
theorem pendingTimeout (grp : Nat) : Statement (.pendingTimeout grp) := fun _ _ _ _ h => (Option.some_ne_none _ h.symm).elim
theorem doorbell (p ch : Nat) : Statement (.doorbell p ch) := fun _ _ _ _ h => (Option.some_ne_none _ h.symm).elim
theorem clusterPlace (l : Nat) : Statement (.clusterPlace l) := fun _ _ _ _ h => (Option.some_ne_none _ h.symm).elim
theorem gangPlace (l : Nat) : Statement (.gangPlace l) := fun _ _ _ _ h => (Option.some_ne_none _ h.symm).elim
theorem drainLimitExpiry (l : Nat) : Statement (.drainLimitExpiry l) := fun _ _ _ _ h => (Option.some_ne_none _ h.symm).elim
theorem shadowContextSwitch (c : CoreId) (cx : Option Nat) : Statement (.shadowContextSwitch c cx) := fun _ _ _ _ h => (Option.some_ne_none _ h.symm).elim
theorem contextRestore (cx : Nat) : Statement (.contextRestore cx) := fun _ _ _ _ h => (Option.some_ne_none _ h.symm).elim
theorem teamEnd (tm : Nat) : Statement (.teamEnd tm) := fun _ _ _ _ h => (Option.some_ne_none _ h.symm).elim
theorem gridEnd (l : Nat) : Statement (.gridEnd l) := fun _ _ _ _ h => (Option.some_ne_none _ h.symm).elim
theorem run (p : Nat) : Statement (.run p) := fun _ _ _ _ h => (Option.some_ne_none _ h.symm).elim
theorem halt (p : Nat) : Statement (.halt p) := fun _ _ _ _ h => (Option.some_ne_none _ h.symm).elim
theorem partitionHalted (p : Nat) : Statement (.partitionHalted p) := fun _ _ _ _ h => (Option.some_ne_none _ h.symm).elim
theorem plimit (host : Bool) (w : Nat) : Statement (.plimit host w) := fun _ _ _ _ h => (Option.some_ne_none _ h.symm).elim
theorem configRegisterWrite (ofs : Nat) (val : Dword) : Statement (.configRegisterWrite ofs val) := fun _ _ _ _ h => (Option.some_ne_none _ h.symm).elim
theorem homeReadRequest (die blk : Nat) (c : CoreId) : Statement (.homeReadRequest die blk c) := fun _ _ _ _ h => (Option.some_ne_none _ h.symm).elim
theorem homeOwnershipRequest (die blk : Nat) (c : CoreId) : Statement (.homeOwnershipRequest die blk c) := fun _ _ _ _ h => (Option.some_ne_none _ h.symm).elim
theorem homeWriteBack (die blk : Nat) (c : CoreId) : Statement (.homeWriteBack die blk c) := fun _ _ _ _ h => (Option.some_ne_none _ h.symm).elim
theorem probe (n : Nat) : Statement (.probe n) := fun _ _ _ _ h => (Option.some_ne_none _ h.symm).elim
theorem dropNotice (die blk : Nat) (c : CoreId) : Statement (.dropNotice die blk c) := fun _ _ _ _ h => (Option.some_ne_none _ h.symm).elim
theorem signatureRebuild (c : CoreId) : Statement (.signatureRebuild c) := fun _ _ _ _ h => (Option.some_ne_none _ h.symm).elim
theorem directoryRequest (blk who : Nat) (own : Bool) : Statement (.directoryRequest blk who own) := fun _ _ _ _ h => (Option.some_ne_none _ h.symm).elim
theorem promote (c : CoreId) (w : Nat) : Statement (.promote c w) := fun _ _ _ _ h => (Option.some_ne_none _ h.symm).elim
theorem reset (fail : Nat) (dies : BitVec 4) (rbver : Word) : Statement (.reset fail dies rbver) := fun _ _ _ _ h => (Option.some_ne_none _ h.symm).elim
theorem correctedError (place die unit : Nat) : Statement (.correctedError place die unit) := fun _ _ _ _ h => (Option.some_ne_none _ h.symm).elim
theorem poison (place addr : Nat) : Statement (.poison place addr) := fun _ _ _ _ h => (Option.some_ne_none _ h.symm).elim
theorem flitRetry (l : Nat) (ok : Bool) : Statement (.flitRetry l ok) := fun _ _ _ _ h => (Option.some_ne_none _ h.symm).elim
theorem linkRetrain (l : Nat) : Statement (.linkRetrain l) := fun _ _ _ _ h => (Option.some_ne_none _ h.symm).elim
theorem linkDown (l : Nat) : Statement (.linkDown l) := fun _ _ _ _ h => (Option.some_ne_none _ h.symm).elim
theorem dieFailure (d : Nat) : Statement (.dieFailure d) := fun _ _ _ _ h => (Option.some_ne_none _ h.symm).elim
theorem ageingEstimate (d hours margin : Nat) : Statement (.ageingEstimate d hours margin) := fun _ _ _ _ h => (Option.some_ne_none _ h.symm).elim
theorem probeAcknowledgement (n : Nat) : Statement (.probeAcknowledgement n) := fun _ _ _ _ h => (Option.some_ne_none _ h.symm).elim
theorem grant (n : Nat) : Statement (.grant n) := fun _ _ _ _ h => (Option.some_ne_none _ h.symm).elim
theorem peerAccess (who : Nat) (op : PeerOp) (pa : Nat) : Statement (.peerAccess who op pa) := fun _ _ _ _ h => (Option.some_ne_none _ h.symm).elim
theorem retrainComplete (l : Nat) (ok : Bool) : Statement (.retrainComplete l ok) := fun _ _ _ _ h => (Option.some_ne_none _ h.symm).elim
theorem downLinkTimeout (acc : Nat) : Statement (.downLinkTimeout acc) := fun _ _ _ _ h => (Option.some_ne_none _ h.symm).elim
theorem registerFileError (t r : Nat) : Statement (.registerFileError t r) := fun _ _ _ _ h => (Option.some_ne_none _ h.symm).elim
theorem salvageCopy (blk dst : Nat) : Statement (.salvageCopy blk dst) := fun _ _ _ _ h => (Option.some_ne_none _ h.symm).elim
theorem firmwareMemoryWrite (pa : Nat) (data : List Byte) : Statement (.firmwareMemoryWrite pa data) := fun _ _ _ _ h => (Option.some_ne_none _ h.symm).elim

end Sys2Proof.Laws.RoundTrip
end

