-- ==== Sys2Proof/Safety.lean ====
section
/-!
DEFINITION. The terms in which claims are made: the invariant of the memories, when a thread executes an instruction alone,
and what an instruction changes, told through the reads that a program has.
-/
namespace Sys2Proof.Machine

/-! ## Invariants -/

/-- Global memory and the vaults stand in their canonical form (log 9). -/
def State.Canonical (s : State) : Prop := s.ms.mem.wf = true ∧ s.ms.vault.wf = true

/-! ## Who executes -/

/-- Thread t, in the issue set in focus, executes i under the guard h: no deferred cause waits for its issue (R409), i's
registers lie within the budget (R49), the guard is true (R41), and no register that i names is pending or holds an error
(R38, R428). -/
structure State.Executes (s : State) (h : Gd) (i : Instr) (t : Thread) : Prop where
  noHit : t.out.hits = []
  fits : (useOf i).fits t.place.budget = true
  settled : h.p.val = 7 ∨ s.pending t [.p h.p.val] = false
  guard : t.regs.getP h.p.val = !h.neg
  free : s.pending t (useOf i).refs = false
  whole : (useOf i).readsBad t = false

/-- The issue set in focus is thread t alone, and it executes i. -/
structure State.Runs (s : State) (h : Gd) (i : Instr) (t : Thread) : Prop extends State.Executes s h i t where
  front : s.front = [t]

/-! ## What changes -/

/-- Thread t has become x; of all other state nothing has changed. -/
structure State.Becomes (s s' : State) (t x : Thread) : Prop where
  self : s'.thread t.id = some x
  others : ∀ u, u ≠ t.id → s'.thread u = s.thread u
  rest : s' = { s with wk := { s.wk with threads := s'.wk.threads } }
  bytes : ∀ a, s'.ms.mem.read a = s.ms.mem.read a ∧ s'.ms.vault.read a = s.ms.vault.read a

/-- A 64-bit value as the words of a pair: the lower register holds the least significant word (R48). -/
def lohi (x : Dword) : List Word := [x.extractLsb' 0 32, x.extractLsb' 32 32]

/-- Word k of a destination of the list ws, where register r of the file is one of those written from n. -/
def writtenAt (n : Nat) (ws : List Word) (r : Nat) : Option Word := if n ≤ r then ws[r - n]? else none

/-- The v register r after a destination d takes the words ws. -/
def newV (d : Opnd) (ws : List Word) (r : Nat) : Option Word :=
  match d with
  | .v n => writtenAt n.val ws r
  | _ => none

/-- The g register r after a destination d takes the words ws. -/
def newG (d : Opnd) (ws : List Word) (r : Nat) : Option Word :=
  match d with
  | .g n => writtenAt n.val ws r
  | _ => none

/-- Thread t has become x and its destination d has taken the words ws: its v registers, or the g registers of its group, or
nothing under z; no other register has changed, of t, of another thread or of another group, and nothing else has but t itself. -/
structure State.Writes (s s' : State) (t : Thread) (d : Opnd) (ws : List Word) (x : Thread) : Prop where
  self : ∃ y, s'.thread t.id = some y ∧ y = { x with regs := { x.regs with v := y.regs.v }, out := { x.out with bad := y.out.bad } } ∧
    (∀ r, r < 128 → y.regs.getV r = (newV d ws r).getD (t.regs.getV r)) ∧
    ∀ r, y.out.bad.contains r = (t.out.bad.contains r && (newV d ws r).isNone)
  others : ∀ u, u ≠ t.id → s'.thread u = s.thread u
  groups : ∀ g r, r < 64 → s'.getG g r =
    if g = t.place.grp ∧ (s.group g).isSome then (newG d ws r).getD (s.getG g r) else s.getG g r
  groupRest : ∀ g, (s'.group g).map (fun y => { y with g := Vector.replicate 64 0 }) = (s.group g).map fun y => { y with g := Vector.replicate 64 0 }
  rest : s' = { s with wk := { s.wk with threads := s'.wk.threads, groups := s'.wk.groups } }
  bytes : ∀ a, s'.ms.mem.read a = s.ms.mem.read a ∧ s'.ms.vault.read a = s.ms.vault.read a

/-- A thread that has executed a word without a transfer: it stands at the next word of its clause, or at the next header
(R37), with flags raised (R74). -/
def Thread.went (t : Thread) (fl : BitVec 5) : Thread := { t.advance with regs := { t.regs with flags := t.regs.flags ||| fl } }

/-- Wherever a thread executes i alone, the step has a next state in which the thread has gone on, d holds the words ws, and
FLAGS has taken fl; nothing else has changed. -/
def Yields (i : Instr) (h : Gd) (d : Opnd) (ws : State → Thread → List Word) (fl : State → Thread → BitVec 5) : Prop :=
  ∀ s t, s.Runs h i t → ∃ s', exec i s = .next s' ∧ s.Writes s' t d (ws s t) (t.went (fl s t))

/-- The same for a result without flags. -/
def Gives (i : Instr) (h : Gd) (d : Opnd) (ws : State → Thread → List Word) : Prop := Yields i h d ws fun _ _ => 0

/-- Predicates before and after the write of predicate n, which for p7 is discarded (R47). -/
def PredIs (old new : BitVec 7) (n : Nat) (b : Bool) : Prop := ∀ k, k < 7 → new.getLsbD k = if k = n then b else old.getLsbD k

/-- Wherever a thread executes i alone, the step has a next state in which the thread has gone on, predicate n holds a truth
value, and FLAGS has taken fl; nothing else has changed. -/
def Sets (i : Instr) (h : Gd) (n : Nat) (b : State → Thread → Bool) (fl : State → Thread → BitVec 5) : Prop :=
  ∀ s t, s.Runs h i t → ∃ s' p, exec i s = .next s' ∧ PredIs t.regs.p p n (b s t) ∧
    s.Becomes s' t { t.went (fl s t) with regs := { (t.went (fl s t)).regs with p := p } }

/-! ## Outstanding operations -/

/-- The scoreboard entries of an operation whose result takes n registers from d: those of its thread, and those of the group (R38). -/
def heldV (op : Nat) (d : Opnd) (n : Nat) : List (Nat × RegRef) :=
  match d with
  | .v r => (List.range n).map fun i => (op, .v (r.val + i))
  | _ => []
def heldG (op : Nat) (d : Opnd) (n : Nat) : List (Nat × Nat) :=
  match d with
  | .g r => (List.range n).map fun i => (op, r.val + i)
  | _ => []

/-- Thread t has become x, and n registers from d are now the destination of an outstanding operation op; no other thread has
changed, and no group but by that entry. -/
structure State.Awaits (s s' : State) (t : Thread) (op : Nat) (d : Opnd) (n : Nat) (x : Thread) : Prop where
  self : s'.thread t.id = some { x with out := { x.out with pend := t.out.pend ++ heldV op d n } }
  others : ∀ u, u ≠ t.id → s'.thread u = s.thread u
  groups : ∀ g, s'.group g = (s.group g).map fun y => if g = t.place.grp then { y with pend := y.pend ++ heldG op d n } else y

/-- Thread t has become x, and d has taken the words ws of an operation op, which is no longer outstanding; of the threads and
groups nothing else has changed. -/
structure State.Takes (s s' : State) (t : Thread) (op : Nat) (d : Opnd) (ws : List Word) (x : Thread) : Prop where
  self : ∃ y, s'.thread t.id = some y ∧
    y = { x with regs := { x.regs with v := y.regs.v }, out := { x.out with pend := t.out.pend.filter fun p => p.1 != op, bad := y.out.bad } } ∧
    (∀ r, r < 128 → y.regs.getV r = (newV d ws r).getD (t.regs.getV r)) ∧
    ∀ r, y.out.bad.contains r = (t.out.bad.contains r && (newV d ws r).isNone)
  others : ∀ u, u ≠ t.id → s'.thread u = s.thread u
  groups : ∀ g r, r < 64 → s'.getG g r =
    if g = t.place.grp ∧ (s.group g).isSome then (newG d ws r).getD (s.getG g r) else s.getG g r
  groupRest : ∀ g, (s'.group g).map (fun y => { y with g := Vector.replicate 64 0 }) = (s.group g).map fun y =>
    { y with g := Vector.replicate 64 0, pend := if g = t.place.grp then y.pend.filter fun p => p.1 != op else y.pend }

/-! ## Accesses -/

/-- Thread t has become x and access a, the next by number, has entered the abstract machine (R214), with n registers from d
outstanding for it; nothing else has changed, and memory not at all. -/
structure State.Places (s s' : State) (t : Thread) (a : Access) (d : Opnd) (n : Nat) (x : Thread) : Prop where
  awaits : s.Awaits s' t s.nextId d n x
  rest : s' = { s with
    nextId := s.nextId + 1
    ms := { s.ms with accs := s.ms.accs ++ [a] }
    wk := { s.wk with threads := s'.wk.threads, groups := s'.wk.groups } }

/-! ## Events -/

/-- No register, place or wait of any thread has changed, and no g register: of a thread only its counters, its observed set and what it
has outstanding may have. -/
structure State.Keeps (s s' : State) : Prop where
  threads : ∀ u x, s.thread u = some x → ∃ y, s'.thread u = some y ∧ y.regs = x.regs ∧ y.pos = x.pos ∧ y.mode = x.mode ∧
    y.wait = x.wait ∧ y.place = x.place ∧ y.exited = x.exited ∧ y.stop = x.stop ∧ y.out.pend = x.out.pend ∧ y.out.causes = x.out.causes
  groups : ∀ g r, r < 64 → s'.getG g r = s.getG g r

/-- Every byte of global memory and of the vaults reads as before. -/
def State.KeepsBytes (s s' : State) : Prop := ∀ a, s'.ms.mem.read a = s.ms.mem.read a ∧ s'.ms.vault.read a = s.ms.vault.read a

/-- The result ws of operation op has come to thread t in d, with flags fl, and is no longer outstanding: no other register of t, and
no register of another thread or group, has changed. -/
structure State.Comes (s s' : State) (t : Thread) (op : Nat) (d : Opnd) (ws : List Word) (fl : BitVec 5) : Prop where
  self : ∃ y, s'.thread t.id = some y ∧ y.pos = t.pos ∧ y.mode = t.mode ∧ y.place = t.place ∧
    y.regs = { t.regs with v := y.regs.v, flags := t.regs.flags ||| fl } ∧
    (∀ r, r < 128 → y.regs.getV r = (newV d ws r).getD (t.regs.getV r)) ∧
    y.out.pend = t.out.pend.filter fun p => p.1 != op
  others : ∀ u x, u ≠ t.id → s.thread u = some x → ∃ y, s'.thread u = some y ∧ y.regs = x.regs ∧ y.pos = x.pos ∧ y.mode = x.mode ∧
    y.wait = x.wait ∧ y.out.pend = x.out.pend
  groups : ∀ g r, r < 64 → s'.getG g r =
    if g = t.place.grp ∧ (s.group g).isSome then (newG d ws r).getD (s.getG g r) else s.getG g r

end Sys2Proof.Machine
end

