-- ==== Sys2Proof/Certificates/Slice0/Obligations.lean ====
section
/-!
DEFINITION. The statements made of the model, from the numbered rules of the manual.
-/
open Sys2Proof Sys2Proof.Machine

/-! ## The step and the decoder -/

/-- A step whose next move is an event executes it; with no move named, time passes and nothing else happens (log 1). -/
def Obligations.StepRunsNamedEvent : Prop :=
  (∀ (s : State) (n : Nat) (i : Instr) (l : List Stim), s.agenda = ⟨n, .event i⟩ :: l → s.waited = [] →
    step s = match exec i { s with agenda := l, tick := s.tick + 1, clock := s.clock + BitVec.ofNat 64 n, focus := none } with
      | .next s1 => .next s1.endStep
      | .fault f => .fault f
      | .refused r => .refused r) ∧
  (∀ s : State, s.agenda = [] → s.waited = [] → step s = .next ({ s with tick := s.tick + 1, clock := s.clock + 1 } : State).endStep)

/-- A step whose next move is the issue of a quadrant: the cycles before it pass, the members of the issue set that wait after their
word go on or divide their clause (R354), and the word of the set's clause that stands next is executed if it decodes; threads that
have left the clause then leave the set (R319), and the step ends as every step does. The clock is R54's; the agenda is the
model's (log 1).
R319, R116, R323: how the next move is taken. Where no pending group waits, the cycles named pass before an event or an issue; a
quadrant issues one word in a cycle, and after a quadrant of higher number of its core only in a later cycle. While a pending group
waits, no event and no idle step takes the time beyond 3072 cycles after it became ready (log 77).
R354, R319: what stands before the word of an issue set. Members that wait after their word go on with the set where their wait is
over and they may issue, and leave it where not; a set without such a member stays as it is. -/
def Obligations.StepRunsDecodedInstruction : Prop :=
  (∀ (s : State) (n : Nat) (q : QuadId) (l : List Stim) (t : Thread) (ts : List Thread) (w : Nat) (i : Instr) (s1 : State),
     s.agenda = ⟨n, .issue q⟩ :: l → s.pick = (some (.issue q), s1) →
       let s0 : State := { s1.divide q with focus := some q }
       s0.front = t :: ts → t.clause.words[t.idx]? = some w → decodeWord (decide (64 ≤ t.place.core.core)) t.clause.cls w = .ok i →
       step s = match exec i s0 with
         | .next s2 => .next (s2.afterIssue q (t :: ts)).endStep
         | .fault f => .fault f
         | .refused r => .refused r) ∧
  (∀ (s : State) (n : Nat) (q : QuadId) (i : Instr) (l : List Stim),
     let late := s.wk.issued.any fun x => x.1 == q.core && x.2.1 == s.clock.toNat + n && decide (q.quad ≤ x.2.2)
     let m := if late then n + 1 else n
     (s.agenda = ⟨n, .issue q⟩ :: l → s.waited = [] →
       s.pick = (some (.issue q), { s with
         agenda := l, tick := s.tick + 1, clock := s.clock + BitVec.ofNat 64 m,
         wk := { s.wk with issued := (s.wk.issued.filter fun y => y.1 != q.core) ++ [(q.core, s.clock.toNat + m, q.quad)] } })) ∧
     (∀ g at_, g ∈ s.waited → g.rdyAt = some at_ → s.clock.toNat + n < 2 ^ 64 → (s.agenda = [] ∨ s.agenda = ⟨n, .event i⟩ :: l) →
       s.pick.2.clock.toNat ≤ max s.clock.toNat (at_.1 + 3072))) ∧
  (∀ (s : State) (q : QuadId) (t : Thread), s.thread t.id = some t → (s.setOf q).Nodup →
     ((∀ u ∈ (s.setOf q).filterMap s.thread, u.mode ≠ .cont false) → s.divide q = s) ∧
     (s.setOf q = [t.id] → t.mode = .cont false → s.mayIssue t = true →
       (s.divide q).setOf q = [t.id] ∧ (s.divide q).thread t.id = some { t.pass with mode := .run }) ∧
     (s.setOf q = [t.id] → t.mode = .cont false → s.mayIssue t = false →
       (s.divide q).setOf q = [] ∧ (s.divide q).thread t.id = some t))

/-- Words that the manual writes out, and words put together from its encoding tables, decode to the instructions that they
stand for (R40 to R46, and the encoding of each instruction). -/
def Obligations.ManualWordsDecode : Prop :=
  let p7 : Gd := ⟨7, false, false, false⟩
  decodeWord false 0 0x01E0020203000000 = .ok (.iadd p7 (.v 2) (.v 2) (.v 3) .wrap) ∧
  decodeWord false 0 0x3131020000000000 = .ok (.movi ⟨1, true, false, false⟩ (.v 2) 0) ∧
  decodeWord false 1 0x00E2050239400000 = .ok (.ld p7 (.v 5) ⟨.v 2, 0, 3, .die⟩ .b32 false true false) ∧
  decodeWord false 0 0x42E0060104050001 = .ok (.ffma p7 (.v 6) (.v 1) (.v 4) (.v 5) .rz false false false) ∧
  decodeWord false 0 0x28E0010001000002 = .ok (.isetp p7 1 (.v 0) (.v 1) .lt false .set) ∧
  decodeWord false 0 0x01E10202FFFFFFFF = .ok (.iaddI p7 (.v 2) (.v 2) 0xFFFFFFFF) ∧
  decodeWord false 0 0x68E0030200000129 = .ok (.cvt p7 (.v 3) (.v 2) .rz .s32 .f32 0) ∧
  decodeWord false 0 0x75E00908FF000000 = .ok (.scan p7 (.v 9) (.v 8) .z .add false) ∧
  decodeWord false 0 0x01F0020203030000 = .reserved (.iadd ⟨7, true, false, false⟩ (.v 2) (.v 2) (.v 3) .wrap) ∧
  decodeWord false 1 0x00E20302F0600000 = .bad .badSpan ∧
  (decodeHeader false 0x02FFFF0000000000).toOption = some ⟨0, 3, 15, 15, 15, 15, false⟩ ∧
  (match decodeHeader false 0x02FFFF1000000000 with | .error c => c = 0x03 | .ok _ => False)

/-- Every well-formed instruction is the instruction that its own word decodes to, with every operand at every value that its
encoding admits; TRET has one form on quay cores and another elsewhere (R420).
A header is read back from its own word (R31); on a quay core those of the classes MX, CPY, FLD and SPL raise 0x02 (R32). -/
def Obligations.WordsAndHeadersAreReadBack : Prop :=
  (∀ (i : Instr) (quay : Bool) (w : Nat × Nat), i.wf = true → Laws.RoundTrip.formOk quay i = true → encode i = some w →
     decodeWord quay w.1 w.2 = .ok i) ∧
  (∀ (quay : Bool) (h : Header), h.cls < 8 → 1 ≤ h.count → h.count ≤ 16 → h.wl < 16 → h.ws < 16 → h.wc < 16 → h.wt < 16 →
     decodeHeader quay (encodeHeader h) = if quay = true ∧ 2 ≤ h.cls ∧ h.cls ≤ 5 then .error 0x02 else .ok h)

/-! ## Invariants and reset -/

/-- The memories are canonical at reset. -/
def Obligations.ResetMemoryIsCanonical : Prop := State.reset.Canonical

/-- Every step keeps both memories in their canonical form (log 9).
The end of a step changes no byte of memory or of a vault, no register, place, counter or wait of a thread, and no g register; it
settles who has waited since when and which groups are active (R319, R322). Bringing the memories to their canonical form leaves
a canonical state as it is (log 9). -/
def Obligations.StepsKeepMemoryCanonical : Prop :=
  (∀ s s' : State, s.Canonical → step s = .next s' → s'.Canonical) ∧
  (∀ s : State,
     (∀ a, s.endStep.ms.mem.read a = s.ms.mem.read a ∧ s.endStep.ms.vault.read a = s.ms.vault.read a) ∧ (s.Canonical → s.tidy = s) ∧
     (∀ i, (s.endStep.thread i).map (fun t => { t with since := 0, rdy := false }) = (s.thread i).map fun t => { t with since := 0, rdy := false }) ∧
     ∀ g r, r < 64 → s.endStep.getG g r = s.getG g r)

/-! ## Issue -/

/-- The cross-lane instructions of the ALU class (R107, R113). -/
def Sys2Proof.Machine.crossLane : Instr → Bool
  | .dxpack _ _ _ _ _ _ => true
  | .shfl _ _ _ _ _ _ => true
  | .vote _ _ _ _ _ => true
  | .redux _ _ _ _ _ => true
  | .elect _ _ _ => true
  | .matchL _ _ _ _ _ => true
  | .scan _ _ _ _ _ _ => true
  | .rdfirst _ _ _ _ _ => true
  | _ => false

/-- R41: a thread whose guard is false passes an instruction of the ALU or the MEM class and nothing of it, another thread or
memory changes; a cross-lane instruction also notes an inactive arrival (R110) and is not meant here, nor is CINV, which
checks privilege first (R58).
R49, R57, R58: a register beyond the budget raises cause 0x02 at its word, whatever the guard, in the classes ALU and MEM.
R38: an instruction of the ALU or the MEM class that names a register which is the destination of an outstanding operation
waits: its thread leaves the issue set at the word, and nothing else happens. -/
def Obligations.IssueIsGuardedCheckedAndHeld : Prop :=
  (∀ (s : State) (t : Thread) (i : Instr) (w : Nat × Nat),
     encode i = some w → w.1 = 0 ∨ w.1 = 1 → crossLane i = false → privileged i = false →
     let h := guardOf w.2
     s.front = [t] → t.out.hits = [] → (useOf i).fits t.place.budget = true → (h.p.val = 7 ∨ s.pending t [.p h.p.val] = false) →
     t.regs.getP h.p.val = h.neg → ∃ s', exec i s = .next s' ∧ s.Becomes s' t t.advance) ∧
  (∀ (s : State) (t : Thread) (i : Instr) (w : Nat × Nat), encode i = some w → w.1 = 0 ∨ w.1 = 1 →
     s.front = [t] → t.out.hits = [] → (useOf i).fits t.place.budget = false → exec i s = .next (s.trapHere t 0x02 0 0 0)) ∧
  (∀ (s : State) (t : Thread) (i : Instr) (w : Nat × Nat), encode i = some w → w.1 = 0 ∨ w.1 = 1 → privileged i = false →
     let h := guardOf w.2
     s.front = [t] → t.out.hits = [] → (useOf i).fits t.place.budget = true → (h.p.val = 7 ∨ s.pending t [.p h.p.val] = false) →
     t.regs.getP h.p.val = !h.neg → s.pending t (useOf i).refs = true →
     exec i s = .next ((s.leave t.id).onThread t.id fun x => { x with mode := .held }))

/-- The state whose issue set in focus is one thread alone. -/
def Sys2Proof.Machine.State.alone (s : State) (q : QuadId) (t : Thread) : State := { s with wk := { s.wk with sets := [(q, [t.id])] } }

/-- R39, R50: the threads of an issue of any ALU instruction that is not cross-lane all read before any of them writes: each thread
that executes, or whose guard is false, becomes what it would become if it issued alone; the g registers of a group become what
the first of its threads that executes, in lane order, would write alone; no other thread, and no byte, changes.
R39, R50: the same for IADD, with the sums written out. -/
def Obligations.IssueReadsBeforeItWrites : Prop :=
  (∀ (s : State) (q : QuadId) (i : Instr) (w : Nat × Nat), encode i = some w → w.1 = 0 → crossLane i = false →
     s.focus = some q → (s.front.map Thread.id).Nodup →
     let fate := s.fate (guardOf w.2) (Ask.of (useOf i))
     (∀ t ∈ s.front, fate t = .go ∨ fate t = .skip) →
     ∃ s', exec i s = .next s' ∧
       (∀ t ∈ s.front, ∃ x, exec i (s.alone q t) = .next x ∧ s'.thread t.id = x.thread t.id) ∧
       (∀ g, (s.front.find? fun t => fate t == .go && t.place.grp == g) = none → s'.group g = s.group g) ∧
       (∀ g t, (s.front.find? fun t => fate t == .go && t.place.grp == g) = some t →
         ∃ x, exec i (s.alone q t) = .next x ∧ s'.group g = x.group g) ∧
       (∀ u, (∀ t ∈ s.front, t.id ≠ u) → s'.thread u = s.thread u) ∧
       s' = { s with wk := { s.wk with threads := s'.wk.threads, groups := s'.wk.groups } }) ∧
  (∀ (s : State) (h : Gd) (d a b : Opnd), (s.front.map Thread.id).Nodup →
     (∀ t ∈ s.front, s.Executes h (.iadd h d a b .wrap) t) →
     ∃ s', exec (.iadd h d a b .wrap) s = .next s' ∧
       (∀ t ∈ s.front, ∃ y, s'.thread t.id = some y ∧ ∀ r, r < 128 →
         y.regs.getV r = if d = .v ⟨r % 128, Nat.mod_lt _ (by decide)⟩ then s.rd t a + s.rd t b else t.regs.getV r) ∧
       (∀ n g, d = .g n → (s.group g).isSome → s'.getG g n.val =
         match s.front.find? fun t => t.place.grp == g with
         | some t => s.rd t a + s.rd t b
         | none => s.getG g n.val) ∧
       (∀ u, (∀ t ∈ s.front, t.id ≠ u) → s'.thread u = s.thread u) ∧
       ∀ x, s'.ms.mem.read x = s.ms.mem.read x ∧ s'.ms.vault.read x = s.ms.vault.read x)

/-! ## Integer results -/

/-- R86: IADD, ISUB, IMUL, IMULH, IMAD, IMADW, IABS, INEG, IMIN, IMAX, ICLAMP and the I forms (R82), wrapping, saturating,
signed and unsigned; no flag, and nothing else changes but the thread's place. -/
def Obligations.IntegerArithmetic : Prop :=
  ∀ (h : Gd) (d a b c : Opnd) (imm : Word) (sat : Bool),
    Gives (.iadd h d a b .wrap) h d (fun s t => [s.rd t a + s.rd t b]) ∧
    Gives (.iadd h d a b .ssat) h d (fun s t => [BitVec.ofInt 32 (max (-2 ^ 31) (min (2 ^ 31 - 1) ((s.rd t a).toInt + (s.rd t b).toInt)))]) ∧
    Gives (.iadd h d a b .usat) h d (fun s t => [BitVec.ofNat 32 (min (2 ^ 32 - 1) ((s.rd t a).toNat + (s.rd t b).toNat))]) ∧
    Gives (.iaddI h d a imm) h d (fun s t => [s.rd t a + imm]) ∧
    Gives (.isub h d a b .wrap) h d (fun s t => [s.rd t a - s.rd t b]) ∧
    Gives (.isub h d a b .ssat) h d (fun s t => [BitVec.ofInt 32 (max (-2 ^ 31) (min (2 ^ 31 - 1) ((s.rd t a).toInt - (s.rd t b).toInt)))]) ∧
    Gives (.isub h d a b .usat) h d (fun s t => [BitVec.ofNat 32 ((s.rd t a).toNat - (s.rd t b).toNat)]) ∧
    Gives (.isubI h d a imm) h d (fun s t => [s.rd t a - imm]) ∧
    Gives (.imul h d a b) h d (fun s t => [s.rd t a * s.rd t b]) ∧
    Gives (.imulI h d a imm) h d (fun s t => [s.rd t a * imm]) ∧
    Gives (.imulh h d a b false) h d (fun s t => [((s.rd t a).signExtend 64 * (s.rd t b).signExtend 64).extractLsb' 32 32]) ∧
    Gives (.imulh h d a b true) h d (fun s t => [((s.rd t a).setWidth 64 * (s.rd t b).setWidth 64).extractLsb' 32 32]) ∧
    Gives (.imad h d a b c) h d (fun s t => [s.rd t a * s.rd t b + s.rd t c]) ∧
    Gives (.imadw h d a b c false) h d (fun s t => lohi ((s.rd t a).signExtend 64 * (s.rd t b).signExtend 64 + s.rd2 t c)) ∧
    Gives (.imadw h d a b c true) h d (fun s t => lohi ((s.rd t a).setWidth 64 * (s.rd t b).setWidth 64 + s.rd2 t c)) ∧
    Gives (.iabs h d a sat) h d (fun s t => [if s.rd t a = 0x80000000 then (if sat then 0x7FFFFFFF else 0x80000000) else BitVec.ofNat 32 (s.rd t a).toInt.natAbs]) ∧
    Gives (.ineg h d a sat) h d (fun s t => [if s.rd t a = 0x80000000 then (if sat then 0x7FFFFFFF else 0x80000000) else BitVec.ofInt 32 (-(s.rd t a).toInt)]) ∧
    Gives (.imin h d a b false) h d (fun s t => [BitVec.ofInt 32 (min (s.rd t a).toInt (s.rd t b).toInt)]) ∧
    Gives (.imin h d a b true) h d (fun s t => [BitVec.ofNat 32 (min (s.rd t a).toNat (s.rd t b).toNat)]) ∧
    Gives (.iminI h d a imm) h d (fun s t => [BitVec.ofInt 32 (min (s.rd t a).toInt imm.toInt)]) ∧
    Gives (.imax h d a b false) h d (fun s t => [BitVec.ofInt 32 (max (s.rd t a).toInt (s.rd t b).toInt)]) ∧
    Gives (.imax h d a b true) h d (fun s t => [BitVec.ofNat 32 (max (s.rd t a).toNat (s.rd t b).toNat)]) ∧
    Gives (.imaxI h d a imm) h d (fun s t => [BitVec.ofInt 32 (max (s.rd t a).toInt imm.toInt)]) ∧
    Gives (.iclamp h d a b c false) h d (fun s t => [BitVec.ofInt 32 (min (max (s.rd t a).toInt (s.rd t b).toInt) (s.rd t c).toInt)]) ∧
    Gives (.iclamp h d a b c true) h d (fun s t => [BitVec.ofNat 32 (min (max (s.rd t a).toNat (s.rd t b).toNat) (s.rd t c).toNat)])

/-- R87: IDIV and IREM, with a divisor of zero and the overflowing quotient. -/
def Obligations.IntegerDivision : Prop :=
  ∀ (h : Gd) (d a b : Opnd),
    Gives (.idiv h d a b false) h d (fun s t => [if s.rd t b = 0 then 0xFFFFFFFF else (s.rd t a).sdiv (s.rd t b)]) ∧
    Gives (.idiv h d a b true) h d (fun s t => [if s.rd t b = 0 then 0xFFFFFFFF else s.rd t a / s.rd t b]) ∧
    Gives (.irem h d a b false) h d (fun s t => [if s.rd t b = 0 then s.rd t a else (s.rd t a).srem (s.rd t b)]) ∧
    Gives (.irem h d a b true) h d (fun s t => [if s.rd t b = 0 then s.rd t a else s.rd t a % s.rd t b])

/-- R88, R82: AND, OR, XOR, ANDN, the shifts, ROT and SHF, with the I forms, which take every MOD bit as zero. A count beyond
the width shifts everything out.
R88: LOP3, POPC, CLZ, CTZ and BREV, bit by bit. -/
def Obligations.LogicAndBitInstructions : Prop :=
  (∀ (h : Gd) (d a b c : Opnd) (imm : Word),
     Gives (.andB h d a b) h d (fun s t => [s.rd t a &&& s.rd t b]) ∧
     Gives (.andI h d a imm) h d (fun s t => [s.rd t a &&& imm]) ∧
     Gives (.orB h d a b) h d (fun s t => [s.rd t a ||| s.rd t b]) ∧
     Gives (.orI h d a imm) h d (fun s t => [s.rd t a ||| imm]) ∧
     Gives (.xorB h d a b) h d (fun s t => [s.rd t a ^^^ s.rd t b]) ∧
     Gives (.xorI h d a imm) h d (fun s t => [s.rd t a ^^^ imm]) ∧
     Gives (.andnB h d a b) h d (fun s t => [s.rd t a &&& ~~~s.rd t b]) ∧
     Gives (.andnI h d a imm) h d (fun s t => [s.rd t a &&& ~~~imm]) ∧
     Gives (.shl h d a b) h d (fun s t => [s.rd t a <<< (s.rd t b).toNat]) ∧
     Gives (.shlI h d a imm) h d (fun s t => [s.rd t a <<< imm.toNat]) ∧
     Gives (.shr h d a b false) h d (fun s t => [s.rd t a >>> (s.rd t b).toNat]) ∧
     Gives (.shr h d a b true) h d (fun s t => [(s.rd t a).sshiftRight (s.rd t b).toNat]) ∧
     Gives (.shrI h d a imm) h d (fun s t => [s.rd t a >>> imm.toNat]) ∧
     Gives (.rot h d a b false) h d (fun s t => [(s.rd t a).rotateLeft (s.rd t b).toNat]) ∧
     Gives (.rot h d a b true) h d (fun s t => [(s.rd t a).rotateRight (s.rd t b).toNat]) ∧
     Gives (.rotI h d a imm) h d (fun s t => [(s.rd t a).rotateLeft imm.toNat]) ∧
     Gives (.shf h d a b c false) h d (fun s t => [((s.rd t b ++ s.rd t a) <<< ((s.rd t c).toNat % 64)).extractLsb' 32 32]) ∧
     Gives (.shf h d a b c true) h d (fun s t => [((s.rd t b ++ s.rd t a) >>> ((s.rd t c).toNat % 64)).extractLsb' 0 32])) ∧
  (∀ (h : Gd) (d a b c : Opnd) (lut : Byte),
     (∃ f : Word → Word → Word → Word,
       (∀ x y z i, i < 32 → (f x y z).getLsbD i = lut.getLsbD ((x.getLsbD i).toNat + 2 * (y.getLsbD i).toNat + 4 * (z.getLsbD i).toNat)) ∧
       Gives (.lop3 h d a b c lut) h d fun s t => [f (s.rd t a) (s.rd t b) (s.rd t c)]) ∧
     Gives (.popc h d a) h d (fun s t => [BitVec.ofNat 32 ((List.range 32).countP (s.rd t a).getLsbD)]) ∧
     (∃ f : Word → Nat, f 0 = 32 ∧ (∀ x, x ≠ 0 → f x < 32 ∧ x.getMsbD (f x) = true ∧ ∀ j, j < f x → x.getMsbD j = false) ∧
       Gives (.clz h d a) h d fun s t => [BitVec.ofNat 32 (f (s.rd t a))]) ∧
     (∃ f : Word → Nat, f 0 = 32 ∧ (∀ x, x ≠ 0 → f x < 32 ∧ x.getLsbD (f x) = true ∧ ∀ j, j < f x → x.getLsbD j = false) ∧
       Gives (.ctz h d a) h d fun s t => [BitVec.ofNat 32 (f (s.rd t a))]) ∧
     (∃ f : Word → Word, (∀ x i, i < 32 → (f x).getLsbD i = x.getLsbD (31 - i)) ∧ Gives (.brev h d a) h d fun s t => [f (s.rd t a)]))

/-- R89: BFE and BFI, with position and length in the two low bytes of B.
R90: PERM: nibble i of C chooses the byte of B:A that becomes byte i of D, or the sign of that byte spread over it. -/
def Obligations.FieldsAndBytes : Prop :=
  (∀ (h : Gd) (d a b c : Opnd),
     let pos := fun (x : Word) => (x.extractLsb' 0 8).toNat
     let len := fun (x : Word) => min (x.extractLsb' 8 8).toNat 32
     let ones := fun (n : Nat) => BitVec.ofNat 32 (2 ^ n - 1)
     Gives (.bfe h d a b false) h d (fun s t => [(s.rd t a >>> pos (s.rd t b)) &&& ones (len (s.rd t b))]) ∧
     Gives (.bfe h d a b true) h d (fun s t =>
       [let n := 32 - len (s.rd t b); if n = 32 then 0 else ((s.rd t a).sshiftRight (pos (s.rd t b)) <<< n).sshiftRight n]) ∧
     Gives (.bfi h d a b c) h d (fun s t =>
       [let m := ones (len (s.rd t b)) <<< pos (s.rd t b)
        (s.rd t c &&& ~~~m) ||| ((s.rd t a <<< pos (s.rd t b)) &&& m)])) ∧
  (∀ (h : Gd) (d a b c : Opnd), ∃ f : Word → Word → Word → Word,
     (∀ x y z i, i < 4 → (f x y z).extractLsb' (8 * i) 8 =
       (let n := (z.extractLsb' (4 * i) 4).toNat
        let byte := (y ++ x).extractLsb' (8 * (n % 8)) 8
        if n < 8 then byte else if byte.msb then 0xFF else 0x00)) ∧
     Gives (.perm h d a b c) h d fun s t => [f (s.rd t a) (s.rd t b) (s.rd t c)])

/-- R91: 64-bit arithmetic, shifts and addresses on pairs; IADD64 sign-extends its immediate (R82). -/
def Obligations.PairArithmetic : Prop :=
  ∀ (h : Gd) (d a b c : Opnd) (imm : Word) (sh : Fin 8),
    Gives (.iadd64 h d a b) h d (fun s t => lohi (s.rd2 t a + s.rd2 t b)) ∧
    Gives (.iadd64I h d a imm) h d (fun s t => lohi (s.rd2 t a + imm.signExtend 64)) ∧
    Gives (.isub64 h d a b) h d (fun s t => lohi (s.rd2 t a - s.rd2 t b)) ∧
    Gives (.imad64 h d a b c) h d (fun s t => lohi (s.rd2 t a * s.rd2 t b + s.rd2 t c)) ∧
    Gives (.shl64 h d a b) h d (fun s t => lohi (s.rd2 t a <<< (s.rd t b).toNat)) ∧
    Gives (.shr64 h d a b false) h d (fun s t => lohi (s.rd2 t a >>> (s.rd t b).toNat)) ∧
    Gives (.shr64 h d a b true) h d (fun s t => lohi ((s.rd2 t a).sshiftRight (s.rd t b).toNat)) ∧
    Gives (.lea h d a b sh false) h d (fun s t => lohi (s.rd2 t a + (s.rd t b).setWidth 64 * BitVec.ofNat 64 (2 ^ sh.val))) ∧
    Gives (.lea h d a b sh true) h d (fun s t => lohi (s.rd2 t a + (s.rd t b).signExtend 64 * BitVec.ofNat 64 (2 ^ sh.val)))

/-! ## Compares, selection, moves -/

/-- What MERGE makes of a predicate and a result (R92). -/
def Sys2Proof.Machine.merged (mg : Merge) (old r : Bool) : Bool :=
  match mg with
  | .set => r
  | .and => old && r
  | .or => old || r
  | .andn => old && !r

/-- A pattern of a format of n bits with k fraction bits is a NaN; it is signalling when the top fraction bit is clear (R63, R65). -/
def Sys2Proof.Machine.nanBits (n k x : Nat) : Bool := decide (2 ^ (n - 1) - 2 ^ k < x % 2 ^ (n - 1))
def Sys2Proof.Machine.sigBits (n k x : Nat) : Bool := nanBits n k x && decide (x % 2 ^ k < 2 ^ (k - 1))
/-- Patterns that are no NaN, in the order of their values: sign and magnitude as an integer, −0 with +0. -/
def Sys2Proof.Machine.orderOf (n x : Nat) : Int := if x / 2 ^ (n - 1) % 2 = 1 then -((x % 2 ^ (n - 1) : Nat) : Int) else ((x % 2 ^ (n - 1) : Nat) : Int)

/-- The result and the flags of a float compare of two patterns (R92, R93). -/
def Sys2Proof.Machine.floatCompare (n k : Nat) (c : FCmp) (x y : Nat) : Bool × BitVec 5 :=
  let un := nanBits n k x || nanBits n k y
  let sig := sigBits n k x || sigBits n k y
  match c with
  | .ord => (!un, if sig then 0b10000 else 0)
  | .uno => (un, if sig then 0b10000 else 0)
  | .cmp c ut =>
    (if un then ut else match c with
      | .eq => decide (orderOf n x = orderOf n y) | .ne => decide (orderOf n x ≠ orderOf n y)
      | .lt => decide (orderOf n x < orderOf n y) | .le => decide (orderOf n x ≤ orderOf n y)
      | .gt => decide (orderOf n x > orderOf n y) | .ge => decide (orderOf n x ≥ orderOf n y),
     if sig || (un && !ut && c != .eq && c != .ne) then 0b10000 else 0)

/-- R92: ISETP compares integers, signed or unsigned, and merges the result into its predicate, which reads true and stays so
for p7; no flag.
R92, R93: FSETP and DSETP compare by value, −0 equal to +0, unordered with a NaN, and raise INV where the manual says so.
R94: SEL, PLOP, P2V and V2P; p7 counts as true and is never written. -/
def Obligations.ComparesAndSelection : Prop :=
  (∀ (h : Gd) (p : Fin 8) (a b : Opnd) (c : ICmp) (mg : Merge),
     (let r := fun (t : Thread) (x y : Int) => merged mg (p.val == 7 || t.regs.p.getLsbD p.val) (match c with
       | .eq => decide (x = y) | .ne => decide (x ≠ y) | .lt => decide (x < y) | .le => decide (x ≤ y) | .gt => decide (x > y) | .ge => decide (x ≥ y))
      Sets (.isetp h p a b c false mg) h p.val (fun s t => r t (s.rd t a).toInt (s.rd t b).toInt) (fun _ _ => 0) ∧
      Sets (.isetp h p a b c true mg) h p.val (fun s t => r t (s.rd t a).toNat (s.rd t b).toNat) (fun _ _ => 0))) ∧
  (∀ (h : Gd) (p : Fin 8) (a b : Opnd) (c : FCmp) (mg : Merge),
     let old := fun (t : Thread) => p.val == 7 || t.regs.p.getLsbD p.val
     Sets (.fsetp h p a b c mg) h p.val (fun s t => merged mg (old t) (floatCompare 32 23 c (s.rd t a).toNat (s.rd t b).toNat).1)
       (fun s t => (floatCompare 32 23 c (s.rd t a).toNat (s.rd t b).toNat).2) ∧
     Sets (.dsetp h p a b c mg) h p.val (fun s t => merged mg (old t) (floatCompare 64 52 c (s.rd2 t a).toNat (s.rd2 t b).toNat).1)
       (fun s t => (floatCompare 64 52 c (s.rd2 t a).toNat (s.rd2 t b).toNat).2)) ∧
  (∀ (h : Gd) (d a b c : Opnd) (q x y z : Fin 8) (lut : Byte) (mask : BitVec 7),
     let pr := fun (t : Thread) (n : Fin 8) => n.val == 7 || t.regs.p.getLsbD n.val
     Gives (.sel h d a b c) h d (fun s t => [if s.rd t c = 0 then s.rd t b else s.rd t a]) ∧
     Sets (.plop h q x y z lut) h q.val (fun _ t => lut.getLsbD ((pr t x).toNat + 2 * (pr t y).toNat + 4 * (pr t z).toNat)) (fun _ _ => 0) ∧
     Gives (.p2v h d) h d (fun _ t => [BitVec.ofNat 32 (128 + t.regs.p.toNat)]) ∧
     (∀ s t, s.Runs h (.v2p h a mask) t → ∃ s' p, exec (.v2p h a mask) s = .next s' ∧
       (∀ k, k < 7 → p.getLsbD k = if mask.getLsbD k then (s.rd t a).getLsbD k else t.regs.p.getLsbD k) ∧
       s.Becomes s' t { t.went 0 with regs := { t.regs with p := p } }))

/-- The value of a special register that is neither the clock nor FLAGS, for a thread of a team (R53, R54); GRPW reads 0 on a quay
core (log 69). -/
def Sys2Proof.Machine.specialOf (t : Thread) (tm : Team) : SrdReg → Nat
  | .tidx => t.place.tx | .tidy => t.place.ty | .tidz => t.place.tz
  | .lane => t.place.lane | .quad => t.place.quad | .grpid => t.place.grpid
  | .grpw => if 64 ≤ t.place.core.core then 0 else tm.width
  | .teamx => tm.tmx | .teamy => tm.tmy | .teamz => tm.tmz
  | .clusx => tm.clx | .clusy => tm.cly
  | .clusn => match t.place.clp with
    | .cluster _ _ w h => if 64 ≤ t.place.core.core then 1 else w * h
    | _ => 1
  | .gridx => tm.gx | .gridy => tm.gy | .gridz => tm.gz
  | .core => t.place.core.core | .die => t.place.core.die
  | .stage => tm.stage.getD 0xFFFFFFFF
  | _ => 0

/-- R95, R56: MOV copies a register or a pair, MOVI writes its immediate, NOP does nothing.
R53, R54, R74, R96: SRD reads each special register; CLOCKL also keeps the counter's high word for the next CLOCKH, which
uses it up; SRD.CLR returns FLAGS and clears it in one step. -/
def Obligations.MovesAndSpecialRegisters : Prop :=
  (∀ (h : Gd) (d a : Opnd) (imm : Word),
     Gives (.mov h d a false) h d (fun s t => [s.rd t a]) ∧
     Gives (.mov h d a true) h d (fun s t => [s.rdReg t a 0, s.rdReg t a 1]) ∧
     Gives (.movi h d imm) h d (fun _ _ => [imm]) ∧
     Gives (.nop h) h .z (fun _ _ => [])) ∧
  (∀ (h : Gd) (d : Opnd) (s : State) (t : Thread),
     (∀ r tm, s.Runs h (.srd h d r) t → r ≠ .clockl → r ≠ .clockh → r ≠ .flags → s.team t.place.team = some tm →
       ∃ s', exec (.srd h d r) s = .next s' ∧ s.Writes s' t d [BitVec.ofNat 32 (specialOf t tm r)] (t.went 0)) ∧
     (s.Runs h (.srd h d .clockl) t → ∃ s', exec (.srd h d .clockl) s = .next s' ∧
       s.Writes s' t d [s.clock.extractLsb' 0 32] { t.went 0 with regs := { t.regs with clockh := some (s.clock.extractLsb' 32 32) } }) ∧
     (s.Runs h (.srd h d .clockh) t → ∃ s', exec (.srd h d .clockh) s = .next s' ∧
       s.Writes s' t d [t.regs.clockh.getD (s.clock.extractLsb' 32 32)] { t.went 0 with regs := { t.regs with clockh := none } }) ∧
     (s.Runs h (.srd h d .flags) t → ∃ s', exec (.srd h d .flags) s = .next s' ∧
       s.Writes s' t d [t.regs.flags.setWidth 32] (t.went 0)) ∧
     (s.Runs h (.srdClr h d) t → ∃ s', exec (.srdClr h d) s = .next s' ∧
       s.Writes s' t d [t.regs.flags.setWidth 32] { t.went 0 with regs := { t.regs with flags := 0 } }))

/-! ## Floating point -/

/-- A pattern of n bits with its sign inverted where asked (R97). -/
def Sys2Proof.Machine.flipSign (n : Nat) (b : Bool) (x : Nat) : Nat := if b then x ^^^ 2 ^ (n - 1) else x

/-- R97, R98, R99, R100, R101, R103: each FP32 instruction reads the patterns of its operands, the signs inverted under NA, NB and
NC, writes the pattern of its function of their values to D, and adds that function's flags to FLAGS (R74); FCLASS writes its
class mask and no flag. What the functions are is stated by FloatResultsAreExactThenRounded, FloatSpecialValues, RoundingIsCorrect
and TranscendentalsAreEnclosed.
R97, R98, R99: the FP64 instructions, on pairs.
R104, R62, R70: the packed instructions compute element by element, rounding to nearest in the element's own format, with
the flags of both elements. -/
def Obligations.FloatResults : Prop :=
  (∀ (h : Gd) (d a b c : Opnd) (rm : RMode) (na nb nc x : Bool),
     let v := fun (s : State) (t : Thread) (o : Opnd) (n : Bool) => fp32.decode (flipSign 32 n (s.rd t o).toNat)
     let Op := fun (i : Instr) (f : State → Thread → Nat × BitVec 5) => Yields i h d (fun s t => [BitVec.ofNat 32 (f s t).1]) fun s t => (f s t).2
     Op (.fadd h d a b rm na nb) (fun s t => addF fp32 rm (v s t a na) (v s t b nb)) ∧
     Op (.fmul h d a b rm na nb) (fun s t => mulF fp32 rm (v s t a na) (v s t b nb)) ∧
     Op (.ffma h d a b c rm na nb nc) (fun s t => fmaF fp32 rm (v s t a na) (v s t b nb) (v s t c nc)) ∧
     Op (.fdiv h d a b rm) (fun s t => divF fp32 rm (v s t a false) (v s t b false)) ∧
     Op (.fsqrt h d a rm) (fun s t => sqrtF fp32 rm (v s t a false)) ∧
     Op (.fmin h d a b) (fun s t => minMaxF fp32 false (v s t a false) (v s t b false)) ∧
     Op (.fmax h d a b) (fun s t => minMaxF fp32 true (v s t a false) (v s t b false)) ∧
     Op (.frnd h d a rm x) (fun s t => rndIntF fp32 rm x (v s t a false)) ∧
     Op (.fscale h d a b rm) (fun s t => scaleF fp32 rm (v s t a false) (s.rd t b).toInt) ∧
     Op (.fclass h d a) (fun s t => (classF fp32 (s.rd t a).toNat, 0)) ∧
     Op (.frcp h d a) (fun s t => frcpF (v s t a false)) ∧
     Op (.frsq h d a) (fun s t => frsqF (v s t a false)) ∧
     Op (.fex2 h d a) (fun s t => fex2F (v s t a false)) ∧
     Op (.flg2 h d a) (fun s t => flg2F (v s t a false)) ∧
     Op (.fsinpi h d a) (fun s t => trigPiF false (v s t a false)) ∧
     Op (.fcospi h d a) (fun s t => trigPiF true (v s t a false))) ∧
  (∀ (h : Gd) (d a b c : Opnd) (rm : RMode) (na nb nc : Bool),
     let v := fun (s : State) (t : Thread) (o : Opnd) (n : Bool) => fp64.decode (flipSign 64 n (s.rd2 t o).toNat)
     let Op := fun (i : Instr) (f : State → Thread → Nat × BitVec 5) => Yields i h d (fun s t => lohi (BitVec.ofNat 64 (f s t).1)) fun s t => (f s t).2
     Op (.dadd h d a b rm na nb) (fun s t => addF fp64 rm (v s t a na) (v s t b nb)) ∧
     Op (.dmul h d a b rm na nb) (fun s t => mulF fp64 rm (v s t a na) (v s t b nb)) ∧
     Op (.dfma h d a b c rm na nb nc) (fun s t => fmaF fp64 rm (v s t a na) (v s t b nb) (v s t c nc)) ∧
     Op (.ddiv h d a b rm) (fun s t => divF fp64 rm (v s t a false) (v s t b false)) ∧
     Op (.dsqrt h d a rm) (fun s t => sqrtF fp64 rm (v s t a false)) ∧
     Op (.dmin h d a b) (fun s t => minMaxF fp64 false (v s t a false) (v s t b false)) ∧
     Op (.dmax h d a b) (fun s t => minMaxF fp64 true (v s t a false) (v s t b false))) ∧
  (∀ (h : Gd) (d a b c : Opnd) (na nb nc : Bool),
     let v := fun (F : Fmt) (s : State) (t : Thread) (o : Opnd) (n : Bool) (e : Nat) =>
       F.decode (flipSign 16 n ((s.rd t o).extractLsb' (16 * e) 16).toNat)
     let Op := fun (i : Instr) (f : State → Thread → Nat → Nat × BitVec 5) =>
       Yields i h d (fun s t => [BitVec.ofNat 16 (f s t 1).1 ++ BitVec.ofNat 16 (f s t 0).1]) fun s t => (f s t 0).2 ||| (f s t 1).2
     Op (.hadd2 h d a b na nb) (fun s t e => addF fp16 .rn (v fp16 s t a na e) (v fp16 s t b nb e)) ∧
     Op (.hmul2 h d a b na nb) (fun s t e => mulF fp16 .rn (v fp16 s t a na e) (v fp16 s t b nb e)) ∧
     Op (.hfma2 h d a b c na nb nc) (fun s t e => fmaF fp16 .rn (v fp16 s t a na e) (v fp16 s t b nb e) (v fp16 s t c nc e)) ∧
     Op (.hmin2 h d a b) (fun s t e => minMaxF fp16 false (v fp16 s t a false e) (v fp16 s t b false e)) ∧
     Op (.hmax2 h d a b) (fun s t e => minMaxF fp16 true (v fp16 s t a false e) (v fp16 s t b false e)) ∧
     Op (.bfma2 h d a b c na nb nc) (fun s t e => fmaF bf16 .rn (v bf16 s t a na e) (v bf16 s t b nb e) (v bf16 s t c nc e)) ∧
     Op (.badd2 h d a b na nb) (fun s t e => addF bf16 .rn (v bf16 s t a na e) (v bf16 s t b nb e)) ∧
     Op (.bmul2 h d a b na nb) (fun s t e => mulF bf16 .rn (v bf16 s t a na e) (v bf16 s t b nb e)))

/-- The signed integer of a finite value in units of 2^k, for k no larger than its exponent. -/
def Sys2Proof.Machine.inUnits (k : Int) : FV → Int
  | .fin n m e => (if n then -1 else 1) * ((m * 2 ^ (e - k).toNat : Nat) : Int)
  | _ => 0

/-- The flag of signalling NaNs among some values (R65). -/
def Sys2Proof.Machine.invOf (l : List FV) : BitVec 5 := if l.any fun v => v == .nan true then 0b10000 else 0

/-- R65, R69, R71, R73, R97 to R101: NaNs, infinities and zeros of the arithmetic instructions, in every format.
R102: the special operands of the transcendentals, and their exact cases. -/
def Obligations.FloatSpecialValues : Prop :=
  (∀ (F : Fmt) (rm : RMode) (isMax x : Bool) (a b c : FV) (n m : Bool) (e f : Int) (w : Nat) (k : Int),
     let INV : BitVec 5 := 0b10000
     let DZ : BitVec 5 := 0b01000
     (a.isNaN = true ∨ b.isNaN = true → addF F rm a b = (F.qnan, invOf [a, b]) ∧ divF F rm a b = (F.qnan, invOf [a, b])) ∧
     (a.isNaN = true ∨ b.isNaN = true → mulF F rm a b = (F.qnan, invOf [a, b])) ∧
     mulF F rm (.inf n) (.fin m 0 e) = (F.qnan, INV) ∧ mulF F rm (.fin m 0 e) (.inf n) = (F.qnan, INV) ∧
     fmaF F rm (.inf n) (.fin m 0 e) c = (F.qnan, INV) ∧ fmaF F rm (.fin m 0 e) (.inf n) c = (F.qnan, INV) ∧
     addF F rm (.inf n) (.inf (!n)) = (F.qnan, INV) ∧ addF F rm (.inf n) (.inf n) = (F.infinity n, 0) ∧
     addF F rm (.inf n) (.fin m w e) = (F.infinity n, 0) ∧ mulF F rm (.inf n) (.inf m) = (F.infinity (n != m), 0) ∧
     (w ≠ 0 → divF F rm (.fin n w e) (.fin m 0 f) = (F.infinity (n != m), DZ)) ∧
     divF F rm (.fin n 0 e) (.fin m 0 f) = (F.qnan, INV) ∧ divF F rm (.inf n) (.inf m) = (F.qnan, INV) ∧
     divF F rm (.fin n w e) (.inf m) = (F.zero (n != m), 0) ∧ divF F rm (.inf n) (.fin m w e) = (F.infinity (n != m), 0) ∧
     (a.isNaN = true → sqrtF F rm a = (F.qnan, invOf [a])) ∧
     (w ≠ 0 → sqrtF F rm (.fin true w e) = (F.qnan, INV)) ∧ sqrtF F rm (.inf true) = (F.qnan, INV) ∧
     sqrtF F rm (.fin n 0 e) = (F.zero n, 0) ∧ sqrtF F rm (.inf false) = (F.infinity false, 0) ∧
     (a.isNaN = true ∧ b.isNaN = true → minMaxF F isMax a b = (F.qnan, invOf [a, b])) ∧
     (a.isNaN = true ∧ b.isNaN = false → (minMaxF F isMax a b).2 = invOf [a] ∧ minMaxF F isMax b a = minMaxF F isMax a b ∧
       minMaxF F isMax a b = ((encodeFV F .rn b).1, invOf [a])) ∧
     minMaxF F isMax (.fin true 0 e) (.fin false 0 f) = (F.zero (!isMax), 0) ∧
     minMaxF F isMax (.fin false 0 e) (.fin true 0 f) = (F.zero (!isMax), 0) ∧
     minMaxF F isMax (.inf n) (.inf (!n)) = (F.infinity (!isMax), 0) ∧
     (a.isNaN = true → rndIntF F rm x a = (F.qnan, invOf [a]) ∧ scaleF F rm a k = (F.qnan, invOf [a])) ∧
     rndIntF F rm x (.inf n) = (F.infinity n, 0) ∧ rndIntF F rm x (.fin n 0 e) = (F.zero n, 0) ∧
     scaleF F rm (.inf n) k = (F.infinity n, 0) ∧ scaleF F rm (.fin n 0 e) k = (F.zero n, 0)) ∧
  (∀ (n : Bool) (e : Int) (w : Nat) (a : FV),
     let INV : BitVec 5 := 0b10000
     let DZ : BitVec 5 := 0b01000
     let one := 0x3F800000
     let inf := fun (n : Bool) => if n then 0xFF800000 else 0x7F800000
     let zero := fun (n : Bool) => if n then 0x80000000 else 0
     let nan := (0x7FC00000, INV)
     (a.isNaN = true → ∀ f ∈ [frcpF, frsqF, fex2F, flg2F, trigPiF false, trigPiF true], f a = (0x7FC00000, invOf [a])) ∧
     (let z := FV.fin n 0 e
      frcpF z = (inf n, DZ) ∧ frsqF z = (inf n, DZ) ∧ fex2F z = (one, 0) ∧ flg2F z = (inf true, DZ) ∧
        trigPiF false z = (zero n, 0) ∧ trigPiF true z = (one, 0)) ∧
     (frcpF (.inf n) = (zero n, 0) ∧ frsqF (.inf n) = (if n then nan else (0, 0)) ∧
       fex2F (.inf n) = (if n then 0 else inf false, 0) ∧ flg2F (.inf n) = (if n then nan else (inf false, 0)) ∧
       trigPiF false (.inf n) = nan ∧ trigPiF true (.inf n) = nan) ∧
     (w ≠ 0 → frsqF (.fin true w e) = nan ∧ flg2F (.fin true w e) = nan) ∧
     (∀ k : Nat, k ≤ 127 → fex2F (.fin false k 0) = ((k + 127) * 2 ^ 23, 0)) ∧
     (∀ k : Nat, 1 ≤ k → k ≤ 126 → fex2F (.fin true k 0) = ((127 - k) * 2 ^ 23, 0)) ∧
     (flg2F (.fin false (2 ^ w) e) = ofIntF fp32 .rn (w + e)) ∧
     (0 ≤ e → trigPiF false (.fin n w e) = (zero n, 0)) ∧
     (w % 2 = 1 → trigPiF true (.fin n w (-1)) = (0, 0)) ∧
     (1 ≤ e → trigPiF true (.fin n w e) = (one, 0)))

/-- R105: IDOT4 sums four products of bytes, each read signed or unsigned, onto C, wrapping or saturating; no flag. -/
def Obligations.ByteDotProduct : Prop :=
  ∀ (h : Gd) (d a b c : Opnd) (ua ub : Bool),
    let byte := fun (u : Bool) (x : Word) (i : Nat) => if u then ((x.extractLsb' (8 * i) 8).toNat : Int) else (x.extractLsb' (8 * i) 8).toInt
    let sum := fun (s : State) (t : Thread) => (s.rd t c).toInt + byte ua (s.rd t a) 0 * byte ub (s.rd t b) 0 +
      byte ua (s.rd t a) 1 * byte ub (s.rd t b) 1 + byte ua (s.rd t a) 2 * byte ub (s.rd t b) 2 + byte ua (s.rd t a) 3 * byte ub (s.rd t b) 3
    Gives (.idot4 h d a b c ua ub false) h d (fun s t => [BitVec.ofInt 32 (sum s t)]) ∧
    Gives (.idot4 h d a b c ua ub true) h d (fun s t => [BitVec.ofInt 32 (max (-2 ^ 31) (min (2 ^ 31 - 1) (sum s t)))])

/-- An integer type of CVT: its bits, and whether it is unsigned (R106). -/
def Sys2Proof.Machine.intTy : CvtTy → Option (Nat × Bool)
  | .s8 => some (8, false) | .z8 => some (8, true) | .s16 => some (16, false) | .z16 => some (16, true)
  | .s32 => some (32, false) | .z32 => some (32, true) | .s64 => some (64, false) | .z64 => some (64, true)
  | .f16 => none | .bf16 => none | .f32 => none | .f64 => none | .w48 => none
/-- A float type of CVT: its format and its bits. -/
def Sys2Proof.Machine.floatTy : CvtTy → Option (Fmt × Nat)
  | .f16 => some (fp16, 16) | .bf16 => some (bf16, 16) | .f32 => some (fp32, 32) | .f64 => some (fp64, 64) | .w48 => some (w48, 48)
  | .s8 => none | .z8 => none | .s16 => none | .z16 => none | .s32 => none | .z32 => none | .s64 => none | .z64 => none

/-- The 32 or 64 bits of a register form, as words. -/
def Sys2Proof.Machine.inForm (ty : CvtTy) (x : Dword) : List Word := if ty.regs = 2 then lohi x else [x.extractLsb' 0 32]

/-- R75, R106: CVT between integers keeps or extends bits; an integer to a float is rounded under the mode; a float to a float is
rounded, a NaN giving the canonical NaN with INV when it signals; a float to an integer rounds, and saturates with INV by the
rounded value, a NaN giving 0 with INV. DXUNPK gives the exact FP32 value of an element, or the canonical NaN with INV (R108). -/
def Obligations.Conversions : Prop :=
  ∀ (h : Gd) (d a b : Opnd) (rm : RMode) (dst src : CvtTy) (elem : Fin 4) (dx4 hi : Bool), elem.val < src.elems →
    let reg := fun (s : State) (t : Thread) => if src.regs = 2 then s.rd2 t a else (s.rd t a).setWidth 64
    let bits := fun (n : Nat) (s : State) (t : Thread) => (reg s t).toNat / 2 ^ (n * elem.val) % 2 ^ n
    let int := fun (n : Nat) (u : Bool) (x : Nat) => if u ∨ x < 2 ^ (n - 1) then (x : Int) else (x : Int) - 2 ^ n
    let Op := fun (ws : State → Thread → List Word) (fl : State → Thread → BitVec 5) => Yields (.cvt h d a rm dst src elem) h d ws fl
    (∀ n u k v, intTy src = some (n, u) → intTy dst = some (k, v) →
      Op (fun s t => inForm dst (BitVec.ofInt 64 (int k v ((int n u (bits n s t) % 2 ^ k).toNat)))) fun _ _ => 0) ∧
    (∀ n u F k, intTy src = some (n, u) → floatTy dst = some (F, k) →
      let r := fun s t => roundTo F rm (decide (int n u (bits n s t) < 0)) (int n u (bits n s t)).natAbs 0
      Op (fun s t => inForm dst (BitVec.ofNat 64 (r s t).1)) fun s t => (r s t).2) ∧
    (∀ F n G k, floatTy src = some (F, n) → floatTy dst = some (G, k) →
      let r := fun s t => match F.decode (bits n s t) with
        | .nan sig => (G.qnan, if sig then (0b10000 : BitVec 5) else 0)
        | .inf m => (G.infinity m, 0)
        | .fin m w e => roundTo G rm m w e
      Op (fun s t => inForm dst (BitVec.ofNat 64 (r s t).1)) fun s t => (r s t).2) ∧
    (∀ F n k v, floatTy src = some (F, n) → intTy dst = some (k, v) →
      let lo : Int := if v then 0 else -2 ^ (k - 1)
      let hi : Int := if v then 2 ^ k - 1 else 2 ^ (k - 1) - 1
      let r := fun s t => match F.decode (bits n s t) with
        | .nan _ => ((0 : Int), (0b10000 : BitVec 5))
        | .inf m => (if m then lo else hi, 0b10000)
        | .fin m w e =>
          let q := roundAt rm m w e (max e 0)
          let x : Int := (if m then -1 else 1) * ((q.1 * 2 ^ e.toNat : Nat) : Int)
          if x < lo then (lo, 0b10000) else if hi < x then (hi, 0b10000) else (x, if q.2 then 0b00001 else 0)
      Op (fun s t => inForm dst (BitVec.ofInt 64 (r s t).1)) fun s t => (r s t).2) ∧
    ((hi = true → dx4 = true) →
      let code := fun (x : Word) => if dx4 then (if hi then x.extractLsb' 4 4 else x.extractLsb' 0 4).toNat else (x.extractLsb' 0 8).toNat
      let w := if dx4 then 4 else 8
      let sel := fun (x y : Word) => if code x / 2 ^ (w - 1) = 1 then (y.extractLsb' 24 8).toNat else (y.extractLsb' 16 8).toNat
      let bad := fun (x y : Word) => (y.extractLsb' 16 8).toNat = 255 ∨ (y.extractLsb' 24 8).toNat = 255 ∨
        (code x / 2 ^ (w - 2) % 2 = 1 ∧ code x % 2 ^ (w - 2) = 0)
      Yields (.dxunpk h d a b dx4 hi) h d
        (fun s t => [if bad (s.rd t a) (s.rd t b) then 0x7FC00000 else
          BitVec.ofNat 32 (roundTo fp32 .rn (decide (code (s.rd t a) / 2 ^ (w - 2) % 2 = 1)) (code (s.rd t a) % 2 ^ (w - 2))
            ((sel (s.rd t a) (s.rd t b) : Int) - 127 - (if dx4 then 1 else 5))).1])
        fun s t => if bad (s.rd t a) (s.rd t b) then 0b10000 else 0)

/-! ## Rounding -/

/-- R66, R67, R68: m · 2^e, of either sign, rounded once to a format F. Where the result does not overflow, it is a finite value
of F with the sign of the exact one, and in units small enough for both: RZ, and the directed mode away from which the sign
points, give the largest magnitude of F not above the exact one; the other directed mode gives the smallest not below it; RN
gives a nearest one, and of two nearest the one with an even pattern. Inexact says whether the value differs; underflow comes
only with an inexact value below the smallest normal, and always with an inexact subnormal result. An overflow means that every
value of F lies below the exact one, gives what the table of R67 gives, and sets overflow and inexact. -/
def Obligations.RoundingIsCorrect : Prop :=
  ∀ (F : Fmt) (rm : RMode) (n : Bool) (m : Nat) (e : Int), 2 ≤ F.eb → 1 ≤ F.fb → 0 < m →
    let r := roundTo F rm n m e
    let k := min e (F.emin - F.fb)
    let exact := m * 2 ^ (e - k).toNat
    let isMag := fun (y : Nat) => ∃ p n' q f, p < 2 ^ (F.eb + F.fb + 1) ∧ F.decode p = .fin n' q f ∧ y = q * 2 ^ (f - k).toNat
    let away := (rm = .ru ∧ n = false) ∨ (rm = .rd ∧ n = true)
    let far := fun (x y : Nat) => (x - y) + (y - x)
    if r.2.getLsbD 2 then
      r.2 = 0b00101 ∧ (∀ y, isMag y → y < exact) ∧
        r.1 = (if rm = .rn ∨ away then F.infinity n else (if n then F.signBit else 0) + (F.expMax * 2 ^ F.fb - 1))
    else
      ∃ q f, F.decode r.1 = .fin n q f ∧
        let v := q * 2 ^ (f - k).toNat
        (r.2.getLsbD 0 = true ↔ v ≠ exact) ∧
        (r.2.getLsbD 1 = true → v ≠ exact ∧ exact < 2 ^ (F.emin - k).toNat) ∧
        (v ≠ exact → v < 2 ^ (F.emin - k).toNat → r.2.getLsbD 1 = true) ∧
        r.2.getLsbD 3 = false ∧ r.2.getLsbD 4 = false ∧
        (rm ≠ .rn → ¬away → v ≤ exact ∧ ∀ y, isMag y → y ≤ exact → y ≤ v) ∧
        (away → exact ≤ v ∧ ∀ y, isMag y → exact ≤ y → v ≤ y) ∧
        (rm = .rn → ∀ y, isMag y → far exact v < far exact y ∨ (far exact v = far exact y ∧ (y = v ∨ r.1 % 2 = 0)))

/-- R97, R69: of finite operands, sum, product and fused product-sum are the exact result rounded once, with the sign that the
manual gives to a zero.
R98, R66: a quotient and a square root are rounded from a number q of units that is the exact value where q is even, and lies
within one unit of it, strictly, where q is odd; q has at least three bits more than the fraction of the format.
R100, R101: FRND rounds to an integer, keeps the sign, and raises INX under X alone; FSCALE rounds A · 2^B, for every B.
R71, R99, R103: of two patterns that are no NaN, FMIN and FMAX give the lesser and the greater by value, −0 below +0, without a
flag, in every format; FCLASS tells the classes of FP32 patterns apart.
R102: FRCP and FRSQ round, to nearest, a number q of units that is the exact value where q is even, and lies within one unit of
it, strictly, where q is odd; q has at least two bits more than an FP32 significand. -/
def Obligations.FloatResultsAreExactThenRounded : Prop :=
  (∀ (F : Fmt) (rm : RMode) (na nb nc : Bool) (ma mb mc : Nat) (ea eb ec k : Int),
     let a := FV.fin na ma ea
     let b := FV.fin nb mb eb
     let c := FV.fin nc mc ec
     (k ≤ ea → k ≤ eb → ∃ n m e, k ≤ e ∧ addF F rm a b = roundTo F rm n m e ∧
       inUnits k (.fin n m e) = inUnits k a + inUnits k b ∧
       (m = 0 → n = if ma = 0 ∧ mb = 0 ∧ na = nb then na else decide (rm = .rd))) ∧
     mulF F rm a b = roundTo F rm (na != nb) (ma * mb) (ea + eb) ∧
     (k ≤ ea + eb → k ≤ ec → ∃ n m e, k ≤ e ∧ fmaF F rm a b c = roundTo F rm n m e ∧
       inUnits k (.fin n m e) = inUnits k (.fin (na != nb) (ma * mb) (ea + eb)) + inUnits k c ∧
       (m = 0 → n = if ma * mb = 0 ∧ mc = 0 ∧ (na != nb) = nc then nc else decide (rm = .rd)))) ∧
  (∀ (F : Fmt) (rm : RMode) (na nb : Bool) (ma mb : Nat) (ea eb : Int), 0 < ma → 0 < mb →
     (∃ q j : Nat, divF F rm (.fin na ma ea) (.fin nb mb eb) = roundTo F rm (na != nb) q (ea - eb - j) ∧ 2 ^ (F.fb + 2) ≤ q ∧
       (if q % 2 = 0 then q * mb = ma * 2 ^ j else (q - 1) * mb < ma * 2 ^ j ∧ ma * 2 ^ j < (q + 1) * mb)) ∧
     (∃ (q : Nat) (j : Int), sqrtF F rm (.fin false ma ea) = roundTo F rm false q j ∧ 2 ^ (F.fb + 2) ≤ q ∧ 2 * j ≤ ea ∧
       let x := ma * 2 ^ (ea - 2 * j).toNat
       if q % 2 = 0 then q * q = x else (q - 1) * (q - 1) < x ∧ x < (q + 1) * (q + 1))) ∧
  (∀ (rm : RMode) (x n : Bool) (m : Nat) (e k : Int), m < 2 ^ 24 → -149 ≤ e → e ≤ 104 →
     (0 ≤ e → rndIntF fp32 rm x (.fin n m e) = ((encodeFV fp32 .rn (.fin n m e)).1, 0)) ∧
     (e < 0 → ∃ q : Nat,
       (let d := 2 ^ (-e).toNat
        match rm with
         | .rn => (2 * m < (2 * q + 1) * d ∨ (2 * m = (2 * q + 1) * d ∧ q % 2 = 0)) ∧ (2 * q * d < 2 * m + d ∨ (2 * q * d = 2 * m + d ∧ q % 2 = 0))
         | .rz => q * d ≤ m ∧ m < (q + 1) * d
         | .ru => if n then q * d ≤ m ∧ m < (q + 1) * d else m ≤ q * d ∧ q * d < m + d
         | .rd => if n then m ≤ q * d ∧ q * d < m + d else q * d ≤ m ∧ m < (q + 1) * d) ∧
       rndIntF fp32 rm x (.fin n m e) = ((encodeFV fp32 .rn (.fin n q 0)).1, if x ∧ q * 2 ^ (-e).toNat ≠ m then 0b00001 else 0)) ∧
     scaleF fp32 rm (.fin n m e) k = roundTo fp32 rm n m (e + k)) ∧
  ((∀ (F : Fmt) (x y : Nat), 2 ≤ F.eb → 1 ≤ F.fb → let n := F.eb + F.fb + 1
     x < 2 ^ n → y < 2 ^ n → nanBits n F.fb x = false → nanBits n F.fb y = false →
     let less : Prop := orderOf n x < orderOf n y ∨ (orderOf n x = orderOf n y ∧ 2 ^ (n - 1) ≤ x)
     (less → minMaxF F false (F.decode x) (F.decode y) = (x, 0) ∧ minMaxF F true (F.decode x) (F.decode y) = (y, 0)) ∧
     (¬less → minMaxF F false (F.decode x) (F.decode y) = (y, 0) ∧ minMaxF F true (F.decode x) (F.decode y) = (x, 0))) ∧
   (∀ x : Nat, x < 2 ^ 32 → let mag := x % 2 ^ 31
     let neg : Prop := 2 ^ 31 ≤ x
     (sigBits 32 23 x = true → classF fp32 x = 2 ^ 0) ∧
     (nanBits 32 23 x = true → sigBits 32 23 x = false → classF fp32 x = 2 ^ 1) ∧
     (mag = 0x7F800000 → (neg → classF fp32 x = 2 ^ 2) ∧ (¬neg → classF fp32 x = 2 ^ 9)) ∧
     (0x00800000 ≤ mag → mag < 0x7F800000 → (neg → classF fp32 x = 2 ^ 3) ∧ (¬neg → classF fp32 x = 2 ^ 8)) ∧
     (0 < mag → mag < 0x00800000 → (neg → classF fp32 x = 2 ^ 4) ∧ (¬neg → classF fp32 x = 2 ^ 7)) ∧
     (mag = 0 → (neg → classF fp32 x = 2 ^ 5) ∧ (¬neg → classF fp32 x = 2 ^ 6)))) ∧
  (∀ (n : Bool) (m : Nat) (e : Int), 0 < m → m < 2 ^ 24 →
     (∃ q j : Nat, frcpF (.fin n m e) = roundTo fp32 .rn n q (-e - j) ∧ 2 ^ 25 ≤ q ∧
       (if q % 2 = 0 then q * m = 2 ^ j else (q - 1) * m < 2 ^ j ∧ 2 ^ j < (q + 1) * m)) ∧
     (∃ (q p : Nat) (j : Int), frsqF (.fin false m e) = roundTo fp32 .rn false q j ∧ 2 ^ 25 ≤ q ∧ 2 * j + e = -(p : Int) ∧
       (if q % 2 = 0 then q * q * m = 2 ^ p else (q - 1) * (q - 1) * m < 2 ^ p ∧ 2 ^ p < (q + 1) * (q + 1) * m)))

/-! ## Cross-lane instructions -/

/-- R110, R111, R38: a thread that executes a cross-lane instruction notes its arrival, with its member mask (all members for z),
its operands, and how often it has executed the word at this address, and waits after the word; its destination is outstanding.
R110, R111: a thread whose guard is false at a cross-lane instruction notes an inactive arrival there and goes on; nothing else
changes. And no member completes while another that its mask names lives and has not arrived at the matching execution.
R111, R112: once every live member named has arrived at the matching execution, active or not, the wait ends, and the
member takes the result over the members that arrived active, in ascending order; memory is not touched. -/
def Obligations.CrossLaneArrivesAndCompletes : Prop :=
  (∀ (s : State) (t : Thread) (h : Gd) (d a b c : Opnd) (w64 excl dx4 : Bool) (dist : Fin 16) (m : ShflMode) (k : VoteKind) (op : RedOp),
     let val := fun (w : Bool) (o : Opnd) => if w then (s.rd2 t o).toNat else (s.rd t o).toNat
     let Arrives := fun (i : Instr) (n av cv : Nat) => s.Runs h i t → ∃ s' ar, exec i s = .next s' ∧
       ar = (⟨s.nextId, t.id, t.place.team, t.place.set, t.place.member, t.pos.pc.toNat, t.xlCount t.pos.pc.toNat, true,
         if b = .z then 2 ^ 64 - 1 else (s.rd2 t b).toNat, av, cv, i, d⟩ : Arrival) ∧
       s.Awaits s' t s.nextId d n { t.advanceTo (.xlane s.nextId) with cnt := (t.xlBump t.pos.pc.toNat).cnt } ∧
       s' = { s with nextId := s.nextId + 1, wk := { s.wk with threads := s'.wk.threads, groups := s'.wk.groups, arrivals := s.wk.arrivals ++ [ar] } }
     Arrives (.dxpack h d a b dx4 dist) 1 (val false a) 0 ∧
     Arrives (.shfl h d a b c m) 1 (val false a) ((s.rd t c).toNat % 128) ∧
     Arrives (.vote h d a b k) (if k = .mask then 2 else 1) (val false a) 0 ∧
     Arrives (.redux h d a b op) 1 (val false a) 0 ∧
     Arrives (.elect h d b) 1 0 0 ∧
     Arrives (.matchL h d a b w64) 2 (val w64 a) 0 ∧
     Arrives (.scan h d a b op excl) 1 (val false a) 0 ∧
     Arrives (.rdfirst h d a b w64) (if w64 then 2 else 1) (val w64 a) 0) ∧
  ((∀ (s : State) (t : Thread) (i : Instr) (w : Nat × Nat), encode i = some w → w.1 = 0 → crossLane i = true →
     let h := guardOf w.2
     let at_ := t.pos.pc.toNat
     s.front = [t] → t.out.hits = [] → (useOf i).fits t.place.budget = true → (h.p.val = 7 ∨ s.pending t [.p h.p.val] = false) →
     t.regs.getP h.p.val = h.neg → ∃ s' ar, exec i s = .next s' ∧
       ar = (⟨s.nextId, t.id, t.place.team, t.place.set, t.place.member, at_, t.xlCount at_, false, 0, 0, 0, i, .z⟩ : Arrival) ∧
       s'.thread t.id = some { t.advance with cnt := (t.xlBump at_).cnt } ∧ (∀ u, u ≠ t.id → s'.thread u = s.thread u) ∧
       s' = { s with nextId := s.nextId + 1, wk := { s.wk with threads := s'.wk.threads, arrivals := s.wk.arrivals ++ [ar] } }) ∧
   (∀ (s : State) (t u : Thread) (r : Arrival), s.thread t.id = some t → t.wait = .xlane r.id →
     s.wk.arrivals.find? (fun q => q.id == r.id) = some r → u ∈ s.wk.threads → u.exited = false → u.place.team = r.team →
     u.place.set = r.set → u.place.member < 64 → r.mask / 2 ^ u.place.member % 2 = 1 →
     (∀ q ∈ s.wk.arrivals, q.member = u.place.member → ¬(q.team = r.team ∧ q.set = r.set ∧ q.addr = r.addr ∧ q.n = r.n)) →
     exec (.crossLaneCompletion [t.id]) s = .next s)) ∧
  (∀ (s : State) (t : Thread) (r : Arrival), s.thread t.id = some t → t.exited = false → t.wait = .xlane r.id → r.tid = t.id →
     s.wk.arrivals.find? (fun q => q.id == r.id) = some r →
     (∀ j, j < 64 → r.mask / 2 ^ j % 2 = 1 →
       (∃ q ∈ s.wk.arrivals, q.team = r.team ∧ q.set = r.set ∧ q.addr = r.addr ∧ q.n = r.n ∧ q.member = j) ∨
       ∀ u ∈ s.wk.threads, u.place.team = r.team → u.place.set = r.set → u.place.member = j → u.exited = true) →
     let cs := (List.range 64).filterMap fun j => if r.mask / 2 ^ j % 2 = 1 then
       s.wk.arrivals.find? fun q => q.team == r.team && q.set == r.set && q.addr == r.addr && q.n == r.n && q.member == j && q.active else none
     ∃ s', exec (.crossLaneCompletion [t.id]) s = .next s' ∧
       s.Takes s' t r.id r.d (crossRes r cs).1 { t with wait := .none, regs := { t.regs with flags := t.regs.flags ||| (crossRes r cs).2 } } ∧
       s' = { s with wk := { s.wk with threads := s'.wk.threads, groups := s'.wk.groups } })

/-- R107, R112, R113: the results over the contributing members, of which each has another number below 64. A member that does not
contribute reads as 0 for SHFL, and an offset that leaves the set gives the member's own value. DXPACK encodes the member's half of the
set as a block, absent members as +0, and gives E1, E0 and the member's code, with the flags of its element. -/
def Obligations.CrossLaneResults : Prop :=
  ∀ (r : Arrival) (cs : List Arrival) (h : Gd) (d a b c : Opnd) (w64 excl : Bool) (op : RedOp),
    (cs.map Arrival.member).Pairwise (· < ·) → (∀ q ∈ cs, q.member < 64) → r.member < 64 → r.c < 128 →
    let res := fun (i : Instr) => (crossRes { r with instr := i } cs).1
    let vals := fun (l : List Arrival) => l.map fun q => BitVec.ofNat 32 q.a
    let unit : Word := match op with
      | .add => 0 | .and => 0xFFFFFFFF | .or => 0 | .xor => 0 | .minS => 0x7FFFFFFF | .minZ => 0xFFFFFFFF | .maxS => 0x80000000 | .maxZ => 0
    let ap := fun (x y : Word) => match op with
      | .add => x + y | .and => x &&& y | .or => x ||| y | .xor => x ^^^ y
      | .minS => if x.toInt ≤ y.toInt then x else y | .minZ => if x.toNat ≤ y.toNat then x else y
      | .maxS => if x.toInt ≤ y.toInt then y else x | .maxZ => if x.toNat ≤ y.toNat then y else x
    let from_ := fun (j : Nat) => [BitVec.ofNat 32 (match cs.find? fun q => q.member == j with
      | some q => q.a
      | none => 0)]
    (∀ i, (crossRes { r with instr := i } cs).2 = 0 ∨ ∃ h d a b dx4 dist, i = .dxpack h d a b dx4 dist) ∧
    (∀ (dx4 : Bool) (dist : Fin 16),
      let blk := dxEncode dx4 dist.val ((List.range 32).map fun j => fp32.decode (match cs.find? fun q => q.member == r.member / 32 * 32 + j with
        | some q => q.a
        | none => 0))
      ∀ code fl, blk.2.2[r.member % 32]? = some (code, fl) → code < 256 → blk.1 < 256 → blk.2.1 < 256 →
        crossRes { r with instr := .dxpack h d a b dx4 dist } cs =
          ([BitVec.ofNat 8 blk.2.1 ++ BitVec.ofNat 8 blk.1 ++ BitVec.ofNat 16 code], fl)) ∧
    res (.shfl h d a b c .abs) = from_ (r.c % 64) ∧ res (.shfl h d a b c .xor) = from_ (r.member ^^^ (r.c % 64)) ∧
    res (.shfl h d a b c .rot) = from_ ((r.member + r.c) % 64) ∧
    (∀ o : Int, o = (if r.c < 64 then (r.c : Int) else r.c - 128) →
      res (.shfl h d a b c .ofs) = if 0 ≤ r.member + o ∧ r.member + o ≤ 63 then from_ (r.member + o).toNat else [BitVec.ofNat 32 r.a]) ∧
    (∃ v : Bool, res (.vote h d a b .all) = [if v then 1 else 0] ∧ (v = true ↔ ∀ q ∈ cs, q.a ≠ 0)) ∧
    (∃ v : Bool, res (.vote h d a b .any) = [if v then 1 else 0] ∧ (v = true ↔ ∃ q ∈ cs, q.a ≠ 0)) ∧
    (∃ v : Bool, res (.vote h d a b .same) = [if v then 1 else 0] ∧ (v = true ↔ ∀ q ∈ cs, ∀ q' ∈ cs, q.a = q'.a)) ∧
    (∃ v : Dword, res (.vote h d a b .mask) = lohi v ∧ ∀ j, j < 64 → (v.getLsbD j = true ↔ ∃ q ∈ cs, q.member = j ∧ q.a ≠ 0)) ∧
    res (.vote h d a b .count) = [BitVec.ofNat 32 (cs.countP fun q => q.a ≠ 0)] ∧
    res (.redux h d a b op) = [(vals cs).foldl ap unit] ∧
    res (.scan h d a b op excl) = [(vals (cs.filter fun q => decide (q.member < r.member ∨ (excl = false ∧ q.member = r.member)))).foldl ap unit] ∧
    (∃ v : Bool, res (.elect h d b) = [if v then 1 else 0] ∧ (v = true ↔ (∃ q ∈ cs, q.member = r.member) ∧ ∀ q ∈ cs, r.member ≤ q.member)) ∧
    (∃ v : Dword, res (.matchL h d a b w64) = lohi v ∧ ∀ j, j < 64 → (v.getLsbD j = true ↔ ∃ q ∈ cs, q.member = j ∧ q.a = r.a)) ∧
    (∃ v : Dword, res (.rdfirst h d a b w64) = (if w64 then lohi v else [v.extractLsb' 0 32]) ∧
      v = BitVec.ofNat 64 (match cs with
        | q :: _ => q.a
        | [] => 0))

/-- R78, R107: a DX block. With a NaN or an infinity among the inputs, both exponents are 0xFF, every code is 0, and INV goes to those
members alone. Otherwise E1 is the least exponent at which the largest magnitude fits, or 254, E0 lies D below it or is 0, and no
code is a reserved one; each element is rounded under E0 where it fits there, else under E1, where it saturates with OVF; its code
holds the selector, the sign and the magnitude, or is 0; UNF marks a nonzero element that became 0, INX a value that is not the
element's. RoundInt gives a nearest integer, and of two the even one. -/
def Obligations.DxBlockEncoding : Prop :=
  ∀ (dx4 : Bool) (dist : Nat) (xs : List FV), xs.length = 32 → 1 ≤ dist →
    let bad := fun (x : FV) => x.isNaN || x.isInf
    let r := dxEncode dx4 dist xs
    let w := if dx4 then 4 else 8
    let most := if dx4 then 3 else 63
    r.2.2.length = 32 ∧
    (xs.any bad = true → r.1 = 255 ∧ r.2.1 = 255 ∧ r.2.2 = xs.map fun x => (0, if bad x then 0b10000 else 0)) ∧
    (xs.any bad = false →
      r.2.1 ≤ 254 ∧ r.1 = r.2.1 - dist ∧
      (∀ x ∈ xs, r.2.1 < 254 → roundIntPow x.mag.1 x.mag.2 ((if dx4 then 128 else 132) - (r.2.1 : Int)) ≤ most) ∧
      (∀ e, e < r.2.1 → ∃ x ∈ xs, most < roundIntPow x.mag.1 x.mag.2 ((if dx4 then 128 else 132) - (e : Int))) ∧
      (∀ c ∈ r.2.2, c.1 < 2 ^ w ∧ (c.1 / 2 ^ (w - 2) % 2 = 1 → c.1 % 2 ^ (w - 2) ≠ 0)) ∧
      ∀ (i : Nat) (n : Bool) (m : Nat) (e k : Int), xs[i]? = some (.fin n m e) →
        let sh : Int := if dx4 then 128 else 132
        let q0 := roundIntPow m e (sh - (r.1 : Int))
        let q1 := roundIntPow m e (sh - (r.2.1 : Int))
        let hi := decide (most < q0)
        let q := if hi then min q1 most else q0
        let es : Int := if hi ∧ q ≠ 0 then r.2.1 else r.1
        k ≤ e → k ≤ es - sh →
        r.2.2[i]? = some
          (if q = 0 then 0 else (if hi then 2 ^ (w - 1) else 0) + (if n then 2 ^ (w - 2) else 0) + q,
           (if hi ∧ most < q1 then 0b00100 else 0) ||| (if q = 0 ∧ m ≠ 0 then 0b00010 else 0) |||
             (if inUnits k (.fin false q (es - sh)) ≠ inUnits k (.fin false m e) then 0b00001 else 0))) ∧
    (∀ (m : Nat) (e k : Int), (0 ≤ e + k → roundIntPow m e k = m * 2 ^ (e + k).toNat) ∧
      (e + k < 0 → let d := 2 ^ (-(e + k)).toNat
        let q := roundIntPow m e k
        2 * m ≤ (2 * q + 1) * d ∧ 2 * q * d ≤ 2 * m + d ∧ ((2 * m = (2 * q + 1) * d ∨ 2 * q * d = 2 * m + d) → q % 2 = 0)))

/-! ## Memory instructions at issue -/

/-- The effective address of R230, and the canonical form that it must have. -/
def Sys2Proof.Machine.effective (s : State) (t : Thread) (a : Opnd) (ofs : BitVec 19) : Dword := s.rd2 t a + ofs.signExtend 64
def Sys2Proof.Machine.inSpace (x : Nat) : Prop := x / 2 ^ 47 = 0 ∨ x / 2 ^ 47 = 2 ^ 17 - 1

/-- The parts of n bytes at an address: one in each line that they touch (R228). -/
def Sys2Proof.Machine.partsAt (ea n : Nat) : List APart :=
  if ea % 128 + n ≤ 128 then [⟨0, n, ea, false, 0, none, false, none, none⟩]
  else [⟨0, 128 - ea % 128, ea, false, 0, none, false, none, none⟩,
    ⟨128 - ea % 128, n - (128 - ea % 128), (ea + (128 - ea % 128)) % 2 ^ 64, false, 0, none, false, none, none⟩]

/-- The bytes that a store of a size takes from its register or registers, lowest first (R39, R234). -/
def Sys2Proof.Machine.bytesFrom (s : State) (t : Thread) (d : Opnd) (n : Nat) : List Byte :=
  (List.range n).map fun k => (s.rdReg t d (k / 4)).extractLsb' (8 * (k % 4)) 8

/-- A core whose operand log has a free entry (R408). -/
def Sys2Proof.Machine.State.logRoom (s : State) (t : Thread) : Prop := (s.ms.oplog.filter fun o => o.core == t.place.core).length < 64

/-- R33, R39, R214, R228, R230, R234, R237, R244, R247, R249, R257, R258: a global access with a canonical address, aligned where it is an
atomic, enters the abstract machine with its operands as they stand at issue and raises its counter by one; an atomic waits
for it. Of an access across lines only its own address need be canonical here: the upper part is translated when it performs (R235,
log 62). Where the counter stands at 63, or the operand log is full, or for LDS an FSAMP is outstanding, it does not come to this
(R34, R252, R408).
R225, R231 to R234, R237, R239 to R242, R244: a vault access whose vault address names vault bytes, aligned where it is tagged or an
atomic, enters the abstract machine at the vault key of those bytes and raises its counter by one. -/
def Obligations.AccessesIssue : Prop :=
  (∀ (s : State) (t : Thread) (h : Gd) (d a : Opnd) (m : MemArg) (ofs : BitVec 19) (sz : Size) (f1 f2 f3 : Bool) (x : AtomArg),
     let E := (effective s t m.a m.ofs).toNat
     let F := (effective s t a ofs).toNat
     let A := (s.rd2 t x.a).toNat
     let an := if x.b64 then 8 else 4
     let num := fun (o : Opnd) => if x.b64 then (s.rd2 t o).toNat else (s.rd t o).toNat
     let acc := fun (st : Nat) (sc : Scope) (acq rel prom : Bool) (k : AKind) (c : Ctr) (dreg e n : Nat) =>
       (⟨s.nextId, t.id, t.place.core, false, st, sc, acq, rel, prom, k, c, t.pos, dreg, partsAt e n, List.replicate n 0, false, false, none, none⟩ : Access)
     let loads := { t.ctr with loads := t.ctr.loads + 1 }
     let stores := { t.ctr with stores := t.ctr.stores + 1 }
     s.logRoom t →
     (s.Runs h (.ld h d m sz f1 f2 f3) t → t.ctr.loads < 63 → inSpace E → ∃ s', exec (.ld h d m sz f1 f2 f3) s = .next s' ∧
       s.Places s' t (acc m.stream.val m.scope f2 false f3 (.load d sz f1) .load d.byte E sz.bytes) d sz.regs { t.advance with ctr := loads }) ∧
     (s.Runs h (.st h d m sz f1) t → t.ctr.stores < 63 → inSpace E → ∃ s', exec (.st h d m sz f1) s = .next s' ∧
       s.Places s' t (acc m.stream.val m.scope false f1 false (.store (bytesFrom s t d sz.bytes)) .store d.byte E sz.bytes) .z 0
         { t.advance with ctr := stores }) ∧
     (s.Runs h (.lds h d m sz f1) t → t.ctr.loads < 63 → t.out.fsamp = [] → inSpace E → ∃ s', exec (.lds h d m sz f1) s = .next s' ∧
       s.Places s' t (acc m.stream.val m.scope false false false (.lds d sz f1) .load d.byte E sz.bytes) d sz.regs { t.advance with ctr := loads }) ∧
     (s.Runs h (.atom h x) t → t.ctr.loads < 63 → t.ctr.stores < 63 → A % an = 0 → inSpace A → ∃ s', exec (.atom h x) s = .next s' ∧
       s.Places s' t (acc x.stream.val x.scope (decide (x.ord = .acquire ∨ x.ord = .acqrel)) (decide (x.ord = .release ∨ x.ord = .acqrel)) false
           (.atomic (atomOp x.op) x.d x.b64 (num x.b) (match x.op with
             | .cas c => num c
             | _ => 0)) (if x.d = .z then .store else .load) x.d.byte A an) x.d (if x.b64 then 2 else 1)
         { t.advanceTo (.atomic s.nextId) with ctr := if x.d = .z then stores else loads }) ∧
     (s.Runs h (.cwb h m f1) t → t.ctr.stores < 63 → inSpace E → ∃ s', exec (.cwb h m f1) s = .next s' ∧
       s.Places s' t (acc m.stream.val m.scope false false false (.cache (.wb f1)) .store 255 E 1) .z 0 { t.advance with ctr := stores }) ∧
     (s.Runs h (.cinvIcache h a ofs) t → t.place.priv = true → t.ctr.stores < 63 → inSpace F → ∃ s', exec (.cinvIcache h a ofs) s = .next s' ∧
       s.Places s' t (acc 15 .core false false false (.cache .icache) .store 255 F 1) .z 0 { t.advance with ctr := stores }) ∧
     (s.Runs h (.cinvDiscard h a ofs) t → t.place.priv = true → t.ctr.stores < 63 → inSpace F → ∃ s', exec (.cinvDiscard h a ofs) s = .next s' ∧
       s.Places s' t (acc 15 .core false false false (.cache .discard) .store 255 F 1) .z 0 { t.advance with ctr := stores })) ∧
  (∀ (s : State) (t : Thread) (h : Gd) (d : Opnd) (m : MemArg) (sz : Size) (f1 f2 cr : Bool) (x : AtomArg) (key : Nat),
     let V := (s.rd t m.a + m.ofs.signExtend 32).toNat
     let A := (s.rd t x.a).toNat
     let an := if x.b64 then 8 else 4
     let num := fun (o : Opnd) => if x.b64 then (s.rd2 t o).toNat else (s.rd t o).toNat
     let acc := fun (st : Nat) (sc : Scope) (acq rel : Bool) (k : AKind) (c : Ctr) (dreg n : Nat) =>
       (⟨s.nextId, t.id, t.place.core, true, st, sc, acq, rel, false, k, c, t.pos, dreg, [⟨0, n, key, false, 0, none, false, none, none⟩],
         List.replicate n 0, false, false, none, none⟩ : Access)
     let loads := { t.ctr with loads := t.ctr.loads + 1 }
     let stores := { t.ctr with stores := t.ctr.stores + 1 }
     let Puts := fun (i : Instr) (a : Access) (d : Opnd) (n : Nat) (c : Counters) =>
       s.Runs h i t → ∃ s', exec i s = .next s' ∧ s.Places s' t a d n { t.advance with ctr := c }
     s.logRoom t → t.ctr.loads < 63 → t.ctr.stores < 63 →
     (s.vaultKey t.place V sz.bytes cr = .ok key →
       Puts (.ldv h d m sz f1 f2 cr) (acc m.stream.val m.scope f2 false (.load d sz f1) .load d.byte sz.bytes) d sz.regs loads ∧
       Puts (.stv h d m sz f1 cr) (acc m.stream.val m.scope false f1 (.store (bytesFrom s t d sz.bytes)) .store d.byte sz.bytes) .z 0 stores ∧
       (V % sz.bytes = 0 →
         Puts (.ldt h d m sz f1 f2 cr) (acc m.stream.val m.scope f2 false (.ldt d sz f1) .load d.byte sz.bytes) d sz.regs loads ∧
         Puts (.stt h d m sz f1 cr) (acc m.stream.val m.scope false f1 (.stt (bytesFrom s t d sz.bytes)) .store d.byte sz.bytes) .z 0 stores ∧
         Puts (.tagopEmpty h m sz f1 cr) (acc m.stream.val m.scope false f1 (.tagop false) .store 255 sz.bytes) .z 0 stores ∧
         Puts (.tagopFull h m sz f1 cr) (acc m.stream.val m.scope false f1 (.tagop true) .store 255 sz.bytes) .z 0 stores)) ∧
     (s.Runs h (.atomv h x cr) t → A % an = 0 → s.vaultKey t.place A an cr = .ok key → ∃ s', exec (.atomv h x cr) s = .next s' ∧
       s.Places s' t (acc x.stream.val x.scope (decide (x.ord = .acquire ∨ x.ord = .acqrel)) (decide (x.ord = .release ∨ x.ord = .acqrel))
           (.atomic (atomOp x.op) x.d x.b64 (num x.b) (match x.op with
             | .cas c => num c
             | _ => 0)) (if x.d = .z then .store else .load) x.d.byte an) x.d (if x.b64 then 2 else 1)
         { t.advanceTo (.atomic s.nextId) with ctr := if x.d = .z then stores else loads }))

/-- R231 to R233, R399: which vault a vault address names, and the reason of cause 0x11 where it names none, in the order of the
manual: reserved bits, a core beyond the cluster, a core of another partition or of none, bytes past the vault's end; a
quay core names only cores of its own die, and no cluster.
R58, R230, R233, R242, R246: a misaligned atomic or tagged access raises cause 0x05 before its address is looked at; an address
that is not canonical raises cause 0x10 with reason 1 and that address; a vault address that names no
vault bytes raises its cause 0x11. Each is raised at the word, which has no effect. -/
def Obligations.BadAddressesTrap : Prop :=
  (∀ (s : State) (pl : Place) (va n : Nat) (cr : Bool) (dw corner w hh : Nat), va < 2 ^ 32 → 1 ≤ w → pl.clp = .cluster dw corner w hh →
     let die := va / 2 ^ 30
     let core := va / 2 ^ 24 % 64
     let ofs := va % 2 ^ 22
     let c : CoreId := if cr = true then ⟨pl.core.die, corner + core % w + 8 * (core / w)⟩ else ⟨die, core⟩
     s.vaultKey pl va n cr =
       if 64 ≤ pl.core.core ∧ (cr = true ∨ die ≠ pl.core.die) then .error ⟨0x11, 12⟩
       else if va / 2 ^ 22 % 4 ≠ 0 then .error ⟨0x11, 8⟩
       else if cr = true ∧ (die ≠ 0 ∨ w * hh ≤ core) then .error ⟨0x11, 9⟩
       else if ¬(s.md.dies.getLsbD c.die = true ∧ s.md.failed.getLsbD c.die = false ∧ c.core < 64 ∧
           (s.part pl.part).cfg.rows.getLsbD (8 * c.die + c.core / 8) = true) then .error ⟨0x11, 10⟩
       else if 2 ^ 22 < ofs + n then .error ⟨0x11, 11⟩
       else .ok (c.die * 2 ^ 30 + c.core * 2 ^ 24 + ofs)) ∧
  (∀ (s : State) (t : Thread) (h : Gd) (d : Opnd) (m : MemArg) (sz : Size) (f1 f2 f3 cr : Bool) (x : AtomArg) (e : Flt),
     let E := (effective s t m.a m.ofs).toNat
     let V := (s.rd t m.a + m.ofs.signExtend 32).toNat
     let A := (s.rd2 t x.a).toNat
     let B := (s.rd t x.a).toNat
     let an := if x.b64 then 8 else 4
     let Traps := fun (i : Instr) (f : Flt) (addr : Nat) => s.Runs h i t → exec i s = .next (s.trapHere t f.cause f.reason addr 0)
     s.logRoom t → t.ctr.loads < 63 → t.ctr.stores < 63 → t.out.fsamp = [] →
     (¬inSpace E → Traps (.ld h d m sz f1 f2 f3) ⟨0x10, 1⟩ E ∧ Traps (.st h d m sz f1) ⟨0x10, 1⟩ E ∧ Traps (.lds h d m sz f1) ⟨0x10, 1⟩ E ∧
       Traps (.cwb h m f1) ⟨0x10, 1⟩ E) ∧
     (A % an ≠ 0 → Traps (.atom h x) ⟨0x05, 0⟩ A) ∧ (B % an ≠ 0 → Traps (.atomv h x cr) ⟨0x05, 0⟩ B) ∧
     (V % sz.bytes ≠ 0 → Traps (.ldt h d m sz f1 f2 cr) ⟨0x05, 0⟩ V ∧ Traps (.stt h d m sz f1 cr) ⟨0x05, 0⟩ V ∧
       Traps (.tagopEmpty h m sz f1 cr) ⟨0x05, 0⟩ V ∧ Traps (.tagopFull h m sz f1 cr) ⟨0x05, 0⟩ V) ∧
     (s.vaultKey t.place V sz.bytes cr = .error e → Traps (.ldv h d m sz f1 f2 cr) e V ∧ Traps (.stv h d m sz f1 cr) e V ∧
       (V % sz.bytes = 0 → Traps (.ldt h d m sz f1 f2 cr) e V ∧ Traps (.stt h d m sz f1 cr) e V)) ∧
     (A % an = 0 → ¬inSpace A → Traps (.atom h x) ⟨0x10, 1⟩ A))

/-- R219, R224, R250 to R256: SMP enters the abstract machine as one load once its descriptor has been checked, which waits for what R215 puts
before that read (log 63), and fills the descriptor's line (R452); a descriptor that is misaligned or bad traps at the SMP; FSAMP, FENCE and FJOIN note
the number below which accesses are earlier; FENCE leaves a fresh token in its k register; FWAIT takes the token and waits; PREF
changes no register, and takes a step of the machine only for the sampler cache. -/
def Obligations.SamplerAndFencesIssue : Prop :=
  ∀ (s : State) (t : Thread) (h : Gd) (d a b : Opnd) (lin norm scF : Bool) (wrap : WrapMode) (stream : Fin 16) (sc : Scope) (k : Fin 8)
      (cover : Cover) (mask : BitVec 16) (ofs : BitVec 19) (tgt : PrefTgt),
    let E := (effective s t a ofs).toNat
    let A := (s.rd2 t a).toNat
    (∀ n, s.Runs h (.smp h d a b lin wrap norm stream) t → s.logRoom t → t.ctr.loads < 63 → t.out.fsamp = [] → inSpace A →
      s.smpCheck t d A = .ok n → s.pending t (spanRefs (d, n)) = false →
      (s.descAt t.xl A = none ∨ s.ordered (smpAccess t s.nextId stream.val .pref 0 A) = true) →
      ∃ s', exec (.smp h d a b lin wrap norm stream) s = .next s' ∧
        s.Awaits s' t s.nextId d n { t.advance with ctr := { t.ctr with loads := t.ctr.loads + 1 } } ∧ s'.nextId = s.nextId + 1 ∧
        s'.ms.accs = s.ms.accs ++ [⟨s.nextId, t.id, t.place.core, false, stream.val, .core, false, false, false,
            .smp d (s.rdReg t b 0) (s.rdReg t b 1) lin wrap norm A, .load, t.pos, d.byte, [⟨0, 32, A, false, 0, none, false, none, none⟩],
            List.replicate 32 0, false, false, none, none⟩] ∧ s.KeepsBytes s' ∧
        ∀ pa, s.descAt t.xl A = some pa → (t.place.core, pa / 128) ∈ s'.ms.smpLines ∧ (t.place.core, pa / 128) ∈ s'.ms.smpUsed) ∧
    (∀ c, s.Runs h (.smp h d a b lin wrap norm stream) t → s.logRoom t → t.ctr.loads < 63 → t.out.fsamp = [] → inSpace A →
      s.smpCheck t d A = .error c → (s.descAt t.xl A = none ∨ A % 32 ≠ 0 ∨ s.ordered (smpAccess t s.nextId stream.val .pref 0 A) = true) →
      exec (.smp h d a b lin wrap norm stream) s = .next ((s.smpFill t A).trapHere t c 0 0 0)) ∧
    (s.Runs h (.fsamp h sc) t → ∃ s', exec (.fsamp h sc) s = .next s' ∧
      s.Becomes s' t { t.advance with out := { t.out with fsamp := t.out.fsamp ++ [(sc, s.nextId)] } }) ∧
    (s.Runs h (.fjoin h mask) t → ∃ s', exec (.fjoin h mask) s = .next s' ∧
      s.Becomes s' t { t.advance with out := { t.out with joins := t.out.joins ++ [(mask, s.nextId)] } }) ∧
    (s.Runs h (.fence h k sc scF cover) t → ∃ s' y, exec (.fence h k sc scF cover) s = .next s' ∧ s'.thread t.id = some y ∧
      y = { t.advance with regs := { t.regs with k := y.regs.k } } ∧
      (∀ j, j < 8 → y.regs.getK j = if j = k.val then some (.fence s.nextId) else t.regs.getK j) ∧
      (∀ u, u ≠ t.id → s'.thread u = s.thread u) ∧
      s' = { s with
        nextId := s.nextId + 1
        ms := { s.ms with fences := s.ms.fences ++ [⟨s.nextId, t.id, sc, scF, cover, s.nextId, t.obs⟩] }
        wk := { s.wk with threads := s'.wk.threads } }) ∧
    (∀ f, s.Runs h (.fwait h k) t → t.regs.getK k.val = some (.fence f) → ∃ s' y, exec (.fwait h k) s = .next s' ∧
      s.Becomes s' t y ∧ y = { t.advanceTo (.fence f) with regs := { t.regs with k := y.regs.k } } ∧
      ∀ j, j < 8 → y.regs.getK j = if j = k.val then none else t.regs.getK j) ∧
    (s.Runs h (.fwait h k) t → (∀ f, t.regs.getK k.val ≠ some (.fence f)) → exec (.fwait h k) s = .next (s.trapHere t 0x02 0 0 0)) ∧
    (s.Runs h (.pref h a ofs tgt) t → s.logRoom t → inSpace E → ∃ s', exec (.pref h a ofs tgt) s = .next s' ∧
      if tgt = .smp then
        s.Places s' t ⟨s.nextId, t.id, t.place.core, false, 15, .core, false, false, false, .pref, .none, t.pos, 0,
          [⟨0, 1, E, false, 0, none, false, none, none⟩], List.replicate 1 0, false, false, none, none⟩ .z 0 t.advance
      else s'.thread t.id = some t.advance ∧ (∀ u, u ≠ t.id → s'.thread u = s.thread u) ∧ (∀ g, s'.group g = s.group g) ∧
        s'.ms.accs = s.ms.accs ∧ s.KeepsBytes s')

/-! ## The steps of the abstract machine -/

/-- Two accesses touch a common byte of one space, of the second a byte that it has not performed (R215). -/
def Sys2Proof.Machine.State.share (s : State) (a b : Access) : Prop :=
  a.vault = b.vault ∧ ∃ t ∈ s.touches a fun _ => true, ∃ u ∈ s.touches b fun p => !p.done, t.meets u = true

/-- R214, R215, R217, R220, R273, R401: which accesses may perform. An access that a switch has withdrawn keeps its place in the order.
Beyond core scope a release also waits until its thread's earlier writes have left the gather buffer. Sampler reads wait for FSAMP, and every access for its thread's FWAIT, at
issue; R215's condition on tags is part of the statement on vault accesses. -/
def Obligations.AccessesPerformInOrder : Prop :=
  ∀ (s : State) (a : Access) (t : Thread), s.thread a.tid = some t →
    let earlier := fun (b : Access) => b ∈ s.ms.accs ∧ b.tid = a.tid ∧ b.id < a.id
    let all := fun (b : Access) => ∀ q ∈ b.parts, q.done = true
    let steers := fun (b : Access) => b.kind = .pref ∨ (∃ x, b.kind = .cache x) ∨ ∃ x y z, b.kind = .record x y z
    (∀ b, a.vault = true → b.vault = true → (∀ d u v l w n e, a.kind ≠ .smp d u v l w n e ∧ b.kind ≠ .smp d u v l w n e) →
      (s.share a b ↔ ∃ p ∈ a.parts, ∃ q ∈ b.parts, q.done = false ∧ p.ea < q.ea + q.len ∧ q.ea < p.ea + p.len)) ∧
    (s.ordered a = true ↔
      a.withdrawn = false ∧
      (a.stream ≠ 15 → ∀ b, earlier b → b.stream ≠ a.stream) ∧
      (∀ b, earlier b → steers b ∨ all b ∨ ¬ s.share a b) ∧
      (∀ b, earlier b → b.acq = true → steers b ∨ all b) ∧
      (a.rel = true → (∀ b, earlier b → steers b ∨ all b) ∧
        (a.scope ≠ .core → ∀ g ∈ s.co.gather, ∀ w ∈ s.ms.writes, w.id = g.wid → w.tid = a.tid → w.acc ≠ 0 → a.id ≤ w.acc) ∧
        ∀ r ∈ s.ms.writes, r.id ∈ t.obs → (∀ q ∈ s.ms.writes, q.id = r.id → q.acc ≠ a.id) →
          ∀ p ∈ s.performedAt t.who a.scope, s.visibleAt r p = true) ∧
      ∀ j ∈ t.out.joins, j.2 ≤ a.id → j.1.getLsbD a.stream = true →
        ∀ b ∈ s.ms.accs, b.tid = a.tid → b.id < j.2 → j.1.getLsbD b.stream = true → steers b)

/-- The state once an access's addresses have been translated: page walks are acquires of the cores that make them (R379, R382). -/
def Sys2Proof.Machine.State.walked (s : State) (a : Access) (t : Thread) : State := a.parts.foldl (fun s p => s.fillTlb t.xl p.ea) s

/-- A part of an access lies at a physical address: where it has been translated to, or where it translates to now. -/
def Sys2Proof.Machine.Access.standsAt (a : Access) (s : State) (t : Thread) (p : APart) (x : Nat) : Prop :=
  p.pa = some x ∨ (p.pa = none ∧ s.translate t.xl a.need p.ea = .ok x)

/-- Part k of access a of thread t can perform, at address pa: R215 holds, and every part still open has a physical address that
can be reached (R235, R408). -/
structure Sys2Proof.Machine.State.CanPerform (s : State) (a : Access) (k : Nat) (p : APart) (t : Thread) (pa : Nat) : Prop where
  here : s.access a.id = some a
  sole : ∀ b ∈ s.ms.accs, b.id = a.id → b = a
  thread : s.thread a.tid = some t
  core : a.core = t.place.core
  live : t.exited = false
  global : a.vault = false
  part : a.parts[k]? = some p
  open_ : p.done = false
  clear : ∀ q ∈ a.parts, q.stalled = false
  ordered : s.ordered a = true
  reach : ∀ q ∈ a.parts, q.done = false → ∃ x, a.standsAt s t q x ∧ s.lost x = 0 ∧ s.linkHeld x = false
  at_ : a.standsAt s t p pa

/-- The other parts of an access have performed. -/
def Sys2Proof.Machine.Access.lastPart (a : Access) (k : Nat) : Prop := ∀ j q, a.parts[j]? = some q → j ≠ k → q.done = true

/-- R33, R216, R228, R234, R249, R426: a load performs: each byte is that of the write latest at its thread's points up to its scope, of LDS that
of the sampler view; with its last part the destination takes the bytes, extended, or a NaN and a cause where one of them is
poisoned, the counter falls, and no byte of memory changes. A part that is not the last changes no register. An acquire with PROM
has had its promotion acknowledged (R274).
R216, R228, R234: a store performs: exactly the bytes of its part, at the address to which the part translates, take the bytes
latched at issue; the write stands at the end of the coherence order, is visible at its thread's core point, joins its
observed set and enters its core's gather buffer (R273). No register changes, and no vault byte. -/
def Obligations.LoadsAndStoresPerform : Prop :=
  (∀ (s : State) (a : Access) (k : Nat) (p : APart) (t : Thread) (pa : Nat) (d : Opnd) (sz : Size) (sx : Bool),
     s.CanPerform a k p t pa → (a.kind = .load d sz sx ∨ a.kind = .lds d sz sx) → a.data.length = sz.bytes → p.ofs + p.len ≤ sz.bytes →
     (a.acq = true → a.prom = true → a.promo = some true) →
     let s1 := s.walked a t
     let r := if a.kind = .load d sz sx then s1.readAt t.who a.scope pa p.len else (s1.sampled t.who pa p.len).1
     let bytes := a.data.take p.ofs ++ r.bytes ++ a.data.drop (p.ofs + p.len)
     let bad := a.bad || r.poison
     let v := ofBytes bytes
     let ext := if sx = true ∧ v / 2 ^ (8 * sz.bytes - 1) = 1 then v + (2 ^ 32 - 2 ^ (8 * sz.bytes)) else v
     ((sx = true → sz.bytes ≤ 4) → a.lastPart k → ∃ s' y, exec (.perform a.id k) s = .next s' ∧
       s.Comes s' t a.id d (if bad = true then List.replicate sz.regs 0x7FC00000 else toWords sz.regs ext) 0 ∧ s.KeepsBytes s' ∧
       s'.thread t.id = some y ∧ y.ctr.loads = t.ctr.loads - 1 ∧ (∀ w ∈ r.wids, w ∈ y.obs) ∧
       y.out.causes = t.out.causes ++ (if bad = true then [⟨0x20, 1, (a.parts.head?.map APart.ea).getD 0, 0, false, none⟩] else []) ∧
       (a.kind = .load d sz sx → ∀ i, i < p.len → r.bytes[i]? = some (s1.byteOf (s1.latest (t.who.upTo a.scope) (pa + i)) (pa + i)))) ∧
     (¬ a.lastPart k → ∃ s' b, exec (.perform a.id k) s = .next s' ∧ s.Keeps s' ∧ s.KeepsBytes s' ∧ s'.access a.id = some b ∧
       b.data = bytes ∧ b.bad = bad ∧ ∀ j q, a.parts[j]? = some q → j ≠ k → ∃ q', b.parts[j]? = some q' ∧ q'.done = q.done)) ∧
  (∀ (s : State) (a : Access) (k : Nat) (p : APart) (t : Thread) (pa : Nat) (bs : List Byte),
     s.CanPerform a k p t pa → a.kind = .store bs → p.ofs + p.len ≤ bs.length → s.Canonical →
     ∃ s' y w, exec (.perform a.id k) s = .next s' ∧ s.Keeps s' ∧
       (∀ x, s'.ms.mem.read x = if pa ≤ x ∧ x < pa + p.len then bs.getD (p.ofs + (x - pa)) 0 else s.ms.mem.read x) ∧
       (∀ x, s'.ms.vault.read x = s.ms.vault.read x) ∧
       s'.thread t.id = some y ∧ w ∈ s'.ms.writes ∧ w.id ∈ y.obs ∧ w.tid = t.id ∧ w.acc = a.id ∧ Point.core t.place.core ∈ w.seen ∧
       w.rel = (if a.rel = true then some a.scope else none) ∧ (∀ i, i < p.len → w.covers (pa + i) = true) ∧
       (∃ home, (⟨t.place.core, w.id, home⟩ : Gathered) ∈ s'.co.gather) ∧ s'.nextId = w.id + 1)

/-- The integer results of atomics (R244): CAS writes only where the comparison holds; INC wraps at its limit to 0, DEC at 0 or beyond its limit to the limit. -/
def Sys2Proof.Machine.atomicInteger {n : Nat} (op : AOp) (old b c : BitVec n) : Option (BitVec n) :=
  match op with
  | .add => some (old + b)
  | .and => some (old &&& b)
  | .or => some (old ||| b)
  | .xor => some (old ^^^ b)
  | .minS => some (if old.slt b then old else b)
  | .minZ => some (if old.ult b then old else b)
  | .maxS => some (if b.slt old then old else b)
  | .maxZ => some (if b.ult old then old else b)
  | .xchg => some b
  | .cas => if old = c then some b else none
  | .inc => some (if old.ult b then old + 1 else 0)
  | .dec => some (if old = 0 ∨ b.ult old then b else old - 1)
  | _ => none

/-- The floating-point operations among atomics (R245). -/
def Sys2Proof.Machine.AOp.isFloat : AOp → Bool
  | .fadd => true
  | .fmin => true
  | .fmax => true
  | _ => false

/-- R216, R244 to R247: an atomic performs in one step, on global memory or on a vault word: D takes the old value, of the last
write whatever any view holds; memory takes the result, and no other byte changes; FLAGS takes the flags of a floating-point
operation; the thread's wait ends. A global one performs in the L1 that may write its block, or, of an uncached page or memory homed
outside the module, at the home (R269, R272, R378).
R225, R237, R239 to R243: a vault access performs in one step: loads take the bytes, stores write them, LDT.TAKE empties its words and STT fills them,
TAGOP sets their tags alone; tagged accesses wait for their tags and their turn. No other byte or tag changes. -/
def Obligations.AtomicsAndVaultAccessesPerform : Prop :=
  (∀ (s : State) (a : Access) (p : APart) (t : Thread) (pa : Nat) (op : AOp) (d : Opnd) (b64 : Bool) (b c : Nat),
     let n := if b64 then 8 else 4
     let fl : Fmt := if b64 then fp64 else fp32
     let s1 := if a.vault then s else s.walked a t
     let old := if a.vault then (s.vread pa n).val else (s1.readLast pa n).val
     let new : Option Nat := if op.isFloat = false
       then (atomicInteger op (BitVec.ofNat (8 * n) old) (BitVec.ofNat (8 * n) b) (BitVec.ofNat (8 * n) c)).map BitVec.toNat
       else some (match op with
         | .fadd => (addF fl .rn (fl.decode old) (fl.decode b)).1
         | .fmin => (minMaxF fl false (fl.decode old) (fl.decode b)).1
         | _ => (minMaxF fl true (fl.decode old) (fl.decode b)).1)
     let flags : BitVec 5 := if op.isFloat = false then 0 else match op with
       | .fadd => (addF fl .rn (fl.decode old) (fl.decode b)).2
       | .fmin => (minMaxF fl false (fl.decode old) (fl.decode b)).2
       | _ => (minMaxF fl true (fl.decode old) (fl.decode b)).2
     a.kind = .atomic op d b64 b c → a.parts = [p] → p.len = n → p.ofs = 0 → b < 2 ^ (8 * n) → c < 2 ^ (8 * n) → s.Canonical →
     (if a.vault = false then s.CanPerform a 0 p t pa ∧ (s1.readLast pa n).poison = false ∧
         (if s.goesHome t.xl p.ea pa = true then s.homeReady pa n = true
           else ∃ y, s.l1Of t.place.core (pa / 64) = some y ∧ y.takesWrites = true)
       else pa = p.ea ∧ s.access a.id = some a ∧ s.thread a.tid = some t ∧ t.exited = false ∧ p.done = false ∧ p.stalled = false ∧
         s.ordered a = true ∧ (s.vread pa n).poison = false) →
     ∃ s' y, exec (.perform a.id 0) s = .next s' ∧ s.Comes s' t a.id d (toWords (n / 4) old) flags ∧
       s'.thread t.id = some y ∧ y.wait = .none ∧ (a.ctr = .load → y.ctr.loads = t.ctr.loads - 1) ∧
       (∀ x, s'.ms.mem.read x = match new with
         | some v => if a.vault = false ∧ pa ≤ x ∧ x < pa + n then BitVec.ofNat 8 (v / 2 ^ (8 * (x - pa))) else s.ms.mem.read x
         | none => s.ms.mem.read x) ∧
       (∀ x, s'.ms.vault.read x = match new with
         | some v => if a.vault = true ∧ pa ≤ x ∧ x < pa + n then BitVec.ofNat 8 (v / 2 ^ (8 * (x - pa))) else s.ms.vault.read x
         | none => s.ms.vault.read x) ∧
       ∀ w, s'.full w = s.full w) ∧
  (∀ (s : State) (a : Access) (p : APart) (t : Thread),
     let r := s.vread p.ea p.len
     let inside := fun (w : Nat) => w % 4 = 0 ∧ w < p.ea + p.len ∧ p.ea < w + 4
     s.access a.id = some a → s.thread a.tid = some t → t.exited = false → a.vault = true → a.parts = [p] → p.done = false → p.stalled = false →
     p.ofs = 0 → 0 < p.len → s.ordered a = true → s.turn a = true → s.Canonical →
     let frame := fun (s' : State) => (∀ x, s'.ms.mem.read x = s.ms.mem.read x) ∧ s'.access a.id = none
     let keepTags := fun (s' : State) => ∀ w, s'.full w = s.full w
     let keepVault := fun (s' : State) => ∀ x, s'.ms.vault.read x = s.ms.vault.read x
     let stored := fun (s' : State) (bs : List Byte) => ∀ x, s'.ms.vault.read x = if p.ea ≤ x ∧ x < p.ea + p.len then bs.getD (x - p.ea) 0 else s.ms.vault.read x
     let words := fun (sz : Size) (v : Nat) => if (a.bad || r.poison) = true then List.replicate sz.regs (0x7FC00000 : Word) else toWords sz.regs v
     (∀ d sz sx, a.kind = .load d sz sx → p.len = sz.bytes → a.data.length = sz.bytes → (sx = true → sz.bytes ≤ 4) →
       ∃ s', exec (.perform a.id 0) s = .next s' ∧ frame s' ∧ keepTags s' ∧ keepVault s' ∧ s.Comes s' t a.id d
         (words sz (if sx = true ∧ r.val / 2 ^ (8 * sz.bytes - 1) = 1 then r.val + (2 ^ 32 - 2 ^ (8 * sz.bytes)) else r.val)) 0) ∧
     (∀ d sz take, a.kind = .ldt d sz take → p.len = sz.bytes → a.data.length = sz.bytes → (∀ w, inside w → s.full w = true) →
       ∃ s', exec (.perform a.id 0) s = .next s' ∧ frame s' ∧ keepVault s' ∧ s.Comes s' t a.id d (words sz r.val) 0 ∧
         ∀ w, (inside w → s'.full w = !take) ∧ (¬ inside w → s'.full w = s.full w)) ∧
     (∀ bs, a.kind = .store bs → bs.length = p.len →
       ∃ s', exec (.perform a.id 0) s = .next s' ∧ frame s' ∧ keepTags s' ∧ s.Keeps s' ∧ stored s' bs) ∧
     (∀ bs, a.kind = .stt bs → bs.length = p.len → (∀ w, inside w → s.full w = false) →
       ∃ s', exec (.perform a.id 0) s = .next s' ∧ frame s' ∧ s.Keeps s' ∧ stored s' bs ∧
         ∀ w, (inside w → s'.full w = true) ∧ (¬ inside w → s'.full w = s.full w)) ∧
     (∀ full, a.kind = .tagop full →
       ∃ s', exec (.perform a.id 0) s = .next s' ∧ frame s' ∧ keepVault s' ∧ s.Keeps s' ∧
         ∀ w, (inside w → s'.full w = full) ∧ (¬ inside w → s'.full w = s.full w)) ∧
     (∀ d sz take, a.kind = .ldt d sz take → (∃ w, inside w ∧ s.full w = false) → exec (.perform a.id 0) s = .next s) ∧
     (∀ bs, a.kind = .stt bs → (∃ w, inside w ∧ s.full w = true) → exec (.perform a.id 0) s = .next s))

/-- R212, R213, R219, R220, R224, R452: PROPAGATE gives a point a committed write, for the bytes for which its view holds no later one; ADVANCE fills a line of
the sampler view, unless all 512 lines of the cache have been touched (log 64); FSAMP's completion brings the view up to its thread's points; FWAIT and the SC step end the wait with Refresh.
None of them changes a byte.
R221, R362, R363, R365: a barrier completes once every thread that takes part has arrived or exited and what those that arrived
active did before is performed at its scope: the observed sets join of all but those that arrived inactive, they take Refresh, the phase
counts on, and the threads that wait for it go on. -/
def Obligations.ViewsAndBarriersAdvance : Prop :=
  ((∀ (s : State) (w : Nat) (pt : Point), ∃ s', exec (.propagate w pt) s = .next s' ∧ s.Keeps s' ∧ s.KeepsBytes s' ∧
     ∀ p x, (p = pt → (∃ r ∈ s.ms.writes, r.id = w ∧ r.covers x = true) → s'.latest [p] x = max (s.latest [p] x) w) ∧
       (¬ (p = pt ∧ ∃ r ∈ s.ms.writes, r.id = w ∧ r.covers x = true) → s'.latest [p] x = s.latest [p] x)) ∧
   (∀ (s : State) (n : Nat) (a : Access) (t : Thread) (p : APart) (l : List APart) (pa : Nat),
     (s.ms.accs.filter fun a => a.kind == .pref)[n]? = some a → s.thread a.tid = some t → a.parts = p :: l →
     s.translate t.xl .read p.ea = .ok pa → s.lost pa = 0 → s.linkCut pa = false →
     (s.ms.smpLines.contains (t.place.core, pa / 128) = true ∨ (s.ms.smpLines.filter fun l => l.1 == t.place.core).length < 512 ∨
       ∃ l ∈ s.ms.smpLines, l.1 = t.place.core ∧ l ∉ s.ms.smpUsed) →
     ∃ s', exec (.advance n) s = .next s' ∧ s.Keeps s' ∧ s.KeepsBytes s' ∧ s'.access a.id = none ∧ (t.place.core, pa / 128) ∈ s'.ms.smpLines ∧
       ∀ c x, s'.samplerView c x =
         if c = t.place.core ∧ x / 128 = pa / 128 ∧ s.ms.smpLines.contains (c, x / 128) = false
         then max (s.samplerView c x) ((s.fillTlb t.xl p.ea).latest (t.who.upTo .die) x) else s.samplerView c x) ∧
   (∀ (s : State) (t : Thread) (sc : Scope) (bound : Nat) (l : List (Scope × Nat)), s.thread t.id = some t → t.out.fsamp = (sc, bound) :: l →
     (∀ a ∈ s.ms.accs, a.tid = t.id → a.id < bound → a.reads = true → ∀ q ∈ a.parts, q.done = true) →
     ∃ s' y, exec (.fsampComplete t.id) s = .next s' ∧ s.Keeps s' ∧ s.KeepsBytes s' ∧ s'.thread t.id = some y ∧ y.out.fsamp = l ∧
       (∀ line, (t.place.core, line) ∉ s'.ms.smpLines) ∧
       ∀ c x, (∃ r ∈ s.ms.writes, r.covers x = true) → s'.samplerView c x =
         if c = t.place.core then max (s.samplerView c x) (s.latest (t.who.upTo sc) x) else s.samplerView c x) ∧
   (∀ (s : State) (t : Thread) (f : Fence), s.thread t.id = some t → t.wait = .fence f.id → (s.ms.fences.find? fun g => g.id == f.id) = some f →
     let covered := fun (a : Access) => a.tid = f.tid ∧ a.id < f.bound ∧
       (f.cover = .all ∨ (f.cover = .reads ∧ a.reads = true) ∨ (f.cover = .writes ∧ a.writes = true))
     (∀ a ∈ s.ms.accs, covered a → a.silent = true ∨ ∀ q ∈ a.parts, q.done = true) →
     (∀ r ∈ s.ms.writes, (r.id ∈ f.obs ∨ ∃ q ∈ s.ms.writes, q.id = r.id ∧ q.tid = f.tid ∧ q.acc ≠ 0 ∧ q.acc < f.bound ∧ f.cover ≠ .reads) →
       ∀ p ∈ s.performedAt t.who f.scope, s.visibleAt r p = true) →
     let Ends := fun (s' : State) => s.KeepsBytes s' ∧ (∀ u, u ≠ t.id → s'.thread u = s.thread u) ∧ s'.thread t.id = some { t with wait := .none } ∧
       (∀ g ∈ s'.ms.fences, g.id ≠ f.id) ∧ (∀ x, s'.latest [.core t.place.core] x = s.latest (t.who.upTo f.scope) x) ∧
       ((f.scope = .die ∨ f.scope = .system) → ∀ x, s'.latest [t.place.clp] x = s.latest (t.who.upTo f.scope) x)
     (f.sc = false → ∃ s', exec (.fwaitComplete t.id) s = .next s' ∧ Ends s' ∧ s'.ms.scOrder = s.ms.scOrder) ∧
     (f.sc = true → (∀ r ∈ s.ms.writes, r.id ∈ t.obs → ∀ p ∈ s.performedAt t.who .system, s.visibleAt r p = true) →
       ∃ s', exec (.scStep t.id) s = .next s' ∧ Ends s' ∧ s'.ms.scOrder = s.ms.scOrder ++ [f.id]))) ∧
  (∀ (s : State) (r : BarRef),
     let n := s.phaseOf r
     let arr := s.wk.bars.filter fun a => a.bar == r && a.n == n
     let arrived := fun (t : Thread) => arr.find? fun a => a.tid == t.id
     let active := fun (t : Thread) => ∀ a, arrived t = some a → a.active = true
     arr ≠ [] →
     (∀ t ∈ s.participants r, (arrived t = none → t.exited = true) ∧ ∀ a, arrived t = some a → a.active = true →
       (∀ x ∈ s.ms.accs, x.tid = t.id → x.id < a.bound → x.silent = true ∨ ∀ q ∈ x.parts, q.done = true) ∧
       ∀ w ∈ s.ms.writes, (w.id ∈ a.obs ∨ ∃ q ∈ s.ms.writes, q.id = w.id ∧ q.tid = t.id ∧ q.acc ≠ 0 ∧ q.acc < a.bound) →
         ∀ p ∈ s.performedAt t.who (barScope r), s.visibleAt w p = true) →
     (∀ t ∈ s.wk.threads, s.thread t.id = some t) →
     ∃ s', exec (.barrier r) s = .next s' ∧ s.KeepsBytes s' ∧
       (∀ t ∈ s.wk.threads, ∃ y, s'.thread t.id = some y ∧ y.regs = t.regs ∧ y.pos = t.pos ∧ y.mode = t.mode ∧
         y.wait = (if t ∈ s.participants r ∧ t.waitsAt r n = true then .none else t.wait) ∧
         (t ∈ s.participants r → active t → ∀ u ∈ s.participants r, active u → ∀ w ∈ u.obs, w ∈ y.obs) ∧
         (¬ (t ∈ s.participants r ∧ active t) → y.obs = t.obs)) ∧
       (∀ t ∈ s.participants r, active t → ∀ x, s.latest (t.who.upTo (barScope r)) x ≤ s'.latest [.core t.place.core] x) ∧
       (∀ a ∈ s'.wk.bars, a ∈ s.wk.bars ∧ ¬ (a.bar = r ∧ a.n = n)) ∧
       (match r with
         | .team tm b => ∀ x, s.team tm = some x → ∃ y, s'.team tm = some y ∧ phases y.tph b = n + 1
         | .cluster cl b => ∀ x, s.cluster cl = some x → ∃ y, s'.cluster cl = some y ∧ phases y.cph b = n + 1))

/-! ## The matrix engine -/

/-- What an instruction that queues an operation does besides: the thread goes on with one more tile operation outstanding (R33), and
only the queue and progress of its context have changed. -/
structure Sys2Proof.Machine.State.Queues (s s' : State) (t : Thread) (c c' : Ctx) : Prop where
  self : s'.thread t.id = some { t.advance with ctr := { t.ctr with tiles := t.ctr.tiles + 1 } }
  others : ∀ u, u ≠ t.id → s'.thread u = s.thread u
  ctx : s'.ctx c.id = some c'
  ctxs : ∀ x, x ≠ c.id → s'.ctx x = s.ctx x
  rest : s' = { s with
    nextId := s.nextId + 1
    en := { s.en with ctxs := s'.en.ctxs }
    wk := { s.wk with threads := s'.wk.threads } }

/-- R79: bytes of a K-block region; DX8, DX4, FP16, BF16. -/
def Sys2Proof.Machine.regionOf (fmt : Nat) : Nat := if fmt = 0 then 1088 else if fmt = 1 then 576 else 2048

/-- R33, R114 to R120, R128 to R133, R136: an MX instruction of a thread whose counter stands below 63 and whose core's queue has a free entry checks its
operands at issue, and enqueues its operation; while the engine works for another context of the core, it waits.
R134, R135: the queries are answered at issue, with the occupancy of the core's queue, the tiles named there, the slots loaded in the
thread's context and the assist in progress, or with the cycle at which the last operation queued completes in the reference timing
model, where each assist takes 1,500 cycles. -/
def Obligations.MatrixInstructionsIssue : Prop :=
  (∀ (s : State) (t : Thread) (c : Ctx) (h : Gd) (a : Opnd) (tl : Fin 8) (slot : Fin 4) (acc relu f32 : Bool) (form : MxForm) (scale : Option Opnd),
     s.ctxOf t = some c → t.ctr.tiles < 63 → s.mxCount t.place.core < 32 →
     let busy := ∃ x ∈ s.en.ctxs, x.core = t.place.core ∧ x.id ≠ c.id ∧ x.mxq ≠ []
     let Waits := fun (i : Instr) => s.Runs h i t → exec i s = .next (s.holdFor t .engine)
     (busy → Waits (.mxld h a slot) ∧ Waits (.mxrun h tl slot acc) ∧ Waits (.mxz h tl) ∧ Waits (.mxst h tl a form relu scale) ∧ Waits (.mxlda h tl a f32)) ∧
     (¬ busy →
     let Enq := fun (i : Instr) (k : MxKind) => s.Runs h i t → ∃ s', exec i s = .next s' ∧ s.Queues s' t c { c with
       mxq := c.mxq ++ [⟨⟨s.nextId, t.id, s.launchNo t, t.pos⟩, k⟩]
       mxrun := if c.mxq = [] then ⟨0, 0, false, false, none, [], s.clock.toNat, 0⟩ else c.mxrun }
     let Traps := fun (i : Instr) (cause : Nat) => s.Runs h i t → exec i s = .next (s.trapHere t cause 0 0 0)
     let w := fun (k : Nat) => (s.rdReg t a k).toNat
     let fmt := w 2 / 2 ^ 16 % 4
     let kb := w 2 % 2 ^ 16
     let side := fun (base stride : Nat) => base / 2 ^ 22 % 4 = 0 ∧ base / 2 ^ 30 = t.place.core.die ∧ base % 64 = 0 ∧
       base % 2 ^ 22 + (kb - 1) * (if stride = 0 then regionOf fmt else stride) + regionOf fmt ≤ 2 ^ 22
     let reserved := w 5 ≠ 0 ∨ w 6 ≠ 0 ∨ w 7 ≠ 0 ∨ w 2 / 2 ^ 18 ≠ 0
     let bad := kb = 0 ∨ 128 < kb ∨ w 3 % 64 ≠ 0 ∨ w 4 % 64 ≠ 0 ∨ ¬ side (w 0) (w 3) ∨ ¬ side (w 1) (w 4)
     let region := fun (n : Nat) => w 0 / 2 ^ 22 % 4 = 0 ∧ w 0 / 2 ^ 30 = t.place.core.die ∧ w 0 % 64 = 0 ∧ w 0 % 2 ^ 22 + n ≤ 2 ^ 22
     let size := match form with
       | .w48 => 8192 | .f32 => 4096 | .f16 => 2048 | .bf16 => 2048
     let loaded := c.slots.getD slot.val none ≠ none ∨ ∃ o ∈ c.mxq, ∃ blk, o.kind = .ld slot.val blk
     (reserved → Traps (.mxld h a slot) 0x03) ∧ (¬ reserved → bad → Traps (.mxld h a slot) 0x02) ∧
     (¬ reserved → ¬ bad → Enq (.mxld h a slot) (.ld slot.val (ofWords ((List.range 8).map (s.rdReg t a))))) ∧
     (loaded → Enq (.mxrun h tl slot acc) (.run tl.val slot.val acc)) ∧ (¬ loaded → Traps (.mxrun h tl slot acc) 0x02) ∧
     Enq (.mxz h tl) (.zero tl.val) ∧
     (region size → Enq (.mxst h tl a form relu scale) (.st tl.val (w 0) form relu (scale.map fun o => s.rd t o))) ∧
     (¬ region size → Traps (.mxst h tl a form relu scale) 0x02) ∧
     (region (if f32 then 4096 else 8192) → Enq (.mxlda h tl a f32) (.lda tl.val (w 0) f32)) ∧
     (¬ region (if f32 then 4096 else 8192) → Traps (.mxlda h tl a f32) 0x02))) ∧
  (∀ (s : State) (t : Thread) (c : Ctx) (h : Gd) (d : Opnd), s.ctxOf t = some c → t.ctr.tiles < 63 →
     let fmtOf := fun (blk : Nat) => blk / 2 ^ 80 % 4
     let hops := fun (a b : Nat) => 40 + 4 * ((a % 8 - b % 8) + (b % 8 - a % 8) + ((a / 8 - b / 8) + (b / 8 - a / 8)))
     let far := fun (va : Nat) => if va / 2 ^ 24 % 64 = t.place.core.core then 0 else hops t.place.core.core (va / 2 ^ 24 % 64)
     let busy := fun (b : Ctx) => b ∈ s.en.ctxs ∧ b.core = t.place.core ∧ b.mxq ≠ []
     let cycles := fun (b : Ctx) (k : MxKind) => match k with
       | .ld _ _ => 1
       | .zero _ => 4
       | .run _ slot _ =>
         let blk := (b.slots.getD slot none).getD 0
         24 + (if fmtOf blk = 0 then 2 else if fmtOf blk = 1 then 1 else 8) * (blk / 2 ^ 64 % 2 ^ 16) + max (far (blk % 2 ^ 32)) (far (blk / 2 ^ 32 % 2 ^ 32))
       | .st _ va form _ _ => (match form with
         | .w48 => 88 | .f32 => 56 | .f16 => 40 | .bf16 => 40) + far va
       | .lda _ va f32 => (if f32 then 56 else 88) + far va
     (s.Runs h (.mxqryOcc h d) t → s.mxCount t.place.core ≤ 32 → (∀ b, busy b → ∀ o ∈ b.mxq, ∀ x, o.kind.tile = some x → x < 8) →
       ∃ s' w, exec (.mxqryOcc h d) s = .next s' ∧ s.Writes s' t d [w] t.advance ∧ w.toNat % 2 ^ 8 = s.mxCount t.place.core ∧
         (∀ x, x < 8 → (w.getLsbD (8 + x) = true ↔ ∃ b, busy b ∧ ∃ o ∈ b.mxq, o.kind.tile = some x)) ∧
         (∀ x, x < 4 → (w.getLsbD (16 + x) = true ↔ c.slots.getD x none ≠ none ∨ ∃ o ∈ c.mxq, ∃ blk, o.kind = .ld x blk)) ∧
         (w.getLsbD 20 = true ↔ ∃ b, busy b ∧ b.mxrun.stopped = true) ∧ w.toNat < 2 ^ 21) ∧
     (s.Runs h (.mxqryEst h d) t → ∃ s' x, exec (.mxqryEst h d) s = .next s' ∧ s.Writes s' t d (lohi x) t.advance ∧
       ((∀ b, ¬ busy b) → x = s.clock) ∧ ∀ b o, busy b → (∀ y, busy y → y = b) → b.mxq = [o] →
         x = BitVec.ofNat 64 (max (b.mxrun.since + 1500 * b.mxrun.assists + cycles b o.kind) s.clock.toNat)))

/-- R121, R122: the block sum of two rows of finite values is exact, and is −0 only where every product is; NaNs, 0 times infinity
and opposite infinities give a NaN, other infinities the infinity. -/
def Obligations.BlockSumsAreExact : Prop :=
  ∀ (a b : List FV) (k : Int), a.length = 32 → b.length = 32 →
    let ps := a.zip b
    let INV : BitVec 5 := 0b10000
    let infTimesZero := fun (p : FV × FV) => (p.1.isZero = true ∧ p.2.isInf = true) ∨ (p.1.isInf = true ∧ p.2.isZero = true)
    let infOf := fun (n : Bool) (p : FV × FV) => (p.1.isInf = true ∨ p.2.isInf = true) ∧ (p.1.isNeg != p.2.isNeg) = n
    let anyNaN := ∃ p ∈ ps, p.1.isNaN = true ∨ p.2.isNaN = true
    (anyNaN → blockSum a b = (.nan false, invOf (a ++ b))) ∧
    (¬ anyNaN → (∃ p ∈ ps, infTimesZero p) → blockSum a b = (.nan false, INV)) ∧
    (¬ anyNaN → (¬ ∃ p ∈ ps, infTimesZero p) → (∃ p ∈ ps, infOf true p) → (∃ p ∈ ps, infOf false p) → blockSum a b = (.nan false, INV)) ∧
    (∀ n, ¬ anyNaN → (¬ ∃ p ∈ ps, infTimesZero p) → (∃ p ∈ ps, infOf n p) → (¬ ∃ p ∈ ps, infOf (!n) p) → blockSum a b = (.inf n, 0)) ∧
    ((∀ p ∈ ps, ∃ n m e n' m' e', p = (.fin n m e, .fin n' m' e') ∧ k ≤ e + e') →
      ∃ n m e, blockSum a b = (.fin n m e, 0) ∧ k ≤ e ∧ inUnits k (.fin n m e) = (ps.map fun p => inUnits k (p.1.mulFin p.2)).sum ∧
        (m = 0 → (n = true ↔ ∀ p ∈ ps, (p.1.mulFin p.2).isZero = true ∧ (p.1.mulFin p.2).isNeg = true)))

/-- A context whose engine can work on the operation o at the head of its queue (R118, R125). -/
structure Sys2Proof.Machine.State.EngineAt (s : State) (c : Ctx) (o : MxOp) (l : List MxOp) (t : Thread) : Prop where
  ctx : s.ctx c.id = some c
  head : c.mxq = o :: l
  going : c.mxrun.stopped = false
  unstalled : c.mxrun.stalled = false
  alive : s.md.failed.getLsbD c.core.die = false
  issuer : s.thread o.eng.tid = some t
  live : t.exited = false

/-- The operation at the head has completed: context c has become c' without it, its issuer's counter has fallen and FLAGS has taken fl. -/
structure Sys2Proof.Machine.State.Finishes (s s' : State) (c c' : Ctx) (l : List MxOp) (t : Thread) (fl : BitVec 5) : Prop where
  ctx : s'.ctx c.id = some { c' with mxq := l, mxrun := ⟨0, 0, false, false, none, [], s.clock.toNat, 0⟩ }
  ctxs : ∀ x, x ≠ c.id → s'.ctx x = s.ctx x
  self : s'.thread t.id = some { t with ctr := { t.ctr with tiles := t.ctr.tiles - 1 }, regs := { t.regs with flags := t.regs.flags ||| fl } }
  others : ∀ u, u ≠ t.id → s'.thread u = s.thread u
  mem : s'.ms.mem = s.ms.mem

/-- Whether the core of a vault address belongs to a context's partition and works (R233). -/
def Sys2Proof.Machine.State.engineSees (s : State) (c : Ctx) (va : Nat) : Prop :=
  s.md.dies.getLsbD (va / 2 ^ 30 % 4) = true ∧ s.md.failed.getLsbD (va / 2 ^ 30 % 4) = false ∧
    (s.part c.part).cfg.rows.getLsbD (8 * (va / 2 ^ 30 % 4) + va / 2 ^ 24 % 64 / 8) = true

/-- Row i of the region at a vault address, decoded (R79, R121). -/
def Sys2Proof.Machine.State.layoutRow (s : State) (fmt base i : Nat) : List FV :=
  let byte := fun (k : Nat) => (s.ms.vault.read (base + k)).toNat
  (List.range 32).map fun k =>
    if fmt = 0 then dxDecode false (byte (1024 + 2 * i)) (byte (1025 + 2 * i)) (byte (32 * i + k))
    else if fmt = 1 then dxDecode true (byte (512 + 2 * i)) (byte (513 + 2 * i)) (byte (16 * i + k / 2) / 2 ^ (4 * (k % 2)) % 16)
    else (if fmt = 2 then fp16 else bf16).decode (byte (64 * i + 2 * k) + 256 * byte (64 * i + 2 * k + 1))

/-- The magnitude of a finite exact value, rounded with an unbounded exponent, lies below the smallest normal of F (R68): the result of the
rounding is tiny. -/
def Sys2Proof.Machine.tinyFor (F : Fmt) (v : FV) : Prop := ∃ n m e, v = .fin n m e ∧ m ≠ 0 ∧ tinyIn F v = true

/-- R118, R124, R127, R129, R131, R132, R398: MXLD loads its slot, MXZ clears its tile, MXLDA loads a tile from the vault, W48 patterns as they
stand and FP32 values widened exactly; over poison MXLDA fills the tile with NaNs and its thread takes cause 0x20 with the address of the
first poisoned word. A tile written whole holds no error.
R118, R122 to R125, R130: each rounding of an MXRUN adds the block sum of its row and column in its K-block to the accumulator, K-block by
K-block, and the last writes the tile; where the result would be tiny, the engine stops, and a record of cause 0x50 goes to the
quay core of the row; more roundings in one event are as many in several.
R118, R124, R125, R127, R133: each rounding of an MXST scales its element exactly, rounds it once to the form, and replaces a negative result
by +0 under RELU; the last writes all the bytes of the region to the vault, and no other byte changes, and the words of elements with an
error are poisoned; a result of the FP32 form
that would be tiny stops the engine with a record of cause 0x50. -/
def Obligations.MatrixOperationsRun : Prop :=
  (∀ (s : State) (c : Ctx) (e : EngOp) (l : List MxOp) (t : Thread) (slot blk tl va : Nat) (f32 : Bool), tl < c.tiles.length →
     let others := fun (c' : Ctx) => c' = { c with tiles := c'.tiles, badElems := c'.badElems } ∧
       (∀ u, u ≠ tl → c'.tiles.getD u [] = c.tiles.getD u []) ∧ ∀ k, k ∈ c'.badElems ↔ k ∈ c.badElems ∧ k / 1024 ≠ tl
     let badAt := fun (n a : Nat) => a ∈ s.ms.vpoison ∧ a % 4 = 0 ∧ va < a + 4 ∧ a < va + n
     (s.EngineAt c ⟨e, .ld slot blk⟩ l t → ∃ s', exec (.mxldOperation c.id) s = .next s' ∧ s'.ms.vault = s.ms.vault ∧
       s.Finishes s' c { c with slots := c.slots.set slot (some blk) } l t 0) ∧
     (s.EngineAt c ⟨e, .zero tl⟩ l t → ∃ s' c', exec (.mxzOperation c.id) s = .next s' ∧ s'.ms.vault = s.ms.vault ∧
       s.Finishes s' c c' l t 0 ∧ others c' ∧ ∀ n, c'.elem tl n = 0) ∧
     (s.EngineAt c ⟨e, .lda tl va f32⟩ l t → s.engineSees c va →
       let sz := if f32 then 4 else 8
       let x := fun (n : Nat) => ofBytes (s.ms.vault.readN (va + sz * n) sz)
       let y := fun (n : Nat) => if f32 then cvtFF w48 .rn (fp32.decode (x n)) else (x n % 2 ^ 48, 0)
       if (∃ a, badAt (1024 * sz) a) then
         ∃ s' s1 c' a, badAt (1024 * sz) a ∧ (∀ w, badAt (1024 * sz) w → a ≤ w) ∧ exec (.mxldaOperation c.id) s = .next s' ∧ s'.ms.vault = s.ms.vault ∧ s.Finishes s1 c c' l t 0 ∧ others c' ∧
           (∀ n, n < 1024 → c'.elem tl n = 0x7FC000000000) ∧ s' = s1.cause t.id ⟨0x20, 1, a, 2, false, none⟩
       else ∃ s' c' fl, exec (.mxldaOperation c.id) s = .next s' ∧ s'.ms.vault = s.ms.vault ∧ s.Finishes s' c c' l t fl ∧ others c' ∧
         (∀ n, n < 1024 → c'.elem tl n = (y n).1) ∧ ∀ k, fl.getLsbD k = true ↔ ∃ n, n < 1024 ∧ (y n).2.getLsbD k = true)) ∧
  (∀ (s : State) (c : Ctx) (e : EngOp) (l : List MxOp) (t : Thread) (tl slot : Nat) (acc : Bool) (n : Nat),
     s.EngineAt c ⟨e, .run tl slot acc⟩ l t → tl < c.tiles.length →
     let blk := (c.slots.getD slot none).getD 0
     let fmt := blk / 2 ^ 80 % 4
     let kbs := blk / 2 ^ 64 % 2 ^ 16
     let stride := fun (x : Nat) => if x = 0 then regionOf fmt else x
     let kb := c.mxrun.n / 1024
     let i := c.mxrun.n / 32 % 32
     let j := c.mxrun.n % 32
     let ra := blk % 2 ^ 32 + kb * stride (blk / 2 ^ 96 % 2 ^ 32)
     let rb := blk / 2 ^ 32 % 2 ^ 32 + kb * stride (blk / 2 ^ 128 % 2 ^ 32)
     let a := s.layoutRow fmt ra i
     let b := s.layoutRow fmt rb j
     let old := if kb = 0 then (if acc then c.elem tl (32 * i + j) else 0) else c.mxrun.work.getD (32 * i + j) 0
     let sum := blockSum a b
     let new := addF w48 .rn (w48.decode old) sum.1
     let fl := c.mxrun.flags ||| new.2 ||| sum.2 ||| invOf (a ++ b)
     let work := if kb = 0 then c.mxrun.work ++ [new.1] else c.mxrun.work.set (32 * i + j) new.1
     let isTiny := (w48.decode old).isNaN = false ∧ (w48.decode old).isInf = false ∧ sum.1.isNaN = false ∧ sum.1.isInf = false ∧
       tinyFor w48 ((w48.decode old).addFin .rn sum.1)
     s.engineSees c (blk % 2 ^ 32) → s.engineSees c (blk / 2 ^ 32 % 2 ^ 32) → (∀ w ∈ s.ms.vpoison, ∀ x ∈ [ra, rb], w + 4 ≤ x ∨ x + regionOf fmt ≤ w) →
     c.mxrun.answer = none → c.mxrun.n < 1024 * kbs →
     (¬ isTiny → c.mxrun.n + 1 < 1024 * kbs → ∃ s', exec (.mxrunOperation c.id 1) s = .next s' ∧
       s'.ctx c.id = some { c with mxrun := { c.mxrun with n := c.mxrun.n + 1, flags := fl, work := work } } ∧
       s' = { s with en := { s.en with ctxs := s'.en.ctxs } } ∧ (∀ x, x ≠ c.id → s'.ctx x = s.ctx x) ∧
       exec (.mxrunOperation c.id (n + 1)) s = exec (.mxrunOperation c.id n) s') ∧
     (¬ isTiny → c.mxrun.n + 1 = 1024 * kbs → ∃ s', exec (.mxrunOperation c.id (n + 1)) s = .next s' ∧ s'.ms.vault = s.ms.vault ∧
       s.Finishes s' c { c with tiles := c.tiles.set tl work, badElems := c.badElems.filter fun k => k / 1024 != tl } l t fl) ∧
     (isTiny → ∃ s' r, exec (.mxrunOperation c.id (n + 1)) s = .next s' ∧ s'.ctx c.id = some { c with mxrun := { c.mxrun with stopped := true, assists := c.mxrun.assists + 1 } } ∧
       s'.wk.recs = s.wk.recs ++ [r] ∧ r.cause = 0x50 ∧ r.reason = 1 ∧ r.kind = 3 ∧ r.pc = old ∧ r.addr = ra + rb * 2 ^ 32 ∧
       r.info = tl + i * 2 ^ 3 + j * 2 ^ 8 + fmt * 2 ^ 13 ∧ r.quay = quayOf c.core ∧ s'.wk.threads = s.wk.threads ∧ s'.ms = s.ms)) ∧
  (∀ (s : State) (c : Ctx) (e : EngOp) (l : List MxOp) (t : Thread) (tl va : Nat) (form : MxForm) (relu : Bool) (scale : Option Word) (n : Nat),
     s.EngineAt c ⟨e, .st tl va form relu scale⟩ l t → s.Canonical →
     let F := match form with
       | .w48 => w48 | .f32 => fp32 | .f16 => fp16 | .bf16 => bf16
     let esz := match form with
       | .w48 => 8 | .f32 => 4 | .f16 => 2 | .bf16 => 2
     let old := w48.decode (c.elem tl c.mxrun.n)
     let x : FV × BitVec 5 := match scale with
       | none => (old, invOf [old])
       | some w =>
         let k := fp32.decode w.toNat
         if old.isNaN = true ∨ k.isNaN = true then (.nan false, invOf [old, k])
         else if (old.isZero = true ∧ k.isInf = true) ∨ (old.isInf = true ∧ k.isZero = true) then (.nan false, 0b10000)
         else if old.isInf = true ∨ k.isInf = true then (.inf (old.isNeg != k.isNeg), 0)
         else (old.mulFin k, 0)
     let r := encodeFV F .rn x.1
     let y := if relu = true ∧ (F.decode r.1).isNaN = false ∧ (F.decode r.1).isNeg = true then 0 else r.1
     let fl := c.mxrun.flags ||| x.2 ||| r.2
     let isTiny := form = .f32 ∧ tinyFor fp32 x.1
     s.engineSees c va → c.mxrun.answer = none → c.mxrun.work.length = c.mxrun.n →
     (¬ isTiny → c.mxrun.n < 1023 → ∃ s', exec (.mxstOperation c.id 1) s = .next s' ∧
       s'.ctx c.id = some { c with mxrun := { c.mxrun with n := c.mxrun.n + 1, flags := fl, work := c.mxrun.work ++ [y] } } ∧
       s' = { s with en := { s.en with ctxs := s'.en.ctxs } } ∧ (∀ u, u ≠ c.id → s'.ctx u = s.ctx u) ∧
       exec (.mxstOperation c.id (n + 1)) s = exec (.mxstOperation c.id n) s') ∧
     (¬ isTiny → c.mxrun.n = 1023 → ∃ s', exec (.mxstOperation c.id (n + 1)) s = .next s' ∧ s.Finishes s' c c l t fl ∧
       (∀ k, s'.ms.vault.read k = if va ≤ k ∧ k < va + 1024 * esz
         then BitVec.ofNat 8 ((c.mxrun.work ++ [y]).getD ((k - va) / esz) 0 / 2 ^ (8 * ((k - va) % esz))) else s.ms.vault.read k) ∧
       (va % 4 = 0 → ∀ w, w % 4 = 0 → va ≤ w → w < va + 1024 * esz →
         (w ∈ s'.ms.vpoison ↔ ∃ k ∈ c.badElems, k / 1024 = tl ∧ va + esz * (k % 1024) < w + 4 ∧ w < va + esz * (k % 1024) + esz))) ∧
     (isTiny → ∃ s' r, exec (.mxstOperation c.id (n + 1)) s = .next s' ∧ s'.ctx c.id = some { c with mxrun := { c.mxrun with stopped := true, assists := c.mxrun.assists + 1 } } ∧
       s'.wk.recs = s.wk.recs ++ [r] ∧ r.cause = 0x50 ∧ r.reason = 2 ∧ r.kind = 3 ∧ r.pc = c.elem tl c.mxrun.n ∧
       r.quay = quayOf c.core ∧ s'.wk.threads = s.wk.threads ∧ s'.ms = s.ms))

/-! ## The lighter -/

/-- A copy operation at its issue: not admitted, nothing done. -/
def Sys2Proof.Machine.State.newCopy (s : State) (t : Thread) (cx : Nat) (k : CopyKind) (cb : Nat) (d : Opnd) (stream : Nat) (sc : Scope) (rel : Bool) : Copy where
  id := s.nextId
  tid := t.id
  launch := s.launchNo t
  core := t.place.core
  ctx := cx
  kind := k
  pos := t.pos
  cb := cb
  d := d
  stream := stream
  scope := sc
  rel := rel
  bound := s.nextId
  adm := none
  chan := 0
  bits := none
  promise := none
  raw := none
  bytes := 0
  started := false
  done := 0
  aux := []
  table := []
  early := []
  held := []
  ran := false
  writes := []
  fault := none
  poison := false
  badBlock := false
  extra := []
  stalled := false
  finished := false

/-- R292: the promise of a batch: the latest of its operations', once each is admitted; of a batch of none, its sealing. -/
def Sys2Proof.Machine.State.promiseIs (s : State) (b : Batch) : Option Nat :=
  let ops := s.en.copies.filter fun c => b.ops.contains c.id
  if ops = [] then some b.sealedAt
  else if ∀ c ∈ ops, c.promise ≠ none then some ((ops.map fun c => c.promise.getD 0).foldl max 0) else none

/-- R277, R280, R283, R297, R299: a copy instruction puts its operation into its core's lighter, unsealed, with D outstanding until
admission, and the read of its command block into the free stream of its thread; a command block that is misaligned or not canonical, a 65th unsealed operation, CPYB without its grant, and an
operation on a region that is not armed are trapped at issue.
R297: CSHAD arms a region at issue, in the order of admissions, or raises 0x02.
R33, R290 to R293: CSEAL gathers the unsealed operations into a batch, writes its token and counts it, and a batch with nothing to wait for is
finished at once; CWAIT waits until the counter is at most n; CPROM gives the promise, or waits for it; CPROM.STAT gives the
status. A register without a batch is trapped. -/
def Obligations.CopyInstructionsIssue : Prop :=
  (∀ (s : State) (t : Thread) (c : Ctx) (h : Gd) (x : CopyArg) (b d : Opnd) (sh : Fin 8), s.ctxOf t = some c →
     let cb := (s.rd2 t x.a).toNat
     let granted := (s.part t.place.part).btgrant.getLsbD 0 = true
     let Puts := fun (i : Instr) (k : CopyKind) (block : Bool) (cb : Nat) (d : Opnd) (stream : Nat) (sc : Scope) (rel : Bool) =>
       s.Runs h i t → ∃ s', exec i s = .next s' ∧
         s.Awaits s' t s.nextId d 2 { t.advance with out := { t.out with unsealed := t.out.unsealed ++ [s.nextId] } } ∧
         s' = { s with
           nextId := if block then s.nextId + 2 else s.nextId + 1
           ms := if block then { s.ms with accs := s.ms.accs ++ [⟨s.nextId + 1, t.id, t.place.core, false, 15, .core, false, false, false, .copyBlock s.nextId,
             .none, t.pos, 0, [⟨0, 32, cb, false, 0, none, false, none, none⟩], List.replicate 32 0, false, false, none, none⟩] } else s.ms
           en := { s.en with copies := s.en.copies ++ [s.newCopy t c.id k cb d stream sc rel] }
           wk := { s.wk with threads := s'.wk.threads, groups := s'.wk.groups } }
     let Traps := fun (i : Instr) (cause reason addr : Nat) => s.Runs h i t → exec i s = .next (s.trapHere t cause reason addr 0)
     let each := fun (P : Instr → CopyKind → Prop) => P (.cpy h x) .cpy ∧ P (.cpys h x) .cpys ∧ (granted → P (.cpyb h x) .cpyb) ∧
       P (.cpyx h x) .cpyx ∧ P (.cfill h x b) (.fill (s.rd t b))
     let room := t.out.unsealed.length < 64
     (cb % 32 = 0 → inSpace cb → room → each fun i k => Puts i k true cb x.d x.stream.val x.scope x.rel) ∧
     (¬ granted → Traps (.cpyb h x) 0x04 0 0) ∧
     (cb % 32 ≠ 0 → each fun i _ => Traps i 0x02 0 0) ∧ (cb % 32 = 0 → ¬ inSpace cb → each fun i _ => Traps i 0x10 1 cb) ∧
     (cb % 32 = 0 → inSpace cb → ¬ room → each fun i _ => Traps i 0x31 6 cb) ∧
     (c.shadows.getD sh.val none ≠ none → room → Puts (.cpub h d sh) (.pub sh.val) false 0 d 15 .system false ∧
       Puts (.cshadOff h d sh) (.off sh.val) false 0 d 15 .system false) ∧
     (c.shadows.getD sh.val none = none → Traps (.cpub h d sh) 0x02 0 0 ∧ Traps (.cshadOff h d sh) 0x02 0 0)) ∧
  (∀ (s : State) (t : Thread) (c : Ctx) (h : Gd) (sh : Fin 8) (a b : Opnd), s.ctxOf t = some c → s.Runs h (.cshad h sh a b) t →
     let base := (s.rd2 t a).toNat
     let len := (s.rd t b).toNat
     let ok := c.shadows.getD sh.val none = none ∧ base % 64 = 0 ∧ len % 64 = 0 ∧ 64 ≤ len ∧ len ≤ 2 ^ 24 ∧
       (∀ r ∈ c.shadows.filterMap id, base + len ≤ r.base ∨ r.base + r.len ≤ base) ∧ len + ((c.shadows.filterMap id).map Shadow.len).sum ≤ 2 ^ 24
     (ok → ∃ s', exec (.cshad h sh a b) s = .next s' ∧ s'.thread t.id = some t.advance ∧ (∀ u, u ≠ t.id → s'.thread u = s.thread u) ∧
       s'.ctx c.id = some { c with shadows := c.shadows.set sh.val (some ⟨base, len, s.nextId, none, []⟩) } ∧ (∀ x, x ≠ c.id → s'.ctx x = s.ctx x) ∧
       s' = { s with nextId := s.nextId + 1, en := { s.en with ctxs := s'.en.ctxs }, wk := { s.wk with threads := s'.wk.threads } }) ∧
     (¬ ok → exec (.cshad h sh a b) s = .next (s.trapHere t 0x02 0 0 0))) ∧
  (∀ (s : State) (t : Thread) (h : Gd) (d : Opnd) (k : Fin 8) (n : Fin 64) (b : Batch),
     let opsOf := fun (b : Batch) => s.en.copies.filter fun c => b.ops.contains c.id
     let new : Batch := ⟨s.nextId, t.id, t.out.batchNo, t.out.unsealed, s.clock.toNat, none, false⟩
     let allDone := ∀ c ∈ opsOf new, c.finished = true
     let promise := s.promiseIs b
     let seen : Thread := { t with
       obs := t.obs ++ t.out.unseenC.filter fun i => !t.obs.contains i
       out := { t.out with unseenC := [] } }
     let holds := t.regs.getK k.val = some (.batch b.id) ∧ (s.en.batches.find? fun x => x.id == b.id) = some b
     (s.Runs h (.cseal h k) t → t.ctr.batches < 63 →
       ∃ s' y, exec (.cseal h k) s = .next s' ∧ s'.thread t.id = some y ∧
         y = { t.advance with
           ctr := { t.ctr with batches := if allDone then t.ctr.batches else t.ctr.batches + 1 }
           regs := { t.regs with k := y.regs.k }
           out := { t.out with
             unsealed := []
             batchNo := (t.out.batchNo + 1) % 2 ^ 16
             unseenC := if allDone then t.out.unseenC ++ (opsOf new).flatMap Copy.writes else t.out.unseenC } } ∧
         (∀ j, j < 8 → y.regs.getK j = if j = k.val then some (.batch s.nextId) else t.regs.getK j) ∧
         s'.en.batches = s.en.batches ++ [{ new with fin := if allDone then some s.clock.toNat else none }] ∧ s'.en.copies = s.en.copies ∧
         (∀ u, u ≠ t.id → s'.thread u = s.thread u) ∧ s.KeepsBytes s') ∧
     (s.Runs h (.cwait h n) t → ∃ s', exec (.cwait h n) s = .next s' ∧
       s.Becomes s' t (if t.ctr.batches ≤ n.val then { seen with wait := .none }.advance else t.advanceTo (.batches n.val))) ∧
     (s.Runs h (.cprom h d k) t → holds → ∀ p, promise = some p → ∃ s', exec (.cprom h d k) s = .next s' ∧
       s.Writes s' t d (lohi (BitVec.ofNat 64 p)) t.advance) ∧
     (s.Runs h (.cprom h d k) t → holds → promise = none → ∃ s', exec (.cprom h d k) s = .next s' ∧
       s.Awaits s' t b.id d 2 (t.advanceTo (.prom b.id d)) ∧ s.KeepsBytes s') ∧
     (s.Runs h (.cpromStat h d k) t → holds → b.no < 2 ^ 16 → ∃ s' w, exec (.cpromStat h d k) s = .next s' ∧
       s.Writes s' t d [w] t.advance ∧ w.toNat / 2 ^ 16 = b.no ∧ w.toNat % 2 ^ 16 < 8 ∧ w.getLsbD 0 = b.fin.isSome ∧
       (w.getLsbD 1 = true ↔ ∃ c ∈ opsOf b, c.fault ≠ none ∨ c.badBlock = true) ∧
       (b.fin = none → (w.getLsbD 2 = true ↔ ∃ p, promise = some p ∧ p ≤ s.clock.toNat)) ∧ (b.fin ≠ none → w.getLsbD 2 = b.late)) ∧
     ((∀ x ∈ s.en.batches, t.regs.getK k.val ≠ some (.batch x.id)) →
       (s.Runs h (.cprom h d k) t → exec (.cprom h d k) s = .next (s.trapHere t 0x02 0 0 0)) ∧
       (s.Runs h (.cpromStat h d k) t → exec (.cpromStat h d k) s = .next (s.trapHere t 0x02 0 0 0))))

/-- R276, R277, R289, R294, R295: admission of a copy whose command block is read now, in the order of its thread, and reads well: it takes a slot
of its lighter, or of a privileged channel of the die for CPYB, its promise is the cycle with its model time and the backlog, and the promise
comes to D; a block that fails its checks ends the copy at once with cause 0x31 for its thread.
R276, R278 to R280, R286, R298: one unit in place of a dense copy or a fill that is started, or that may start when every copy admitted to its
lighter before it has begun or may not: the bytes of the destination from its place on, up to the
end of a word, take the bytes of the source or of the pattern: vault bytes at once, global bytes as a write that no point sees
yet or, inside an armed shadow region, as a pending write; and no other byte changes. -/
def Obligations.CopiesAreAdmittedAndMoved : Prop :=
  (∀ (s : State) (c : Copy) (t : Thread) (a : Access) (pa chan : Nat), s.copy c.id = some c → c.adm = none → c.stalled = false → c.finished = false →
     c.kind ∈ [CopyKind.cpy, .cpys, .cpyb, .cpyx] ∨ (∃ p, c.kind = .fill p) → s.thread c.tid = some t → t.exited = false → c.fault = none →
     c.extra = [] → c.poison = false → c.raw = none → (s.ms.accs.find? fun a => a.kind == .copyBlock c.id) = some a → s.ordered a = true →
     s.translate t.xl .read c.cb = .ok pa → s.linkHeld pa = false → s.lost pa = 0 →
     (s.readAt t.who .core pa 32).poison = false → (∀ u ∈ s.wk.threads, s.thread u.id = some u) →
     let held := fun (n : Nat) => s.en.copies.filter fun x => x.adm.isSome && !x.finished && x.chan == n && (if n = 0 then x.core == c.core else x.core.die == c.core.die)
     (if c.kind = .cpyb then (chan = 1 ∨ chan = 2) ∧ (held chan).length < 32 ∧ ∀ n, n = 1 ∨ n = 2 → (held chan).length < (held n).length ∨ (held chan).length = (held n).length ∧ chan ≤ n
       else chan = 0 ∧ (held 0).length < 16) →
     let quiet := ∀ u ∈ s.wk.threads, ∀ b d, u.wait ≠ .prom b d
     let r := s.readAt t.who .core pa 32
     let s1 := (s.fillTlb t.xl c.cb).takeRead t.who r.wids
     let backlog := fun (n : Nat) => ((held n).map fun x => (x.bytes + 127) / 128).sum
     (∀ bytes, checkBlock c.kind r.val = (none, bytes) →
       let promise := s.clock.toNat + s1.copyCycles c r.val bytes + backlog chan
       ∃ s', exec (.copyAdmission c.id) s = .next s' ∧ s.KeepsBytes s' ∧ s'.ms.accs = s.ms.accs.filter (fun x => x.kind != .copyBlock c.id) ∧
         s'.copy c.id = some { c with
           raw := some (r.val, false), adm := some s.nextId, chan := chan, bits := some r.val, bytes := bytes, promise := some promise, badBlock := false } ∧
         (quiet → s.Comes s' t c.id c.d (lohi (BitVec.ofNat 64 promise)) 0) ∧
         -- a thread that waits at CPROM for a batch whose last admission this is takes the batch's promise and goes on
         ∀ u ∈ s.wk.threads, ∀ b d, u.wait = .prom b.id d → u.exited = false → (s.en.batches.find? fun x => x.id == b.id) = some b → c.id ∈ b.ops →
           (∀ x ∈ s.en.copies, x.id ∈ b.ops → x.id = c.id ∨ x.promise ≠ none) →
           let top := ((s.en.copies.filter fun x => b.ops.contains x.id).map fun x => if x.id = c.id then promise else x.promise.getD 0).foldl max 0
           ∃ y, s'.thread u.id = some y ∧ y.wait = .none ∧ ∀ r, r < 128 →
             y.regs.getV r = (newV d (lohi (BitVec.ofNat 64 top)) r).getD
               (if u.id = t.id then (newV c.d (lohi (BitVec.ofNat 64 promise)) r).getD (u.regs.getV r) else u.regs.getV r)) ∧
     (∀ f n, checkBlock c.kind r.val = (some f, n) →
       ∃ s' y, exec (.copyAdmission c.id) s = .next s' ∧ (quiet → s.Comes s' t c.id c.d (lohi s.clock) 0) ∧ s.KeepsBytes s' ∧
         s'.copy c.id = some { c with
           raw := some (r.val, false), adm := some s.nextId, chan := chan, bits := none, bytes := 0, promise := some s.clock.toNat, fault := some f
           badBlock := false, finished := true } ∧
         s'.thread t.id = some y ∧ y.out.causes = t.out.causes ++ [⟨0x31, f, c.cb, 0, false, none⟩])) ∧
  (∀ (s : State) (c : Copy) (t : Thread) (blk : Nat), s.copy c.id = some c → c.adm ≠ none → c.bits = some blk → c.stalled = false → c.finished = false →
     c.fault = none → c.early = [] → c.done < c.bytes → (c.started = true ∨ (s.mayStart c = true ∧ s.servedNow c = true)) → s.thread c.tid = some t → s.Canonical →
     let f := fun (hi lo : Nat) => blk / 2 ^ lo % 2 ^ (hi + 1 - lo)
     let sg := fun (hi lo : Nat) => (BitVec.ofNat (hi + 1 - lo) (blk / 2 ^ lo)).toInt
     let nx := f 119 100 + 1
     let ny := f 131 120 + 1
     let x := c.done % nx
     let y := c.done / nx % ny
     let z := c.done / nx / ny
     let place := fun (vault : Bool) (base : Int) (zs ys : Int) => ((base + z * zs + y * ys + x) % (if vault then 2 ^ 32 else 2 ^ 64 : Int)).toNat
     let dv := blk / 2 ^ 97 % 2 = 1
     let da := place dv (if dv then f 95 48 else sg 95 48) (sg 255 228) (sg 227 200)
     let sv := blk / 2 ^ 96 % 2 = 1
     let sa := place sv (if sv then f 47 0 else sg 47 0) (sg 199 172) (sg 171 144)
     let n := fun (a : Nat) => min (nx - x) (4 - a % 4)
     let Moves := fun (bs : List Byte) (s1 : State) =>
       (dv → ∀ key, s.vaultKey t.place da bs.length false = .ok key → ∃ s', exec (.copyStart c.id (.units 1)) s = .next s' ∧
         (∀ a, s'.ms.vault.read a = if key ≤ a ∧ a < key + bs.length then bs.getD (a - key) 0 else s.ms.vault.read a) ∧
         (∀ a, s'.ms.mem.read a = s.ms.mem.read a) ∧ (∀ w, s'.full w = s.full w) ∧ s'.wk = s.wk ∧
         s'.copy c.id = some { c with started := true, done := c.done + bs.length, aux := [] }) ∧
       (¬ dv → ∀ pa, s1.translate t.xl .write da = .ok pa → s1.linkHeld pa = false → s1.lost pa = 0 → da % 64 + bs.length ≤ 64 →
         (s1.regionAt ⟨t.who, t.xl, c.ctx, c.adm.getD 0⟩ da = none → ∃ s' w, exec (.copyStart c.id (.units 1)) s = .next s' ∧
           (∀ a, s'.ms.mem.read a = if pa ≤ a ∧ a < pa + bs.length then bs.getD (a - pa) 0 else s.ms.mem.read a) ∧
           (∀ a, s'.ms.vault.read a = s.ms.vault.read a) ∧ s'.wk = s.wk ∧ w ∈ s'.ms.writes ∧ w.id = s.nextId ∧ w.seen = [] ∧
           s'.copy c.id = some { c with started := true, done := c.done + bs.length, aux := [], writes := c.writes ++ [s.nextId] }) ∧
         (∀ r cx sh, s1.regionAt ⟨t.who, t.xl, c.ctx, c.adm.getD 0⟩ da = some r → s.ctx c.ctx = some cx → cx.shadows[r]? = some (some sh) →
           ∃ s' cx', exec (.copyStart c.id (.units 1)) s = .next s' ∧ s.KeepsBytes s' ∧ s'.wk = s.wk ∧ s'.ctx c.ctx = some cx' ∧
             cx' = { cx with shadows := cx.shadows.set r (some { sh with
               pending := sh.pending ++ [⟨c.adm.getD 0, (List.range bs.length).map fun i => (pa + i, bs.getD i 0), []⟩] }) } ∧
             s'.copy c.id = some { c with started := true, done := c.done + bs.length, aux := [] }))
     (∀ p, c.kind = .fill p → (x = 0 ∨ da % 4 = 0) → (¬ dv → s.poisonAt t.xl da = false) →
       Moves ((List.range (n da)).map fun i => BitVec.ofNat 8 (p.toNat / 2 ^ (8 * ((da + i) % 4)))) s) ∧
     (c.kind = .cpy → sv → (x = 0 ∨ sa % 4 = 0) → ∀ key, s.vaultKey t.place sa (n sa) false = .ok key → (s.vread key (n sa)).poison = false →
       Moves (s.ms.vault.readN key (n sa)) s) ∧
     (c.kind = .cpy → ¬ sv → (x = 0 ∨ sa % 4 = 0) → sa % 64 + n sa ≤ 64 → ∀ pa, s.translate t.xl .read sa = .ok pa → s.linkHeld pa = false → s.lost pa = 0 →
       let r := s.readAt t.who c.scope pa (n sa)
       r.poison = false → Moves r.bytes (s.fillTlb t.xl (sa / 4096 * 4096))))

/-- R33, R289, R290, R295, R296: a copy whose bytes have all been moved, or that a fault has ended, completes once every write of it is
visible at its scope: its causes wait for its thread's next header, and each batch whose operations have all finished is
finished, its thread's counter falls, and the thread has its writes to see.
R226, R297, R299: PUBLISH commits the pending writes of the region that agents admitted before the CPUB made, in order, and every
point sees them in the same step; the disarming of CSHAD.OFF discards the pending writes and frees the region. Both wait for
the earlier agents of the context. -/
def Obligations.CopiesCompleteAndPublish : Prop :=
  (∀ (s : State) (c : Copy) (t : Thread), s.copy c.id = some c → c.adm ≠ none → c.stalled = false → c.finished = false →
     (c.fault ≠ none ∨ (if c.bits ≠ none then c.bytes ≤ c.done ∧ c.held = [] else c.ran = true)) → s.thread c.tid = some t → t.exited = false →
     (∀ r ∈ s.ms.writes, r.id ∈ c.writes → ∀ p ∈ s.performedAt t.who c.scope, s.visibleAt r p = true) →
     (∀ b ∈ s.en.batches, ∀ b' ∈ s.en.batches, b.id = b'.id → b = b') →
     let allDone := fun (b : Batch) => b.fin.isNone && s.en.copies.all fun x => !b.ops.contains x.id || x.finished || x.id == c.id
     let mine := fun (u : Nat) => s.en.batches.filter fun b => allDone b && b.tid == u
     let causes : List Cause := (match c.fault with
       | some r => [⟨0x31, r, c.cb, 0, false, none⟩]
       | none => []) ++ (if c.badBlock = true then [⟨0x20, 1, c.cb, 1, false, none⟩] else if c.poison = true then [⟨0x20, 1, 0, 1, false, none⟩] else []) ++ c.extra
     ∃ s', exec (.copyComplete c.id) s = .next s' ∧ s.KeepsBytes s' ∧ s'.copy c.id = some { c with finished := true } ∧
       s'.en.batches = s.en.batches.map (fun b => if allDone b then { b with fin := some s.clock.toNat, late := (s.promiseIs b).any fun p => decide (p ≤ s.clock.toNat) } else b) ∧
       ∀ u x, s.thread u = some x → ∃ y, s'.thread u = some y ∧
         y = { x with
           ctr := { x.ctr with batches := x.ctr.batches - (mine u).length }
           out := { x.out with
             causes := if u = t.id then x.out.causes ++ causes else x.out.causes
             unseenC := x.out.unseenC ++ (mine u).flatMap fun b => (s.en.copies.filter fun x => b.ops.contains x.id).flatMap Copy.writes } }) ∧
  (∀ (s : State) (c : Copy) (cx : Ctx) (sh : Nat), s.copy c.id = some c → s.ctx c.ctx = some cx → c.adm ≠ none → c.ran = false →
     (∀ x ∈ s.en.copies, x.ctx = c.ctx → x.id < c.id → x.finished = true) → (∀ o ∈ cx.mxq, c.id ≤ o.eng.id) → (∀ o ∈ cx.splq, c.id ≤ o.eng.id) →
     (∀ f ∈ s.en.fops, f.id < c.id → ∀ t, s.thread f.tid = some t → ∀ x, s.ctxOf t = some x → x.id ≠ c.ctx) →
     (∀ w ∈ s.en.walks, w.id < c.id → w.st ≠ .discarded → w.st ≠ .again → ∀ t, s.thread w.tid = some t → ∀ x, s.ctxOf t = some x → x.id ≠ c.ctx) →
     (∀ r, c.kind = .pub sh → cx.shadows[sh]? = some (some r) → s.Canonical →
       let now := r.pending.filter fun w => decide (w.adm < c.adm.getD 0)
       ∃ s' y, exec (.publish c.id) s = .next s' ∧ s.Keeps s' ∧
         (∀ a, s'.ms.vault.read a = s.ms.vault.read a) ∧
         (∀ a, s'.ms.mem.read a = (((now.flatMap HeldWrite.cells).reverse.find? fun w => w.1 == a).map Prod.snd).getD (s.ms.mem.read a)) ∧
         (∀ w ∈ s'.ms.writes, w ∉ s.ms.writes → ∀ p, s'.visibleAt w p = true) ∧
         s'.ctx c.ctx = some { cx with shadows := cx.shadows.set sh (some { r with pending := r.pending.filter fun w => !decide (w.adm < c.adm.getD 0) }) } ∧
         s'.copy c.id = some y ∧ y.ran = true) ∧
     (c.kind = .off sh → ∃ s', exec (.shadowDisarm c.id) s = .next s' ∧ s'.ctx c.ctx = some { cx with shadows := cx.shadows.set sh none } ∧
       s'.copy c.id = some { c with ran := true } ∧ s'.ms = s.ms ∧ s'.wk = s.wk))

/-! ## Fields -/

/-- Slots of every table but one read as before (R176). -/
def Sys2Proof.Machine.State.KeepsSlots (s s' : State) (p die n : Nat) : Prop :=
  ∀ q e k, (q, e, k) ≠ (p, die, n) → s'.slot q e k = s.slot q e k

/-- Thread t has started a field operation of a kind, and gone on with one more tile operation outstanding (R33); d holds the words ws; the
slot n of its die has become x, and nothing else has changed. -/
structure Sys2Proof.Machine.State.StartsField (s s' : State) (t : Thread) (k : FKind) (d : Opnd) (ws : List Word) (n : Nat) (x : Slot) : Prop where
  slot : s'.slotOf t n = x
  slots : s.KeepsSlots s' t.place.part t.place.core.die n
  en : s'.en = { s.en with
    fsts := s'.en.fsts
    fops := s.en.fops ++ [⟨s.nextId, t.id, s.launchNo t, t.place.part, t.place.core, t.pos, k, [], false, [], s.clock.toNat⟩] }
  writes : ({ s with nextId := s.nextId + 1, en := s'.en } : State).Writes s' t d ws { t.advance with ctr := { t.ctr with tiles := t.ctr.tiles + 1 } }

/-- R33, R177, R178, R180 to R183, R189 to R193, R195, R200 to R206: the FLD instructions on slots that are not pending: FOPEN takes a FREE slot and gives
its new generation; FST starts the operation that writes the entry, FULL set (an agent's, R226; log 57); FSEAL seals an OPEN slot; FCOMP takes a FREE slot for the field that its
chain composes; FINV and FREL start their operations; the queries read the slot. In any other state of the slot the instruction
raises 0x02 and has no effect.
R184: the chain of a walk is its start slot and the successive parents: HOPS slots, or all with a descriptor up to the root; each link holds
the slot's state as it stands at that table step.
R17, R33, R184, R207: HLD and HRES put a walk into the chain walker, with its chain, from the position at which the thread stands; the destination and
the predicate are outstanding. A slot that is FREE, without a chain of that many hops, or for HLD without an ancestor surface, raises 0x02. -/
def Obligations.FieldInstructionsIssue : Prop :=
  (∀ (s : State) (t : Thread) (h : Gd) (d a b : Opnd) (n dst : Fin 64) (hops : Fin 16) (em : Sys2Proof.Empty), t.ctr.tiles < 63 →
     let x := s.slotOf t n.val
     let y := s.slotOf t dst.val
     let A := (s.rd2 t a).toNat
     let i := (s.rd t a).toNat
     let Traps := fun (i : Instr) => s.Runs h i t → exec i s = .next (s.trapHere t 0x02 0 0 0)
     let fd := x.desc.getD 0
     let oned := fd / 2 ^ 96 % 8 = 7
     let cells := if oned then fd / 2 ^ 64 % 2 ^ 31 else (fd / 2 ^ 64 % 2 ^ 16) * (fd / 2 ^ 80 % 2 ^ 16)
     let ea := (fd % 2 ^ 64 + 4 * i) % 2 ^ 64
     (A % 64 = 0 → x.state = .free → s.Runs h (.fopen h d a n) t → ∃ s', exec (.fopen h d a n) s = .next s' ∧
       s.StartsField s' t (.open_ n.val A) d [(x.gen + 1).setWidth 32] n.val { x with state := .opened, pending := true, gen := x.gen + 1 }) ∧
     (¬ (A % 64 = 0 ∧ x.state = .free) → Traps (.fopen h d a n)) ∧
     (x.pending = false → x.desc ≠ none → x.state = .opened → i < cells → s.Runs h (.fst h a b n) t → ∃ s', exec (.fst h a b n) s = .next s' ∧
       s.StartsField s' t (.put ea (s.rd t b ||| 0x80000000).toNat false) .z [] n.val x) ∧
     (x.pending = false → (x.desc = none ∨ x.state ≠ .opened ∨ cells ≤ i) → Traps (.fst h a b n)) ∧
     (x.pending = false → x.state = .opened → s.Runs h (.fseal h n) t → ∃ s', exec (.fseal h n) s = .next s' ∧
       s.StartsField s' t (.seal n.val) .z [] n.val { x with state := .sealed }) ∧
     (x.pending = false → x.state ≠ .opened → Traps (.fseal h n)) ∧
     (x.pending = false → y.pending = false → ∀ l, s.chainOf t.place.part t.place.core.die n.val hops.val = some l →
       let good := A % 64 = 0 ∧ y.state = .free ∧ (x.state = .opened ∨ x.state = .sealed) ∧ ∀ k ∈ l, k.slot ≠ dst.val
       let last := (l.getLast?.map Link.desc).getD 0
       (good → s.Runs h (.fcomp h a n dst hops em) t → ∃ s' e m, exec (.fcomp h a n dst hops em) s = .next s' ∧
         s.StartsField s' t (.comp n.val dst.val A l em []) .z [] dst.val ⟨.opened, true, some e, y.gen + 1, m, x.depth - l.length + 1⟩ ∧
         e % 2 ^ 104 = A + fd / 2 ^ 64 % 2 ^ 35 * 2 ^ 64 ∧
         (last / 2 ^ 111 % 2 = 0 → e / 2 ^ 104 % 2 ^ 152 = last / 2 ^ 104 % 2 ^ 152) ∧
         ∀ k, k < 64 → (m.getLsbD k = true ↔ k = dst.val ∨ ∃ z ∈ l, (s.slotOf t z.slot).mask.getLsbD k = true)) ∧
       (¬ good → Traps (.fcomp h a n dst hops em))) ∧
     (x.pending = false → y.pending = false → s.chainOf t.place.part t.place.core.die n.val hops.val = none → Traps (.fcomp h a n dst hops em)) ∧
     (x.pending = false → x.state ≠ .free → s.Runs h (.finv h n) t → ∃ s', exec (.finv h n) s = .next s' ∧
       s.StartsField s' t (.inv n.val none) .z [] n.val x) ∧
     (x.pending = false → x.state = .free → Traps (.finv h n)) ∧
     (x.state = .retired → s.Runs h (.frel h n) t → ∃ s', exec (.frel h n) s = .next s' ∧ s.StartsField s' t (.rel n.val) .z [] n.val x) ∧
     (x.state ≠ .retired → Traps (.frel h n)) ∧
     (s.Runs h (.fqry h d n) t → x.depth ≤ 8 → ∃ s' w, exec (.fqry h d n) s = .next s' ∧
       s.Writes s' t d [w, BitVec.ofNat 32 (min 64 (s.walksOf t.place.part t.place.core.die n.val))] t.advance ∧
       w.extractLsb' 0 16 = x.gen ∧
       w.extractLsb' 16 2 = (if x.pending = true then 1 else match x.state with
         | .free => 0 | .opened => 1 | .sealed => 2 | .retired => 3) ∧
       w.getLsbD 18 = fd.testBit 110 ∧ (w.extractLsb' 19 6).toNat = fd / 2 ^ 104 % 64 ∧
       (w.extractLsb' 25 4).toNat = (if x.state = .free ∨ x.desc = none then 0 else x.depth) ∧ w.getLsbD 29 = decide oned ∧ w.extractLsb' 30 2 = 0) ∧
     (s.Runs h (.fqryAnc h d n) t → ∃ s', exec (.fqryAnc h d n) s = .next s' ∧ s.Writes s' t d (lohi x.mask) t.advance)) ∧
  (∀ (s : State) (p die k hops : Nat) (l : List Link), hops ≤ 8 → s.chainOf p die k hops = some l →
     (l.head?.map Link.slot) = some k ∧ (hops ≠ 0 → l.length = hops) ∧
     (∀ x ∈ l, x.state = (s.slot p die x.slot).state ∧ (s.slot p die x.slot).desc = some x.desc) ∧
     (∀ i x y, l[i]? = some x → l[i + 1]? = some y → x.desc / 2 ^ 110 % 2 = 1 ∧ y.slot = x.desc / 2 ^ 104 % 64) ∧
     (hops = 0 → ∀ x, l.getLast? = some x → l.length < 64 → x.desc / 2 ^ 110 % 2 = 0 ∨ (s.slot p die (x.desc / 2 ^ 104 % 64)).desc = none)) ∧
  (∀ (s : State) (t : Thread) (h : Gd) (d a : Opnd) (n : Fin 64) (hops : Fin 16) (em : Sys2Proof.Empty) (pred : Option (Fin 8)) (hres : Bool),
     let i : Instr := if hres then .hres h d a n hops em pred else .hld h d a n hops em pred
     let x := s.slotOf t n.val
     let chain := s.chainOf t.place.part t.place.core.die n.val hops.val
     let Bad := s.Runs h i t → exec i s = .next (s.trapHere t 0x02 0 0 0)
     t.ctr.loads < 63 → x.pending = false →
     (x.state = .free → Bad) ∧ (chain = none → Bad) ∧
     ∀ l, x.state ≠ .free → chain = some l →
       let one := ∃ k, l.head? = some k ∧ k.desc / 2 ^ 96 % 8 = 7
       let fmt := (l.getLast?.map Link.desc).getD 0 / 2 ^ 112 % 16
       let regs := if hres then 4 else if fmt = 0 then 1 else if fmt = 1 then 2 else if fmt ≤ 4 then 4 else 0
       let P := [(s.rdReg t a 0).toNat, if one then 0 else (s.rdReg t a 1).toNat]
       (hres = false → (one ∨ fmt = 15) → Bad) ∧
       (¬ (hres = false ∧ (one ∨ fmt = 15)) → d.spanOk regs = true → inBudget t.place.budget (d, regs) = true → s.pending t (spanRefs (d, regs)) = false →
         (s.en.walks.filter fun w => w.core == t.place.core && w.st != .discarded && w.st != .again).length < 64 → s.Runs h i t →
         ∃ s', exec i s = .next s' ∧
           s'.thread t.id = some { t.advance with
             ctr := { t.ctr with loads := t.ctr.loads + 1 }
             out := { t.out with pend := t.out.pend ++ heldV s.nextId d regs ++ (match pred with
               | some p => if p.val < 7 then [(s.nextId, .p p.val)] else []
               | none => []) } } ∧
           (∀ u, u ≠ t.id → s'.thread u = s.thread u) ∧
           (∀ g, s'.group g = (s.group g).map fun y => if g = t.place.grp then { y with pend := y.pend ++ heldG s.nextId d regs } else y) ∧
           s' = { s with
             nextId := s.nextId + 1
             en := { s.en with walks := s.en.walks ++ [{
               id := s.nextId, tid := t.id, launch := s.launchNo t, core := t.place.core, part := t.place.part, pos := t.pos, slot := n.val,
               hops := hops.val, x0 := P.getD 0 0, y0 := P.getD 1 0, em := em, d := d, regs := regs, hres := hres, pred := pred.map Fin.val, chain := l,
               at_ := ⟨P.getD 0 0, P.getD 1 0, 63, 0, 0, 0⟩, st := .going, stalled := false, texels := [],
               since := s.clock.toNat }] }
             wk := { s.wk with threads := s'.wk.threads, groups := s'.wk.groups } }))

/-- R182, R184, R185, R187: a walk that goes on, or is parked, looks at the entry of its position in the slot at which it stands: a retired slot, a position
outside the grid, an entry that is invalid, or one that is empty and need not be awaited ends it in disocclusion; an empty entry
of an open slot parks it under WAIT and stands for no displacement under ZERO; a valid entry moves it on.
R33, R186 to R188, R198, R207: a walk ends: one that has reached its end delivers HRES's position, confidence and hops, or HLD's filtered channels,
and the predicate true; a disocclusion delivers zeros, and the predicate false or cause 0x40 with the reason, slot, generation,
hops and position; an uncorrectable error delivers NaNs and its cause. The load counter falls. -/
def Obligations.WalksStepAndEnd : Prop :=
  (∀ (s : State) (w : Walk) (t : Thread) (l : Link), s.walk w.id = some w → w.stalled = false → (w.st = .going ∨ w.st = .parked) →
     w.chain[w.at_.n]? = some l → s.thread w.tid = some t →
     let oned := l.desc / 2 ^ 96 % 8 = 7
     let Ends := fun (e : WalkEnd) (a : WalkAt) => ∃ s' y, exec (.walkReread w.id) s = .next s' ∧ s'.walk w.id = some y ∧ y = { w with st := e, at_ := a } ∧
       s.KeepsBytes s' ∧ s'.wk = s.wk
     (l.state = .retired → Ends (.disocc 1 l.slot) w.at_) ∧
     (l.state ≠ .retired → (if oned then l.desc / 2 ^ 64 % 2 ^ 31 ≤ w.at_.x else cellIndex l.desc w.at_.x w.at_.y = none) → Ends (.disocc 4 l.slot) w.at_) ∧
     ∀ i r, l.state ≠ .retired → cellIndex l.desc w.at_.x w.at_.y = some i →
       s.agentRead t.xl t.who .die (l.desc % 2 ^ 64 + 4 * i) 4 = .ok r → r.poison = false →
       let e := r.val
       let live := (s.slot w.part w.core.die l.slot).state
       let Moves := fun (e : Nat) =>
         let a : WalkAt := if oned then { w.at_ with x := e % 2 ^ 30 }
           else
             let dx := (BitVec.ofNat 12 e).toInt
             let dy := (BitVec.ofNat 12 (e / 2 ^ 12)).toInt
             { w.at_ with
               x := fAdd w.at_.x (fMul (fInt dx) 0x3E000000)
               y := fAdd w.at_.y (fMul (fInt dy) 0x3E000000)
               conf := min w.at_.conf (e / 2 ^ 24 % 64)
               dx := w.at_.dx + dx
               dy := w.at_.dy + dy }
         let inside := if oned then a.x < l.desc / 2 ^ 192 % 2 ^ 31
           else inRange a.x (l.desc / 2 ^ 192 % 2 ^ 16) = true ∧ inRange a.y (l.desc / 2 ^ 208 % 2 ^ 16) = true
         (¬ inside → Ends (.disocc 5 l.slot) a) ∧
         (inside → Ends (if w.at_.n + 1 = w.chain.length then .reached else .going) { a with n := w.at_.n + 1 })
       (e / 2 ^ 31 % 2 = 1 → e / 2 ^ 30 % 2 = 0 → Ends (.disocc 2 l.slot) w.at_) ∧
       (e / 2 ^ 31 % 2 = 1 → e / 2 ^ 30 % 2 = 1 → Moves e) ∧
       (e / 2 ^ 31 % 2 = 0 → l.state = .sealed ∨ w.em = .miss → Ends (.disocc 3 l.slot) w.at_) ∧
       (e / 2 ^ 31 % 2 = 0 → l.state ≠ .sealed → w.em = .wait → live = .opened → Ends .parked w.at_) ∧
       (e / 2 ^ 31 % 2 = 0 → l.state ≠ .sealed → w.em = .wait → live = .sealed → Ends (.disocc 3 l.slot) w.at_) ∧
       (e / 2 ^ 31 % 2 = 0 → l.state ≠ .sealed → w.em = .wait → live = .retired → Ends (.disocc 1 l.slot) w.at_) ∧
       (e / 2 ^ 31 % 2 = 0 → l.state ≠ .sealed → w.em = .zero → (oned → w.at_.x < 2 ^ 30) → Moves (0xC0000000 + if oned then w.at_.x else 0))) ∧
  (∀ (s : State) (w : Walk) (t : Thread), s.walk w.id = some w → w.stalled = false → s.thread w.tid = some t → t.exited = false →
     let oned := (w.chain.getLast?.map Link.desc).getD 0 / 2 ^ 96 % 8 = 7
     let Delivers := fun (ws : List Word) (pred : Bool) (c : Option Cause) => ∃ s' y, exec (.walkEnd w.id) s = .next s' ∧ s'.thread t.id = some y ∧
       y = { t with
         regs := { t.regs with v := y.regs.v, p := y.regs.p }
         ctr := { t.ctr with loads := t.ctr.loads - 1 }
         out := { t.out with pend := t.out.pend.filter fun p => p.1 != w.id, causes := t.out.causes ++ c.toList, bad := y.out.bad } } ∧
       (∀ r, r < 128 → y.regs.getV r = (newV w.d ws r).getD (t.regs.getV r)) ∧
       (match w.pred with
         | some p => PredIs t.regs.p y.regs.p p pred
         | none => y.regs.p = t.regs.p) ∧
       (∀ u, u ≠ t.id → s'.thread u = s.thread u) ∧
       (∀ g r, r < 64 → s'.getG g r = if g = t.place.grp ∧ (s.group g).isSome then (newG w.d ws r).getD (s.getG g r) else s.getG g r) ∧
       s'.en = { s.en with walks := s.en.walks.filter fun x => x.id != w.id } ∧ s'.ms = s.ms
     (w.st = .reached → w.hres = true →
       Delivers [BitVec.ofNat 32 w.at_.x, if oned then 0 else BitVec.ofNat 32 w.at_.y, BitVec.ofNat 32 w.at_.conf, BitVec.ofNat 32 w.at_.n] true none) ∧
     (w.st = .reached → w.hres = false → w.texels.length = 4 →
       let fmt := (w.chain.getLast?.map Link.desc).getD 0 / 2 ^ 112 % 16
       let tx := fun (k c : Nat) => (texelOf fmt (toBytes (surfBytes fmt) (w.texels.getD k 0))).getD c 0
       let half := fun (x : Nat) => fSub x 0x3F000000
       let part := fun (x : Nat) => fSub (half x) (fInt (fFloor (half x)))
       Delivers ((List.range (surfChans fmt)).map fun c => BitVec.ofNat 32
         (lerp (lerp (tx 0 c) (tx 1 c) (part w.at_.x)) (lerp (tx 2 c) (tx 3 c) (part w.at_.x)) (part w.at_.y))) true none) ∧
     (∀ r slot, w.st = .disocc r slot → Delivers (List.replicate w.regs 0) false (if w.pred ≠ none then none else some
       ⟨0x40, r, w.at_.x + w.at_.y * 2 ^ 32, slot + (s.slot w.part w.core.die slot).gen.toNat * 2 ^ 6 + w.at_.n * 2 ^ 22, true, none⟩)) ∧
     (∀ c r a, w.st = .failed c r a → Delivers (List.replicate w.regs 0x7FC00000) false (some ⟨c, r, a, 4, false, none⟩)))

/-- R33, R176, R177, R180, R183, R189 to R193, R195, R201, R202, R204, R205: the operations of fields take their table steps: FOPEN installs a
descriptor that passes its checks, under a parent that is open or sealed, or retires the slot with a cause; FSEAL's acknowledgement; FCOMP
seals its slot once every cell is filled and performed; FINV retires the slots whose masks name it, with the walks parked there, and
completes when no walk is left on them; FREL frees its slot (once no FCOMP fills it, log 51); FST writes its entry once all
that its thread did before is performed, and completes once that write is performed at die scope (log 57). Each lowers the issuer's counter when it completes. -/
def Obligations.FieldOperationsComplete : Prop :=
  ∀ (s : State) (f : FOp) (t : Thread), s.fop f.id = some f → s.thread f.tid = some t → t.exited = false → f.stalled = false →
    let slot := fun (n : Nat) => s.slot f.part f.core.die n
    let Done := fun (s' : State) (cs : List Cause) =>
      s'.thread t.id = some { t with
        ctr := { t.ctr with tiles := t.ctr.tiles - 1 }
        out := { t.out with unseenT := t.out.unseenT ++ f.writes, causes := t.out.causes ++ cs } } ∧
      (∀ u, u ≠ t.id → s'.thread u = s.thread u) ∧ s'.fop f.id = none ∧ s.KeepsBytes s'
    let Becomes := fun (s' : State) (n : Nat) (x : Slot) => s'.slot f.part f.core.die n = x ∧ s.KeepsSlots s' f.part f.core.die n
    (∀ k va r, f.kind = .open_ k va → s.agentRead t.xl t.who .core va 64 = .ok r → r.poison = false →
      let d := r.val
      let par := slot (d / 2 ^ 104 % 64)
      let hasp := d / 2 ^ 110 % 2 = 1
      let Fails := fun (c : Nat) => ∃ s', exec (.fopenInstall f.id) s = .next s' ∧ Done s' (f.causes ++ [⟨c, 0, 0, 0, false, none⟩]) ∧
        Becomes s' k { slot k with state := .retired, pending := false, desc := none, mask := 1#64 <<< k, depth := 0 }
      (∀ c, fdCheck k d = some c → Fails c) ∧
      (fdCheck k d = none → ¬ hasp → ∃ s', exec (.fopenInstall f.id) s = .next s' ∧ Done s' f.causes ∧
        Becomes s' k { slot k with pending := false, desc := some d, mask := 1#64 <<< k, depth := 1 }) ∧
      (fdCheck k d = none → hasp → par.pending = true → exec (.fopenInstall f.id) s = .next s) ∧
      (fdCheck k d = none → hasp → par.pending = false → fdParentOk d par = true → ∃ s', exec (.fopenInstall f.id) s = .next s' ∧ Done s' f.causes ∧
        Becomes s' k { slot k with pending := false, desc := some d, mask := 1#64 <<< k ||| par.mask, depth := par.depth + 1 }) ∧
      (fdCheck k d = none → hasp → par.pending = false → (par.desc = none ∨ par.state = .free ∨ par.state = .retired ∨ 8 ≤ par.depth) → Fails 0x02)) ∧
    (∀ ea v pa, f.kind = .put ea v false → s.access f.id = none → ea % 4 = 0 → ea < 2 ^ 64 → v < 2 ^ 32 → s.Canonical → (∀ r ∈ s.ms.writes, r.id < s.nextId) →
      s.translate t.xl .write ea = .ok pa → s.linkHeld pa = false → s.lost pa = 0 → (∀ cx, s.ctx (((s.ctxOf t).map Ctx.id).getD 0) = some cx → ∀ n, n < 8 → cx.shadows.getD n none = none) →
      let Ready := (∀ a ∈ s.ms.accs, a.tid = t.id → a.id < f.id → a.silent = true ∨ ∀ q ∈ a.parts, q.done = true) ∧
        ∀ r ∈ s.ms.writes, r.id ∈ t.obs → ∀ p ∈ s.performedAt t.who .die, s.visibleAt r p = true
      (¬ Ready → exec (.perform f.id 0) s = .next s) ∧
      (Ready → ∃ s' w, exec (.perform f.id 0) s = .next s' ∧ s.Keeps s' ∧ w ∈ s'.ms.writes ∧ w.tid = t.id ∧ (∀ i, i < 4 → w.covers (pa + i) = true) ∧
        s'.fop f.id = some { f with kind := .put ea v true, writes := f.writes ++ [w.id] } ∧
        (∀ x, s'.ms.mem.read x = if pa ≤ x ∧ x < pa + 4 then BitVec.ofNat 8 (v / 2 ^ (8 * (x - pa))) else s.ms.mem.read x) ∧
        ∀ x, s'.ms.vault.read x = s.ms.vault.read x)) ∧
    (∀ ea v w pt, f.kind = .put ea v true → (∀ r ∈ s.ms.writes, r.id ∈ f.writes → s.visibleAt r (.die f.core.die) = true ∨ (r.id = w ∧ pt = .die f.core.die)) →
      ∃ s' y, exec (.propagate w pt) s = .next s' ∧ s'.fop f.id = none ∧ s.Keeps s' ∧ s.KeepsBytes s' ∧ s'.thread t.id = some y ∧
        y.ctr.tiles ≤ t.ctr.tiles - 1 ∧ ∀ n ∈ f.writes, n ∈ y.out.unseenT) ∧
    (∀ k, f.kind = .seal k → ∃ s', exec (.fsealAck f.id) s = .next s' ∧ Done s' f.causes ∧ ∀ q e n, s'.slot q e n = s.slot q e n) ∧
    (∀ src dst arr l em filled, f.kind = .comp src dst arr l em filled →
      let d := (l.head?.map Link.desc).getD 0
      (if d / 2 ^ 96 % 8 = 7 then d / 2 ^ 64 % 2 ^ 31 else (d / 2 ^ 64 % 2 ^ 16) * (d / 2 ^ 80 % 2 ^ 16)) ≤ filled.length →
      (∀ r ∈ s.ms.writes, r.id ∈ f.writes → s.visibleAt r (.die f.core.die) = true) →
      ∃ s', exec (.fcompComplete f.id []) s = .next s' ∧ Done s' f.causes ∧
        Becomes s' dst { slot dst with pending := false, state := if (slot dst).state = .opened then .sealed else (slot dst).state }) ∧
    (∀ k, f.kind = .inv k none →
      let ks := (List.range 64).filter fun n => ((slot n).state == .opened || (slot n).state == .sealed) && (slot n).mask.getLsbD k
      ∃ s' y, exec (.finvRetirePoint f.id) s = .next s' ∧ s'.wk = s.wk ∧ s'.ms = s.ms ∧ s'.fop f.id = some y ∧ y = { f with kind := .inv k (some ks) } ∧
        (∀ q e n, s'.slot q e n = if q = f.part ∧ e = f.core.die ∧ n ∈ ks then { s.slot q e n with state := .retired } else s.slot q e n) ∧
        (∀ w l, s.walk w.id = some w → w.st = .parked → w.chain[w.at_.n]? = some l →
          s'.walk w.id = some (if w.part = f.part ∧ w.core.die = f.core.die ∧ l.slot ∈ ks then { w with st := .disocc 1 l.slot } else w)) ∧
        ∀ w, s.walk w.id = some w → w.st ≠ .parked → s'.walk w.id = some w) ∧
    (∀ k ks, f.kind = .inv k (some ks) → (∀ n ∈ ks, s.walksOf f.part f.core.die n = 0) → ∃ s', exec (.finvComplete f.id) s = .next s' ∧ Done s' f.causes ∧
      ∀ q e n, s'.slot q e n = s.slot q e n) ∧
    (∀ k, f.kind = .rel k → s.walksOf f.part f.core.die k = 0 → (slot k).state = .retired → (slot k).pending = false → ∃ s', exec (.frelComplete f.id) s = .next s' ∧ Done s' f.causes ∧
      Becomes s' k ⟨.free, false, none, (slot k).gen, 0, 0⟩)

/-! ## The splat units -/

/-- R33, R137, R138, R166 to R173: an SPL instruction of a thread whose counter stands below 63 and whose context has fewer than 16 operations queued checks
its operands at issue, changes the pass that its context has open, and enqueues its operation; SPQRY is answered at issue. -/
def Obligations.SplatInstructionsIssue : Prop :=
  ∀ (s : State) (t : Thread) (c : Ctx) (h : Gd) (a b d : Opnd) (q : Option (Fin 8)), s.ctxOf t = some c →
    let A := (s.rd2 t a).toNat
    let B := (s.rd2 t b).toNat
    let n := (s.rd t b).toNat
    let room := t.ctr.tiles < 63 ∧ c.splq.length < 16
    let Enq := fun (i : Instr) (k : SplKind) (c' : Ctx) => room → s.Runs h i t → ∃ s', exec i s = .next s' ∧
      s.Queues s' t c { c' with
        splq := c.splq ++ [⟨⟨s.nextId, t.id, s.launchNo t, t.pos⟩, k, false, 0, [], [], none, [], []⟩]
        splSince := if c.splq = [] then s.clock.toNat else c.splSince }
    let Traps := fun (i : Instr) (cause : Nat) => room → s.Runs h i t → exec i s = .next (s.trapHere t cause 0 0 0)
    let listed := ∀ x, q = some x → s.binding t x.val ≠ none
    let queue := q.bind fun x => s.binding t x.val
    (A % 64 = 0 → 1 ≤ n → n ≤ 128 → Enq (.spview h a b) (.view A n) c) ∧ ((A % 64 ≠ 0 ∨ n = 0 ∨ 128 < n) → Traps (.spview h a b) 0x02) ∧
    (¬ listed → Traps (.spbegin h a q) 0x70) ∧ (listed → (A % 64 ≠ 0 ∨ c.open_ ≠ none) → Traps (.spbegin h a q) 0x02) ∧
    (listed → A % 64 = 0 → c.open_ = none → Enq (.spbegin h a q) (.beginP s.nextId) { c with
      open_ := some ⟨s.nextId, t.id, 0, 0⟩
      passes := c.passes ++ [⟨s.nextId, t.id, A, 0, 0, queue, false, []⟩] }) ∧
    (c.open_ = none → Traps (.spsub h a b) 0x02 ∧ Traps (.spend h) 0x02 ∧ Traps (.spendAbort h) 0x02) ∧
    (∀ p, c.open_ = some p →
      let ok := A % 64 = 0 ∧ n ≤ 2 ^ 24 ∧ p.batches < 1024 ∧ p.count + n ≤ 2 ^ 31
      (ok → Enq (.spsub h a b) (.sub p.id A n p.batches p.count) { c with open_ := some { p with count := p.count + n, batches := p.batches + 1 } }) ∧
      (¬ ok → Traps (.spsub h a b) 0x02) ∧
      Enq (.spend h) (.endP p.id false) { c with open_ := none } ∧ Enq (.spendAbort h) (.endP p.id true) { c with open_ := none }) ∧
    (A % 64 = 0 → B % 64 = 0 → Enq (.spbwd h a b) (.bwd A B) c ∧ Enq (.spred h a b) (.red A B) c) ∧
    ((A % 64 ≠ 0 ∨ B % 64 ≠ 0) → Traps (.spbwd h a b) 0x02 ∧ Traps (.spred h a b) 0x02) ∧
    (t.ctr.tiles < 63 → s.Runs h (.spqry h d) t → ∃ s' w, exec (.spqry h d) s = .next s' ∧ s.Writes s' t d [w] t.advance ∧
      w.getLsbD 0 = c.open_.isSome ∧ w.getLsbD 1 = (c.open_.any fun p => c.passes.any fun x => x.id == p.id && x.failed) ∧
      (w.getLsbD 2 = true ↔ ∃ x ∈ s.en.holders, x.1 = t.place.core) ∧ w.extractLsb' 3 5 = 0 ∧
      (w.extractLsb' 8 5).toNat = c.splq.length % 32 ∧ w.extractLsb' 13 3 = 0 ∧ w.extractLsb' 16 3 = c.ovf ∧ w.extractLsb' 19 13 = 0)

/-- The operation at the head of the queue of a context whose die works, of a live thread; it has not run. -/
structure Sys2Proof.Machine.State.SplatAt (s : State) (c : Ctx) (e : EngOp) (k : SplKind) (l : List SplOp) (t : Thread) : Prop where
  ctx : s.ctx c.id = some c
  queue : c.splq = ⟨e, k, false, 0, [], [], none, [], []⟩ :: l
  works : s.md.failed.getLsbD c.core.die = false
  thread : s.thread e.tid = some t

/-- The operation at the head has run, with writes to await, a last write that follows them, causes and reports, and may finish; in the state
in which it has, its context but for the queue is c'. -/
def Sys2Proof.Machine.State.SplatRuns (s : State) (ev : Instr) (c : Ctx) (e : EngOp) (k : SplKind) (l : List SplOp) (c' : Ctx) (ws : List Nat)
    (last : Option (Nat × List Byte)) (cs : List Cause) (rs : List (Nat × Nat × Nat)) (P : State → Prop) : Prop :=
  ∃ s2 aux, exec ev s = .next (s2.splFinish c.id) ∧ s2.ctx c.id = some { c' with splq := ⟨e, k, false, 1, ws, aux, last, cs, rs⟩ :: l } ∧ P s2

/-- The operation at the head waits for units that are held, and with it its thread, at its next word (R146, log 77). -/
def Sys2Proof.Machine.State.UnitsHeld (s : State) (ev : Instr) (e : EngOp) (_ : SplKind) (t : Thread) : Prop :=
  ∃ s', exec ev s = .next s' ∧ s'.en = s.en ∧ s'.ms = s.ms ∧ (∀ u, u ≠ t.id → s'.thread u = s.thread u) ∧
    s'.thread t.id = some (if t.exited = true ∨ t.stop ≠ none ∨ t.wait ≠ .none then t
      else { t with wait := .units e.id, mode := if t.mode = .run then .cont false else t.mode })

/-- R145 to R147, R157, R163, R164, R167 to R170, R459: SPVIEW's operation loads the view table; SPBEGIN's checks the descriptor, takes
the units of the pass's cores all at once or waits for them, and writes the tile memory, where a fault leaves it with the units it
holds; SPSUB's reads its primitives and writes its
batch entry; SPEND's ends the pass with STATE 1 and its reports, SPEND.ABORT's with STATE 2, and either with STATE 3 a pass that failed.
R159 to R163, R171, R172, R459: SPBWD's operation checks its descriptor, the header of its buffer and the STATE of the pass, and writes the
records of the pass with their count last; SPRED's sums the records of one buffer into another. A count above the capacity is reported.
R137, R157, R158, R163, R170, R171: an operation that has run completes once its writes are visible in the whole system, its tiles pushed, and
its last write made: it leaves the queue, its units are released, its thread's counter falls and takes its causes. The record of a
finished tile goes to its queue once the tile's pixels are visible on the die. -/
def Obligations.SplatOperationsRunAndFinish : Prop :=
  (∀ (s : State) (c : Ctx) (e : EngOp) (k : SplKind) (l : List SplOp) (t : Thread), s.SplatAt c e k l t →
     let rd := fun (a n : Nat) => s.agentRead t.xl t.who .die a n
     let g : Agent := ⟨t.who, t.xl, c.id, e.id⟩
     let poisoned : Cause := ⟨0x20, 1, 0, 3, false, none⟩
     let plain := fun (x : Nat) => (⟨x, 0, 0, 0, false, none⟩ : Cause)
     let same := fun (s2 : State) => s2.ms = s.ms ∧ s2.wk = s.wk ∧ s2.en.holders = s.en.holders
     (∀ va n vs, k = .view va n → vs.length = n → (∀ i, i < n → ∃ r, rd (va + 64 * i) 64 = .ok r ∧ r.poison = false ∧ r.val = vs.getD i 0) →
       s.SplatRuns (.spviewOperation c.id) c e k l { c with views := vs } [] none [] [] same) ∧
     (∀ va n r, k = .view va (n + 1) → rd va 64 = .ok r → r.poison = true →
       s.SplatRuns (.spviewOperation c.id) c e k l { c with views := [] } [] none [poisoned] [] same) ∧
     (∀ p ps r, k = .beginP p → (c.passes.find? fun x => x.id == p) = some ps → (∀ x, (x, p) ∉ s.en.holders) → rd ps.desc 256 = .ok r → r.poison = false →
       let d := r.val
       let check := pdCheck (fun i => s.md.dies.getLsbD i) c.views.length (ps.queue.isSome && (pdDies d).any fun x => x != c.core.die) d
       let with_ := fun (f : Pass → Pass) => { c with passes := c.passes.map fun x => if x.id == p then f x else x }
       (∀ x, check = some x → s.SplatRuns (.spbeginOperation c.id) c e k l (with_ fun y => { y with failed := true }) [] none [plain x] [] same) ∧
       (check = none → (∃ x ∈ pdCores d, ∃ n, (x, n) ∈ s.en.holders) → s.UnitsHeld (.spbeginOperation c.id) e k t) ∧
       (check = none → (∀ x ∈ pdCores d, ∀ n, (x, n) ∉ s.en.holders) →
         let s1 := { s with en := { s.en with holders := s.en.holders ++ (pdCores d).map fun x => (x, p) } }
         (∀ f a, s1.splWrites g [(pdTm d, tileMemory s d c.views)] = .error (.flt f a) → ∃ s' c', exec (.spbeginOperation c.id) s = .next s' ∧
           s'.en.holders = s1.en.holders ∧ s'.ctx c.id = some c' ∧ (c'.splq.head?.map SplOp.stalled) = some true) ∧
         ∀ w, s1.splWrites g [(pdTm d, tileMemory s d c.views)] = .ok w → w.2.ctx c.id = some c →
         s.SplatRuns (.spbeginOperation c.id) c e k l (with_ fun y => { y with tm := pdTm d, bits := d }) w.1 none [] []
           fun s2 => s2.ms = w.2.ms ∧ s2.wk = w.2.wk ∧ s2.en.holders = s1.en.holders)) ∧
     (∀ p va n batch first ps, k = .sub p va n batch first → (c.passes.find? fun x => x.id == p) = some ps →
       (ps.failed = true → s.SplatRuns (.spsubOperation c.id) c e k l c [] none [] [] same) ∧
       ∀ m ls w, ps.failed = false → (∃ x, (x, p) ∈ s.en.holders) → rd ps.tm 0x2200 = .ok m → m.poison = false → s.readPrims t.xl t.who (pdDies m.val) va first n = .ok ls →
         s.splWrites g [(ps.tm + 0x4000 + 16 * batch, toBytes 8 va ++ toBytes 4 n ++ toBytes 4 first)] = .ok w → w.2.ctx c.id = some c →
         s.SplatRuns (.spsubOperation c.id) c e k l
           { c with passes := c.passes.map fun x => if x.id == p then { x with prims := x.prims ++ ls } else x } w.1 none [] [] fun s2 => s2.ms = w.2.ms) ∧
     (∀ p abort ps, k = .endP p abort → (c.passes.find? fun x => x.id == p) = some ps →
       let ev : Instr := if abort then .spendAbortOperation c.id else .spendOperation c.id
       let holds := ∃ x, (x, p) ∈ s.en.holders
       let broken := primCauses ps.prims
       (ps.failed = true → holds → s.SplatRuns ev c e k l c [] (some (ps.tm + 0x100, toBytes 4 3)) broken [] same) ∧
       (ps.failed = true → ¬ holds → s.SplatRuns ev c e k l c [] none broken [] same) ∧
       (ps.failed = false → abort = true → s.SplatRuns ev c e k l c [] (some (ps.tm + 0x100, toBytes 4 2)) broken [] same) ∧
       ∀ m prims w1 w2, ps.failed = false → abort = false → holds → rd ps.tm 0x8000 = .ok m → m.poison = false →
         s.finalPrims t.xl t.who (tmBatches m.val) (indexed ps.prims) = .ok prims →
         let d := m.val % 2 ^ 2048
         let ts := tilesOf s d (tmView m.val) prims
         let ovl := ts.any TileOut.ovl
         let out := ts.any TileOut.empty
         s.splWrites g ([(ps.tm + 0x104, toBytes 4 ((if ovl then 1 else 0) + if out then 2 else 0)),
             (ps.tm + 0x8000, (indexed ts).flatMap fun x => dirBytes s d x.1 x.2)] ++
           (ts.filter fun x => !x.empty && x.size != 0).map fun x => (ps.tm + pdLists d + x.lofs.getD 0, listBytes x.list)) = .ok w1 →
         w1.2.putTiles c g ps d ts = .ok w2 → ∀ c2, w2.2.ctx c.id = some c2 → c2.splq = c.splq →
         s.SplatRuns ev c e k l c2 (w1.1 ++ w2.1) (some (ps.tm + 0x100, toBytes 4 1)) (primCauses prims)
           ((ts.filter TileOut.ovl).map (fun x => (1, pdTm d, x.tx + x.ty * 2 ^ 16 + x.w * 2 ^ 32 + min x.n (2 ^ 25 - 1) * 2 ^ 39)) ++
             if out then [(2, pdTm d, 0)] else []) fun s2 => s2.ms = w2.2.ms)) ∧
  (∀ (s : State) (c : Ctx) (e : EngOp) (k : SplKind) (l : List SplOp) (t : Thread), s.SplatAt c e k l t →
     let rd := fun (a n v : Nat) => ∃ r, s.agentRead t.xl t.who .die a n = .ok r ∧ r.poison = false ∧ r.val = v
     let g : Agent := ⟨t.who, t.xl, c.id, e.id⟩
     let plain := fun (x : Nat) => (⟨x, 0, 0, 0, false, none⟩ : Cause)
     let Nothing := fun (ev : Instr) (x : Nat) => s.SplatRuns ev c e k l c [] none [plain x] [] fun s2 => s2.ms = s.ms
     let Counts := fun (ev : Instr) (buf cap : Nat) (rs : List GradRec) (w : List Nat × State) => s.SplatRuns ev c e k l c w.1 (some (buf, toBytes 8 rs.length)) []
       (if cap < rs.length then [(3, buf, 0)] else []) fun s2 => s2.ms = w.2.ms
     let records := fun (buf cap : Nat) (rs : List GradRec) => (indexed (rs.take cap)).map fun x => (buf + 64 + 48 * x.1, x.2.bytes)
     (∀ tm desc b, k = .bwd tm desc → rd desc 64 b →
       let ev : Instr := .spbwdOperation c.id
       let gb := b % 2 ^ 64
       let rb := b / 2 ^ 64 % 2 ^ 64
       (b / 2 ^ 128 % 2 ^ 384 ≠ 0 → Nothing ev 0x03) ∧ (b / 2 ^ 128 % 2 ^ 384 = 0 → (gb % 64 ≠ 0 ∨ rb % 64 ≠ 0) → Nothing ev 0x02) ∧
       ∀ hd, b / 2 ^ 128 % 2 ^ 384 = 0 → gb % 64 = 0 → rb % 64 = 0 → rd rb 64 hd →
         (hd / 2 ^ 128 % 2 ^ 384 ≠ 0 → Nothing ev 0x03) ∧
         ∀ m, hd / 2 ^ 128 % 2 ^ 384 = 0 → rd tm 0x8000 m →
           let d := m % 2 ^ 2048
           let cap := hd / 2 ^ 64 % 2 ^ 64
           (m / 2 ^ 2048 % 2 ^ 32 ≠ 1 → s.SplatRuns ev c e k l c [] (some (rb, toBytes 8 0)) [plain 0x02] [] fun s2 => s2.ms = s.ms) ∧
           (m / 2 ^ 2048 % 2 ^ 32 = 1 → (∃ x ∈ pdCores d, ∃ n, (x, n) ∈ s.en.holders) → s.UnitsHeld ev e k t) ∧
           ∀ rs w, m / 2 ^ 2048 % 2 ^ 32 = 1 → (∀ x ∈ pdCores d, ∀ n, (x, n) ∉ s.en.holders) →
             let s1 := { s with en := { s.en with holders := s.en.holders ++ (pdCores d).map fun x => (x, e.id) } }
             s1.backTiles t.xl t.who tm d gb m (indexed (pdTiles d)) = .ok rs → s1.splWrites g (records rb cap (shuffled s rs)) = .ok w →
             w.2.ctx c.id = some c → Counts ev rb cap rs w) ∧
     (∀ src dst hs hd, k = .red src dst → rd src 64 hs → rd dst 64 hd →
       let ev : Instr := .spredOperation c.id
       let cs := hs / 2 ^ 64 % 2 ^ 64
       let cd := hd / 2 ^ 64 % 2 ^ 64
       let reserved := hs / 2 ^ 128 % 2 ^ 384 ≠ 0 ∨ hd / 2 ^ 128 % 2 ^ 384 ≠ 0
       let meet := src < dst + (64 + 48 * cd) ∧ dst < src + (64 + 48 * cs)
       (reserved → Nothing ev 0x03) ∧ (¬ reserved → meet → Nothing ev 0x02) ∧
       ∀ (bs : List Nat) w, ¬ reserved → ¬ meet → bs.length = min (hs % 2 ^ 64) cs → (∀ i b, bs[i]? = some b → rd (src + 64 + 48 * i) 48 b) →
         s.splWrites g (records dst cd (reduceGrads (bs.map gradOf))) = .ok w → w.2.ctx c.id = some c → Counts ev dst cd (reduceGrads (bs.map gradOf)) w)) ∧
  (∀ (s : State) (c : Ctx) (o : SplOp) (l : List SplOp) (t : Thread), s.ctx c.id = some c → c.splq = o :: l → o.stalled = false →
     s.md.failed.getLsbD c.core.die = false → s.thread o.eng.tid = some t →
     let done := ∀ r ∈ s.ms.writes, r.id ∈ o.writes → ∀ p ∈ s.performedAt t.who .system, s.visibleAt r p = true
     let tiles := ∃ p abort, o.kind = .endP p abort ∧ ∃ x ∈ c.tilesDone, x.pass = p
     let holder := match o.kind with
       | .endP p _ => some p
       | .bwd _ _ => some o.eng.id
       | _ => none
     (¬ done ∨ tiles → s.splFinish c.id = s) ∧
     (o.phase ≠ 0 → done → ¬ tiles → o.last = none → t.exited = false → o.reports = [] → ∃ c', (s.splFinish c.id).ctx c.id = some c' ∧ c'.splq = l ∧
       c'.passes = (match o.kind with
         | .endP p _ => c.passes.filter fun x => x.id != p
         | _ => c.passes) ∧
       (s.splFinish c.id).en.holders = s.en.holders.filter (fun x => some x.2 != holder) ∧
       (s.splFinish c.id).thread t.id = some { t with
         ctr := { t.ctr with tiles := t.ctr.tiles - 1 }
         out := { t.out with unseenT := t.out.unseenT ++ o.writes, causes := t.out.causes ++ o.causes } } ∧
       (s.splFinish c.id).ms = s.ms) ∧
     (∀ a bs w, o.phase ≠ 0 → done → ¬ tiles → o.last = some (a, bs) → s.splWrites ⟨t.who, t.xl, c.id, o.eng.id⟩ [(a, bs)] = .ok w →
       w.2.ctx c.id = some c → (s.splFinish c.id).ctx c.id = some { c with splq := { o with last := none, writes := o.writes ++ w.1 } :: l } ∧
         (s.splFinish c.id).ms = w.2.ms) ∧
     (∀ n x gg q place, c.tilesDone[n]? = some x → s.gang x.queue.1 = some gg → s.queue x.queue.1 x.queue.2 = some q → q.closed = false →
       (∀ r ∈ s.ms.writes, r.id ∈ x.writes → s.visibleAt r (.die c.core.die) = true) → q.place = some (false, place) → s.Canonical →
       let ws := x.words ++ List.replicate (quSize q.entry / 4 - 4) 0
       let key := berthKey gg q.entry place
       ∃ s', exec (.tileRecordPush c.id n) s = .next s' ∧ s'.ctx c.id = some { c with tilesDone := c.tilesDone.eraseIdx n } ∧
         s'.queue x.queue.1 x.queue.2 = some { q with recs := q.recs ++ [⟨ws, s.clock.toNat, false, place, none, 0⟩] } ∧
         (∀ a, s'.ms.mem.read a = s.ms.mem.read a) ∧
         ∀ a, s'.ms.vault.read a = if key ≤ a ∧ a < key + 4 * ws.length then (wordBytes ws).getD (a - key) 0 else s.ms.vault.read a))

/-- R152, R155, R160, R162: the order of a tile's list, what a pixel blends, what an empty tile shows, and the order of reduced gradients. -/
def Obligations.SplatListsAndPixels : Prop :=
  (∀ (l : List Gs), (sortGs l).Perm l ∧ (sortGs l).Pairwise fun a b => a.key < b.key ∨ a.key = b.key ∧ a.idx ≤ b.idx) ∧
  (∀ (cut dop px py t : Nat) (l : List (Nat × Gs)), ((blended cut dop px py t l).map fun h => (h.pos, h.g)).Sublist l ∧
    ∀ h ∈ blended cut dop px py t l, fLe dop h.g.key = false ∧ (fDec h.al).isNaN = false ∧ fLt h.al 0x3B808081 = false ∧ fLt 0x3F7D70A4 h.al = false ∧
      (h.clamped = true → h.al = 0x3F7D70A4)) ∧
  (∀ (d x y : Nat) (ts : List Tri), (∀ tri ∈ ts, tri.depthAt x y = none) → resolvePixel d ⟨[], ts⟩ x y = emptyPixel d ∧
    (emptyPixel d).2 = (0x3F800000, 0xFFFFFFFF)) ∧
  ∀ (l : List GradRec), ((reduceGrads l).map fun r => (r.idx, r.view)).Nodup ∧
    ((reduceGrads l).Pairwise fun a b => a.idx < b.idx ∨ a.idx = b.idx ∧ a.view < b.view) ∧
    (∀ k, (∃ r ∈ reduceGrads l, (r.idx, r.view) = k) ↔ ∃ r ∈ l, (r.idx, r.view) = k) ∧ ∀ r ∈ reduceGrads l, r.tile = 0xFFFFFFFF

/-! ## Control, waits, barriers -/

/-- The thread after its word when it waits (R354): the rest of its clause is a continuation. -/
def Sys2Proof.Machine.Thread.waits (t : Thread) (w : Wait) : Thread :=
  { t.advance with mode := if t.nextPos.mid = true then .cont false else .header, wait := w }

/-- The thread has seen the writes of completed tile operations, of completed batches, or of both (R226, R289). -/
def Sys2Proof.Machine.Thread.saw (t : Thread) (tiles copies : Bool) : Thread := { t with
  obs := t.obs ++ ((if tiles then t.out.unseenT else []) ++ if copies then t.out.unseenC else []).filter fun i => !t.obs.contains i
  out := { t.out with unseenT := if tiles then [] else t.out.unseenT, unseenC := if copies then [] else t.out.unseenC } }

/-- R27, R33, R35, R60, R293, R354 to R361, R374: transfers go to their target, CALL with the following header in its register, or raise 0x03
where the target is misaligned; EXIT ends its thread and what it holds, with its LDT, STT and TAGOP that have not performed, its blocked
push and its walks that stand parked, and an FSAMP still completes (R224); WAITC, SLEEP and SLEEPU go on where their wait is over
and else divide the clause (log 77); SLEEPU raises 0x30 for a promise missed; YIELD prefers the other active groups; BKPT raises 0x61.
R359, R293, R360: SLEEP's deadline ends its wait, and not before; a promise that passes with its batch unfinished raises 0x30 at the SLEEPU,
whose resume point is the SLEEPU and whose skip point is where the thread stands.
R362 to R365: BAR records its thread's arrival and waits for the phase; ARRIVE waits at its word, which a continuation then issues, until the previous phase of its barrier is complete, records the
arrival and leaves the phase's token; BWAIT takes the token and waits for that phase; a thread whose guard is false arrives passively and
goes on. BWAIT without a token raises 0x02. -/
def Obligations.ControlTransfersAndWaits : Prop :=
  (∀ (s : State) (t : Thread) (h : Gd) (d a : Opnd) (imm : Word) (k : Fin 8) (wl ws wc wt : Fin 16),
     let rel := t.pos.pc + imm.signExtend 64
     let reg := s.rd2 t a
     let start := fun (x : Dword) => ({ t with pos := ⟨x, x, false⟩, mode := .header } : Thread)
     let Goes := fun (i : Instr) (dest : Dword) => s.Runs h i t →
       (dest.toNat % 8 = 0 → ∃ s', exec i s = .next s' ∧ s.Becomes s' t (start dest)) ∧
       (dest.toNat % 8 ≠ 0 → exec i s = .next (s.trapHere t 0x03 0 0 0))
     let Ends := fun (i : Instr) (x : Thread) => s.Runs h i t → ∃ s', exec i s = .next s' ∧ s.Becomes s' t x
     let dies := fun (x : Access) => (match x.kind with
       | .ldt _ _ _ => true
       | .stt _ => true
       | .tagop _ => true
       | .push _ _ _ => true
       | _ => false) && x.parts.all fun p => !p.done
     let gone := fun (n : Nat) => (s.ms.accs.any fun x => x.id == n && x.tid == t.id && dies x) ||
       s.en.walks.any fun w => w.id == n && w.tid == t.id && (w.st == .parked || w.st == .discarded || w.st == .again)
     Goes (.bra h imm) rel ∧ Goes (.brx h a) reg ∧ Goes (.ret h a) reg ∧
     (s.Runs h (.call h d imm) t → (rel.toNat % 8 = 0 → ∃ s', exec (.call h d imm) s = .next s' ∧
         s.Writes s' t d (lohi (t.pos.hdr + BitVec.ofNat 64 (8 * (t.clause.words.length + 1)))) (start rel)) ∧
       (rel.toNat % 8 ≠ 0 → exec (.call h d imm) s = .next (s.trapHere t 0x03 0 0 0))) ∧
     (s.Runs h (.exit h) t → ∃ s', exec (.exit h) s = .next s' ∧
       s'.thread t.id = some { t with
         exited := true, wait := .none, stop := none, kl := none, mode := .header
         regs := { t.regs with k := Vector.replicate 8 none }
         ctr := ⟨0, 0, 0, 0⟩
         out := { t.out with pend := t.out.pend.filter (fun p => !gone p.1), causes := [], hits := [], bad := [] } } ∧
       (∀ u, u ≠ t.id → s'.thread u = s.thread u) ∧ s.KeepsBytes s' ∧
       (∀ g, s'.group g = (s.group g).map fun y => if g = t.place.grp then { y with pend := y.pend.filter fun p => !gone p.1 } else y) ∧
       s'.ms.accs = s.ms.accs.filter (fun x => !gone x.id) ∧ s'.en.walks = s.en.walks.filter (fun w => !gone w.id) ∧
       (∀ cx c, s.ctx cx = some c → s'.ctx cx = some (match c.open_ with
         | some p => if p.tid = t.id then
             { c with
               open_ := none, splq := c.splq ++ [⟨⟨s.nextId, t.id, s.launchNo t, ⟨0, 0, false⟩⟩, .endP p.id true, false, 0, [], [], none, [], []⟩]
               splSince := if c.splq = [] then s.clock.toNat else c.splSince } else c
         | none => c)) ∧
       ∀ g q x, s.queue g q = some x → s'.queue g q = some (if ∀ u ∈ s.wk.threads, u.place.grp = t.place.grp → u.id = t.id ∨ u.exited = true
         then { x with recs := x.recs.map fun r => if r.holder = some t.place.grp then { r with holder := none } else r } else x)) ∧
     (let met := fun (n : Nat) (f : Fin 16) => f.val = 15 ∨ n ≤ f.val
       if met t.ctr.loads wl ∧ met t.ctr.stores ws ∧ met t.ctr.batches wc ∧ met t.ctr.tiles wt
       then Ends (.waitc h wl ws wc wt) { (t.saw (wt != 15) (wc != 15)).advance with wait := .none }
       else Ends (.waitc h wl ws wc wt) (t.waits (.counters wl.val ws.val wc.val wt.val))) ∧
     Ends (.sleep h imm) (if imm.toNat = 0 then t.advance else t.waits (.sleep (s.clock.toNat + imm.toNat))) ∧
     ((∀ b, t.regs.getK k.val ≠ some (.batch b)) → s.Runs h (.sleepu h k) t → exec (.sleepu h k) s = .next (s.trapHere t 0x02 0 0 0)) ∧
     (∀ b, t.regs.getK k.val = some (.batch b.id) → (s.en.batches.find? fun x => x.id == b.id) = some b →
       let missed := fun (p : Nat) => s.promiseOf b = some p ∧ b.fin = none ∧ p ≤ s.clock.toNat
       (∀ p, missed p → s.Runs h (.sleepu h k) t →
         exec (.sleepu h k) s = .next (s.trap t ⟨0x30, 0, p, b.no, false, t.pos.pc.toNat, t.pos, t.nextPos⟩)) ∧
       ((∀ p, ¬ missed p) → Ends (.sleepu h k) (if ∃ x ∈ s.en.batches, x.id = b.id ∧ x.fin.isSome = true then { (t.saw false true).advance with wait := .none }
         else t.waits (.sleepu b.id t.pos)))) ∧
     (∀ q, s.focus = some q → s.Runs h (.yieldI h) t → ∃ s', exec (.yieldI h) s = .next s' ∧ s'.thread t.id = some (t.waits .none) ∧
       (∀ u, u ≠ t.id → s'.thread u = s.thread u) ∧ s'.ms = s.ms ∧
       ∀ g x, s.group g = some x → ∃ y, s'.group g = some y ∧ y = { x with yld := y.yld } ∧ (g ≠ t.place.grp → y.yld = x.yld) ∧
         (g = t.place.grp → ∀ o ∈ s.wk.groups, o.core = q.core → o.quad = q.quad → o.active = true →
           (o.id ∈ y.yld ↔ o.id ≠ g ∧ ∃ z ∈ s.groupsOn q, z.id = o.id ∧ z.active = true))) ∧
     (s.Runs h (.bkpt h imm) t → exec (.bkpt h imm) s = .next (s.trapHere t 0x61 0 0 imm.toNat))) ∧
  (∀ (s : State) (t : Thread), s.thread t.id = some t →
     (∀ n, t.wait = .sleep n → n ≤ s.clock.toNat → ∃ s', exec (.sleepDeadline t.id) s = .next s' ∧ s.Becomes s' t { t with wait := .none }) ∧
     (∀ n, t.wait = .sleep n → s.clock.toNat < n → exec (.sleepDeadline t.id) s = .next s) ∧
     (∀ b p at_, t.wait = .sleepu b.id at_ → (s.en.batches.find? fun x => x.id == b.id) = some b → s.promiseOf b = some p → b.fin = none → s.mayWake t = true →
       exec (.missedPromise t.id) s = .next (if p ≤ s.clock.toNat then s.trap t ⟨0x30, 0, p, b.no, false, at_.pc.toNat, at_, t.pos⟩ else s))) ∧
  (∀ (s : State) (t : Thread) (h : Gd) (k : Fin 8) (b : Fin 16) (cb : Fin 4),
     let cl := s.clusterOf t
     let n := phases t.cnt.tbar b.val
     let m := phases t.cnt.cbar cb.val
     let prior := m = 0 ∨ s.phaseDone cl cb.val (m - 1) = true
     let passes := fun (i : Instr) => s.front = [t] ∧ t.out.hits = [] ∧ (useOf i).fits t.place.budget = true ∧
       (h.p.val = 7 ∨ s.pending t [.p h.p.val] = false) ∧ t.regs.getP h.p.val = h.neg
     let Arrives := fun (i : Instr) (r : BarRef) (no : Nat) (active team : Bool) (x : Thread) => ∃ s' y, exec i s = .next s' ∧ s'.thread t.id = some y ∧
       y = { x with cnt := y.cnt } ∧ y.cnt = { t.cnt with tbar := y.cnt.tbar, cbar := y.cnt.cbar } ∧
       (∀ j, phases y.cnt.tbar j = if team = true ∧ j = b.val then n + 1 else phases t.cnt.tbar j) ∧
       (∀ j, phases y.cnt.cbar j = if team = false ∧ j = cb.val then m + 1 else phases t.cnt.cbar j) ∧
       (∀ u, u ≠ t.id → s'.thread u = s.thread u) ∧
       s' = { s with wk := { s.wk with threads := s'.wk.threads, bars := s.wk.bars ++ [⟨r, no, t.id, active, s.nextId, t.obs⟩] } }
     (s.Runs h (.bar h b) t → Arrives (.bar h b) (.team t.place.team b.val) n true true (t.waits (.bar b.val n))) ∧
     (passes (.bar h b) → Arrives (.bar h b) (.team t.place.team b.val) n false true t.advance) ∧
     (prior → s.Runs h (.arrive h k cb) t → Arrives (.arrive h k cb) (.cluster cl cb.val) m true false
       { t.advance with regs := { t.regs with k := t.regs.k.set k.val (some (.phase cl cb.val m)) } }) ∧
     (prior → passes (.arrive h k cb) → Arrives (.arrive h k cb) (.cluster cl cb.val) m false false t.advance) ∧
     (¬ prior → s.Runs h (.arrive h k cb) t ∨ passes (.arrive h k cb) → ∃ s', exec (.arrive h k cb) s = .next s' ∧
       s'.thread t.id = some { t with mode := .cont false, wait := .prior cl cb.val (m - 1) } ∧ s'.front = [] ∧ s'.wk.bars = s.wk.bars ∧
       ∀ u, u ≠ t.id → s'.thread u = s.thread u) ∧
     (∀ x j p, t.regs.getK k.val = some (.phase x j p) → s.Runs h (.bwait h k) t →
       let taken := { t.regs with k := t.regs.k.set k.val none }
       (s.phaseDone x j p = true → ∃ s', exec (.bwait h k) s = .next s' ∧ s'.thread t.id = some { t.advance with regs := taken } ∧
         (∀ u, u ≠ t.id → s'.thread u = s.thread u) ∧ s.KeepsBytes s' ∧
         ∀ y, s.latest (t.who.upTo .cluster) y ≤ s'.latest [.core t.place.core] y) ∧
       (s.phaseDone x j p = false → ∃ s', exec (.bwait h k) s = .next s' ∧ s.Becomes s' t { t.waits (.phase x j p) with regs := taken })) ∧
     ((∀ x j p, t.regs.getK k.val ≠ some (.phase x j p)) → s.Runs h (.bwait h k) t → exec (.bwait h k) s = .next (s.trapHere t 0x02 0 0 0)))

/-! ## Queues and stage graphs -/

/-- R222, R329, R336, R341, R366 to R371: QPUSH places a release that carries its record and waits for it; QPOP takes the oldest record
reserved to the group, QTRY also the oldest unreserved, in the order of an acquire, and goes on: the record is on its way to D and to the
status register, which are outstanding; a spilled record moves into the berth that frees. Where there is none to take both go on at
once with zeros. QCLOSE closes its queue; QQRY reads it. A binding that is not listed, or of the wrong kind, raises 0x70, and a record that is not
in range 0x02.
R368, R426: a record on its way arrives: its words, or quiet NaNs where it is poisoned, come to D, and 1 to the status register; the
poisoned one raises cause 0x20 at the next clause header.
R222, R275, R335 to R337, R366, R367: a push that may perform, and that no push of a lower lane of its issue stands before, takes its queue step:
a closed queue traps it with 0x70; where there is no place it waits; else its record stands last in the queue, its words in the lowest
free berth or in the spill area, the dirty lines of its group have been dealt with (log 60), and its thread goes on. -/
def Obligations.QueueInstructions : Prop :=
  (∀ (s : State) (t : Thread) (h : Gd) (d a st : Opnd) (q : Fin 8) (sc : Scope),
     let Traps := fun (i : Instr) (c : Nat) => s.Runs h i t → exec i s = .next (s.trapHere t c 0 0 0)
     let all := fun (P : Instr → Prop) => P (.qpush h q a sc) ∧ P (.qpop h d q st sc) ∧ P (.qtry h d q st sc) ∧ P (.qclose h q) ∧ P (.qqry h d q)
     (s.binding t q.val = none → all fun i => Traps i 0x70) ∧
     (q.val = 0 → Traps (.qpush h q a sc) 0x70 ∧ Traps (.qclose h q) 0x70) ∧ (q.val ≠ 0 → Traps (.qpop h d q st sc) 0x70 ∧ Traps (.qtry h d q st sc) 0x70) ∧
     ∀ gg sg gl qn qu, s.stageOf t = some (gg, sg) → s.binding t q.val = some (gl, qn) → s.queue gl qn = some qu →
       let n := quSize qu.entry / 4
       let fits := fun (o : Opnd) => o.spanOk n = true ∧ inBudget t.place.budget (o, n) = true
       let free := fun (o : Opnd) => s.pending t (spanRefs (o, n)) = false
       (1 ≤ q.val → ¬ fits a → Traps (.qpush h q a sc) 0x02) ∧ (q.val = 0 → ¬ fits d → Traps (.qpop h d q st sc) 0x02 ∧ Traps (.qtry h d q st sc) 0x02) ∧
       (1 ≤ q.val → fits a → free a → (useRW [(a, n)] []).readsBad t = false → s.Runs h (.qpush h q a sc) t → ∃ s', exec (.qpush h q a sc) s = .next s' ∧
         s.Places s' t ⟨s.nextId, t.id, t.place.core, false, 15, sc, false, true, false, .push gl qn ((List.range n).map (s.rdReg t a)), .none, t.pos, 0,
           [⟨0, 0, 0, false, 0, none, false, none, none⟩], [], false, false, some s.tick, none⟩ .z 0 (t.waits (.push s.nextId))) ∧
       (q.val = 0 → fits d → free d → ∀ try_ : Bool,
         let i : Instr := if try_ then .qtry h d q st sc else .qpop h d q st sc
         let mine := qu.recs.find? fun r => r.holder == some t.place.grp
         let next := if mine = none ∧ try_ = true then qu.recs.find? fun r => r.holder.isNone else mine
         let Gets := fun (ws : List Word) (f : Word) (s' : State) (y : Thread) => s'.thread t.id = some y ∧ y.pos = t.advance.pos ∧ y.mode = t.advance.mode ∧
           (∀ r, r < 128 → y.regs.getV r = (newV st [f] r).getD ((newV d ws r).getD (t.regs.getV r))) ∧
           (∀ g r, r < 64 → s'.getG g r = if g = t.place.grp ∧ (s.group g).isSome then (newG st [f] r).getD ((newG d ws r).getD (s.getG g r)) else s.getG g r) ∧
           ∀ u, u ≠ t.id → s'.thread u = s.thread u
         s.Runs h i t →
         (next = none → ∃ s' y, exec i s = .next s' ∧ Gets (List.replicate n 0) 0 s' y ∧ s'.ms = s.ms ∧ s'.wk.gangs = s.wk.gangs) ∧
         (∀ r, next = some r → s.ordered (recordAccess t s.nextId gg qu r) = true → s.Canonical →
           let key := berthKey gg qu.entry r.at_
           let held := (List.range n).map fun k => BitVec.ofNat 32 (ofBytes (s.ms.vault.readN (key + 4 * k) 4))
           let poison := if r.spilled = true then s.ms.writes.any (fun w => w.id == r.wid && !w.bad.isEmpty)
             else s.ms.vpoison.any fun w => decide (w < key + 4 * n) && decide (key < w + 4) && decide (w % 4 = 0)
           let left := qu.recs.filter fun z => !(z.spilled == r.spilled && z.at_ == r.at_)
           gg.launch = gl →
           ∃ s' y z x, exec i s = .next s' ∧ s'.thread t.id = some y ∧ y = { t.advance with
               obs := y.obs, out := { t.out with pend := t.out.pend ++ heldV s.nextId d n ++ heldV s.nextId st 1 } } ∧
             (∀ u, u ≠ t.id → s'.thread u = s.thread u) ∧
             (∀ g, s'.group g = (s.group g).map fun y => if g = t.place.grp then { y with pend := y.pend ++ heldG s.nextId d n ++ heldG s.nextId st 1 } else y) ∧
             z ∈ s'.ms.accs ∧ z.id = s.nextId ∧ z.tid = t.id ∧ z.kind = .record d st (if r.spilled = true then r.words else held) ∧ z.bad = poison ∧
             (r.spilled = true → r.wid ≠ 0 → r.wid ∈ y.obs) ∧ (∀ e, s.latest (t.who.upTo sc) e ≤ s'.latest [.core t.place.core] e) ∧
             s'.queue gl qn = some x ∧ x.closed = qu.closed ∧
             (∀ e, s'.ms.mem.read e = s.ms.mem.read e) ∧
             (match left.find? QRec.spilled, lowestFree (quBerths qu.entry) ((left.filter fun z => !z.spilled).map QRec.at_) with
               | some z, some b =>
                 let dest := berthKey gg qu.entry b
                 x.recs = left.map (fun v => if v.spilled = true ∧ v.at_ = z.at_ then { v with spilled := false, at_ := b } else v) ∧
                 ∀ e, s'.ms.vault.read e = if dest ≤ e ∧ e < dest + 4 * z.words.length then (wordBytes z.words).getD (e - dest) 0 else s.ms.vault.read e
               | _, _ => x.recs = left ∧ ∀ e, s'.ms.vault.read e = s.ms.vault.read e))) ∧
       (1 ≤ q.val → s.Runs h (.qclose h q) t → ∃ s' x, exec (.qclose h q) s = .next s' ∧ s'.thread t.id = some t.advance ∧ (∀ u, u ≠ t.id → s'.thread u = s.thread u) ∧
         s'.queue gl qn = some x ∧ x = { qu with closed := true } ∧ s'.ms = s.ms ∧
         ∀ g j x, s.queue g j = some x → ∃ z, s'.queue g j = some z ∧ z.recs = x.recs ∧ (x.closed = true → z.closed = true)) ∧
       (s.Runs h (.qqry h d q) t → ∃ s' w, exec (.qqry h d q) s = .next s' ∧ s.Writes s' t d [BitVec.ofNat 32 (min (2 ^ 32 - 1) qu.recs.length), w] t.advance ∧
         let full := (qu.recs.filter fun r => !r.spilled).length
         (full ≤ quBerths qu.entry → (w.extractLsb' 0 13).toNat = quBerths qu.entry - full ∧ w.getLsbD 13 = qu.closed ∧
           w.getLsbD 14 = (qu.recs.any QRec.spilled) ∧ (w.extractLsb' 15 13).toNat = (qu.recs.filter fun r => !r.spilled && r.holder.isNone).length ∧
           w.extractLsb' 28 4 = 0))) ∧
  (∀ (s : State) (a : Access) (t : Thread) (d st : Opnd) (ws : List Word), s.access a.id = some a → a.kind = .record d st ws →
     a.parts = [⟨0, 0, 0, false, 0, none, false, none, none⟩] → s.thread a.tid = some t → t.exited = false →
     let got := if a.bad = true then ws.map (fun _ => 0x7FC00000#32) else ws
     ∃ s' y, exec (.perform a.id 0) s = .next s' ∧ s'.access a.id = none ∧ s'.thread t.id = some y ∧ s.KeepsBytes s' ∧
       y.pos = t.pos ∧ y.mode = t.mode ∧ y.wait = t.wait ∧ y.out.pend = t.out.pend.filter (fun p => p.1 != a.id) ∧
       y.out.causes = t.out.causes ++ (if a.bad = true then [⟨0x20, 1, 0, 0, false, none⟩] else []) ∧
       (∀ r, r < 128 → y.regs.getV r = (newV st [1] r).getD ((newV d got r).getD (t.regs.getV r))) ∧
       (∀ g r, r < 64 → s'.getG g r = if g = t.place.grp ∧ (s.group g).isSome then (newG st [1] r).getD ((newG d got r).getD (s.getG g r)) else s.getG g r) ∧
       ∀ u, u ≠ t.id → s'.thread u = s.thread u) ∧
  (∀ (s : State) (a : Access) (t : Thread) (g q : Nat) (ws : List Word) (gg : Gang) (qu : Queue),
     s.access a.id = some a → a.kind = .push g q ws → a.parts = [⟨0, 0, 0, false, 0, none, false, none, none⟩] →
     s.thread a.tid = some t → t.exited = false → (∀ b ∈ s.ms.accs, b.id = a.id → b = a) → s.ordered a = true →
     (∀ b ∈ s.ms.accs, b.id < a.id → b.arrived.isSome = true → b.arrived = a.arrived → ∀ l, b.kind = .push g q l → ∀ p ∈ b.parts, p.done = true) → s.gang g = some gg → s.queue g q = some qu →
     (qu.closed = true → ∃ s1 : State, exec (.pushQueueStep a.id) s =
         .next (s1.trap { t with wait := .none, ctr := t.ctr.down a.ctr, out := { t.out with pend := t.out.pend.filter fun p => p.1 != a.id } }
           ⟨0x70, 0, 0, 0, false, a.pos.pc.toNat, a.pos, a.pos.next t.clause.words.length⟩) ∧ s1.access a.id = none) ∧
     (qu.closed = false → qu.place = none → exec (.pushQueueStep a.id) s = .next s) ∧
     (∀ n, qu.closed = false → qu.place = some (false, n) → s.Canonical →
       let key := berthKey gg qu.entry n
       ∃ s' y, exec (.pushQueueStep a.id) s = .next s' ∧ s'.access a.id = none ∧
         s'.queue g q = some { qu with recs := qu.recs ++ [⟨ws, s.clock.toNat, false, n, none, 0⟩] } ∧
         s'.thread t.id = some y ∧ y.wait = .none ∧ y.regs = t.regs ∧ y.pos = t.pos ∧
         (∀ e, s'.ms.vault.read e = if key ≤ e ∧ e < key + 4 * ws.length then (wordBytes ws).getD (e - key) 0 else s.ms.vault.read e) ∧
         (∀ e, s'.ms.mem.read e = s.ms.mem.read e) ∧ ∀ x, s.group t.place.grp = some x → ∃ z, s'.group t.place.grp = some z ∧ z.dirty = [] ∧ z.overflow = false ∧ z.g = x.g) ∧
     ∀ n pa, qu.closed = false → qu.place = some (true, n) → s.translate t.xl .write (quSbase qu.entry + n * quSize qu.entry) = .ok pa →
       s.lost pa = 0 → s.linkHeld pa = false → s.Canonical →
       ∃ s' y w, exec (.pushQueueStep a.id) s = .next s' ∧ s'.queue g q = some { qu with recs := qu.recs ++ [⟨ws, s.clock.toNat, true, n, none, w.id⟩] } ∧
         w ∈ s'.ms.writes ∧ w.tid = t.id ∧ w.acc = a.id ∧ s'.thread t.id = some y ∧ y.wait = .none ∧ y.regs = t.regs ∧
         (∀ e, s'.ms.mem.read e = if pa ≤ e ∧ e < pa + 4 * ws.length then (wordBytes ws).getD (e - pa) 0 else s.ms.mem.read e) ∧
         ∀ e, s'.ms.vault.read e = s.ms.vault.read e)

/-- R339: a stage whose timer has passed for its oldest unreserved record is due, and the timer's expiry launches where it can. R334, R340: a stage that is due launches one group, a team of its own, with the stage's argument, the number of
records reserved to it and its ordinal in g16 to g18; the oldest unreserved records are reserved in the same step. R343 to R346: a
boundary of the cadence moves cores among stages within their minima and maxima, and no core leaves the gang. -/
def Obligations.StageGraphsRun : Prop :=
  ∀ (s : State) (g : Gang) (st : Nat) (e : Stage), s.gang g.launch = some g → g.stages[st]? = some e →
    let src := e.entry / 2 ^ 80 % 16 = 15
    let qi := e.entry / 2 ^ 80 % 16
    (∀ q r, g.queues[qi]? = some q → (q.recs.find? fun z => z.holder.isNone) = some r → e.entry / 2 ^ 112 % 2 ^ 16 ≠ 0 →
      let passed := r.time + 64 * (e.entry / 2 ^ 112 % 2 ^ 16) ≤ s.clock.toNat
      (passed → ¬ src → s.stageDue g e = true) ∧
      exec (.stageTimerExpiry g.launch st) s = if passed then exec (.binLaunch g.launch st) s else .next s) ∧
    (∀ l c, s.launch g.launch = some l → g.running = true → g.stopping = false → l.killed = none → (s.part l.part).state = .running →
      s.md.failed.getLsbD g.die = false → e.last ≠ some s.clock.toNat → s.stageDue g e = true →
      argMin (fun c => s.groupsAt g st (GCore.core c)) (s.launchCores l g st e) = some c →
      (∀ x ∈ s.wk.groups, x.id < s.nextId) → (∀ x ∈ s.wk.teams, x.id < s.nextId) → (∀ x ∈ s.wk.threads, x.id < s.nextId) → l.id = g.launch →
      let w := s.stageWidth l e
      let coal := e.entry / 2 ^ 96 % 2 ^ 13
      let free := fun (q : Queue) => q.recs.filter fun r => r.holder.isNone
      let n := if src then 0 else match g.queues[qi]? with
        | some q => min coal (free q).length
        | none => 0
      let grp := s.nextId + 2
      0 < w → w ≤ 64 → ∃ s' tm g', exec (.binLaunch g.launch st) s = .next s' ∧ s'.team (s.nextId + 1) = some tm ∧ tm.stage = some st ∧ tm.launch = g.launch ∧
        tm.core = ⟨g.die, c.core⟩ ∧ tm.nx = w ∧ tm.ny = 1 ∧ tm.nz = 1 ∧
        s'.getG grp 16 = BitVec.ofNat 32 (e.entry / 2 ^ 224) ∧ s'.getG grp 17 = BitVec.ofNat 32 n ∧ s'.getG grp 18 = BitVec.ofNat 32 e.launched ∧
        (∀ x ∈ s'.wk.threads, s.nextId ≤ x.id → x.place.team = tm.id ∧ x.place.grp = grp ∧ x.mode = .header ∧ x.pos.pc.toNat = stPc e.entry) ∧
        (s'.wk.threads.filter fun x => decide (s.nextId ≤ x.id)).length = w ∧
        (∀ u, u < s.nextId → s'.thread u = s.thread u) ∧ s'.gang g.launch = some g' ∧
        g'.stages = g.stages.set st { e with launched := e.launched + 1, width := some w, last := some s.clock.toNat } ∧
        ∀ j q, g.queues[j]? = some q → ∃ q', g'.queues[j]? = some q' ∧ q'.closed = q.closed ∧ q'.recs.length = q.recs.length ∧
          ∀ i r, q.recs[i]? = some r → q'.recs[i]? = some (
            if ¬ src ∧ j = qi ∧ r.holder = none ∧ ((q.recs.take i).filter fun z => z.holder.isNone).length < coal then { r with holder := some grp } else r)) ∧
    (∀ l, s.launch g.launch = some l → g.running = true → g.placed = true → (s.part l.part).state = .running →
      let within := fun (x : Gang) => ∀ k z, x.stages[k]? = some z → z.entry / 2 ^ 64 % 2 ^ 7 ≤ (x.cores.filter fun c => c.stage == k).length ∧
        (x.cores.filter fun c => c.stage == k).length ≤ z.entry / 2 ^ 72 % 2 ^ 7
      (s.clock.toNat < g.cad0 + l.blk.cadence → exec (.cadenceBoundary g.launch) s = .next s) ∧
      (g.cad0 + l.blk.cadence ≤ s.clock.toNat → (g.cores.map GCore.core).Nodup → ∃ s' g', exec (.cadenceBoundary g.launch) s = .next s' ∧
        s'.gang g.launch = some g' ∧ g'.cad0 = g.cad0 + l.blk.cadence ∧ g'.cores.map GCore.core = g.cores.map GCore.core ∧ g'.stages = g.stages ∧ g'.queues = g.queues ∧
        (g.stopping = true → g'.cores = g.cores) ∧ (within g → within g') ∧
        ((g.cores.zip g'.cores).filter fun c => c.1.stage != c.2.stage).length ≤ max 1 (g.cores.length / 8) ∧ s'.wk.threads = s.wk.threads ∧ s'.ms = s.ms))

/-! ## Traps, privilege, the quay cores -/

/-- R60, R396 to R400, R402, R404, R407, R419, R456: a trap of a thread is taken by its launch's handler, which a disocclusion, or a missed promise with HMP, enters
with the record in v0 to v7 and the state saved; else the thread stops with a record for its row's quay core; a trap of a quay core
halts its partition and is logged. TRAP raises cause 0x60.
R397, R400, R403, R405, R406, R409 to R411, R420: the kernel-local form of TRET restores what the entry saved, unless KEEP, and goes on at the point chosen;
outside a handler it raises 0x04, whatever its guard (R57, R59). The quay form gives status 1 for a handle that names no held record, 2 for a disposition that is not
allowed, and else releases the record, applies the disposition and gives 0.
R56 to R58, R376: a privileged instruction of a thread in user mode raises cause 0x04 at its word, whatever its guard, and has no
other effect. -/
def Obligations.TrapsAreTakenAndReturnedFrom : Prop :=
  ((∀ (s : State) (t : Thread) (h : Gd) (imm : Word), s.Runs h (.trap h imm) t → exec (.trap h imm) s = .next (s.trapHere t 0x60 0 0 imm.toNat)) ∧
   (∀ (s : State) (t : Thread) (c r a i : Nat), s.trapHere t c r a i = s.trap t ⟨c, r, a, i, false, t.pos.pc.toNat, t.pos, t.nextPos⟩) ∧
   ∀ (s : State) (t : Thread) (c : Trap), s.thread t.id = some t →
     let s' := s.trap t c
     let local_ := ∃ l, s.launchOf t = some l ∧ t.kl = none ∧ l.blk.handler ≠ 0 ∧ (c.disocc = true ∨ c.cause = 0x30 ∧ l.blk.hmp = true)
     let r : Rec := ⟨s.nextId, quayOf t.place.core, c.cause, c.reason, 0, t.kl.isSome, 0, t.place.core, t.place.lane, c.pc, c.addr, c.info, .thread t.id, s.launchNo t⟩
     let stopped : Thread := { t with stop := some ⟨s.nextId, c.resume, c.skip⟩, wait := .none, mode := if t.mode = .run then .held else t.mode }
     (∀ u, u ≠ t.id → t.place.core.core < 64 → s'.thread u = s.thread u) ∧ s.KeepsBytes s' ∧
     (∀ l, local_ → s.launchOf t = some l → s'.wk.recs = s.wk.recs ∧ ∃ y, s'.thread t.id = some y ∧
       y = { t with
         regs := { t.regs with v := y.regs.v }
         pos := ⟨BitVec.ofNat 64 l.blk.handler, BitVec.ofNat 64 l.blk.handler, false⟩
         mode := .header
         wait := .none
         out := { t.out with bad := t.out.bad.filter fun b => decide (8 ≤ b) }
         kl := some ⟨c.resume, c.skip, (List.range 8).map t.regs.getV, t.regs.p, t.regs.flags⟩ } ∧
       (∀ k, 8 ≤ k → k < 128 → y.regs.getV k = t.regs.getV k) ∧
       (y.regs.getV 0).toNat = c.cause % 2 ^ 8 + c.reason % 2 ^ 4 * 2 ^ 8 + t.place.core.core % 128 * 2 ^ 23 + t.place.core.die % 4 * 2 ^ 30 ∧
       (y.regs.getV 1).toNat % 2 ^ 16 = t.place.lane % 256 ∧ (c.disocc = true → (y.regs.getV 1).toNat / 2 ^ 16 = 0) ∧
       y.regs.getV 2 = BitVec.ofNat 32 c.pc ∧ y.regs.getV 3 = BitVec.ofNat 32 (c.pc / 2 ^ 32) ∧
       y.regs.getV 4 = BitVec.ofNat 32 c.addr ∧ y.regs.getV 5 = BitVec.ofNat 32 (c.addr / 2 ^ 32) ∧
       y.regs.getV 6 = BitVec.ofNat 32 c.info ∧ y.regs.getV 7 = BitVec.ofNat 32 (c.info / 2 ^ 32)) ∧
     (¬ local_ → t.place.core.core < 64 → s'.wk.recs = s.wk.recs ++ [r] ∧ s'.thread t.id = some stopped) ∧
     (¬ local_ → 64 ≤ t.place.core.core → t.place.part < s.wk.parts.length → (∀ x ∈ s.wk.threads, x.id = t.id → x = t) → s'.thread t.id = some stopped ∧ (s'.part t.place.part).state = .halting ∧
       s'.wk.recs = s.wk.recs ∧ s'.md.errhead = s.md.errhead + 1 ∧
       ∃ e, (s.md.errhead.toNat % 128, e) ∈ s'.md.errlog ∧ e.sev = 2 ∧ e.place = 0xF ∧ e.cause = BitVec.ofNat 8 c.cause ∧ e.die = BitVec.ofNat 2 t.place.core.die)) ∧
  (∀ (s : State) (t : Thread) (h : Gd) (d a b c : Opnd) (keep skip : Bool),
     let i : Instr := if skip then .tretSkip h (.kernelLocal keep) else .tretResume h (.kernelLocal keep)
     (t.kl = none → s.front = [t] → t.out.hits = [] → (useOf i).fits t.place.budget = true → exec i s = .next (s.trapHere t 0x04 0 0 0)) ∧
     (∀ k, t.kl = some k → k.v.length = 8 → s.Runs h i t → ∃ s' y, exec i s = .next s' ∧ s.Becomes s' t y ∧
       (let p := if skip then k.skip else k.resume
        y = { t with
          regs := y.regs, pos := p, mode := if p.mid = true then .cont true else .header, stop := none, wait := .none, kl := none
          out := { t.out with bad := if keep = true then t.out.bad else t.out.bad.filter fun b => decide (8 ≤ b) } }) ∧
       (keep = true → y.regs = t.regs) ∧
       (keep = false → y.regs = { t.regs with v := y.regs.v, p := k.p, flags := k.flags } ∧ ∀ r, r < 128 → y.regs.getV r = if r < 8 then k.v.getD r 0 else t.regs.getV r)) ∧
     ∀ q, s.quay t.place.core = some q →
       let handle := (s.rd2 t a).toNat
       let held := q.fq.find? fun x => x.rcd.bits x.seq.toNat % 2 ^ 64 == handle
       let forms := [Instr.tretResume h (.quay d a), .tretSkip h (.quay d a), .tretRetry h d a, .tretFail h d a, .tretKill h d a, .tretAssist h d a b c]
       let allowed := fun (k n : Nat) => (k = 0 ∧ (n = 0 ∨ n = 1 ∨ n = 4)) ∨ ((k = 1 ∨ k = 2) ∧ (n = 2 ∨ n = 3 ∨ n = 4)) ∨ (k = 3 ∧ n = 5) ∨ (k = 4 ∧ n = 0)
       (held = none → ∀ i ∈ forms, s.Runs h i t → ∃ s', exec i s = .next s' ∧ s.Writes s' t d [1] t.advance) ∧
       ∀ x, held = some x →
         (∀ n i, forms[n]? = some i → ¬ allowed x.rcd.kind n → s.Runs h i t → ∃ s', exec i s = .next s' ∧ s.Writes s' t d [2] t.advance) ∧
         ∀ n i, forms[n]? = some i → allowed x.rcd.kind n → s.Runs h i t →
           let Done := fun (s' : State) => exec i s = .next s' ∧ (∀ z ∈ s'.wk.quays, z.core = t.place.core → ∀ e ∈ z.fq, e.rcd.id ≠ x.rcd.id) ∧
             ∃ y, s'.thread t.id = some y ∧ y.pos = t.advance.pos ∧ y.mode = t.advance.mode ∧
               (∀ r, r < 128 → y.regs.getV r = (newV d [0] r).getD (t.regs.getV r)) ∧
               ∀ r, r < 64 → s'.getG t.place.grp r = if (s.group t.place.grp).isSome then (newG d [0] r).getD (s.getG t.place.grp r) else s.getG t.place.grp r
           (∀ u z p, n < 2 → x.rcd.party = .thread u → u ≠ t.id → s.thread u = some z → z.stop = some p → p.rid = x.rcd.id → z.exited = false →
             let dest := if n = 1 then p.skip else p.resume
             ∃ s', Done s' ∧ s'.thread u = some { z with pos := dest, mode := if dest.mid = true then .cont true else .header, stop := none, wait := .none }) ∧
           (n = 0 → x.rcd.party = .nobody → ∃ s', Done s') ∧
           (∀ e k z p, n = 2 → x.rcd.party = .access e k → s.access e = some z → z.parts[k]? = some p → ∃ s' z', Done s' ∧ s'.access e = some z' ∧
             z' = { z with parts := z'.parts } ∧ z'.parts = z.parts.set k { p with stalled := false }) ∧
           (∀ o z, n = 2 → x.rcd.party = .agent o → s.copy o = some z → ∃ s', Done s' ∧ s'.copy o = some { z with stalled := false }) ∧
           (∀ e k z u, n = 3 → x.rcd.party = .access e k → s.access e = some z → (∀ op dd w bb cc, z.kind ≠ .atomic op dd w bb cc) → (∀ g j w, z.kind ≠ .push g j w) →
             z.tid ≠ t.id → s.thread z.tid = some u → u.exited = false → ∃ s' u', Done s' ∧ s'.access e = none ∧ s'.thread z.tid = some u' ∧
               u'.out.hits = u.out.hits ++ [⟨x.rcd.cause, x.rcd.reason, x.rcd.addr, 0, false, some x.rcd.pc⟩] ∧ u'.regs = u.regs ∧ u'.pos = u.pos) ∧
           (∀ o z, n = 3 → x.rcd.party = .agent o → s.copy o = some z → z.adm ≠ none → ∃ s', Done s' ∧ s'.copy o = some { z with stalled := false, fault := some 3 }) ∧
           (∀ l, (n = 4 ∨ (n = 3 ∧ ∃ o, x.rcd.party = .agent o ∧ s.copy o = none)) → x.rcd.launch ≠ 0 → s.launch x.rcd.launch = some l → (∀ z ∈ s.wk.threads, z.id = t.id → s.ofLaunch l.id z = false) →
             ∃ s' l', Done s' ∧ s'.launch l.id = some l' ∧
             l' = { l with killed := some (l.killed.getD (handle % 2 ^ 32)), drain := none } ∧
             (∀ u z, s.thread u = some z → s.ofLaunch l.id z = true → ∃ z', s'.thread u = some z' ∧ z'.exited = true) ∧
             (∀ r ∈ s'.wk.recs, r.launch ≠ l.id) ∧ (∀ o, x.rcd.party = .agent o → s'.fop o = none ∧ s'.walk o = none) ∧
             ∀ p ∈ s'.wk.parts, ∀ ch ∈ p.chans, l.id ∉ ch.queue) ∧
           (∀ cx z, n = 5 → x.rcd.party = .assist cx → s.ctx cx = some z → z.mxrun.stopped = true → ∃ s', Done s' ∧ s'.ctx cx = some { z with
             mxrun := { z.mxrun with stopped := false, answer := some ((s.rd2 t b).toNat % 2 ^ 48, BitVec.ofNat 5 (s.rd t c).toNat) } })) ∧
  (∀ (s : State) (t : Thread) (i : Instr), privileged i = true → s.front = [t] → t.out.hits = [] → (useOf i).fits t.place.budget = true →
     t.place.priv = false → exec i s = .next (s.trapHere t 0x04 0 0 0))

/-- R386, R389, R391: SRDP reads the registers of the quay core's partition; SWR writes WROOT and WASID of its own core, the address spaces of the channels
and BTGRANT, raises 0x02 for a value that is malformed or a register that only reads, and 0x11 for a root outside HBMW or an ASID outside
ASIDW.
R397, R404, R408, R421: a record takes a place in its quay core's queue of 1024, with the next sequence number, and goes to a thread that waits for one;
OLOGR.NEXT takes the oldest not yet returned, or waits; OLOGR.OPND reads the operand log by handle, and zero for any other. -/
def Obligations.PrivilegedRegistersAndFaultQueues : Prop :=
  (∀ (s : State) (t : Thread) (h : Gd) (d a : Opnd) (r : PrivReg) (q : Quay), s.quay t.place.core = some q → t.place.part < s.wk.parts.length → t.place.priv = true →
     let p := s.part t.place.part
     let w := p.cfg.asidw.toNat
     let x := (s.rd2 t a).toNat
     let y := (s.rd t a).toNat
     let wide := r = .wroot ∨ ∃ c, r = .asroot c
     let narrow := r = .wasid ∨ ∃ c, r = .asasid c
     let Traps := s.Runs h (.swr h r a) t → exec (.swr h r a) s = .next (s.trapHere t 0x02 0 0 0)
     let Outside := fun (n : Nat) => s.Runs h (.swr h r a) t → exec (.swr h r a) s = .next (({ s with free := s.free + 1 } : State).trapHere t 0x11 n (Config.freeNat s.free) 0)
     let Sets := fun (P : State → Prop) => s.Runs h (.swr h r a) t → ∃ s', exec (.swr h r a) s = .next s' ∧ s'.thread t.id = some t.advance ∧
       (∀ u, u ≠ t.id → s'.thread u = s.thread u) ∧ s' = { s with wk := { s.wk with threads := s'.wk.threads, quays := s'.wk.quays, parts := s'.wk.parts } } ∧
       (∀ c, c ≠ t.place.core → s'.quay c = s.quay c) ∧ (∀ n, n ≠ t.place.part → s'.part n = s.part n) ∧ P s'
     (s.Runs h (.srdp h d r) t → ∃ s', exec (.srdp h d r) s = .next s' ∧ s.Writes s' t d (match r with
       | .partid => [BitVec.ofNat 32 t.place.part] | .prows => [BitVec.ofNat 32 p.cfg.rows.toNat] | .asidw => [BitVec.ofNat 32 w]
       | .plimit => [BitVec.ofNat 32 (min s.md.plimit s.md.fwlimit)] | .wroot => lohi q.wroot | .wasid => [q.wasid] | .btgrant => [BitVec.ofNat 32 p.btgrant.toNat]
       | .asroot c => lohi p.asroot[c] | .asasid c => [BitVec.ofNat 32 (p.asasid[c]).toNat]) t.advance) ∧
     (wide → (x % 2 ^ 12 ≠ 0 ∨ x / 2 ^ 52 ≠ 0) → Traps) ∧ (narrow → y / 2 ^ 16 ≠ 0 → Traps) ∧ (r = .btgrant → 2 ≤ y → Traps) ∧
     ((r = .partid ∨ r = .prows ∨ r = .asidw ∨ r = .plimit) → Traps) ∧
     (wide → x % 2 ^ 12 = 0 → x / 2 ^ 52 = 0 → p.inHbmw x = false → Outside 4) ∧
     (narrow → y / 2 ^ 16 = 0 → (y < w % 2 ^ 16 ∨ w % 2 ^ 16 + w / 2 ^ 16 % 2 ^ 16 < y) → Outside 5) ∧
     (wide → x % 2 ^ 12 = 0 → x / 2 ^ 52 = 0 → p.inHbmw x = true → Sets fun s' =>
       (r = .wroot → s'.quay t.place.core = some { q with wroot := BitVec.ofNat 64 x } ∧ s'.part t.place.part = p) ∧
       ∀ c, r = .asroot c → s'.quay t.place.core = some q ∧ s'.part t.place.part = { p with asroot := p.asroot.set c (BitVec.ofNat 64 x) }) ∧
     (narrow → w % 2 ^ 16 ≤ y → y ≤ w % 2 ^ 16 + w / 2 ^ 16 % 2 ^ 16 → y < 2 ^ 16 → Sets fun s' =>
       (r = .wasid → s'.quay t.place.core = some { q with wasid := BitVec.ofNat 32 y } ∧ s'.part t.place.part = p) ∧
       ∀ c, r = .asasid c → s'.quay t.place.core = some q ∧ s'.part t.place.part = { p with asasid := p.asasid.set c (BitVec.ofNat 64 y) }) ∧
     (r = .btgrant → y < 2 → Sets fun s' => s'.quay t.place.core = some q ∧ s'.part t.place.part = { p with btgrant := BitVec.ofNat 64 y })) ∧
  ((∀ (s : State) (n : Nat) (r : Rec) (q : Quay), s.wk.recs[n]? = some r → s.quay r.quay = some q → s.md.failed.getLsbD r.quay.die = false →
     (1024 ≤ q.fq.length → exec (.faultRecordQueued n) s = .next s) ∧
     (q.fq.length < 1024 → ∃ s', exec (.faultRecordQueued n) s = .next s' ∧ s'.wk.recs = s.wk.recs.eraseIdx n ∧
       (∀ t d, s.thread q.tid = some t → t.wait = .record d → t.place.core = r.quay → (∀ x ∈ q.fq, x.returned = true) → (s.part q.part).state ≠ .halting →
         (∀ x ∈ q.fq, x.rcd.id ≠ r.id) → s'.quay r.quay = some { q with seq := q.seq + 1, fq := q.fq ++ [⟨r, q.seq, true⟩] } ∧ ∃ y, s'.thread t.id = some y ∧ y.wait = .none ∧
           ∀ k, k < 128 → y.regs.getV k = (newV d ((List.range 8).map fun j => BitVec.ofNat 32 (r.bits q.seq.toNat / 2 ^ (32 * j))) k).getD (t.regs.getV k)) ∧
       ((∀ t, s.thread q.tid = some t → ∀ d, t.wait ≠ .record d) → s'.quay r.quay = some { q with seq := q.seq + 1, fq := q.fq ++ [⟨r, q.seq, false⟩] } ∧
         s'.wk.threads = s.wk.threads))) ∧
   ∀ (s : State) (t : Thread) (h : Gd) (d a : Opnd) (q : Quay), s.quay t.place.core = some q → t.place.priv = true → (s.part q.part).state ≠ .halting →
     let words := fun (x : Nat) => (List.range 8).map fun j => BitVec.ofNat 32 (x / 2 ^ (32 * j))
     let next := q.fq.find? fun x => !x.returned
     (next = none → s.Runs h (.ologrNext h d) t → ∃ s', exec (.ologrNext h d) s = .next s' ∧ s.Becomes s' t (t.waits (.record d))) ∧
     (∀ x, next = some x → s.Runs h (.ologrNext h d) t → ∃ s', exec (.ologrNext h d) s = .next s' ∧
       s'.quay t.place.core = some { q with fq := q.fq.map fun y => if y.rcd.id = x.rcd.id then { y with returned := true } else y } ∧
       ({ s with wk := { s.wk with quays := s'.wk.quays } } : State).Writes s' t d (words (x.rcd.bits x.seq.toNat)) t.advance) ∧
     (s.Runs h (.ologrOpnd h d a) t →
       let held := q.fq.find? fun x => x.rcd.bits x.seq.toNat % 2 ^ 64 == (s.rd2 t a).toNat
       ((∀ x e k, held = some x → x.rcd.party ≠ .access e k) → ∃ s', exec (.ologrOpnd h d a) s = .next s' ∧ s.Writes s' t d (List.replicate 8 0) t.advance) ∧
       ∀ x e k z p, held = some x → x.rcd.party = .access e k → s.access e = some z → z.parts[k]? = some p → p.ea < 2 ^ 64 →
         (∀ bs, z.kind = .store bs ∨ z.kind = .stt bs → bs.length ≤ 16) →
         ∃ s' v, exec (.ologrOpnd h d a) s = .next s' ∧ s.Writes s' t d (words v) t.advance ∧ v % 2 ^ 64 = p.ea ∧ v / 2 ^ 223 % 2 = 1 ∧ v / 2 ^ 208 % 2 ^ 8 = z.dreg % 256 ∧
           (∀ bs, z.kind = .store bs → v / 2 ^ 64 % 2 ^ 128 = ofBytes bs ∧ v / 2 ^ 206 % 2 ^ 2 = 1)))

/-- R217, R383 to R385: TLBI starts an invalidation and waits for it, or raises 0x11 for an ASID outside ASIDW; it takes place once its release may perform, removes the
entries that it names and no other, and ends once every access translated under them is complete. SPLIT puts a table of 512 entries
in the place of a leaf and invalidates its page, gives the result 1, 2 or 3, or raises 0x21 at a line lost with its die (R432). -/
def Obligations.TlbInstructions : Prop :=
  (∀ (s : State) (t : Thread) (h : Gd) (a b : Opnd), t.place.priv = true →
    let w := (s.part t.place.part).cfg.asidw.toNat
    let va := (s.rd2 t a).toNat
    let asid := (s.rd t b).toNat % 2 ^ 16
    let ok := w % 2 ^ 16 ≤ asid ∧ asid ≤ w % 2 ^ 16 + w / 2 ^ 16 % 2 ^ 16
    let Starts := fun (i : Instr) (v g : Option Nat) => s.Runs h i t → ∃ s', exec i s = .next s' ∧ s'.thread t.id = some (t.waits (.tlbi s.nextId .z)) ∧
      (∀ u, u ≠ t.id → s'.thread u = s.thread u) ∧ s' = { s with
        nextId := s.nextId + 1
        ms := { s.ms with tlbis := s.ms.tlbis ++ [⟨s.nextId, t.id, t.place.part, v, g, s.nextId, t.obs, false, [], []⟩] }
        wk := { s.wk with threads := s'.wk.threads } }
    (ok → Starts (.tlbiVa h a b) (some va) (some asid) ∧ Starts (.tlbiAsid h b) none (some asid)) ∧ Starts (.tlbiAll h) none none ∧
    (¬ ok → (s.Runs h (.tlbiVa h a b) t → exec (.tlbiVa h a b) s = .next (s.trapHere t 0x11 5 va 0)) ∧
      (s.Runs h (.tlbiAsid h b) t → exec (.tlbiAsid h b) s = .next (({ s with free := s.free + 1 } : State).trapHere t 0x11 5 (Config.freeNat s.free) 0)))) ∧
  (∀ (s : State) (i : Tlbi), (s.ms.tlbis.find? fun x => x.id == i.id) = some i →
    let names := fun (e : TlbEntry) => e.part = i.part ∧ (match i.va, i.asid with
      | some va, some g => (e.glob = true ∨ e.asid = g) ∧
          if e.frag = true then e.vbase / 2 ^ 30 = va % 2 ^ 48 / 2 ^ 30 else e.vbase ≤ va % 2 ^ 48 ∧ va % 2 ^ 48 < e.vbase + e.size
      | none, some g => e.glob = false ∧ e.asid = g
      | _, none => True)
    (i.begun = false → s.releasedBy i.tid i.bound (i.obs ++ s.obsOf i.tid) = true → ∃ s', exec (.tlbiComplete i.id) s = .next s' ∧ s.KeepsBytes s' ∧ s'.wk = s.wk ∧
      (∀ x, x ∈ s'.ms.l1tlb ↔ x ∈ s.ms.l1tlb ∧ ¬ names x.2) ∧ (∀ x, x ∈ s'.ms.l2tlb ↔ x ∈ s.ms.l2tlb ∧ ¬ names x.2) ∧
      ∃ y, (s'.ms.tlbis.find? fun x => x.id == i.id) = some y ∧ y.begun = true) ∧
    (∀ t n d, i.begun = true → (∀ p ∈ i.awaits, s.partDone p.1 p.2 = true) → s.visible i.awaitW s.systemPoints = true →
      s.thread i.tid = some t → t.wait = .tlbi n d → n = i.id → ∃ s' y, exec (.tlbiComplete i.id) s = .next s' ∧ s.KeepsBytes s' ∧
        s'.thread t.id = some y ∧ y.wait = .none ∧ y.pos = t.pos ∧ (∀ r, r < 128 → y.regs.getV r = (newV d [0] r).getD (t.regs.getV r)) ∧
        (∀ x ∈ s'.ms.tlbis, x.id ≠ i.id) ∧ ∀ u, u ≠ t.id → s'.thread u = s.thread u)) ∧
  ∀ (s : State) (t : Thread) (h : Gd) (d a b : Opnd) (cont : Bool) (q : Quay), s.quay t.place.core = some q → t.place.priv = true → s.Runs h (.split h d a b cont) t →
    let va := (s.rd2 t a).toNat
    let tb := (s.rd2 t b).toNat
    let leaf := s.splitLeaf t q.wroot.toNat va
    let s0 := s.refresh t.who .system
    let Answers := fun (n : Word) => ∃ s', exec (.split h d a b cont) s = .next s' ∧ s0.Writes s' t d [n] t.advance
    let table := fun (l : Leaf) (x : Nat) => if tb ≤ x ∧ x < tb + 4096 then some ((toBytes 8 (splitEntry l cont ((x - tb) / 8))).getD ((x - tb) % 8) 0) else none
    (leaf = none ∨ (∃ l, leaf = some l ∧ l.lvl = 1) → Answers 1) ∧
    ∀ l, leaf = some l → l.lvl ≠ 1 →
      ((tb % 4096 ≠ 0 ∨ (s.part t.place.part).inHbmw tb = false) → Answers 3) ∧
      (∀ n x, tb % 4096 = 0 → (s.part t.place.part).inHbmw tb = true → s.lostIn tb 4096 = some (n, x) →
        exec (.split h d a b cont) s = .next (s0.trapHere t 0x21 n x 0)) ∧
      (∀ n x, tb % 4096 = 0 → (s.part t.place.part).inHbmw tb = true → s.lostIn tb 4096 = none → s.lostIn l.ea 8 = some (n, x) →
        exec (.split h d a b cont) s = .next (s0.trapHere t 0x21 n x 0)) ∧
      (tb % 4096 = 0 → (s.part t.place.part).inHbmw tb = true → s.lostIn tb 4096 = none → s.lostIn l.ea 8 = none → s.Canonical →
        (l.ea + 8 ≤ tb ∨ tb + 4096 ≤ l.ea) → (s.readLast l.ea 8).val ≠ l.e →
        ∃ s' y, exec (.split h d a b cont) s = .next s' ∧ s'.thread t.id = some y ∧ y.pos = t.advance.pos ∧ y.wait = t.wait ∧
          (∀ r, r < 128 → y.regs.getV r = (newV d [2] r).getD (t.regs.getV r)) ∧ (∀ x, s'.ms.vault.read x = s.ms.vault.read x) ∧
          ∀ x, s'.ms.mem.read x = (table l x).getD (s.ms.mem.read x)) ∧
      (tb % 4096 = 0 → (s.part t.place.part).inHbmw tb = true → s.lostIn tb 4096 = none → s.lostIn l.ea 8 = none → s.Canonical →
        (l.ea + 8 ≤ tb ∨ tb + 4096 ≤ l.ea) → (s.readLast l.ea 8).val = l.e →
        ∃ s' y, exec (.split h d a b cont) s = .next s' ∧ s'.thread t.id = some y ∧ y.pos = t.nextPos ∧ y.regs = t.regs ∧ (∃ n, y.wait = .tlbi n d ∧
          ∃ z ∈ s'.ms.tlbis, z.id = n ∧ z.va = some va ∧ z.asid = some q.wasid.toNat ∧ z.begun = false) ∧
        (∀ x, s'.ms.vault.read x = s.ms.vault.read x) ∧
        ∀ x, s'.ms.mem.read x = (table l x).getD (if l.ea ≤ x ∧ x < l.ea + 8 then (toBytes 8 (tb + 1)).getD (x - l.ea) 0 else s.ms.mem.read x))

/-- R306, R309 to R311, R373, R459: LAUNCH checks the address of its block and waits at its word, which a continuation then issues (log 77). Once the
release may perform, and after the LAUNCHes of lower lanes, a full queue gives bit 8 and a partition that does not run code 13, with
no block read; else the block is read, checked, and enters the channel, and the result holds the code and DONECNT; a poisoned block
gives code 14 and cause 0x20. A block that cannot be translated traps at the word.
R394: ATTEST waits at its word for the signing unit, which serves those that wait in order and writes the report, its signature and zeros at
every point of the system, or gives 2 where attestation is fused off. Misaligned operands raise 0x02, and an operand that cannot be
translated its fault. -/
def Obligations.LaunchAndAttest : Prop :=
  (∀ (s : State) (t : Thread) (h : Gd) (d a : Opnd) (ch : Fin 8),
     let ea := (s.rd2 t a).toNat
     (¬ (ea % 64 = 0 ∧ inSpace ea) → s.Runs h (.launch h d a ch) t → exec (.launch h d a ch) s = .next (s.trapHere t 0x02 0 0 0)) ∧
     (ea % 64 = 0 → inSpace ea → s.Runs h (.launch h d a ch) t →
       ∃ s', exec (.launch h d a ch) s = .next s' ∧ s'.ms = s.ms ∧ s'.en = s.en ∧ s'.md = s.md ∧
         s.Awaits s' t s.nextId d 2 { t with mode := .cont false, wait := .launch s.nextId s.nextId d ch.val ea }) ∧
     ∀ op iss dd n e, s.thread t.id = some t → t.wait = .launch op iss dd n e → (∀ u ∈ s.wk.threads, ∀ o j x y z, u.wait = .launch o j x y z → j = iss → op ≤ o) →
       s.releasedBy t.id s.nextId t.obs = true → t.exited = false → t.place.part < s.wk.parts.length → n < (s.part t.place.part).chans.length →
       let c := s.chan t.place.part n
       let Gives := fun (code : Nat) (full : Bool) (P : State → Prop) => ∃ s' y, exec (.launchResult t.id) s = .next s' ∧ s'.thread t.id = some y ∧ y.pos = t.nextPos ∧ y.wait = .none ∧
         (∀ k, k < 128 → y.regs.getV k = (newV dd [BitVec.ofNat 32 (code + if full then 2 ^ 8 else 0), BitVec.ofNat 32 c.done] k).getD (t.regs.getV k)) ∧
         y.out.pend = t.out.pend.filter (fun p => p.1 != op) ∧
         y.out.causes = t.out.causes ++ (if code = 14 then [⟨0x20, 1, e, 0, false, none⟩] else []) ∧ s.KeepsBytes s' ∧ (∀ u, u ≠ t.id → s'.thread u = s.thread u) ∧ P s'
       (64 ≤ c.queue.length → Gives 0 true fun s' => s'.chan t.place.part n = { c with ovf := true } ∧ s'.wk.launches = s.wk.launches) ∧
       (c.queue.length < 64 → (s.part t.place.part).state ≠ .running → Gives 13 false fun s' => s'.chan t.place.part n = { c with code := 13 } ∧ s'.wk.launches = s.wk.launches) ∧
       (∀ f x, c.queue.length < 64 → (s.part t.place.part).state = .running → s.agentRead t.xl t.who .system e 128 = .error (.flt f x) →
         exec (.launchResult t.id) s = .next ((((s.agentFill t.xl e 128).unhold t op).wake t.id).trapHere { t with wait := .none } f.cause f.reason x 0)) ∧
       ∀ r, c.queue.length < 64 → (s.part t.place.part).state = .running → s.agentRead t.xl t.who .system e 128 = .ok r →
         let s1 := (s.agentFill t.xl e 128).takeRead t.who r.wids
         let blk : Block := ⟨ofBytes r.bytes⟩
         (r.poison = true → Gives 14 false fun s' => s'.chan t.place.part n = { c with code := 14 } ∧ s'.wk.launches = s.wk.launches) ∧
         (∀ code pa, r.poison = false → s.tablesHeld t.place.part n blk = false → s1.verdict t.place.part n blk = .reject code pa →
           Gives code false fun s' => s'.chan t.place.part n = { c with code := code } ∧ s'.wk.launches = s.wk.launches) ∧
         ∀ st qs, r.poison = false → s.tablesHeld t.place.part n blk = false → s1.verdict t.place.part n blk = .accept st qs → Gives 0 false fun s' =>
           ∃ l, s'.chan t.place.part n = { c with code := 0, queue := c.queue ++ [l.id] } ∧ s'.wk.launches = s.wk.launches ++ [l] ∧
             l.part = t.place.part ∧ l.ch = n ∧ l.blk = blk ∧ l.phase = .queued ∧ l.next = 0) ∧
  (∀ (s : State) (t : Thread) (h : Gd) (d a b : Opnd),
     let ea := (s.rd2 t a).toNat
     let bu := (s.rd2 t b).toNat
     (t.place.priv = true → ¬ (ea % 32 = 0 ∧ bu % 64 = 0) → s.Runs h (.attest h d a b) t → exec (.attest h d a b) s = .next (s.trapHere t 0x02 0 0 0)) ∧
     (t.place.priv = true → ea % 32 = 0 → bu % 64 = 0 → s.rangeFault t .read ea 32 = none → s.rangeFault t .write bu 2560 = none → s.Runs h (.attest h d a b) t →
       ∃ s', exec (.attest h d a b) s = .next s' ∧ s'.thread t.id = some { t with mode := .cont false, wait := .attest d ea bu } ∧
         (∀ u, u ≠ t.id → s'.thread u = s.thread u) ∧ s'.md = { s.md with signing := s.md.signing ++ [t.id] } ∧ s.KeepsBytes s') ∧
     (∀ f x, t.place.priv = true → ea % 32 = 0 → bu % 64 = 0 → (s.rangeFault t .read ea 32 = some (f, x) ∨ s.rangeFault t .read ea 32 = none ∧ s.rangeFault t .write bu 2560 = some (f, x)) →
       s.Runs h (.attest h d a b) t → exec (.attest h d a b) s = .next (((s.agentFill t.xl ea 32).agentFill t.xl bu 2560).trapHere t f.cause f.reason x 0)) ∧
     ∀ dd na bu rest, s.thread t.id = some t → t.wait = .attest dd na bu → s.md.signing = t.id :: rest →
       let Gives := fun (v : Word) (P : State → Prop) => ∃ s' y, exec (.attestComplete t.id) s = .next s' ∧ s'.md.signing = rest ∧ s'.thread t.id = some y ∧ y.pos = t.nextPos ∧
         y.wait = .none ∧ (∀ k, k < 128 → y.regs.getV k = (newV dd [v] k).getD (t.regs.getV k)) ∧ P s'
       (Config.attestFuse 0 % 2 = 0 → Gives 2 fun s' => s.KeepsBytes s') ∧
       ∀ r pb, Config.attestFuse 0 % 2 ≠ 0 → s.agentRead t.xl t.who .system na 32 = .ok r → r.poison = false → s.bufferErr t bu 2560 = none →
         let s1 := ((s.agentFill t.xl na 32).takeRead t.who r.wids).refresh t.who .system
         (∀ k, k < 2560 → s1.translate t.xl .write (bu + k) = .ok (pb + k) ∧ s.linkCut (pb + k) = false) → s.Canonical → Gives 0 fun s' =>
           (∀ x, s'.ms.vault.read x = s.ms.vault.read x) ∧ (∃ w ∈ s'.ms.writes, w.tid = t.id ∧ w.pub = true ∧ ∀ k, k < 2560 → w.covers (pb + k) = true) ∧
           ∀ x, s'.ms.mem.read x = if pb ≤ x ∧ x < pb + 2560 then (s.attestBytes t.place.part r.val).getD (x - pb) 0 else s.ms.mem.read x)

/-! ## Scheduling, launches, contexts -/

/-- R31, R35, R36, R59, R319, R322, R354, R400: the threads that start next, as the quadrant composes them, take their clause and form its issue
set; a header that traps, traps each; a cause that waits for a thread is raised at its header before anything issues; a continuation goes
on where its threads stand, with the words that they have, or, after a trap or a pre-emption, fetched again; a group pending ready
for 2048 cycles takes the place of the active group that entered first among those at a clause boundary.
R36, R319, R320: what a quadrant starts next. An active group with a ready thread leads, in turn: none leads twice running while another can.
A group that has yielded leads only where every such group has yielded to another. With the thread of the leader that has waited longest
start the ready threads of active groups at its place, one of each lane, in lane order; a thread held in the middle of a clause
starts alone. -/
def Obligations.SchedulerStartsClauses : Prop :=
  (∀ (s : State) (q : QuadId) (ts : List Nat) (t : Thread) (rest : List Thread),
     let s0 := s.settleSet q
     let s1 := s0.noteLead q
     let all := t :: rest
     let quiet := ∀ u ∈ all, u.out.hits = [] ∧ u.out.causes = []
     (∀ u ∈ all, s0.thread u.id = some u) →
     (∀ h ws s2, s0.startable q ts false = some all → s1.fetchClause t = (.clause h ws, s2) → quiet → ∃ s', exec (.clauseStart q ts) s = .next s' ∧ s'.setOf q = ts ∧
       ∀ u ∈ all, ∃ y, s'.thread u.id = some y ∧ y.mode = .run ∧ y.clause = ⟨h.cls, h.yld, ws⟩ ∧ y.wait = .none ∧ y.regs = u.regs ∧ y.since = s.clock.toNat ∧
         y.pos = ⟨u.pos.hdr, u.pos.pc + 8, true⟩) ∧
     (∀ f a s2, s0.startable q ts false = some [t] → s1.fetchClause t = (.trap f a, s2) →
       exec (.clauseStart q ts) s = .next (s2.trap t ⟨f.cause, f.reason, a, 0, false, t.pos.pc.toNat, t.pos, t.pos⟩)) ∧
     (∀ h ws s2 c l, s0.startable q ts false = some [t] → s1.fetchClause t = (.clause h ws, s2) → t.out.hits = [] → t.out.causes = c :: l → c.disocc = false → c.cause ≠ 0x30 →
       t.place.core.core < 64 → ∃ s' y r, exec (.clauseStart q ts) s = .next s' ∧ s'.thread t.id = some y ∧ y.stop ≠ none ∧ y.out.causes = l ∧ y.pos = t.pos ∧
         s'.wk.recs = s.wk.recs ++ [r] ∧ r.cause = c.cause ∧ r.reason = c.reason ∧ r.addr = c.addr ∧ r.info = c.info ∧ r.pc = c.pc.getD t.pos.pc.toNat) ∧
     (s0.startable q ts true = some all → (∀ u ∈ all, u.mode ≠ .cont true) → quiet → ∃ s', exec (.continuationStart q ts) s = .next s' ∧ s'.setOf q = ts ∧
       ∀ u ∈ all, ∃ y, s'.thread u.id = some y ∧ y.mode = .run ∧ y.wait = .none ∧ y.regs = u.regs ∧ y.pos = u.pos ∧ y.clause = u.clause ∧ y.since = s.clock.toNat) ∧
     (∀ h ws s2, s0.startable q ts true = some [t] → t.mode = .cont true → t.out.hits = [] → (s1.onThread t.id fun _ => t.pass).fetchClause t.pass = (.clause h ws, s2) →
       ∃ s' y, exec (.continuationStart q ts) s = .next s' ∧ s'.setOf q = ts ∧ s'.thread t.id = some y ∧ y.mode = .run ∧ y.wait = .none ∧ y.regs = t.regs ∧
         y.clause = ⟨h.cls, h.yld, ws⟩ ∧ y.pos = t.pos) ∧
     ∀ g x at_ n, s.group g.id = some g → g.active = false → g.rdyAt = some at_ → s.groupReady g.id = true → at_.1 + 2048 ≤ s.clock.toNat →
       argMin Group.entered ((s.groupsOn ⟨g.core, g.quad⟩).filter fun z => z.active && (s.live z.id).all fun u => u.mode == .header || u.mode == .cont false) = some x →
       (∀ z ∈ s.wk.groups, s.group z.id = some z) → x.id ≠ g.id → (s.deactivate x.id).freeSlot ⟨g.core, g.quad⟩ = some n →
       ∃ s', exec (.pendingTimeout g.id) s = .next s' ∧ s'.group g.id = some { g with active := true, slot := n, entered := s.clock.toNat, rdyAt := none } ∧
         s'.group x.id = some { x with active := false, entered := s.clock.toNat } ∧ (∀ z, z ≠ g.id → z ≠ x.id → s'.group z = s.group z) ∧ s'.wk.threads = s.wk.threads) ∧
  (∀ (s : State) (q : QuadId) (g : Group), s.leading q = some g →
     let cand := fun (x : Group) => x ∈ s.groupsOn q ∧ x.active = true ∧ s.groupReady x.id = true
     let behind := fun (x : Group) => ∃ y ∈ x.yld, ∃ z, cand z ∧ z.id = y
     cand g ∧ (behind g → ∀ x, cand x → behind x) ∧
     (∀ n, (s.wk.leads.find? fun x => x.1 == q) = some (q, n) → (∀ x ∈ s.wk.groups, x.slot < 8 ∧ x.yld = []) →
       (∃ x, cand x ∧ x.slot ≠ n) → g.slot ≠ n) ∧
     ∀ t, longest ((s.live g.id).filter s.ready) = some t →
       (t.mode = .held → s.compose q = [t]) ∧
       (t.mode ≠ .held → (s.wk.threads.map Thread.id).Nodup → s.group g.id = some g → t.on q = true →
         let l := s.compose q
         t ∈ l ∧ (l.map fun u => u.place.lane).Pairwise (· < ·) ∧
         (∀ u ∈ l, u ∈ s.wk.threads ∧ u.on q = true ∧ s.ready u = true ∧ t.sameCode u = true ∧ u.mode ≠ .held ∧ ∃ x, s.group u.place.grp = some x ∧ x.active = true) ∧
         ∀ u ∈ l, ∀ v ∈ s.wk.threads, u ≠ t → v.place.lane = u.place.lane → v.on q = true → s.ready v = true → s.joins t v = true → v.mode ≠ .held →
           (∃ x, s.group v.place.grp = some x ∧ x.active = true) → u.since ≤ v.since))

/-- R306, R308 to R311, R331, R459: a doorbell rung once what the host has observed is visible everywhere: a full queue sets OVF, a partition that is not running gives code 13, a
block that fails its checks its code, and one that passes enters the queue with code 0. R303, R307, R312 to R314, R332: a launch that is
served places its next cluster, one team on each core of the rectangle; a gang takes its cores all at once.
R311, R314, R318, R347, R357, R406: a team ends once its threads have exited and nothing is bound for their registers, and its divergence enters the
history; a launch that has ended writes DONEVAL, or the record of the KILL that ended it, at DONE, raises DONECNT, and is gone. -/
def Obligations.LaunchesAreServedAndEnd : Prop :=
  ((∀ (s : State) (p ch : Nat), s.unbooted = false → s.linkBusy 0 = false → p < 16 → ch < 8 → s.hostReleased = true →
     s.tablesHeld p ch ⟨(s.chan p ch).blk⟩ = false → p < s.wk.parts.length → ch < (s.part p).chans.length →
     let c := s.chan p ch
     let Rings := fun (P : State → Prop) => ∃ s', exec (.doorbell p ch) s = .next s' ∧ s'.wk.threads = s.wk.threads ∧ s.KeepsBytes s' ∧ P s'
     (64 ≤ c.queue.length → Rings fun s' => s'.chan p ch = { c with ovf := true } ∧ s'.wk.launches = s.wk.launches) ∧
     (c.queue.length < 64 → (s.part p).state ≠ .running → Rings fun s' => s'.chan p ch = { c with code := 13 } ∧ s'.wk.launches = s.wk.launches) ∧
     (∀ code pa, c.queue.length < 64 → (s.part p).state = .running → s.verdict p ch ⟨c.blk⟩ = .reject code pa → Rings fun s' =>
       s'.chan p ch = { c with code := code } ∧ s'.wk.launches = s.wk.launches ∧ (∀ a, pa = some a → s'.md.errhead = s.md.errhead + 1) ∧ (pa = none → s'.md = s.md)) ∧
     (∀ st qs, c.queue.length < 64 → (s.part p).state = .running → s.verdict p ch ⟨c.blk⟩ = .accept st qs → Rings fun s' =>
       s'.chan p ch = { c with code := 0, queue := c.queue ++ [s.nextId] } ∧ ∃ l, s'.wk.launches = s.wk.launches ++ [l] ∧
         l.id = s.nextId ∧ l.part = p ∧ l.ch = ch ∧ l.blk = ⟨c.blk⟩ ∧ l.rank = c.blk / 2 ^ 154 % 2 * 8 + c.blk / 2 ^ 155 % 8 ∧ l.phase = .queued ∧ l.next = 0)) ∧
   (∀ (s : State) (l : Launch) (d corner : Nat) (os : List (List Nat × Nat)), s.launch l.id = some l → l.blk.isGang = false → s.served l = true → s.plan l = .place d corner os →
     (∀ x ∈ s.wk.teams, x.id < s.nextId) → (∀ x ∈ s.wk.threads, x.id < s.nextId) →
     let b := l.blk
     let nx := b.gridX / b.cw
     let ny := b.gridY / b.ch
     ∃ s', exec (.clusterPlace l.id) s = .next s' ∧
       (∀ k, k < b.cw * b.ch → ∃ tm ∈ s'.wk.teams, s.nextId ≤ tm.id ∧ tm.launch = l.id ∧ tm.part = l.part ∧ tm.core = ⟨d, corner + k % b.cw + 8 * (k / b.cw)⟩ ∧
         tm.clx = k % b.cw ∧ tm.cly = k / b.cw ∧ tm.tmx = b.cw * (l.next % nx) + k % b.cw ∧ tm.tmy = b.ch * (l.next / nx % ny) + k / b.cw ∧ tm.tmz = l.next / (nx * ny) ∧
         tm.nx = b.nx ∧ tm.ny = b.ny ∧ tm.nz = b.nz ∧ tm.budget = b.budget ∧ tm.ended = false ∧ tm.saved = false) ∧
       (∀ x ∈ s'.wk.threads, s.nextId ≤ x.id → x.pos = ⟨BitVec.ofNat 64 b.pc, BitVec.ofNat 64 b.pc, false⟩ ∧ x.mode = .header ∧ x.place.priv = false ∧ x.place.part = l.part ∧
         (∀ r, r < 128 → x.regs.getV r = 0) ∧ x.ctr = ⟨0, 0, 0, 0⟩ ∧ ∃ tm ∈ s'.wk.teams, tm.id = x.place.team ∧ tm.core = x.place.core) ∧
       ∃ y, s'.launch l.id = some y ∧ y.next = l.next + 1 ∧ (y.phase = .placed ↔ l.next + 1 = (b.gridX / b.cw) * (b.gridY / b.ch) * b.gridZ ∨ l.phase = .placed)) ∧
   ∀ (s : State) (l : Launch) (g : Gang) (d c : Nat) (os : List (List Nat × Nat)), s.launch l.id = some l → l.blk.isGang = true → s.gang l.id = some g → s.served l = true →
     s.gangPlan l = .place d c os → ∃ s' g', exec (.gangPlace l.id) s = .next s' ∧ s'.gang l.id = some g' ∧ g'.placed = true ∧ g'.running = true ∧ g'.die = d ∧
       g'.cores.map GCore.core = os.flatMap Prod.fst ∧ (os.flatMap Prod.fst).length = l.blk.nCore ∧ g'.cad0 = s.clock.toNat ∧ g'.stages = g.stages ∧ g'.queues = g.queues ∧
       ∃ y, s'.launch l.id = some y ∧ y.phase = .placed) ∧
  ((∀ (s : State) (tm : Team), s.team tm.id = some tm → tm.ended = false → tm.core.core < 64 →
     (∀ t ∈ s.wk.threads, t.place.team = tm.id → t.exited = true ∧ s.boundFor t.id = false) → ∃ s', exec (.teamEnd tm.id) s = .next s' ∧
       s'.team tm.id = some { tm with ended := true } ∧ s'.wk.threads = s.wk.threads ∧ s.KeepsBytes s' ∧
       (tm.part < s.wk.parts.length → ∀ e ∈ (s.part tm.part).hist, tm.l ≠ 0 → e.pc = s.histPc tm →
         (⟨e.pc, (3 * e.f + 256 * tm.a / tm.l) / 4⟩ : HistEntry) ∈ (s'.part tm.part).hist)) ∧
   ∀ (s : State) (l : Launch), s.launch l.id = some l → s.allEnded l = true → s.stilled l = true → s.doneHeld l = false → l.part < s.wk.parts.length → l.ch < (s.part l.part).chans.length → s.Canonical →
     let xl : Xl := ⟨l.part, l.root, l.asid, true, ⟨(s.dies.head?).getD 0, 128⟩⟩
     let v := match l.killed with
       | some low => low + 2 ^ 63
       | none => l.blk.bits / 2 ^ 320 % 2 ^ 64
     ∃ s', exec (.gridEnd l.id) s = .next s' ∧ s'.launch l.id = none ∧ (∀ x ∈ s'.wk.teams, x.launch ≠ l.id) ∧
       s'.chan l.part l.ch = { s.chan l.part l.ch with done := ((s.chan l.part l.ch).done + 1) % 2 ^ 16 } ∧
       (∀ a, s'.ms.vault.read a = s.ms.vault.read a) ∧
       (l.blk.done = 0 → ∀ a, s'.ms.mem.read a = s.ms.mem.read a) ∧
       ∀ pa, l.blk.done ≠ 0 → s.translate xl .write l.blk.done = .ok pa → s.lost pa = 0 → s.linkCut pa = false →
         ∀ a, s'.ms.mem.read a = if pa ≤ a ∧ a < pa + 8 then BitVec.ofNat 8 (v / 2 ^ (8 * (a - pa))) else s.ms.mem.read a)

/-- R316, R412 to R416: a drain that reaches its limit on some of its cores saves their teams by force, with a record of cause 0x80 for each row; a context that may return takes its core, and the context
that ran there goes to its bank. -/
def Obligations.ContextsSwitch : Prop :=
  (∀ (s : State) (l : Launch) (dr : Drain), s.launch l.id = some l → l.drain = some dr →
    let ts := s.wk.teams.filter fun t => t.launch == l.id && !t.ended && !t.saved && dr.cores.any fun c => c.1 == t.core && decide (c.2 ≤ s.clock.toNat)
    ts ≠ [] → ∃ s' rs, exec (.drainLimitExpiry l.id) s = .next s' ∧
      s'.wk.teams = s.wk.teams.map (fun t => if t.id ∈ ts.map Team.id then { t with saved := true } else t) ∧ s'.wk.recs = s.wk.recs ++ rs ∧ s.KeepsBytes s' ∧
      rs.length = ((ts.map fun t => quayOf t.core).eraseDups).length ∧
      ∀ r ∈ rs, r.cause = 0x80 ∧ r.kind = 4 ∧ r.launch = l.id ∧ r.addr = l.blk.pc ∧ r.info = (ts.filter fun t => quayOf t.core == r.quay).length % 2 ^ 16) ∧
  (∀ (s : State) (l : Launch) (dr : Drain), s.launch l.id = some l → l.drain = some dr → (∀ c ∈ dr.cores, s.clock.toNat < c.2) → exec (.drainLimitExpiry l.id) s = .next s) ∧
  ∀ (s : State) (x y : Ctx) (n : Nat), s.ctx y.id = some y → s.ctx x.id = some x → s.runCtx y.part y.core = some x → y.place = .bank n → s.gangAway y = none → x.id ≠ y.id → s.partOf y.core = some y.part →
    (∃ t ∈ s.wk.teams, t.ctx = x.id ∧ t.ended = false) → (∃ t ∈ s.wk.teams, t.ctx = y.id ∧ t.ended = false) → s.mayReturn y.part (s.ctxRank y.id) y.core = true →
    (∀ z ∈ s.en.ctxs, s.ctx z.id = some z) →
    exec (.shadowContextSwitch y.core (some y.id)) s = exec (.contextRestore y.id) s ∧
    ∃ s', exec (.contextRestore y.id) s = .next s' ∧ s'.ctx y.id = some { y with place := .running } ∧ s'.ctx x.id = some { x with place := .bank n, since := s.clock.toNat } ∧
      s.KeepsBytes s' ∧ ∀ u t, s.thread u = some t → ∃ t', s'.thread u = some t' ∧ t'.regs = t.regs ∧ t'.pos = t.pos ∧ t'.out = t.out ∧ t'.wait = t.wait

/-! ## Partitions, the configuration window, reset -/

/-- R386, R387, R404, R417, R418: RUN of a stopped partition that is not refused starts its quay cores, in privileged mode at 0x1000, or restores its image, and sets
STATE to 1; one that is refused sets CFGERR alone; HALT of a running partition sets STATE to 2 and stops its mesh cores; once they are
halted the image is saved, no dirty line of the partition's memory and no translation of it is left, and STATE is 0. -/
def Obligations.PartitionsRunAndHalt : Prop :=
  ∀ (s : State) (p : Nat), s.unbooted = false → s.linkBusy 0 = false → p < 16 → p < s.wk.parts.length →
    let x := s.part p
    let others := fun (s' : State) => ∀ q, q ≠ p → s'.part q = s.part q
    let tried := s.onPart p fun y => { y with run := true }
    (x.state ≠ .stopped → ∃ s', exec (.run p) s = .next s' ∧ s' = tried) ∧
    (x.state = .stopped → tried.runRefused p = true → ∃ s', exec (.run p) s = .next s' ∧ s'.part p = { x with run := true, cfgerr := true } ∧ others s' ∧
      s'.wk.threads = s.wk.threads ∧ s'.ms = s.ms) ∧
    (x.state = .stopped → tried.runRefused p = false → x.image = none → (∀ t ∈ s.wk.threads, t.id < s.nextId) →
      (∀ z ∈ s.wk.quays, z.part ≠ p → ∀ d y, z.core = ⟨d, 64 + y⟩ → x.cfg.rows.getLsbD (8 * d + y) = false) → ∃ s', exec (.run p) s = .next s' ∧ (s'.part p).state = .running ∧
      (s'.part p).cfgerr = false ∧ (s'.part p).cfg = x.cfg ∧ others s' ∧ s.KeepsBytes s' ∧
      ∀ d y, d < 4 → y < 8 → (x.cfg.rows.getLsbD (8 * d + y) = true ↔ ∃ q t, s'.quay ⟨d, 64 + y⟩ = some q ∧ q.part = p ∧ q.fq = [] ∧ s'.thread q.tid = some t ∧
        t.place.priv = true ∧ t.place.part = p ∧ t.pos = ⟨0x1000, 0x1000, false⟩ ∧ t.mode = .header ∧ t.place.root = x.hroot.toNat ∧ t.place.asid = x.hasid.toNat)) ∧
    (∀ i, x.state = .stopped → tried.runRefused p = false → x.image = some i → ∃ s', exec (.run p) s = .next s' ∧ (s'.part p).state = .running ∧ (s'.part p).image = none ∧ others s' ∧
      ∀ k, s'.full k = true ↔ (k ∈ i.tags ∨ s.full k = true ∧ inRanges (s.vaultRanges p) k = false)) ∧
    (x.state = .running → ∃ s', exec (.halt p) s = .next s' ∧ s'.part p = { x with run := false, state := .halting } ∧ others s' ∧ s.KeepsBytes s' ∧
      (∀ q y, (q, y) ∈ s'.wk.sets → ∀ u ∈ y, ∀ t ∈ s.wk.threads, t.id = u → t.place.part = p → 64 ≤ t.place.core.core) ∧
      ∀ u t, s.thread u = some t → ∃ t', s'.thread u = some t' ∧ t'.regs = t.regs ∧ t'.pos = t.pos ∧ t'.wait = t.wait) ∧
    (x.state = .halting → ∃ s', exec (.halt p) s = .next s' ∧ s'.part p = { x with run := false } ∧ others s' ∧ s'.wk.threads = s.wk.threads) ∧
    (x.state = .halting → s.isHalted p = true → ∃ s' i, exec (.partitionHalted p) s = .next s' ∧ s'.part p = { x with state := .stopped, image := some i } ∧ i.cfg = x.cfg ∧
      (∀ k, k ∈ i.tags ↔ k ∈ s.ms.tags ∧ inRanges (s.vaultRanges p) k = true) ∧ (∀ q ∈ s'.wk.quays, q.part ≠ p) ∧ (∀ e ∈ s'.ms.l1tlb, e.2.part ≠ p) ∧ (∀ e ∈ s'.ms.l2tlb, e.2.part ≠ p) ∧
      (∀ b ∈ s'.co.l1, x.inHbmw (64 * b.blk) = true → b.dirty = false) ∧ (∀ l ∈ s'.co.l2, x.inHbmw (64 * (2 * l.line)) = true → l.dirty = 0) ∧
      others s' ∧ s.Keeps s' ∧ s.KeepsBytes s') ∧
    (x.state ≠ .halting ∨ s.isHalted p = false → exec (.partitionHalted p) s = .next s)

/-- R308, R386, R393, R435, R436: what reset leaves in the registers that the manual gives a value: STATUS and PCTL 0, PLIMIT 1800, the estimates of age, BOOTST. A
boot whose step fails leaves STAGE 0xF, the step in BOOTST, and no die booted; an image whose rollback version lies below the fused
counter fails step 4; a boot that succeeds leaves STAGE 2, its version, and the dies that booted; before that STAGE is 0 in the ROM
and 1 while the image is verified. No thread, record or launch remains, HBM and the vaults list nothing, and memory beyond the module
is kept. DIES after a boot that fails (log 70), and the other values of reset (logs 6 to 11), are the model's own. -/
def Obligations.ResetLeaves : Prop :=
  (∀ p ch, p < 16 → ch < 8 → (State.reset.chan p ch).status = 0 ∧ (State.reset.part p).pctl = 0) ∧ State.reset.md.plimit = 1800 ∧ State.reset.wk.threads = [] ∧
  (∀ d, d < 4 → State.reset.md.ages[d]? = some ⟨0xFFFFFFFF, 63, 0⟩) ∧
  ∀ (s : State) (fail : Nat) (dies : BitVec 4) (rb : Word), s.Canonical →
    let f := if (fail = 0 ∨ fail = 5) ∧ rb.toNat < (Config.rollbackFuse 0).toNat then 4 else fail
    let stage := fun (s' : State) => (s'.md.bootst.extractLsb' 0 4).toNat
    (fail < 8 → ∃ s', exec (.reset fail dies rb) s = .next s' ∧ s'.wk = State.reset.wk ∧ s'.en = State.reset.en ∧ s'.ms.vault = [] ∧ s'.md.peers = s.md.peers ∧
      s'.clock = State.reset.clock ∧ (∀ a, 2 ^ 48 ≤ a → s'.ms.mem.read a = s.ms.mem.read a) ∧
      (f = 0 → stage s' = 2 ∧ s'.md.bootst.extractLsb' 8 8 = 0 ∧ s'.md.bootst.extractLsb' 32 32 = rb ∧ s'.md.dies = dies ∧ s'.unbooted = false) ∧
      (1 ≤ f → f < 6 → stage s' = 0xF ∧ (s'.md.bootst.extractLsb' 8 8).toNat = f ∧ s'.md.dies = 0 ∧ s'.unbooted = true) ∧
      (f = 6 → stage s' = 0 ∧ s'.unbooted = true) ∧ (f = 7 → stage s' = 1 ∧ s'.unbooted = true)) ∧
    (8 ≤ fail → exec (.reset fail dies rb) s = .next s)

/-- R308, R386, R387, R389, R392: the host's writes of the configuration window: PLIMIT, of which firmware lowers the limit in force and never raises it; a locked register, which a partition that is
not stopped keeps, with LOCKERR; the registers that do not lock; the words of a launch block. A write that is not aligned has no effect.
R210, R211, R227, R245, R248, R269, R392, R426: reads, writes and atomics of the host and of a peer, which reach what is mapped; what they read is received, marked poisoned where
it is; the host's reads join what it has observed; a write of the host, in its own copy, or of a peer, at the home, stands at every
point of the system; an atomic that reads poison writes nothing; a write of firmware to a partition that runs, outside FWGRANT, is
discarded whole. -/
def Obligations.TheHostConfiguresAndAccesses : Prop :=
  ((∀ (s : State) (w : Nat), s.unbooted = false →
     (s.linkBusy 0 = false → 100 ≤ w → exec (.plimit true w) s = .next { s with md := { s.md with plimit := min w 1800 } }) ∧
     (s.linkBusy 0 = true → exec (.plimit true w) s = .next s) ∧
     (s.linkBusy 0 = false → w < 100 → ∃ s', exec (.plimit true w) s = .next s' ∧ s' = { s with free := s.free + 1, md := { s.md with plimit := s'.md.plimit } } ∧
       100 ≤ s'.md.plimit ∧ s'.md.plimit ≤ 1800) ∧
     ∃ s', exec (.plimit false w) s = .next s' ∧ s'.md.plimit = s.md.plimit ∧ s'.powerLimit = min s.powerLimit w) ∧
   ∀ (s : State) (p : Nat) (v : Dword), s.unbooted = false → s.linkBusy 0 = false → p < 16 → p < s.wk.parts.length →
     let x := s.part p
     let at_ := fun (o : Nat) => 0x10000 + 0x1000 * p + o
     let low := fun (n : Nat) => BitVec.ofNat 64 (v.toNat % 2 ^ n)
     let window := BitVec.ofNat 64 (v.toNat % 2 ^ 24 + v.toNat / 2 ^ 32 % 2 ^ 24 * 2 ^ 32)
     let root := BitVec.ofNat 64 (v.toNat / 2 ^ 12 % 2 ^ 40 * 4096)
     let Writes := fun (o : Nat) (y : Part) => ∃ s', exec (.configRegisterWrite (at_ o) v) s = .next s' ∧ s'.part p = y ∧ (∀ q, q ≠ p → s'.part q = s.part q) ∧ s'.ms = s.ms ∧
       s'.en = s.en ∧ s'.md = s.md
     let Locks := fun (o : Nat) (c : Locked) => (x.state = .stopped → Writes o { x with cfg := c }) ∧ (x.state ≠ .stopped → Writes o { x with lockerr := true })
     Locks 0x08 { x.cfg with rows := low 32 } ∧ Locks 0x10 { x.cfg with asidw := low 32 } ∧ Locks 0x18 { x.cfg with ways := low 16 } ∧
     (∀ k : Fin 4, Locks (0x20 + 8 * k.val) { x.cfg with hbmw := x.cfg.hbmw.set k window }) ∧ Locks 0x40 { x.cfg with links := low 2 } ∧
     Locks 0x48 { x.cfg with fwgrant := window } ∧ Writes 0x50 { x with btgrant := low 1 } ∧ Writes 0x58 { x with hroot := root } ∧ Writes 0x60 { x with hasid := low 16 } ∧
     (∀ k : Fin 8, Writes (0x80 + 8 * k.val) { x with asroot := x.asroot.set k root } ∧ Writes (0xC0 + 8 * k.val) { x with asasid := x.asasid.set k (low 16) }) ∧
     (∀ ch o c, x.chans[ch]? = some c → ch < 8 → o < 16 → ∃ b, Writes (0x800 + 256 * ch + 8 * o) { x with chans := x.chans.set ch { c with blk := b } } ∧
       b / 2 ^ (64 * o) % 2 ^ 64 = v.toNat ∧ b % 2 ^ (64 * o) = c.blk % 2 ^ (64 * o) ∧ b / 2 ^ (64 * (o + 1)) = c.blk / 2 ^ (64 * (o + 1))) ∧
     (v.getLsbD 1 = false → v.getLsbD 0 = true → exec (.configRegisterWrite (at_ 0) v) s = exec (.run p) s) ∧ (v.getLsbD 1 = true → exec (.configRegisterWrite (at_ 0) v) s = exec (.halt p) s) ∧
     (∀ ch, ch < 8 → exec (.configRegisterWrite (at_ (0x880 + 256 * ch)) v) s = exec (.doorbell p ch) s) ∧
     ∀ o, o % 8 ≠ 0 → exec (.configRegisterWrite o v) s = .next s) ∧
  (∀ (s : State) (who pa : Nat), s.Canonical →
     let Received := fun (s' : State) (r : ReadRes) => s'.md.received = (s.md.received.filter fun x => x.1 != who) ++ [(who, pa, r.bytes, r.poison)]
     (∀ n, s.reaches who pa n = false → exec (.peerAccess who (.read n) pa) s = .next s) ∧
     (∀ n, s.reaches who pa n = true → ∃ s', exec (.peerAccess who (.read n) pa) s = .next s' ∧ s.KeepsBytes s' ∧ s'.wk = s.wk ∧
       (who = 64 → Received s' (s.readBy (s.latest [.host]) pa n) ∧
         ∀ i, i ∈ s'.md.hostObs ↔ i ∈ s.md.hostObs ∨ i ∈ (s.readBy (s.latest [.host]) pa n).wids) ∧
       (who < 64 → Received s' (s.readBy (s.latest ((List.range 4).map (Point.peer who))) pa n) ∧ s'.md.hostObs = s.md.hostObs)) ∧
     (∀ bs, s.reaches who pa bs.length = true → s.partyMayWrite who pa bs.length = true → ∃ s' w, exec (.peerAccess who (.write bs) pa) s = .next s' ∧ s.Keeps s' ∧
       (∀ a, s'.ms.mem.read a = if pa ≤ a ∧ a < pa + bs.length then bs.getD (a - pa) 0 else s.ms.mem.read a) ∧ (∀ a, s'.ms.vault.read a = s.ms.vault.read a) ∧
       w ∈ s'.ms.writes ∧ (∀ i, i < bs.length → w.covers (pa + i) = true) ∧ (s.inHbm pa = true → ∀ p ∈ s.systemPoints, p ∈ w.seen) ∧
       (who = 64 → Point.host ∈ w.seen ∧ w.id ∈ s'.md.hostObs)) ∧
     (∀ bs, s.reaches who pa bs.length = true → s.partyMayWrite who pa bs.length = false → exec (.peerAccess who (.write bs) pa) s = .next s) ∧
     (∀ o op b64 b c, let n := if b64 then 8 else 4
       aopOf o = some op → s.reaches who pa n = true → pa % n = 0 → s.partyMayWrite who pa n = true →
       let r := s.readLast pa n
       (r.poison = true → ∃ s', exec (.peerAccess who (.atomic o b64 b c) pa) s = .next s' ∧ s'.ms = s.ms ∧ s'.wk = s.wk ∧ Received s' r) ∧
       (r.poison = false → ∃ s', exec (.peerAccess who (.atomic o b64 b c) pa) s = .next s' ∧ Received s' r ∧
         ∀ a, s'.ms.mem.read a = match (atomicNew op b64 r.val (b % 2 ^ (8 * n)) (c % 2 ^ (8 * n))).1 with
           | some v => if pa ≤ a ∧ a < pa + n then BitVec.ofNat 8 (v / 2 ^ (8 * (a - pa))) else s.ms.mem.read a
           | none => s.ms.mem.read a)) ∧
     ∀ bs, s.unbooted = false → bs ≠ [] → (∀ i, i < bs.length → s.inHbm (pa + i) = true ∧ s.lost (pa + i) = 0) →
       let fenced := ∃ i p, i < bs.length ∧ p < 16 ∧ (s.part p).state ≠ .stopped ∧ (s.part p).inHbmw (pa + i) = true ∧ inWindow (s.part p).cfg.fwgrant (pa + i) = false
       (fenced → exec (.firmwareMemoryWrite pa bs) s = .next s) ∧
       (¬ fenced → ∃ s' w, exec (.firmwareMemoryWrite pa bs) s = .next s' ∧ w ∈ s'.ms.writes ∧ w.seen = [] ∧ s'.wk = s.wk ∧
         (∀ a, s'.ms.mem.read a = if pa ≤ a ∧ a < pa + bs.length then bs.getD (a - pa) 0 else s.ms.mem.read a) ∧ ∀ a, s'.ms.vault.read a = s.ms.vault.read a))

/-! ## Coherence -/

/-- R260 to R263, R266, R270 to R274: what cores send. A core that waits for a block asks its home slice for it, or to own it, by a numbered
request; it gives up a dirty block by a write-back, drops a clean one with a notice of its grant's number; a
promote message asks to own what entered the gather buffer before its write, and is acknowledged when nothing is left of it; a
signature with more than 320 bits is computed again and goes to the 32 slices of the die.
R262 to R265, R267: a request arrives at a home slice, the first on its route, alone at its block. It is granted where nobody
holds the block, or a read finds it shared, with the next number; the core's mirror takes the block's positions. Otherwise
the owner, and to own it the cores whose mirrors hold it, are probed with the next number. A request beyond the die's right waits
for the directory. A write-back frees the block, its data in L2; a clean owner's drop notice too, and it ends a probe.
R262 to R265, R273: a message arrives at a core, first on its route. A grant gives it the block by its number, its pair in the
signature, and what its gather buffer holds of it stands at every point of the system where it may write. A stale probe changes nothing;
one that invalidates takes every block of its pair, and writes back the other dirty ones;
the answer says if a write-back is pending, or brings data. An acknowledgement ends its probe; with the last the request is granted;
one of no probe is discarded.
R227, R260, R267 to R269: the directory. A party that may ask sends its request; one that arrives alone is granted, with the next number, where
nobody that it must recall holds the block: to own it the home die, the sharers and the peers, to read it the owner; else each is
recalled. A slice without a copy in its die answers a recall at once, and keeps what right is left; the last answer grants the
request; a grant that arrives gives a slice its right, and brings the party's copies up to date. No byte changes. -/
def Obligations.CoherenceMachinerySteps : Prop :=
  (∀ (s : State) (d blk : Nat) (c : CoreId), c.die = d → s.working c = true → s.homed blk = true →
     let Same := fun (s' : State) => s'.ms = s.ms ∧ s'.wk = s.wk ∧ s'.en = s.en ∧ s'.md = s.md
     let g := s.sigOf c
     (s.asking c blk = false →
       (s.l1Of c blk = none → s.wants c blk false = true → ∃ s', exec (.homeReadRequest d blk c) s = .next s' ∧ Same s' ∧
         s'.co.msgs = s.co.msgs ++ [.read d blk c (g.reqs + 1)] ∧ s'.sigOf c = { g with reqs := g.reqs + 1 }) ∧
       (s.l1Of c blk ≠ none → exec (.homeReadRequest d blk c) s = .next s) ∧
       (s.gathered c blk true = [] → s.gathered c blk false ≠ [] → (∀ b, s.l1Of c blk = some b → b.takesWrites = false) →
         (∀ w ∈ s.ms.writes, w.id ∈ s.gathered c blk false → w.inBlk blk = true) → ∃ s', exec (.homeOwnershipRequest d blk c) s = .next s' ∧ s.KeepsBytes s' ∧ s.Keeps s' ∧
         s'.co.msgs = s.co.msgs ++ [.own d blk c (g.reqs + 1)] ∧ s'.sigOf c = { g with reqs := g.reqs + 1 })) ∧
     (∀ b, s.l1Of c blk = some b → b.dirty = true → Msg.wback d blk c ∉ s.co.msgs → Msg.dwback blk d ∉ s.co.msgs → ∃ s', exec (.homeWriteBack d blk c) s = .next s' ∧ Same s' ∧
       s'.l1Of c blk = none ∧ s'.co.msgs = s.co.msgs ++ [.wback d blk c]) ∧
     (∀ b, s.l1Of c blk = some b → b.dirty = false → b.core = c → b.blk = blk → (∀ k, Msg.drop d blk c k ∉ s.co.msgs) → ∃ s', exec (.dropNotice d blk c) s = .next s' ∧ Same s' ∧
       s'.l1Of c blk = none ∧ s'.co.msgs = s.co.msgs ++ [.drop d blk c b.seq]) ∧
     (∀ w a, let m := Msg.promote blk c w a
       m ∈ s.co.msgs → s.first m = true → (∀ b x, Msg.promote b c w x ∈ s.co.msgs → b = blk ∧ x = a) →
       ((∀ r ∈ s.ms.writes, r.id < w → ∀ y ∈ s.co.gather, y.core = c → y.wid ≠ r.id) → ∃ s', exec (.promote c w) s = .next s' ∧ s.KeepsBytes s' ∧ s.Keeps s' ∧
         s'.co.msgs = s.co.msgs.erase m ++ [.pack blk c a]) ∧
       ∀ r, (s.ms.writes.filter fun x => x.id == r.id) = [r] → r.id < w → r.blks = [blk] → s.co.gather = [⟨c, r.id, false⟩] → s.asking c blk = false →
         (∀ b, s.l1Of c blk = some b → b.takesWrites = false) → ∃ s', exec (.promote c w) s = .next s' ∧ s.KeepsBytes s' ∧ s.Keeps s' ∧
         s'.co.msgs = s.co.msgs ++ [.own d blk c (g.reqs + 1)]) ∧
     (let on := fun (x : BitVec 512) => ((List.range 512).filter fun k => x.getLsbD k).length
      let held := ((s.co.l1.filter fun b => b.core == c).map L1Blk.blk) ++ s.asked c
      (on g.sig ≤ 320 → exec (.signatureRebuild c) s = .next s) ∧
      (320 < on g.sig → ∃ s', exec (.signatureRebuild c) s = .next s' ∧ Same s' ∧ (s'.sigOf c).reqs = g.reqs ∧ s'.co.mirrors = s.co.mirrors ∧
        (∀ k, k < 512 → ((s'.sigOf c).sig.getLsbD k = true ↔ ∃ b ∈ held, k = (pairOf b).1 ∨ k = (pairOf b).2)) ∧
        ∀ n, n < 32 → Msg.rebuild c n (s'.sigOf c).sig g.reqs ∈ s'.co.msgs))) ∧
  (∀ (s : State) (d blk : Nat) (c : CoreId), c.die = d →
     let h := s.home d blk
     let n := h.seq + 1
     h.reqs = [] →
     let Same := fun (s' : State) => s'.ms = s.ms ∧ s'.wk = s.wk ∧ s'.en = s.en ∧ s'.md = s.md
     (∀ (own : Bool) (k : Nat),
       let ev := if own then Instr.homeOwnershipRequest d blk c else .homeReadRequest d blk c
       let msg := fun (j : Nat) => if own then Msg.own d blk c j else .read d blk c j
       let r := if own then HReq.own c k else .read c k
       msg k ∈ s.co.msgs → s.first (msg k) = true → (∀ j, msg j ∈ s.co.msgs → j = k) → h.probes = [] →
       let Grants := fun (st new : Moesi) (o : Option CoreId) => ∃ s', exec ev s = .next s' ∧ Same s' ∧ s'.home d blk = { h with seq := n, st := new, owner := o } ∧
         s'.co.msgs.getLast? = some (.grant d blk c n st (st == .m || (st == .e && h.right == .owned))) ∧
         s'.mirrorOf c (sliceOf blk) = { s.mirrorOf c (sliceOf blk) with
           bits := setPair (s.mirrorOf c (sliceOf blk)).bits blk, grants := (s.mirrorOf c (sliceOf blk)).grants ++ [(k, blk)] }
       let Probes := fun (o : CoreId) => ∃ s', exec ev s = .next s' ∧ Same s' ∧ s'.home d blk = { h with seq := n, reqs := [r], probes := [⟨o, n, false⟩] } ∧
         s'.co.msgs = s.co.msgs.erase (msg k) ++ [.probe d blk o n own]
       (h.right.lets r = false → ∃ s', exec ev s = .next s' ∧ Same s' ∧ s'.home d blk = { h with reqs := [r] } ∧ s'.co.msgs = s.co.msgs.erase (msg k)) ∧
       (h.right ≠ .none → own = false →
         (h.st = .i → Grants .e .e (some c)) ∧ (h.st = .s → Grants .s .s none) ∧
         (∀ o, (h.st = .e ∨ h.st = .m ∨ h.st = .o) → h.owner = some o → o ≠ c → Probes o)) ∧
       (h.right = .owned → own = true →
         (h.st = .i → Grants .m .m (some c)) ∧ (h.st = .s → s.mirrored d blk = [] → Grants .m .m (some c)) ∧
         (∀ o, h.st = .s → s.mirrored d blk = [o] → Probes o) ∧ (∀ o, h.st = .o → h.owner = some o → s.mirrored d blk = [o] → Probes o) ∧
         (∀ o, (h.st = .e ∨ h.st = .m) → h.owner = some o → o ≠ c → Probes o))) ∧
     (let m := Msg.wback d blk c
      m ∈ s.co.msgs → s.first m = true → Msg.dwback blk d ∉ s.co.msgs → h.probes = [] → ∃ s', exec (.homeWriteBack d blk c) s = .next s' ∧ Same s' ∧
       s'.home d blk = (if h.owner = some c then { h with owner := none, st := if h.st = .o then .s else .i } else h) ∧
       (s.l2Of d (blk / 2) ≠ none → s'.l2Dirty d blk = true ∧ s'.co.msgs = s.co.msgs.erase m)) ∧
     (∀ k, let m := Msg.drop d blk c k
      m ∈ s.co.msgs → s.first m = true → (∀ j, Msg.drop d blk c j ∈ s.co.msgs → j = k) → h.probes = [] → ∃ s', exec (.dropNotice d blk c) s = .next s' ∧ Same s' ∧
       s'.co.msgs = s.co.msgs.erase m ∧ s'.home d blk = if h.owner = some c ∧ h.st = .e then { h with st := .i, owner := none } else h)) ∧
  ((∀ (s : State) (n d blk : Nat) (c : CoreId) (seq : BitVec 16) (st : Moesi) (wr : Bool), (s.co.msgs.filter Msg.grantLike)[n]? = some (.grant d blk c seq st wr) →
     s.first (.grant d blk c seq st wr) = true →
     ∃ s' b, exec (.grant n) s = .next s' ∧ s.KeepsBytes s' ∧ s.Keeps s' ∧ s'.l1Of c blk = some b ∧ b.seq = seq ∧ b.wr = wr ∧ (b.st = st ∨ b.st = .m) ∧ hasPair (s'.sigOf c).sig blk = true ∧
       (∀ x y, x ≠ c → s'.l1Of x y = s.l1Of x y) ∧ s'.co.homes = s.co.homes ∧
       (wr = true → (st = .e ∨ st = .m) → ∀ w ∈ s.ms.writes, (⟨c, w.id, false⟩ : Gathered) ∈ s.co.gather → w.cells ≠ [] → (∀ x ∈ w.cells, x.1 / 64 = blk) →
         ∃ w' ∈ s'.ms.writes, w'.id = w.id ∧ ∀ p ∈ Point.die c.die :: s.systemPoints, s'.visibleAt w' p = true)) ∧
   (∀ (s : State) (n d blk : Nat) (c : CoreId) (seq : BitVec 16) (inv : Bool), (s.co.msgs.filter Msg.control)[n]? = some (.probe d blk c seq inv) →
     s.first (.probe d blk c seq inv) = true →
     let m := Msg.probe d blk c seq inv
     let stale := (s.l1Of c blk).any fun b => decide (1 ≤ (b.seq - seq).toNat) && decide ((b.seq - seq).toNat < 2 ^ 15)
     let kind : AckKind := if s.writingBack blk c then .pending else if (s.l1Of c blk).any L1Blk.dirty then .data else .clean
     let Same := fun (s' : State) => s'.ms = s.ms ∧ s'.wk = s.wk ∧ s'.en = s.en ∧ s'.md = s.md ∧ s'.co.homes = s.co.homes
     (s.granting d blk c seq = true → exec (.probe n) s = .next s) ∧
     (s.granting d blk c seq = false → stale = true → ∃ s', exec (.probe n) s = .next s' ∧ Same s' ∧ s'.co.l1 = s.co.l1 ∧ s'.co.msgs = s.co.msgs.erase m ++ [.ack d blk c seq .clean]) ∧
     (s.granting d blk c seq = false → stale = false → inv = true → ∃ s' ws, exec (.probe n) s = .next s' ∧ Same s' ∧
       (∀ b, b ∈ s'.co.l1 ↔ b ∈ s.co.l1 ∧ ¬ (b.core = c ∧ pairOf b.blk = pairOf blk)) ∧ s'.co.msgs = s.co.msgs.erase m ++ ws ++ [.ack d blk c seq kind] ∧
       ∀ x, x ∈ ws ↔ ∃ b ∈ s.co.l1, b.core = c ∧ pairOf b.blk = pairOf blk ∧ b.dirty = true ∧ b.blk ≠ blk ∧ x = .wback c.die b.blk c) ∧
     (s.granting d blk c seq = false → stale = false → inv = false → ∃ s', exec (.probe n) s = .next s' ∧ Same s' ∧ s'.co.msgs = s.co.msgs.erase m ++ [.ack d blk c seq kind] ∧
       s'.co.l1 = s.co.l1.map fun b => if b.core = c ∧ b.blk = blk then { b with st := if b.dirty = true then .o else .s, wr := false } else b)) ∧
   ∀ (s : State) (n d blk : Nat) (c : CoreId) (seq : BitVec 16) (kind : AckKind), (s.co.msgs.filter Msg.ackLike)[n]? = some (.ack d blk c seq kind) →
     s.first (.ack d blk c seq kind) = true →
     let m := Msg.ack d blk c seq kind
     let h := s.home d blk
     ∃ s', exec (.probeAcknowledgement n) s = .next s' ∧ s'.ms = s.ms ∧ s'.wk = s.wk ∧
       ((∀ p ∈ h.probes, ¬ (p.core = c ∧ p.seq = seq)) → s'.co.msgs = s.co.msgs.erase m ∧ s'.co.homes = s.co.homes) ∧
       (∀ q, h.probes = [q] → q.core = c → q.seq = seq → kind = .pending → s.writingBack blk c = true → s'.home d blk = { h with probes := [{ q with pending := true }] } ∧
         s'.co.msgs = s.co.msgs.erase m) ∧
       (∀ q p, kind = .clean → h.probes = [q, p] → q.core = c → q.seq = seq → ¬ (p.core = c ∧ p.seq = seq) → s'.home d blk = { h with probes := [p] } ∧ s'.co.msgs = s.co.msgs.erase m) ∧
       (∀ q e k, kind ≠ .pending → h.probes = [q] → q.core = c → q.seq = seq → h.reqs = [.own e k] →
         s'.home d blk = { h with seq := h.seq + 1, st := .m, owner := some e, reqs := [], probes := [] } ∧ s'.co.msgs.getLast? = some (.grant d blk e (h.seq + 1) .m true)) ∧
       ∀ q e k, kind ≠ .pending → h.probes = [q] → q.core = c → q.seq = seq → h.reqs = [.read e k] →
         (h.st = .m ∨ h.st = .o ∨ h.st = .e ∧ kind = .data → s'.home d blk = { h with seq := h.seq + 1, st := .o, reqs := [], probes := [] }) ∧
         (h.st = .e → kind = .clean → s'.home d blk = { h with seq := h.seq + 1, st := .s, owner := none, reqs := [], probes := [] }) ∧
         s'.co.msgs.getLast? = some (.grant d blk e (h.seq + 1) .s false)) ∧
  (∀ (s : State) (blk : Nat), s.homed blk = true →
     let e := s.dirOf blk
     let hd := s.blkDie blk
     let Same := fun (s' : State) => s'.ms = s.ms ∧ s'.wk = s.wk ∧ s'.en = s.en ∧ s'.md = s.md
     (∀ who own, s.mayAsk blk who own = true → s.dirAsking blk who = false → ∃ s', exec (.directoryRequest blk who own) s = .next s' ∧ Same s' ∧
       s'.co.msgs = s.co.msgs ++ [.dreq blk who own]) ∧
     (∀ who own, s.mayAsk blk who own = false → s.dirAsking blk who = false → exec (.directoryRequest blk who own) s = .next s) ∧
     (∀ who own w, w ∈ (s.dirRecalls blk who own).1 ↔ s.partyGone w = false ∧
       if own = true then (w = hd ∧ hd ≠ who ∧ (s.home hd blk).right ≠ .none) ∨ (w < 5 ∧ w ≠ who ∧ w ≠ hd ∧ e.st.sharers.getLsbD w = true) ∨ w ∈ s.peerSharers e.peers
       else (e.st = .owned w ∧ w ≠ who) ∨ (e.st = .uncached ∧ w = hd ∧ hd ≠ who ∧ (s.home hd blk).right = .owned)) ∧
     (∀ who own, let m := Msg.dreq blk who own
       m ∈ s.co.msgs → s.first m = true → s.partyUp who = true → s.partyGone who = false → e.reqs = [] → e.probes = [] →
       ((s.dirRecalls blk who own).1 = [] → ∃ s', exec (.directoryRequest blk who own) s = .next s' ∧ Same s' ∧ (s'.dirOf blk).seq = e.seq + 1 ∧ (s'.dirOf blk).reqs = [] ∧
         (own = true → (s'.dirOf blk).st = (if who = hd then .uncached else .owned who) ∧ (s'.dirOf blk).peers = 0 ∧ s'.co.msgs = s.co.msgs.erase m ++ [.dgrant blk who (e.seq + 1) true]) ∧
         (own = false → who < 5 → who ≠ hd → (s'.dirOf blk).st = .shared (e.st.sharers ||| BitVec.ofNat 5 (2 ^ who)) ∧ (s'.dirOf blk).peers = e.peers ∧
           s'.co.msgs = s.co.msgs.erase m ++ [.dgrant blk who (e.seq + 1) false]) ∧
         (own = false → 8 ≤ who → (s'.dirOf blk).st = .shared e.st.sharers ∧ (s'.dirOf blk).peers = e.peers ||| BitVec.ofNat 8 (2 ^ ((who - 8) / 8)))) ∧
       ∀ w, (s.dirRecalls blk who own).1 = [w] → ∃ s', exec (.directoryRequest blk who own) s = .next s' ∧ Same s' ∧
         s'.dirOf blk = { e with seq := e.seq + 1, reqs := [(who, own)], probes := [(w, e.seq + 1, false)] } ∧
         s'.co.msgs = s.co.msgs.erase m ++ [.recall blk w (e.seq + 1) own]) ∧
     (∀ n w seq inv, let m := Msg.recall blk w seq inv
       (s.co.msgs.filter Msg.control)[n]? = some m → s.first m = true → s.dirGranting blk w seq = false → s.partyUp w = true →
       (4 ≤ w → ∃ s', exec (.probe n) s = .next s' ∧ Same s' ∧ s'.co.msgs = s.co.msgs.erase m ++ [.dack blk w seq .clean]) ∧
       (w < 4 → older seq (s.home w blk).dseq = false → s.dieWritingBack blk w = false → (s.home w blk).st = .i → (s.home w blk).reqs = [] → (s.home w blk).probes = [] →
         ∃ s', exec (.probe n) s = .next s' ∧ Same s' ∧ (s'.home w blk).st = .i ∧ (s'.home w blk).dseq = seq ∧
           (s'.home w blk).right = (if inv = true ∨ (s.home w blk).right = .none then .none else .shared) ∧
           s'.co.msgs = s.co.msgs.erase m ++ [.dack blk w seq (if s.l2Dirty w blk = true then .data else .clean)])) ∧
     (∀ n w seq kind who, let m := Msg.dack blk w seq kind
       (s.co.msgs.filter Msg.ackLike)[n]? = some m → s.first m = true → s.partyUp w = true → kind ≠ .pending → s.partyGone who = false →
       (∃ b, e.probes = [(w, seq, b)]) → e.reqs = [(who, true)] →
       ∃ s', exec (.probeAcknowledgement n) s = .next s' ∧ Same s' ∧ (s'.dirOf blk).st = (if who = hd then .uncached else .owned who) ∧ (s'.dirOf blk).peers = 0 ∧
         (s'.dirOf blk).reqs = [] ∧ (s'.dirOf blk).probes = [] ∧ s'.co.msgs = s.co.msgs.erase m ++ [.dgrant blk who (e.seq + 1) true]) ∧
     ∀ n who seq own, let m := Msg.dgrant blk who seq own
       (s.co.msgs.filter Msg.grantLike)[n]? = some m → s.first m = true → s.partyUp who = true → (who < 4 → (s.home who blk).reqs = []) →
       ∃ s', exec (.grant n) s = .next s' ∧ s.KeepsBytes s' ∧ s.Keeps s' ∧ s'.co.msgs = s.co.msgs.erase m ∧
         (who < 4 → s'.home who blk = { s.home who blk with right := if own = true then .owned else .shared, dseq := seq }) ∧
         ∀ w ∈ s.ms.writes, w.inBlk blk = true → w.seenAt (s.dies.map Point.die) = true → ∃ w' ∈ s'.ms.writes, w'.id = w.id ∧ ∀ p ∈ partyPoints who, p ∈ w'.seen)

/-! ## Errors, links, wear -/

/-- R423 to R429, R435: a corrected error raises its die's count, and the 16th of a unit within an hour writes an entry; poison falls on the last write of each byte of a block, or on a vault
word, with an entry of severity 2; an error of the register file marks the register. An error of an accumulator element marks it, under place 3, with no entry (log 72).
R392, R429, R430: failed flits in a row are counted, and the 32nd asks for a retrain (log 73); a retrain starts, unless four have started within a second; a retrain refused, or two in a row that fail, let the link go
down, with the devices beyond it; then a read ends with cause 0x20, reason 3, and a store is discarded, with an entry.
R431 to R433, R435, R436: a die that fails takes its partitions and launches with it: STATE 0, KILL with cause 0x20, reason 4; salvage copies a lost block, with its poison, to the host's memory;
an estimate of age is kept, a change of its STATE is logged, and state 3 fails the die. -/
def Obligations.ErrorsLinksAndDies : Prop :=
  ((∀ (s : State) (place die unit : Nat), place < 6 → die < 4 → s.unbooted = false →
     let key := place + 16 * (die + 4 * unit)
     let cnt := fun (x : Dword) (k : Nat) => x.toNat / 2 ^ (16 * k) % 2 ^ 16
     let now := s.clock.toNat
     let sixteen := 15 ≤ (s.md.corrected.filter fun e => e.1 == key && decide (now < e.2 + 3600 * 1300000000)).length
     ∃ s', exec (.correctedError place die unit) s = .next s' ∧ s'.wk = s.wk ∧ s'.ms = s.ms ∧
       (∀ k, k < 4 → cnt s'.md.errsum k = if k = die then min (2 ^ 16 - 1) (cnt s.md.errsum k + 1) else cnt s.md.errsum k) ∧
       (¬ sixteen → s'.md.errhead = s.md.errhead ∧ s'.md.errlog = s.md.errlog) ∧
       (sixteen → s'.md.errhead = s.md.errhead + 1 ∧ (∀ e ∈ s'.md.corrected, e.1 ≠ key) ∧
         ∃ e, (s.md.errhead.toNat % 128, e) ∈ s'.md.errlog ∧ e.sev = 1 ∧ e.place = BitVec.ofNat 4 place ∧ e.die = BitVec.ofNat 2 die ∧ e.time = s.clock)) ∧
   (∀ (s : State) (addr : Nat), s.unbooted = false → (∀ w ∈ s.ms.writes, w.id ≠ 0 ∧ (s.ms.writes.find? fun r => r.id == w.id) = some w) →
     let Logs := fun (s' : State) (place die : Nat) => s'.md.errhead = s.md.errhead + 1 ∧ s.KeepsBytes s' ∧ s'.wk = s.wk ∧
       ∃ e, (s.md.errhead.toNat % 128, e) ∈ s'.md.errlog ∧ e.sev = 2 ∧ e.place = BitVec.ofNat 4 place ∧ e.die = BitVec.ofNat 2 die
     (s.inHbm addr = true → ∃ s', exec (.poison 0 addr) s = .next s' ∧ Logs s' 0 (s.homeDie addr) ∧ ∀ x, x / 64 = addr / 64 → s'.poisonOf (s.lastWrite x) x = true) ∧
     (s.inMap addr = true → ∃ s', exec (.poison 1 addr) s = .next s' ∧ Logs s' 1 (if s.inHbm addr = true then s.homeDie addr else 0) ∧
       ∀ x, x / 64 = addr / 64 → s'.poisonOf (s.lastWrite x) x = true) ∧
     (addr < 2 ^ 32 → addr / 2 ^ 22 % 4 = 0 → s.md.dies.getLsbD (addr / 2 ^ 30) = true → s.md.failed.getLsbD (addr / 2 ^ 30) = false → ∃ s', exec (.poison 2 addr) s = .next s' ∧
       Logs s' 2 (addr / 2 ^ 30) ∧ ∀ w, w ∈ s'.ms.vpoison ↔ w ∈ s.ms.vpoison ∨ w = addr / 4 * 4) ∧
     ∀ c, s.ctx (addr / 2 ^ 13) = some c → ∃ s' y, exec (.poison 3 addr) s = .next s' ∧ s.KeepsBytes s' ∧ s'.wk = s.wk ∧ s'.md = s.md ∧ s'.ctx (addr / 2 ^ 13) = some y ∧
       y = { c with badElems := y.badElems } ∧ ∀ k, k ∈ y.badElems ↔ k ∈ c.badElems ∨ k = addr % 2 ^ 13) ∧
   ∀ (s : State) (t : Thread) (r : Nat), s.thread t.id = some t → t.exited = false → r < t.place.budget → r ∉ t.out.bad →
     ∃ s', exec (.registerFileError t.id r) s = .next s' ∧ s.Becomes s' t { t with out := { t.out with bad := t.out.bad ++ [r] } }) ∧
  ((∀ (s : State) (l : HLink) (ok : Bool), s.link l.id = some l → s.unbooted = false →
     let Link := fun (s' : State) (y : HLink) => s'.link l.id = some y ∧ (∀ k, k ≠ l.id → s'.link k = s.link k) ∧ s'.wk = s.wk ∧ s'.ms = s.ms
     let late := l.starts.filter fun t => decide (s.clock.toNat < t + 1300000000)
     let trained := fun (y : HLink) => if 4 ≤ late.length then { y with starts := late, bad := 2 } else { y with starts := late ++ [s.clock.toNat], training := some s.clock.toNat }
     (l.down = false → l.training = none → ∃ s', exec (.flitRetry l.id ok) s = .next s' ∧ Link s'
       (if ok = true then { l with fails := 0 } else if l.fails + 1 < 32 then { l with fails := l.fails + 1 } else trained { l with fails := 0 })) ∧
     (l.down = false → l.training = none → ∃ s', exec (.linkRetrain l.id) s = .next s' ∧ Link s' (trained l)) ∧
     (l.training ≠ none → ∃ s', exec (.retrainComplete l.id ok) s = .next s' ∧ Link s' { l with training := none, fails := 0, bad := if ok = true then 0 else l.bad + 1 }) ∧
     (l.down = false → 2 ≤ l.bad → ∃ s', exec (.linkDown l.id) s = .next s' ∧ Link s' { l with down := true, training := none } ∧
       (l.id = 0 → s'.md.cut = s.md.cut) ∧ (l.id ≠ 0 → ∀ k, k < 64 → (s'.md.cut.getLsbD k = true ↔ s.md.cut.getLsbD k = true ∨ portOf k = l.id))) ∧
     (l.down = false → l.bad < 2 → exec (.linkDown l.id) s = .next s)) ∧
   ∀ (s : State) (a : Access) (t : Thread) (p : APart) (pa : Nat), s.access a.id = some a → (∀ b ∈ s.ms.accs, b.id = a.id → b = a) → s.thread a.tid = some t → t.exited = false →
     a.vault = false → s.ordered a = true → a.parts = [p] → p.done = false → s.partAt a t.xl p = some pa → s.linkCut pa = true →
     (∀ d sz sx, a.kind = .load d sz sx → ∃ s' y, exec (.downLinkTimeout a.id) s = .next s' ∧ s.KeepsBytes s' ∧ s'.access a.id = none ∧ s'.thread t.id = some y ∧
       ∃ c ∈ y.out.causes, c.cause = 0x20 ∧ c.reason = 3 ∧ c.addr = p.ea) ∧
     (∀ bs, a.kind = .store bs → ∃ s', exec (.downLinkTimeout a.id) s = .next s' ∧ s.KeepsBytes s' ∧ s'.access a.id = none ∧ s'.md.errhead = s.md.errhead + 1 ∧
       ∃ e, (s.md.errhead.toNat % 128, e) ∈ s'.md.errlog ∧ e.sev = 2 ∧ e.addr = BitVec.ofNat 64 pa ∧ e.place = 5)) ∧
  ((∀ (s : State) (d : Nat), s.unbooted = false → d < 4 → s.md.dies.getLsbD d = true → s.md.failed.getLsbD d = false →
     let named := fun (p : Nat) => p < 16 ∧ (s.part p).state ≠ .stopped ∧ ∃ y, y < 8 ∧ (s.part p).hasRow d y = true
     ∃ s', exec (.dieFailure d) s = .next s' ∧ s'.md.failed = s.md.failed ||| BitVec.ofNat 4 (2 ^ d) ∧ s.KeepsBytes s' ∧
       (∀ p, p < s.wk.parts.length → named p → (s'.part p).state = .stopped) ∧
       (∀ l, s.launch l.id = some l → l.id ≠ 0 → named l.part → ∃ y k, s'.launch l.id = some y ∧ y.killed = some k ∧ (l.killed = none → k % 2 ^ 12 = 0x20 + 4 * 2 ^ 8)) ∧
       (∀ a ∈ s'.ms.accs, a.core.die ≠ d) ∧ (∀ c ∈ s'.en.ctxs, c.core.die ≠ d) ∧
       s'.md.errhead = s.md.errhead + 1 ∧ ∃ e, (s.md.errhead.toNat % 128, e) ∈ s'.md.errlog ∧ e.sev = 3 ∧ e.die = BitVec.ofNat 2 d ∧ e.place.toNat < 6) ∧
   (∀ (s : State) (blk dst : Nat), s.unbooted = false → s.lost (64 * blk) ≠ 0 → dst % 64 = 0 → isHost dst = true → s.linkBusy 0 = false → s.Canonical →
     ∃ s', exec (.salvageCopy blk dst) s = .next s' ∧ s'.wk = s.wk ∧ (blk, dst) ∈ s'.md.salvaged ∧ (∀ a, s'.ms.vault.read a = s.ms.vault.read a) ∧
       (∀ a, (a < dst ∨ dst + 64 ≤ a) → s'.ms.mem.read a = s.ms.mem.read a) ∧
       (s.lost (64 * blk) = 1 → ∀ k, k < 64 → s'.ms.mem.read (dst + k) = s.byteOf (s.lastWrite (64 * blk + k)) (64 * blk + k)) ∧
       ∃ w ∈ s'.ms.writes, w.seen = [.host] ∧ ∀ k, k < 64 → w.covers (dst + k) = true) ∧
   ∀ (s : State) (d hours margin : Nat) (old : Age), s.unbooted = false → d < 4 → hours < 2 ^ 32 → margin < 64 → s.md.ages[d]? = some old →
     let st : BitVec 2 := if margin = 0 then 3 else if hours < 720 then 2 else if hours < 8760 then 1 else 0
     ∃ s', exec (.ageingEstimate d hours margin) s = .next s' ∧ s'.md.ages[d]? = some ⟨BitVec.ofNat 32 hours, BitVec.ofNat 6 margin, st⟩ ∧
       (st = old.state → s'.md.errhead = s.md.errhead ∧ s'.md.failed = s.md.failed) ∧
       (st ≠ old.state → s'.md.errhead = s.md.errhead + 1 ∧ ∃ e, (s.md.errhead.toNat % 128, e) ∈ s'.md.errlog ∧ e.sev = (if st = 3 then 3 else 1) ∧ e.die = BitVec.ofNat 2 d) ∧
       (st ≠ old.state → st = 3 → s.md.dies.getLsbD d = true → s'.md.failed.getLsbD d = true) ∧ (st ≠ 3 → s'.md.failed = s.md.failed))

/-! ## Copies and queues complete -/

/-- R276, R277, R279, R280, R286, R288, R294, R298: a copy whose block has been read, and passes its checks, is admitted to a channel with a free slot, with its
promise; CPUB and CSHAD.OFF are once every earlier copy operation of the context is. A copy or a fill that is admitted and may start, its
turn come, begins and moves its next unit; or it takes a unit out of order in hand, as it may (R288), and writes a piece it has in
hand later.
R366 to R372: every queue instruction completes on a queue of its kind: QPUSH waits for its push, whose record is the words of its registers; QPOP and
QTRY of a queue that has nothing to take go on at once, and one that takes a record is answered by it; QCLOSE closes; QQRY answers; a
push that may take its step puts its record last, in the lowest free berth, and its thread goes on. -/
def Obligations.CopyAndQueueFormsComplete : Prop :=
  ((∀ (s : State) (c : Copy) (n : Nat), s.copy c.id = some c → c.adm = none → c.stalled = false → c.finished = false → c.fault = none → s.channelFor c = some n →
     (∀ b bytes, c.kind.block = true → c.extra = [] → c.raw = some (b, false) → (∀ a ∈ s.ms.accs, a.kind ≠ .copyBlock c.id) → checkBlock c.kind b = (none, bytes) →
       ∃ s' y, exec (.copyAdmission c.id) s = .next s' ∧ s'.copy c.id = some y ∧ y.adm = some s.nextId ∧ y.chan = n ∧ y.bits = some b ∧ y.bytes = bytes ∧
         y.promise = some (s.clock.toNat + s.copyCycles c b bytes + s.backlog c.core n) ∧ y.finished = false ∧ s.KeepsBytes s') ∧
     (∀ sh, (c.kind = .pub sh ∨ c.kind = .off sh) → (∀ x ∈ s.priorCopies c, x.adm ≠ none) →
       ∃ s' y, exec (.copyAdmission c.id) s = .next s' ∧ s'.copy c.id = some y ∧ y.adm = some s.nextId ∧ y.chan = n ∧ y.promise = some (s.pubPromise c) ∧
         y.finished = false ∧ s.KeepsBytes s')) ∧
   ∀ (s : State) (c : Copy) (t : Thread) (b o key : Nat) (pat : Word), s.copy c.id = some c → c.bits = some b → c.stalled = false → c.finished = false → c.fault = none →
     (c.started = true ∨ (s.mayStart c = true ∧ s.servedNow c = true)) → s.thread c.tid = some t → c.kind = .fill pat → (denseDst b).vault = true →
     let px := o % denseX b
     let da := (denseDst b).at px (o / denseX b % denseY b) (o / denseX b / denseY b)
     let n := min (denseX b - px) (4 - da % 4)
     let bs := (List.range n).map fun i => BitVec.ofNat 8 (pat.toNat / 2 ^ (8 * ((da + i) % 4)))
     (px = 0 ∨ da % 4 = 0) →
     (o = c.done → c.early = [] → o < c.bytes → s.vaultKey t.place da n false = .ok key → ∃ s' y, exec (.copyStart c.id (.units 1)) s = .next s' ∧ s'.copy c.id = some y ∧
       y.started = true ∧ y.done = o + n ∧ ∀ e, s'.ms.mem.read e = s.ms.mem.read e) ∧
     (o ≠ c.done → c.opens o = true → ∃ s' y, exec (.copyStart c.id (.take o)) s = .next s' ∧ s'.copy c.id = some y ∧ y.started = true ∧ y.done = c.done ∧
       y.early = c.early ++ [(o, n)] ∧ y.held = c.held ++ [⟨true, da, bs, false⟩] ∧ s.KeepsBytes s') ∧
     ∀ k p, c.held[k]? = some p → p.vault = true → s.vaultKey t.place p.addr p.bytes.length false = .ok key → s.Canonical →
       ∃ s' y, exec (.copyStart c.id (.put k)) s = .next s' ∧ s'.copy c.id = some y ∧ y.held = c.held.eraseIdx k ∧ y.done = c.done ∧
         (∀ e, s'.ms.vault.read e = if key ≤ e ∧ e < key + p.bytes.length then p.bytes.getD (e - key) 0 else s.ms.vault.read e) ∧
         ∀ e, s'.ms.mem.read e = s.ms.mem.read e) ∧
  ((∀ (s : State) (t : Thread) (h : Gd) (d a st : Opnd) (q : Fin 8) (sc : Scope) (gg : Gang) (sg gl qn : Nat) (qu : Queue),
     s.stageOf t = some (gg, sg) → s.binding t q.val = some (gl, qn) → s.queue gl qn = some qu →
     let n := quSize qu.entry / 4
     let fits := fun (o : Opnd) => o.spanOk n = true ∧ inBudget t.place.budget (o, n) = true ∧ s.pending t (spanRefs (o, n)) = false
     (1 ≤ q.val → fits a → (useRW [(a, n)] []).readsBad t = false → s.Runs h (.qpush h q a sc) t → ∃ s' y z, exec (.qpush h q a sc) s = .next s' ∧
       s'.thread t.id = some y ∧ y.wait = .push s.nextId ∧ z ∈ s'.ms.accs ∧ z.id = s.nextId ∧ z.kind = .push gl qn ((List.range n).map (s.rdReg t a)) ∧ s.KeepsBytes s') ∧
     (q.val = 0 → fits d → ∀ try_ : Bool,
       let i : Instr := if try_ then .qtry h d q st sc else .qpop h d q st sc
       let next := (qu.recs.filter (fun r => r.holder == some t.place.grp) ++ if try_ then qu.recs.filter (fun r => r.holder.isNone) else []).head?
       s.Runs h i t →
       (next = none → ∃ s' y, exec i s = .next s' ∧ s'.thread t.id = some y ∧ y.pos = t.advance.pos ∧ s.KeepsBytes s' ∧
         (∀ r, r < 128 → newV st [0] r = none → y.regs.getV r = (newV d (List.replicate n 0) r).getD (t.regs.getV r))) ∧
       ∀ r, next = some r → s.ordered (recordAccess t s.nextId gg qu r) = true → ∃ s' y z l, exec i s = .next s' ∧ s'.thread t.id = some y ∧ y.pos = t.advance.pos ∧
         z ∈ s'.ms.accs ∧ z.id = s.nextId ∧ z.tid = t.id ∧ z.kind = .record d st l) ∧
     (1 ≤ q.val → s.Runs h (.qclose h q) t → ∃ s' x, exec (.qclose h q) s = .next s' ∧ s'.thread t.id = some t.advance ∧ s'.queue gl qn = some x ∧ x.closed = true ∧
       x.recs = qu.recs ∧ s'.ms = s.ms) ∧
     (s.Runs h (.qqry h d q) t → ∃ s' y, exec (.qqry h d q) s = .next s' ∧ s'.thread t.id = some y ∧ y.pos = t.advance.pos ∧ s.KeepsBytes s' ∧
       ∀ r, r < 128 → d = .v ⟨r % 128, Nat.mod_lt _ (by decide)⟩ → y.regs.getV r = BitVec.ofNat 32 (min (2 ^ 32 - 1) qu.recs.length))) ∧
   ∀ (s : State) (a : Access) (t : Thread) (g q n : Nat) (ws : List Word) (gg : Gang) (qu : Queue),
     s.access a.id = some a → a.kind = .push g q ws → a.parts = [⟨0, 0, 0, false, 0, none, false, none, none⟩] → s.thread a.tid = some t → t.exited = false →
     s.ordered a = true → s.pushBehind a g q = false → s.gang g = some gg → s.queue g q = some qu → qu.closed = false → qu.spilled = [] →
     lowestFree (quBerths qu.entry) (qu.recs.map QRec.at_) = some n → ∃ s' x y, exec (.pushQueueStep a.id) s = .next s' ∧ s'.queue g q = some x ∧
       x.recs = qu.recs ++ [⟨ws, s.clock.toNat, false, n, none, 0⟩] ∧ s'.thread t.id = some y ∧ y.wait = .none ∧ y.regs = t.regs ∧
       ∀ e, s'.ms.mem.read e = s.ms.mem.read e)

/-! ## The transcendentals -/

/-- R102: FEX2, FLG2, FSINPI and FCOSPI round, to nearest, half a unit beyond a number q of units, which agrees with 2^A, log2 A,
sin(π·A) or cos(π·A) to one part in 2^100, at every FP32 operand at which the exact value is no number of few bits: A no integer
for FEX2, no power of two for FLG2, and twice A no integer for the other two. How near the functions come to the middle of two
FP32 numbers decides that this is the exact value rounded once (log 12). -/
def Obligations.TranscendentalsAreEnclosed : Prop :=
  ∀ (n isCos : Bool) (m : Nat) (e : Int), 0 < m → m < 2 ^ 24 → -149 ≤ e → e ≤ 104 →
    let near := fun (f : ℝ) (q : Nat) (j : Int) => |(|f|) - ((q : ℝ) + 1 / 2) * (2 : ℝ) ^ j| ≤ |f| / 2 ^ 100
    let x : ℝ := (if n then -1 else 1) * (m : ℝ) * (2 : ℝ) ^ e
    ((∀ z : Int, x ≠ z) → -126 ≤ x → x < 128 →
      ∃ q j, fex2F (.fin n m e) = roundTo fp32 .rn false (2 * q + 1) (j - 1) ∧ near ((2 : ℝ) ^ x) q j) ∧
    (n = false → (∀ k : Nat, m ≠ 2 ^ k) →
      ∃ q j s, flg2F (.fin n m e) = roundTo fp32 .rn s (2 * q + 1) (j - 1) ∧ (s = true ↔ Real.logb 2 x < 0) ∧ near (Real.logb 2 x) q j) ∧
    ((∀ z : Int, 2 * x ≠ z) →
      let f := if isCos then Real.cos (Real.pi * x) else Real.sin (Real.pi * x)
      ∃ q j s, trigPiF isCos (.fin n m e) = roundTo fp32 .rn s (2 * q + 1) (j - 1) ∧ (s = true ↔ f < 0) ∧ near f q j)
end

