-- ==== Sys2Proof/Laws/State.lean ====
section
/-!
SUPPORT. What each update of the state leaves as it was, one equation for each field.
-/
namespace Sys2Proof.Machine


/-! ## One side of the state -/

@[simp] theorem State.onMs_clock (s : State) (f : MemState → MemState) : (s.onMs f).clock = s.clock := rfl
@[simp] theorem State.onMs_tick (s : State) (f : MemState → MemState) : (s.onMs f).tick = s.tick := rfl
@[simp] theorem State.onMs_free (s : State) (f : MemState → MemState) : (s.onMs f).free = s.free := rfl
@[simp] theorem State.onMs_nextId (s : State) (f : MemState → MemState) : (s.onMs f).nextId = s.nextId := rfl
@[simp] theorem State.onMs_agenda (s : State) (f : MemState → MemState) : (s.onMs f).agenda = s.agenda := rfl
@[simp] theorem State.onMs_focus (s : State) (f : MemState → MemState) : (s.onMs f).focus = s.focus := rfl
@[simp] theorem State.onMs_md (s : State) (f : MemState → MemState) : (s.onMs f).md = s.md := rfl
@[simp] theorem State.onMs_ms (s : State) (f : MemState → MemState) : (s.onMs f).ms = f s.ms := rfl
@[simp] theorem State.onMs_en (s : State) (f : MemState → MemState) : (s.onMs f).en = s.en := rfl
@[simp] theorem State.onMs_co (s : State) (f : MemState → MemState) : (s.onMs f).co = s.co := rfl
@[simp] theorem State.onMs_wk (s : State) (f : MemState → MemState) : (s.onMs f).wk = s.wk := rfl
@[simp] theorem State.onEn_clock (s : State) (f : EngState → EngState) : (s.onEn f).clock = s.clock := rfl
@[simp] theorem State.onEn_tick (s : State) (f : EngState → EngState) : (s.onEn f).tick = s.tick := rfl
@[simp] theorem State.onEn_free (s : State) (f : EngState → EngState) : (s.onEn f).free = s.free := rfl
@[simp] theorem State.onEn_nextId (s : State) (f : EngState → EngState) : (s.onEn f).nextId = s.nextId := rfl
@[simp] theorem State.onEn_agenda (s : State) (f : EngState → EngState) : (s.onEn f).agenda = s.agenda := rfl
@[simp] theorem State.onEn_focus (s : State) (f : EngState → EngState) : (s.onEn f).focus = s.focus := rfl
@[simp] theorem State.onEn_md (s : State) (f : EngState → EngState) : (s.onEn f).md = s.md := rfl
@[simp] theorem State.onEn_ms (s : State) (f : EngState → EngState) : (s.onEn f).ms = s.ms := rfl
@[simp] theorem State.onEn_en (s : State) (f : EngState → EngState) : (s.onEn f).en = f s.en := rfl
@[simp] theorem State.onEn_co (s : State) (f : EngState → EngState) : (s.onEn f).co = s.co := rfl
@[simp] theorem State.onEn_wk (s : State) (f : EngState → EngState) : (s.onEn f).wk = s.wk := rfl
@[simp] theorem State.onCo_clock (s : State) (f : CohState → CohState) : (s.onCo f).clock = s.clock := rfl
@[simp] theorem State.onCo_tick (s : State) (f : CohState → CohState) : (s.onCo f).tick = s.tick := rfl
@[simp] theorem State.onCo_free (s : State) (f : CohState → CohState) : (s.onCo f).free = s.free := rfl
@[simp] theorem State.onCo_nextId (s : State) (f : CohState → CohState) : (s.onCo f).nextId = s.nextId := rfl
@[simp] theorem State.onCo_agenda (s : State) (f : CohState → CohState) : (s.onCo f).agenda = s.agenda := rfl
@[simp] theorem State.onCo_focus (s : State) (f : CohState → CohState) : (s.onCo f).focus = s.focus := rfl
@[simp] theorem State.onCo_md (s : State) (f : CohState → CohState) : (s.onCo f).md = s.md := rfl
@[simp] theorem State.onCo_ms (s : State) (f : CohState → CohState) : (s.onCo f).ms = s.ms := rfl
@[simp] theorem State.onCo_en (s : State) (f : CohState → CohState) : (s.onCo f).en = s.en := rfl
@[simp] theorem State.onCo_co (s : State) (f : CohState → CohState) : (s.onCo f).co = f s.co := rfl
@[simp] theorem State.onCo_wk (s : State) (f : CohState → CohState) : (s.onCo f).wk = s.wk := rfl
@[simp] theorem State.onWk_clock (s : State) (f : WorkState → WorkState) : (s.onWk f).clock = s.clock := rfl
@[simp] theorem State.onWk_tick (s : State) (f : WorkState → WorkState) : (s.onWk f).tick = s.tick := rfl
@[simp] theorem State.onWk_free (s : State) (f : WorkState → WorkState) : (s.onWk f).free = s.free := rfl
@[simp] theorem State.onWk_nextId (s : State) (f : WorkState → WorkState) : (s.onWk f).nextId = s.nextId := rfl
@[simp] theorem State.onWk_agenda (s : State) (f : WorkState → WorkState) : (s.onWk f).agenda = s.agenda := rfl
@[simp] theorem State.onWk_focus (s : State) (f : WorkState → WorkState) : (s.onWk f).focus = s.focus := rfl
@[simp] theorem State.onWk_md (s : State) (f : WorkState → WorkState) : (s.onWk f).md = s.md := rfl
@[simp] theorem State.onWk_ms (s : State) (f : WorkState → WorkState) : (s.onWk f).ms = s.ms := rfl
@[simp] theorem State.onWk_en (s : State) (f : WorkState → WorkState) : (s.onWk f).en = s.en := rfl
@[simp] theorem State.onWk_co (s : State) (f : WorkState → WorkState) : (s.onWk f).co = s.co := rfl
@[simp] theorem State.onWk_wk (s : State) (f : WorkState → WorkState) : (s.onWk f).wk = f s.wk := rfl
@[simp] theorem State.onMd_clock (s : State) (f : Module → Module) : (s.onMd f).clock = s.clock := rfl
@[simp] theorem State.onMd_tick (s : State) (f : Module → Module) : (s.onMd f).tick = s.tick := rfl
@[simp] theorem State.onMd_free (s : State) (f : Module → Module) : (s.onMd f).free = s.free := rfl
@[simp] theorem State.onMd_nextId (s : State) (f : Module → Module) : (s.onMd f).nextId = s.nextId := rfl
@[simp] theorem State.onMd_agenda (s : State) (f : Module → Module) : (s.onMd f).agenda = s.agenda := rfl
@[simp] theorem State.onMd_focus (s : State) (f : Module → Module) : (s.onMd f).focus = s.focus := rfl
@[simp] theorem State.onMd_md (s : State) (f : Module → Module) : (s.onMd f).md = f s.md := rfl
@[simp] theorem State.onMd_ms (s : State) (f : Module → Module) : (s.onMd f).ms = s.ms := rfl
@[simp] theorem State.onMd_en (s : State) (f : Module → Module) : (s.onMd f).en = s.en := rfl
@[simp] theorem State.onMd_co (s : State) (f : Module → Module) : (s.onMd f).co = s.co := rfl
@[simp] theorem State.onMd_wk (s : State) (f : Module → Module) : (s.onMd f).wk = s.wk := rfl

/-! ## One entry of a table of the work side -/

@[simp] theorem State.onThread_clock (s : State) (k : Nat) (f : Thread → Thread) : (s.onThread k f).clock = s.clock := rfl
@[simp] theorem State.onThread_tick (s : State) (k : Nat) (f : Thread → Thread) : (s.onThread k f).tick = s.tick := rfl
@[simp] theorem State.onThread_free (s : State) (k : Nat) (f : Thread → Thread) : (s.onThread k f).free = s.free := rfl
@[simp] theorem State.onThread_nextId (s : State) (k : Nat) (f : Thread → Thread) : (s.onThread k f).nextId = s.nextId := rfl
@[simp] theorem State.onThread_agenda (s : State) (k : Nat) (f : Thread → Thread) : (s.onThread k f).agenda = s.agenda := rfl
@[simp] theorem State.onThread_focus (s : State) (k : Nat) (f : Thread → Thread) : (s.onThread k f).focus = s.focus := rfl
@[simp] theorem State.onThread_md (s : State) (k : Nat) (f : Thread → Thread) : (s.onThread k f).md = s.md := rfl
@[simp] theorem State.onThread_ms (s : State) (k : Nat) (f : Thread → Thread) : (s.onThread k f).ms = s.ms := rfl
@[simp] theorem State.onThread_en (s : State) (k : Nat) (f : Thread → Thread) : (s.onThread k f).en = s.en := rfl
@[simp] theorem State.onThread_co (s : State) (k : Nat) (f : Thread → Thread) : (s.onThread k f).co = s.co := rfl
@[simp] theorem State.onThread_threads (s : State) (k : Nat) (f : Thread → Thread) : (s.onThread k f).wk.threads = s.wk.threads.map (fun x => if x.id == k then f x else x) := rfl
@[simp] theorem State.onThread_groups (s : State) (k : Nat) (f : Thread → Thread) : (s.onThread k f).wk.groups = s.wk.groups := rfl
@[simp] theorem State.onThread_teams (s : State) (k : Nat) (f : Thread → Thread) : (s.onThread k f).wk.teams = s.wk.teams := rfl
@[simp] theorem State.onThread_clusters (s : State) (k : Nat) (f : Thread → Thread) : (s.onThread k f).wk.clusters = s.wk.clusters := rfl
@[simp] theorem State.onThread_launches (s : State) (k : Nat) (f : Thread → Thread) : (s.onThread k f).wk.launches = s.wk.launches := rfl
@[simp] theorem State.onThread_gangs (s : State) (k : Nat) (f : Thread → Thread) : (s.onThread k f).wk.gangs = s.wk.gangs := rfl
@[simp] theorem State.onThread_arrivals (s : State) (k : Nat) (f : Thread → Thread) : (s.onThread k f).wk.arrivals = s.wk.arrivals := rfl
@[simp] theorem State.onThread_bars (s : State) (k : Nat) (f : Thread → Thread) : (s.onThread k f).wk.bars = s.wk.bars := rfl
@[simp] theorem State.onThread_sets (s : State) (k : Nat) (f : Thread → Thread) : (s.onThread k f).wk.sets = s.wk.sets := rfl
@[simp] theorem State.onThread_parts (s : State) (k : Nat) (f : Thread → Thread) : (s.onThread k f).wk.parts = s.wk.parts := rfl
@[simp] theorem State.onThread_quays (s : State) (k : Nat) (f : Thread → Thread) : (s.onThread k f).wk.quays = s.wk.quays := rfl
@[simp] theorem State.onThread_recs (s : State) (k : Nat) (f : Thread → Thread) : (s.onThread k f).wk.recs = s.wk.recs := rfl
@[simp] theorem State.onGroup_clock (s : State) (k : Nat) (f : Group → Group) : (s.onGroup k f).clock = s.clock := rfl
@[simp] theorem State.onGroup_tick (s : State) (k : Nat) (f : Group → Group) : (s.onGroup k f).tick = s.tick := rfl
@[simp] theorem State.onGroup_free (s : State) (k : Nat) (f : Group → Group) : (s.onGroup k f).free = s.free := rfl
@[simp] theorem State.onGroup_nextId (s : State) (k : Nat) (f : Group → Group) : (s.onGroup k f).nextId = s.nextId := rfl
@[simp] theorem State.onGroup_agenda (s : State) (k : Nat) (f : Group → Group) : (s.onGroup k f).agenda = s.agenda := rfl
@[simp] theorem State.onGroup_focus (s : State) (k : Nat) (f : Group → Group) : (s.onGroup k f).focus = s.focus := rfl
@[simp] theorem State.onGroup_md (s : State) (k : Nat) (f : Group → Group) : (s.onGroup k f).md = s.md := rfl
@[simp] theorem State.onGroup_ms (s : State) (k : Nat) (f : Group → Group) : (s.onGroup k f).ms = s.ms := rfl
@[simp] theorem State.onGroup_en (s : State) (k : Nat) (f : Group → Group) : (s.onGroup k f).en = s.en := rfl
@[simp] theorem State.onGroup_co (s : State) (k : Nat) (f : Group → Group) : (s.onGroup k f).co = s.co := rfl
@[simp] theorem State.onGroup_threads (s : State) (k : Nat) (f : Group → Group) : (s.onGroup k f).wk.threads = s.wk.threads := rfl
@[simp] theorem State.onGroup_groups (s : State) (k : Nat) (f : Group → Group) : (s.onGroup k f).wk.groups = s.wk.groups.map (fun x => if x.id == k then f x else x) := rfl
@[simp] theorem State.onGroup_teams (s : State) (k : Nat) (f : Group → Group) : (s.onGroup k f).wk.teams = s.wk.teams := rfl
@[simp] theorem State.onGroup_clusters (s : State) (k : Nat) (f : Group → Group) : (s.onGroup k f).wk.clusters = s.wk.clusters := rfl
@[simp] theorem State.onGroup_launches (s : State) (k : Nat) (f : Group → Group) : (s.onGroup k f).wk.launches = s.wk.launches := rfl
@[simp] theorem State.onGroup_gangs (s : State) (k : Nat) (f : Group → Group) : (s.onGroup k f).wk.gangs = s.wk.gangs := rfl
@[simp] theorem State.onGroup_arrivals (s : State) (k : Nat) (f : Group → Group) : (s.onGroup k f).wk.arrivals = s.wk.arrivals := rfl
@[simp] theorem State.onGroup_bars (s : State) (k : Nat) (f : Group → Group) : (s.onGroup k f).wk.bars = s.wk.bars := rfl
@[simp] theorem State.onGroup_sets (s : State) (k : Nat) (f : Group → Group) : (s.onGroup k f).wk.sets = s.wk.sets := rfl
@[simp] theorem State.onGroup_parts (s : State) (k : Nat) (f : Group → Group) : (s.onGroup k f).wk.parts = s.wk.parts := rfl
@[simp] theorem State.onGroup_quays (s : State) (k : Nat) (f : Group → Group) : (s.onGroup k f).wk.quays = s.wk.quays := rfl
@[simp] theorem State.onGroup_recs (s : State) (k : Nat) (f : Group → Group) : (s.onGroup k f).wk.recs = s.wk.recs := rfl
@[simp] theorem State.onTeam_clock (s : State) (k : Nat) (f : Team → Team) : (s.onTeam k f).clock = s.clock := rfl
@[simp] theorem State.onTeam_tick (s : State) (k : Nat) (f : Team → Team) : (s.onTeam k f).tick = s.tick := rfl
@[simp] theorem State.onTeam_free (s : State) (k : Nat) (f : Team → Team) : (s.onTeam k f).free = s.free := rfl
@[simp] theorem State.onTeam_nextId (s : State) (k : Nat) (f : Team → Team) : (s.onTeam k f).nextId = s.nextId := rfl
@[simp] theorem State.onTeam_agenda (s : State) (k : Nat) (f : Team → Team) : (s.onTeam k f).agenda = s.agenda := rfl
@[simp] theorem State.onTeam_focus (s : State) (k : Nat) (f : Team → Team) : (s.onTeam k f).focus = s.focus := rfl
@[simp] theorem State.onTeam_md (s : State) (k : Nat) (f : Team → Team) : (s.onTeam k f).md = s.md := rfl
@[simp] theorem State.onTeam_ms (s : State) (k : Nat) (f : Team → Team) : (s.onTeam k f).ms = s.ms := rfl
@[simp] theorem State.onTeam_en (s : State) (k : Nat) (f : Team → Team) : (s.onTeam k f).en = s.en := rfl
@[simp] theorem State.onTeam_co (s : State) (k : Nat) (f : Team → Team) : (s.onTeam k f).co = s.co := rfl
@[simp] theorem State.onTeam_threads (s : State) (k : Nat) (f : Team → Team) : (s.onTeam k f).wk.threads = s.wk.threads := rfl
@[simp] theorem State.onTeam_groups (s : State) (k : Nat) (f : Team → Team) : (s.onTeam k f).wk.groups = s.wk.groups := rfl
@[simp] theorem State.onTeam_teams (s : State) (k : Nat) (f : Team → Team) : (s.onTeam k f).wk.teams = s.wk.teams.map (fun x => if x.id == k then f x else x) := rfl
@[simp] theorem State.onTeam_clusters (s : State) (k : Nat) (f : Team → Team) : (s.onTeam k f).wk.clusters = s.wk.clusters := rfl
@[simp] theorem State.onTeam_launches (s : State) (k : Nat) (f : Team → Team) : (s.onTeam k f).wk.launches = s.wk.launches := rfl
@[simp] theorem State.onTeam_gangs (s : State) (k : Nat) (f : Team → Team) : (s.onTeam k f).wk.gangs = s.wk.gangs := rfl
@[simp] theorem State.onTeam_arrivals (s : State) (k : Nat) (f : Team → Team) : (s.onTeam k f).wk.arrivals = s.wk.arrivals := rfl
@[simp] theorem State.onTeam_bars (s : State) (k : Nat) (f : Team → Team) : (s.onTeam k f).wk.bars = s.wk.bars := rfl
@[simp] theorem State.onTeam_sets (s : State) (k : Nat) (f : Team → Team) : (s.onTeam k f).wk.sets = s.wk.sets := rfl
@[simp] theorem State.onTeam_parts (s : State) (k : Nat) (f : Team → Team) : (s.onTeam k f).wk.parts = s.wk.parts := rfl
@[simp] theorem State.onTeam_quays (s : State) (k : Nat) (f : Team → Team) : (s.onTeam k f).wk.quays = s.wk.quays := rfl
@[simp] theorem State.onTeam_recs (s : State) (k : Nat) (f : Team → Team) : (s.onTeam k f).wk.recs = s.wk.recs := rfl
@[simp] theorem State.onCluster_clock (s : State) (k : Nat) (f : Cluster → Cluster) : (s.onCluster k f).clock = s.clock := rfl
@[simp] theorem State.onCluster_tick (s : State) (k : Nat) (f : Cluster → Cluster) : (s.onCluster k f).tick = s.tick := rfl
@[simp] theorem State.onCluster_free (s : State) (k : Nat) (f : Cluster → Cluster) : (s.onCluster k f).free = s.free := rfl
@[simp] theorem State.onCluster_nextId (s : State) (k : Nat) (f : Cluster → Cluster) : (s.onCluster k f).nextId = s.nextId := rfl
@[simp] theorem State.onCluster_agenda (s : State) (k : Nat) (f : Cluster → Cluster) : (s.onCluster k f).agenda = s.agenda := rfl
@[simp] theorem State.onCluster_focus (s : State) (k : Nat) (f : Cluster → Cluster) : (s.onCluster k f).focus = s.focus := rfl
@[simp] theorem State.onCluster_md (s : State) (k : Nat) (f : Cluster → Cluster) : (s.onCluster k f).md = s.md := rfl
@[simp] theorem State.onCluster_ms (s : State) (k : Nat) (f : Cluster → Cluster) : (s.onCluster k f).ms = s.ms := rfl
@[simp] theorem State.onCluster_en (s : State) (k : Nat) (f : Cluster → Cluster) : (s.onCluster k f).en = s.en := rfl
@[simp] theorem State.onCluster_co (s : State) (k : Nat) (f : Cluster → Cluster) : (s.onCluster k f).co = s.co := rfl
@[simp] theorem State.onCluster_threads (s : State) (k : Nat) (f : Cluster → Cluster) : (s.onCluster k f).wk.threads = s.wk.threads := rfl
@[simp] theorem State.onCluster_groups (s : State) (k : Nat) (f : Cluster → Cluster) : (s.onCluster k f).wk.groups = s.wk.groups := rfl
@[simp] theorem State.onCluster_teams (s : State) (k : Nat) (f : Cluster → Cluster) : (s.onCluster k f).wk.teams = s.wk.teams := rfl
@[simp] theorem State.onCluster_clusters (s : State) (k : Nat) (f : Cluster → Cluster) : (s.onCluster k f).wk.clusters = s.wk.clusters.map (fun x => if x.id == k then f x else x) := rfl
@[simp] theorem State.onCluster_launches (s : State) (k : Nat) (f : Cluster → Cluster) : (s.onCluster k f).wk.launches = s.wk.launches := rfl
@[simp] theorem State.onCluster_gangs (s : State) (k : Nat) (f : Cluster → Cluster) : (s.onCluster k f).wk.gangs = s.wk.gangs := rfl
@[simp] theorem State.onCluster_arrivals (s : State) (k : Nat) (f : Cluster → Cluster) : (s.onCluster k f).wk.arrivals = s.wk.arrivals := rfl
@[simp] theorem State.onCluster_bars (s : State) (k : Nat) (f : Cluster → Cluster) : (s.onCluster k f).wk.bars = s.wk.bars := rfl
@[simp] theorem State.onCluster_sets (s : State) (k : Nat) (f : Cluster → Cluster) : (s.onCluster k f).wk.sets = s.wk.sets := rfl
@[simp] theorem State.onCluster_parts (s : State) (k : Nat) (f : Cluster → Cluster) : (s.onCluster k f).wk.parts = s.wk.parts := rfl
@[simp] theorem State.onCluster_quays (s : State) (k : Nat) (f : Cluster → Cluster) : (s.onCluster k f).wk.quays = s.wk.quays := rfl
@[simp] theorem State.onCluster_recs (s : State) (k : Nat) (f : Cluster → Cluster) : (s.onCluster k f).wk.recs = s.wk.recs := rfl
@[simp] theorem State.onLaunch_clock (s : State) (k : Nat) (f : Launch → Launch) : (s.onLaunch k f).clock = s.clock := rfl
@[simp] theorem State.onLaunch_tick (s : State) (k : Nat) (f : Launch → Launch) : (s.onLaunch k f).tick = s.tick := rfl
@[simp] theorem State.onLaunch_free (s : State) (k : Nat) (f : Launch → Launch) : (s.onLaunch k f).free = s.free := rfl
@[simp] theorem State.onLaunch_nextId (s : State) (k : Nat) (f : Launch → Launch) : (s.onLaunch k f).nextId = s.nextId := rfl
@[simp] theorem State.onLaunch_agenda (s : State) (k : Nat) (f : Launch → Launch) : (s.onLaunch k f).agenda = s.agenda := rfl
@[simp] theorem State.onLaunch_focus (s : State) (k : Nat) (f : Launch → Launch) : (s.onLaunch k f).focus = s.focus := rfl
@[simp] theorem State.onLaunch_md (s : State) (k : Nat) (f : Launch → Launch) : (s.onLaunch k f).md = s.md := rfl
@[simp] theorem State.onLaunch_ms (s : State) (k : Nat) (f : Launch → Launch) : (s.onLaunch k f).ms = s.ms := rfl
@[simp] theorem State.onLaunch_en (s : State) (k : Nat) (f : Launch → Launch) : (s.onLaunch k f).en = s.en := rfl
@[simp] theorem State.onLaunch_co (s : State) (k : Nat) (f : Launch → Launch) : (s.onLaunch k f).co = s.co := rfl
@[simp] theorem State.onLaunch_threads (s : State) (k : Nat) (f : Launch → Launch) : (s.onLaunch k f).wk.threads = s.wk.threads := rfl
@[simp] theorem State.onLaunch_groups (s : State) (k : Nat) (f : Launch → Launch) : (s.onLaunch k f).wk.groups = s.wk.groups := rfl
@[simp] theorem State.onLaunch_teams (s : State) (k : Nat) (f : Launch → Launch) : (s.onLaunch k f).wk.teams = s.wk.teams := rfl
@[simp] theorem State.onLaunch_clusters (s : State) (k : Nat) (f : Launch → Launch) : (s.onLaunch k f).wk.clusters = s.wk.clusters := rfl
@[simp] theorem State.onLaunch_launches (s : State) (k : Nat) (f : Launch → Launch) : (s.onLaunch k f).wk.launches = s.wk.launches.map (fun x => if x.id == k then f x else x) := rfl
@[simp] theorem State.onLaunch_gangs (s : State) (k : Nat) (f : Launch → Launch) : (s.onLaunch k f).wk.gangs = s.wk.gangs := rfl
@[simp] theorem State.onLaunch_arrivals (s : State) (k : Nat) (f : Launch → Launch) : (s.onLaunch k f).wk.arrivals = s.wk.arrivals := rfl
@[simp] theorem State.onLaunch_bars (s : State) (k : Nat) (f : Launch → Launch) : (s.onLaunch k f).wk.bars = s.wk.bars := rfl
@[simp] theorem State.onLaunch_sets (s : State) (k : Nat) (f : Launch → Launch) : (s.onLaunch k f).wk.sets = s.wk.sets := rfl
@[simp] theorem State.onLaunch_parts (s : State) (k : Nat) (f : Launch → Launch) : (s.onLaunch k f).wk.parts = s.wk.parts := rfl
@[simp] theorem State.onLaunch_quays (s : State) (k : Nat) (f : Launch → Launch) : (s.onLaunch k f).wk.quays = s.wk.quays := rfl
@[simp] theorem State.onLaunch_recs (s : State) (k : Nat) (f : Launch → Launch) : (s.onLaunch k f).wk.recs = s.wk.recs := rfl
@[simp] theorem State.onGang_clock (s : State) (k : Nat) (f : Gang → Gang) : (s.onGang k f).clock = s.clock := rfl
@[simp] theorem State.onGang_tick (s : State) (k : Nat) (f : Gang → Gang) : (s.onGang k f).tick = s.tick := rfl
@[simp] theorem State.onGang_free (s : State) (k : Nat) (f : Gang → Gang) : (s.onGang k f).free = s.free := rfl
@[simp] theorem State.onGang_nextId (s : State) (k : Nat) (f : Gang → Gang) : (s.onGang k f).nextId = s.nextId := rfl
@[simp] theorem State.onGang_agenda (s : State) (k : Nat) (f : Gang → Gang) : (s.onGang k f).agenda = s.agenda := rfl
@[simp] theorem State.onGang_focus (s : State) (k : Nat) (f : Gang → Gang) : (s.onGang k f).focus = s.focus := rfl
@[simp] theorem State.onGang_md (s : State) (k : Nat) (f : Gang → Gang) : (s.onGang k f).md = s.md := rfl
@[simp] theorem State.onGang_ms (s : State) (k : Nat) (f : Gang → Gang) : (s.onGang k f).ms = s.ms := rfl
@[simp] theorem State.onGang_en (s : State) (k : Nat) (f : Gang → Gang) : (s.onGang k f).en = s.en := rfl
@[simp] theorem State.onGang_co (s : State) (k : Nat) (f : Gang → Gang) : (s.onGang k f).co = s.co := rfl
@[simp] theorem State.onGang_threads (s : State) (k : Nat) (f : Gang → Gang) : (s.onGang k f).wk.threads = s.wk.threads := rfl
@[simp] theorem State.onGang_groups (s : State) (k : Nat) (f : Gang → Gang) : (s.onGang k f).wk.groups = s.wk.groups := rfl
@[simp] theorem State.onGang_teams (s : State) (k : Nat) (f : Gang → Gang) : (s.onGang k f).wk.teams = s.wk.teams := rfl
@[simp] theorem State.onGang_clusters (s : State) (k : Nat) (f : Gang → Gang) : (s.onGang k f).wk.clusters = s.wk.clusters := rfl
@[simp] theorem State.onGang_launches (s : State) (k : Nat) (f : Gang → Gang) : (s.onGang k f).wk.launches = s.wk.launches := rfl
@[simp] theorem State.onGang_gangs (s : State) (k : Nat) (f : Gang → Gang) : (s.onGang k f).wk.gangs = s.wk.gangs.map (fun x => if x.launch == k then f x else x) := rfl
@[simp] theorem State.onGang_arrivals (s : State) (k : Nat) (f : Gang → Gang) : (s.onGang k f).wk.arrivals = s.wk.arrivals := rfl
@[simp] theorem State.onGang_bars (s : State) (k : Nat) (f : Gang → Gang) : (s.onGang k f).wk.bars = s.wk.bars := rfl
@[simp] theorem State.onGang_sets (s : State) (k : Nat) (f : Gang → Gang) : (s.onGang k f).wk.sets = s.wk.sets := rfl
@[simp] theorem State.onGang_parts (s : State) (k : Nat) (f : Gang → Gang) : (s.onGang k f).wk.parts = s.wk.parts := rfl
@[simp] theorem State.onGang_quays (s : State) (k : Nat) (f : Gang → Gang) : (s.onGang k f).wk.quays = s.wk.quays := rfl
@[simp] theorem State.onGang_recs (s : State) (k : Nat) (f : Gang → Gang) : (s.onGang k f).wk.recs = s.wk.recs := rfl
@[simp] theorem State.onQuay_clock (s : State) (k : CoreId) (f : Quay → Quay) : (s.onQuay k f).clock = s.clock := rfl
@[simp] theorem State.onQuay_tick (s : State) (k : CoreId) (f : Quay → Quay) : (s.onQuay k f).tick = s.tick := rfl
@[simp] theorem State.onQuay_free (s : State) (k : CoreId) (f : Quay → Quay) : (s.onQuay k f).free = s.free := rfl
@[simp] theorem State.onQuay_nextId (s : State) (k : CoreId) (f : Quay → Quay) : (s.onQuay k f).nextId = s.nextId := rfl
@[simp] theorem State.onQuay_agenda (s : State) (k : CoreId) (f : Quay → Quay) : (s.onQuay k f).agenda = s.agenda := rfl
@[simp] theorem State.onQuay_focus (s : State) (k : CoreId) (f : Quay → Quay) : (s.onQuay k f).focus = s.focus := rfl
@[simp] theorem State.onQuay_md (s : State) (k : CoreId) (f : Quay → Quay) : (s.onQuay k f).md = s.md := rfl
@[simp] theorem State.onQuay_ms (s : State) (k : CoreId) (f : Quay → Quay) : (s.onQuay k f).ms = s.ms := rfl
@[simp] theorem State.onQuay_en (s : State) (k : CoreId) (f : Quay → Quay) : (s.onQuay k f).en = s.en := rfl
@[simp] theorem State.onQuay_co (s : State) (k : CoreId) (f : Quay → Quay) : (s.onQuay k f).co = s.co := rfl
@[simp] theorem State.onQuay_threads (s : State) (k : CoreId) (f : Quay → Quay) : (s.onQuay k f).wk.threads = s.wk.threads := rfl
@[simp] theorem State.onQuay_groups (s : State) (k : CoreId) (f : Quay → Quay) : (s.onQuay k f).wk.groups = s.wk.groups := rfl
@[simp] theorem State.onQuay_teams (s : State) (k : CoreId) (f : Quay → Quay) : (s.onQuay k f).wk.teams = s.wk.teams := rfl
@[simp] theorem State.onQuay_clusters (s : State) (k : CoreId) (f : Quay → Quay) : (s.onQuay k f).wk.clusters = s.wk.clusters := rfl
@[simp] theorem State.onQuay_launches (s : State) (k : CoreId) (f : Quay → Quay) : (s.onQuay k f).wk.launches = s.wk.launches := rfl
@[simp] theorem State.onQuay_gangs (s : State) (k : CoreId) (f : Quay → Quay) : (s.onQuay k f).wk.gangs = s.wk.gangs := rfl
@[simp] theorem State.onQuay_arrivals (s : State) (k : CoreId) (f : Quay → Quay) : (s.onQuay k f).wk.arrivals = s.wk.arrivals := rfl
@[simp] theorem State.onQuay_bars (s : State) (k : CoreId) (f : Quay → Quay) : (s.onQuay k f).wk.bars = s.wk.bars := rfl
@[simp] theorem State.onQuay_sets (s : State) (k : CoreId) (f : Quay → Quay) : (s.onQuay k f).wk.sets = s.wk.sets := rfl
@[simp] theorem State.onQuay_parts (s : State) (k : CoreId) (f : Quay → Quay) : (s.onQuay k f).wk.parts = s.wk.parts := rfl
@[simp] theorem State.onQuay_quays (s : State) (k : CoreId) (f : Quay → Quay) : (s.onQuay k f).wk.quays = s.wk.quays.map (fun x => if x.core == k then f x else x) := rfl
@[simp] theorem State.onQuay_recs (s : State) (k : CoreId) (f : Quay → Quay) : (s.onQuay k f).wk.recs = s.wk.recs := rfl
@[simp] theorem State.onPart_clock (s : State) (k : Nat) (f : Part → Part) : (s.onPart k f).clock = s.clock := rfl
@[simp] theorem State.onPart_tick (s : State) (k : Nat) (f : Part → Part) : (s.onPart k f).tick = s.tick := rfl
@[simp] theorem State.onPart_free (s : State) (k : Nat) (f : Part → Part) : (s.onPart k f).free = s.free := rfl
@[simp] theorem State.onPart_nextId (s : State) (k : Nat) (f : Part → Part) : (s.onPart k f).nextId = s.nextId := rfl
@[simp] theorem State.onPart_agenda (s : State) (k : Nat) (f : Part → Part) : (s.onPart k f).agenda = s.agenda := rfl
@[simp] theorem State.onPart_focus (s : State) (k : Nat) (f : Part → Part) : (s.onPart k f).focus = s.focus := rfl
@[simp] theorem State.onPart_md (s : State) (k : Nat) (f : Part → Part) : (s.onPart k f).md = s.md := rfl
@[simp] theorem State.onPart_ms (s : State) (k : Nat) (f : Part → Part) : (s.onPart k f).ms = s.ms := rfl
@[simp] theorem State.onPart_en (s : State) (k : Nat) (f : Part → Part) : (s.onPart k f).en = s.en := rfl
@[simp] theorem State.onPart_co (s : State) (k : Nat) (f : Part → Part) : (s.onPart k f).co = s.co := rfl
@[simp] theorem State.onPart_threads (s : State) (k : Nat) (f : Part → Part) : (s.onPart k f).wk.threads = s.wk.threads := rfl
@[simp] theorem State.onPart_groups (s : State) (k : Nat) (f : Part → Part) : (s.onPart k f).wk.groups = s.wk.groups := rfl
@[simp] theorem State.onPart_teams (s : State) (k : Nat) (f : Part → Part) : (s.onPart k f).wk.teams = s.wk.teams := rfl
@[simp] theorem State.onPart_clusters (s : State) (k : Nat) (f : Part → Part) : (s.onPart k f).wk.clusters = s.wk.clusters := rfl
@[simp] theorem State.onPart_launches (s : State) (k : Nat) (f : Part → Part) : (s.onPart k f).wk.launches = s.wk.launches := rfl
@[simp] theorem State.onPart_gangs (s : State) (k : Nat) (f : Part → Part) : (s.onPart k f).wk.gangs = s.wk.gangs := rfl
@[simp] theorem State.onPart_arrivals (s : State) (k : Nat) (f : Part → Part) : (s.onPart k f).wk.arrivals = s.wk.arrivals := rfl
@[simp] theorem State.onPart_bars (s : State) (k : Nat) (f : Part → Part) : (s.onPart k f).wk.bars = s.wk.bars := rfl
@[simp] theorem State.onPart_sets (s : State) (k : Nat) (f : Part → Part) : (s.onPart k f).wk.sets = s.wk.sets := rfl
@[simp] theorem State.onPart_parts (s : State) (k : Nat) (f : Part → Part) : (s.onPart k f).wk.parts = s.wk.parts.modify k f := rfl
@[simp] theorem State.onPart_quays (s : State) (k : Nat) (f : Part → Part) : (s.onPart k f).wk.quays = s.wk.quays := rfl
@[simp] theorem State.onPart_recs (s : State) (k : Nat) (f : Part → Part) : (s.onPart k f).wk.recs = s.wk.recs := rfl

/-! ## One access -/

@[simp] theorem State.onAccess_clock (s : State) (k : Nat) (f : Access → Access) : (s.onAccess k f).clock = s.clock := rfl
@[simp] theorem State.onAccess_tick (s : State) (k : Nat) (f : Access → Access) : (s.onAccess k f).tick = s.tick := rfl
@[simp] theorem State.onAccess_free (s : State) (k : Nat) (f : Access → Access) : (s.onAccess k f).free = s.free := rfl
@[simp] theorem State.onAccess_nextId (s : State) (k : Nat) (f : Access → Access) : (s.onAccess k f).nextId = s.nextId := rfl
@[simp] theorem State.onAccess_agenda (s : State) (k : Nat) (f : Access → Access) : (s.onAccess k f).agenda = s.agenda := rfl
@[simp] theorem State.onAccess_focus (s : State) (k : Nat) (f : Access → Access) : (s.onAccess k f).focus = s.focus := rfl
@[simp] theorem State.onAccess_md (s : State) (k : Nat) (f : Access → Access) : (s.onAccess k f).md = s.md := rfl
@[simp] theorem State.onAccess_en (s : State) (k : Nat) (f : Access → Access) : (s.onAccess k f).en = s.en := rfl
@[simp] theorem State.onAccess_co (s : State) (k : Nat) (f : Access → Access) : (s.onAccess k f).co = s.co := rfl
@[simp] theorem State.onAccess_wk (s : State) (k : Nat) (f : Access → Access) : (s.onAccess k f).wk = s.wk := rfl
@[simp] theorem State.onAccess_mem (s : State) (k : Nat) (f : Access → Access) : (s.onAccess k f).ms.mem = s.ms.mem := rfl
@[simp] theorem State.onAccess_vault (s : State) (k : Nat) (f : Access → Access) : (s.onAccess k f).ms.vault = s.ms.vault := rfl
@[simp] theorem State.onAccess_tags (s : State) (k : Nat) (f : Access → Access) : (s.onAccess k f).ms.tags = s.ms.tags := rfl
@[simp] theorem State.onAccess_vpoison (s : State) (k : Nat) (f : Access → Access) : (s.onAccess k f).ms.vpoison = s.ms.vpoison := rfl
@[simp] theorem State.onAccess_poison0 (s : State) (k : Nat) (f : Access → Access) : (s.onAccess k f).ms.poison0 = s.ms.poison0 := rfl
@[simp] theorem State.onAccess_writes (s : State) (k : Nat) (f : Access → Access) : (s.onAccess k f).ms.writes = s.ms.writes := rfl
@[simp] theorem State.onAccess_accs (s : State) (k : Nat) (f : Access → Access) : (s.onAccess k f).ms.accs = s.ms.accs.map (fun x => if x.id == k then f x else x) := rfl
@[simp] theorem State.onAccess_fences (s : State) (k : Nat) (f : Access → Access) : (s.onAccess k f).ms.fences = s.ms.fences := rfl
@[simp] theorem State.onAccess_scOrder (s : State) (k : Nat) (f : Access → Access) : (s.onAccess k f).ms.scOrder = s.ms.scOrder := rfl
@[simp] theorem State.onAccess_smp (s : State) (k : Nat) (f : Access → Access) : (s.onAccess k f).ms.smp = s.ms.smp := rfl
@[simp] theorem State.onAccess_smpLines (s : State) (k : Nat) (f : Access → Access) : (s.onAccess k f).ms.smpLines = s.ms.smpLines := rfl
@[simp] theorem State.onAccess_icache (s : State) (k : Nat) (f : Access → Access) : (s.onAccess k f).ms.icache = s.ms.icache := rfl
@[simp] theorem State.onAccess_l1tlb (s : State) (k : Nat) (f : Access → Access) : (s.onAccess k f).ms.l1tlb = s.ms.l1tlb := rfl
@[simp] theorem State.onAccess_l2tlb (s : State) (k : Nat) (f : Access → Access) : (s.onAccess k f).ms.l2tlb = s.ms.l2tlb := rfl
@[simp] theorem State.onAccess_tlbis (s : State) (k : Nat) (f : Access → Access) : (s.onAccess k f).ms.tlbis = s.ms.tlbis := rfl
@[simp] theorem State.onAccess_oplog (s : State) (k : Nat) (f : Access → Access) : (s.onAccess k f).ms.oplog = s.ms.oplog := rfl

/-! ## One entry of a table of the engines -/

@[simp] theorem State.onCtx_clock (s : State) (k : Nat) (f : Ctx → Ctx) : (s.onCtx k f).clock = s.clock := rfl
@[simp] theorem State.onCtx_tick (s : State) (k : Nat) (f : Ctx → Ctx) : (s.onCtx k f).tick = s.tick := rfl
@[simp] theorem State.onCtx_free (s : State) (k : Nat) (f : Ctx → Ctx) : (s.onCtx k f).free = s.free := rfl
@[simp] theorem State.onCtx_nextId (s : State) (k : Nat) (f : Ctx → Ctx) : (s.onCtx k f).nextId = s.nextId := rfl
@[simp] theorem State.onCtx_agenda (s : State) (k : Nat) (f : Ctx → Ctx) : (s.onCtx k f).agenda = s.agenda := rfl
@[simp] theorem State.onCtx_focus (s : State) (k : Nat) (f : Ctx → Ctx) : (s.onCtx k f).focus = s.focus := rfl
@[simp] theorem State.onCtx_md (s : State) (k : Nat) (f : Ctx → Ctx) : (s.onCtx k f).md = s.md := rfl
@[simp] theorem State.onCtx_ms (s : State) (k : Nat) (f : Ctx → Ctx) : (s.onCtx k f).ms = s.ms := rfl
@[simp] theorem State.onCtx_co (s : State) (k : Nat) (f : Ctx → Ctx) : (s.onCtx k f).co = s.co := rfl
@[simp] theorem State.onCtx_wk (s : State) (k : Nat) (f : Ctx → Ctx) : (s.onCtx k f).wk = s.wk := rfl
@[simp] theorem State.onCtx_ctxs (s : State) (k : Nat) (f : Ctx → Ctx) : (s.onCtx k f).en.ctxs = s.en.ctxs.map (fun x => if x.id == k then f x else x) := rfl
@[simp] theorem State.onCtx_copies (s : State) (k : Nat) (f : Ctx → Ctx) : (s.onCtx k f).en.copies = s.en.copies := rfl
@[simp] theorem State.onCtx_batches (s : State) (k : Nat) (f : Ctx → Ctx) : (s.onCtx k f).en.batches = s.en.batches := rfl
@[simp] theorem State.onCtx_holders (s : State) (k : Nat) (f : Ctx → Ctx) : (s.onCtx k f).en.holders = s.en.holders := rfl
@[simp] theorem State.onCtx_fsts (s : State) (k : Nat) (f : Ctx → Ctx) : (s.onCtx k f).en.fsts = s.en.fsts := rfl
@[simp] theorem State.onCtx_walks (s : State) (k : Nat) (f : Ctx → Ctx) : (s.onCtx k f).en.walks = s.en.walks := rfl
@[simp] theorem State.onCtx_fops (s : State) (k : Nat) (f : Ctx → Ctx) : (s.onCtx k f).en.fops = s.en.fops := rfl
@[simp] theorem State.onCopy_clock (s : State) (k : Nat) (f : Copy → Copy) : (s.onCopy k f).clock = s.clock := rfl
@[simp] theorem State.onCopy_tick (s : State) (k : Nat) (f : Copy → Copy) : (s.onCopy k f).tick = s.tick := rfl
@[simp] theorem State.onCopy_free (s : State) (k : Nat) (f : Copy → Copy) : (s.onCopy k f).free = s.free := rfl
@[simp] theorem State.onCopy_nextId (s : State) (k : Nat) (f : Copy → Copy) : (s.onCopy k f).nextId = s.nextId := rfl
@[simp] theorem State.onCopy_agenda (s : State) (k : Nat) (f : Copy → Copy) : (s.onCopy k f).agenda = s.agenda := rfl
@[simp] theorem State.onCopy_focus (s : State) (k : Nat) (f : Copy → Copy) : (s.onCopy k f).focus = s.focus := rfl
@[simp] theorem State.onCopy_md (s : State) (k : Nat) (f : Copy → Copy) : (s.onCopy k f).md = s.md := rfl
@[simp] theorem State.onCopy_ms (s : State) (k : Nat) (f : Copy → Copy) : (s.onCopy k f).ms = s.ms := rfl
@[simp] theorem State.onCopy_co (s : State) (k : Nat) (f : Copy → Copy) : (s.onCopy k f).co = s.co := rfl
@[simp] theorem State.onCopy_wk (s : State) (k : Nat) (f : Copy → Copy) : (s.onCopy k f).wk = s.wk := rfl
@[simp] theorem State.onCopy_ctxs (s : State) (k : Nat) (f : Copy → Copy) : (s.onCopy k f).en.ctxs = s.en.ctxs := rfl
@[simp] theorem State.onCopy_copies (s : State) (k : Nat) (f : Copy → Copy) : (s.onCopy k f).en.copies = s.en.copies.map (fun x => if x.id == k then f x else x) := rfl
@[simp] theorem State.onCopy_batches (s : State) (k : Nat) (f : Copy → Copy) : (s.onCopy k f).en.batches = s.en.batches := rfl
@[simp] theorem State.onCopy_holders (s : State) (k : Nat) (f : Copy → Copy) : (s.onCopy k f).en.holders = s.en.holders := rfl
@[simp] theorem State.onCopy_fsts (s : State) (k : Nat) (f : Copy → Copy) : (s.onCopy k f).en.fsts = s.en.fsts := rfl
@[simp] theorem State.onCopy_walks (s : State) (k : Nat) (f : Copy → Copy) : (s.onCopy k f).en.walks = s.en.walks := rfl
@[simp] theorem State.onCopy_fops (s : State) (k : Nat) (f : Copy → Copy) : (s.onCopy k f).en.fops = s.en.fops := rfl
@[simp] theorem State.onWalk_clock (s : State) (k : Nat) (f : Walk → Walk) : (s.onWalk k f).clock = s.clock := rfl
@[simp] theorem State.onWalk_tick (s : State) (k : Nat) (f : Walk → Walk) : (s.onWalk k f).tick = s.tick := rfl
@[simp] theorem State.onWalk_free (s : State) (k : Nat) (f : Walk → Walk) : (s.onWalk k f).free = s.free := rfl
@[simp] theorem State.onWalk_nextId (s : State) (k : Nat) (f : Walk → Walk) : (s.onWalk k f).nextId = s.nextId := rfl
@[simp] theorem State.onWalk_agenda (s : State) (k : Nat) (f : Walk → Walk) : (s.onWalk k f).agenda = s.agenda := rfl
@[simp] theorem State.onWalk_focus (s : State) (k : Nat) (f : Walk → Walk) : (s.onWalk k f).focus = s.focus := rfl
@[simp] theorem State.onWalk_md (s : State) (k : Nat) (f : Walk → Walk) : (s.onWalk k f).md = s.md := rfl
@[simp] theorem State.onWalk_ms (s : State) (k : Nat) (f : Walk → Walk) : (s.onWalk k f).ms = s.ms := rfl
@[simp] theorem State.onWalk_co (s : State) (k : Nat) (f : Walk → Walk) : (s.onWalk k f).co = s.co := rfl
@[simp] theorem State.onWalk_wk (s : State) (k : Nat) (f : Walk → Walk) : (s.onWalk k f).wk = s.wk := rfl
@[simp] theorem State.onWalk_ctxs (s : State) (k : Nat) (f : Walk → Walk) : (s.onWalk k f).en.ctxs = s.en.ctxs := rfl
@[simp] theorem State.onWalk_copies (s : State) (k : Nat) (f : Walk → Walk) : (s.onWalk k f).en.copies = s.en.copies := rfl
@[simp] theorem State.onWalk_batches (s : State) (k : Nat) (f : Walk → Walk) : (s.onWalk k f).en.batches = s.en.batches := rfl
@[simp] theorem State.onWalk_holders (s : State) (k : Nat) (f : Walk → Walk) : (s.onWalk k f).en.holders = s.en.holders := rfl
@[simp] theorem State.onWalk_fsts (s : State) (k : Nat) (f : Walk → Walk) : (s.onWalk k f).en.fsts = s.en.fsts := rfl
@[simp] theorem State.onWalk_walks (s : State) (k : Nat) (f : Walk → Walk) : (s.onWalk k f).en.walks = s.en.walks.map (fun x => if x.id == k then f x else x) := rfl
@[simp] theorem State.onWalk_fops (s : State) (k : Nat) (f : Walk → Walk) : (s.onWalk k f).en.fops = s.en.fops := rfl
@[simp] theorem State.onFop_clock (s : State) (k : Nat) (f : FOp → FOp) : (s.onFop k f).clock = s.clock := rfl
@[simp] theorem State.onFop_tick (s : State) (k : Nat) (f : FOp → FOp) : (s.onFop k f).tick = s.tick := rfl
@[simp] theorem State.onFop_free (s : State) (k : Nat) (f : FOp → FOp) : (s.onFop k f).free = s.free := rfl
@[simp] theorem State.onFop_nextId (s : State) (k : Nat) (f : FOp → FOp) : (s.onFop k f).nextId = s.nextId := rfl
@[simp] theorem State.onFop_agenda (s : State) (k : Nat) (f : FOp → FOp) : (s.onFop k f).agenda = s.agenda := rfl
@[simp] theorem State.onFop_focus (s : State) (k : Nat) (f : FOp → FOp) : (s.onFop k f).focus = s.focus := rfl
@[simp] theorem State.onFop_md (s : State) (k : Nat) (f : FOp → FOp) : (s.onFop k f).md = s.md := rfl
@[simp] theorem State.onFop_ms (s : State) (k : Nat) (f : FOp → FOp) : (s.onFop k f).ms = s.ms := rfl
@[simp] theorem State.onFop_co (s : State) (k : Nat) (f : FOp → FOp) : (s.onFop k f).co = s.co := rfl
@[simp] theorem State.onFop_wk (s : State) (k : Nat) (f : FOp → FOp) : (s.onFop k f).wk = s.wk := rfl
@[simp] theorem State.onFop_ctxs (s : State) (k : Nat) (f : FOp → FOp) : (s.onFop k f).en.ctxs = s.en.ctxs := rfl
@[simp] theorem State.onFop_copies (s : State) (k : Nat) (f : FOp → FOp) : (s.onFop k f).en.copies = s.en.copies := rfl
@[simp] theorem State.onFop_batches (s : State) (k : Nat) (f : FOp → FOp) : (s.onFop k f).en.batches = s.en.batches := rfl
@[simp] theorem State.onFop_holders (s : State) (k : Nat) (f : FOp → FOp) : (s.onFop k f).en.holders = s.en.holders := rfl
@[simp] theorem State.onFop_fsts (s : State) (k : Nat) (f : FOp → FOp) : (s.onFop k f).en.fsts = s.en.fsts := rfl
@[simp] theorem State.onFop_walks (s : State) (k : Nat) (f : FOp → FOp) : (s.onFop k f).en.walks = s.en.walks := rfl
@[simp] theorem State.onFop_fops (s : State) (k : Nat) (f : FOp → FOp) : (s.onFop k f).en.fops = s.en.fops.map (fun x => if x.id == k then f x else x) := rfl

end Sys2Proof.Machine
end

