-- ==== Sys2Proof/Laws/Issue.lean ====
section
/-!
SUPPORT. What an issue does for a set of one thread, what a destination and the shared updates of a thread do, and the
lookups of threads and groups after an update.
-/
namespace Sys2Proof.Machine

/-! ## Lookups -/

theorem find_map_key {α : Type} (key : α → Nat) (l : List α) (k u : Nat) (f : α → α) (hf : ∀ x, key x = k → key (f x) = k) :
    ((l.map fun x => if key x == k then f x else x).find? fun x => key x == u) =
      (l.find? fun x => key x == u).map fun x => if u = k then f x else x := by
  induction l with
  | nil => rfl
  | cons a t ih =>
    simp only [List.map_cons, List.find?_cons]
    by_cases ha : key a = k
    · rw [if_pos (by simp [ha])]
      by_cases hu : k = u
      · subst hu; simp [hf a ha, ha]
      · have h1 : (key (f a) == u) = false := by simp [hf a ha, hu]
        have h2 : (key a == u) = false := by simp [ha, hu]
        simp only [h1, h2]
        exact ih
    · rw [if_neg (by simp [ha])]
      by_cases hu : key a = u
      · have : ¬ u = k := by omega
        simp [hu, this]
      · have h2 : (key a == u) = false := by simp [hu]
        simp only [h2]
        exact ih

theorem State.thread_onThread (s : State) (k u : Nat) (f : Thread → Thread) (hf : ∀ x, x.id = k → (f x).id = k) :
    (s.onThread k f).thread u = (s.thread u).map fun x => if u = k then f x else x :=
  find_map_key Thread.id s.wk.threads k u f hf

theorem State.thread_onThread_self {s : State} {t : Thread} (h : s.thread t.id = some t) (f : Thread → Thread) (hf : ∀ x, x.id = t.id → (f x).id = t.id) :
    (s.onThread t.id f).thread t.id = some (f t) := by
  rw [State.thread_onThread s _ _ f hf, h]
  simp

theorem State.thread_onThread_ne (s : State) {k u : Nat} (h : u ≠ k) (f : Thread → Thread) (hf : ∀ x, x.id = k → (f x).id = k) :
    (s.onThread k f).thread u = s.thread u := by
  rw [State.thread_onThread s _ _ f hf]
  simp [h]

theorem State.group_onGroup (s : State) (k u : Nat) (f : Group → Group) (hf : ∀ x, x.id = k → (f x).id = k) :
    (s.onGroup k f).group u = (s.group u).map fun x => if u = k then f x else x :=
  find_map_key Group.id s.wk.groups k u f hf

@[simp] theorem State.group_onThread (s : State) (k : Nat) (f : Thread → Thread) (u : Nat) : (s.onThread k f).group u = s.group u := rfl
@[simp] theorem State.getG_onThread (s : State) (k : Nat) (f : Thread → Thread) (u n : Nat) : (s.onThread k f).getG u n = s.getG u n := rfl
@[simp] theorem State.thread_onGroup (s : State) (k : Nat) (f : Group → Group) (u : Nat) : (s.onGroup k f).thread u = s.thread u := rfl

/-- A thread of the front is the thread of its number. -/
theorem State.mem_front {s : State} {t : Thread} (h : t ∈ s.front) : s.thread t.id = some t := by
  unfold State.front at h
  split at h
  · simp at h
  · split at h
    · simp at h
    · obtain ⟨n, _, hn⟩ := List.mem_filterMap.mp h
      have : (t.id == n) = true := List.find?_some (p := fun x : Thread => x.id == n) hn
      simp only [beq_iff_eq] at this
      rw [this]
      exact hn

theorem State.Runs.thread {s : State} {h : Gd} {i : Instr} {t : Thread} (hr : s.Runs h i t) : s.thread t.id = some t :=
  State.mem_front (by simp [hr.front])

/-! ## Issue -/

/-- The fate of a thread that runs, under any further ask that it meets. -/
theorem State.Runs.fate {s : State} {h : Gd} {i : Instr} {t : Thread} (hr : s.Runs h i t) (a : Ask) (hu : a.use = useOf i)
    (hd : a.deny t = false) (hb : a.bind t = none) (hy : a.ready t = true) : s.fate h a t = .go := by
  have hg : t.guard h = true := by simp [Thread.guard, hr.guard]
  have hp : (h.p.val != 7 && s.pending t [.p h.p.val]) = false := by
    rcases hr.settled with h7 | h7
    · simp [h7]
    · simp [h7]
  simp only [State.fate, hr.noHit, hu, hr.fits, hd, hb, hp, hg, hr.free, hr.whole, hy]
  rfl

/-- An issue for one thread that executes is its body. -/
theorem State.issue_alone {s : State} {h : Gd} {t : Thread} {a : Ask} (hf : s.front = [t]) (ha : s.fate h a t = .go) (body : List Thread → State → State) :
    s.issue h a body = body [t] s := by
  simp [State.issue, State.goers, hf, ha, State.settleFate]

theorem State.skippers_alone {s : State} {h : Gd} {t : Thread} {a : Ask} (hf : s.front = [t]) (ha : s.fate h a t = .go) : s.skippers h a = [] := by
  simp [State.skippers, hf, ha]

theorem State.Runs.issue {s : State} {h : Gd} {i : Instr} {t : Thread} (hr : s.Runs h i t) (body : List Thread → State → State) :
    s.issue h (Ask.of (useOf i)) body = body [t] s :=
  State.issue_alone hr.front (hr.fate _ rfl rfl rfl rfl) body

theorem isLead_alone (t : Thread) : isLead [t] t = true := by simp [isLead]

theorem destOf_alone (t : Thread) (d : Opnd) : destOf [t] t d = d := by cases d <;> simp [destOf, isLead_alone]

/-! ## Destinations -/

@[simp] theorem Regs.setVs_p (r : Regs) (n : Nat) (ws : List Word) : (r.setVs n ws).p = r.p := by
  induction ws generalizing r n with
  | nil => rfl
  | cons w l ih => exact (ih _ _).trans rfl
@[simp] theorem Regs.setVs_k (r : Regs) (n : Nat) (ws : List Word) : (r.setVs n ws).k = r.k := by
  induction ws generalizing r n with
  | nil => rfl
  | cons w l ih => exact (ih _ _).trans rfl
@[simp] theorem Regs.setVs_flags (r : Regs) (n : Nat) (ws : List Word) : (r.setVs n ws).flags = r.flags := by
  induction ws generalizing r n with
  | nil => rfl
  | cons w l ih => exact (ih _ _).trans rfl
@[simp] theorem Regs.setVs_clockh (r : Regs) (n : Nat) (ws : List Word) : (r.setVs n ws).clockh = r.clockh := by
  induction ws generalizing r n with
  | nil => rfl
  | cons w l ih => exact (ih _ _).trans rfl

theorem Regs.getV_setV (r : Regs) (n k : Nat) (x : Word) (hk : k < 128) : (r.setV n x).getV k = if k = n then x else r.getV k := by
  simp only [Regs.getV, Regs.setV, hk, dif_pos, Vector.getElem_setIfInBounds]
  split <;> rename_i h
  · rw [if_pos h.symm]
  · rw [if_neg (fun e => h e.symm)]

theorem Regs.getV_setVs (r : Regs) (n k : Nat) (ws : List Word) (hk : k < 128) : (r.setVs n ws).getV k = (writtenAt n ws k).getD (r.getV k) := by
  induction ws generalizing r n with
  | nil => simp [Regs.setVs, writtenAt]
  | cons w l ih =>
    simp only [Regs.setVs]
    rw [ih, Regs.getV_setV _ _ _ _ hk]
    simp only [writtenAt]
    by_cases h1 : k = n
    · subst h1
      simp [show ¬ k + 1 ≤ k by omega]
    · by_cases h2 : n + 1 ≤ k
      · rw [if_pos h2, if_neg h1, if_pos (by omega)]
        rw [show k - n = (k - (n + 1)) + 1 by omega, List.getElem?_cons_succ]
      · rw [if_neg h2, if_neg h1, if_neg (by omega)]

/-- g register k of a group. -/
def Group.getG (x : Group) (k : Nat) : Word := if h : k < 64 then x.g[k] else 0

theorem State.getG_eq (s : State) (g n : Nat) : s.getG g n = match s.group g with
    | some x => x.getG n
    | none => 0 := rfl

theorem Group.setGs_rest (x : Group) (n : Nat) (ws : List Word) : x.setGs n ws = { x with g := (x.setGs n ws).g } := by
  induction ws generalizing x n with
  | nil => rfl
  | cons w l ih =>
    simp only [Group.setGs]
    rw [ih]

@[simp] theorem Group.setGs_id (x : Group) (n : Nat) (ws : List Word) : (x.setGs n ws).id = x.id := by rw [Group.setGs_rest]

theorem Group.getG_setGs (x : Group) (n k : Nat) (ws : List Word) (hk : k < 64) : (x.setGs n ws).getG k = (writtenAt n ws k).getD (x.getG k) := by
  induction ws generalizing x n with
  | nil => simp [Group.setGs, writtenAt]
  | cons w l ih =>
    simp only [Group.setGs]
    rw [ih]
    have hset : ({ x with g := x.g.setIfInBounds n w } : Group).getG k = if k = n then w else x.getG k := by
      simp only [Group.getG, hk, dif_pos, Vector.getElem_setIfInBounds]
      split <;> rename_i h
      · rw [if_pos h.symm]
      · rw [if_neg (fun e => h e.symm)]
    rw [hset]
    simp only [writtenAt]
    by_cases h1 : k = n
    · subst h1
      simp [show ¬ k + 1 ≤ k by omega]
    · by_cases h2 : n + 1 ≤ k
      · rw [if_pos h2, if_neg h1, if_pos (by omega)]
        rw [show k - n = (k - (n + 1)) + 1 by omega, List.getElem?_cons_succ]
      · rw [if_neg h2, if_neg h1, if_neg (by omega)]

end Sys2Proof.Machine
end

