-- ==== Sys2Proof/Laws/Memory.lean ====
section
/-!
SUPPORT. Memory by byte: a read after a write, the canonical form and that every operation keeps it, and that bringing a
memory to its canonical form changes no byte (log 9).
-/
namespace Sys2Proof.Machine

theorem Memory.read_nil (a : Nat) : Memory.read [] a = 0 := rfl

theorem Memory.read_cons (c : Host.Cell) (t : Memory) (a : Nat) : Memory.read (c :: t) a = if a = c.1 then c.2 else Memory.read t a := rfl

/-- Below its bound a memory lists nothing. -/
theorem Memory.read_below {m : Memory} {b a : Nat} (h : m.above b = true) (hab : a < b) : m.read a = 0 := by
  induction m generalizing b with
  | nil => rfl
  | cons c t ih =>
    simp only [Memory.above, Bool.and_eq_true, decide_eq_true_eq] at h
    rw [Memory.read_cons, if_neg (by omega)]
    exact ih h.2 (by omega)

theorem Memory.above_mono {m : Memory} {b d : Nat} (h : m.above b = true) (hd : d ≤ b) : m.above d = true := by
  cases m with
  | nil => rfl
  | cons c t =>
    simp only [Memory.above, Bool.and_eq_true, decide_eq_true_eq] at h ⊢
    exact ⟨⟨by omega, h.1.2⟩, h.2⟩

/-- A write keeps the canonical form above a bound. -/
theorem Memory.write_above {m : Memory} {b a : Nat} (x : Byte) (h : m.above b = true) (ha : b ≤ a) : (m.write a x).above b = true := by
  induction m generalizing b with
  | nil =>
    simp only [Memory.write]
    split
    · rfl
    · simp_all [Memory.above]
  | cons c t ih =>
    have h' := h
    simp only [Memory.above, Bool.and_eq_true, decide_eq_true_eq, bne_iff_ne] at h
    simp only [Memory.write]
    split
    · split
      · exact h'
      · rename_i h1 h2
        simp only [Memory.above, Bool.and_eq_true, decide_eq_true_eq, bne_iff_ne]
        exact ⟨⟨ha, h2⟩, ⟨by omega, h.1.2⟩, h.2⟩
    · split
      · rename_i h1 h2
        subst h2
        split
        · exact Memory.above_mono h.2 (by omega)
        · rename_i h3
          simp only [Memory.above, Bool.and_eq_true, decide_eq_true_eq, bne_iff_ne]
          exact ⟨⟨ha, h3⟩, h.2⟩
      · simp only [Memory.above, Bool.and_eq_true, decide_eq_true_eq, bne_iff_ne]
        exact ⟨h.1, ih h.2 (by omega)⟩

/-- A write keeps the canonical form. -/
theorem Memory.write_wf {m : Memory} (a : Nat) (x : Byte) (h : m.wf = true) : (m.write a x).wf = true :=
  Memory.write_above x h (Nat.zero_le a)

/-- Writes keep the canonical form. -/
theorem Memory.writes_wf {m : Memory} (l : List Host.Cell) (h : m.wf = true) : (m.writes l).wf = true := by
  induction l generalizing m with
  | nil => exact h
  | cons c t ih => exact ih (Memory.write_wf c.1 c.2 h)

/-- A canonical memory reads what was written where it was written, and is the same elsewhere. -/
theorem Memory.read_write_above {m : Memory} {b : Nat} (h : m.above b = true) (a k : Nat) (x : Byte) :
    (m.write a x).read k = if k = a then x else m.read k := by
  induction m generalizing b with
  | nil =>
    simp only [Memory.write]
    split
    · rename_i h0; subst h0; simp [Memory.read]
    · simp [Memory.read]
  | cons c t ih =>
    simp only [Memory.above, Bool.and_eq_true, decide_eq_true_eq] at h
    simp only [Memory.write]
    split
    · rename_i h1
      split
      · rename_i h0
        subst h0
        split
        · rename_i hk
          subst hk
          rw [Memory.read_cons, if_neg (by omega)]
          exact Memory.read_below h.2 (by omega)
        · rfl
      · simp only [Memory.read_cons]
    · split
      · rename_i h1 h2
        subst h2
        split
        · rename_i h0
          subst h0
          split
          · rename_i hk
            subst hk
            exact Memory.read_below h.2 (by omega)
          · rename_i hk
            rw [Memory.read_cons, if_neg hk]
        · simp only [Memory.read_cons]
          split <;> simp_all
      · rename_i h1 h2
        simp only [Memory.read_cons, ih h.2]
        split
        · rename_i hk
          subst hk
          rw [if_neg (by omega)]
        · rfl

theorem Memory.read_write {m : Memory} (h : m.wf = true) (a k : Nat) (x : Byte) : (m.write a x).read k = if k = a then x else m.read k :=
  Memory.read_write_above h a k x

/-- Writes leave every address that they do not list. -/
theorem Memory.read_writes_of_not_mem {m : Memory} (h : m.wf = true) (l : List Host.Cell) (k : Nat) (hk : ∀ c ∈ l, c.1 ≠ k) :
    (m.writes l).read k = m.read k := by
  induction l generalizing m with
  | nil => rfl
  | cons c t ih =>
    have := ih (Memory.write_wf c.1 c.2 h) (fun d hd => hk d (List.mem_cons_of_mem _ hd))
    simp only [Memory.writes, List.foldl_cons] at this ⊢
    rw [this, Memory.read_write h, if_neg (fun e => hk c (List.mem_cons_self ..) e.symm)]

theorem Memory.foldr_wf (m : Memory) : Memory.wf (m.foldr (fun c t => Memory.write t c.1 c.2) []) = true := by
  induction m with
  | nil => rfl
  | cons c t ih => exact Memory.write_wf c.1 c.2 ih

theorem Memory.canon_wf (m : Memory) : m.canon.wf = true := by
  unfold Memory.canon
  split
  · assumption
  · exact Memory.foldr_wf m

theorem Memory.canon_of_wf {m : Memory} (h : m.wf = true) : m.canon = m := by simp [Memory.canon, h]

theorem Memory.foldr_read (m : Memory) (a : Nat) : Memory.read (m.foldr (fun c t => Memory.write t c.1 c.2) []) a = m.read a := by
  induction m with
  | nil => rfl
  | cons c t ih =>
    rw [List.foldr_cons, Memory.read_write (Memory.foldr_wf t), ih]
    rfl

theorem State.tidy_ms (s : State) : s.tidy.ms = { s.ms with mem := s.ms.mem.canon, vault := s.ms.vault.canon } := rfl

end Sys2Proof.Machine
end

