-- ==== Sys2Proof/Laws/Result.lean ====
section
/-!
SUPPORT. The result of an instruction with a destination: what the shared shapes of the ALU class do for a thread that
executes alone.
-/
namespace Sys2Proof.Machine

theorem State.getG_onGroup_ne (s : State) {k u : Nat} (h : u ≠ k) (f : Group → Group) (hf : ∀ x, x.id = k → (f x).id = k) (n : Nat) :
    (s.onGroup k f).getG u n = s.getG u n := by
  rw [State.getG_eq, State.getG_eq, State.group_onGroup s _ _ f hf]
  cases s.group u <;> simp [h]

/-- A thread takes a new place and a destination takes words: the v and the z case, and the g case. -/
theorem State.writes_wrSpan {s : State} {t : Thread} (ht : s.thread t.id = some t) (F : Thread → Thread) (hid : ∀ x, (F x).id = x.id)
    (hv : (F t).regs.v = t.regs.v) (hb : (F t).out.bad = t.out.bad) (d : Opnd) (ws : List Word) :
    s.Writes ((s.onThread t.id F).wrSpan t true d ws) t d ws (F t) := by
  have hF : ∀ x : Thread, x.id = t.id → (F x).id = t.id := fun x hx => (hid x).trans hx
  have h1 : (s.onThread t.id F).thread t.id = some (F t) := State.thread_onThread_self ht F hF
  have hget : ∀ r, (F t).regs.getV r = t.regs.getV r := fun r => by simp [Regs.getV, hv]
  have hnone : ∀ x : Option Word, x = none → x.isNone = true := by rintro _ rfl; rfl
  cases d with
  | z =>
    refine ⟨⟨F t, h1, rfl, fun r _ => ?_, fun r => ?_⟩, fun u hu => State.thread_onThread_ne s hu F hF, fun g r _ => ?_, fun _ => rfl, rfl, fun _ => ⟨rfl, rfl⟩⟩
    · simp [newV, hget]
    · simp [newV, hb]
    · simp [State.wrSpan, newG]
  | v n =>
    have h2 : ((s.onThread t.id F).wrSpan t true (.v n) ws).thread t.id = some { F t with
        regs := (F t).regs.setVs n.val ws,
        out := { (F t).out with bad := (F t).out.bad.filter fun b => decide (b < n.val) || decide (n.val + ws.length ≤ b) } } :=
      (State.thread_onThread (s.onThread t.id F) t.id t.id (fun x => { x with
        regs := x.regs.setVs n.val ws,
        out := { x.out with bad := x.out.bad.filter fun b => decide (b < n.val) || decide (n.val + ws.length ≤ b) } }) (fun _ hx => hx)).trans
        (by rw [h1]; simp)
    refine ⟨⟨_, h2, ?_, fun r hr => ?_, fun r => ?_⟩, fun u hu => ?_, fun g r _ => ?_, fun _ => rfl, rfl, fun _ => ⟨rfl, rfl⟩⟩
    · have : ∀ q : Regs, (q.setVs n.val ws) = { q with v := (q.setVs n.val ws).v } := fun q => by
        cases hq : q.setVs n.val ws with
        | mk a b c e g =>
          have e1 := Regs.setVs_p q n.val ws; have e2 := Regs.setVs_k q n.val ws
          have e3 := Regs.setVs_flags q n.val ws; have e4 := Regs.setVs_clockh q n.val ws
          simp only [hq] at e1 e2 e3 e4
          simp [e1, e2, e3, e4]
      rw [this]
    · simp only [newV]
      rw [Regs.getV_setVs _ _ _ _ hr, hget]
    · simp only [newV, writtenAt, hb]
      rw [Bool.eq_iff_iff]
      simp only [List.contains_iff_mem, List.mem_filter, Bool.and_eq_true, Bool.or_eq_true, decide_eq_true_eq]
      constructor
      · rintro ⟨hm, hc⟩
        refine ⟨hm, ?_⟩
        rcases hc with hc | hc
        · rw [if_neg (by omega)]; rfl
        · split
          · rw [List.getElem?_eq_none (by omega)]; rfl
          · rfl
      · rintro ⟨hm, hc⟩
        refine ⟨hm, ?_⟩
        by_cases hle : n.val ≤ r
        · rw [if_pos hle, Option.isNone_iff_eq_none, List.getElem?_eq_none_iff] at hc
          omega
        · omega
    · show ((s.onThread t.id F).onThread t.id _).thread u = _
      rw [State.thread_onThread_ne _ hu _ (by exact fun x hx => hx), State.thread_onThread_ne s hu F hF]
    · show s.getG g r = _
      simp [newG]
  | g n =>
    have hG : ∀ x : Group, x.id = t.place.grp → (x.setGs n.val ws).id = t.place.grp := fun x hx => by simp [hx]
    refine ⟨⟨F t, h1, rfl, fun r _ => ?_, fun r => ?_⟩, fun u hu => State.thread_onThread_ne s hu F hF, fun g r hr => ?_, fun g => ?_, rfl, fun _ => ⟨rfl, rfl⟩⟩
    · simp [newV, hget]
    · simp [newV, hb]
    · show ((s.onThread t.id F).onGroup t.place.grp fun x => x.setGs n.val ws).getG g r = _
      by_cases hg : g = t.place.grp
      · subst hg
        rw [State.getG_eq, State.getG_eq, State.group_onGroup _ _ _ _ hG]
        simp only [State.group_onThread]
        cases hgr : s.group t.place.grp with
        | none => simp
        | some x => simp [newG, Group.getG_setGs x n.val r ws hr]
      · rw [State.getG_onGroup_ne _ hg _ hG, State.getG_onThread, if_neg (by simp [hg])]
    · show (((s.onThread t.id F).onGroup t.place.grp fun x => x.setGs n.val ws).group g).map _ = _
      rw [State.group_onGroup _ _ _ _ hG]
      simp only [State.group_onThread]
      cases s.group g with
      | none => rfl
      | some x =>
        simp only [Option.map_some]
        split
        · rw [Group.setGs_rest]
        · rfl

/-- Another update of the thread after it has taken its result. -/
theorem State.Writes.then_ {s s' : State} {t x : Thread} {d : Opnd} {ws : List Word} (hw : s.Writes s' t d ws x) (G : Thread → Thread)
    (hid : ∀ y : Thread, (G y).id = y.id)
    (hG : ∀ (y : Thread) v b, G { y with regs := { y.regs with v := v }, out := { y.out with bad := b } } =
      { G y with regs := { (G y).regs with v := v }, out := { (G y).out with bad := b } }) :
    s.Writes (s'.onThread t.id G) t d ws (G x) := by
  obtain ⟨⟨y, h1, h2, h3, h4⟩, ho, hg, hgr, hr, hb⟩ := hw
  have hF : ∀ z : Thread, z.id = t.id → (G z).id = t.id := fun z hz => (hid z).trans hz
  have e : G y = { G x with regs := { (G x).regs with v := y.regs.v }, out := { (G x).out with bad := y.out.bad } } := by
    conv => lhs; rw [h2]
    exact hG x _ _
  refine ⟨⟨G y, ?_, ?_, ?_, ?_⟩, fun u hu => ?_, hg, hgr, ?_, hb⟩
  · rw [State.thread_onThread s' _ _ G hF, h1]; simp
  · rw [e]
  · rw [e]; exact h3
  · rw [e]; exact h4
  · rw [State.thread_onThread_ne s' hu G hF]; exact ho u hu
  · show { s' with wk := _ } = _
    rw [hr]
    rfl

theorem aluBody_writes {s : State} {t : Thread} (ht : s.thread t.id = some t) (d : Opnd) (f : State → Thread → Res) :
    s.Writes (aluBody d f s [t] s) t d (f s t).words (t.went (f s t).flags) := by
  simp only [aluBody, List.foldl_cons, List.foldl_nil, isLead_alone]
  exact (State.writes_wrSpan ht Thread.advance (fun _ => rfl) rfl rfl d (f s t).words).then_
    (fun x => { x with regs := x.regs.addFlags (f s t).flags }) (fun _ => rfl) (fun _ _ _ => rfl)

/-- An ALU instruction with a register destination, executed alone. -/
theorem alu_yields {i : Instr} {h : Gd} {d : Opnd} {f : State → Thread → Res} (he : ∀ s, exec i s = alu i h d f s) :
    Yields i h d (fun s t => (f s t).words) (fun s t => (f s t).flags) := fun s t hr =>
  ⟨_, by rw [he, alu, hr.issue], aluBody_writes hr.thread d f⟩

end Sys2Proof.Machine
end

