-- ==== Sys2Proof/Laws/Outstanding.lean ====
section
/-!
SUPPORT. Outstanding operations: what marking a destination and delivering a result do to threads and groups.
-/
namespace Sys2Proof.Machine

theorem State.thread_eq {s s1 : State} (h : s1.wk.threads = s.wk.threads) (u : Nat) : s1.thread u = s.thread u := by
  simp [State.thread, h]

theorem State.group_eq {s s1 : State} (h : s1.wk.groups = s.wk.groups) (u : Nat) : s1.group u = s.group u := by
  simp [State.group, h]

/-- Marking d changes the scoreboards alone. -/
theorem State.hold_rest (s : State) (t : Thread) (op : Nat) (d : Opnd) (n : Nat) :
    s.hold t op d n = { s with wk := { s.wk with threads := (s.hold t op d n).wk.threads, groups := (s.hold t op d n).wk.groups } } := by
  cases d <;> rfl

/-- An update F of the thread before d is marked, and G after, where neither touches the scoreboard. -/
theorem State.hold_awaits {s s1 : State} {t : Thread} (ht : s.thread t.id = some t) (hs : s1.wk.threads = s.wk.threads)
    (hg : s1.wk.groups = s.wk.groups) (op : Nat) (d : Opnd) (n : Nat) (F G : Thread → Thread) (hF : ∀ x, (F x).id = x.id) (hG : ∀ x, (G x).id = x.id)
    (hp : (F t).out.pend = t.out.pend) (hG' : ∀ (y : Thread) p, G { y with out := { y.out with pend := p } } = { G y with out := { (G y).out with pend := p } })
    (hGp : ∀ y : Thread, (G y).out.pend = y.out.pend) :
    s.Awaits (((s1.onThread t.id F).hold t op d n).onThread t.id G) t op d n (G (F t)) := by
  have h0 : s1.thread t.id = some t := (State.thread_eq hs _).trans ht
  have h1 : (s1.onThread t.id F).thread t.id = some (F t) := State.thread_onThread_self h0 F fun x hx => (hF x).trans hx
  have hq : (G (F t)).out.pend = t.out.pend := (hGp _).trans hp
  have hGi : ∀ x : Thread, x.id = t.id → (G x).id = t.id := fun x hx => (hG x).trans hx
  have triv : ∀ y : Thread, y = { y with out := { y.out with pend := y.out.pend ++ [] } } := fun y => by simp
  cases d with
  | z =>
    refine ⟨?_, fun u hu => ?_, fun g => ?_⟩
    · show ((s1.onThread t.id F).onThread t.id G).thread t.id = _
      rw [State.thread_onThread _ _ _ G hGi, h1]
      simp [heldV, hq.symm]
    · show ((s1.onThread t.id F).onThread t.id G).thread u = _
      rw [State.thread_onThread_ne _ hu G hGi, State.thread_onThread_ne _ hu F fun x hx => (hF x).trans hx, State.thread_eq hs]
    · show s1.group g = _
      rw [State.group_eq hg]
      cases s.group g <;> simp [heldG]
  | v r =>
    refine ⟨?_, fun u hu => ?_, fun g => ?_⟩
    · show (((s1.onThread t.id F).onThread t.id _).onThread t.id G).thread t.id = _
      rw [State.thread_onThread _ _ _ G hGi, State.thread_onThread _ _ _ _ (by exact fun x hx => hx), h1]
      simp only [Option.map_some, heldV, if_true]
      rw [hG', hp]
    · show (((s1.onThread t.id F).onThread t.id _).onThread t.id G).thread u = _
      rw [State.thread_onThread_ne _ hu G hGi, State.thread_onThread_ne _ hu _ (by exact fun x hx => hx),
        State.thread_onThread_ne _ hu F fun x hx => (hF x).trans hx, State.thread_eq hs]
    · show s1.group g = _
      rw [State.group_eq hg]
      cases s.group g <;> simp [heldG]
  | g r =>
    refine ⟨?_, fun u hu => ?_, fun g => ?_⟩
    · show ((s1.onThread t.id F).onThread t.id G).thread t.id = _
      rw [State.thread_onThread _ _ _ G hGi, h1]
      simp [heldV, hq.symm]
    · show ((s1.onThread t.id F).onThread t.id G).thread u = _
      rw [State.thread_onThread_ne _ hu G hGi, State.thread_onThread_ne _ hu F fun x hx => (hF x).trans hx, State.thread_eq hs]
    · show (s1.onGroup t.place.grp _).group g = _
      rw [State.group_onGroup _ _ _ _ (by exact fun x hx => hx), State.group_eq hg]
      rfl

/-- A result delivered to a live thread, and an update of the thread after it, which touches neither what it took nor the
scoreboard. -/
theorem State.deliver_takes {s s1 : State} {t : Thread} (ht : s.thread t.id = some t) (hs : s1.wk.threads = s.wk.threads)
    (hg : s1.wk.groups = s.wk.groups) (hx : t.exited = false) (op : Nat) (d : Opnd) (ws : List Word) (G : Thread → Thread) (hG : ∀ x, (G x).id = x.id)
    (hG' : ∀ (y : Thread) v b p, G { y with regs := { y.regs with v := v }, out := { y.out with pend := p, bad := b } } =
      { G y with regs := { (G y).regs with v := v }, out := { (G y).out with pend := p, bad := b } }) :
    s.Takes ((s1.deliver t.id op d ws).onThread t.id G) t op d ws (G t) := by
  have h0 : s1.thread t.id = some t := (State.thread_eq hs _).trans ht
  let F : Thread → Thread := fun x => { x with out := { x.out with pend := x.out.pend.filter fun p => p.1 != op } }
  let P : Group → Group := fun x => { x with pend := x.pend.filter fun p => p.1 != op }
  have e : s1.deliver t.id op d ws = ((s1.onGroup t.place.grp P).onThread t.id F).wrSpan t true d ws := by
    simp only [State.deliver, h0, hx]
    rfl
  have h1 : (s1.onGroup t.place.grp P).thread t.id = some t := h0
  have hw := (State.writes_wrSpan h1 F (fun _ => rfl) rfl rfl d ws)
  rw [← e] at hw
  have hgr : ∀ g, (s1.onGroup t.place.grp P).group g = (s.group g).map fun x => if g = t.place.grp then P x else x := fun g => by
    rw [State.group_onGroup _ _ _ _ (by exact fun x hx => hx), State.group_eq hg]
  have hGi : ∀ x : Thread, x.id = t.id → (G x).id = t.id := fun x hx => (hG x).trans hx
  obtain ⟨⟨y, y1, y2, y3, y4⟩, ho, hgs, hrest, -, -⟩ := hw
  have eG : G y = { G t with regs := { (G t).regs with v := y.regs.v }, out := { (G t).out with pend := t.out.pend.filter fun p => p.1 != op, bad := y.out.bad } } := by
    conv => lhs; rw [y2]
    exact hG' t _ _ _
  refine ⟨⟨G y, ?_, ?_, ?_, ?_⟩, fun u hu => ?_, fun g r hr => ?_, fun g => ?_⟩
  · rw [State.thread_onThread _ _ _ G hGi, y1]; simp
  · rw [eG]
  · rw [eG]; exact y3
  · rw [eG]; exact y4
  · rw [State.thread_onThread_ne _ hu G hGi, ho u hu]
    exact State.thread_eq hs u
  · show (s1.deliver t.id op d ws).getG g r = _
    rw [hgs g r hr]
    have e1 : (s1.onGroup t.place.grp P).getG g r = s.getG g r := by
      rw [State.getG_eq, State.getG_eq, hgr]
      cases s.group g with
      | none => rfl
      | some x => simp only [Option.map_some]; split <;> rfl
    have e2 : ((s1.onGroup t.place.grp P).group g).isSome = (s.group g).isSome := by rw [hgr]; simp
    rw [e1, e2]
  · show ((s1.deliver t.id op d ws).group g).map _ = _
    rw [hrest, hgr]
    cases s.group g with
    | none => rfl
    | some x => simp only [Option.map_some]; split <;> rfl

end Sys2Proof.Machine
end

