-- ==== Sys2Proof/Tests/Slice0.lean ====
section
/-!
SUPPORT. Tests: ill-formed terms, words of the manual, results that the manual works out, and for each statement a state and operands
that meet its hypotheses.
-/
open Sys2Proof Sys2Proof.Machine
namespace Sys2Proof.Tests
set_option Elab.async false

/-! ## Small states -/

/-- The guard p7. -/
def h7 : Gd := ⟨7, false, false, false⟩
def q0 : QuadId := ⟨⟨0, 0⟩, 0⟩
/-- A thread (5) of a team of one thread (3), group 4, context 6, launch 1, cluster 2, partition 0, on a core, ready to issue one word. -/
def ready (core : CoreId) (priv : Bool) (cls word : Nat) : State :=
  let pl : Place := {
    core := core, quad := 0, lane := 0, team := 3, grp := 4, grpid := 0, set := 0, member := 0, tx := 0, ty := 0, tz := 0,
    part := 0, root := 0, asid := 0, priv := priv, budget := 128, clp := ownCluster core }
  let t : Thread := { Thread.fresh 5 pl 0x1000 with pos := ⟨0x1000, 0x1008, true⟩, mode := .run, clause := ⟨cls, false, [word]⟩ }
  { State.reset with
    md := { State.reset.md with bootst := 2 }
    nextId := 7
    focus := some ⟨core, 0⟩
    en := { State.reset.en with ctxs := [Ctx.fresh 6 core 0] }
    wk := { State.reset.wk with
      threads := [t]
      groups := [Group.fresh 4 3 core 0 64]
      teams := [Team.single 3 1 2 0 core 6 128]
      clusters := [⟨2, 0, core.core, 1, 1, [3], []⟩]
      launches := [⟨1, 0, 0, ⟨0⟩, 0, 0, 0, 1, some 64, .placed, none, none⟩]
      sets := [(⟨core, 0⟩, [5])]
      quays := if priv then [Quay.fresh core 0 5] else []
      parts := State.reset.wk.parts.modify 0 fun p => { p with state := .running, cfg := { p.cfg with rows := 1 } } } }
/-- A mesh thread. -/
def rig : State := ready ⟨0, 0⟩ false 0 0x01E0020203000000
/-- The thread of a quay core. -/
def rigQ : State := ready ⟨0, 64⟩ true 7 0x04E0000000000002
/-- The thread that stands first in the issue set. -/
def th (s : State) : Thread :=
  match s.front with
  | t :: _ => t
  | [] => Thread.fresh 0 ⟨⟨0, 0⟩, 0, 0, 0, 0, 0, 0, 0, 0, 0, 0, 0, 0, 0, false, 0, .host⟩ 0
/-- The thread of a rig changed. -/
def on (s : State) (f : Thread → Thread) : State := s.onThread 5 f
/-- A rig whose thread holds a value in a pair. -/
def pair (s : State) (n x : Nat) : State := on s fun t => { t with regs := t.regs.setVs n [BitVec.ofNat 32 x, BitVec.ofNat 32 (x / 2 ^ 32)] }
def one (s : State) (n x : Nat) : State := on s fun t => { t with regs := t.regs.setV n (BitVec.ofNat 32 x) }

/-- The thread of a state issues alone and executes i, as a check. -/
def runsB (s : State) (h : Gd) (i : Instr) : Bool :=
  let t := th s
  s.front.length == 1 && t.out.hits == [] && (useOf i).fits t.place.budget && (h.p.val == 7 || !s.pending t [.p h.p.val]) &&
    t.regs.getP h.p.val == !h.neg && !s.pending t (useOf i).refs && !(useOf i).readsBad t

theorem front_th {s : State} (e : s.front.length = 1) : s.front = [th s] := by
  obtain ⟨t, ht⟩ := List.length_eq_one_iff.mp e
  simp only [th, ht]

theorem runs_of {s h i} (e : runsB s h i = true) : s.Runs h i (th s) := by
  simp only [runsB, Bool.and_eq_true, Bool.or_eq_true, beq_iff_eq, Bool.not_eq_true'] at e
  obtain ⟨⟨⟨⟨⟨⟨e1, e2⟩, e3⟩, e4⟩, e5⟩, e6⟩, e7⟩ := e
  exact { front := front_th e1, noHit := e2, fits := e3, settled := e4, guard := e5, free := e6, whole := e7 }

/-- Every instruction of a list executes for the thread of a state. -/
theorem all_run {s : State} {is : List Instr} (e : is.all (runsB s h7) = true) : ∀ i ∈ is, s.Runs h7 i (th s) :=
  fun i hi => runs_of (List.all_eq_true.mp e i hi)

/-- A state whose partition owns the lowest gigabyte, mapped to itself with every permission by an entry of the TLBs. -/
def mapped (s : State) : State :=
  let e : TlbEntry := ⟨0, 0, true, 0, 2 ^ 30, 115, false⟩
  { s with
    ms := { s.ms with l1tlb := [(⟨0, 0⟩, e), (⟨0, 64⟩, e), (⟨0, 128⟩, e)] }
    wk := { s.wk with parts := s.wk.parts.modify 0 fun p => { p with cfg := { p.cfg with hbmw := Vector.replicate 4 (512 * 2 ^ 32) } } } }
/-- The cells of n bytes of a little-endian number at an address. -/
def cells (a n x : Nat) : Memory := (List.range n).filterMap fun k => let b := BitVec.ofNat 8 (x / 2 ^ (8 * k)); if b = 0 then none else some ⟨a + k, b⟩
/-- A state whose global memory is a list of cells. -/
def holding (s : State) (m : Memory) : State := { s with ms := { s.ms with mem := m } }

theorem ok_of {ε α : Type} {e : Except ε α} {v : α} (h : e.toOption = some v) : e = .ok v := by
  cases e <;> simp_all [Except.toOption]
theorem error_of {ε α : Type} {e : Except ε α} {f : ε} (h : (match e with | .error x => some x | .ok _ => none) = some f) : e = .error f := by
  cases e <;> simp_all
theorem logRoom_of {s : State} {t : Thread} (e : decide ((s.ms.oplog.filter fun o => o.core == t.place.core).length < 64) = true) : s.logRoom t := by
  unfold State.logRoom; exact of_decide_eq_true e
theorem inSpace_of {x : Nat} (e : decide (x / 2 ^ 47 = 0 ∨ x / 2 ^ 47 = 2 ^ 17 - 1) = true) : inSpace x := by
  unfold inSpace; exact of_decide_eq_true e

/-! ## Words of the manual, bit by bit -/

theorem test_decode_integer_1 :
    let h : Gd := ⟨7, false, false, false⟩
    decodeWord false 0 0x00E0000000000000 = .ok (.nop h) ∧
    decodeWord false 0 0x01E0010203000002 = .ok (.iadd h (.v 1) (.v 2) (.v 3) .ssat) ∧
    decodeWord false 0 0x01E0010203000003 = .ok (.iadd h (.v 1) (.v 2) (.v 3) .usat) ∧
    decodeWord false 0 0x01E10202FFFFFFFF = .ok (.iaddI h (.v 2) (.v 2) 0xFFFFFFFF) ∧
    decodeWord false 0 0x02E0010203000000 = .ok (.isub h (.v 1) (.v 2) (.v 3) .wrap) ∧
    decodeWord false 0 0x02E1018200000007 = .ok (.isubI h (.v 1) (.g 2) 7) ∧
    decodeWord false 0 0x03E00102FF000000 = .ok (.imul h (.v 1) (.v 2) .z) ∧
    decodeWord false 0 0x03E1010200010001 = .ok (.imulI h (.v 1) (.v 2) 0x10001) ∧
    decodeWord false 0 0x04E0010203000001 = .ok (.imulh h (.v 1) (.v 2) (.v 3) true) ∧
    decodeWord false 0 0x05E0010203040000 = .ok (.imad h (.v 1) (.v 2) (.v 3) (.v 4)) ∧
    decodeWord false 0 0x06E00802030A0001 = .ok (.imadw h (.v 8) (.v 2) (.v 3) (.v 10) true) ∧
    decodeWord false 0 0x07E0010203000000 = .ok (.idiv h (.v 1) (.v 2) (.v 3) false) := by
  decide

theorem test_decode_integer_2 :
    let h : Gd := ⟨7, false, false, false⟩
    decodeWord false 0 0x08E0010203000001 = .ok (.irem h (.v 1) (.v 2) (.v 3) true) ∧
    decodeWord false 0 0x09E0010200000002 = .ok (.iabs h (.v 1) (.v 2) true) ∧
    decodeWord false 0 0x0AE0010200000000 = .ok (.ineg h (.v 1) (.v 2) false) ∧
    decodeWord false 0 0x0BE0010203000001 = .ok (.imin h (.v 1) (.v 2) (.v 3) true) ∧
    decodeWord false 0 0x0BE1010200000005 = .ok (.iminI h (.v 1) (.v 2) 5) ∧
    decodeWord false 0 0x0CE0010203000000 = .ok (.imax h (.v 1) (.v 2) (.v 3) false) ∧
    decodeWord false 0 0x0CE1010200000005 = .ok (.imaxI h (.v 1) (.v 2) 5) ∧
    decodeWord false 0 0x0DE0010203040001 = .ok (.iclamp h (.v 1) (.v 2) (.v 3) (.v 4) true) := by
  decide

theorem test_decode_logic_1 :
    let h : Gd := ⟨7, false, false, false⟩
    decodeWord false 0 0x10E0010203000000 = .ok (.andB h (.v 1) (.v 2) (.v 3)) ∧
    decodeWord false 0 0x10E10102000000FF = .ok (.andI h (.v 1) (.v 2) 0xFF) ∧
    decodeWord false 0 0x11E0010203000000 = .ok (.orB h (.v 1) (.v 2) (.v 3)) ∧
    decodeWord false 0 0x11E10102000000FF = .ok (.orI h (.v 1) (.v 2) 0xFF) ∧
    decodeWord false 0 0x12E0010203000000 = .ok (.xorB h (.v 1) (.v 2) (.v 3)) ∧
    decodeWord false 0 0x12E10102000000FF = .ok (.xorI h (.v 1) (.v 2) 0xFF) ∧
    decodeWord false 0 0x13E0010203000000 = .ok (.andnB h (.v 1) (.v 2) (.v 3)) ∧
    decodeWord false 0 0x13E10102000000FF = .ok (.andnI h (.v 1) (.v 2) 0xFF) ∧
    decodeWord false 0 0x14E00102030400CA = .ok (.lop3 h (.v 1) (.v 2) (.v 3) (.v 4) 0xCA) ∧
    decodeWord false 0 0x15E0010203000000 = .ok (.shl h (.v 1) (.v 2) (.v 3)) ∧
    decodeWord false 0 0x15E101020000001F = .ok (.shlI h (.v 1) (.v 2) 31) ∧
    decodeWord false 0 0x16E0010203000001 = .ok (.shr h (.v 1) (.v 2) (.v 3) true) := by
  decide

theorem test_decode_logic_2 :
    let h : Gd := ⟨7, false, false, false⟩
    decodeWord false 0 0x16E101020000001F = .ok (.shrI h (.v 1) (.v 2) 31) ∧
    decodeWord false 0 0x17E0010203000001 = .ok (.rot h (.v 1) (.v 2) (.v 3) true) ∧
    decodeWord false 0 0x17E101020000001F = .ok (.rotI h (.v 1) (.v 2) 31) ∧
    decodeWord false 0 0x18E0010203040000 = .ok (.shf h (.v 1) (.v 2) (.v 3) (.v 4) false) ∧
    decodeWord false 0 0x19E0010203000001 = .ok (.bfe h (.v 1) (.v 2) (.v 3) true) ∧
    decodeWord false 0 0x1AE0010203040000 = .ok (.bfi h (.v 1) (.v 2) (.v 3) (.v 4)) ∧
    decodeWord false 0 0x1BE0010200000000 = .ok (.popc h (.v 1) (.v 2)) ∧
    decodeWord false 0 0x1CE0010200000000 = .ok (.clz h (.v 1) (.v 2)) ∧
    decodeWord false 0 0x1DE0010200000000 = .ok (.ctz h (.v 1) (.v 2)) ∧
    decodeWord false 0 0x1EE0010200000000 = .ok (.brev h (.v 1) (.v 2)) ∧
    decodeWord false 0 0x1FE0010203040000 = .ok (.perm h (.v 1) (.v 2) (.v 3) (.v 4)) := by
  decide

theorem test_decode_pairs_and_predicates_1 :
    let h : Gd := ⟨7, false, false, false⟩
    decodeWord false 0 0x20E0020406000000 = .ok (.iadd64 h (.v 2) (.v 4) (.v 6)) ∧
    decodeWord false 0 0x20E1020480000000 = .ok (.iadd64I h (.v 2) (.v 4) 0x80000000) ∧
    decodeWord false 0 0x21E0020486000000 = .ok (.isub64 h (.v 2) (.v 4) (.g 6)) ∧
    decodeWord false 0 0x22E0020406080000 = .ok (.imad64 h (.v 2) (.v 4) (.v 6) (.v 8)) ∧
    decodeWord false 0 0x23E0020407000000 = .ok (.shl64 h (.v 2) (.v 4) (.v 7)) ∧
    decodeWord false 0 0x24E0020407000001 = .ok (.shr64 h (.v 2) (.v 4) (.v 7) true) ∧
    decodeWord false 0 0x25E008020500000B = .ok (.lea h (.v 8) (.v 2) (.v 5) 3 true) ∧
    decodeWord false 0 0x28E0010001000002 = .ok (.isetp h 1 (.v 0) (.v 1) .lt false .set) ∧
    decodeWord false 0 0x28E001020300001D = .ok (.isetp h 1 (.v 2) (.v 3) .ge true .and) ∧
    decodeWord false 0 0x29E0020405000035 = .ok (.fsetp h 2 (.v 4) (.v 5) (.cmp .ge false) .andn) ∧
    decodeWord false 0 0x29E0020405000006 = .ok (.fsetp h 2 (.v 4) (.v 5) .ord .set) ∧
    decodeWord false 0 0x2AE003040600002A = .ok (.dsetp h 3 (.v 4) (.v 6) (.cmp .lt true) .or) := by
  decide

theorem test_decode_pairs_and_predicates_2 :
    let h : Gd := ⟨7, false, false, false⟩
    decodeWord false 0 0x2CE0010203040000 = .ok (.sel h (.v 1) (.v 2) (.v 3) (.v 4)) ∧
    decodeWord false 0 0x2DE0010203070080 = .ok (.plop h 1 2 3 7 0x80) ∧
    decodeWord false 0 0x2EE0050000000000 = .ok (.p2v h (.v 5)) ∧
    decodeWord false 0 0x2FE0000500000006 = .ok (.v2p h (.v 5) 6) ∧
    decodeWord false 0 0x30E0020400000001 = .ok (.mov h (.v 2) (.v 4) true) ∧
    decodeWord false 0 0x3131020000000000 = .ok (.movi ⟨1, true, false, false⟩ (.v 2) 0) ∧
    decodeWord false 0 0x32E0051800000000 = .ok (.srd h (.v 5) .clockl) ∧
    decodeWord false 0 0x32E0051C00000001 = .ok (.srdClr h (.v 5)) := by
  decide

theorem test_decode_float_1 :
    let h : Gd := ⟨7, false, false, false⟩
    decodeWord false 0 0x40E0010203000012 = .ok (.fadd h (.v 1) (.v 2) (.v 3) .ru true false) ∧
    decodeWord false 0 0x41E0010203000023 = .ok (.fmul h (.v 1) (.v 2) (.v 3) .rd false true) ∧
    decodeWord false 0 0x42E0060104050001 = .ok (.ffma h (.v 6) (.v 1) (.v 4) (.v 5) .rz false false false) ∧
    decodeWord false 0 0x42E0010203040040 = .ok (.ffma h (.v 1) (.v 2) (.v 3) (.v 4) .rn false false true) ∧
    decodeWord false 0 0x43E0010203000000 = .ok (.fmin h (.v 1) (.v 2) (.v 3)) ∧
    decodeWord false 0 0x44E0010203000000 = .ok (.fmax h (.v 1) (.v 2) (.v 3)) ∧
    decodeWord false 0 0x45E0010200000005 = .ok (.frnd h (.v 1) (.v 2) .rz true) ∧
    decodeWord false 0 0x46E0010203000000 = .ok (.fdiv h (.v 1) (.v 2) (.v 3) .rn) ∧
    decodeWord false 0 0x47E0010200000002 = .ok (.fsqrt h (.v 1) (.v 2) .ru) ∧
    decodeWord false 0 0x48E0010200000000 = .ok (.frsq h (.v 1) (.v 2)) ∧
    decodeWord false 0 0x49E0010200000000 = .ok (.frcp h (.v 1) (.v 2)) ∧
    decodeWord false 0 0x4AE0010200000000 = .ok (.fex2 h (.v 1) (.v 2)) := by
  decide

theorem test_decode_float_2 :
    let h : Gd := ⟨7, false, false, false⟩
    decodeWord false 0 0x4BE0010200000000 = .ok (.flg2 h (.v 1) (.v 2)) ∧
    decodeWord false 0 0x4CE0010200000000 = .ok (.fsinpi h (.v 1) (.v 2)) ∧
    decodeWord false 0 0x4DE0010200000000 = .ok (.fcospi h (.v 1) (.v 2)) ∧
    decodeWord false 0 0x4EE0010200000000 = .ok (.fclass h (.v 1) (.v 2)) ∧
    decodeWord false 0 0x4FE0010203000003 = .ok (.fscale h (.v 1) (.v 2) (.v 3) .rd) := by
  decide

theorem test_decode_double_and_packed_1 :
    let h : Gd := ⟨7, false, false, false⟩
    decodeWord false 0 0x50E0020406000010 = .ok (.dadd h (.v 2) (.v 4) (.v 6) .rn true false) ∧
    decodeWord false 0 0x51E0020406000001 = .ok (.dmul h (.v 2) (.v 4) (.v 6) .rz false false) ∧
    decodeWord false 0 0x52E0020406080040 = .ok (.dfma h (.v 2) (.v 4) (.v 6) (.v 8) .rn false false true) ∧
    decodeWord false 0 0x53E0020406000000 = .ok (.dmin h (.v 2) (.v 4) (.v 6)) ∧
    decodeWord false 0 0x54E0020406000000 = .ok (.dmax h (.v 2) (.v 4) (.v 6)) ∧
    decodeWord false 0 0x55E0020406000003 = .ok (.ddiv h (.v 2) (.v 4) (.v 6) .rd) ∧
    decodeWord false 0 0x56E0020400000000 = .ok (.dsqrt h (.v 2) (.v 4) .rn) ∧
    decodeWord false 0 0x58E0010203000020 = .ok (.hadd2 h (.v 1) (.v 2) (.v 3) false true) ∧
    decodeWord false 0 0x59E0010203000000 = .ok (.hmul2 h (.v 1) (.v 2) (.v 3) false false) ∧
    decodeWord false 0 0x5AE0010203040070 = .ok (.hfma2 h (.v 1) (.v 2) (.v 3) (.v 4) true true true) ∧
    decodeWord false 0 0x5BE0010203000000 = .ok (.hmin2 h (.v 1) (.v 2) (.v 3)) ∧
    decodeWord false 0 0x5CE0010203000000 = .ok (.hmax2 h (.v 1) (.v 2) (.v 3)) := by
  decide

theorem test_decode_double_and_packed_2 :
    let h : Gd := ⟨7, false, false, false⟩
    decodeWord false 0 0x5DE0010203040000 = .ok (.bfma2 h (.v 1) (.v 2) (.v 3) (.v 4) false false false) ∧
    decodeWord false 0 0x5EE0010203000010 = .ok (.badd2 h (.v 1) (.v 2) (.v 3) true false) ∧
    decodeWord false 0 0x5FE0010203000000 = .ok (.bmul2 h (.v 1) (.v 2) (.v 3) false false) ∧
    decodeWord false 0 0x60E0010203040005 = .ok (.idot4 h (.v 1) (.v 2) (.v 3) (.v 4) true false true) := by
  decide

theorem test_decode_conversion_and_cross_lane_1 :
    let h : Gd := ⟨7, false, false, false⟩
    decodeWord false 0 0x68E0030200000129 = .ok (.cvt h (.v 3) (.v 2) .rz .s32 .f32 0) ∧
    decodeWord false 0 0x68E0030200000A80 = .ok (.cvt h (.v 3) (.v 2) .rn .f32 .s8 2) ∧
    decodeWord false 0 0x68E004020000032D = .ok (.cvt h (.v 4) (.v 2) .rz .w48 .f64 0) ∧
    decodeWord false 0 0x69E00102FF000007 = .ok (.dxpack h (.v 1) (.v 2) .z true 3) ∧
    decodeWord false 0 0x6AE0010203000003 = .ok (.dxunpk h (.v 1) (.v 2) (.v 3) true true) ∧
    decodeWord false 0 0x70E00A08FF0B0001 = .ok (.shfl h (.v 10) (.v 8) .z (.v 11) .ofs) ∧
    decodeWord false 0 0x71E00204FF000003 = .ok (.vote h (.v 2) (.v 4) .z .mask) ∧
    decodeWord false 0 0x72E08304FF000000 = .ok (.redux h (.g 3) (.v 4) .z .add) ∧
    decodeWord false 0 0x73E00100FF000000 = .ok (.elect h (.v 1) .z) ∧
    decodeWord false 0 0x74E0020406000001 = .ok (.matchL h (.v 2) (.v 4) (.v 6) true) ∧
    decodeWord false 0 0x75E00908FF000000 = .ok (.scan h (.v 9) (.v 8) .z .add false) ∧
    decodeWord false 0 0x75E00908FF00000E = .ok (.scan h (.v 9) (.v 8) .z .maxS true) := by
  decide

theorem test_decode_conversion_and_cross_lane_2 :
    let h : Gd := ⟨7, false, false, false⟩
    decodeWord false 0 0x76E0010204000000 = .ok (.rdfirst h (.v 1) (.v 2) (.v 4) false) := by
  decide

theorem test_decode_memory_1 :
    let h : Gd := ⟨7, false, false, false⟩
    decodeWord false 1 0x00E2050239400000 = .ok (.ld h (.v 5) ⟨.v 2, 0, 3, .die⟩ .b32 false true false) ∧
    decodeWord false 1 0x00E20902F02FFFFE = .ok (.ld h (.v 9) ⟨.v 2, -2, 15, .core⟩ .b16 true false false) ∧
    decodeWord false 1 0x00E204021D900040 = .ok (.ld h (.v 4) ⟨.v 2, 64, 1, .system⟩ .b128 false true true) ∧
    decodeWord false 1 0x01E2070226400000 = .ok (.st h (.v 7) ⟨.v 2, 0, 2, .cluster⟩ .b32 true) ∧
    decodeWord false 1 0x02E2040901700000 = .ok (.ldv h (.v 4) ⟨.v 9, 0, 0, .core⟩ .b64 false true true) ∧
    decodeWord false 1 0x03E204090217FFFF = .ok (.stv h (.v 4) ⟨.v 9, -1, 0, .core⟩ .b8 true true) ∧
    decodeWord false 1 0x04E2061400480000 = .ok (.ldt h (.v 6) ⟨.v 20, 0, 0, .core⟩ .b32 true false false) ∧
    decodeWord false 1 0x04E2120D09500000 = .ok (.ldt h (.v 18) ⟨.v 13, 0, 0, .die⟩ .b32 false true true) ∧
    decodeWord false 1 0x05E2061406500000 = .ok (.stt h (.v 6) ⟨.v 20, 0, 0, .cluster⟩ .b32 true true) ∧
    decodeWord false 1 0x06E2FF1400400000 = .ok (.tagopEmpty h ⟨.v 20, 0, 0, .core⟩ .b32 false false) ∧
    decodeWord false 1 0x06E2FF1402780000 = .ok (.tagopFull h ⟨.v 20, 0, 0, .core⟩ .b64 true true) ∧
    decodeWord false 1 0x08E0050206070F94 = .ok (.atom h ⟨.v 5, .v 2, .v 6, .cas (.v 7), false, 0, .system, .acqrel⟩) := by
  decide

theorem test_decode_memory_2 :
    let h : Gd := ⟨7, false, false, false⟩
    decodeWord false 1 0x08E0FF02060038A4 = .ok (.atom h ⟨.z, .v 2, .v 6, .inc, false, 3, .die, .relaxed⟩) ∧
    decodeWord false 1 0x09E0040906000607 = .ok (.atomv h ⟨.v 4, .v 9, .v 6, .add, true, 0, .cluster, .release⟩ true) ∧
    decodeWord false 1 0x10E2050800400000 = .ok (.lds h (.v 5) ⟨.v 8, 0, 0, .core⟩ .b32 false) ∧
    decodeWord false 1 0x11E308020400005B = .ok (.smp h (.v 8) (.v 2) (.v 4) true .repeatW true 5) ∧
    decodeWord false 1 0x12E0000000000002 = .ok (.fsamp h .die) ∧
    decodeWord false 1 0x18E0C10000000007 = .ok (.fence h 1 .system true .all) ∧
    decodeWord false 1 0x18E0C00000000022 = .ok (.fence h 0 .die false .writes) ∧
    decodeWord false 1 0x19E000C100000000 = .ok (.fwait h 1) ∧
    decodeWord false 1 0x1AE0000000000018 = .ok (.fjoin h 0x18) ∧
    decodeWord false 1 0x20E2000200180080 = .ok (.pref h (.v 2) 128 .smp) ∧
    decodeWord false 1 0x21E200024C080000 = .ok (.cwb h ⟨.v 2, 0, 4, .system⟩ true) ∧
    decodeWord false 1 0x22E2000200000008 = .ok (.cinvIcache h (.v 2) 8) := by
  decide

theorem test_decode_memory_3 :
    let h : Gd := ⟨7, false, false, false⟩
    decodeWord false 1 0x22E2000200080000 = .ok (.cinvDiscard h (.v 2) 0) := by
  decide

theorem test_decode_matrix :
    let h : Gd := ⟨7, false, false, false⟩
    decodeWord false 2 0x00E3000800000001 = .ok (.mxld h (.v 8) 1) ∧
    decodeWord false 2 0x01E3D20000000005 = .ok (.mxrun h 2 1 true) ∧
    decodeWord false 2 0x02E3D70000000000 = .ok (.mxz h 7) ∧
    decodeWord false 2 0x03E3D20600000001 = .ok (.mxst h 2 (.v 6) .f32 false none) ∧
    decodeWord false 2 0x03E3D2060700000D = .ok (.mxst h 2 (.v 6) .f32 true (some (.v 7))) ∧
    decodeWord false 2 0x04E3D10600000001 = .ok (.mxlda h 1 (.v 6) true) ∧
    decodeWord false 2 0x05E3030000000000 = .ok (.mxqryOcc h (.v 3)) ∧
    decodeWord false 2 0x05E3040000000001 = .ok (.mxqryEst h (.v 4)) := by
  decide

theorem test_decode_copy_1 :
    let h : Gd := ⟨7, false, false, false⟩
    decodeWord false 3 0x00E30C0600000000 = .ok (.cpy h ⟨.v 12, .v 6, 0, .core, false⟩) ∧
    decodeWord false 3 0x00E30C0600000063 = .ok (.cpy h ⟨.v 12, .v 6, 3, .die, true⟩) ∧
    decodeWord false 3 0x01E30C060000003F = .ok (.cpys h ⟨.v 12, .v 6, 15, .system, false⟩) ∧
    decodeWord false 3 0x02E30C0600000000 = .ok (.cpyb h ⟨.v 12, .v 6, 0, .core, false⟩) ∧
    decodeWord false 3 0x03E3FF0600000015 = .ok (.cpyx h ⟨.z, .v 6, 5, .cluster, false⟩) ∧
    decodeWord false 3 0x04E3FF0609000000 = .ok (.cfill h ⟨.z, .v 6, 0, .core, false⟩ (.v 9)) ∧
    decodeWord false 3 0x08E0C10000000000 = .ok (.cseal h 1) ∧
    decodeWord false 3 0x09E0000000000002 = .ok (.cwait h 2) ∧
    decodeWord false 3 0x0AE004C100000000 = .ok (.cprom h (.v 4) 1) ∧
    decodeWord false 3 0x0AE005C100000001 = .ok (.cpromStat h (.v 5) 1) ∧
    decodeWord false 3 0x0CE30E0000000002 = .ok (.cpub h (.v 14) 2) ∧
    decodeWord false 3 0x0DE3000409000002 = .ok (.cshad h 2 (.v 4) (.v 9)) := by
  decide

theorem test_decode_copy_2 :
    let h : Gd := ⟨7, false, false, false⟩
    decodeWord false 3 0x0DE30E000000000A = .ok (.cshadOff h (.v 14) 2) := by
  decide

theorem test_decode_field :
    let h : Gd := ⟨7, false, false, false⟩
    decodeWord false 4 0x00E3050A00000021 = .ok (.fopen h (.v 5) (.v 10) 33) ∧
    decodeWord false 4 0x01E3000405000001 = .ok (.fst h (.v 4) (.v 5) 1) ∧
    decodeWord false 4 0x02E3000000000009 = .ok (.fseal h 9) ∧
    decodeWord false 4 0x03E3001400022242 = .ok (.fcomp h (.v 20) 2 9 2 .miss) ∧
    decodeWord false 4 0x04E300000000003F = .ok (.finv h 63) ∧
    decodeWord false 4 0x05E3000000000001 = .ok (.frel h 1) ∧
    decodeWord false 4 0x06E3040000000003 = .ok (.fqry h (.v 4) 3) ∧
    decodeWord false 4 0x06E3040000000043 = .ok (.fqryAnc h (.v 4) 3) ∧
    decodeWord false 4 0x08E3140A02001003 = .ok (.hld h (.v 20) (.v 10) 3 0 .wait (some 2)) ∧
    decodeWord false 4 0x09E3140A00000604 = .ok (.hres h (.v 20) (.v 10) 4 8 .zero none) := by
  decide

theorem test_decode_splat :
    let h : Gd := ⟨7, false, false, false⟩
    decodeWord false 5 0x00E3000408000000 = .ok (.spview h (.v 4) (.v 8)) ∧
    decodeWord false 5 0x01E30004C9000000 = .ok (.spbegin h (.v 4) (some 1)) ∧
    decodeWord false 5 0x01E30004FF000000 = .ok (.spbegin h (.v 4) none) ∧
    decodeWord false 5 0x02E3000608000000 = .ok (.spsub h (.v 6) (.v 8)) ∧
    decodeWord false 5 0x03E3000000000000 = .ok (.spend h) ∧
    decodeWord false 5 0x03E3000000000001 = .ok (.spendAbort h) ∧
    decodeWord false 5 0x04E3000406000000 = .ok (.spbwd h (.v 4) (.v 6)) ∧
    decodeWord false 5 0x05E3000406000000 = .ok (.spred h (.v 4) (.v 6)) ∧
    decodeWord false 5 0x06E3050000000000 = .ok (.spqry h (.v 5)) := by
  decide

theorem test_decode_control_1 :
    let h : Gd := ⟨7, false, false, false⟩
    decodeWord false 6 0x00E1000000000028 = .ok (.bra h 0x28) ∧
    decodeWord false 6 0x0031000000000028 = .ok (.bra ⟨1, true, false, false⟩ 0x28) ∧
    decodeWord false 6 0x01E0001E00000000 = .ok (.brx h (.v 30)) ∧
    decodeWord false 6 0x02E11E00FFFFFF00 = .ok (.call h (.v 30) 0xFFFFFF00) ∧
    decodeWord false 6 0x03E0001E00000000 = .ok (.ret h (.v 30)) ∧
    decodeWord false 6 0x04E0000000000000 = .ok (.exit h) ∧
    decodeWord false 6 0x06E100000000FF00 = .ok (.waitc h 0 0 15 15) ∧
    decodeWord false 6 0x07E10000000003E8 = .ok (.sleep h 1000) ∧
    decodeWord false 6 0x08E000C100000000 = .ok (.sleepu h 1) ∧
    decodeWord false 6 0x09E0000000000000 = .ok (.yieldI h) ∧
    decodeWord false 6 0x0AE100000000000B = .ok (.bar h 11) ∧
    decodeWord false 6 0x0BE0C20000000001 = .ok (.arrive h 2 1) := by
  decide

theorem test_decode_control_2 :
    let h : Gd := ⟨7, false, false, false⟩
    decodeWord false 6 0x0CE000C200000000 = .ok (.bwait h 2) ∧
    decodeWord false 6 0x10E0C91400000002 = .ok (.qpush h 1 (.v 20) .die) ∧
    decodeWord false 6 0x11E014C805000002 = .ok (.qpop h (.v 20) 0 (.v 5) .die) ∧
    decodeWord false 6 0x12E014C8FF000003 = .ok (.qtry h (.v 20) 0 .z .system) ∧
    decodeWord false 6 0x13E000C900000000 = .ok (.qclose h 1) ∧
    decodeWord false 6 0x14E006C800000000 = .ok (.qqry h (.v 6) 0) ∧
    decodeWord false 6 0x18E100000000002A = .ok (.bkpt h 0x2A) := by
  decide

theorem test_decode_system :
    let h : Gd := ⟨7, false, false, false⟩
    decodeWord false 7 0x00E100000000002A = .ok (.trap h 0x2A) ∧
    decodeWord false 7 0x01E0000000000001 = .ok (.tretSkip h (.kernelLocal false)) ∧
    decodeWord false 7 0x01E0000000000008 = .ok (.tretResume h (.kernelLocal true)) ∧
    decodeWord false 7 0x06E3080600000002 = .ok (.launch h (.v 8) (.v 6) 2) := by
  decide

theorem test_decode_system_on_a_quay_core_1 :
    let h : Gd := ⟨7, false, false, false⟩
    decodeWord true 7 0x01E0090000000000 = .ok (.tretResume h (.quay (.v 9) (.v 0))) ∧
    decodeWord true 7 0x01E0090000000001 = .ok (.tretSkip h (.quay (.v 9) (.v 0))) ∧
    decodeWord true 7 0x01E0090000000002 = .ok (.tretRetry h (.v 9) (.v 0)) ∧
    decodeWord true 7 0x01E0090000000003 = .ok (.tretFail h (.v 9) (.v 0)) ∧
    decodeWord true 7 0x01E0090000000004 = .ok (.tretKill h (.v 9) (.v 0)) ∧
    decodeWord true 7 0x01E009000A0C0005 = .ok (.tretAssist h (.v 9) (.v 0) (.v 10) (.v 12)) ∧
    decodeWord true 7 0x02E0000800000004 = .ok (.swr h .wroot (.v 8)) ∧
    decodeWord true 7 0x03E0050000000000 = .ok (.srdp h (.v 5) .partid) ∧
    decodeWord true 7 0x04E0000406000000 = .ok (.tlbiVa h (.v 4) (.v 6)) ∧
    decodeWord true 7 0x04E0000006000001 = .ok (.tlbiAsid h (.v 6)) ∧
    decodeWord true 7 0x04E0000000000002 = .ok (.tlbiAll h) ∧
    decodeWord true 7 0x05E0090406000001 = .ok (.split h (.v 9) (.v 4) (.v 6) true) := by
  decide

theorem test_decode_system_on_a_quay_core_2 :
    let h : Gd := ⟨7, false, false, false⟩
    decodeWord true 7 0x07E305080A000000 = .ok (.attest h (.v 5) (.v 8) (.v 10)) ∧
    decodeWord true 7 0x08E0000000000000 = .ok (.ologrNext h (.v 0)) ∧
    decodeWord true 7 0x08E0080000000001 = .ok (.ologrOpnd h (.v 8) (.v 0)) := by
  decide

/-! ## Witnesses: steps, decoding, issue -/

def addI : Instr := .iadd h7 (.v 2) (.v 2) (.v 3) .wrap

/-- An issue that is named, with and without a word that its quadrant has issued in the cycle; a pending group that is ready; members that
wait after their word, with their wait over and not. -/
theorem witness_StepRunsDecodedInstruction :
    (let s : State := { rig with agenda := [⟨3, .issue q0⟩], focus := none }
     let s0 : State := { (s.pick.2.divide q0) with focus := some q0 }
     s.agenda = ⟨3, .issue q0⟩ :: [] ∧ s.pick = (some (.issue q0), s.pick.2) ∧ s0.front = [th rig] ∧ (th rig).clause.words[(th rig).idx]? = some 0x01E0020203000000 ∧
       decodeWord (decide (64 ≤ (th rig).place.core.core)) (th rig).clause.cls 0x01E0020203000000 = .ok addI ∧ s.waited = []) ∧
    (let s : State := { rig with agenda := [], wk := { rig.wk with groups := rig.wk.groups ++ [{ Group.fresh 9 3 ⟨0, 0⟩ 0 64 with active := false, rdyAt := some (0, 0) }] } }
     (∃ g ∈ s.waited, g.rdyAt = some (0, 0)) ∧ s.clock.toNat + 5 < 2 ^ 64) ∧
    (let s := on rig fun t => { t with mode := .cont false }
     s.thread 5 = some (th s) ∧ (s.setOf q0).Nodup ∧ s.setOf q0 = [(th s).id] ∧ (th s).mode = .cont false ∧ s.mayIssue (th s) = true ∧
       (on s fun t => { t with wait := .sleep 9 }).mayIssue (th (on s fun t => { t with wait := .sleep 9 })) = false) ∧
    (∀ u ∈ (rig.setOf q0).filterMap rig.thread, u.mode ≠ .cont false) := by
  decide +kernel

theorem witness_StepRunsNamedEvent :
    ({ rig with agenda := [⟨0, .event (.teamEnd 3)⟩] } : State).agenda = [⟨0, .event (.teamEnd 3)⟩] ∧ State.reset.agenda = [] := by
  decide +kernel

theorem witness_WordsAndHeadersAreReadBack :
    (∀ x ∈ [(addI, false), (.tretSkip h7 (.kernelLocal true), false), (.tretSkip h7 (.quay (.v 9) (.v 126)), true), (.ld ⟨0, true, true, false⟩ .z ⟨.g 62, -1, 15, .system⟩ .b128 false true true, true)],
      x.1.wf = true ∧ Laws.RoundTrip.formOk x.2 x.1 = true ∧ (encode x.1).isSome = true) ∧
    ∀ h ∈ [(⟨0, 1, 0, 0, 0, 0, false⟩ : Header), ⟨7, 16, 15, 15, 15, 15, true⟩], h.cls < 8 ∧ 1 ≤ h.count ∧ h.count ≤ 16 ∧ h.wl < 16 ∧ h.ws < 16 ∧ h.wc < 16 ∧ h.wt < 16 := by
  decide +kernel

theorem witness_StepsKeepMemoryCanonical :
    (rig.ms.mem.wf = true ∧ rig.ms.vault.wf = true) ∧ (match step rig with | .next _ => True | _ => False) := by
  exact ⟨by decide +kernel, trivial⟩

/-- For each clause: a false guard; a register at the budget; a pending register. -/
theorem witness_IssueIsGuardedCheckedAndHeld :
    (let i : Instr := .iadd ⟨1, false, false, false⟩ (.v 2) (.v 2) (.v 3) .wrap
     (encode i).isSome = true ∧ ((encode i).map Prod.fst = some 0) ∧ crossLane i = false ∧ privileged i = false ∧ rig.front.length = 1 ∧ (th rig).out.hits = [] ∧
       (useOf i).fits (th rig).place.budget = true ∧ rig.pending (th rig) [.p 1] = false ∧ (th rig).regs.getP 1 = false ∧ (encode i).map (fun w => (guardOf w.2).neg) = some false) ∧
    (let s := on rig fun t => { t with place := { t.place with budget := 16 } }
     let i : Instr := .ld h7 (.v 16) ⟨.v 2, 0, 15, .core⟩ .b32 false false false
     (encode i).map Prod.fst = some 1 ∧ s.front.length = 1 ∧ (th s).out.hits = [] ∧ (useOf i).fits (th s).place.budget = false) ∧
    (let s := on rig fun t => { t with out := { t.out with pend := [(9, .v 3)] } }
     (encode addI).map Prod.fst = some 0 ∧ privileged addI = false ∧ s.front.length = 1 ∧ (th s).out.hits = [] ∧ (useOf addI).fits (th s).place.budget = true ∧
       (th s).regs.getP 7 = !false ∧ s.pending (th s) (useOf addI).refs = true) := by
  decide +kernel

theorem witness_IssueReadsBeforeItWrites :
    ((encode addI).map Prod.fst = some 0 ∧ crossLane addI = false ∧ rig.focus = some q0 ∧
      ∀ t ∈ rig.front, rig.fate (((encode addI).map fun w => guardOf w.2).getD h7) (Ask.of (useOf addI)) t = .go) ∧
    (rig.front.map Thread.id).Nodup ∧ ∀ t ∈ rig.front, rig.Executes h7 (.iadd h7 (.g 2) (.v 2) (.v 3) .wrap) t := by
  refine ⟨by decide +kernel, by decide +kernel, fun t ht => ?_⟩
  have r := runs_of (s := rig) (h := h7) (i := .iadd h7 (.g 2) (.v 2) (.v 3) .wrap) (by decide +kernel)
  rw [r.front, List.mem_singleton] at ht
  exact ht ▸ r.toExecutes

/-! ## Witnesses: the ALU class -/

theorem witness_IntegerArithmetic : ∀ i ∈ [addI, .iaddI h7 .z (.v 127) 0xFFFFFFFF, .isub h7 (.g 63) (.v 2) .z .usat, .imulh h7 (.v 1) (.v 2) (.v 3) true,
    .imadw h7 (.v 126) (.v 2) (.v 3) (.g 62) false, .iabs h7 (.v 1) (.v 2) true, .iminI h7 (.v 1) (.v 2) 0, .iclamp h7 (.v 1) (.v 2) (.v 3) (.v 4) true], rig.Runs h7 i (th rig) :=
  all_run (by decide +kernel)

theorem witness_IntegerDivision : ∀ i ∈ [.idiv h7 (.v 1) (.v 2) (.v 3) false, .idiv h7 .z (.v 2) .z true, .irem h7 (.g 1) (.v 2) (.v 3) false, .irem h7 (.v 1) (.v 2) (.v 3) true],
    rig.Runs h7 i (th rig) :=
  all_run (by decide +kernel)

theorem witness_LogicAndBitInstructions : ∀ i ∈ [.andB h7 (.v 1) (.v 2) (.v 3), .shl h7 (.v 1) (.v 2) (.v 3), .shrI h7 (.v 1) (.v 2) 32, .rot h7 (.v 1) (.v 2) (.v 3) true,
    .shf h7 (.v 1) (.v 2) (.v 3) (.v 4) true, .lop3 h7 (.v 1) (.v 2) (.v 3) (.v 4) 0xCA, .popc h7 (.v 1) (.v 2), .clz h7 (.v 1) .z, .ctz h7 .z (.v 2), .brev h7 (.g 1) (.v 2)],
    rig.Runs h7 i (th rig) :=
  all_run (by decide +kernel)

theorem witness_FieldsAndBytes : ∀ i ∈ [.bfe h7 (.v 1) (.v 2) (.v 3) false, .bfe h7 .z (.v 2) (.v 3) true, .bfi h7 (.v 1) (.v 2) (.v 3) (.v 4),
    .perm h7 (.v 1) (.v 2) (.v 3) (.v 4)], rig.Runs h7 i (th rig) :=
  all_run (by decide +kernel)

theorem witness_PairArithmetic : ∀ i ∈ [.iadd64 h7 (.v 126) (.g 62) .z, .iadd64I h7 (.v 2) (.v 4) 0x80000000, .isub64 h7 .z (.v 4) (.v 6), .imad64 h7 (.v 2) (.v 4) (.v 6) (.v 8),
    .shl64 h7 (.v 2) (.v 4) (.v 7), .shr64 h7 (.v 2) (.v 4) (.v 7) true, .lea h7 (.v 2) (.v 4) (.v 5) 7 true], rig.Runs h7 i (th rig) :=
  all_run (by decide +kernel)

theorem witness_ComparesAndSelection : ∀ i ∈ [.isetp h7 0 (.v 0) (.v 1) .lt false .set, .isetp h7 7 (.v 0) (.v 1) .ge true .andn, .fsetp h7 6 (.v 0) (.v 1) .uno .or,
    .dsetp h7 1 (.v 0) (.v 2) (.cmp .lt true) .and, .sel h7 (.v 1) (.v 2) (.v 3) (.v 4), .plop h7 7 0 1 7 0x80, .p2v h7 (.v 1), .v2p h7 (.v 1) 0x7F], rig.Runs h7 i (th rig) :=
  all_run (by decide +kernel)

theorem witness_MovesAndSpecialRegisters : (∀ i ∈ [.mov h7 (.v 1) (.v 2) false, .mov h7 (.v 2) (.g 4) true, .movi h7 (.v 1) 5, .nop h7, .srd h7 (.v 1) .tidx, .srd h7 (.v 1) .stage,
    .srd h7 (.v 1) .clockl, .srd h7 (.v 1) .clockh, .srd h7 .z .flags, .srdClr h7 (.v 1)], rig.Runs h7 i (th rig)) ∧ (rig.team (th rig).place.team).isSome = true :=
  ⟨all_run (by decide +kernel), by decide +kernel⟩

/-! ## Witnesses: floating point -/

theorem witness_FloatResults : ∀ i ∈ [.fadd h7 (.v 1) (.v 2) (.v 3) .rn true false, .fmul h7 (.v 1) (.v 2) .z .rz false false, .ffma h7 .z (.v 2) (.v 3) (.v 4) .rd true true true,
    .fdiv h7 (.v 1) (.v 2) (.v 3) .ru, .fsqrt h7 (.v 1) (.v 2) .rn, .fmin h7 (.v 1) (.v 2) (.v 3), .frnd h7 (.v 1) (.v 2) .rz true, .fscale h7 (.v 1) (.v 2) (.v 3) .rn, .fclass h7 (.v 1) (.v 2),
    .frcp h7 (.v 1) (.v 2), .fcospi h7 (.v 1) (.v 2), .dadd h7 (.v 2) (.v 4) (.v 6) .rn false false, .dfma h7 (.v 2) (.v 4) (.v 6) (.v 8) .rz true false true, .ddiv h7 (.v 2) (.v 4) (.v 6) .rn,
    .dmax h7 (.v 2) (.v 4) (.v 6), .hadd2 h7 (.v 1) (.v 2) (.v 3) false true, .hfma2 h7 (.v 1) (.v 2) (.v 3) (.v 4) true true true, .hmin2 h7 (.v 1) (.v 2) (.v 3), .bfma2 h7 (.v 1) (.v 2) (.v 3) (.v 4) false false false],
    rig.Runs h7 i (th rig) :=
  all_run (by decide +kernel)

theorem witness_FloatResultsAreExactThenRounded :
    ((-2 : Int) ≤ -1 ∧ (-2 : Int) ≤ -2 ∧ (-2 : Int) ≤ -1 + 0) ∧ (0 < 3 ∧ 0 < 7) ∧
    (0 < 3 ∧ 3 < 2 ^ 24) ∧
    (∀ x ∈ [(0x3F800000, 0xBF800000), (0x80000000, 0), (0x7F800000, 0x7F7FFFFF)], x.1 < 2 ^ 32 ∧ x.2 < 2 ^ 32 ∧ nanBits 32 23 x.1 = false ∧ nanBits 32 23 x.2 = false) ∧
    (∀ x ∈ [0x7F800001, 0xFFC00000, 0xFF800000, 0x00800000, 0x7F7FFFFF, 1, 0x007FFFFF, 0x80000000], x < 2 ^ 32) ∧
    ((2 ^ 24 - 1 < 2 ^ 24 ∧ (-149 : Int) ≤ -149 ∧ (-149 : Int) ≤ 104 ∧ (-149 : Int) < 0) ∧ ((-149 : Int) ≤ 104 ∧ (104 : Int) ≤ 104 ∧ (0 : Int) ≤ 104)) := by
  decide

theorem witness_FloatSpecialValues :
    (FV.nan true).isNaN = true ∧ (FV.nan false).isNaN = true ∧ (FV.fin false 1 0).isNaN = false ∧ (1 : Nat) ≠ 0 ∧
    (127 ≤ 127 ∧ 1 ≤ 126 ∧ 126 ≤ 126) ∧ ((0 : Int) ≤ 0 ∧ 3 % 2 = 1 ∧ (1 : Int) ≤ 1) := by
  decide

theorem witness_ByteDotProduct : ∀ i ∈ [.idot4 h7 (.v 1) (.v 2) (.v 3) (.v 4) false true false, .idot4 h7 (.v 1) (.v 2) (.v 3) (.v 4) true true true], rig.Runs h7 i (th rig) :=
  all_run (by decide +kernel)

theorem witness_Conversions :
    (∀ i ∈ [.cvt h7 (.v 3) (.v 2) .rn .s64 .s8 3, .cvt h7 (.v 3) (.v 2) .rz .f32 .z16 1, .cvt h7 (.v 4) (.v 2) .ru .f64 .w48 0, .cvt h7 (.v 3) (.v 2) .rd .z8 .f64 0,
      .dxunpk h7 (.v 1) (.v 2) (.v 3) true true, .dxunpk h7 (.v 1) (.v 2) (.v 3) false false], rig.Runs h7 i (th rig)) ∧
    (3 < CvtTy.elems .s8 ∧ 1 < CvtTy.elems .z16 ∧ 0 < CvtTy.elems .w48 ∧ 0 < CvtTy.elems .f64) ∧
    (intTy .s8 = some (8, false) ∧ intTy .s64 = some (64, false) ∧ intTy .z16 = some (16, true) ∧ (floatTy .f32).isSome ∧ (floatTy .w48).isSome ∧ (floatTy .f64).isSome ∧ intTy .z8 = some (8, true)) :=
  ⟨all_run (by decide +kernel), by decide, by decide⟩

theorem witness_RoundingIsCorrect : 2 ≤ fp32.eb ∧ 1 ≤ fp32.fb ∧ 0 < 1 ∧ (roundTo fp32 .rn false (2 ^ 25 - 1) 104).2.getLsbD 2 = true ∧ (roundTo fp32 .rz true 1 (-150)).2.getLsbD 2 = false := by
  decide +kernel

/-! ## Witnesses: cross-lane instructions -/

/-- The rig with the arrival of its own thread at VOTE with a mask of members. -/
def voting (mask : Nat) : State :=
  let s := on rig fun t => { t with wait := .xlane 9 }
  { s with wk := { s.wk with arrivals := [⟨9, 5, 3, 0, 0, 0x1008, 0, true, mask, 7, 0, .vote h7 (.v 1) (.v 2) (.v 4) .any, .v 1⟩] } }

theorem witness_CrossLaneArrivesAndCompletes :
    (∀ i ∈ [.dxpack h7 (.v 1) (.v 2) .z true 15, .shfl h7 (.v 1) (.v 2) (.v 4) (.v 6) .ofs, .vote h7 (.v 2) (.v 2) .z .mask, .redux h7 (.g 1) (.v 2) .z .maxZ, .elect h7 (.v 1) .z,
      .matchL h7 (.v 2) (.v 4) .z true, .scan h7 (.v 1) (.v 2) .z .add true, .rdfirst h7 (.v 2) (.v 4) .z true], rig.Runs h7 i (th rig)) ∧
    (let s := voting (2 ^ 64 - 1)
     let t := th s
     t.exited = false ∧ t.wait = .xlane 9 ∧ (s.wk.arrivals.find? (fun q => q.id == 9)).isSome ∧ (s.thread t.id).isSome ∧
     (∀ j ∈ List.range 64, (2 ^ 64 - 1) / 2 ^ j % 2 = 1 → (∃ q ∈ s.wk.arrivals, q.team = 3 ∧ q.set = 0 ∧ q.addr = 0x1008 ∧ q.n = 0 ∧ q.member = j) ∨
       ∀ u ∈ s.wk.threads, u.place.team = 3 → u.place.set = 0 → u.place.member = j → u.exited = true)) ∧
    -- a guard that is false; a member that has not arrived at the matching execution
    (let i : Instr := .vote ⟨1, false, false, false⟩ (.v 1) (.v 2) (.v 4) .any
     (encode i).map (fun w => (w.1, (guardOf w.2).p.val, (guardOf w.2).neg)) = some (0, 1, false) ∧ crossLane i = true ∧ rig.front.length = 1 ∧ (th rig).out.hits = [] ∧
       (useOf i).fits (th rig).place.budget = true ∧ rig.pending (th rig) [.p 1] = false ∧ (th rig).regs.getP 1 = false) ∧
    (let s : State := { voting 1 with wk := { (voting 1).wk with arrivals := (voting 1).wk.arrivals.map fun a => { a with n := 1, member := 7 } } }
     (∀ r ∈ s.wk.arrivals, s.wk.arrivals.find? (fun q => q.id == r.id) = some r ∧ (th s).wait = .xlane r.id ∧ (th s).exited = false ∧ (th s).place.team = r.team ∧ (th s).place.set = r.set ∧
       (th s).place.member < 64 ∧ r.mask / 2 ^ (th s).place.member % 2 = 1 ∧ ∀ q ∈ s.wk.arrivals, q.member ≠ (th s).place.member) ∧ s.wk.arrivals ≠ []) :=
  ⟨all_run (by decide +kernel), by decide +kernel, by decide +kernel, by decide +kernel⟩

theorem witness_CrossLaneResults :
    let a (m v : Nat) : Arrival := ⟨m, m, 3, 0, m, 0x1000, 0, true, 2 ^ 64 - 1, v, 127, .nop h7, .v 1⟩
    ([a 0 5, a 63 6].map Arrival.member).Pairwise (· < ·) ∧ (∀ q ∈ [a 0 5, a 63 6], q.member < 64) ∧ (a 63 6).member < 64 ∧ (a 63 6).c < 128 := by
  decide

theorem witness_DxBlockEncoding :
    (List.replicate 32 (FV.fin true 1 0)).length = 32 ∧ 1 ≤ 1 ∧ (List.replicate 32 (FV.fin true 1 0)).any (fun x => x.isNaN || x.isInf) = false ∧
    (List.replicate 32 (FV.inf true)).any (fun x => x.isNaN || x.isInf) = true ∧ (List.replicate 32 (FV.fin true 1 0))[31]? = some (.fin true 1 0) ∧ (-600 : Int) ≤ 0 := by
  decide

/-! ## Witnesses: memory instructions at issue -/

/-- The lower half of the address space ends at 2^47. -/
def low : State := pair (pair rig 2 (2 ^ 47 - 8)) 20 64
/-- A vault address: core 7 of the same row, its last word; v12 one beyond the vault's end. -/
def vaulted (s : State) : State := one (one s 9 (7 * 2 ^ 24 + 2 ^ 22 - 4)) 12 (7 * 2 ^ 24 + 2 ^ 22 - 1)

theorem witness_AccessesIssue :
    ((∀ i ∈ [.ld h7 (.v 4) ⟨.v 2, 0, 15, .core⟩ .b64 false true false, .st h7 (.v 4) ⟨.v 2, 7, 0, .system⟩ .b8 true, .lds h7 .z ⟨.v 2, -4, 3, .die⟩ .b32 true,
        .atom h7 ⟨.v 4, .v 2, .v 6, .cas (.v 8), true, 0, .die, .acqrel⟩, .cwb h7 ⟨.v 2, 0, 15, .die⟩ true], low.Runs h7 i (th low)) ∧
      (∀ i ∈ [.cinvIcache h7 (.v 2) 0, .cinvDiscard h7 (.v 2) 0], rigQ.Runs h7 i (th rigQ)) ∧ (th rigQ).place.priv = true ∧
      low.logRoom (th low) ∧ (th low).ctr.loads < 63 ∧ (th low).ctr.stores < 63 ∧ (th low).out.fsamp = [] ∧ (low.rd2 (th low) (.v 2)).toNat % 8 = 0 ∧
      (∀ p ∈ partsAt (effective low (th low) (.v 2) 0).toNat 8, inSpace p.ea) ∧ (∀ p ∈ partsAt (effective low (th low) (.v 2) (-4)).toNat 4, inSpace p.ea)) ∧
    (let s := vaulted rig
     (∀ i ∈ [.ldv h7 (.v 4) ⟨.v 9, 0, 0, .core⟩ .b32 true false false, .stv h7 (.v 4) ⟨.v 9, 0, 0, .die⟩ .b32 true false, .ldt h7 (.v 4) ⟨.v 9, 0, 0, .core⟩ .b32 true false false,
        .stt h7 (.v 4) ⟨.v 9, 0, 0, .core⟩ .b32 false false, .tagopEmpty h7 ⟨.v 9, 0, 0, .core⟩ .b32 false false, .tagopFull h7 ⟨.v 9, 0, 0, .core⟩ .b32 true false,
        .atomv h7 ⟨.z, .v 9, .v 6, .add, false, 0, .core, .relaxed⟩ false], s.Runs h7 i (th s)) ∧
      s.logRoom (th s) ∧ (th s).ctr.loads < 63 ∧ (th s).ctr.stores < 63 ∧ (s.rd (th s) (.v 9)).toNat % 4 = 0 ∧
      s.vaultKey (th s).place (s.rd (th s) (.v 9) + (0 : BitVec 19).signExtend 32).toNat 4 false = .ok (7 * 2 ^ 24 + 2 ^ 22 - 4)) := by
  refine ⟨⟨all_run (by decide +kernel), all_run (by decide +kernel), by decide +kernel, logRoom_of (by decide +kernel), by decide +kernel, by decide +kernel, by decide +kernel, by decide +kernel, ?_, ?_⟩,
    all_run (by decide +kernel), logRoom_of (by decide +kernel), by decide +kernel, by decide +kernel, by decide +kernel, ok_of (by decide +kernel)⟩ <;>
  · unfold inSpace; decide +kernel

/-- The reasons of cause 0x11 for a vault address, at the values where they meet, and the traps of bad addresses. -/
theorem witness_BadAddressesTrap :
    ((th rig).place.clp = .cluster 0 0 1 1 ∧ 1 ≤ 1 ∧ 2 ^ 32 - 1 < 2 ^ 32) ∧
    ([2 ^ 22, 2 ^ 24 * 8, 2 ^ 30, 2 ^ 22 - 3, 2 ^ 22 - 4].map fun va => match rig.vaultKey (th rig).place va 4 false with
      | .ok k => (0, k)
      | .error e => (e.reason, e.cause)) = [(8, 0x11), (10, 0x11), (10, 0x11), (11, 0x11), (0, 2 ^ 22 - 4)] ∧
    rig.vaultKey (th rig).place (2 ^ 24) 4 true = .error ⟨0x11, 9⟩ ∧
    (let s := pair rig 2 (2 ^ 47)
     (∀ i ∈ [.ld h7 (.v 4) ⟨.v 2, 0, 15, .core⟩ .b64 false false false, .st h7 (.v 4) ⟨.v 2, 0, 15, .core⟩ .b64 false, .lds h7 (.v 4) ⟨.v 2, 0, 15, .core⟩ .b64 false], s.Runs h7 i (th s)) ∧
      s.logRoom (th s) ∧ ¬ inSpace (effective s (th s) (.v 2) 0).toNat) ∧
    (let s := pair rig 2 (2 ^ 47 - 4)
     s.Runs h7 (.atom h7 ⟨.v 4, .v 2, .v 6, .add, true, 0, .core, .relaxed⟩) (th s) ∧ (s.rd2 (th s) (.v 2)).toNat % 8 ≠ 0) ∧
    (let s := vaulted rig
     (∀ i ∈ [.ldv h7 (.v 4) ⟨.v 12, 0, 0, .core⟩ .b32 false false false, .stv h7 (.v 4) ⟨.v 12, 0, 0, .core⟩ .b32 false false, .ldt h7 (.v 4) ⟨.v 12, 0, 0, .core⟩ .b32 false false false,
        .stt h7 (.v 4) ⟨.v 12, 0, 0, .core⟩ .b32 false false, .tagopFull h7 ⟨.v 12, 0, 0, .core⟩ .b32 false false, .atomv h7 ⟨.z, .v 12, .v 6, .add, false, 0, .core, .relaxed⟩ false], s.Runs h7 i (th s)) ∧
      (s.rd (th s) (.v 12)).toNat % 4 ≠ 0 ∧ s.vaultKey (th s).place (s.rd (th s) (.v 12)).toNat 4 false = .error ⟨0x11, 11⟩) ∧
    (let s := pair rig 2 (2 ^ 47)
     s.Runs h7 (.atom h7 ⟨.v 4, .v 2, .v 6, .add, true, 0, .core, .relaxed⟩) (th s) ∧ (s.rd2 (th s) (.v 2)).toNat % 8 = 0 ∧ ¬ inSpace (s.rd2 (th s) (.v 2)).toNat) := by
  refine ⟨by decide +kernel, by decide +kernel, error_of (by decide +kernel), ⟨all_run (by decide +kernel), logRoom_of (by decide +kernel), ?_⟩, ⟨runs_of (by decide +kernel), by decide +kernel⟩,
    ⟨all_run (by decide +kernel), by decide +kernel, error_of (by decide +kernel)⟩, runs_of (by decide +kernel), by decide +kernel, ?_⟩ <;>
  · unfold inSpace; decide +kernel

theorem witness_SamplerAndFencesIssue :
    (let s := holding (mapped (pair rig 2 0x1000)) (cells 0x1000 32 (0x2000 + 16 * 2 ^ 64 + 2 ^ 96 + 2 ^ 112 + 2 ^ 128))
     (s.Runs h7 (.smp h7 (.v 8) (.v 2) (.v 4) true .repeatW true 0) (th s) ∧ s.logRoom (th s) ∧ (th s).ctr.loads < 63 ∧ (th s).out.fsamp = [] ∧ inSpace (s.rd2 (th s) (.v 2)).toNat ∧
        s.smpCheck (th s) (.v 8) (s.rd2 (th s) (.v 2)).toNat = .ok 2 ∧ s.pending (th s) (spanRefs (.v 8, 2)) = false ∧
        s.descAt (th s).xl 0x1000 = some 0x1000 ∧ s.ordered (smpAccess (th s) s.nextId 0 .pref 0 0x1000) = true) ∧
      (∀ i ∈ [.fsamp h7 .system, .fjoin h7 0x8001, .fence h7 7 .system true .all, .pref h7 (.v 2) 0 .smp, .pref h7 (.v 2) 128 .l1], s.Runs h7 i (th s)) ∧ inSpace (effective s (th s) (.v 2) 128).toNat) ∧
    (let s := on rig fun t => { t with regs := t.regs.setK 7 (some (.fence 5)) }
     s.Runs h7 (.fwait h7 7) (th s) ∧ (th s).regs.getK 7 = some (.fence 5)) ∧
    (let s := on rig fun t => { t with regs := t.regs.setK 7 (some (.batch 5)) }
     s.Runs h7 (.fwait h7 7) (th s) ∧ (th s).regs.getK 7 = some (.batch 5)) := by
  refine ⟨⟨⟨runs_of (by decide +kernel), logRoom_of (by decide +kernel), by decide +kernel, by decide +kernel, inSpace_of (by decide +kernel), ok_of (by decide +kernel), by decide +kernel, by decide +kernel, by decide +kernel⟩,
    all_run (by decide +kernel), inSpace_of (by decide +kernel)⟩, ⟨runs_of (by decide +kernel), by decide +kernel⟩, runs_of (by decide +kernel), by decide +kernel⟩

/-! ## Witnesses: the steps of the abstract machine -/

/-- An access of the rig's thread: its kind, scope, order and parts. -/
def acc (id : Nat) (vault : Bool) (k : AKind) (parts : List APart) (n : Nat) : Access :=
  ⟨id, 5, ⟨0, 0⟩, vault, 15, .die, false, false, false, k, .load, ⟨0x1000, 0x1008, true⟩, 3, parts, List.replicate n 0, false, false, none, none⟩
def part (ofs len ea : Nat) (done : Bool) : APart := ⟨ofs, len, ea, done, 0, none, false, some ea, none⟩
def issued (l : List Access) : State := { rig with nextId := 20, ms := { rig.ms with accs := l } }

theorem thread_rig (l : List Access) : (issued l).thread 5 = some (th rig) := rfl

/-- The whole hypothesis, as a check that needs no comparison of threads. -/
theorem canPerform_of {s : State} {a : Access} {k : Nat} {p : APart} {t : Thread} {pa : Nat} (ht : s.thread a.tid = some t)
    (e : (decide (s.ms.accs = [a]) && a.core == t.place.core && !t.exited && !a.vault && a.parts[k]? == some p && !p.done && a.parts.all (fun q => !q.stalled) && s.ordered a &&
      a.parts.all (fun q => q.done || (q.pa.any fun x => s.lost x == 0 && !s.linkHeld x)) && p.pa == some pa) = true) : s.CanPerform a k p t pa := by
  simp only [Bool.and_eq_true, decide_eq_true_eq, Bool.not_eq_true', beq_iff_eq, List.all_eq_true, Bool.or_eq_true] at e
  obtain ⟨⟨⟨⟨⟨⟨⟨⟨⟨e1, e0⟩, e2⟩, e3⟩, e4⟩, e5⟩, e6⟩, e7⟩, e8⟩, e9⟩ := e
  refine ⟨by simp [State.access, e1], by simp [e1], ht, e0, e2, e3, e4, e5, e6, e7, fun q hq hd => ?_, .inl e9⟩
  rcases e8 q hq with h | h
  · simp [h] at hd
  · obtain ⟨x, hx, h⟩ := Option.any_eq_true _ _ |>.mp h
    simp only [Bool.and_eq_true, beq_iff_eq, Bool.not_eq_true'] at h
    exact ⟨x, .inl hx, h.1, h.2⟩

theorem witness_AccessesPerformInOrder : (issued [acc 7 false .pref [] 1]).thread 5 = some (th rig) ∧ (acc 7 true .pref [] 1).vault = true :=
  ⟨thread_rig _, rfl⟩

/-- A load in one part, and the first part of one that crosses a line; a store that ends at the last byte of a line. -/
theorem witness_LoadsAndStoresPerform :
    (let a := acc 7 false (.load (.v 3) .b32 true) [part 0 4 0x5000 false] 4
     (issued [a]).CanPerform a 0 (part 0 4 0x5000 false) (th rig) 0x5000 ∧ a.data.length = Size.bytes .b32 ∧ 0 + 4 ≤ Size.bytes .b32 ∧ Size.bytes .b32 ≤ 4 ∧ a.lastPart 0) ∧
    (let a := acc 7 false (.lds .z .b64 false) [part 0 4 0x507C false, part 4 4 0x5080 false] 8
     (issued [a]).CanPerform a 1 (part 4 4 0x5080 false) (th rig) 0x5080 ∧ a.data.length = Size.bytes .b64 ∧ 4 + 4 ≤ Size.bytes .b64 ∧ ¬ a.lastPart 1) ∧
    (let a := acc 7 false (.store [1, 2, 3, 4]) [part 0 4 0x507C false] 4
     (issued [a]).CanPerform a 0 (part 0 4 0x507C false) (th rig) 0x507C ∧ 0 + 4 ≤ [(1 : Byte), 2, 3, 4].length ∧ (issued [a]).ms.mem.wf = true ∧ (issued [a]).ms.vault.wf = true) := by
  refine ⟨⟨canPerform_of (thread_rig _) (by decide +kernel), by decide, by decide, by decide, ?_⟩, ⟨canPerform_of (thread_rig _) (by decide +kernel), by decide, by decide, ?_⟩,
    canPerform_of (thread_rig _) (by decide +kernel), by decide, by decide +kernel, by decide +kernel⟩
  · rintro (_ | j) q h hj
    · exact absurd rfl hj
    · simp [acc] at h
  · intro h
    exact absurd (h 0 _ rfl (by decide)) (by decide)

theorem witness_AtomicsAndVaultAccessesPerform :
    (let a := acc 7 false (.atomic .cas (.v 4) true (2 ^ 64 - 1) 0) [part 0 8 0x5000 false] 8
     let s : State := { issued [a] with co := { rig.co with l1 := [⟨⟨0, 0⟩, 0x5000 / 64, 1, .e, true, 1⟩] } }
     s.CanPerform a 0 (part 0 8 0x5000 false) (th rig) 0x5000 ∧ s.goesHome (th rig).xl 0x5000 0x5000 = false ∧
       s.l1Of (th rig).place.core (0x5000 / 64) = some ⟨⟨0, 0⟩, 0x5000 / 64, 1, .e, true, 1⟩ ∧ (⟨⟨0, 0⟩, 0x5000 / 64, 1, .e, true, 1⟩ : L1Blk).takesWrites = true ∧ ((s.walked a (th rig)).readLast 0x5000 8).poison = false ∧ 2 ^ 64 - 1 < 2 ^ (8 * 8) ∧ 0 < 2 ^ (8 * 8) ∧ s.ms.mem.wf = true ∧ s.ms.vault.wf = true) ∧
    (∀ x ∈ [(AKind.atomic .fadd .z false (2 ^ 32 - 1) 0, []), (.load (.v 3) .b32 true, []), (.ldt (.v 3) .b32 true, [0x3FFFFC]), (.store [1, 2, 3, 4], []), (.stt [1, 2, 3, 4], []), (.tagop true, []),
        (.ldt (.v 3) .b32 false, []), (.stt [1, 2, 3, 4], [0x3FFFFC])],
      let a := acc 7 true x.1 [part 0 4 0x3FFFFC false] 4
      let s : State := { issued [a] with ms := { (issued [a]).ms with tags := x.2 } }
      s.access 7 = some a ∧ (th rig).exited = false ∧ s.ordered a = true ∧ s.turn a = true ∧ (s.vread 0x3FFFFC 4).poison = false ∧ s.ms.mem.wf = true ∧ s.ms.vault.wf = true ∧
        s.full 0x3FFFFC = decide (x.2 ≠ []) ∧ a.data.length = 4 ∧ 2 ^ 32 - 1 < 2 ^ (8 * 4)) := by
  exact ⟨⟨canPerform_of rfl (by decide +kernel), by decide +kernel⟩, by decide +kernel⟩

/-- The steps of views and waits: a sampler prefetch under a translation; an FSAMP with nothing before it; a fence of each kind; a team
barrier at which the one thread has arrived. -/
theorem witness_ViewsAndBarriersAdvance :
    (let a := acc 7 false .pref [⟨0, 1, 0x1000, false, 0, none, false, none, none⟩] 1
     let s := mapped (issued [a])
     (s.ms.accs.filter fun a => a.kind == .pref)[0]? = some a ∧ (s.translate (th rig).xl .read 0x1000).toOption = some 0x1000 ∧ s.lost 0x1000 = 0 ∧ s.linkCut 0x1000 = false ∧
       (s.ms.smpLines.filter fun l => l.1 == (th rig).place.core).length < 512) ∧
    (let t := th (on rig fun t => { t with out := { t.out with fsamp := [(.system, 7)] } })
     t.out.fsamp = (.system, 7) :: [] ∧ rig.ms.accs = []) ∧
    (∀ sc ∈ [true, false],
      let f : Fence := ⟨7, 5, .system, sc, .all, 7, []⟩
      let s : State := { on rig fun t => { t with wait := .fence 7 } with ms := { rig.ms with fences := [f] } }
      (th s).wait = .fence f.id ∧ (s.ms.fences.find? fun g => g.id == f.id) = some f ∧ s.ms.accs = [] ∧ s.ms.writes = []) ∧
    (let s : State := { on rig fun t => { t with wait := .bar 15 0 } with wk := { (on rig fun t => { t with wait := .bar 15 0 }).wk with bars := [⟨.team 3 15, 0, 5, true, 7, []⟩] } }
     let arr := s.wk.bars.filter fun a => a.bar == .team 3 15 && a.n == s.phaseOf (.team 3 15)
     arr ≠ [] ∧ (∀ t ∈ s.participants (.team 3 15), (arr.find? fun a => a.tid == t.id).isSome = true) ∧ s.ms.accs = [] ∧ s.ms.writes = [] ∧ ∀ t ∈ s.wk.threads, (s.thread t.id).isSome = true) := by
  decide +kernel

/-! ## Witnesses: the matrix engine -/

/-- The rig with its context changed. -/
def inCtx (f : Ctx → Ctx) : State := rig.onCtx 6 f
def mxe (k : MxKind) : MxOp := ⟨⟨9, 5, 1, ⟨0x1000, 0x1008, true⟩⟩, k⟩
/-- A parameter block: one K-block of FP16 rows at vault address 0 for A, 4096 for B. -/
def block : Nat := 0 + 4096 * 2 ^ 32 + 1 * 2 ^ 64 + 2 * 2 ^ 80

theorem witness_MatrixInstructionsIssue :
    (let s := on rig fun t => { t with regs := t.regs.setVs 8 [0, 4096, 0x20001, 0, 0, 0, 0, 0] }
     (s.ctxOf (th s)).isSome ∧ (th s).ctr.tiles < 63 ∧ s.mxCount ⟨0, 0⟩ < 32 ∧ (runsB s h7 (.mxld h7 (.v 8) 3) = true) ∧ (runsB s h7 (.mxz h7 7) = true) ∧ (runsB s h7 (.mxst h7 0 (.v 8) .w48 true none) = true) ∧
       (runsB s h7 (.mxlda h7 0 (.v 8) true) = true) ∧ (runsB s h7 (.mxrun h7 0 3 false) = true) ∧ (runsB s h7 (.mxqryOcc h7 (.v 1)) = true) ∧ (runsB s h7 (.mxqryEst h7 (.v 2)) = true) ∧
       (s.rdReg (th s) (.v 8) 2).toNat % 2 ^ 16 = 1 ∧ ((s.ctxOf (th s)).map fun c => c.mxq) = some []) ∧
    -- a K-block count of 0 and of 129; a reserved bit; a region that ends one word beyond the vault
    (∀ w ∈ [[(0 : Word), 4096, 0, 0, 0, 0, 0, 0], [0, 4096, 129, 0, 0, 0, 0, 0], [0, 4096, 1, 0, 0, 1, 0, 0], [4190272, 4096, 1, 0, 0, 0, 0, 0]],
      runsB (on rig fun t => { t with regs := t.regs.setVs 8 w }) h7 (.mxld h7 (.v 8) 0) = true) ∧
    (let s := inCtx fun c => { c with slots := [none, none, none, some block], mxq := [mxe (.run 1 3 true)] }
     (s.ctxOf (th s)).map (fun c => c.slots.getD 3 none) = some (some block) ∧ runsB s h7 (.mxqryEst h7 (.v 2)) = true ∧ runsB s h7 (.mxrun h7 7 3 true) = true) ∧
    -- the engine works for another context of the core
    (let s : State := { rig with en := { rig.en with ctxs := rig.en.ctxs ++ [{ Ctx.fresh 8 ⟨0, 0⟩ 0 with mxq := [mxe (.zero 1)] }] } }
     (s.ctxOf (th s)).map Ctx.id = some 6 ∧ s.mxCount ⟨0, 0⟩ < 32 ∧ (∃ x ∈ s.en.ctxs, x.core = (th s).place.core ∧ x.id ≠ 6 ∧ x.mxq ≠ []) ∧ runsB s h7 (.mxz h7 7) = true) := by
  decide +kernel

theorem witness_BlockSumsAreExact :
    let f (v : FV) := List.replicate 31 (FV.fin false 1 0) ++ [v]
    (f (.nan true)).length = 32 ∧ (∃ p ∈ (f (.nan true)).zip (f (.inf true)), p.1.isNaN = true) ∧
    (∃ p ∈ (f (.fin true 0 0)).zip (f (.inf true)), p.1.isZero = true ∧ p.2.isInf = true) ∧ (∀ p ∈ (f (.fin true 0 0)).zip (f (.inf true)), p.1.isNaN = false ∧ p.2.isNaN = false) ∧
    (∃ p ∈ (f (.fin true 1 0)).zip (f (.inf true)), p.2.isInf = true ∧ (p.1.isNeg != p.2.isNeg) = false) ∧
    (∀ p ∈ (f (.fin true 1 (-3))).zip (f (.fin false 1 (-4))), (-7 : Int) ≤ p.1.exp + p.2.exp) := by
  decide

/-- An engine that may work on the operation at its head. -/
theorem engineAt_of {s : State} {c : Ctx} {o : MxOp} {t : Thread} (hc : s.en.ctxs = [c]) (hq : c.mxq = [o]) (h1 : c.mxrun.stopped = false) (h2 : c.mxrun.stalled = false)
    (h3 : s.md.failed = 0) (ht : s.thread o.eng.tid = some t) (hx : t.exited = false) : s.EngineAt c o [] t :=
  ⟨by simp [State.ctx, hc], hq, h1, h2, by simp [h3], ht, hx⟩

def engineCtx (k : MxKind) (n : Nat) (w : List Nat) : Ctx :=
  { Ctx.fresh 6 ⟨0, 0⟩ 0 with slots := [some block, none, none, none], mxq := [mxe k], mxrun := { MxRun.idle with n := n, work := w } }
def engine (k : MxKind) (n : Nat) (w : List Nat) : State := { rig with en := { rig.en with ctxs := [engineCtx k n w] } }

theorem engine_at (k : MxKind) (n : Nat) (w : List Nat) : (engine k n w).EngineAt (engineCtx k n w) (mxe k) [] (th rig) :=
  engineAt_of rfl rfl rfl rfl rfl rfl rfl

/-- Every kind of operation at the head; the first and the last rounding of a product and of a store, with zeros, which are never tiny;
an accumulator at the smallest pattern of W48, which is. -/
theorem witness_MatrixOperationsRun :
    (∀ k ∈ [MxKind.ld 3 block, .zero 7, .lda 7 (2 ^ 22 - 8192) false, .run 0 0 false, .st 0 0 .f32 true (some 0x3F800000)], (engine k 0 []).EngineAt (engineCtx k 0 []) (mxe k) [] (th rig)) ∧
    7 < (engineCtx (.zero 7) 0 []).tiles.length ∧
    (∀ va ∈ [0, 4096, 2 ^ 22 - 8192], rig.md.dies.getLsbD (va / 2 ^ 30 % 4) = true ∧ rig.md.failed.getLsbD (va / 2 ^ 30 % 4) = false ∧ (rig.part 0).cfg.rows.getLsbD (8 * (va / 2 ^ 30 % 4) + va / 2 ^ 24 % 64 / 8) = true) ∧
    rig.ms.vpoison = [] ∧ (0 < 1024 * 1 ∧ 0 + 1 < 1024 * 1 ∧ 1023 + 1 = 1024 * 1) ∧ (engineCtx (.st 0 0 .f32 true none) 1023 (List.replicate 1023 0)).mxrun.work.length = 1023 ∧
    (∃ n m e, (w48.decode 1).addFin .rn (.fin false 0 0) = .fin n m e ∧ m ≠ 0) ∧ tinyIn fp32 (w48.decode 1) = true ∧ tinyIn fp32 (.fin false 0 0) = false := by
  refine ⟨fun k _ => engine_at k 0 [], by decide +kernel, by decide +kernel, by decide +kernel, by decide, by decide +kernel, ?_, by decide +kernel, by decide +kernel⟩
  exact ⟨false, 1, _, rfl, by decide⟩

/-! ## Witnesses: the lighter -/

/-- A copy operation of the rig's thread, admitted or not. -/
def lift (k : CopyKind) (adm bits : Option Nat) (bytes done : Nat) : Copy :=
  { rig.newCopy (th rig) 6 k 0x1000 (.v 4) 15 .die false with id := 9, adm := adm, bits := bits, bytes := bytes, done := done }
def lighter (c : Copy) : State := { mapped rig with nextId := 20, en := { rig.en with copies := [c] } }
/-- A fill of 64 bytes of the vault at address 0; a copy of 64 bytes from there to global address 0x2000, and back. -/
def fillBlk : Nat := 2 ^ 97 + 63 * 2 ^ 100
def outBlk : Nat := 0x2000 * 2 ^ 48 + 2 ^ 96 + 63 * 2 ^ 100
def inBlk : Nat := 0x2000 + 2 ^ 97 + 63 * 2 ^ 100
def regionAt0 : Shadow := ⟨0x2000, 64, 1, none, [⟨7, [(0x2000, 5)], []⟩, ⟨12, [(0x2001, 6)], []⟩]⟩

theorem witness_CopyInstructionsIssue_words :
    (let s := pair rig 6 0x1000
     (s.ctxOf (th s)).isSome ∧ (∀ i ∈ [Instr.cpy h7 ⟨.v 4, .v 6, 15, .die, true⟩, .cpys h7 ⟨.z, .v 6, 0, .core, false⟩, .cpyx h7 ⟨.v 4, .v 6, 15, .die, true⟩, .cfill h7 ⟨.v 4, .v 6, 15, .die, true⟩ (.v 9),
        .cpub h7 (.v 4) 7, .cshadOff h7 (.v 4) 7, .cpyb h7 ⟨.v 4, .v 6, 15, .die, true⟩, .cshad h7 7 (.v 6) (.v 9)], runsB s h7 i = true) ∧ (s.rd2 (th s) (.v 6)).toNat = 0x1000 ∧ 0x1000 % 32 = 0 ∧
       (th s).out.unsealed.length < 64 ∧ (s.part 0).btgrant.getLsbD 0 = false ∧ ((s.ctxOf (th s)).map fun c => c.shadows.getD 7 none) = some none) ∧
    (let s := { pair rig 6 0x1000 with wk := { (pair rig 6 0x1000).wk with parts := (pair rig 6 0x1000).wk.parts.modify 0 fun p => { p with btgrant := 1 } } }
     runsB s h7 (.cpyb h7 ⟨.v 4, .v 6, 15, .die, true⟩) = true ∧ (s.part 0).btgrant.getLsbD 0 = true) ∧
    (∀ x ∈ [0x1010, 2 ^ 47], runsB (pair rig 6 x) h7 (.cpy h7 ⟨.v 4, .v 6, 15, .die, true⟩) = true) ∧
    (let s := on (pair rig 6 0x1000) fun t => { t with out := { t.out with unsealed := List.replicate 64 8 } }
     runsB s h7 (.cfill h7 ⟨.v 4, .v 6, 15, .die, true⟩ (.v 9)) = true ∧ (th s).out.unsealed.length = 64) ∧
    (let s := inCtx fun c => { c with shadows := c.shadows.set 7 (some regionAt0) }
     runsB s h7 (.cpub h7 (.v 4) 7) = true ∧ runsB s h7 (.cshadOff h7 (.v 4) 7) = true ∧ ((s.ctxOf (th s)).map fun c => c.shadows.getD 7 none) = some (some regionAt0)) ∧
    -- CSHAD of the largest region, and of one that ends where another begins
    (∀ x ∈ [(0, 2 ^ 24), (0x1FC0, 64), (64, 65)], runsB (one (pair rig 6 x.1) 9 x.2) h7 (.cshad h7 0 (.v 6) (.v 9)) = true) := by
  decide +kernel

/-- A seal of nothing and of an unfinished copy; a batch whose promise is known and one whose promise is not; a register without a batch. -/
theorem witness_BatchInstructions :
    (runsB rig h7 (.cseal h7 7) = true ∧ (th rig).ctr.batches < 63 ∧ rig.en.batches = [] ∧ runsB rig h7 (.cwait h7 0) = true ∧ runsB rig h7 (.cwait h7 63) = true ∧ runsB rig h7 (.cprom h7 (.v 4) 7) = true ∧
      runsB rig h7 (.cpromStat h7 (.v 5) 7) = true) ∧
    (∀ p ∈ [some 500, none],
      let b : Batch := ⟨11, 5, 0xFFFF, [9], 3, none, false⟩
      let s0 := lighter { lift .cpy (some 10) (some outBlk) 64 0 with promise := p }
      let s : State := { on s0 fun t => { t with regs := t.regs.setK 7 (some (.batch 11)) } with en := { s0.en with batches := [b] } }
      runsB s h7 (.cprom h7 (.v 4) 7) = true ∧ runsB s h7 (.cpromStat h7 (.v 5) 7) = true ∧ (th s).regs.getK 7 = some (.batch b.id) ∧ (s.en.batches.find? fun x => x.id == b.id) = some b ∧ b.no < 2 ^ 16 ∧
        (∀ x ∈ s.en.batches, x.id < s.nextId ∧ (x.fin = none → ∃ c ∈ s.en.copies.filter fun c => x.ops.contains c.id, c.finished = false)) ∧
        (s.en.copies.filter fun c => b.ops.contains c.id).map Copy.promise = [p]) := by
  decide +kernel

/-- Admission of a block that reads well and of one with a reserved bit; units of a fill, of a copy out of the vault, of one inside an armed
region, and of a copy into the vault. -/
theorem witness_CopiesAreAdmittedAndMoved :
    (∀ x ∈ [(CopyKind.fill 0xAB, fillBlk, none, 64), (.cpy, outBlk, none, 64), (.cpy, outBlk + 2 ^ 98, some 1, 64)],
      let c := { lift x.1 none none 0 0 with id := 9 }
      let s0 := holding (lighter c) (cells 0x1000 32 x.2.1)
      let a : Access := ⟨10, 5, ⟨0, 0⟩, false, 15, .core, false, false, false, .copyBlock 9, .none, ⟨0x1000, 0x1000, true⟩, 0, [⟨0, 32, 0x1000, false, 0, none, false, none, none⟩],
        List.replicate 32 0, false, false, none, none⟩
      let s : State := { s0 with ms := { s0.ms with accs := [a] } }
      s.copy c.id = some c ∧ c.adm = none ∧ c.stalled = false ∧ c.finished = false ∧ c.fault = none ∧ (s.translate (th rig).xl .read c.cb).toOption = some 0x1000 ∧ s.linkHeld 0x1000 = false ∧ s.lost 0x1000 = 0 ∧
        (s.ms.accs.find? fun a => a.kind == .copyBlock c.id) = some a ∧ s.ordered a = true ∧ c.raw = none ∧ c.extra = [] ∧ (s.readAt (th rig).who .core 0x1000 32).poison = false ∧ (s.readAt (th rig).who .core 0x1000 32).val = x.2.1 ∧ checkBlock c.kind x.2.1 = (x.2.2.1, x.2.2.2) ∧ c.poison = false ∧
        (∀ u ∈ s.wk.threads, (s.thread u.id).isSome) ∧ (s.en.copies.filter fun x => x.adm.isSome).length < 16) ∧
    (∀ x ∈ [(CopyKind.fill 0xAB, fillBlk, 0), (.cpy, outBlk, 61), (.cpy, inBlk, 0)],
      let c := lift x.1 (some 10) (some x.2.1) 64 x.2.2
      let s := lighter c
      s.copy c.id = some c ∧ c.adm ≠ none ∧ c.bits = some x.2.1 ∧ c.stalled = false ∧ c.finished = false ∧ c.fault = none ∧ c.done < c.bytes ∧ s.mayStart c = true ∧ s.servedNow c = true ∧ c.early = [] ∧ s.ms.mem.wf = true ∧ s.ms.vault.wf = true) ∧
    (rig.vaultKey (th rig).place 0 4 false).toOption = some 0 ∧ (rig.vread 61 3).poison = false ∧ ((mapped rig).translate (th rig).xl .write (0x2000 + 61)).toOption = some (0x2000 + 61) ∧
    (0x2000 + 61) % 64 + 3 ≤ 64 ∧ ((mapped rig).translate (th rig).xl .read 0x2000).toOption = some 0x2000 ∧ ((mapped rig).readAt (th rig).who .die 0x2000 4).poison = false ∧
    rig.regionAt ⟨(th rig).who, (th rig).xl, 6, 10⟩ 0x203D = none ∧
    (inCtx fun c => { c with shadows := c.shadows.set 7 (some regionAt0) }).regionAt ⟨(th rig).who, (th rig).xl, 6, 10⟩ 0x203F = some 7 := by
  decide +kernel

theorem witness_CopiesCompleteAndPublish :
    (∀ c ∈ [lift .cpy (some 10) (some outBlk) 64 64, { lift (.fill 0) (some 10) (some fillBlk) 64 3 with fault := some 5 }, { lift (.pub 7) (some 10) none 0 0 with ran := true }],
      let s := lighter c
      s.copy c.id = some c ∧ c.adm ≠ none ∧ c.stalled = false ∧ c.finished = false ∧ (c.fault ≠ none ∨ (if c.bits ≠ none then c.bytes ≤ c.done ∧ c.held = [] else c.ran = true)) ∧ s.ms.writes = [] ∧ s.en.batches = [] ∧
        (s.thread c.tid).isSome) ∧
    (∀ k ∈ [CopyKind.pub 7, .off 7],
      let c := lift k (some 10) none 0 0
      let s : State := { inCtx fun c => { c with shadows := c.shadows.set 7 (some regionAt0) } with en := { (inCtx fun c => { c with shadows := c.shadows.set 7 (some regionAt0) }).en with copies := [c] } }
      s.copy c.id = some c ∧ (s.ctx c.ctx).map (fun x => x.shadows[7]?) = some (some (some regionAt0)) ∧ c.adm ≠ none ∧ c.ran = false ∧ (∀ x ∈ s.en.copies, x.ctx = c.ctx → x.id < c.id → x.finished = true) ∧
        (s.ctx c.ctx).map (fun x => (x.mxq, x.splq)) = some ([], []) ∧ s.en.fops = [] ∧ s.en.walks = [] ∧ s.ms.mem.wf = true ∧ s.ms.vault.wf = true) := by
  decide +kernel

/-! ## Witnesses: fields -/

/-- A field of one cell with its entries at 0x6000 and no ancestor surface; a child of slot 2. -/
def fdesc : Nat := 0x6000 + 2 ^ 64 + 2 ^ 80 + 15 * 2 ^ 112 + 2 ^ 192 + 2 ^ 208
def slotOf (st : SlotState) (pend : Bool) (parent : Option Nat) (depth : Nat) : Slot :=
  ⟨st, pend, some (fdesc + match parent with | some p => p * 2 ^ 104 + 2 ^ 110 | none => 0), 7, 4, depth⟩
def fielded (l : List (Nat × Slot)) : State := { mapped (pair rig 10 0x6000) with nextId := 20, en := { rig.en with fsts := [⟨0, 0, l⟩] } }

theorem witness_FieldInstructionsIssue :
    (let s := fielded [(2, slotOf .opened false none 1), (3, slotOf .sealed false (some 2) 2), (4, slotOf .retired false none 1)]
     let x n := s.slotOf (th s) n
     (th s).ctr.tiles < 63 ∧ (th s).ctr.loads < 63 ∧ (x 63).state = .free ∧ (x 63).pending = false ∧ (x 2).state = .opened ∧ (x 2).pending = false ∧ (x 2).desc ≠ none ∧ (x 3).state = .sealed ∧ (x 4).state = .retired ∧
       (s.rd2 (th s) (.v 10)).toNat % 64 = 0 ∧ (s.rd (th s) (.v 4)).toNat < 1 ∧ (x 3).depth ≤ 8 ∧
       (∀ i ∈ [Instr.fopen h7 (.v 5) (.v 10) 63, .fopen h7 (.v 5) (.v 10) 2, .fst h7 (.v 4) (.v 5) 2, .fst h7 (.v 10) (.v 5) 2, .fst h7 (.v 4) (.v 5) 3, .fseal h7 2, .fseal h7 63, .fcomp h7 (.v 10) 3 63 2 .zero,
          .fcomp h7 (.v 10) 3 2 0 .zero, .fcomp h7 (.v 10) 3 63 3 .miss, .finv h7 2, .finv h7 63, .frel h7 4, .frel h7 2, .fqry h7 (.v 4) 3, .fqryAnc h7 (.v 4) 63, .hld h7 (.v 20) (.v 10) 3 0 .wait (some 7),
          .hld h7 (.v 20) (.v 10) 63 0 .wait none, .hres h7 (.v 20) (.v 10) 3 2 .zero (some 0), .hres h7 (.v 20) (.v 10) 3 8 .zero none], runsB s h7 i = true) ∧
       (s.chainOf 0 0 3 2).map (fun l => l.map Link.slot) = some [3, 2] ∧ (s.chainOf 0 0 3 0).map (fun l => l.map Link.slot) = some [3, 2] ∧ s.chainOf 0 0 3 3 = none ∧ s.chainOf 0 0 3 8 = none ∧
       s.en.walks = [] ∧ (Opnd.v 20).spanOk 4 = true ∧ inBudget (th s).place.budget (.v 20, 4) = true ∧ s.pending (th s) (spanRefs (.v 20, 4)) = false) ∧
    -- a chain whose last slot has a surface, for HLD
    (let s := fielded [(2, { slotOf .opened false none 1 with desc := some (fdesc - 15 * 2 ^ 112) })]
     (s.slotOf (th s) 2).state ≠ .free ∧ (s.chainOf 0 0 2 1).map (fun l => l.map fun k => k.desc / 2 ^ 112 % 16) = some [0] ∧ runsB s h7 (.hld h7 (.v 20) (.v 10) 2 1 .miss none) = true) := by
  decide +kernel

/-- A walk at its first hop, and its endings. -/
def aWalk (st : WalkEnd) (x : Nat) (live : SlotState) (hres : Bool) (pred : Option Nat) (tex : List Nat) : Walk where
  id := 9
  tid := 5
  launch := 1
  core := ⟨0, 0⟩
  part := 0
  pos := ⟨0x1000, 0x1008, true⟩
  slot := 2
  hops := 1
  x0 := x
  y0 := x
  em := .wait
  d := .v 20
  regs := if hres then 4 else 1
  hres := hres
  pred := pred
  chain := [⟨2, live, fdesc⟩]
  at_ := ⟨x, x, 63, 0, 0, 0⟩
  st := st
  stalled := false
  texels := tex
  since := 0
def walking (w : Walk) (entry : Nat) : State :=
  let s := fielded [(2, slotOf .opened false none 1)]
  { s with ms := { s.ms with mem := cells 0x6000 4 entry }, en := { s.en with walks := [w] } }

theorem witness_WalksStepAndEnd :
    -- a slot retired in the snapshot; a position just outside the grid, whose one cell is one pixel wide; valid, invalid and empty entries
    (∀ x ∈ [(SlotState.retired, 0x3F000000, 0), (.opened, 0x3F800000, 0), (.opened, 0x3F000000, 0x80000000), (.opened, 0x3F000000, 0xC0000000), (.opened, 0x3F000000, 0), (.sealed, 0x3F000000, 0), (.opened, 0x3F000000, 0xC0000FFF)],
      let w := aWalk .going x.2.1 x.1 true none []
      let s := walking w x.2.2
      s.walk w.id = some w ∧ w.stalled = false ∧ (w.st = .going ∨ w.st = .parked) ∧ (w.chain[w.at_.n]?).isSome ∧ (s.thread w.tid).isSome ∧
        (cellIndex fdesc w.at_.x w.at_.y = if x.2.1 = 0x3F800000 then none else some 0) ∧
        ((match s.agentRead (th s).xl (th s).who .die (fdesc % 2 ^ 64 + 4 * 0) 4 with | .ok r => some (r.val, r.poison) | .error _ => none) = some (x.2.2, false))) ∧
    (∀ w ∈ [aWalk .reached 0x3F000000 .opened true none [], aWalk .reached 0x3F000000 .opened true (some 0) [], aWalk .reached 0x3F000000 .opened false none [1, 2, 3, 4], aWalk (.disocc 4 2) 0x3F000000 .opened true none [],
        aWalk (.disocc 1 2) 0x3F000000 .opened false (some 6) [], aWalk (.failed 0x20 1 0x6000) 0x3F000000 .opened false none []],
      let s := walking w 0
      s.walk w.id = some w ∧ w.stalled = false ∧ (s.thread w.tid).isSome ∧ (th s).exited = false) := by
  decide +kernel

def aFop (k : FKind) : FOp := ⟨9, 5, 1, 0, ⟨0, 0⟩, ⟨0x1000, 0x1008, true⟩, k, [], false, [], 0⟩
def fopping (k : FKind) (l : List (Nat × Slot)) (m : Memory) : State :=
  let s := fielded l
  { s with ms := { s.ms with mem := m }, en := { s.en with fops := [aFop k] } }

theorem witness_FieldOperationsComplete :
    -- FOPEN: a descriptor that fails, one without a parent, and ones under a parent that is pending, open, or retired
    (∀ x ∈ [(fdesc + 1, SlotState.opened, false, some 0x02), (fdesc, .opened, false, none), (fdesc + 2 * 2 ^ 104 + 2 ^ 110, .opened, true, none), (fdesc + 2 * 2 ^ 104 + 2 ^ 110, .opened, false, none),
        (fdesc + 2 * 2 ^ 104 + 2 ^ 110, .retired, false, none)],
      let s := fopping (.open_ 3 0x5000) [(2, slotOf x.2.1 x.2.2.1 none 1), (3, ⟨.opened, true, none, 1, 0, 0⟩)] (cells 0x5000 64 x.1)
      s.fop 9 = some (aFop (.open_ 3 0x5000)) ∧ (s.thread 5).isSome ∧ (th s).exited = false ∧
        ((match s.agentRead (th s).xl (th s).who .core 0x5000 64 with | .ok r => some (r.val, r.poison) | .error _ => none) = some (x.1, false)) ∧ fdCheck 3 x.1 = x.2.2.2 ∧
        (s.slot 0 0 2).pending = x.2.2.1 ∧ fdParentOk x.1 (s.slot 0 0 2) = decide (x.2.1 = .opened)) ∧
    (let l : List Link := [⟨2, .opened, fdesc⟩]
     let s := fopping (.comp 2 3 0x7000 l .zero [0]) [(2, slotOf .opened false none 1), (3, slotOf .opened true none 1)] []
     s.fop 9 = some (aFop (.comp 2 3 0x7000 l .zero [0])) ∧ (fdesc / 2 ^ 64 % 2 ^ 16) * (fdesc / 2 ^ 80 % 2 ^ 16) ≤ [0].length ∧ s.ms.writes = []) ∧
    (let s := fopping (.put 0x7000 0xE8000004 false) [(2, slotOf .opened false none 1)] []
     s.fop 9 = some (aFop (.put 0x7000 0xE8000004 false)) ∧ s.access 9 = none ∧ s.ms.accs = [] ∧ s.ms.writes = [] ∧ s.ms.mem.wf = true ∧ s.ms.vault.wf = true ∧
       (s.translate (th s).xl .write 0x7000).toOption = some 0x7000 ∧ s.linkHeld 0x7000 = false ∧ s.lost 0x7000 = 0 ∧
       ((s.ctx (((s.ctxOf (th s)).map Ctx.id).getD 0)).map fun c => c.shadows.all (· == none)) = some true) ∧
    -- an access of the thread issued before the FST has not performed
    (let s := fopping (.put 0x7000 0xE8000004 false) [(2, slotOf .opened false none 1)] []
     let a : Access := ⟨8, 5, ⟨0, 0⟩, false, 0, .core, false, false, false, .store [1], .store, ⟨0x1000, 0x1000, true⟩, 0, [⟨0, 1, 0x6000, false, 0, none, false, none, none⟩], [], false, false, none, none⟩
     ({ s with ms := { s.ms with accs := [a] } } : State).access 9 = none ∧ a.id < 9 ∧ a.tid = (th s).id ∧ a.withdrawn = false ∧ a.silent = false ∧ a.performed = false) ∧
    (let s := fopping (.put 0x7000 0xE8000004 true) [(2, slotOf .opened false none 1)] [⟨0x7000, 4⟩]
     let r : WriteRec := ⟨7, [⟨0x7000, 4⟩], [⟨0x7000, 0⟩], 5, ⟨0, 0⟩, 0, none, [], [], false, [], none⟩
     let s1 : State := { s with ms := { s.ms with writes := [r] }, en := { s.en with fops := [{ aFop (.put 0x7000 0xE8000004 true) with writes := [7] }] } }
     (s1.fop 9).map FOp.writes = some [7] ∧ s1.visibleAt r (.die 0) = false ∧ (s1.thread 5).isSome) ∧
    (∀ k ∈ [FKind.seal 2, .inv 2 none, .inv 2 (some [2]), .rel 4],
      let s := fopping k [(2, slotOf .opened false none 1), (4, slotOf .retired false none 1)] []
      s.fop 9 = some (aFop k) ∧ s.walksOf 0 0 2 = 0 ∧ s.walksOf 0 0 4 = 0 ∧ (s.slot 0 0 4).state = .retired ∧ (s.slot 0 0 4).pending = false) := by
  decide +kernel

/-! ## Witnesses: the splat units -/

/-- A gang of launch 1 on core 0: stage 0 takes queue 1 and puts out to queue 0; a queue of one berth of 16 bytes at vault offset 0x1000. -/
def stage0 : Nat := 0x2000 + 15 * 2 ^ 56 + 1 * 2 ^ 64 + 1 * 2 ^ 72 + 1 * 2 ^ 80 + 0 * 2 ^ 84 + 15 * 2 ^ 88 + 15 * 2 ^ 92 + 1 * 2 ^ 96 + 1 * 2 ^ 112 + 2 * 2 ^ 144 + 77 * 2 ^ 224
def queue0 (spill : Bool) : Nat := 0x1000 + if spill then 2 ^ 48 + 0x9000 * 2 ^ 64 + 4 * 2 ^ 128 else 0
def gang (out inp : Queue) : Gang := ⟨1, 0, [6], [⟨stage0, 5, some 1, none⟩], [out, inp], [⟨0, 0, none, none⟩], 0, true, true, false⟩
def inGang (out inp : Queue) (s : State) : State :=
  { s with wk := { s.wk with gangs := [gang out inp], teams := s.wk.teams.map fun x => { x with stage := some 0 } } }
def noRecs (spill : Bool) : Queue := ⟨queue0 spill, [], false⟩
def recOf (at_ : Nat) (spilled : Bool) (holder : Option Nat) : QRec := ⟨[1, 2, 3, 4], 0, spilled, at_, holder, 0⟩

theorem witness_SplatInstructionsIssue :
    (let s := inGang (noRecs false) (noRecs false) (one (pair (pair rig 6 0x1000) 8 0x1040) 10 128)
     (s.ctxOf (th s)).isSome ∧ (th s).ctr.tiles < 63 ∧ ((s.ctxOf (th s)).map fun c => c.splq.length) = some 0 ∧ (s.rd2 (th s) (.v 6)).toNat = 0x1000 ∧ (s.rd (th s) (.v 10)).toNat = 128 ∧ ((s.ctxOf (th s)).map fun c => c.open_.isSome) = some false ∧
       s.binding (th s) 1 = some (1, 0) ∧ s.binding (th s) 2 = none ∧ s.binding (th s) 0 = some (1, 1) ∧
       (∀ i ∈ [Instr.spview h7 (.v 6) (.v 10), .spview h7 (.v 10) (.v 10), .spbegin h7 (.v 6) none, .spbegin h7 (.v 6) (some 1), .spbegin h7 (.v 6) (some 2), .spbegin h7 (.v 9) none, .spsub h7 (.v 6) (.v 10), .spend h7,
          .spendAbort h7, .spbwd h7 (.v 6) (.v 8), .spred h7 (.v 6) (.v 8), .spred h7 (.v 6) (.v 9), .spqry h7 (.v 4)], runsB s h7 i = true)) ∧
    -- the last batch that a pass takes, and one primitive too many
    (∀ x ∈ [(1023, 2 ^ 31 - 2 ^ 24, true), (1023, 2 ^ 31 - 2 ^ 24 + 1, false), (1024, 0, false)],
      let s0 := one (pair rig 6 0x1000) 10 (2 ^ 24)
      let s := s0.onCtx 6 fun c => { c with open_ := some ⟨7, 5, x.2.1, x.1⟩ }
      runsB s h7 (.spsub h7 (.v 6) (.v 10)) = true ∧ runsB s h7 (.spend h7) = true ∧ runsB s h7 (.spendAbort h7) = true ∧
        ((s.ctxOf (th s)).map fun c => c.open_.map fun p => decide (p.batches < 1024 ∧ p.count + (s.rd (th s) (.v 10)).toNat ≤ 2 ^ 31)) = some (some x.2.2)) := by
  decide +kernel

/-- A pass of one view, one tile and one pixel on the rig's core, its tile memory at 0x10000 and its image at 0x20000. -/
def aTile : Nat := 0x10000 + 0xC000 * 2 ^ 64 + 0x20000 * 2 ^ 128 + 2 ^ 256 + 2 ^ 384 + 2 ^ 400 + 0x3F000000 * 2 ^ 416 + 0x7F800000 * 2 ^ 448 + 2 ^ 640
def passOf (tm : Nat) (failed : Bool) : Pass := ⟨30, 5, 0x9000, if tm = 0 then 0 else aTile, tm, none, failed, []⟩
def splCtx (k : SplKind) (ps : List Pass) : Ctx := { Ctx.fresh 6 ⟨0, 0⟩ 0 with views := [0], splq := [⟨⟨9, 5, 1, ⟨0x1000, 0x1008, true⟩⟩, k, false, 0, [], [], none, [], []⟩], passes := ps }
def splatting (k : SplKind) (ps : List Pass) (m : Memory) : State :=
  let s := mapped rig
  { s with nextId := 40, ms := { s.ms with mem := m }, en := { s.en with ctxs := [splCtx k ps] } }
theorem splat_at (k : SplKind) (ps : List Pass) (m : Memory) : (splatting k ps m).SplatAt (splCtx k ps) ⟨9, 5, 1, ⟨0x1000, 0x1008, true⟩⟩ k [] (th rig) :=
  ⟨rfl, rfl, BitVec.getLsbD_zero, rfl⟩
/-- Pass 30 holds the splat units of its core. -/
def held30 (s : State) : State := { s with en := { s.en with holders := [(⟨0, 0⟩, 30)] } }
/-- A read of an agent gives a number, unpoisoned. -/
def gives (e : Except AErr ReadRes) (v : Nat) : Bool := match e with
  | .ok r => r.val == v && !r.poison
  | .error _ => false
def reads (s : State) (sc : Scope) (a n v : Nat) : Bool := gives (s.agentRead (th s).xl (th s).who sc a n) v
theorem gives_ok {e : Except AErr ReadRes} {v : Nat} (h : gives e v = true) : ∃ r, e = .ok r ∧ r.poison = false ∧ r.val = v := by
  unfold gives at h
  split at h
  · simp only [Bool.and_eq_true, beq_iff_eq, Bool.not_eq_true'] at h; exact ⟨_, rfl, h.2, h.1⟩
  · cases h

theorem ofBytes_zeros (l : List Byte) (n : Nat) : ofBytes (l ++ List.replicate n 0) = ofBytes l := by
  induction l with
  | nil => induction n with
    | zero => rfl
    | succ n ih => simp_all [List.replicate_succ, ofBytes]
  | cons b l ih => simp_all [ofBytes]

theorem readN_beyond {m : Memory} {a : Nat} (n : Nat) (h : m.all (fun c => decide (c.1 < a)) = true) : m.readN a n = List.replicate n 0 := by
  have read : ∀ i, m.read (a + i) = 0 := by
    intro i
    induction m with
    | nil => rfl
    | cons c m ih =>
      simp only [List.all_cons, Bool.and_eq_true, decide_eq_true_eq] at h
      have hc : a + i ≠ c.1 := by omega
      simp [Memory.read, hc, ih h.2]
  rw [Memory.readN, List.eq_replicate_iff]
  simp [read]

/-- Where no write is recorded, a read gives what memory holds; its first k pieces are looked up, and beyond them nothing is listed. -/
theorem read_memory {s : State} {x : Xl} {w : Who} {sc : Scope} {a n v : Nat} (k : Nat) (hw : s.ms.writes = []) (hp : s.ms.poison0 = [])
    (e : (s.agentPieces x .read (pieces a n)).toOption.any (fun ps => ofBytes ((ps.take k).flatMap fun p => s.ms.mem.readN p.1 p.2) == v &&
      (ps.drop k).all fun p => s.ms.mem.all fun c => decide (c.1 < p.1)) = true) :
    ∃ r, s.agentRead x w sc a n = .ok r ∧ r.poison = false ∧ r.val = v := by
  obtain ⟨ps, h, hv⟩ : ∃ ps, s.agentPieces x .read (pieces a n) = .ok ps ∧ ofBytes (ps.flatMap fun p => s.ms.mem.readN p.1 p.2) = v := by
    cases h : s.agentPieces x .read (pieces a n) with
    | error _ => simp [h, Except.toOption] at e
    | ok ps =>
      simp only [h, Except.toOption, Option.any_some, Bool.and_eq_true, beq_iff_eq] at e
      have far : ∀ l : List (Nat × Nat), l.all (fun p => s.ms.mem.all fun c => decide (c.1 < p.1)) = true →
          ∃ j, l.flatMap (fun p => s.ms.mem.readN p.1 p.2) = List.replicate j 0 := by
        intro l
        induction l with
        | nil => intro _; exact ⟨0, rfl⟩
        | cons p l ih =>
          intro h
          rw [List.all_cons, Bool.and_eq_true] at h
          obtain ⟨j, hj⟩ := ih h.2
          exact ⟨p.2 + j, by rw [List.flatMap_cons, readN_beyond _ h.1, hj, List.replicate_append_replicate]⟩
      obtain ⟨j, hj⟩ := far _ e.2
      refine ⟨ps, rfl, ?_⟩
      rw [← List.take_append_drop k ps, List.flatMap_append, hj, ofBytes_zeros, e.1]
  have key : ∀ (l : List (Nat × Nat)) (r : ReadRes), r.poison = false →
      (l.foldl (fun r p => r.join (s.readAt w sc p.1 p.2)) r).bytes = r.bytes ++ l.flatMap (fun p => s.ms.mem.readN p.1 p.2) ∧
        (l.foldl (fun r p => r.join (s.readAt w sc p.1 p.2)) r).poison = false := by
    intro l
    induction l with
    | nil => intro r h; simp [h]
    | cons p l ih =>
      intro r h
      obtain ⟨h1, h2⟩ := ih (r.join (s.readAt w sc p.1 p.2)) (by simp [ReadRes.join, State.readAt, State.readBy, h, State.poisonOf, hw, hp])
      refine ⟨?_, h2⟩
      rw [List.foldl_cons, h1]
      simp [ReadRes.join, State.readAt, State.readBy, State.byteOf, State.initial, hw, Memory.readN]
  obtain ⟨hb, hq⟩ := key ps ⟨[], [], false⟩ rfl
  exact ⟨_, by rw [State.agentRead, h], hq, by rw [ReadRes.val, hb, List.nil_append, hv]⟩

/-- Writes of an agent are made, and leave its context as it is. -/
def wrote (s : State) (c : Ctx) (l : List (Nat × List Byte)) : Bool := (s.splWrites ⟨(th s).who, (th s).xl, c.id, 9⟩ l).toOption.any fun w => decide (w.2.ctx c.id = some c)

/-- SPVIEW of one view and of one that is poisoned; SPBEGIN of a descriptor that passes, whose units are free or held, and of one that fails;
SPSUB of a pass that failed and of one whose tile memory holds one tile; the ends of each. -/
theorem witness_SplatPassOperationsRun :
    (∀ x ∈ [(SplKind.view 0x8000 1, []), (.beginP 30, [passOf 0 false]), (.sub 30 0x8000 1 1023 5, [passOf 0x10000 false]), (.endP 30 true, [passOf 0x10000 true])],
      (splatting x.1 x.2 []).SplatAt (splCtx x.1 x.2) ⟨9, 5, 1, ⟨0x1000, 0x1008, true⟩⟩ x.1 [] (th rig)) ∧
    reads (splatting (.view 0x8000 1) [] (cells 0x8000 64 7)) .die (0x8000 + 64 * 0) 64 7 = true ∧
    (let s : State := { splatting (.view 0x8000 1) [] [] with ms := { (splatting (.view 0x8000 1) [] []).ms with poison0 := [0x803F] } }
     ((s.agentRead (th s).xl (th s).who .die 0x8000 64).toOption.map ReadRes.poison) = some true) ∧
    (∀ d ∈ [aTile, aTile + 2 ^ 896],
      let s := splatting (.beginP 30) [passOf 0 false] (cells 0x9000 256 d)
      reads s .die 0x9000 256 d = true ∧ pdCheck (fun i => s.md.dies.getLsbD i) 1 false d = (if d = aTile then none else some 0x03)) ∧
    pdCores aTile = [⟨0, 0⟩] ∧ (splatting (.beginP 30) [passOf 0 false] []).en.holders = [] ∧
    (let s := held30 (splatting (.sub 30 0x8000 1 1023 5) [passOf 0x10000 false] (cells 0x10000 256 aTile))
     (∃ m, s.agentRead (th s).xl (th s).who .die 0x10000 0x2200 = .ok m ∧ m.poison = false ∧ m.val = aTile) ∧
       (s.readPrims (th s).xl (th s).who (pdDies aTile) 0x8000 5 1).toOption.isSome ∧
       wrote s (splCtx (.sub 30 0x8000 1 1023 5) [passOf 0x10000 false]) [(0x10000 + 0x4000 + 16 * 1023, toBytes 8 0x8000 ++ toBytes 4 1 ++ toBytes 4 5)] = true) ∧
    (let s := held30 (splatting (.endP 30 false) [passOf 0x10000 false] (cells 0x10000 256 aTile))
     let c := splCtx (.endP 30 false) [passOf 0x10000 false]
     let g : Agent := ⟨(th s).who, (th s).xl, c.id, 9⟩
     let ts := tilesOf s aTile (tmView aTile) []
     (∃ m, s.agentRead (th s).xl (th s).who .die 0x10000 0x8000 = .ok m ∧ m.poison = false ∧ m.val = aTile) ∧
       (s.finalPrims (th s).xl (th s).who (tmBatches aTile) []).toOption.isSome ∧ ts.map (fun x => (x.w, x.tx, x.ty, x.ovl, x.empty, x.size)) = [(0, 0, 0, false, false, 0)] ∧
       ((s.splWrites g [(0x10000 + 0x104, toBytes 4 0), (0x10000 + 0x8000, dirBytes s aTile 0 ⟨0, 0, 0, ⟨[], []⟩, 0, some 0⟩)]).toOption.any fun w1 =>
         (w1.2.putTiles c g (passOf 0x10000 false) aTile ts).toOption.any fun w2 => (w2.2.ctx 6).any fun c2 => decide (c2.splq = c.splq)) = true) := by
  refine ⟨fun x _ => splat_at x.1 x.2 [], by decide +kernel, by decide +kernel, by decide +kernel, by decide +kernel, rfl,
    ⟨read_memory 4 rfl rfl (by decide +kernel), by decide +kernel, by decide +kernel⟩, read_memory 4 rfl rfl (by decide +kernel), by decide +kernel, by decide +kernel, by decide +kernel⟩

/-- The bytes of a new pass's tile memory are written. -/
theorem witness_SplatPassOperationsRun_tileMemory :
    wrote (splatting (.beginP 30) [passOf 0 false] []) (splCtx (.beginP 30) [passOf 0 false]) [(0x10000, tileMemory (splatting (.beginP 30) [passOf 0 false] []) aTile [0])] = true := by
  decide +kernel

/-- A descriptor whose tile memory no page maps: the write faults. Another pass holds the units that a descriptor names. -/
theorem witness_SplatPassOperationsRun_faults :
    (let d := aTile - 0x10000 + 2 ^ 30
     let s := splatting (.beginP 30) [passOf 0 false] (cells 0x9000 256 d)
     reads s .die 0x9000 256 d = true ∧ pdCheck (fun i => s.md.dies.getLsbD i) 1 false d = none ∧
       (match s.splWrites ⟨(th s).who, (th s).xl, 6, 9⟩ [(pdTm d, tileMemory s d [0])] with
         | .error (.flt _ _) => true
         | _ => false) = true) ∧
    (let s : State := { splatting (.beginP 30) [passOf 0 false] (cells 0x9000 256 aTile) with en := { (splatting (.beginP 30) [passOf 0 false] []).en with holders := [(⟨0, 0⟩, 31)] } }
     reads s .die 0x9000 256 aTile = true ∧ (∃ x ∈ pdCores aTile, (x, 31) ∈ s.en.holders) ∧ ∀ x, (x, 30) ∉ s.en.holders) := by
  refine ⟨by decide +kernel, by decide +kernel, by decide +kernel, fun x h => ?_⟩
  simp at h

/-- Backward descriptors: a good one, one with a reserved bit, and one that is misaligned; a buffer's header with a reserved bit; a pass whose STATE is
not 1, and one whose STATE is 1. -/
theorem witness_GradientOperationsRun :
    (∀ k ∈ [SplKind.bwd 0x10000 0x8000, .red 0x8000 0x9000], (splatting k [] []).SplatAt (splCtx k []) ⟨9, 5, 1, ⟨0x1000, 0x1008, true⟩⟩ k [] (th rig)) ∧
    (∀ x ∈ [(0x6000 + 0x7000 * 2 ^ 64, 64 * 2 ^ 64), (0x6000 + 0x7000 * 2 ^ 64 + 2 ^ 511, 0), (0x6020 + 0x7000 * 2 ^ 64, 0), (0x6000 + 0x7000 * 2 ^ 64, 2 ^ 128)],
      let s := splatting (.bwd 0x10000 0x8000) [] (cells 0x7000 64 x.2 ++ cells 0x8000 64 x.1)
      reads s .die 0x8000 64 x.1 = true ∧ reads s .die 0x7000 64 x.2 = true) ∧
    (let s := splatting (.bwd 0x10000 0x8000) [] []
     ∃ m, s.agentRead (th s).xl (th s).who .die 0x10000 0x8000 = .ok m ∧ m.poison = false ∧ m.val = 0) ∧
    (let s := splatting (.bwd 0x10000 0x8000) [] (cells 0x10000 264 (aTile + 2 ^ 2048))
     let s1 : State := { s with en := { s.en with holders := [(⟨0, 0⟩, 9)] } }
     (∃ m, s.agentRead (th s).xl (th s).who .die 0x10000 0x8000 = .ok m ∧ m.poison = false ∧ m.val = aTile + 2 ^ 2048) ∧ s.en.holders = [] ∧ pdCores aTile = [⟨0, 0⟩] ∧
       ((s1.backTiles (th s).xl (th s).who 0x10000 aTile 0x6000 (aTile + 2 ^ 2048) (indexed (pdTiles aTile))).toOption.map List.length) = some 0 ∧
       wrote s1 (splCtx (.bwd 0x10000 0x8000) []) [] = true) ∧
    -- SPRED of one record into a buffer for one; of a buffer into itself; of a header with a reserved bit
    (let s := splatting (.red 0x8000 0x9000) [] (cells 0x8000 64 (1 + 2 ^ 64) ++ cells 0x9000 64 (2 ^ 64))
     reads s .die 0x8000 64 (1 + 2 ^ 64) = true ∧ reads s .die 0x9000 64 (2 ^ 64) = true ∧ reads s .die 0x8040 48 0 = true ∧ ¬ (0x8000 < 0x9000 + (64 + 48 * 1) ∧ 0x9000 < 0x8000 + (64 + 48 * 1)) ∧
       (reduceGrads [gradOf 0]).length = 1 ∧ wrote s (splCtx (.red 0x8000 0x9000) []) [(0x9000 + 64, (reduceGrads [gradOf 0]).flatMap GradRec.bytes)] = true) ∧
    (let s := splatting (.red 0x8000 0x8000) [] []
     reads s .die 0x8000 64 0 = true) ∧
    reads (splatting (.red 0x8000 0x9000) [] (cells 0x8000 64 (2 ^ 128))) .die 0x8000 64 (2 ^ 128) = true := by
  refine ⟨fun k _ => splat_at k [] [], by decide +kernel, read_memory 0 rfl rfl (by decide +kernel), ⟨read_memory 5 rfl rfl (by decide +kernel), by decide +kernel⟩,
    by decide +kernel, by decide +kernel, by decide +kernel⟩

def splDone (last : Option (Nat × List Byte)) (tiles : List TileDone) (ws : List Nat) : State :=
  let s := inGang (noRecs false) (noRecs false) (mapped rig)
  s.onCtx 6 fun c => { c with splq := [⟨⟨9, 5, 1, ⟨0x1000, 0x1008, true⟩⟩, .endP 30 false, false, 1, ws, [], last, [], []⟩], tilesDone := tiles }

/-- An operation whose writes are visible, with no last write and with one; one that waits for a write, and one that waits for a tile; the
tile's record finds a berth. -/
theorem witness_SplatOperationsFinish :
    (∀ x ∈ [(none, []), (some (0x5000, [1, 0, 0, 0]), []), (none, [(⟨30, (1, 0), [1, 2, 3, 4], []⟩ : TileDone)])],
      let s := splDone x.1 x.2 []
      (s.ctx 6).map (fun c => (c.splq.map fun o => (o.phase, o.last, o.reports, o.stalled)) == [(1, x.1, [], false)]) = some true ∧ (s.thread 5).isSome ∧ s.ms.writes = [] ∧ (th s).exited = false) ∧
    wrote (splDone (some (0x5000, [1, 0, 0, 0])) [] []) (((splDone (some (0x5000, [1, 0, 0, 0])) [] []).ctx 6).getD (Ctx.fresh 6 ⟨0, 0⟩ 0)) [(0x5000, [1, 0, 0, 0])] = true ∧
    (let s : State := { splDone none [] [3] with ms := { rig.ms with writes := [⟨3, [(0x40, 1)], [(0x40, 0)], 5, ⟨0, 0⟩, 0, none, [], [.core ⟨0, 0⟩], false, [], none⟩] } }
     ∃ r ∈ s.ms.writes, r.id ∈ [3] ∧ ∃ p ∈ s.performedAt (th s).who .system, s.visibleAt r p = false) ∧
    (let s := splDone none [⟨30, (1, 0), [1, 2, 3, 4], []⟩] []
     (s.ctx 6).map (fun c => c.tilesDone.length) = some 1 ∧ (s.gang 1).isSome ∧ (s.queue 1 0).map (fun q => (q.closed, q.place)) = some (false, some (false, 0)) ∧ s.ms.mem.wf = true ∧ s.ms.vault.wf = true) := by
  decide +kernel

/-- A triangle far from a pixel. -/
theorem witness_SplatListsAndPixels : ∀ t ∈ [(⟨[0x41200000, 0x41300000, 0x41200000], [0x41200000, 0x41200000, 0x41300000], [fOne, fOne, fOne], [0, 0, 0], 5⟩ : Tri)], t.depthAt 0 0 = none := by
  decide +kernel

/-! ## Witnesses: control, waits, barriers -/

/-- Bits in which a thread does not pass an instruction whose guard is false. -/
def passB (s : State) (h : Gd) (i : Instr) : Bool :=
  let t := th s
  s.front.length == 1 && t.out.hits == [] && (useOf i).fits t.place.budget && !s.pending t [.p h.p.val] && t.regs.getP h.p.val == h.neg
def batched (at_ : Nat) (fin : Option Nat) : State :=
  let s := on rig fun t => { t with regs := t.regs.setK 7 (some (.batch 11)) }
  { s with nextId := 20, en := { s.en with batches := [⟨11, 5, 0xFFFF, [], at_, fin, false⟩] } }

/-- Targets that are aligned and misaligned, the last word before and after; counters that a WAITC meets and does not; a batch with its promise
ahead, missed, and finished; every register without a batch. -/
theorem witness_ControlTransfersAndWaits_words :
    (let s := on (pair (pair rig 6 0x2000) 8 0x2004) fun t => { t with ctr := ⟨1, 0, 0, 63⟩ }
     (∀ i ∈ [Instr.bra h7 0x7FFFFFF8, .bra h7 0xFFFFFFF8, .bra h7 4, .brx h7 (.v 6), .brx h7 (.v 8), .ret h7 (.v 6), .ret h7 (.v 8), .call h7 (.v 4) 0x10, .call h7 (.v 4) 1, .exit h7, .waitc h7 0 0 15 15,
        .waitc h7 1 15 0 15, .waitc h7 15 15 15 14, .sleep h7 0, .sleep h7 0xFFFFFFFF, .sleepu h7 7, .yieldI h7, .bkpt h7 0xFFFFFFFF], runsB s h7 i = true) ∧ (s.rd2 (th s) (.v 6)).toNat = 0x2000 ∧
       (s.rd2 (th s) (.v 8)).toNat = 0x2004 ∧ (th s).regs.getK 7 = none ∧ s.focus = some q0 ∧ ((th s).pos.pc + (0xFFFFFFF8 : Word).signExtend 64).toNat = 0x1000) ∧
    (∀ x ∈ [(1, none, some 1), (0, none, some 0), (0, some 0, some 0)],
      let s := batched x.1 x.2.1
      runsB s h7 (.sleepu h7 7) = true ∧ (th s).regs.getK 7 = some (.batch 11) ∧ (s.en.batches.find? fun b => b.id == 11) = some ⟨11, 5, 0xFFFF, [], x.1, x.2.1, false⟩ ∧
        s.promiseOf ⟨11, 5, 0xFFFF, [], x.1, x.2.1, false⟩ = x.2.2 ∧ s.clock.toNat = 0) := by
  decide +kernel

theorem witness_TimedWaitsEnd :
    (∀ n ∈ [0, 1], let s := on rig fun t => { t with wait := .sleep n }
      (s.thread 5).map (fun t => t.wait) = some (.sleep n) ∧ (n ≤ s.clock.toNat ↔ n = 0)) ∧
    (∀ n ∈ [0, 1], let s := (batched n none).onThread 5 fun t => { t with wait := .sleepu 11 ⟨0x1000, 0x1008, true⟩, mode := .cont false }
      (s.thread 5).any (fun t => t.wait == .sleepu 11 ⟨0x1000, 0x1008, true⟩ && s.mayWake t) = true ∧ s.promiseOf ⟨11, 5, 0xFFFF, [], n, none, false⟩ = some n) := by
  decide +kernel

/-- A first arrival, an arrival whose previous phase is complete and one whose is not; a passive arrival; a token of a phase that is complete and of one
that is not. -/
theorem witness_BarriersTakeArrivals :
    (∀ i ∈ [Instr.bar h7 15, .arrive h7 7 3, .bwait h7 0], runsB rig h7 i = true) ∧ phases (th rig).cnt.cbar 3 = 0 ∧
    (let h : Gd := ⟨0, false, false, false⟩
     ∀ i ∈ [Instr.bar h 15, .arrive h 7 3], passB rig h i = true) ∧
    (∀ n ∈ [1, 2], let s := on { rig with wk := { rig.wk with clusters := [⟨2, 0, 0, 1, 1, [3], [(3, 1)]⟩] } } fun t => { t with cnt := { t.cnt with cbar := [(3, n)] } }
      runsB s h7 (.arrive h7 7 3) = true ∧ s.clusterOf (th s) = 2 ∧ phases (th s).cnt.cbar 3 = n ∧ s.phaseDone 2 3 (n - 1) = decide (n = 1)) ∧
    (∀ n ∈ [0, 1], let s := on { rig with wk := { rig.wk with clusters := [⟨2, 0, 0, 1, 1, [3], [(3, 1)]⟩] } } fun t => { t with regs := t.regs.setK 0 (some (.phase 2 3 n)) }
      runsB s h7 (.bwait h7 0) = true ∧ (th s).regs.getK 0 = some (.phase 2 3 n) ∧ s.phaseDone 2 3 n = decide (n = 0)) ∧
    (th rig).regs.getK 0 = none := by
  decide +kernel

/-! ## Witnesses: queues and stage graphs -/

/-- Every binding of stage 0: input queue 1, output queue 0. A place for a record, the spill area, a full queue, a record of the group and one of nobody,
a spilled record that moves in; spans of a record that fit and do not. -/
theorem witness_QueueInstructions_words :
    (let is := [Instr.qpush h7 1 (.v 4) .die, .qpush h7 1 (.v 125) .die, .qpush h7 0 (.v 4) .die, .qpush h7 2 (.v 4) .die, .qpop h7 (.v 4) 0 (.v 9) .die, .qpop h7 (.v 125) 0 (.v 9) .die, .qpop h7 (.v 4) 1 (.v 9) .die,
        .qtry h7 (.v 4) 0 (.v 9) .die, .qtry h7 (.v 125) 0 (.v 9) .die, .qtry h7 (.v 4) 7 (.v 9) .die, .qclose h7 1, .qclose h7 0, .qclose h7 7, .qqry h7 (.v 4) 0, .qqry h7 (.v 4) 1, .qqry h7 (.v 4) 2]
     (∀ i ∈ is, runsB rig h7 i = true) ∧ (∀ q ∈ [0, 1, 7], rig.binding (th rig) q = none) ∧
     ∀ x ∈ [([], []), ([recOf 0 false none], [recOf 0 false (some 4)]), ([recOf 0 false none, recOf 0 true none], [recOf 0 false (some 4), recOf 3 true none]), ([], [recOf 0 false none]), ([], [recOf 0 true (some 4)])],
      let s := inGang ⟨queue0 true, x.1, false⟩ ⟨queue0 true, x.2, false⟩ (mapped rig)
      let t := th s
      (∀ i ∈ is, runsB s h7 i = true) ∧ s.binding t 2 = none ∧ s.binding t 7 = none ∧ (s.stageOf t).isSome ∧ s.binding t 0 = some (1, 1) ∧ s.binding t 1 = some (1, 0) ∧ (s.queue 1 0).isSome ∧
        (s.queue 1 1).map Queue.recs = some x.2 ∧ quSize (queue0 true) / 4 = 4 ∧ (Opnd.v 4).spanOk 4 = true ∧ (Opnd.v 125).spanOk 4 = false ∧ inBudget t.place.budget (.v 4, 4) = true ∧
        s.pending t (spanRefs (.v 4, 4)) = false ∧ (useRW [(.v 4, 4)] []).readsBad t = false ∧ s.ms.accs = [] ∧ s.ms.mem.wf = true ∧ s.ms.vault.wf = true ∧ s.ms.vpoison = [] ∧ quBerths (queue0 true) = 1 ∧
        ((s.stageOf t).any fun y => y.1.launch == 1 && x.2.all fun r => s.ordered (recordAccess t s.nextId y.1 ⟨queue0 true, x.2, false⟩ r)) = true) := by
  decide +kernel

/-- A record on its way, whole and poisoned. -/
theorem witness_RecordsArrive : ∀ b ∈ [false, true],
    let a := { acc 7 true (.record (.v 4) (.g 9) [1, 2, 3, 4]) [⟨0, 0, 0, false, 0, none, false, none, none⟩] 0 with bad := b }
    (issued [a]).access 7 = some a ∧ (issued [a]).thread 5 = some (th rig) ∧ (th rig).exited = false := by
  decide +kernel

/-- A push to a closed queue, to one without a place, to a free berth, and to the spill area. -/
theorem witness_PushesTakeTheirStep :
    ∀ x ∈ [(true, false, [], some (false, 0)), (false, false, [recOf 0 false none], none), (false, true, [], some (false, 0)), (false, true, [recOf 0 false none, recOf 0 true none], some (true, 1))],
      let a := acc 7 false (.push 1 0 [1, 2, 3, 4]) [⟨0, 0, 0, false, 0, none, false, none, none⟩] 0
      let s := inGang ⟨queue0 x.2.1, x.2.2.1, x.1⟩ (noRecs false) (mapped (issued [a]))
      s.access 7 = some a ∧ (s.thread 5).isSome ∧ (th rig).exited = false ∧ s.ms.accs = [a] ∧ s.ordered a = true ∧ (s.gang 1).isSome ∧ (s.queue 1 0).map (fun q => (q.closed, q.place)) = some (x.1, x.2.2.2) ∧
        s.ms.mem.wf = true ∧ s.ms.vault.wf = true ∧ (s.translate (th rig).xl .write (quSbase (queue0 true) + 1 * quSize (queue0 true))).toOption = some (0x9000 + 16) := by
  decide +kernel

/-- A stage whose timer has passed and has not; one that is due at its one core; boundaries before and at the cadence. -/
theorem witness_StageGraphsRun :
    (∀ clk ∈ [63, 64],
      let s : State := { inGang (noRecs false) ⟨queue0 false, [recOf 0 false none], false⟩ rig with clock := BitVec.ofNat 64 clk }
      let g := gang (noRecs false) ⟨queue0 false, [recOf 0 false none], false⟩
      s.gang 1 = some g ∧ g.stages[0]? = some ⟨stage0, 5, some 1, none⟩ ∧ g.queues[1]? = some ⟨queue0 false, [recOf 0 false none], false⟩ ∧ stage0 / 2 ^ 80 % 16 = 1 ∧ stage0 / 2 ^ 112 % 2 ^ 16 = 1 ∧
        (s.launch 1).isSome ∧ (s.part 0).state = .running ∧ s.md.failed.getLsbD 0 = false ∧ s.stageDue g ⟨stage0, 5, some 1, none⟩ = true ∧
        (s.launch 1).map (fun l => (argMin (fun c => s.groupsAt g 0 (GCore.core c)) (s.launchCores l g 0 ⟨stage0, 5, some 1, none⟩), s.stageWidth l ⟨stage0, 5, some 1, none⟩, l.killed, l.id)) =
          some (some ⟨0, 0, none, none⟩, 1, none, 1) ∧
        (∀ x ∈ s.wk.groups, x.id < s.nextId) ∧ (∀ x ∈ s.wk.teams, x.id < s.nextId) ∧ (∀ x ∈ s.wk.threads, x.id < s.nextId) ∧ (g.cores.map GCore.core).Nodup) ∧
    (∀ clk ∈ [8191, 8192],
      let s : State := { inGang (noRecs false) (noRecs false) rig with clock := BitVec.ofNat 64 clk }
      (s.launch 1).map (fun l => decide (s.clock.toNat < 0 + l.blk.cadence)) = some (decide (clk = 8191))) := by
  decide +kernel

/-! ## Witnesses: traps and the quay cores -/

def withLaunch (s : State) (bits : Nat) : State := { s with wk := { s.wk with launches := s.wk.launches.map fun l => { l with blk := ⟨bits⟩ } } }
/-- A launch with a handler at 0x8000, and with HMP. -/
def handler : Nat := 0x8000 * 2 ^ 208
theorem witness_TrapsAreTaken :
    (runsB rig h7 (.trap h7 0xFFFFFFFF) = true ∧ rig.thread 5 = some (th rig) ∧ (th rig).place.core.core < 64 ∧ rig.launchOf (th rig) = some (rig.wk.launches.headD ⟨0, 0, 0, ⟨0⟩, 0, 0, 0, 0, none, .ended, none, none⟩) ∧
      (rig.launchOf (th rig)).map (fun l => l.blk.handler) = some 0) ∧
    (∀ bits ∈ [handler, handler + 2 ^ 194],
      let s := withLaunch rig bits
      (s.launchOf (th s)).map (fun l => (l.blk.handler, l.blk.hmp)) = some (0x8000, decide (bits ≠ handler)) ∧ (th s).kl = none ∧ (s.thread 5).isSome) ∧
    (rigQ.thread 5 = some (th rigQ) ∧ 64 ≤ (th rigQ).place.core.core ∧ (th rigQ).place.part < rigQ.wk.parts.length ∧ rigQ.wk.threads.length = 1) := by
  decide +kernel

/-- A record of a row's core, what it concerns, and a quay core that holds it. -/
def rcd (kind : Nat) (p : Party) : Rec := ⟨12, ⟨0, 64⟩, 0x60, 0, kind, false, 0, ⟨0, 0⟩, 3, 0x1008, 0x5000, 9, p, 1⟩
def handle (kind : Nat) : Nat := (rcd kind .nobody).bits 7 % 2 ^ 64
def meshThread : Thread := { th rig with id := 8, stop := some ⟨12, ⟨0x1000, 0x1008, true⟩, ⟨0x1000, 0x1010, false⟩⟩, mode := .held }
/-- The quay core's thread beside the mesh thread 8, a deferred load and a copy of it, and an assist of its context; it looks at a record. -/
def handling (h : Nat) (r : Rec) : State :=
  let s := pair rigQ 6 h
  { s with
    nextId := 20
    ms := { s.ms with accs := [{ acc 9 false (.load (.v 3) .b32 true) [{ part 0 4 0x5000 false with stalled := true }] 4 with tid := 8 }] }
    en := { s.en with
      ctxs := [{ Ctx.fresh 6 ⟨0, 0⟩ 0 with mxq := [mxe (.run 0 0 false)], mxrun := { MxRun.idle with stopped := true } }]
      copies := [{ lift .cpy (some 10) (some outBlk) 64 0 with id := 10, tid := 8, stalled := true }] }
    wk := { s.wk with threads := s.wk.threads.map (fun t => { t with place := { t.place with team := 13 } }) ++ [meshThread], teams := s.wk.teams ++ [Team.single 13 0 2 0 ⟨0, 64⟩ 6 128], quays := [{ Quay.fresh ⟨0, 64⟩ 0 5 with seq := 8, fq := [⟨r, 7, true⟩] }] } }

def tretForms : List Instr :=
  [.tretResume h7 (.quay (.v 4) (.v 6)), .tretSkip h7 (.quay (.v 4) (.v 6)), .tretRetry h7 (.v 4) (.v 6), .tretFail h7 (.v 4) (.v 6), .tretKill h7 (.v 4) (.v 6), .tretAssist h7 (.v 4) (.v 6) (.v 8) (.v 9)]

/-- Outside a handler and inside one; a handle that names no record; every kind of record with each party. -/
theorem witness_TrapReturns :
    (∀ k ∈ [true, false], runsB rig h7 (.tretResume h7 (.kernelLocal k)) = true ∧ runsB rig h7 (.tretSkip h7 (.kernelLocal k)) = true) ∧ (th rig).kl = none ∧
    (let s := on rig fun t => { t with kl := some ⟨⟨0x1000, 0x1008, true⟩, ⟨0x1000, 0x1010, false⟩, [1, 2, 3, 4, 5, 6, 7, 8], 1, 2⟩ }
     (∀ k ∈ [true, false], runsB s h7 (.tretResume h7 (.kernelLocal k)) = true ∧ runsB s h7 (.tretSkip h7 (.kernelLocal k)) = true) ∧ ((th s).kl.map fun k => k.v.length) = some 8) ∧
    (∀ x ∈ [(0, Party.thread 8), (1, .access 9 0), (2, .agent 10), (3, .assist 6), (4, .nobody)],
      let r := rcd x.1 x.2
      let s := handling (handle x.1) r
      let held := fun (h : Nat) => (s.quay ⟨0, 64⟩).any fun q => (q.fq.find? fun y => y.rcd.bits y.seq.toNat % 2 ^ 64 == h).any fun y => y.rcd == r
      (∀ i ∈ tretForms, runsB s h7 i = true) ∧ (s.rd2 (th s) (.v 6)).toNat = handle x.1 ∧ held (handle x.1) = true ∧ held 5 = false ∧
        (s.thread 8).map (fun t => (t.stop.map Stop.rid, t.exited)) = some (some 12, false) ∧ (s.access 9).map (fun a => (a.tid, a.parts.length)) = some (8, 1) ∧ (s.copy 10).any (fun c => c.adm.isSome) = true ∧
        (s.ctx 6).map (fun c => c.mxrun.stopped) = some true ∧ (s.launch 1).isSome ∧ (∀ z ∈ s.wk.threads, z.id = 5 → s.ofLaunch 1 z = false)) ∧
    (let s := handling 5 (rcd 0 .nobody)
     ∀ i ∈ tretForms, runsB s h7 i = true) := by
  decide +kernel

/-- Every privileged instruction, and a thread in user mode; what it executes needs no more than its budget. -/
theorem witness_PrivilegeIsChecked :
    (th rig).place.priv = false ∧ rig.front.length = 1 ∧ (th rig).out.hits = [] ∧
    ∀ i ∈ [Instr.cinvIcache ⟨0, true, false, false⟩ (.v 4) 0, .cinvDiscard h7 (.v 4) 0, .swr h7 .wroot (.v 4), .srdp h7 (.v 127) .partid, .tlbiVa h7 (.v 4) (.v 6), .tlbiAsid h7 (.v 4), .tlbiAll h7, .split h7 (.v 3) (.v 4) (.v 6) true,
      .attest h7 (.v 3) (.v 4) (.v 6), .ologrNext h7 (.v 8), .ologrOpnd h7 (.v 8) (.v 4)], privileged i = true ∧ (useOf i).fits (th rig).place.budget = true := by
  decide +kernel

/-- Roots and ASIDs inside and outside the partition's windows, and malformed ones. -/
theorem witness_PrivilegedRegisters :
    (∀ x ∈ [(0x1000, true), (2 ^ 52 - 4096, false), (0x1001, true), (2 ^ 52, false), (2 ^ 30 - 4096, true), (2 ^ 30, false)],
      let s := pair (mapped rigQ) 6 x.1
      (s.quay ⟨0, 64⟩).isSome ∧ (th s).place.core = ⟨0, 64⟩ ∧ (th s).place.part < s.wk.parts.length ∧ (th s).place.priv = true ∧ (s.rd2 (th s) (.v 6)).toNat = x.1 ∧ (s.part 0).inHbmw x.1 = x.2 ∧
        runsB s h7 (.swr h7 .wroot (.v 6)) = true ∧ runsB s h7 (.swr h7 (.asroot 7) (.v 6)) = true ∧ runsB s h7 (.swr h7 .plimit (.v 6)) = true) ∧
    (∀ y ∈ [0, 1, 2 ^ 16 - 1, 2 ^ 16], let s := one rigQ 6 y
      (s.rd (th s) (.v 6)).toNat = y ∧ (s.part 0).cfg.asidw = 0 ∧ runsB s h7 (.swr h7 .wasid (.v 6)) = true ∧ runsB s h7 (.swr h7 (.asasid 7) (.v 6)) = true ∧ runsB s h7 (.swr h7 .btgrant (.v 6)) = true) ∧
    (∀ r ∈ [PrivReg.partid, .prows, .asidw, .plimit, .wroot, .wasid, .btgrant, .asroot 7, .asasid 0], runsB rigQ h7 (.srdp h7 (.v 4) r) = true) := by
  decide +kernel

def quayFull (n : Nat) : Quay := { Quay.fresh ⟨0, 64⟩ 0 5 with fq := List.replicate n ⟨rcd 0 (.thread 8), 7, true⟩ }
/-- A record for a queue with its last place free, and for a full one; a thread that waits for it, and one that does not; OLOGR.NEXT with a record and
without; a handle of an access, of a thread, and of nothing. -/
theorem witness_FaultQueues :
    (∀ n ∈ [1023, 1024], ∀ w ∈ [Wait.none, .record (.v 4)],
      let s0 := on rigQ fun t => { t with wait := w }
      let s : State := { s0 with wk := { s0.wk with recs := [{ rcd 0 (.thread 8) with id := 15 }], quays := [quayFull n] } }
      s.wk.recs[0]?.isSome ∧ (s.quay ⟨0, 64⟩).map (fun q => q.fq.length) = some n ∧ s.md.failed = 0 ∧ (s.thread 5).map Thread.wait = some w ∧ (∀ x ∈ (quayFull n).fq, x.returned = true ∧ x.rcd.id ≠ 15) ∧
        (s.part 0).state = .running) ∧
    (∀ x ∈ [(Party.thread 8, true), (.access 9 0, false), (.nobody, true)],
      let s0 := handling (handle 1) (rcd 1 x.1)
      let s : State := { s0 with wk := { s0.wk with quays := s0.wk.quays.map fun q => { q with fq := q.fq.map fun y => { y with returned := x.2 } } } }
      runsB s h7 (.ologrNext h7 (.v 16)) = true ∧ runsB s h7 (.ologrOpnd h7 (.v 16) (.v 6)) = true ∧ (s.part 0).state ≠ .halting ∧ ((s.quay ⟨0, 64⟩).map fun q => (q.fq.find? fun y => !y.returned).isSome) = some (!x.2) ∧
        (s.rd2 (th s) (.v 6)).toNat = handle 1 ∧ (s.access 9).map (fun a => a.parts.map APart.ea) = some [0x5000]) := by
  decide +kernel

/-- A TLBI of an ASID inside ASIDW and outside; one whose release may perform, and one with nothing to await; SPLIT of an address without a leaf, and of a
leaf of 2 MiB. -/
theorem witness_TlbInstructions :
    (∀ y ∈ [0, 1], let s := one rigQ 8 y
      (th s).place.priv = true ∧ (s.part 0).cfg.asidw = 0 ∧ (s.rd (th s) (.v 8)).toNat % 2 ^ 16 = y ∧ runsB s h7 (.tlbiVa h7 (.v 6) (.v 8)) = true ∧ runsB s h7 (.tlbiAsid h7 (.v 8)) = true ∧ runsB s h7 (.tlbiAll h7) = true) ∧
    (∀ b ∈ [true, false],
      let i : Tlbi := ⟨7, 5, 0, some 0x1000, some 0, 7, [], b, [], []⟩
      let s := on rigQ fun t => { t with wait := .tlbi 7 .z }
      let s : State := { s with nextId := 20, ms := { s.ms with tlbis := [i] } }
      (s.ms.tlbis.find? fun x => x.id == 7) = some i ∧ s.releasedBy 5 7 [] = true ∧ s.visible [] s.systemPoints = true ∧ (s.thread 5).map Thread.wait = some (.tlbi 7 .z)) ∧
    (let s := pair (pair (mapped rigQ) 6 0x40000000000) 8 0xA000
     runsB s h7 (.split h7 (.v 4) (.v 6) (.v 8) true) = true ∧ s.splitLeaf (th s) 0 0x40000000000 = none) ∧
    (∀ tb ∈ [0xA000, 0xA008],
      let s := pair (pair (holding (mapped rigQ) (cells 0x1000 8 0x2001 ++ cells 0x2000 8 0x3001 ++ cells 0x3000 8 (0x200000 + 0x73))) 6 0x1000) 8 tb
      let s : State := { s with wk := { s.wk with quays := s.wk.quays.map fun q => { q with wroot := 0x1000 } } }
      runsB s h7 (.split h7 (.v 4) (.v 6) (.v 8) true) = true ∧ (s.splitLeaf (th s) 0x1000 0x1000).isSome ∧ (s.splitLeaf (th s) 0x1000 0x1000).all (fun l => l.lvl != 1 && decide (l.ea + 8 ≤ tb) && decide ((s.readLast l.ea 8).val = l.e)) = true ∧
        (s.rd2 (th s) (.v 8)).toNat = tb ∧ (s.part 0).inHbmw tb = true ∧ s.ms.mem.wf = true ∧ s.ms.vault.wf = true) := by
  decide +kernel

/-! ## Witnesses: launches -/

/-- A grid of one team of one thread, drained in 10 microseconds; the same with a reserved bit. -/
def gridBlk : Nat := 0x2000 + 2 ^ 64 + 2 ^ 80 + 2 ^ 96 + 2 ^ 158
def chanWith (n blk : Nat) (s : State) : State :=
  { s with wk := { s.wk with parts := s.wk.parts.modify 0 fun p => { p with chans := p.chans.modify 7 fun c => { c with queue := List.range n, blk := blk } } } }
def stateOf (p : PState) (s : State) : State := { s with wk := { s.wk with parts := s.wk.parts.modify 0 fun x => { x with state := p } } }

/-- A block that is misaligned or out of the address space; one that reads well, with a channel that is full, of a stopped partition, and that takes it
or rejects it; ATTEST aligned and misaligned, with its report's pages. -/
theorem witness_LaunchAndAttest :
    (∀ x ∈ [(0x1000, true), (0x1020, true), (2 ^ 47, false)],
      let s := pair (mapped rigQ) 6 x.1
      runsB s h7 (.launch h7 (.v 4) (.v 6) 7) = true ∧ (s.rd2 (th s) (.v 6)).toNat = x.1 ∧ (x.2 = true ∧ (x.1 / 2 ^ 47 = 0 ∨ x.1 / 2 ^ 47 = 2 ^ 17 - 1) ∨ x.2 = false ∧ ¬ (x.1 / 2 ^ 47 = 0 ∨ x.1 / 2 ^ 47 = 2 ^ 17 - 1))) ∧
    (let s := mapped rigQ
     (s.translate (th s).xl .read 0x1000).toOption = some 0x1000 ∧ (s.translate (th s).xl .read 0x1040).toOption = some 0x1040) ∧
    (∀ x ∈ [(64, PState.running, gridBlk), (63, .stopped, gridBlk), (63, .running, gridBlk), (63, .running, gridBlk + 2 ^ 511)],
      let s := stateOf x.2.1 (chanWith x.1 0 (holding (mapped (on rigQ fun t => { t with mode := .held, wait := .launch 12 12 (.v 4) 7 0x1000 })) (cells 0x1000 128 x.2.2)))
      let s : State := { s with nextId := 20 }
      (s.thread 5).map Thread.wait = some (.launch 12 12 (.v 4) 7 0x1000) ∧ s.wk.threads.length = 1 ∧ s.releasedBy 5 20 [] = true ∧
        (s.agentRead (th s).xl (th s).who .system 0x1000 128).toOption.map (fun r => (ofBytes r.bytes, r.poison)) = some (x.2.2, false) ∧ s.tablesHeld 0 7 ⟨x.2.2⟩ = false ∧ (th s).exited = false ∧ (s.chan 0 7).queue.length = x.1 ∧ (s.part 0).state = x.2.1 ∧
        s.verdict 0 7 ⟨x.2.2⟩ = (if x.2.2 = gridBlk then .accept [] [] else .reject 1 none)) ∧
    (∀ x ∈ [0x1020, 0x1010],
      let s := pair (pair (mapped rigQ) 6 x) 8 0x2040
      runsB s h7 (.attest h7 (.v 4) (.v 6) (.v 8)) = true ∧ (th s).place.priv = true ∧ (s.rd2 (th s) (.v 6)).toNat = x ∧ s.rangeFault (th s) .read x 32 = none ∧ s.rangeFault (th s) .write 0x2040 2560 = none) ∧
    (let s : State := { mapped (on rigQ fun t => { t with mode := .held, wait := .attest (.v 4) 0x1020 0x2040 }) with md := { rigQ.md with signing := [5] } }
     (s.thread 5).map Thread.wait = some (.attest (.v 4) 0x1020 0x2040) ∧ (s.translate (th s).xl .read 0x1020).toOption = some 0x1020 ∧ s.lost 0x1020 = 0 ∧ (s.agentRead (th s).xl (th s).who .system 0x1020 32).toOption.map ReadRes.poison = some false ∧ s.bufferErr (th s) 0x2040 2560 = none ∧
       ((List.range 2560).all fun k => (s.translate (th s).xl .write (0x2040 + k)).toOption == some (0x2040 + k)) = true ∧ s.ms.mem.wf = true ∧ s.ms.vault.wf = true) := by
  decide +kernel

/-! ## Witnesses: scheduling, placement, contexts -/

/-- A state whose thread stands at a header (0x1000) in a mode, with nothing in its issue set, two words of code there. -/
def starting (m : Mode) (f : Outst → Outst) (hdr : Nat) : State :=
  let s := on (mapped rig) fun t => { t with mode := m, pos := if m = .header then ⟨0x1000, 0x1000, false⟩ else ⟨0x1000, 0x1008, true⟩, out := f t.out }
  { holding s (cells 0x1000 8 hdr ++ cells 0x1008 8 0x01E0020203000000) with wk := { s.wk with sets := [] } }
/-- A header of class 0 with one word and no waits. -/
def hdr0 : Nat := 0x00FFFF0000000000
def codeB (s : State) (t : Thread) : Bool := match (s.fetchClause t).1 with
  | .clause h ws => h.cls == 0 && ws == [0x01E0020203000000]
  | _ => false
def trapB (s : State) (t : Thread) : Bool := match (s.fetchClause t).1 with
  | .trap f _ => f.cause == 0x01
  | _ => false
/-- The state in which a quadrant's next clause is fetched. -/
def led (s : State) : State := (s.settleSet q0).noteLead q0
def startB (s : State) (cont : Bool) : Bool := ((s.settleSet q0).startable q0 [5] cont).any fun l => l.map Thread.id == [5]
/-- A pending group 14 beside the active group 4, with a ready thread of its own. -/
def twoGroups (act : Bool) (yld : List Nat) (m : Mode) : State :=
  let s := starting m id hdr0
  { s with
    clock := 2048
    wk := { s.wk with
      threads := s.wk.threads ++ (s.wk.threads.map fun t => { t with id := 15, place := { t.place with grp := 14, lane := 1 } })
      groups := s.wk.groups.map (fun g => { g with active := true, slot := 0 }) ++ [{ Group.fresh 14 3 ⟨0, 0⟩ 0 64 with active := act, slot := 1, yld := yld, rdyAt := some (0, 0) }] } }

theorem witness_SchedulerStartsClauses :
    (let s := starting .header id hdr0
     startB s false = true ∧ codeB (led s) (th (s.putSet q0 (s.wk.threads))) = true ∧ s.wk.threads.all (fun u => u.out.hits.isEmpty && u.out.causes.isEmpty) = true) ∧
    (let s := starting .header id (2 ^ 63)
     startB s false = true ∧ s.wk.threads.all (trapB (led s)) = true) ∧
    (let s := starting .header (fun o => { o with causes := [⟨0x20, 1, 0x5000, 3, false, none⟩] }) hdr0
     startB s false = true ∧ s.wk.threads.all (fun t => codeB (led s) t && t.out.hits.isEmpty && t.out.causes.length == 1) = true) ∧
    (∀ r ∈ [true, false],
      let s := starting (.cont r) id hdr0
      ((s.settleSet q0).startable q0 [5] true).any (fun l => l.map Thread.mode == [.cont r]) = true ∧
        s.wk.threads.all (fun t => codeB ((led s).onThread 5 fun _ => t.pass) t.pass) = true) ∧
    (let s := twoGroups false [] .header
     (s.group 14).map (fun g => (g.active, g.rdyAt)) = some (false, some (0, 0)) ∧ 0 + 2048 ≤ s.clock.toNat ∧ ((s.deactivate 4).freeSlot q0).isSome ∧ s.groupReady 14 = true ∧
       (argMin Group.entered ((s.groupsOn q0).filter fun z => z.active && (s.live z.id).all fun u => u.mode == .header || u.mode == .cont false)).map Group.id = some 4) := by
  decide +kernel

/-- The group in slot 1 leads after the one in slot 0, unless it has yielded to it; a held thread starts alone. -/
theorem witness_SchedulersTakeTurns :
    (∀ x ∈ [([], 1), ([4], 0)],
      let s0 := twoGroups true x.1 .header
      let s : State := { s0 with wk := { s0.wk with leads := [(q0, 0)] } }
      (s.leading q0).map (fun g => (g.slot, s.group g.id == some g)) = some (x.2, true) ∧ (s.wk.leads.find? fun y => y.1 == q0) = some (q0, 0) ∧ (∀ y ∈ s.wk.groups, y.slot < 8) ∧
        (longest ((s.live 4).filter s.ready)).map (fun t => (t.id, t.mode, t.on q0)) = some (5, .header, true) ∧ (s.wk.threads.map Thread.id).Nodup) ∧
    (let s := starting .held id hdr0
     (s.leading q0).map Group.id = some 4 ∧ (longest ((s.live 4).filter s.ready)).map Thread.mode = some .held) := by
  decide +kernel

/-- The rig with launch 1 still to be placed, no team and no thread. -/
def unplaced (bits : Nat) : State :=
  { mapped rig with wk := { (mapped rig).wk with
      threads := [], groups := [], teams := [], clusters := [], sets := [], launches := rig.wk.launches.map fun l => { l with blk := ⟨bits⟩, phase := .queued, next := 0 }
      parts := (mapped rig).wk.parts.modify 0 fun p => { p with chans := p.chans.modify 0 fun c => { c with queue := [1] } } } }
/-- A gang of one core: NCORE 1, NST 1, NQ 0. -/
def gangBlk : Nat := 2 ^ 192 + 2 ^ 147 + 2 ^ 158 + 0x2000 * 2 ^ 464
def sourceStage : Nat := 0x2000 + 2 ^ 64 + 2 ^ 72 + (2 ^ 16 - 1) * 2 ^ 80 + 2 ^ 96 + 2 ^ 128 + 2 ^ 144
def planB : Plan → Bool
  | .place _ _ _ => true
  | _ => false

theorem witness_LaunchesAreServed :
    (∀ x ∈ [(64, PState.running, gridBlk), (63, .halting, gridBlk), (63, .running, gridBlk), (63, .running, 0)],
      let s := stateOf x.2.1 (chanWith x.1 x.2.2 rig)
      s.unbooted = false ∧ s.linkBusy 0 = false ∧ s.tablesHeld 0 7 ⟨(s.chan 0 7).blk⟩ = false ∧ s.hostReleased = true ∧ 0 < s.wk.parts.length ∧ 7 < (s.part 0).chans.length ∧ (s.chan 0 7).queue.length = x.1 ∧ (s.part 0).state = x.2.1 ∧
        s.verdict 0 7 ⟨(s.chan 0 7).blk⟩ = (if x.2.2 = gridBlk then .accept [] [] else .reject 2 none)) ∧
    (let s := unplaced gridBlk
     (s.launch 1).any (fun l => !l.blk.isGang && s.served l && planB (s.plan l)) = true ∧ (∀ x ∈ s.wk.teams, x.id < s.nextId) ∧ (∀ x ∈ s.wk.threads, x.id < s.nextId)) ∧
    (let s0 := unplaced gangBlk
     let s : State := { s0 with wk := { s0.wk with gangs := [Gang.waiting 1 [sourceStage] []] } }
     (s.gang 1).isSome ∧ (s.launch 1).any (fun l => l.blk.isGang && s.served l && planB (s.gangPlan l)) = true) := by
  decide +kernel

/-- A team whose thread has exited, with divergence; a launch of which nothing is left, that a KILL ended or not, with DONE and without. -/
theorem witness_TeamsAndGridsEnd :
    (let s0 := on rig fun t => { t with exited := true }
     let s : State := { s0 with wk := { s0.wk with teams := s0.wk.teams.map fun x => { x with a := 3, l := 4 }, parts := s0.wk.parts.modify 0 fun p => { p with hist := [⟨s0.histPc (Team.single 3 1 2 0 ⟨0, 0⟩ 6 128), 255⟩] } } }
     (s.team 3).any (fun x => !x.ended && decide (x.core.core < 64) && decide (x.part < s.wk.parts.length) && (s.part 0).hist.any fun e => e.pc == s.histPc x) = true ∧
       (∀ t ∈ s.wk.threads, t.place.team = 3 → t.exited = true ∧ s.boundFor t.id = false)) ∧
    (∀ x ∈ [(0, none), (0x5000 * 2 ^ 256, none), (0x5000 * 2 ^ 256, some 5)],
      let s0 := unplaced (gridBlk + x.1)
      let s : State := { s0 with wk := { s0.wk with launches := s0.wk.launches.map fun l => { l with phase := .placed, next := 1, killed := x.2 } } }
      (s.launch 1).any (fun l => s.allEnded l && s.stilled l && !s.doneHeld l && decide (l.part < s.wk.parts.length) && decide (l.ch < (s.part l.part).chans.length) && l.blk.done == x.1 / 2 ^ 256) = true ∧ s.ms.mem.wf = true ∧ s.ms.vault.wf = true ∧
        (mapped rig).lost 0x5000 = 0 ∧ (mapped rig).linkCut 0x5000 = false ∧
        ((({ s with ms := { s.ms with l1tlb := s.ms.l1tlb.map fun e => (⟨0, 128⟩, e.2) } } : State).translate ⟨0, 0, 0, true, ⟨0, 128⟩⟩ .write 0x5000).toOption) = some 0x5000) := by
  decide +kernel

/-- A drain at its deadline and before it; a context in bank 1 that may return to its core, where another runs. -/
theorem witness_ContextsSwitch :
    (∀ n ∈ [0, 1],
      let s : State := { rig with wk := { rig.wk with launches := rig.wk.launches.map fun l => { l with drain := some ⟨[(⟨0, 0⟩, n)]⟩ } } }
      (s.launch 1).any (fun l => l.drain == some ⟨[(⟨0, 0⟩, n)]⟩) = true ∧ (n ≤ s.clock.toNat ↔ n = 0) ∧ (s.wk.teams.filter fun t => t.launch == 1 && !t.ended && !t.saved && [(⟨0, 0⟩ : CoreId)].contains t.core) ≠ []) ∧
    (let s : State := { rig with
       en := { rig.en with ctxs := rig.en.ctxs ++ [{ Ctx.fresh 16 ⟨0, 0⟩ 0 with place := .bank 1 }] }
       wk := { rig.wk with teams := rig.wk.teams ++ [Team.single 13 1 2 0 ⟨0, 0⟩ 16 128] } }
     (s.ctx 16).any (fun y => s.gangAway y == none && y.place == .bank 1) = true ∧ (s.runCtx 0 ⟨0, 0⟩).map Ctx.id = some 6 ∧ s.partOf ⟨0, 0⟩ = some 0 ∧ (∃ t ∈ s.wk.teams, t.ctx = 6 ∧ t.ended = false) ∧
       (∃ t ∈ s.wk.teams, t.ctx = 16 ∧ t.ended = false) ∧ s.mayReturn 0 (s.ctxRank 16) ⟨0, 0⟩ = true ∧ ∀ z ∈ s.en.ctxs, s.ctx z.id = some z) := by
  decide +kernel

/-! ## Witnesses: partitions, the host, reset -/

/-- Partition 0 stopped with a configuration that RUN takes: row 0 of die 0, the second gigabyte. -/
def runnable (st : PState) (i : Option Image) (rows : Dword) : State :=
  { State.reset with md := { State.reset.md with bootst := 2 }, wk := { State.reset.wk with parts := State.reset.wk.parts.modify 0 fun p => { p with
      state := st, image := i, hroot := 0x40000000
      cfg := { p.cfg with rows := rows, ways := 1, hbmw := p.cfg.hbmw.set 0 (512 + 1024 * 2 ^ 32) } } } }
def tried (s : State) : State := s.onPart 0 fun y => { y with run := true }

/-- What refuses a RUN names the firmware's windows, which no one knows: where they meet no window of the partition. -/
theorem witness_PartitionsRunAndHalt (hf : firmwareMeets = fun _ => false) :
    (∀ x ∈ [(PState.stopped, (1 : Dword), false), (.stopped, 0, true), (.running, 1, false), (.halting, 1, false)],
      let s := runnable x.1 none x.2.1
      s.unbooted = false ∧ s.linkBusy 0 = false ∧ 0 < s.wk.parts.length ∧ (s.part 0).state = x.1 ∧ (tried s).runRefused 0 = x.2.2 ∧ (s.part 0).image = none ∧ s.wk.threads = [] ∧ s.wk.quays = [] ∧ s.isHalted 0 = true) ∧
    (let s0 := runnable .stopped none 1
     let s := runnable .stopped (some (s0.takeImage 0)) 1
     (s.part 0).image.isSome = true ∧ (tried s).runRefused 0 = false) ∧
    (let s := stateOf .halting rigQ
     (s.part 0).state = .halting ∧ s.isHalted 0 = false) := by
  unfold State.runRefused
  rw [hf]
  decide +kernel

/-- The clauses of that statement that ask nothing of the firmware. -/
theorem witness_PartitionsRunAndHalt_refused :
    (let s := runnable .stopped none 0
     (s.part 0).state = .stopped ∧ (tried s).runRefused 0 = true) ∧
    (∀ x ∈ [PState.running, .halting], let s := runnable x none 1
      s.unbooted = false ∧ s.linkBusy 0 = false ∧ 0 < s.wk.parts.length ∧ (s.part 0).state = x) ∧ (runnable .halting none 1).isHalted 0 = true := by
  decide +kernel

/-- Partitions stopped and running; limits of power at 99, 100 and at the limit; an offset of no register. -/
theorem witness_ConfigurationWrites :
    (∀ x ∈ [PState.stopped, .running], let s := runnable x none 1
      s.unbooted = false ∧ s.linkBusy 0 = false ∧ 0 < s.wk.parts.length ∧ (s.part 0).state = x ∧ ∀ ch, ch < 8 → ((s.part 0).chans[ch]?).isSome = true) ∧
    State.reset.md.plimit = 1800 ∧ (2 : Dword).getLsbD 1 = true ∧ (1 : Dword).getLsbD 1 = false ∧ (1 : Dword).getLsbD 0 = true ∧ 0x10004 % 8 ≠ 0 := by
  decide +kernel

theorem witness_ResetLeaves : rig.ms.mem.wf = true ∧ rig.ms.vault.wf = true := by decide +kernel

/-- Module state with a peer, device 5; which port leads to it is not known, and no port stands in the way. -/
def peered : State := { mapped rig with md := { rig.md with peers := 0b100000, links := [] } }
/-- Accesses of the host to its memory and to HBM, and of a peer, at the last bytes of a range; one that reaches nothing; firmware's write of memory
of a partition that runs, outside FWGRANT and inside. -/
theorem witness_OutsideAccesses :
    (∀ x ∈ [(64, 2 ^ 51, 4, true), (64, 2 ^ 52 - 8, 8, true), (64, 0x5000, 8, true), (5, 0x5000, 4, true), (4, 0x5000, 4, false), (64, 2 ^ 52 - 4, 8, false), (64, 2 ^ 50, 4, false)],
      peered.reaches x.1 x.2.1 x.2.2.1 = x.2.2.2) ∧ peered.ms.mem.wf = true ∧ peered.ms.vault.wf = true ∧ aopOf 0 = some .add ∧ (peered.readLast 0x5000 8).poison = false ∧
    (let s : State := { peered with ms := { peered.ms with poison0 := [0x5007] } }
     (s.readLast 0x5000 8).poison = true ∧ s.reaches 5 0x5000 8 = true) ∧
    (∀ g ∈ [0, 2 ^ 32],
      let s : State := { peered with wk := { peered.wk with parts := peered.wk.parts.modify 0 fun p => { p with cfg := { p.cfg with fwgrant := BitVec.ofNat 64 g } } } }
      s.unbooted = false ∧ (s.part 0).state ≠ .stopped ∧ (∀ i ∈ [0, 1], s.inHbm (0x5000 + i) = true ∧ s.lost (0x5000 + i) = 0) ∧ (s.part 0).inHbmw 0x5001 = true ∧ inWindow (s.part 0).cfg.fwgrant 0x5001 = decide (g ≠ 0)) := by
  decide +kernel

/-! ## Witnesses: coherence -/

def c0 : CoreId := ⟨0, 0⟩
def c1 : CoreId := ⟨0, 1⟩
/-- The write of the rig's thread to block 0x40 of die 0. -/
def wr3 : WriteRec := ⟨3, [(0x1000, 1)], [(0x1000, 0)], 5, c0, 0, none, [], [.core c0], false, [], none⟩
/-- The machinery of coherence with a home slice, level-1 blocks, writes in the gather buffer, and messages. -/
def cohere (h : Option HomeBlk) (l1 : List L1Blk) (gather : List Gathered) (msgs : List Msg) : State :=
  { mapped rig with ms := { (mapped rig).ms with writes := [wr3] }, co := { rig.co with homes := h.toList, l1 := l1, gather := gather, msgs := msgs } }
/-- Block 0x40 at its home slice. -/
def homeOf (st : Moesi) (o : Option CoreId) (reqs : List HReq) (probes : List Probe) (r : Right) : HomeBlk := ⟨0, 0x40, st, 8, o, reqs, probes, r, 0⟩
def l1blk (seq : BitVec 16) (st : Moesi) (w : Bool) : L1Blk := ⟨c0, 0x40, seq, st, w, 1⟩

/-- A load without its block; a write that has not its block; a dirty block and a clean one; a promote message for what has left the buffer and for what
has not; a signature at its limit and beyond. -/
theorem witness_CoresSendRequests :
    (let s := cohere none [] [⟨c0, 3, false⟩] []
     let s : State := { s with ms := { s.ms with accs := [acc 7 false (.load (.v 3) .b32 true) [{ part 0 4 0x1000 false with pa := some 0x1000 }] 4] } }
     s.working c0 = true ∧ s.homed 0x40 = true ∧ s.asking c0 0x40 = false ∧ s.l1Of c0 0x40 = none ∧ s.wants c0 0x40 false = true ∧ s.gathered c0 0x40 true = [] ∧ s.gathered c0 0x40 false = [3] ∧
       (s.ms.writes.all fun w => w.inBlk 0x40) = true) ∧
    (∀ st ∈ [Moesi.m, .s],
      let s := cohere none [l1blk 8 st false] [] []
      (s.l1Of c0 0x40).map (fun b => (b == l1blk 8 st false, b.dirty)) = some (true, st == .m) ∧ s.co.msgs = [] ∧ s.asking c0 0x40 = false) ∧
    (∀ g ∈ [[], [(⟨c0, 3, false⟩ : Gathered)]],
      let s := cohere none [] g [.promote 0x40 c0 4 7]
      s.first (.promote 0x40 c0 4 7) = true ∧ (g = [] ∨ (s.ms.writes.filter fun x => x.id == wr3.id) = [wr3] ∧ wr3.id < 4 ∧ wr3.blks = [0x40] ∧ s.asking c0 0x40 = false ∧ s.l1Of c0 0x40 = none)) ∧
    (∀ n ∈ [320, 321], let s0 := cohere none [] [] []
      let s : State := { s0 with co := { s0.co with sigs := [⟨c0, BitVec.ofNat 512 (2 ^ n - 1), 0⟩] } }
      ((List.range 512).filter fun k => (s.sigOf c0).sig.getLsbD k).length = n) := by
  decide +kernel

/-- Every state of the block and every right of the die, a read and a request for ownership of core 0; a write-back and a drop notice. -/
theorem witness_HomeSlicesServe :
    (∀ x ∈ [(Moesi.i, none), (.s, none), (.e, some c1), (.m, some c1), (.o, some c1)], ∀ r ∈ [Right.owned, .shared, .none], ∀ own ∈ [true, false], ∀ sh ∈ [[], [c1]],
      let m := if own then Msg.own 0 0x40 c0 5 else .read 0 0x40 c0 5
      let s0 := cohere (some (homeOf x.1 x.2 [] [] r)) [] [] [m]
      let s : State := { s0 with co := { s0.co with mirrors := sh.map fun c => ⟨c, sliceOf 0x40, setPair 0 0x40, []⟩ } }
      s.first m = true ∧ s.home 0 0x40 = homeOf x.1 x.2 [] [] r ∧ s.mirrored 0 0x40 = sh) ∧
    Right.none.lets (.read c0 5) = false ∧ Right.shared.lets (.own c0 5) = false ∧
    (∀ m ∈ [Msg.wback 0 0x40 c0, .drop 0 0x40 c0 8], ∀ o ∈ [c0, c1],
      let s0 := cohere (some (homeOf .e (some o) [] [] .owned)) [] [] [m]
      let s : State := { s0 with co := { s0.co with l2 := [⟨0, 0x20, 0, 0, 0⟩] } }
      s.first m = true ∧ (s.home 0 0x40).owner = some o ∧ (s.home 0 0x40).reqs = [] ∧ (s.home 0 0x40).probes = [] ∧ (s.l2Of 0 (0x40 / 2)).isSome) := by
  decide +kernel

/-- A grant with a gathered write; probes of a block held clean, dirty, and on its way back, of one whose grant is later and of one whose grant is on its
way; the only acknowledgement that a request waits for, one of two, one that is pending, and one of no probe. -/
theorem witness_CoherenceMessagesArrive :
    (∀ st ∈ [Moesi.e, .m, .s],
      let m := Msg.grant 0 0x40 c0 9 st (st != .s)
      let s := cohere none [] [⟨c0, 3, false⟩] [m]
      (s.co.msgs.filter Msg.grantLike)[0]? = some m ∧ s.first m = true ∧ (∃ w ∈ s.ms.writes, (⟨c0, w.id, false⟩ : Gathered) ∈ s.co.gather ∧ w.cells ≠ [] ∧ ∀ x ∈ w.cells, x.1 / 64 = 0x40)) ∧
    (∀ inv ∈ [true, false], ∀ x ∈ [((8 : BitVec 16), Moesi.m, [], false), (8, .e, [], false), (10, .e, [], false), (8, .m, [Msg.wback 0 0x40 c0], false), (8, .m, [.grant 0 0x40 c0 8 .m true], true)],
      let m := Msg.probe 0 0x40 c0 9 inv
      let s := cohere none [l1blk x.1 x.2.1 true] [] (m :: x.2.2.1)
      (s.co.msgs.filter Msg.control)[0]? = some m ∧ s.first m = true ∧ (s.l1Of c0 0x40).isSome ∧ s.granting 0 0x40 c0 9 = x.2.2.2 ∧ s.writingBack 0x40 c0 = decide (x.2.2.1 = [.wback 0 0x40 c0])) ∧
    (∀ k ∈ [AckKind.clean, .data, .pending], ∀ st ∈ [Moesi.m, .e], ∀ q ∈ [HReq.own c1 4, .read c1 4], ∀ ps ∈ [[], [(⟨c0, 9, false⟩ : Probe)], [⟨c0, 9, false⟩, ⟨c1, 9, false⟩]],
      let m := Msg.ack 0 0x40 c0 9 k
      let s := cohere (some (homeOf st (some c0) [q] ps .owned)) [] [] (m :: if k = .pending then [.wback 0 0x40 c0] else [])
      (s.co.msgs.filter Msg.ackLike)[0]? = some m ∧ s.first m = true ∧ (s.home 0 0x40).probes = ps ∧ (s.home 0 0x40).reqs = [q] ∧ (k = .pending → s.writingBack 0x40 c0 = true)) := by
  decide +kernel

/-- The directory's entry, and the slice of die 1, for block 0x40, whose home is die 0. -/
def direct (st : DirState) (peers : BitVec 8) (reqs : List (Nat × Bool)) (probes : List (Nat × BitVec 16 × Bool)) (h : List HomeBlk) (msgs : List Msg) : State :=
  { mapped rig with md := peered.md, co := { rig.co with homes := h, dirs := [⟨0x40, st, peers, 8, reqs, probes⟩], msgs := msgs } }
def ofDie1 (st : Moesi) (reqs : List HReq) (r : Right) : HomeBlk := ⟨1, 0x40, st, 0, none, reqs, [], r, 8⟩
/-- The home die's slice has given the block up. -/
def given : HomeBlk := homeOf .i none [] [] .none

/-- Requests of a die, the host and a peer, sent and not; granted at once, and with one party to recall; a recall to the host and to a slice; the last
answer; and grants that arrive at a slice, at the host and at a peer. -/
theorem witness_DirectoriesServe :
    (∀ x ∈ [(1, true, [ofDie1 .i [.own ⟨1, 3⟩ 1] .none], true), (1, false, [ofDie1 .i [.read ⟨1, 3⟩ 1] .none], true), (1, true, [], false), (4, true, [], true), (8 + 5, false, [], true), (8 + 5, true, [], false), (8 + 6, false, [], false)],
      let s := direct .uncached 0 [] [] x.2.2.1 []
      s.homed 0x40 = true ∧ s.mayAsk 0x40 x.1 x.2.1 = x.2.2.2 ∧ s.dirAsking 0x40 x.1 = false) ∧
    (∀ x ∈ [(1, true, DirState.uncached, []), (0, true, .owned 0, []), (1, false, .uncached, []), (8 + 5, false, .shared 2, []), (4, true, .shared 2, [1]), (4, false, .owned 1, [1])],
      let m := Msg.dreq 0x40 x.1 x.2.1
      let s := direct x.2.2.1 0 [] [] [given] [m]
      s.first m = true ∧ s.partyUp x.1 = true ∧ s.partyGone x.1 = false ∧ (s.dirRecalls 0x40 x.1 x.2.1).1 = x.2.2.2) ∧
    (∀ w ∈ [1, 4], let m := Msg.recall 0x40 w 9 true
      let s := direct (.shared 0b10010) 0 [] [] [ofDie1 .i [] .shared] [m]
      (s.co.msgs.filter Msg.control)[0]? = some m ∧ s.first m = true ∧ s.dirGranting 0x40 w 9 = false ∧ s.partyUp w = true ∧ older 9 (s.home 1 0x40).dseq = false ∧ s.dieWritingBack 0x40 1 = false ∧
        (s.home 1 0x40).st = .i ∧ (s.home 1 0x40).reqs = [] ∧ (s.home 1 0x40).probes = []) ∧
    (let m := Msg.dack 0x40 1 9 .clean
     let s := direct (.owned 1) 0 [(4, true)] [(1, 9, false)] [given] [m]
     (s.co.msgs.filter Msg.ackLike)[0]? = some m ∧ s.first m = true ∧ s.partyUp 1 = true ∧ s.partyGone 4 = false ∧ (s.dirOf 0x40).probes = [(1, 9, false)] ∧ (s.dirOf 0x40).reqs = [(4, true)]) ∧
    (∀ who ∈ [1, 4, 8 + 5], let m := Msg.dgrant 0x40 who 9 (who == 1)
      let s := direct (.owned 1) 0 [] [] [ofDie1 .i [] .none] [m]
      (s.co.msgs.filter Msg.grantLike)[0]? = some m ∧ s.first m = true ∧ s.partyUp who = true ∧ (s.home 1 0x40).reqs = []) := by
  decide +kernel

/-! ## Witnesses: errors, links, wear -/

theorem witness_ErrorsAreCountedAndLogged :
    (∀ n ∈ [14, 15],
      let s : State := { rig with md := { rig.md with corrected := List.replicate n (5 + 16 * (3 + 4 * 7), 0) } }
      s.unbooted = false ∧ ((s.md.corrected.filter fun e => e.1 == 5 + 16 * (3 + 4 * 7) && decide (s.clock.toNat < e.2 + 3600 * 1300000000)).length = n)) ∧
    rig.unbooted = false ∧ rig.ms.writes = [] ∧ (rig.ctx (6 * 2 ^ 13 / 2 ^ 13)).map Ctx.id = some 6 ∧ rig.inHbm 0x5000 = true ∧ rig.inMap (2 ^ 51) = true ∧ (3 * 2 ^ 30 + 2 ^ 22 - 4) / 2 ^ 22 % 4 = 0 ∧ rig.md.dies.getLsbD 3 = true ∧ rig.md.failed.getLsbD 3 = false ∧
    rig.thread 5 = some (th rig) ∧ 127 < (th rig).place.budget ∧ 127 ∉ (th rig).out.bad := by
  decide +kernel

/-- Links that are up and that train, with three and four retrains started within a second, one bad retrain and two; a read and a store of host memory
beyond a link that is down. -/
theorem witness_LinksFail :
    (∀ x ∈ [(none, 3, 1), (none, 4, 2), (some 5, 0, 1)],
      let l : HLink := ⟨12, 7, x.1, x.2.2, List.replicate x.2.1 0, false⟩
      let s : State := { rig with md := { rig.md with links := HLink.reset 0 :: [l] } }
      s.link 12 = some l ∧ s.unbooted = false ∧ (l.starts.filter fun t => decide (s.clock.toNat < t + 1300000000)).length = x.2.1) ∧
    (∀ k ∈ [AKind.load (.v 3) .b32 true, .store [1, 2, 3, 4]],
      let a := acc 7 false k [{ part 0 4 0x5000 false with pa := some (2 ^ 51) }] 4
      let s0 := issued [a]
      let s : State := { s0 with md := { s0.md with links := [{ HLink.reset 0 with down := true }] }, ms := { s0.ms with l1tlb := [(⟨0, 0⟩, ⟨0, 0, true, 0, 2 ^ 30, 2 ^ 51 + 115, false⟩)] } }
      s.access 7 = some a ∧ s.ms.accs.length = 1 ∧ (s.thread 5).isSome ∧ s.ordered a = true ∧ (s.partAt a (th rig).xl { part 0 4 0x5000 false with pa := some (2 ^ 51) }).any s.linkCut = true) := by
  decide +kernel

theorem witness_DiesFail :
    (rig.unbooted = false ∧ rig.md.dies.getLsbD 0 = true ∧ rig.md.failed.getLsbD 0 = false ∧ (rig.part 0).state ≠ .stopped ∧ (rig.part 0).hasRow 0 0 = true ∧ (rig.launch 1).isSome) ∧
    (let s : State := { rig with md := { rig.md with failed := 1, orphans := [0x40] } }
     s.lost (64 * 0x40) = 1 ∧ s.lost (64 * 0x41) = 2 ∧ 2 ^ 51 % 64 = 0 ∧ isHost (2 ^ 51) = true ∧ s.linkBusy 0 = false ∧ s.ms.mem.wf = true ∧ s.ms.vault.wf = true) ∧
    (∀ d, d < 4 → rig.md.ages[d]? = some ⟨0xFFFFFFFF, 63, 0⟩) := by
  decide +kernel

/-- A write to HBM: the host's, which holds the block in its own copy or does not; a peer's, with nothing under way about the block, or a request that waits. -/
theorem witness_OutsideAccesses_writes :
    (direct (.owned 4) 0 [] [] [] []).partyMayWrite 64 0x1000 4 = true ∧ (direct .uncached 0 [] [] [] []).partyMayWrite 64 0x1000 4 = false ∧ peered.partyMayWrite 64 (2 ^ 51) 8 = true ∧
    (direct .uncached 0 [] [] [given] []).partyMayWrite 5 0x1000 4 = true ∧ (direct (.owned 1) 0 [(4, true)] [] [given] []).partyMayWrite 5 0x1000 4 = false := by
  decide +kernel

/-! ## Witnesses of statements of several parts -/

theorem witness_CopyInstructionsIssue : type_of% witness_CopyInstructionsIssue_words ∧ type_of% witness_BatchInstructions := ⟨witness_CopyInstructionsIssue_words, witness_BatchInstructions⟩
theorem witness_SplatOperationsRunAndFinish :
    type_of% witness_SplatPassOperationsRun ∧ type_of% witness_GradientOperationsRun ∧ type_of% witness_SplatOperationsFinish :=
  ⟨witness_SplatPassOperationsRun, witness_GradientOperationsRun, witness_SplatOperationsFinish⟩
theorem witness_ControlTransfersAndWaits :
    type_of% witness_ControlTransfersAndWaits_words ∧ type_of% witness_TimedWaitsEnd ∧ type_of% witness_BarriersTakeArrivals :=
  ⟨witness_ControlTransfersAndWaits_words, witness_TimedWaitsEnd, witness_BarriersTakeArrivals⟩
theorem witness_QueueInstructions : type_of% witness_QueueInstructions_words ∧ type_of% witness_RecordsArrive ∧ type_of% witness_PushesTakeTheirStep :=
  ⟨witness_QueueInstructions_words, witness_RecordsArrive, witness_PushesTakeTheirStep⟩
theorem witness_TrapsAreTakenAndReturnedFrom : type_of% witness_TrapsAreTaken ∧ type_of% witness_TrapReturns ∧ type_of% witness_PrivilegeIsChecked :=
  ⟨witness_TrapsAreTaken, witness_TrapReturns, witness_PrivilegeIsChecked⟩
theorem witness_PrivilegedRegistersAndFaultQueues : type_of% witness_PrivilegedRegisters ∧ type_of% witness_FaultQueues := ⟨witness_PrivilegedRegisters, witness_FaultQueues⟩
theorem witness_LaunchesAreServedAndEnd : type_of% witness_LaunchesAreServed ∧ type_of% witness_TeamsAndGridsEnd := ⟨witness_LaunchesAreServed, witness_TeamsAndGridsEnd⟩
theorem witness_TheHostConfiguresAndAccesses : type_of% witness_ConfigurationWrites ∧ type_of% witness_OutsideAccesses ∧ type_of% witness_OutsideAccesses_writes :=
  ⟨witness_ConfigurationWrites, witness_OutsideAccesses, witness_OutsideAccesses_writes⟩
theorem witness_ErrorsLinksAndDies : type_of% witness_ErrorsAreCountedAndLogged ∧ type_of% witness_LinksFail ∧ type_of% witness_DiesFail :=
  ⟨witness_ErrorsAreCountedAndLogged, witness_LinksFail, witness_DiesFail⟩
theorem witness_CoherenceMachinerySteps :
    type_of% witness_CoresSendRequests ∧ type_of% witness_HomeSlicesServe ∧ type_of% witness_CoherenceMessagesArrive ∧ type_of% witness_DirectoriesServe :=
  ⟨witness_CoresSendRequests, witness_HomeSlicesServe, witness_CoherenceMessagesArrive, witness_DirectoriesServe⟩

/-! ## Witnesses: copies and queues complete -/

/-- Copies whose block has been read; CPUB and CSHAD.OFF with nothing before them; a fill at its first unit and out of order, with a piece in hand; a
copy whose admission a thread at CPROM waits for. -/
theorem witness_CopiesAreServed :
    (∀ x ∈ [(CopyKind.fill 0xAB, some (fillBlk, false)), (.cpy, some (outBlk, false)), (.pub 7, none), (.off 7, none)],
      let c := { lift x.1 none none 0 0 with raw := x.2 }
      let s := lighter c
      s.copy c.id = some c ∧ s.channelFor c = some 0 ∧ (x.2 = none ∨ c.kind.block = true ∧ checkBlock c.kind ((x.2.getD (0, false)).1) = (none, 64)) ∧ s.ms.accs = [] ∧ s.priorCopies c = []) ∧
    (let c := { lift (.fill 0xAB) (some 10) (some fillBlk) 64 0 with held := [⟨true, 32, [1, 2, 3, 4], false⟩] }
     let s := lighter c
     s.copy c.id = some c ∧ s.mayStart c = true ∧ s.servedNow c = true ∧ (denseDst fillBlk).vault = true ∧ (s.vaultKey (th s).place 0 4 false).toOption = some 0 ∧ 0 < c.bytes ∧ c.early = [] ∧ c.opens 8 = true ∧ 8 ≠ c.done ∧
       (s.vaultKey (th s).place 32 4 false).toOption = some 32 ∧ s.ms.mem.wf = true ∧ s.ms.vault.wf = true) ∧
    (let c := lift (.fill 0xAB) none none 0 0
     let s0 := lighter c
     let s : State := { on s0 fun t => { t with wait := .prom 11 (.v 6) } with en := { s0.en with batches := [⟨11, 5, 0, [9], 3, none, false⟩] } }
     (th s).wait = .prom 11 (.v 6) ∧ (s.en.batches.find? fun b => b.id == 11).isSome ∧ c.id ∈ [9] ∧ ∀ x ∈ s.en.copies, x.id = c.id) := by
  decide +kernel

/-- A push that finds a berth, in the queue of one berth. -/
theorem witness_QueueFormsComplete :
    type_of% witness_QueueInstructions_words ∧
    (let a := acc 7 false (.push 1 0 [1, 2, 3, 4]) [⟨0, 0, 0, false, 0, none, false, none, none⟩] 0
     let s := inGang (noRecs false) (noRecs false) (mapped (issued [a]))
     s.access 7 = some a ∧ s.ordered a = true ∧ s.pushBehind a 1 0 = false ∧ (s.queue 1 0).map (fun q => (q.closed, q.spilled.length, lowestFree (quBerths q.entry) (q.recs.map QRec.at_))) = some (false, 0, some 0)) :=
  ⟨witness_QueueInstructions_words, by decide +kernel⟩

theorem witness_CopyAndQueueFormsComplete : type_of% witness_CopiesAreServed ∧ type_of% witness_QueueFormsComplete := ⟨witness_CopiesAreServed, witness_QueueFormsComplete⟩

/-- 3/4 is no integer and no half of one, and its significand no power of two. -/
theorem witness_TranscendentalsAreEnclosed :
    0 < 3 ∧ 3 < 2 ^ 24 ∧ (-149 : Int) ≤ -2 ∧ (-2 : Int) ≤ 104 ∧ (∀ k : Nat, 3 ≠ 2 ^ k) ∧
    (let x : ℝ := 1 * ((3 : Nat) : ℝ) * (2 : ℝ) ^ (-2 : Int)
     (∀ z : Int, x ≠ z) ∧ -126 ≤ x ∧ x < 128 ∧ ∀ z : Int, 2 * x ≠ z) := by
  have e : (1 * ((3 : Nat) : ℝ) * (2 : ℝ) ^ (-2 : Int)) = 3 / 4 := by norm_num [zpow_neg]
  refine ⟨by decide, by decide, by decide, by decide, fun k h => ?_, ?_⟩
  · rcases k with - | k
    · simp at h
    · rw [pow_succ] at h; omega
  · simp only [e]
    refine ⟨fun z h => ?_, by norm_num, by norm_num, fun z h => ?_⟩
    · have : (3 : ℝ) = 4 * z := by linarith
      have : (3 : Int) = 4 * z := by exact_mod_cast this
      omega
    · have : (3 : ℝ) = 2 * z := by linarith
      have : (3 : Int) = 2 * z := by exact_mod_cast this
      omega

/-! ## Ill-formed terms, and words that are refused -/

/-- A term for each check of the well-formedness: spans of two, four and eight registers that are misaligned or leave their file, and each
reserved combination. -/
theorem test_ill_formed_alu : ([Instr.imadw h7 (.v 1) .z .z (.v 2) false, .imadw h7 (.v 2) .z .z (.v 1) false, .iadd64 h7 (.v 2) (.v 2) (.v 127), .iadd64I h7 (.g 63) (.v 2) 1, .isub64 h7 (.v 2) (.g 1) (.v 2),
    .imad64 h7 (.v 2) (.v 2) (.v 2) (.v 5), .shl64 h7 (.v 1) .z .z, .shr64 h7 .z (.v 1) .z true, .lea h7 (.v 1) .z .z 0 false, .dsetp h7 1 (.v 1) .z (.cmp .eq false) .set, .mov h7 (.v 1) .z true,
    .dadd h7 (.v 3) .z .z .rn false false, .dmul h7 .z (.v 3) .z .rn false false, .dfma h7 .z .z .z (.v 3) .rn false false false, .dmin h7 (.v 3) .z .z, .dmax h7 .z .z (.v 3), .ddiv h7 (.v 3) .z .z .rn, .dsqrt h7 .z (.v 3) .rn,
    .cvt h7 (.v 1) .z .rn .s64 .s32 0, .cvt h7 .z .z .rn .s32 .f16 2, .dxpack h7 .z .z .z true 0, .dxunpk h7 .z .z .z false true, .vote h7 (.v 1) .z .z .mask, .redux h7 .z .z (.v 1) .add, .elect h7 .z (.v 1),
    .matchL h7 .z (.v 1) .z true, .scan h7 .z .z (.v 1) .add false, .rdfirst h7 .z (.v 1) .z true].all fun i => !i.wf) = true := by
  decide

theorem test_ill_formed_memory : ([Instr.ld h7 (.v 2) ⟨.v 4, 0, 0, .die⟩ .b128 false false false, .ld h7 .z ⟨.v 5, 0, 0, .die⟩ .b32 false false false, .ld h7 .z ⟨.v 4, 0, 0, .die⟩ .b32 true false false,
    .ld h7 .z ⟨.v 4, 0, 0, .die⟩ .b32 false false true, .ld h7 .z ⟨.v 4, 0, 0, .cluster⟩ .b32 false true true, .st h7 (.v 1) ⟨.v 4, 0, 0, .die⟩ .b64 false, .ldv h7 .z ⟨.z, 0, 0, .core⟩ .b32 true false false, .stv h7 (.v 2) ⟨.z, 0, 0, .core⟩ .b128 false false,
    .ldt h7 .z ⟨.z, 0, 0, .core⟩ .b16 false false false, .stt h7 .z ⟨.z, 0, 0, .core⟩ .b8 false false, .tagopEmpty h7 ⟨.z, 0, 0, .core⟩ .b16 false false, .tagopFull h7 ⟨.z, 0, 0, .core⟩ .b8 false false, .atom h7 ⟨.z, .z, .z, .inc, true, 0, .die, .relaxed⟩, .atom h7 ⟨.z, .v 1, .z, .add, false, 0, .die, .acquire⟩,
    .lds h7 .z ⟨.v 4, 0, 0, .die⟩ .b32 false, .lds h7 .z ⟨.v 4, 0, 0, .core⟩ .b64 true, .smp h7 .z (.v 1) .z true .clamp false 0, .fence h7 0 .die true .all, .fence h7 0 .system true .reads, .fjoin h7 0, .pref h7 (.v 1) 0 .l2,
    .cwb h7 ⟨.v 4, 0, 0, .cluster⟩ false, .cinvIcache h7 (.v 1) 0, .cinvDiscard h7 (.v 1) 0].all fun i => !i.wf) = true := by
  decide

theorem test_ill_formed_engines : ([Instr.mxld h7 (.v 2) 0, .mxld h7 (.g 8) 0, .mxqryEst h7 (.v 1), .cpy h7 ⟨.v 1, .z, 0, .die, false⟩, .cpys h7 ⟨.z, .v 1, 0, .die, false⟩, .cpyb h7 ⟨.v 1, .z, 0, .die, false⟩,
    .cpyx h7 ⟨.v 1, .z, 0, .die, false⟩, .cfill h7 ⟨.v 1, .z, 0, .die, false⟩ .z, .cprom h7 (.v 1) 0, .cpub h7 (.v 1) 0, .cshad h7 0 (.v 1) .z, .cshadOff h7 (.v 1) 0, .fopen h7 .z (.v 1) 0, .fcomp h7 .z 0 0 9 .zero,
    .fqry h7 (.v 1) 0, .fqryAnc h7 (.v 1) 0, .hld h7 (.g 0) .z 0 0 .zero none, .hld h7 .z .z 0 9 .zero none, .hres h7 (.v 2) .z 0 1 .zero none, .spview h7 (.v 1) .z, .spbegin h7 (.v 1) none, .spsub h7 (.v 1) .z,
    .spbwd h7 .z (.v 1), .spred h7 (.v 1) .z].all fun i => !i.wf) = true := by
  decide

theorem test_ill_formed_control : ([Instr.brx h7 (.v 1), .call h7 (.g 2) 0, .call h7 (.v 1) 0, .ret h7 (.v 1), .qpush h7 1 (.g 0) .die, .qpop h7 (.g 0) 0 .z .die, .qtry h7 (.g 0) 0 .z .die, .qqry h7 (.v 1) 1,
    .tretResume h7 (.quay .z (.v 1)), .tretSkip h7 (.quay .z (.v 1)), .tretRetry h7 .z (.v 1), .swr h7 .partid .z, .swr h7 .wroot (.v 1), .launch h7 .z (.v 1) 0, .attest h7 .z (.v 1) .z, .tlbiVa h7 (.v 1) .z,
    .split h7 .z (.v 1) .z false, .ologrNext h7 (.v 2), .ologrOpnd h7 .z (.v 1)].all fun i => !i.wf) = true := by
  decide

/-- Words refused by name: an opcode of no row in each class, a format that its opcode does not take, an operand byte between the files and z, a
special register of no number, a reserved value of a field, and a span that is misaligned; an unused field, which traps only after these. -/
theorem test_decode_refuses :
    (∀ c ∈ [0, 1, 2, 3, 4, 5, 6, 7], decodeWord true c 0xFFE0000000000000 = .bad .unassignedOpcode) ∧ decodeWord false 0 0x01E2010203000000 = .bad .badFormat ∧
    decodeWord false 0 0x01E001C003000000 = .bad .badOperand ∧ decodeWord false 0 0x01E001FE03000000 = .bad .badOperand ∧ decodeWord false 0 0x32E0017F00000000 = .bad .badNumber ∧
    decodeWord false 0 0x01E0010203000001 = .bad .reservedValue ∧ decodeWord false 0 0x20E0010204000000 = .bad .badSpan ∧
    decodeWord false 0 0x01E0010203010002 = .reserved (.iadd h7 (.v 1) (.v 2) (.v 3) .ssat) := by
  decide

/-- Headers: a class that no opcode has, reserved bits, a class that a quay core does not take; the class and the waits of one that is good. -/
theorem test_headers :
    (∀ x ∈ [(false, 0x8000000000000000, 0x01), (false, 0x00FFFF0000000001, 0x03), (false, 0x00FFFF1000000000, 0x03), (true, 0x20FFFF0000000000, 0x02)],
      (match decodeHeader x.1 x.2.1 with | .error c => c | .ok _ => 0) = x.2.2) ∧
    (decodeHeader false 0x7F32100800000000).toOption = some ⟨7, 16, 3, 2, 1, 0, true⟩ := by
  decide

/-! ## Results that the manual works out -/

/-- Register n of the rig's thread after an instruction, and its flags. -/
def regAfter (i : Instr) (s : State) (n : Nat) : Option (Nat × Nat) := match exec i s with
  | .next s' => (s'.thread 5).map fun t => ((t.regs.getV n).toNat, t.regs.flags.toNat)
  | _ => none

/-- R64: the two ties. -/
theorem test_w48_to_fp32 : (cvtFF fp32 .rn (w48.decode 0x3F8000008000)).1 = 0x3F800000 ∧ (cvtFF fp32 .rn (w48.decode 0x3F8000018000)).1 = 0x3F800002 ∧
    (cvtFF fp32 .rn (w48.decode 0x3F8000008000)).2 = flagINX := by decide +kernel
/-- R75: 255.4, 255.6 and -0.4 to an unsigned byte, to nearest. -/
theorem test_cvt_to_byte :
    regAfter (.cvt h7 (.v 3) (.v 2) .rn .z8 .f32 0) (one rig 2 0x437F6666) 3 = some (255, 1) ∧ regAfter (.cvt h7 (.v 3) (.v 2) .rn .z8 .f32 0) (one rig 2 0x437F999A) 3 = some (255, 16) ∧
    regAfter (.cvt h7 (.v 3) (.v 2) .rn .z8 .f32 0) (one rig 2 0xBECCCCCD) 3 = some (0, 1) := by decide +kernel
/-- R102: FRCP of 2^-149 overflows. -/
theorem test_frcp_smallest : regAfter (.frcp h7 (.v 3) (.v 2)) (one rig 2 1) 3 = some (0x7F800000, 5) := by decide +kernel
/-- R108: two codes of the DX8 example under E1 0x81 and E0 0x7B: -0.25, and 51/512. -/
theorem test_dxunpk :
    regAfter (.dxunpk h7 (.v 3) (.v 2) (.v 4) false false) (one (one rig 2 0xC2) 4 0x817B0000) 3 = some (0xBE800000, 0) ∧
    regAfter (.dxunpk h7 (.v 3) (.v 2) (.v 4) false false) (one (one rig 2 0x33) 4 0x817B0000) 3 = some (0x3DCC0000, 0) := by decide +kernel
/-- R76, R78: the DX8 example with D = 6 as member 0, 1, 4 and 6 have it: the code, E0 and E1. -/
theorem test_dxpack :
    let cs := [0x40A00000, 0xBE99999A, 0x3B83126F, 0x80000000, 0xBA03126F, 0x3DCCCCCD, 0xBE000000].mapIdx fun k x => (⟨k, k, 3, 0, k, 0x1000, 0, true, 0, x, 0, .nop h7, .v 3⟩ : Arrival)
    [0, 1, 2, 3, 4, 5, 6].map (fun m => ((dxpackRes false 6 m cs).1.headD 0).toNat % 256) = [0xA8, 0xC2, 0x02, 0x00, 0x00, 0x33, 0xC1] ∧
      ((dxpackRes false 6 0 cs).1.headD 0).toNat / 2 ^ 16 = 0x817B ∧ (dxpackRes false 6 4 cs).2 = flagUNF ||| flagINX := by decide +kernel
/-- The worked walk of 08_fields: from (5.25, 3.5) through 0xE8000014 and 0xF2000008; from (7.5, 3.5) through 0xE8000014 and 0xDE000FF8. -/
theorem test_walk_steps :
    (let a := ((WalkAt.start 0x40A80000 0x40600000).step fdesc 0xE8000014).step fdesc 0xF2000008
     (a.x, a.y, a.conf) = (0x410C0000, 0x40600000, 40)) ∧
    (let a := ((WalkAt.start 0x40F00000 0x40600000).step fdesc 0xE8000014).step fdesc 0xDE000FF8
     (a.x, a.y, a.conf) = (0x41100000, 0x40600000, 30)) := by decide +kernel
/-- R318: the history of 13_execution: 256, then 232, then 214; and the widths. -/
theorem test_history :
    (let s0 := on rig fun t => { t with exited := true }
     let s : State := { s0 with wk := { s0.wk with teams := s0.wk.teams.map fun x => { x with a := 160, l := 256 }, parts := s0.wk.parts.modify 0 fun p => { p with hist := [⟨s0.histPc (Team.single 3 1 2 0 ⟨0, 0⟩ 6 128), 256⟩] } } }
     (match exec (.teamEnd 3) s with
       | .next s' => (s'.part 0).hist.map HistEntry.f
       | _ => []) = [232]) ∧ widthOfF 232 = 64 ∧ widthOfF 214 = 32 ∧ (3 * 232 + 160) / 4 = 214 := by decide +kernel
/-- R382: the home of 0x7F1234567000 under ASID 0x42 in a partition of rows 0 and 1 of die 1 is core 0. -/
theorem test_tlb_home : ({ Part.reset with cfg := { Part.reset.cfg with rows := 0x300 } } : Part).tlbHome 1 0x7F1234567000 0x42 = ⟨1, 0⟩ := by decide +kernel

/-- R86: sums that wrap and that saturate; a source that is also the destination. -/
theorem test_iadd : regAfter (.iadd h7 (.v 2) (.v 2) (.v 3) .wrap) (one (one rig 2 0xFFFFFFFF) 3 2) 2 = some (1, 0) ∧ regAfter (.iadd h7 (.v 2) (.v 2) (.v 3) .ssat) (one (one rig 2 0x7FFFFFFF) 3 2) 2 = some (0x7FFFFFFF, 0) := by
  decide +kernel
/-- R87: division by zero, and of the least number by -1. -/
theorem test_idiv : regAfter (.idiv h7 (.v 4) (.v 2) .z false) (one rig 2 5) 4 = some (0xFFFFFFFF, 0) ∧ regAfter (.idiv h7 (.v 4) (.v 2) (.v 3) false) (one (one rig 2 0x80000000) 3 0xFFFFFFFF) 4 = some (0x80000000, 0) := by
  decide +kernel
/-- R27, R216: a 4-byte load of bytes 0x11, 0x22, 0x33, 0x44 gives the little-endian word. -/
theorem test_little_endian : ((mapped (holding rig (cells 0x5000 4 0x44332211))).readAt (th rig).who .core 0x5000 4).val = 0x44332211 := by decide +kernel
/-- R102, R104: FRCP of 3 and FRSQ of 2, to nearest; 2 to the half. -/
theorem test_transcendentals :
    regAfter (.frcp h7 (.v 3) (.v 2)) (one rig 2 0x40400000) 3 = some (0x3EAAAAAB, 1) ∧ regAfter (.frsq h7 (.v 3) (.v 2)) (one rig 2 0x40000000) 3 = some (0x3F3504F3, 1) ∧
    regAfter (.fex2 h7 (.v 3) (.v 2)) (one rig 2 0x3F000000) 3 = some (0x3FB504F3, 1) := by decide +kernel
/-- R102: the sine of π/4 and of π/8, the cosine of π/8 and of -5π/4. -/
theorem test_trigonometric :
    regAfter (.fsinpi h7 (.v 3) (.v 2)) (one rig 2 0x3E800000) 3 = some (0x3F3504F3, 1) ∧ regAfter (.fsinpi h7 (.v 3) (.v 2)) (one rig 2 0x3E000000) 3 = some (0x3EC3EF15, 1) ∧
    regAfter (.fcospi h7 (.v 3) (.v 2)) (one rig 2 0x3E000000) 3 = some (0x3F6C835E, 1) ∧ regAfter (.fcospi h7 (.v 3) (.v 2)) (one rig 2 0xBFA00000) 3 = some (0xBF3504F3, 1) := by decide +kernel
end Sys2Proof.Tests
end

namespace Sys2Proof.Machine

/-! ## The canonical form of a state -/

/-- Bringing a memory to its canonical form changes no byte. -/
@[simp] theorem Memory.canon_read (m : Memory) (a : Nat) : m.canon.read a = m.read a := by
  unfold Memory.canon
  split
  · rfl
  · exact Memory.foldr_read m a

theorem State.tidy_canonical (s : State) : s.tidy.Canonical := ⟨Memory.canon_wf _, Memory.canon_wf _⟩

theorem State.tidy_of_canonical {s : State} (h : s.Canonical) : s.tidy = s := by
  obtain ⟨hmem, hvault⟩ := h
  simp only [State.tidy, State.onMs, Memory.canon_of_wf hmem, Memory.canon_of_wf hvault]

theorem State.endStep_canonical (s : State) : s.endStep.Canonical := State.tidy_canonical _

/-! ## Steps end with the end of a step -/

/-- An outcome that goes on after the end of a step goes on in the end of some step. -/
theorem tidied_next {o : Out} {s' : State} (h : tidied o = .next s') : ∃ s : State, s' = s.endStep := by
  cases o with
  | next s => exact ⟨s, (Host.Outcome.next.inj h).symm⟩
  | fault f => cases h
  | refused r => cases h

/-- Whatever a step does, time alone, an issue or an event, it closes with the end of a step. -/
theorem step_next {s s' : State} (h : step s = .next s') : ∃ s1 : State, s' = s1.endStep := by
  unfold step at h
  dsimp only at h
  split at h <;> exact tidied_next h

theorem step_canonical {s s' : State} (h : step s = .next s') : s'.Canonical := by
  obtain ⟨s1, rfl⟩ := step_next h
  exact s1.endStep_canonical

/-! ## What the schedulers settle (R319, R322) -/

/-- A thread without what the schedulers note of it: since when it waits, and whether it was ready (R319). -/
def Thread.unnoted (t : Thread) : Thread := { t with since := 0, rdy := false }

/-- The number of a group with its g registers. -/
def Group.bank (g : Group) : Nat × Vector Word 64 := (g.id, g.g)

/-- A state settles into another: no byte of memory or of a vault differs, no thread but in what the schedulers note of it, and no
group in its number or its g registers. -/
structure State.SettlesTo (s s' : State) : Prop where
  mem : ∀ a, s'.ms.mem.read a = s.ms.mem.read a
  vault : ∀ a, s'.ms.vault.read a = s.ms.vault.read a
  threads : s'.wk.threads.map Thread.unnoted = s.wk.threads.map Thread.unnoted
  groups : s'.wk.groups.map Group.bank = s.wk.groups.map Group.bank

namespace State.SettlesTo

theorem refl (s : State) : s.SettlesTo s := ⟨fun _ => rfl, fun _ => rfl, rfl, rfl⟩

theorem trans {s₁ s₂ s₃ : State} (h : s₁.SettlesTo s₂) (h' : s₂.SettlesTo s₃) : s₁.SettlesTo s₃ :=
  ⟨fun a => (h'.mem a).trans (h.mem a), fun a => (h'.vault a).trans (h.vault a), h'.threads.trans h.threads, h'.groups.trans h.groups⟩

/-- Operations that each settle a state settle it one after the other. -/
theorem foldl {α : Type} {f : State → α → State} (hf : ∀ (s : State) (x : α), s.SettlesTo (f s x)) (l : List α) (s : State) :
    s.SettlesTo (l.foldl f s) := by
  induction l generalizing s with
  | nil => exact refl s
  | cons x l ih => exact (hf s x).trans (ih (f s x))

/-- An update of every thread that keeps all but the schedulers' notes. -/
theorem mapThreads (s : State) {f : Thread → Thread} (hf : ∀ t, (f t).unnoted = t.unnoted) :
    s.SettlesTo (s.onWk fun w => { w with threads := w.threads.map f }) :=
  ⟨fun _ => rfl, fun _ => rfl, by simp [Function.comp_def, hf], rfl⟩

/-- An update of every group that keeps numbers and g registers. -/
theorem mapGroups (s : State) {f : Group → Group} (hf : ∀ g, (f g).bank = g.bank) :
    s.SettlesTo (s.onWk fun w => { w with groups := w.groups.map f }) :=
  ⟨fun _ => rfl, fun _ => rfl, rfl, by simp [Function.comp_def, hf]⟩

/-- An update of one group that keeps its number and its g registers. -/
theorem onGroup (s : State) (k : Nat) {f : Group → Group} (hf : ∀ g, (f g).bank = g.bank) : s.SettlesTo (s.onGroup k f) :=
  mapGroups s fun g => by split <;> simp [hf]

/-- Each thread that a number names keeps all but the schedulers' notes. -/
theorem thread {s s' : State} (h : s.SettlesTo s') (i : Nat) : (s'.thread i).map Thread.unnoted = (s.thread i).map Thread.unnoted := by
  have lookup (x : State) : (x.thread i).map Thread.unnoted = (x.wk.threads.map Thread.unnoted).find? fun t => t.id == i := by
    rw [List.find?_map]; rfl
  rw [lookup, lookup, h.threads]

theorem group {s s' : State} (h : s.SettlesTo s') (i : Nat) : (s'.group i).map Group.bank = (s.group i).map Group.bank := by
  have lookup (x : State) : (x.group i).map Group.bank = (x.wk.groups.map Group.bank).find? fun b => b.1 == i := by
    rw [List.find?_map]; rfl
  rw [lookup, lookup, h.groups]

/-- The g registers of every group stay. -/
theorem getG {s s' : State} (h : s.SettlesTo s') (g r : Nat) : s'.getG g r = s.getG g r := by
  have read (x : State) : x.getG g r = (((x.group g).map Group.bank).map fun b => if h : r < 64 then b.2[r] else 0).getD 0 := by
    rw [State.getG_eq]
    cases x.group g <;> rfl
  rw [read, read, h.group]

end State.SettlesTo

/-! ## Each part of the end of a step -/

theorem State.settlesTo_arrivals (s : State) : s.SettlesTo s.arrivals := by
  unfold State.arrivals
  split <;> exact ⟨fun _ => rfl, fun _ => rfl, rfl, rfl⟩

theorem State.settlesTo_endDrains (s : State) : s.SettlesTo s.endDrains := by
  unfold State.endDrains
  split <;> exact ⟨fun _ => rfl, fun _ => rfl, rfl, rfl⟩

theorem State.settlesTo_freeCtxs (s : State) : s.SettlesTo s.freeCtxs := ⟨fun _ => rfl, fun _ => rfl, rfl, rfl⟩

theorem State.settlesTo_noteReady (s : State) : s.SettlesTo s.noteReady :=
  .mapThreads s fun t => by dsimp only; split <;> rfl

theorem State.settlesTo_noteGroups (s : State) : s.SettlesTo s.noteGroups := .mapGroups s fun _ => rfl

theorem State.settlesTo_deactivate (s : State) (g : Nat) : s.SettlesTo (s.deactivate g) := .onGroup s g fun _ => rfl

theorem State.settlesTo_activate (s : State) (g : Group) : s.SettlesTo (s.activate g) := by
  unfold State.activate
  split
  · exact .refl s
  · exact .onGroup s g.id fun _ => rfl

theorem State.settlesTo_manage (s : State) (q : QuadId) : s.SettlesTo (s.manage q) :=
  .trans (.foldl (fun s (g : Group) => s.settlesTo_deactivate g.id) _ s) (.foldl State.settlesTo_activate _ _)

/-- A swap that is not due, or that finds no group to take the place of, changes nothing. -/
theorem State.settlesTo_pendingTimeout (s : State) (grp : Nat) : s.SettlesTo (s.pendingTimeout grp) := by
  unfold State.pendingTimeout
  split
  · exact .refl s
  split
  · exact .refl s
  split
  · exact .refl s
  split
  · exact .refl s
  · exact (s.settlesTo_deactivate _).trans (State.settlesTo_activate _ _)

theorem State.settlesTo_reschedule (s : State) : s.SettlesTo s.reschedule :=
  ((s.settlesTo_noteReady.trans (State.settlesTo_noteGroups _)).trans (.foldl State.settlesTo_manage _ _)).trans
    (.foldl (fun s (g : Group) => s.settlesTo_pendingTimeout g.id) _ _)

theorem State.settlesTo_tidy (s : State) : s.SettlesTo s.tidy := ⟨Memory.canon_read _, Memory.canon_read _, rfl, rfl⟩

theorem State.settlesTo_endStep (s : State) : s.SettlesTo s.endStep :=
  (((s.settlesTo_arrivals.trans (State.settlesTo_endDrains _)).trans (State.settlesTo_freeCtxs _)).trans
    (State.settlesTo_reschedule _)).trans (State.settlesTo_tidy _)

/-- Settles O6: every step closes with `endStep`, whose last act brings both memories to their canonical form, and each part of
`endStep` settles the state. -/
theorem stepsKeepMemoryCanonical : Obligations.StepsKeepMemoryCanonical := by
  unfold Obligations.StepsKeepMemoryCanonical
  refine ⟨fun _ _ _ h => step_canonical h, fun s => ?_⟩
  have h := s.settlesTo_endStep
  exact ⟨fun a => ⟨h.mem a, h.vault a⟩, State.tidy_of_canonical, h.thread, fun g r _ => h.getG g r⟩

end Sys2Proof.Machine

namespace Sys2Proof

/-! ## Exact sums of finite values -/

/-- A finite value whose last place lies at 2^k or above. -/
def FV.FinFrom (k : Int) (v : FV) : Prop := ∃ n m e, v = .fin n m e ∧ k ≤ e

/-- The value −0. -/
def FV.negZero (v : FV) : Bool := v.isZero && v.isNeg

theorem FV.negZero_fin (n : Bool) (m : Nat) (e : Int) : (FV.fin n m e).negZero = (m == 0 && n) := by
  cases m <;> rfl

theorem FV.isZero_fin (n : Bool) (m : Nat) (e : Int) : (FV.fin n m e).isZero = (m == 0) := by
  cases m <;> rfl

/-- Fewer units of a larger size: what one unit of 2^e holds in units of 2^k. -/
theorem FV.atExp_eq_mul {n : Bool} {m : Nat} {e₀ e k : Int} (hk : k ≤ e₀) (he : e₀ ≤ e) :
    (FV.fin n m e).atExp k = (FV.fin n m e).atExp e₀ * 2 ^ (e₀ - k).toNat := by
  have hs : (e - k).toNat = (e - e₀).toNat + (e₀ - k).toNat := by omega
  simp only [FV.atExp, hs, pow_add]
  push_cast
  ring

theorem FV.ofInt_atExp (z : Bool) (x e k : Int) : (FV.ofInt z x e).atExp k = x * 2 ^ (e - k).toNat := by
  simp only [FV.ofInt, FV.atExp]
  rcases lt_trichotomy x 0 with h | rfl | h
  · have : ((x.natAbs : Nat) : Int) = -x := by omega
    simp [h, h.ne, this]
  · simp
  · have : ((x.natAbs : Nat) : Int) = x := by omega
    simp [h.ne', not_lt.mpr h.le, this]

theorem FV.atExp_zero (n : Bool) (e k : Int) : (FV.fin n 0 e).atExp k = 0 := by simp [FV.atExp]

/-- A sum of finite values is finite and exact. -/
theorem FV.addFin_exact {k : Int} {a b : FV} (rm : RMode) (ha : a.FinFrom k) (hb : b.FinFrom k) :
    (a.addFin rm b).FinFrom k ∧ (a.addFin rm b).atExp k = a.atExp k + b.atExp k := by
  obtain ⟨n, m, e, rfl, he⟩ := ha
  obtain ⟨n', m', e', rfl, he'⟩ := hb
  refine ⟨⟨_, _, _, rfl, le_min he he'⟩, ?_⟩
  rw [FV.addFin, FV.ofInt_atExp]
  simp only [FV.exp]
  rw [FV.atExp_eq_mul (n := n) (le_min he he') (min_le_left e e'), FV.atExp_eq_mul (n := n') (le_min he he') (min_le_right e e'), add_mul]

/-- R69: to nearest, a sum of finite values is −0 exactly where both are. -/
theorem FV.addFin_negZero {k : Int} {a b : FV} (ha : a.FinFrom k) (hb : b.FinFrom k) :
    (a.addFin .rn b).negZero = (a.negZero && b.negZero) := by
  obtain ⟨n, m, e, rfl, -⟩ := ha
  obtain ⟨n', m', e', rfl, -⟩ := hb
  by_cases hz : m = 0 ∧ m' = 0
  · obtain ⟨rfl, rfl⟩ := hz
    simp only [FV.addFin, FV.atExp_zero, FV.ofInt, FV.negZero_fin, FV.isZero_fin, FV.isNeg]
    cases n <;> cases n' <;> rfl
  · -- where one of them is nonzero, an exact zero is +0
    have hr : (m == 0 && m' == 0) = false := by simpa using hz
    have hr' : (m == 0 && n && (m' == 0 && n')) = false := by cases hm : m == 0 <;> simp_all
    simp only [FV.addFin, FV.ofInt, FV.negZero_fin, FV.isZero_fin, hr, hr', Bool.false_and, Bool.false_eq_true, if_false]
    split
    · exact Bool.and_false _
    · rename_i hx
      simp [hx]

/-- A sum taken in turn is exact, and −0 exactly where every term is. -/
theorem FV.foldl_addFin {k : Int} (l : List FV) (x : FV) (hx : x.FinFrom k) (hl : ∀ y ∈ l, y.FinFrom k) :
    (l.foldl (FV.addFin .rn) x).FinFrom k ∧
      (l.foldl (FV.addFin .rn) x).atExp k = ((x :: l).map (FV.atExp · k)).sum ∧
      ((l.foldl (FV.addFin .rn) x).negZero = true ↔ ∀ y ∈ x :: l, y.negZero = true) := by
  induction l generalizing x with
  | nil => exact ⟨hx, by simp, by simp⟩
  | cons y l ih =>
    have hy := hl y List.mem_cons_self
    obtain ⟨hfin, hsum⟩ := FV.addFin_exact .rn hx hy
    obtain ⟨h₁, h₂, h₃⟩ := ih _ hfin fun z hz => hl z (List.mem_cons_of_mem _ hz)
    refine ⟨h₁, ?_, ?_⟩
    · rw [List.foldl_cons, h₂, List.map_cons, List.sum_cons, hsum]
      simp only [List.map_cons, List.sum_cons, add_assoc]
    · rw [List.foldl_cons, h₃]
      simp only [List.forall_mem_cons, FV.addFin_negZero hx hy, Bool.and_eq_true, and_assoc]

end Sys2Proof

namespace Sys2Proof.Machine

/-! ## Block sums (R121, R122) -/

theorem sigFlag_eq_invOf (l : List FV) : sigFlag l = invOf l := by
  have h : FV.isSig = fun v => v == .nan true := by
    funext v
    rcases v with (_ | _) | _ | _ <;> rfl
  simp only [sigFlag, invOf, flagIf, flagINV, h]
  rfl

/-- What a pair of elements contributes other than a finite product (R122). -/
def nanPair (p : FV × FV) : Bool := p.1.isNaN || p.2.isNaN
def badPair (p : FV × FV) : Bool := (p.1.isZero && p.2.isInf) || (p.1.isInf && p.2.isZero)
def infPair (p : FV × FV) : Bool := p.1.isInf || p.2.isInf
def negPair (p : FV × FV) : Bool := p.1.isNeg != p.2.isNeg

section
variable {a b : List FV}

theorem blockSum_of_nan (h : ∃ p ∈ a.zip b, nanPair p = true) : blockSum a b = (.nan false, sigFlag (a ++ b)) :=
  if_pos (List.any_eq_true.mpr h)

theorem blockSum_of_bad (h₁ : ¬ ∃ p ∈ a.zip b, nanPair p = true) (h₂ : ∃ p ∈ a.zip b, badPair p = true) :
    blockSum a b = (.nan false, flagINV) :=
  (if_neg (mt List.any_eq_true.mp h₁)).trans (if_pos (List.any_eq_true.mpr h₂))

/-- The signs of the infinite products. -/
def infSigns (a b : List FV) : List Bool := ((a.zip b).filter infPair).map negPair

theorem mem_infSigns {n : Bool} : n ∈ infSigns a b ↔ ∃ p ∈ a.zip b, infPair p = true ∧ negPair p = n := by
  simp only [infSigns, List.mem_map, List.mem_filter, and_assoc]

/-- Without NaNs and invalid products, the infinities decide, and where there is none, the sum is exact. -/
theorem blockSum_of_valid (h₁ : ¬ ∃ p ∈ a.zip b, nanPair p = true) (h₂ : ¬ ∃ p ∈ a.zip b, badPair p = true) :
    blockSum a b =
      if (infSigns a b).contains true && (infSigns a b).contains false then (.nan false, flagINV)
      else match infSigns a b with
        | n :: _ => (.inf n, 0)
        | [] => match (a.zip b).map fun p => p.1.mulFin p.2 with
          | [] => (.fin false 0 0, 0)
          | x :: l => (l.foldl (FV.addFin .rn) x, 0) :=
  (if_neg (mt List.any_eq_true.mp h₁)).trans (if_neg (mt List.any_eq_true.mp h₂))

theorem blockSum_of_opposite (h₁ : ¬ ∃ p ∈ a.zip b, nanPair p = true) (h₂ : ¬ ∃ p ∈ a.zip b, badPair p = true)
    (ht : true ∈ infSigns a b) (hf : false ∈ infSigns a b) : blockSum a b = (.nan false, flagINV) := by
  rw [blockSum_of_valid h₁ h₂, if_pos (by simp [ht, hf])]

theorem blockSum_of_inf {n : Bool} (h₁ : ¬ ∃ p ∈ a.zip b, nanPair p = true) (h₂ : ¬ ∃ p ∈ a.zip b, badPair p = true)
    (hn : n ∈ infSigns a b) (hn' : (!n) ∉ infSigns a b) : blockSum a b = (.inf n, 0) := by
  have hboth : ¬ ((infSigns a b).contains true && (infSigns a b).contains false) = true := by
    cases n <;> simp_all
  rw [blockSum_of_valid h₁ h₂, if_neg hboth]
  cases hs : infSigns a b with
  | nil => simp [hs] at hn
  | cons i l =>
    have hi : i = n := by
      by_contra hne
      have : i = !n := by cases i <;> cases n <;> simp_all
      exact hn' (by simp [hs, this])
    rw [hi]

/-- Of finite elements, the products are summed in turn. -/
theorem blockSum_of_finite {x : FV} {l : List FV} (hfin : ∀ p ∈ a.zip b, ∃ n m e n' m' e', p = (FV.fin n m e, FV.fin n' m' e'))
    (hl : ((a.zip b).map fun p => p.1.mulFin p.2) = x :: l) : blockSum a b = (l.foldl (FV.addFin .rn) x, 0) := by
  have hnone : ∀ f : FV × FV → Bool, (∀ n m e n' m' e', f (FV.fin n m e, FV.fin n' m' e') = false) →
      ¬ ∃ p ∈ a.zip b, f p = true := by
    rintro f hf ⟨p, hp, hfp⟩
    obtain ⟨n, m, e, n', m', e', rfl⟩ := hfin p hp
    simp [hf] at hfp
  have hinf : infSigns a b = [] := by
    rw [infSigns, List.map_eq_nil_iff, List.filter_eq_nil_iff]
    exact fun p hp hip => hnone infPair (fun _ _ _ _ _ _ => rfl) ⟨p, hp, hip⟩
  rw [blockSum_of_valid (hnone _ fun _ _ _ _ _ _ => rfl) (hnone _ fun _ _ _ _ _ _ => by simp [badPair, FV.isInf]), hinf, hl]
  rfl

end

/-- Settles O33: each case of R122 by its lemma; for finite rows by induction over the products. -/
theorem blockSumsAreExact : Obligations.BlockSumsAreExact := by
  unfold Obligations.BlockSumsAreExact
  intro a b k ha hb ps INV infTimesZero infOf anyNaN
  have hnan : (∃ p ∈ a.zip b, nanPair p = true) ↔ anyNaN := by simp only [nanPair, Bool.or_eq_true, anyNaN, ps]
  have hbad : (∃ p ∈ a.zip b, badPair p = true) ↔ ∃ p ∈ ps, infTimesZero p := by
    simp only [badPair, Bool.or_eq_true, Bool.and_eq_true, infTimesZero, ps]
  have hinf : ∀ n, n ∈ infSigns a b ↔ ∃ p ∈ ps, infOf n p := fun n => by
    simp only [mem_infSigns, infPair, negPair, Bool.or_eq_true, infOf, ps]
  rw [← hnan, ← hbad]
  refine ⟨fun h => ?_, fun h₁ h₂ => blockSum_of_bad h₁ h₂, fun h₁ h₂ ht hf => ?_, fun n h₁ h₂ hn hn' => ?_, fun hfin => ?_⟩
  · rw [blockSum_of_nan h, sigFlag_eq_invOf]
  · exact blockSum_of_opposite h₁ h₂ ((hinf _).mpr ht) ((hinf _).mpr hf)
  · exact blockSum_of_inf h₁ h₂ ((hinf _).mpr hn) (mt (hinf _).mp hn')
  · have hprod : ∀ y ∈ ps.map fun p => p.1.mulFin p.2, y.FinFrom k := by
      intro y hy
      obtain ⟨p, hp, rfl⟩ := List.mem_map.mp hy
      obtain ⟨n, m, e, n', m', e', rfl, hk⟩ := hfin p hp
      exact ⟨_, _, _, rfl, hk⟩
    have hlen : ps.length = 32 := by simp [ps, ha, hb]
    obtain ⟨x, l, hxl⟩ : ∃ x l, (ps.map fun p => p.1.mulFin p.2) = x :: l :=
      List.exists_cons_of_ne_nil (by rw [Ne, List.map_eq_nil_iff]; rintro h; simp [h] at hlen)
    rw [hxl, List.forall_mem_cons] at hprod
    obtain ⟨hr, hsum, hneg⟩ := FV.foldl_addFin l x hprod.1 hprod.2
    have hblock : blockSum a b = (l.foldl (FV.addFin .rn) x, 0) := by
      refine blockSum_of_finite (fun p hp => ?_) hxl
      obtain ⟨n, m, e, n', m', e', h, -⟩ := hfin p hp
      exact ⟨n, m, e, n', m', e', h⟩
    obtain ⟨n, m, e, hre, hk⟩ := hr
    rw [hre] at hsum hneg hblock
    refine ⟨n, m, e, hblock, hk, hsum.trans ?_, fun hm => ?_⟩
    · rw [← hxl, List.map_map]
      rfl
    · rw [← hxl, FV.negZero_fin, List.forall_mem_map] at hneg
      simpa only [hm, beq_self_eq_true, Bool.true_and, FV.negZero, Bool.and_eq_true] using hneg

/-! ## Contexts -/

theorem State.ctx_id {s : State} {k : Nat} {c : Ctx} (h : s.ctx k = some c) : c.id = k := by
  simpa using List.find?_some h

theorem State.ctx_onCtx (s : State) (k u : Nat) (f : Ctx → Ctx) (hf : ∀ x, x.id = k → (f x).id = k) :
    (s.onCtx k f).ctx u = (s.ctx u).map fun x => if u = k then f x else x :=
  find_map_key Ctx.id s.en.ctxs k u f hf

theorem State.ctx_onCtx_self {s : State} {c : Ctx} (h : s.ctx c.id = some c) (f : Ctx → Ctx) (hf : ∀ x, x.id = c.id → (f x).id = c.id) :
    (s.onCtx c.id f).ctx c.id = some (f c) := by
  rw [State.ctx_onCtx s _ _ f hf, h]
  simp

theorem State.ctx_onCtx_ne (s : State) {k u : Nat} (h : u ≠ k) (f : Ctx → Ctx) (hf : ∀ x, x.id = k → (f x).id = k) :
    (s.onCtx k f).ctx u = s.ctx u := by
  rw [State.ctx_onCtx s _ _ f hf]
  simp [h]

/-- A thread's context is found through its team. -/
theorem State.ctxOf_some {s : State} {t : Thread} {c : Ctx} (h : s.ctxOf t = some c) :
    ∃ x, s.team t.place.team = some x ∧ x.ctx = c.id ∧ s.ctx c.id = some c := by
  obtain ⟨x, hx, hc⟩ := Option.bind_eq_some_iff.mp h
  have hid := State.ctx_id hc
  exact ⟨x, hx, hid.symm, hid ▸ hc⟩

theorem State.engineBusy_iff {s : State} {t : Thread} {c : Ctx} (h : s.ctxOf t = some c) :
    s.engineBusy t = true ↔ ∃ x ∈ s.en.ctxs, x.core = t.place.core ∧ x.id ≠ c.id ∧ x.mxq ≠ [] := by
  obtain ⟨x, hx, hid, -⟩ := State.ctxOf_some h
  simp [State.engineBusy, hx, hid, and_assoc]

/-! ## Issue of an MX instruction by one thread (R116, R117, R136) -/

section
variable {s : State} {h : Gd} {i : Instr} {t : Thread} {c : Ctx}

/-- A thread alone in its issue set takes the first free queue entry. -/
theorem State.Runs.rankOf (hr : s.Runs h i t) : s.rankOf h t = 0 := by
  simp [State.rankOf, hr.front]

theorem State.Runs.mxIssue (hr : s.Runs h i t) (ht : t.ctr.tiles < 63) (hc : s.mxCount t.place.core < 32) (f : Thread → Except Nat MxKind) :
    mxIssue i h f s = .next (if s.engineBusy t then s.holdFor t .engine
      else match f t with
        | .error e => s.trapHere t e 0 0 0
        | .ok k => s.mxPut t k) := by
  have hready : (s.mxAsk i h).ready t = true := by simp [State.mxAsk, hr.rankOf, ht, hc]
  have hgo := hr.fate (s.mxAsk i h) rfl rfl rfl hready
  rw [Machine.mxIssue, State.issue_alone hr.front hgo]
  rfl

variable (hr : s.Runs h i t) (ht : t.ctr.tiles < 63) (hc : s.mxCount t.place.core < 32) {f : Thread → Except Nat MxKind}
include hr ht hc

theorem State.Runs.mxIssue_waits (hb : s.engineBusy t = true) : Machine.mxIssue i h f s = .next (s.holdFor t .engine) := by
  rw [hr.mxIssue ht hc, if_pos hb]

theorem State.Runs.mxIssue_traps {e : Nat} (hb : ¬ s.engineBusy t = true) (hf : f t = .error e) :
    Machine.mxIssue i h f s = .next (s.trapHere t e 0 0 0) := by
  rw [hr.mxIssue ht hc, if_neg hb, hf]

theorem State.Runs.mxIssue_puts {k : MxKind} (hb : ¬ s.engineBusy t = true) (hf : f t = .ok k) :
    Machine.mxIssue i h f s = .next (s.mxPut t k) := by
  rw [hr.mxIssue ht hc, if_neg hb, hf]

end

/-- The context after an operation of a thread has entered its queue. -/
def State.queued (s : State) (t : Thread) (c : Ctx) (k : MxKind) : Ctx :=
  { c with
    mxq := c.mxq ++ [⟨⟨s.nextId, t.id, s.launchNo t, t.pos⟩, k⟩]
    mxrun := if c.mxq = [] then ⟨0, 0, false, false, none, [], s.clock.toNat, 0⟩ else c.mxrun }

theorem State.mxPut_queues {s : State} {t : Thread} {c : Ctx} (hctx : s.ctxOf t = some c) (ht : s.thread t.id = some t) (k : MxKind) :
    s.Queues (s.mxPut t k) t c (s.queued t c k) := by
  obtain ⟨-, -, -, hc⟩ := State.ctxOf_some hctx
  let put : Ctx → Ctx := fun x => { x with mxq := x.mxq ++ [⟨s.engOp t, k⟩], mxrun := if x.mxq.isEmpty then s.mxFresh else x.mxrun }
  let s₁ := { s with nextId := s.nextId + 1 }.onCtx c.id put
  have hput : put c = s.queued t c k := by
    simp only [put, State.queued, List.isEmpty_iff]
    rfl
  have heq : s.mxPut t k = (s₁.up t.id .tile).advance t.id := by
    rw [State.mxPut, hctx]
  have hup : (s₁.up t.id .tile).thread t.id = some { t with ctr := t.ctr.up .tile } :=
    State.thread_onThread_self (s := s₁) ht _ fun _ => id
  rw [heq, ← hput]
  constructor
  · exact State.thread_onThread_self (t := { t with ctr := t.ctr.up .tile }) hup Thread.advance fun _ => id
  · intro u hu
    exact (State.thread_onThread_ne _ hu Thread.advance fun _ => id).trans (State.thread_onThread_ne s₁ hu _ fun _ => id)
  · exact State.ctx_onCtx_self (s := { s with nextId := s.nextId + 1 }) hc put fun _ => id
  · intro x hx
    exact State.ctx_onCtx_ne { s with nextId := s.nextId + 1 } hx put fun _ => id
  · rfl

/-! ## Fields of words (R9) -/

theorem ofWords_div (l : List Word) (i : Nat) : ofWords l / 2 ^ (32 * i) = ofWords (l.drop i) := by
  induction i generalizing l with
  | zero => simp
  | succ i ih =>
    cases l with
    | nil => simp [ofWords]
    | cons w l =>
      have hw : (w.toNat + 2 ^ 32 * ofWords l) / 2 ^ 32 = ofWords l := by have := w.isLt; omega
      rw [List.drop_succ_cons, ← ih, ofWords, Nat.mul_succ, Nat.add_comm (32 * i), pow_add, ← Nat.div_div_eq_div_mul, hw]

theorem ofWords_mod (l : List Word) : ofWords l % 2 ^ 32 = (l.getD 0 0).toNat := by
  cases l with
  | nil => rfl
  | cons w l => simp only [ofWords, List.getD_cons_zero]; have := w.isLt; omega

/-- A field inside word i of a span. -/
theorem bitsOf_ofWords (l : List Word) {i hi lo : Nat} (hlo : lo ≤ hi) (hhi : hi < 32) :
    bitsOf (ofWords l) (32 * i + hi) (32 * i + lo) = bitsOf (l.getD i 0).toNat hi lo := by
  have hwidth : 32 * i + hi + 1 - (32 * i + lo) = hi + 1 - lo := by omega
  have hword : ofWords (l.drop i) % 2 ^ 32 = (l.getD i 0).toNat := by
    rw [ofWords_mod]; simp [List.getD_eq_getElem?_getD]
  have hdvd : 2 ^ lo * 2 ^ (hi + 1 - lo) ∣ 2 ^ 32 := by
    rw [← pow_add]; exact pow_dvd_pow 2 (by omega)
  rw [bitsOf, bitsOf, hwidth, pow_add, ← Nat.div_div_eq_div_mul, ofWords_div, ← hword, ← Nat.mod_mul_right_div_self,
    ← Nat.mod_mul_right_div_self, Nat.mod_mod_of_dvd _ hdvd]

/-! ## The parameter block (R119, R120) -/

/-- The block that eight registers hold, the lowest register holding the lowest bits (R119). -/
def paramBlock (f : Nat → Word) : Nat := ofWords ((List.range 8).map f)

section
variable (f : Nat → Word)

theorem bitsOf_paramBlock {i hi lo : Nat} (hi8 : i < 8) (hlo : lo ≤ hi) (hhi : hi < 32) :
    bitsOf (paramBlock f) (32 * i + hi) (32 * i + lo) = bitsOf (f i).toNat hi lo := by
  rw [paramBlock, bitsOf_ofWords _ hlo hhi]
  simp [List.getD_eq_getElem?_getD, hi8]

theorem bitsOf_word (w : Word) : bitsOf w.toNat 31 0 = w.toNat := by
  have := w.isLt
  simp only [bitsOf]
  omega

theorem mxBase_paramBlock (b : Bool) : mxBase (paramBlock f) b = (f (if b then 1 else 0)).toNat := by
  cases b
  · exact (bitsOf_paramBlock f (i := 0) (by decide) (by decide) (by decide)).trans (bitsOf_word _)
  · exact (bitsOf_paramBlock f (i := 1) (by decide) (by decide) (by decide)).trans (bitsOf_word _)

theorem mxKb_paramBlock : mxKb (paramBlock f) = (f 2).toNat % 2 ^ 16 := by
  rw [mxKb, bitsOf_paramBlock f (i := 2) (hi := 15) (lo := 0) (by decide) (by decide) (by decide)]
  simp [bitsOf]

theorem mxFmt_paramBlock : mxFmt (paramBlock f) = (f 2).toNat / 2 ^ 16 % 4 :=
  bitsOf_paramBlock f (i := 2) (hi := 17) (lo := 16) (by decide) (by decide) (by decide)

theorem strideField_paramBlock (b : Bool) :
    (if b then bitsOf (paramBlock f) 159 128 else bitsOf (paramBlock f) 127 96) = (f (if b then 4 else 3)).toNat := by
  cases b
  · exact (bitsOf_paramBlock f (i := 3) (by decide) (by decide) (by decide)).trans (bitsOf_word _)
  · exact (bitsOf_paramBlock f (i := 4) (by decide) (by decide) (by decide)).trans (bitsOf_word _)

theorem mxRegion_eq_regionOf (fmt : Nat) : mxRegion fmt = regionOf fmt := rfl

theorem mxStride_paramBlock (b : Bool) :
    mxStride (paramBlock f) b =
      if (f (if b then 4 else 3)).toNat = 0 then regionOf ((f 2).toNat / 2 ^ 16 % 4) else (f (if b then 4 else 3)).toNat := by
  rw [mxStride, strideField_paramBlock, mxFmt_paramBlock]
  rfl

/-- The reserved fields of a block (R119). -/
def mxReserved (blk : Nat) : Bool := bitsOf blk 255 160 != 0 || bitsOf blk 95 82 != 0

theorem mxReserved_paramBlock :
    mxReserved (paramBlock f) = true ↔ (f 5).toNat ≠ 0 ∨ (f 6).toNat ≠ 0 ∨ (f 7).toNat ≠ 0 ∨ (f 2).toNat / 2 ^ 18 ≠ 0 := by
  have hlow : bitsOf (paramBlock f) 95 82 = (f 2).toNat / 2 ^ 18 := by
    rw [bitsOf_paramBlock f (i := 2) (hi := 31) (lo := 18) (by decide) (by decide) (by decide)]
    have := (f 2).isLt
    simp only [bitsOf]
    omega
  have hhigh : bitsOf (paramBlock f) 255 160 = (f 5).toNat + 2 ^ 32 * ((f 6).toNat + 2 ^ 32 * (f 7).toNat) := by
    have h₅ := (f 5).isLt; have h₆ := (f 6).isLt; have h₇ := (f 7).isLt
    rw [bitsOf, paramBlock, ofWords_div _ 5]
    simp only [List.range, List.range.loop, List.map_cons, List.map_nil, List.drop_succ_cons, List.drop_zero, ofWords]
    omega
  simp only [mxReserved, hlow, hhigh, Bool.or_eq_true, bne_iff_ne]
  omega

/-- The fields of a block that are out of their ranges (R120). -/
def mxOutOfRange (die blk : Nat) : Prop :=
  mxKb blk = 0 ∨ 128 < mxKb blk ∨ bitsOf blk 127 96 % 64 ≠ 0 ∨ bitsOf blk 159 128 % 64 ≠ 0 ∨
    ∃ b, mxAddrOk die (mxBase blk b) ((mxKb blk - 1) * mxStride blk b + mxRegion (mxFmt blk)) = false

theorem mxCheck_of_reserved {die blk : Nat} (h : mxReserved blk = true) : mxCheck die blk = some 0x03 := if_pos h

theorem mxCheck_of_outOfRange {die blk : Nat} (h : ¬ mxReserved blk = true) (hr : mxOutOfRange die blk) : mxCheck die blk = some 0x02 := by
  refine (if_neg h).trans ?_
  split
  · rfl
  rename_i hkb
  split
  · rfl
  rename_i hstride
  refine if_neg fun hall => ?_
  simp only [Bool.or_eq_true, bne_iff_ne, not_or, not_not] at hstride
  rcases hr with h | h | h | h | ⟨b, hb⟩
  · exact hkb (.inl h)
  · exact hkb (.inr h)
  · exact h hstride.2
  · exact h hstride.1
  · have := List.all_eq_true.mp hall b (by cases b <;> decide)
    simp [hb] at this

theorem mxCheck_of_ok {die blk : Nat} (h : ¬ mxReserved blk = true) (hr : ¬ mxOutOfRange die blk) : mxCheck die blk = none := by
  simp only [mxOutOfRange, not_or, not_not, not_exists, Bool.not_eq_false] at hr
  obtain ⟨h₁, h₂, h₃, h₄, hb⟩ := hr
  refine (if_neg h).trans ((if_neg ?_).trans ((if_neg ?_).trans (if_pos ?_)))
  · rintro (h | h)
    · exact h₁ h
    · exact h₂ h
  · simp [h₃, h₄]
  · simp [hb]

end

/-- R120: a vault base of a core of the issuing die, aligned, with n bytes inside the vault. -/
def MxBaseOk (die va n : Nat) : Prop := va / 2 ^ 22 % 4 = 0 ∧ va / 2 ^ 30 = die ∧ va % 64 = 0 ∧ va % 2 ^ 22 + n ≤ 2 ^ 22

theorem mxAddrOk_iff {die n : Nat} (w : Word) : mxAddrOk die w.toNat n = true ↔ MxBaseOk die w.toNat n := by
  have hdie : w.toNat / 2 ^ 30 % 4 = w.toNat / 2 ^ 30 := by have := w.isLt; omega
  simp only [mxAddrOk, bitsOf, MxBaseOk, Bool.and_eq_true, beq_iff_eq, decide_eq_true_eq, and_assoc, Nat.reduceAdd, Nat.reduceSub, Nat.reducePow, Nat.div_one] at hdie ⊢
  rw [hdie]

theorem mxOutOfRange_paramBlock (die : Nat) (f : Nat → Word) :
    mxOutOfRange die (paramBlock f) ↔
      let kb := (f 2).toNat % 2 ^ 16
      let region := regionOf ((f 2).toNat / 2 ^ 16 % 4)
      let fits := fun (base stride : Nat) => MxBaseOk die base ((kb - 1) * (if stride = 0 then region else stride) + region)
      kb = 0 ∨ 128 < kb ∨ (f 3).toNat % 64 ≠ 0 ∨ (f 4).toNat % 64 ≠ 0 ∨
        ¬ fits (f 0).toNat (f 3).toNat ∨ ¬ fits (f 1).toNat (f 4).toNat := by
  have hA := strideField_paramBlock f false
  have hB := strideField_paramBlock f true
  simp only [Bool.false_eq_true, if_false, if_true] at hA hB
  simp only [mxOutOfRange, hA, hB, mxKb_paramBlock, mxFmt_paramBlock, mxBase_paramBlock, mxStride_paramBlock, mxRegion_eq_regionOf, ← Bool.not_eq_true,
    mxAddrOk_iff, Bool.exists_bool, Bool.false_eq_true, if_false, if_true]

/-- A slot counts as loaded once an MXLD of it has issued (R129). -/
theorem Ctx.loaded_iff (c : Ctx) (n : Nat) : c.loaded n = true ↔ c.slots.getD n none ≠ none ∨ ∃ o ∈ c.mxq, ∃ blk, o.kind = .ld n blk := by
  have hld (o : MxOp) : (match o.kind with | .ld m _ => m == n | _ => false) = true ↔ ∃ blk, o.kind = .ld n blk := by
    cases o.kind <;> simp
  have hany : (c.mxq.any fun o => match o.kind with | .ld m _ => m == n | _ => false) = true ↔ ∃ o ∈ c.mxq, ∃ blk, o.kind = .ld n blk := by
    simp only [List.any_eq_true, hld]
  rw [← hany, ← Option.isSome_iff_ne_none, ← Bool.or_eq_true]
  rfl

/-! ## What each MX instruction checks and enqueues (R129 to R133) -/

/-- What an MX instruction asks of its operands: the operation to enqueue, or the cause of its trap. MXLD: -/
def mxldKind (s : State) (a : Opnd) (slot : Nat) (t : Thread) : Except Nat MxKind :=
  match mxCheck t.place.core.die (paramBlock (s.rdReg t a)) with
  | some e => .error e
  | none => .ok (.ld slot (paramBlock (s.rdReg t a)))

/-- MXRUN: -/
def mxrunKind (s : State) (tl slot : Nat) (acc : Bool) (t : Thread) : Except Nat MxKind :=
  if (s.ctxOf t).any fun c => c.loaded slot then .ok (.run tl slot acc) else .error 0x02

/-- MXST: -/
def mxstKind (s : State) (tl : Nat) (a : Opnd) (form : MxForm) (relu : Bool) (scale : Option Opnd) (t : Thread) : Except Nat MxKind :=
  if mxAddrOk t.place.core.die (s.rd t a).toNat (formBytes form) then .ok (.st tl (s.rd t a).toNat form relu (scale.map fun o => s.rd t o))
  else .error 0x02

/-- MXLDA: -/
def mxldaKind (s : State) (tl : Nat) (a : Opnd) (f32 : Bool) (t : Thread) : Except Nat MxKind :=
  if mxAddrOk t.place.core.die (s.rd t a).toNat (if f32 then 4096 else 8192) then .ok (.lda tl (s.rd t a).toNat f32) else .error 0x02

section
variable (s : State) (h : Gd) (a : Opnd) (tl : Fin 8) (slot : Fin 4) (acc relu f32 : Bool) (form : MxForm) (scale : Option Opnd)

theorem exec_mxld : exec (.mxld h a slot) s = mxIssue (.mxld h a slot) h (mxldKind s a slot) s := rfl
theorem exec_mxrun : exec (.mxrun h tl slot acc) s = mxIssue (.mxrun h tl slot acc) h (mxrunKind s tl slot acc) s := rfl
theorem exec_mxz : exec (.mxz h tl) s = mxIssue (.mxz h tl) h (fun _ => .ok (.zero tl)) s := rfl
theorem exec_mxst : exec (.mxst h tl a form relu scale) s = mxIssue (.mxst h tl a form relu scale) h (mxstKind s tl a form relu scale) s := rfl
theorem exec_mxlda : exec (.mxlda h tl a f32) s = mxIssue (.mxlda h tl a f32) h (mxldaKind s tl a f32) s := rfl

end

section
variable {s : State} {t : Thread} {c : Ctx} {a : Opnd}

theorem mxldKind_of_some {slot e : Nat} (h : mxCheck t.place.core.die (paramBlock (s.rdReg t a)) = some e) : mxldKind s a slot t = .error e := by
  rw [mxldKind, h]

theorem mxldKind_of_none {slot : Nat} (h : mxCheck t.place.core.die (paramBlock (s.rdReg t a)) = none) :
    mxldKind s a slot t = .ok (.ld slot (paramBlock (s.rdReg t a))) := by
  rw [mxldKind, h]

theorem mxrunKind_of_loaded {tl slot : Nat} {acc : Bool} (hctx : s.ctxOf t = some c) (h : c.loaded slot = true) :
    mxrunKind s tl slot acc t = .ok (.run tl slot acc) :=
  if_pos (by simp [hctx, h])

theorem mxrunKind_of_unloaded {tl slot : Nat} {acc : Bool} (hctx : s.ctxOf t = some c) (h : ¬ c.loaded slot = true) :
    mxrunKind s tl slot acc t = .error 0x02 :=
  if_neg (by simp [hctx, h])

end

/-- Bytes of the region of a form of MXST (R133). -/
theorem formBytes_eq (form : MxForm) : formBytes form = match form with
    | .w48 => 8192 | .f32 => 4096 | .f16 => 2048 | .bf16 => 2048 := by
  cases form <;> rfl

/-- The first part of O32: checks at issue, traps and operations queued. -/
theorem mxInstructions_issue (s : State) (t : Thread) (c : Ctx) (h : Gd) (a : Opnd) (tl : Fin 8) (slot : Fin 4) (acc relu f32 : Bool) (form : MxForm)
    (scale : Option Opnd) (hctx : s.ctxOf t = some c) (ht : t.ctr.tiles < 63) (hc : s.mxCount t.place.core < 32) :
    let Waits := fun (i : Instr) => s.Runs h i t → exec i s = .next (s.holdFor t .engine)
    let Enq := fun (i : Instr) (k : MxKind) => s.Runs h i t → ∃ s', exec i s = .next s' ∧ s.Queues s' t c (s.queued t c k)
    let Traps := fun (i : Instr) (cause : Nat) => s.Runs h i t → exec i s = .next (s.trapHere t cause 0 0 0)
    (s.engineBusy t = true →
      Waits (.mxld h a slot) ∧ Waits (.mxrun h tl slot acc) ∧ Waits (.mxz h tl) ∧ Waits (.mxst h tl a form relu scale) ∧ Waits (.mxlda h tl a f32)) ∧
    (¬ s.engineBusy t = true →
      (∀ e, mxCheck t.place.core.die (paramBlock (s.rdReg t a)) = some e → Traps (.mxld h a slot) e) ∧
      (mxCheck t.place.core.die (paramBlock (s.rdReg t a)) = none → Enq (.mxld h a slot) (.ld slot (paramBlock (s.rdReg t a)))) ∧
      (c.loaded slot = true → Enq (.mxrun h tl slot acc) (.run tl slot acc)) ∧ (¬ c.loaded slot = true → Traps (.mxrun h tl slot acc) 0x02) ∧
      Enq (.mxz h tl) (.zero tl) ∧
      (MxBaseOk t.place.core.die (s.rd t a).toNat (formBytes form) →
        Enq (.mxst h tl a form relu scale) (.st tl (s.rd t a).toNat form relu (scale.map fun o => s.rd t o))) ∧
      (¬ MxBaseOk t.place.core.die (s.rd t a).toNat (formBytes form) → Traps (.mxst h tl a form relu scale) 0x02) ∧
      (MxBaseOk t.place.core.die (s.rd t a).toNat (if f32 then 4096 else 8192) → Enq (.mxlda h tl a f32) (.lda tl (s.rd t a).toNat f32)) ∧
      (¬ MxBaseOk t.place.core.die (s.rd t a).toNat (if f32 then 4096 else 8192) → Traps (.mxlda h tl a f32) 0x02)) := by
  intro Waits Enq Traps
  refine ⟨fun hb => ?_, fun hb => ?_⟩
  · have waits {i : Instr} {f : Thread → Except Nat MxKind} (he : exec i s = mxIssue i h f s) : Waits i :=
      fun hr => he.trans (hr.mxIssue_waits ht hc hb)
    exact ⟨waits (exec_mxld ..), waits (exec_mxrun ..), waits (exec_mxz ..), waits (exec_mxst ..), waits (exec_mxlda ..)⟩
  · have enq {i : Instr} {k : MxKind} {f : Thread → Except Nat MxKind} (he : exec i s = mxIssue i h f s) (hf : f t = .ok k) : Enq i k :=
      fun hr => ⟨_, he.trans (hr.mxIssue_puts ht hc hb hf), State.mxPut_queues hctx hr.thread k⟩
    have traps {i : Instr} {e : Nat} {f : Thread → Except Nat MxKind} (he : exec i s = mxIssue i h f s) (hf : f t = .error e) : Traps i e :=
      fun hr => he.trans (hr.mxIssue_traps ht hc hb hf)
    exact ⟨fun e he => traps (exec_mxld ..) (mxldKind_of_some he), fun hn => enq (exec_mxld ..) (mxldKind_of_none hn),
      fun hl => enq (exec_mxrun ..) (mxrunKind_of_loaded hctx hl), fun hl => traps (exec_mxrun ..) (mxrunKind_of_unloaded hctx hl),
      enq (exec_mxz ..) rfl,
      fun hva => enq (exec_mxst ..) (if_pos ((mxAddrOk_iff _).mpr hva)), fun hva => traps (exec_mxst ..) (if_neg (mt (mxAddrOk_iff _).mp hva)),
      fun hva => enq (exec_mxlda ..) (if_pos ((mxAddrOk_iff _).mpr hva)), fun hva => traps (exec_mxlda ..) (if_neg (mt (mxAddrOk_iff _).mp hva))⟩

end Sys2Proof.Machine

namespace Sys2Proof

/-! ## Masks and maxima -/

theorem listMax_cons (x : Nat) (l : List Nat) : listMax (x :: l) = max x (listMax l) := by
  have hfold : ∀ (l : List Nat) (a : Nat), l.foldl Nat.max a = max a (l.foldl Nat.max 0) := by
    intro l
    induction l with
    | nil => simp
    | cons y l ih =>
      intro a
      rw [List.foldl_cons, ih, List.foldl_cons, ih (Nat.max 0 y)]
      exact (max_assoc a y _).trans (by rw [show Nat.max 0 y = y from Nat.zero_max y])
  exact (hfold l _).trans (by rw [show Nat.max 0 x = x from Nat.zero_max x]; rfl)

/-- The largest of a list of one value, however often it stands there. -/
theorem listMax_of_forall_eq {l : List Nat} {y : Nat} (hne : l ≠ []) (h : ∀ x ∈ l, x = y) : listMax l = y := by
  induction l with
  | nil => exact absurd rfl hne
  | cons x l ih =>
    rw [listMax_cons, h x List.mem_cons_self]
    by_cases hl : l = []
    · simp [hl, listMax]
    · rw [ih hl fun z hz => h z (List.mem_cons_of_mem _ hz), max_self]

theorem maskOf_eq_sum {js : List Nat} (h : js.Nodup) : maskOf js = ∑ j ∈ js.toFinset, 2 ^ j := by
  rw [List.sum_toFinset _ h, maskOf, List.sum_eq_foldl, List.foldl_map]

/-- Bit x of a mask is set exactly where x is listed. -/
theorem testBit_maskOf {js : List Nat} (h : js.Nodup) (x : Nat) : (maskOf js).testBit x = true ↔ x ∈ js := by
  rw [← Nat.mem_bitIndices, maskOf_eq_sum h, ← List.mem_toFinset, Finset.toFinset_bitIndices_sum_two_pow, List.mem_toFinset]

theorem maskOf_lt {js : List Nat} {n : Nat} (h : js.Nodup) (hlt : ∀ j ∈ js, j < n) : maskOf js < 2 ^ n := by
  refine Nat.lt_pow_two_of_testBit _ fun i hi => ?_
  rw [← Bool.not_eq_true, testBit_maskOf h]
  exact fun hm => absurd (hlt i hm) (by omega)

theorem nodup_eraseDups {α : Type} [BEq α] [LawfulBEq α] : ∀ l : List α, l.eraseDups.Nodup
  | [] => by simp
  | a :: l => by
    rw [List.eraseDups_cons, List.nodup_cons, List.mem_eraseDups]
    exact ⟨by simp, nodup_eraseDups _⟩
termination_by l => l.length
decreasing_by exact Nat.lt_succ_of_le (List.length_filter_le _ _)

end Sys2Proof

namespace Sys2Proof.Machine

/-! ## Queries of the matrix engine (R134, R135) -/

/-- A query by one thread is answered at issue. -/
theorem State.Runs.mxQuery {s : State} {h : Gd} {i : Instr} {t : Thread} (hr : s.Runs h i t) (ht : t.ctr.tiles < 63) (d : Opnd) (f : State → Thread → List Word) :
    mxQuery i h d f s = .next ((s.advance t.id).wrSpan t true d (f s t)) := by
  have hready : (queryAsk i).ready t = true := by simp [queryAsk, ht]
  rw [Machine.mxQuery, State.issue_alone hr.front (hr.fate (queryAsk i) rfl rfl rfl hready)]
  simp only [List.foldl_cons, List.foldl_nil, isLead_alone]

theorem exec_mxqryOcc (h : Gd) (d : Opnd) (s : State) : exec (.mxqryOcc h d) s = mxQuery (.mxqryOcc h d) h d (fun s t => [s.mxOcc t]) s := rfl
theorem exec_mxqryEst (h : Gd) (d : Opnd) (s : State) :
    exec (.mxqryEst h d) s = mxQuery (.mxqryEst h d) h d (fun s t => toWords 2 (s.mxEst t).toNat) s := rfl

theorem State.mem_mxBusy {s : State} {core : CoreId} {b : Ctx} : b ∈ s.mxBusy core ↔ b ∈ s.en.ctxs ∧ b.core = core ∧ b.mxq ≠ [] := by
  simp [State.mxBusy]

/-- The fields of the word of MXQRY.OCC (R134). -/
theorem occWord_fields {n tiles slots : Nat} {stopped : Bool} (hn : n < 2 ^ 8) (ht : tiles < 2 ^ 8) (hs : slots < 2 ^ 4) :
    let w := BitVec.ofNat 32 (n + tiles * 2 ^ 8 + slots * 2 ^ 16 + if stopped then 2 ^ 20 else 0)
    w.toNat % 2 ^ 8 = n ∧ (∀ x, x < 8 → w.getLsbD (8 + x) = tiles.testBit x) ∧ (∀ x, x < 4 → w.getLsbD (16 + x) = slots.testBit x) ∧
      w.getLsbD 20 = stopped ∧ w.toNat < 2 ^ 21 := by
  intro w
  have hsum : n + tiles * 2 ^ 8 + slots * 2 ^ 16 + (if stopped then 2 ^ 20 else 0) = 2 ^ 8 * (2 ^ 8 * (2 ^ 4 * stopped.toNat + slots) + tiles) + n := by
    cases stopped <;> simp <;> ring
  have hst := Bool.toNat_le stopped
  have hw : w.toNat = 2 ^ 8 * (2 ^ 8 * (2 ^ 4 * stopped.toNat + slots) + tiles) + n := by
    rw [← hsum, BitVec.toNat_ofNat, Nat.mod_eq_of_lt]
    rw [hsum]; omega
  refine ⟨by rw [hw]; omega, fun x hx => ?_, fun x hx => ?_, ?_, by rw [hw]; omega⟩
  · rw [BitVec.getLsbD, hw, Nat.testBit_two_pow_mul_add _ hn, if_neg (by omega), Nat.testBit_two_pow_mul_add _ ht, if_pos (by omega), Nat.add_sub_cancel_left]
  · rw [BitVec.getLsbD, hw, Nat.testBit_two_pow_mul_add _ hn, if_neg (by omega), Nat.testBit_two_pow_mul_add _ ht, if_neg (by omega),
      Nat.testBit_two_pow_mul_add _ hs, if_pos (by omega), show 16 + x - 8 - 8 = x by omega]
  · rw [BitVec.getLsbD, hw, Nat.testBit_two_pow_mul_add _ hn, if_neg (by omega), Nat.testBit_two_pow_mul_add _ ht, if_neg (by omega),
      Nat.testBit_two_pow_mul_add _ hs, if_neg (by omega)]
    cases stopped <;> rfl

/-- R134: what MXQRY.OCC shows. -/
theorem State.mxOcc_fields {s : State} {t : Thread} {c : Ctx} (hctx : s.ctxOf t = some c) (hcount : s.mxCount t.place.core ≤ 32)
    (htile : ∀ b ∈ s.mxBusy t.place.core, ∀ o ∈ b.mxq, ∀ x, o.kind.tile = some x → x < 8) :
    let w := s.mxOcc t
    w.toNat % 2 ^ 8 = s.mxCount t.place.core ∧
      (∀ x, x < 8 → (w.getLsbD (8 + x) = true ↔ ∃ b ∈ s.mxBusy t.place.core, ∃ o ∈ b.mxq, o.kind.tile = some x)) ∧
      (∀ x, x < 4 → (w.getLsbD (16 + x) = true ↔ c.loaded x = true)) ∧
      (w.getLsbD 20 = true ↔ ∃ b ∈ s.mxBusy t.place.core, b.mxrun.stopped = true) ∧ w.toNat < 2 ^ 21 := by
  have mem_tiles : ∀ x, x ∈ (((s.mxBusy t.place.core).flatMap fun c => c.mxq.filterMap fun o => o.kind.tile).eraseDups) ↔
      ∃ b ∈ s.mxBusy t.place.core, ∃ o ∈ b.mxq, o.kind.tile = some x := fun x => by
    rw [List.mem_eraseDups]
    simp
  have tiles_lt : ∀ x ∈ (((s.mxBusy t.place.core).flatMap fun c => c.mxq.filterMap fun o => o.kind.tile).eraseDups), x < 8 := by
    intro x hx
    obtain ⟨b, hb, o, ho, hx⟩ := (mem_tiles x).mp hx
    exact htile b hb o ho x hx
  have slots_nodup : ((List.range 4).filter fun n => (s.ctxOf t).any fun c => c.loaded n).Nodup := List.nodup_range.filter _
  have slots_lt : ∀ x ∈ ((List.range 4).filter fun n => (s.ctxOf t).any fun c => c.loaded n), x < 4 := fun x hx =>
    List.mem_range.mp (List.mem_of_mem_filter hx)
  obtain ⟨hn, htiles, hslots, hstop, hlt⟩ := occWord_fields (n := s.mxCount t.place.core) (stopped := (s.mxBusy t.place.core).any fun c => c.mxrun.stopped)
    (by omega) (maskOf_lt (nodup_eraseDups _) tiles_lt) (maskOf_lt slots_nodup slots_lt)
  refine ⟨hn, fun x hx => ?_, fun x hx => ?_, ?_, hlt⟩
  · rw [State.mxOcc, htiles x hx, testBit_maskOf (nodup_eraseDups _), mem_tiles]
  · rw [State.mxOcc, hslots x hx, testBit_maskOf slots_nodup]
    simp [hctx, hx]
  · rw [State.mxOcc, hstop, List.any_eq_true]

/-- R22: the lateral latency between cores of a mesh of eight columns. -/
theorem lateral_eq (a b : Nat) : lateral a b =
    if b = a then 0 else 40 + 4 * ((a % 8 - b % 8) + (b % 8 - a % 8) + ((a / 8 - b / 8) + (b / 8 - a / 8))) := by
  have dist (x y : Nat) : Nat.max x y - Nat.min x y = (x - y) + (y - x) := by
    show max x y - min x y = _
    omega
  simp only [lateral, dist, eq_comm]

/-- R135: the end of a queue of one operation. -/
theorem Ctx.mxEnd_single {b : Ctx} {o : MxOp} (h : b.mxq = [o]) :
    b.mxEnd = b.mxrun.since + 1500 * b.mxrun.assists + mxCycles b.core.core b.slots o.kind := by
  rw [Ctx.mxEnd, h]
  obtain ⟨e, k⟩ := o
  cases k <;> rfl

/-- R134: MXQRY.EST of an empty queue gives the present cycle. -/
theorem State.mxEst_idle {s : State} {t : Thread} (h : ∀ b, b ∉ s.mxBusy t.place.core) : s.mxEst t = s.clock := by
  rw [State.mxEst, List.eq_nil_iff_forall_not_mem.mpr h, List.map_nil, listMax_of_forall_eq (y := s.clock.toNat) (by simp) (by simp)]
  simp

/-- R134: MXQRY.EST where one context works for the core. -/
theorem State.mxEst_busy {s : State} {t : Thread} {b : Ctx} (hb : b ∈ s.mxBusy t.place.core) (hone : ∀ y ∈ s.mxBusy t.place.core, y = b) :
    s.mxEst t = BitVec.ofNat 64 (max b.mxEnd s.clock.toNat) := by
  have hends : listMax ((s.mxBusy t.place.core).map Ctx.mxEnd) = b.mxEnd :=
    listMax_of_forall_eq (by simpa using List.ne_nil_of_mem hb) fun x hx => by
      obtain ⟨y, hy, rfl⟩ := List.mem_map.mp hx
      rw [hone y hy]
  rw [State.mxEst, listMax_cons, hends, max_comm]

theorem toWords_two (x : Dword) : toWords 2 x.toNat = lohi x := by
  have hword (lo : Nat) : BitVec.ofNat 32 (x.toNat / 2 ^ lo) = x.extractLsb' lo 32 := by
    apply BitVec.eq_of_toNat_eq
    simp [Nat.shiftRight_eq_div_pow]
  exact congrArg₂ (fun a b => [a, b]) (hword 0) (hword 32)

/-- Settles O32: an issue by one thread is `mxIssue` of what the instruction checks, and the queries are those of `mxOcc` and `mxEst`. -/
theorem matrixInstructionsIssue : Obligations.MatrixInstructionsIssue := by
  unfold Obligations.MatrixInstructionsIssue
  refine ⟨?_, ?_⟩
  · intro s t c h a tl slot acc relu f32 form scale hctx ht hc busy Waits
    obtain ⟨waits, issues⟩ := mxInstructions_issue s t c h a tl slot acc relu f32 form scale hctx ht hc
    have hbusy : s.engineBusy t = true ↔ busy := State.engineBusy_iff hctx
    refine ⟨fun hb => waits (hbusy.mpr hb), fun hb => ?_⟩
    intro Enq Traps w fmt kb side reserved bad region size loaded
    obtain ⟨ldTraps, ldEnq, runEnq, runTraps, zEnq, stEnq, stTraps, ldaEnq, ldaTraps⟩ := issues (mt hbusy.mp hb)
    have hreserved : mxReserved (paramBlock (s.rdReg t a)) = true ↔ reserved := mxReserved_paramBlock _
    have hbad : mxOutOfRange t.place.core.die (paramBlock (s.rdReg t a)) ↔ bad := by
      rw [mxOutOfRange_paramBlock]
      simp only [MxBaseOk, ← add_assoc]
      rfl
    have hloaded : c.loaded slot.val = true ↔ loaded := c.loaded_iff slot.val
    have hregion : ∀ n, MxBaseOk t.place.core.die (s.rd t a).toNat n ↔ region n := fun _ => Iff.rfl
    have hsize : formBytes form = size := formBytes_eq form
    rw [hsize] at stEnq stTraps
    exact ⟨fun hr => ldTraps _ (mxCheck_of_reserved (hreserved.mpr hr)),
      fun hr hb => ldTraps _ (mxCheck_of_outOfRange (mt hreserved.mp hr) (hbad.mpr hb)),
      fun hr hb => ldEnq (mxCheck_of_ok (mt hreserved.mp hr) (mt hbad.mp hb)),
      fun hl => runEnq (hloaded.mpr hl), fun hl => runTraps (mt hloaded.mp hl), zEnq,
      fun hv => stEnq ((hregion _).mpr hv), fun hv => stTraps (mt (hregion _).mp hv),
      fun hv => ldaEnq ((hregion _).mpr hv), fun hv => ldaTraps (mt (hregion _).mp hv)⟩
  · intro s t c h d hctx ht fmtOf hops far busy cycles
    have hbusy : ∀ b, b ∈ s.mxBusy t.place.core ↔ busy b := fun b => State.mem_mxBusy
    refine ⟨fun hr hcount htile => ?_, fun hr => ?_⟩
    · obtain ⟨hn, htiles, hslots, hstop, hlt⟩ := State.mxOcc_fields hctx hcount fun b hb => htile b ((hbusy b).mp hb)
      simp only [hbusy] at htiles hstop
      have hwrites := State.writes_wrSpan hr.thread Thread.advance (fun _ => rfl) rfl rfl d [s.mxOcc t]
      refine ⟨_, s.mxOcc t, (exec_mxqryOcc h d s).trans (hr.mxQuery ht d _), hwrites, hn, htiles, fun x hx => ?_, hstop, hlt⟩
      rw [hslots x hx, c.loaded_iff]
    · refine ⟨_, s.mxEst t, (exec_mxqryEst h d s).trans (hr.mxQuery ht d _), ?_, fun hidle => State.mxEst_idle fun b hb => hidle b ((hbusy b).mp hb), fun b o hb hone hq => ?_⟩
      · rw [toWords_two]
        exact State.writes_wrSpan hr.thread Thread.advance (fun _ => rfl) rfl rfl d _
      · have hfar : ∀ va, lateral t.place.core.core (bitsOf va 29 24) = far va := fun va => lateral_eq _ _
        have hcycles : mxCycles t.place.core.core b.slots o.kind = cycles b o.kind := by
          cases o.kind with
          | ld _ _ => rfl
          | zero _ => rfl
          | run t slot acc => simp only [mxCycles, hfar]; simp [cycles, fmtOf, mxFmt, mxKb, mxBase, bitsOf]
          | st t va form relu scale => cases form <;> simp only [mxCycles, hfar] <;> rfl
          | lda t va f32 => cases f32 <;> simp only [mxCycles, hfar] <;> rfl
        rw [State.mxEst_busy ((hbusy b).mpr hb) fun y hy => hone y ((hbusy y).mp hy), Ctx.mxEnd_single hq, hb.2.1, hcycles]

/-! ## The head of the queue (R118) -/

theorem State.thread_id {s : State} {k : Nat} {t : Thread} (h : s.thread k = some t) : t.id = k := by
  simpa using List.find?_some h

section
variable {s : State} {c : Ctx} {o : MxOp} {l : List MxOp} {t : Thread}

theorem State.EngineAt.mxHead (he : s.EngineAt c o l t) : s.mxHead c.id = some (c, o) := by
  simp [State.mxHead, he.ctx, he.head, he.going, he.unstalled, he.alive]

theorem State.EngineAt.tid (he : s.EngineAt c o l t) : o.eng.tid = t.id := (State.thread_id he.issuer).symm

theorem State.EngineAt.thread (he : s.EngineAt c o l t) : s.thread t.id = some t := he.tid ▸ he.issuer

theorem State.tileDone_live {s : State} {t : Thread} (ht : s.thread t.id = some t) (hl : t.exited = false) (fl : Flags) :
    s.tileDone t.id fl = (s.down t.id .tile).addFlags t.id fl := by
  simp [State.tileDone, ht, hl]

/-- The operation at the head completes in a state that differs from s in its own context, by F, and outside memory and the threads. -/
theorem State.EngineAt.mxPop_finishes (he : s.EngineAt c o l t) {s₁ : State} {F : Ctx → Ctx} (hid : ∀ x, (F x).id = x.id) (hq : (F c).mxq = c.mxq)
    (hctxs : s₁.en.ctxs = (s.onCtx c.id F).en.ctxs) (hwk : s₁.wk = s.wk) (hclock : s₁.clock = s.clock) (hmem : s₁.ms.mem = s.ms.mem) (fl : Flags) :
    s.Finishes (s₁.mxPop c.id t.id fl) c (F c) l t fl := by
  let pop : Ctx → Ctx := fun x => { x with mxq := x.mxq.drop 1, mxrun := s₁.mxFresh }
  have thread_eq : ∀ u, s₁.thread u = s.thread u := State.thread_eq (congrArg _ hwk)
  have ht : (s₁.onCtx c.id pop).thread t.id = some t := (thread_eq _).trans he.thread
  have hdown : ((s₁.onCtx c.id pop).down t.id .tile).thread t.id = some { t with ctr := t.ctr.down .tile } :=
    State.thread_onThread_self ht _ fun _ => id
  have heq : s₁.mxPop c.id t.id fl = ((s₁.onCtx c.id pop).down t.id .tile).addFlags t.id fl := State.tileDone_live ht he.live fl
  have ctx_eq : ∀ u, s₁.ctx u = (s.onCtx c.id F).ctx u := fun u => by rw [State.ctx, State.ctx, hctxs]
  have hF : ∀ x : Ctx, x.id = c.id → (F x).id = c.id := fun x hx => (hid x).trans hx
  have hc : s₁.ctx (F c).id = some (F c) := (ctx_eq _).trans (hid c ▸ State.ctx_onCtx_self he.ctx F hF)
  have hpop : pop (F c) = { F c with mxq := l, mxrun := ⟨0, 0, false, false, none, [], s.clock.toNat, 0⟩ } := by
    simp only [pop, hq, he.head, State.mxFresh, hclock]
    rfl
  rw [heq]
  constructor
  · exact hpop ▸ hid c ▸ State.ctx_onCtx_self hc pop fun _ => id
  · intro x hx
    exact (State.ctx_onCtx_ne s₁ hx pop fun _ => id).trans ((ctx_eq x).trans (State.ctx_onCtx_ne s hx F hF))
  · exact State.thread_onThread_self (t := { t with ctr := t.ctr.down .tile }) hdown _ fun _ => id
  · intro u hu
    exact (State.thread_onThread_ne _ hu _ (by exact fun _ => id)).trans ((State.thread_onThread_ne (s₁.onCtx c.id pop) hu _ (by exact fun _ => id)).trans (thread_eq u))
  · exact hmem

/-! ## Tiles -/

/-- A context with a tile written whole, which holds no error then. -/
def Ctx.withTile (c : Ctx) (tl : Nat) (vals : List Nat) : Ctx :=
  { c with tiles := c.tiles.set tl vals, badElems := c.badElems.filter fun n => n / 1024 != tl }

theorem Ctx.withTile_elem {c : Ctx} {tl : Nat} (h : tl < c.tiles.length) (vals : List Nat) (n : Nat) :
    (c.withTile tl vals).elem tl n = vals.getD n 0 := by
  simp [Ctx.elem, Ctx.withTile, List.getD_eq_getElem?_getD, h]

/-- Only the tile and its errors differ. -/
theorem Ctx.withTile_others (c : Ctx) (tl : Nat) (vals : List Nat) :
    (c.withTile tl vals = { c with tiles := (c.withTile tl vals).tiles, badElems := (c.withTile tl vals).badElems }) ∧
      (∀ u, u ≠ tl → (c.withTile tl vals).tiles.getD u [] = c.tiles.getD u []) ∧
      ∀ k, k ∈ (c.withTile tl vals).badElems ↔ k ∈ c.badElems ∧ k / 1024 ≠ tl := by
  refine ⟨rfl, fun u hu => ?_, fun k => ?_⟩
  · simp [Ctx.withTile, List.getD_eq_getElem?_getD, List.getElem?_set_ne hu.symm]
  · simp [Ctx.withTile]

/-- An operation that writes its tile whole completes. -/
theorem State.EngineAt.setTile_finishes (he : s.EngineAt c o l t) (tl : Nat) (vals : List Nat) (fl : Flags) :
    s.Finishes ((s.setTile c.id tl vals).mxPop c.id t.id fl) c (c.withTile tl vals) l t fl :=
  he.mxPop_finishes (F := fun x => x.withTile tl vals) (fun _ => rfl) rfl rfl rfl rfl rfl fl

@[simp] theorem State.mxPop_ms (s : State) (cx tid : Nat) (fl : Flags) : (s.mxPop cx tid fl).ms = s.ms := by
  unfold State.mxPop State.tileDone
  split
  · rfl
  · split <;> rfl

/-! ## Vault words of an operation (R127, R233) -/

theorem mem_wordsOf {a n w : Nat} : w ∈ wordsOf a n ↔ w % 4 = 0 ∧ a < w + 4 ∧ w < a + n := by
  simp only [wordsOf, List.mem_map, List.mem_range]
  constructor
  · rintro ⟨i, hi, rfl⟩
    omega
  · rintro ⟨h₀, h₁, h₂⟩
    exact ⟨w / 4 - a / 4, by omega, by omega⟩

theorem wordsOf_rising (a n : Nat) : (wordsOf a n).Pairwise (· < ·) := by
  refine List.pairwise_map.mpr (List.pairwise_lt_range.imp fun h => ?_)
  omega

/-- In a rising list, the first that passes a test is the least that does. -/
theorem le_of_find?_rising {l : List Nat} {p : Nat → Bool} {a w : Nat} (hl : l.Pairwise (· < ·)) (ha : l.find? p = some a) (hw : w ∈ l) (hp : p w = true) :
    a ≤ w := by
  obtain ⟨-, as, bs, rfl, has⟩ := List.find?_eq_some_iff_append.mp ha
  rcases List.mem_append.mp hw with h | h
  · exact absurd hp (by simpa using has w h)
  · rcases List.mem_cons.mp h with rfl | h
    · exact le_rfl
    · exact (List.rel_of_pairwise_cons (List.pairwise_append.mp hl).2.1 h).le

theorem State.badWord_eq_none {s : State} {spans : List (Nat × Nat)} :
    s.badWord spans = none ↔ ∀ p ∈ spans, ∀ w ∈ wordsOf p.1 p.2, w ∉ s.ms.vpoison := by
  simp only [State.badWord, List.find?_eq_none, List.mem_flatMap, List.contains_iff_mem]
  exact ⟨fun h p hp w hw => h w ⟨p, hp, hw⟩, fun h w ⟨p, hp, hw⟩ => h p hp w hw⟩

/-- The first poisoned word of one span is poisoned, and the lowest of the span. -/
theorem State.badWord_span {s : State} {a n w : Nat} (h : s.badWord [(a, n)] = some w) :
    (w ∈ s.ms.vpoison ∧ w ∈ wordsOf a n) ∧ ∀ x ∈ wordsOf a n, x ∈ s.ms.vpoison → w ≤ x := by
  simp only [State.badWord, List.flatMap_cons, List.flatMap_nil, List.append_nil] at h
  exact ⟨⟨by simpa using List.find?_some h, List.mem_of_find?_eq_some h⟩,
    fun x hx hbad => le_of_find?_rising (wordsOf_rising a n) h hx (by simpa using hbad)⟩

theorem State.mxFault_eq_none {s : State} {c : Ctx} {vas : List Nat} (h : ∀ va ∈ vas, s.engineSees c va) : s.mxFault c vas = none := by
  refine List.find?_eq_none.mpr fun va hva => ?_
  obtain ⟨hdie, hlive, hrow⟩ := h va hva
  have hbits : bitsOf va 31 30 = va / 2 ^ 30 % 4 ∧ bitsOf va 29 24 = va / 2 ^ 24 % 64 := ⟨rfl, rfl⟩
  have hcore : va / 2 ^ 24 % 64 < 64 := Nat.mod_lt _ (by decide)
  simp only [State.vaultCore, Part.hasCore, Part.hasRow, hbits, hdie, hlive, hrow, hcore]
  decide

end

/-! ## MXLD, MXZ and MXLDA (R129, R131, R132) -/

/-- The union of the flags of a list (R124). -/
theorem foldl_or_getLsbD {α : Type} (l : List (α × Flags)) (f : Flags) (k : Nat) :
    (l.foldl (fun f p => f ||| p.2) f).getLsbD k = true ↔ f.getLsbD k = true ∨ ∃ p ∈ l, p.2.getLsbD k = true := by
  induction l generalizing f with
  | nil => simp
  | cons p l ih => simp [ih, or_assoc]

section
variable {s : State} {c : Ctx} {e : EngOp} {l : List MxOp} {t : Thread}

theorem State.EngineAt.mxld {slot blk : Nat} (he : s.EngineAt c ⟨e, .ld slot blk⟩ l t) :
    exec (.mxldOperation c.id) s = .next ((s.onCtx c.id fun x => { x with slots := x.slots.set slot (some blk) }).mxPop c.id t.id 0) := by
  show execMxldOperation c.id s = _
  rw [execMxldOperation, he.mxHead, ← he.tid]

theorem State.EngineAt.mxz {tl : Nat} (he : s.EngineAt c ⟨e, .zero tl⟩ l t) :
    exec (.mxzOperation c.id) s = .next ((s.setTile c.id tl []).mxPop c.id t.id 0) := by
  show execMxzOperation c.id s = _
  rw [execMxzOperation, he.mxHead, ← he.tid]

/-- Element n of the region that an MXLDA reads, as it enters the tile, with its flags (R132). -/
def State.ldaElem (s : State) (va : Nat) (f32 : Bool) (n : Nat) : Nat × Flags :=
  let sz := if f32 then 4 else 8
  let x := ofBytes (s.ms.vault.readN (va + sz * n) sz)
  if f32 then cvtFF w48 .rn (fp32.decode x) else (x % 2 ^ 48, 0)

theorem State.EngineAt.mxlda_poisoned {tl va a : Nat} {f32 : Bool} (he : s.EngineAt c ⟨e, .lda tl va f32⟩ l t) (hva : s.engineSees c va)
    (hbad : s.badWord [(va, 1024 * if f32 then 4 else 8)] = some a) :
    exec (.mxldaOperation c.id) s = .next (s.mxPoison c.id t.id tl a) := by
  have hf : s.mxFault c [va] = none := State.mxFault_eq_none (by simpa using hva)
  show execMxldaOperation c.id s = _
  simp only [execMxldaOperation, he.mxHead, hf, hbad, ← he.tid]

theorem State.EngineAt.mxlda_loads {tl va : Nat} {f32 : Bool} (he : s.EngineAt c ⟨e, .lda tl va f32⟩ l t) (hva : s.engineSees c va)
    (hbad : s.badWord [(va, 1024 * if f32 then 4 else 8)] = none) :
    exec (.mxldaOperation c.id) s = .next ((s.setTile c.id tl (((List.range 1024).map (s.ldaElem va f32)).map Prod.fst)).mxPop c.id t.id
      (((List.range 1024).map (s.ldaElem va f32)).foldl (fun f p => f ||| p.2) 0)) := by
  have hf : s.mxFault c [va] = none := State.mxFault_eq_none (by simpa using hva)
  show execMxldaOperation c.id s = _
  simp only [execMxldaOperation, he.mxHead, hf, hbad, ← he.tid]
  rfl

/-- R127: over poison, an operation leaves NaNs in its tile, and a cause for its thread. -/
theorem State.EngineAt.mxPoison_finishes {o : MxOp} (he : s.EngineAt c o l t) (tl a : Nat) :
    ∃ s₁, s.mxPoison c.id t.id tl a = s₁.cause t.id ⟨0x20, 1, a, 2, false, none⟩ ∧ s₁.ms = s.ms ∧
      s.Finishes s₁ c (c.withTile tl (flatTile w48.qnan)) l t 0 := by
  have hfin := he.setTile_finishes tl (flatTile w48.qnan) 0
  refine ⟨(s.setTile c.id tl (flatTile w48.qnan)).mxPop c.id t.id 0, ?_, State.mxPop_ms .., hfin⟩
  rw [State.mxPoison, State.causeLive, hfin.self]
  simp only [he.live]
  rfl

theorem flatTile_getD {v n : Nat} (h : n < 1024) : (flatTile v).getD n 0 = v := by
  rw [flatTile, List.getD_eq_getElem?_getD, List.getElem?_replicate, if_pos h, Option.getD_some]

theorem rangeMap_getD {f : Nat → Nat} {n : Nat} (h : n < 1024) : ((List.range 1024).map f).getD n 0 = f n := by
  simp [List.getD_eq_getElem?_getD, h]

end

/-- Nothing of a context but one tile and its errors differs. -/
def Ctx.OnlyTile (c : Ctx) (tl : Nat) (c' : Ctx) : Prop :=
  c' = { c with tiles := c'.tiles, badElems := c'.badElems } ∧
    (∀ u, u ≠ tl → c'.tiles.getD u [] = c.tiles.getD u []) ∧ ∀ k, k ∈ c'.badElems ↔ k ∈ c.badElems ∧ k / 1024 ≠ tl

/-- A poisoned word under n bytes at va. -/
def State.BadAt (s : State) (va n a : Nat) : Prop := a ∈ s.ms.vpoison ∧ a % 4 = 0 ∧ va < a + 4 ∧ a < va + n

theorem State.badAt_iff {s : State} {va n a : Nat} : s.BadAt va n a ↔ a ∈ s.ms.vpoison ∧ a ∈ wordsOf va n := by
  rw [mem_wordsOf, State.BadAt]

theorem State.badWord_none_span {s : State} {va n : Nat} : s.badWord [(va, n)] = none ↔ ¬ ∃ a, s.BadAt va n a := by
  simp only [State.badWord_eq_none, State.badAt_iff, List.mem_singleton, forall_eq, not_exists, not_and]
  exact ⟨fun h a hbad ha => h a ha hbad, fun h a ha hbad => h a hbad ha⟩

/-- The first part of O34: operations that load or clear whole. -/
theorem mxLoads_run (s : State) (c : Ctx) (e : EngOp) (l : List MxOp) (t : Thread) (slot blk tl va : Nat) (f32 : Bool) (htl : tl < c.tiles.length) :
    (s.EngineAt c ⟨e, .ld slot blk⟩ l t → ∃ s', exec (.mxldOperation c.id) s = .next s' ∧ s'.ms.vault = s.ms.vault ∧
      s.Finishes s' c { c with slots := c.slots.set slot (some blk) } l t 0) ∧
    (s.EngineAt c ⟨e, .zero tl⟩ l t → ∃ s' c', exec (.mxzOperation c.id) s = .next s' ∧ s'.ms.vault = s.ms.vault ∧
      s.Finishes s' c c' l t 0 ∧ c.OnlyTile tl c' ∧ ∀ n, c'.elem tl n = 0) ∧
    (s.EngineAt c ⟨e, .lda tl va f32⟩ l t → s.engineSees c va →
      let span := 1024 * if f32 then 4 else 8
      ((∃ a, s.BadAt va span a) →
        ∃ s' s₁ c' a, s.BadAt va span a ∧ (∀ w, s.BadAt va span w → a ≤ w) ∧ exec (.mxldaOperation c.id) s = .next s' ∧ s'.ms.vault = s.ms.vault ∧
          s.Finishes s₁ c c' l t 0 ∧ c.OnlyTile tl c' ∧ (∀ n, n < 1024 → c'.elem tl n = 0x7FC000000000) ∧
          s' = s₁.cause t.id ⟨0x20, 1, a, 2, false, none⟩) ∧
      ((¬ ∃ a, s.BadAt va span a) →
        ∃ s' c' fl, exec (.mxldaOperation c.id) s = .next s' ∧ s'.ms.vault = s.ms.vault ∧ s.Finishes s' c c' l t fl ∧ c.OnlyTile tl c' ∧
          (∀ n, n < 1024 → c'.elem tl n = (s.ldaElem va f32 n).1) ∧
          ∀ k, fl.getLsbD k = true ↔ ∃ n, n < 1024 ∧ (s.ldaElem va f32 n).2.getLsbD k = true)) := by
  refine ⟨fun he => ?_, fun he => ?_, fun he hva => ?_⟩
  · refine ⟨_, he.mxld, congrArg MemState.vault (State.mxPop_ms ..), ?_⟩
    exact he.mxPop_finishes (F := fun x => { x with slots := x.slots.set slot (some blk) }) (fun _ => rfl) rfl rfl rfl rfl rfl 0
  · refine ⟨_, _, he.mxz, congrArg MemState.vault (State.mxPop_ms ..), he.setTile_finishes tl [] 0, c.withTile_others tl [], fun n => ?_⟩
    rw [Ctx.withTile_elem htl, List.getD_nil]
  · intro span
    refine ⟨fun hbad => ?_, fun hbad => ?_⟩
    · obtain ⟨a, ha⟩ := Option.ne_none_iff_exists'.mp (mt State.badWord_none_span.mp (not_not.mpr hbad))
      obtain ⟨hin, hleast⟩ := State.badWord_span ha
      obtain ⟨s₁, hs₁, hms, hfin⟩ := he.mxPoison_finishes tl a
      refine ⟨_, s₁, _, a, State.badAt_iff.mpr hin, fun w hw => ?_, he.mxlda_poisoned hva ha, ?_, hfin, c.withTile_others tl _, fun n hn => ?_, hs₁⟩
      · exact hleast w (State.badAt_iff.mp hw).2 (State.badAt_iff.mp hw).1
      · rw [hs₁, ← hms]; rfl
      · rw [Ctx.withTile_elem htl, flatTile_getD hn]
        rfl
    · have hnone := State.badWord_none_span.mpr hbad
      refine ⟨_, _, _, he.mxlda_loads hva hnone, congrArg MemState.vault (State.mxPop_ms ..), he.setTile_finishes tl _ _, c.withTile_others tl _, fun n hn => ?_, fun k => ?_⟩
      · rw [Ctx.withTile_elem htl, List.map_map, rangeMap_getD hn]
        rfl
      · rw [foldl_or_getLsbD]
        simp

/-! ## Rows and roundings of an MXRUN (R121 to R125) -/

theorem State.layoutRow_eq (s : State) (fmt base i : Nat) : s.layoutRow fmt base i = mxRow fmt i fun k => s.ms.vault.read (base + k) := by
  by_cases h0 : fmt = 0
  · simp only [State.layoutRow, mxRow, h0, if_true]
  · by_cases h1 : fmt = 1
    · simp only [State.layoutRow, mxRow, h1, if_true]
      rfl
    · simp only [State.layoutRow, mxRow, h0, h1, if_false]

/-- The bytes that a row is decoded from lie inside its region. -/
theorem mxRowBytes_inside {fmt i : Nat} (hi : i < 32) {p : Nat × Nat} (hp : p ∈ mxRowBytes fmt i) : p.1 + p.2 ≤ regionOf fmt := by
  by_cases h0 : fmt = 0
  · simp only [mxRowBytes, regionOf, h0, if_true, List.mem_cons, List.not_mem_nil, or_false] at hp ⊢
    rcases hp with rfl | rfl <;> dsimp only <;> omega
  by_cases h1 : fmt = 1
  · simp only [mxRowBytes, regionOf, h1, one_ne_zero, if_true, if_false, List.mem_cons, List.not_mem_nil, or_false] at hp ⊢
    rcases hp with rfl | rfl <;> dsimp only <;> omega
  · simp only [mxRowBytes, regionOf, h0, h1, if_false, List.mem_singleton] at hp ⊢
    subst hp
    dsimp only
    omega

/-- No word of a row is poisoned where none of its region is. -/
theorem State.row_clean {s : State} {fmt i base w : Nat} {p : Nat × Nat} (hi : i < 32) (hp : p ∈ mxRowBytes fmt i)
    (hclean : ∀ w ∈ s.ms.vpoison, w + 4 ≤ base ∨ base + regionOf fmt ≤ w) (hw : w ∈ wordsOf (base + p.1) p.2) : w ∉ s.ms.vpoison := by
  intro hbad
  have hin := mxRowBytes_inside hi hp
  obtain ⟨-, h₁, h₂⟩ := mem_wordsOf.mp hw
  rcases hclean w hbad with h | h <;> omega

section
variable (s : State) (c : Ctx) (tl : Nat) (acc : Bool) (blk : Nat)

/-- The place of a region of an operand in the K-block of the next rounding. -/
def mxRegionAt (b : Bool) : Nat := mxBase blk b + c.mxrun.n / 1024 * mxStride blk b

/-- The rows, the accumulator and the block sum of the next rounding. -/
def State.mxRowA : List FV := mxRow (mxFmt blk) (c.mxrun.n / 32 % 32) fun k => s.ms.vault.read (mxRegionAt c blk false + k)
def State.mxRowB : List FV := mxRow (mxFmt blk) (c.mxrun.n % 32) fun k => s.ms.vault.read (mxRegionAt c blk true + k)
def mxOld : Nat :=
  let k := 32 * (c.mxrun.n / 32 % 32) + c.mxrun.n % 32
  if c.mxrun.n / 1024 = 0 then (if acc then c.elem tl k else 0) else c.mxrun.work.getD k 0
def State.mxSum : FV × Flags := blockSum (s.mxRowA c blk) (s.mxRowB c blk)
def State.mxNew : Nat × Flags := addF w48 .rn (w48.decode (mxOld c tl acc)) (s.mxSum c blk).1

/-- The rounding is tiny, and stops the engine (R125). -/
def State.mxTiny : Bool := (accSum (w48.decode (mxOld c tl acc)) (s.mxSum c blk).1).any (tinyIn w48)

/-- The progress after the rounding. -/
def State.mxNext : MxRun :=
  let r := s.mxNew c tl acc blk
  { c.mxrun with
    n := c.mxrun.n + 1
    flags := c.mxrun.flags ||| r.2 ||| (s.mxSum c blk).2 ||| sigFlag (s.mxRowA c blk ++ s.mxRowB c blk)
    answer := none
    work := if c.mxrun.n / 1024 = 0 then c.mxrun.work ++ [r.1] else c.mxrun.work.set (32 * (c.mxrun.n / 32 % 32) + c.mxrun.n % 32) r.1 }

/-- No word of the two regions of the next rounding is poisoned. -/
def State.MxClean : Prop := ∀ b, ∀ w ∈ s.ms.vpoison, w + 4 ≤ mxRegionAt c blk b ∨ mxRegionAt c blk b + regionOf (mxFmt blk) ≤ w

/-- The state after an assist has been asked for in the next rounding. -/
def State.mxStopped (o : MxOp) : State :=
  s.mxAssist c o 1 (mxOld c tl acc) (mxRegionAt c blk false + mxRegionAt c blk true * 2 ^ 32)
    (tl + c.mxrun.n / 32 % 32 * 2 ^ 3 + c.mxrun.n % 32 * 2 ^ 8 + mxFmt blk * 2 ^ 13)

end

section
variable {s : State} {c : Ctx} {tl slot blk : Nat} {acc : Bool} {o : MxOp} {e : EngOp} {l : List MxOp} {t : Thread}

/-- One rounding of an MXRUN over clean rows, without an assist's answer. -/
theorem State.mxStep_eq (hclean : s.MxClean c blk) (hans : c.mxrun.answer = none) :
    s.mxStep c o tl acc blk = if s.mxTiny c tl acc blk then (none, s.mxStopped c tl acc blk o) else (some (s.mxNext c tl acc blk), s) := by
  have hbad : s.badWord (((mxRowBytes (mxFmt blk) (c.mxrun.n / 32 % 32)).map fun p => (mxRegionAt c blk false + p.1, p.2)) ++
      (mxRowBytes (mxFmt blk) (c.mxrun.n % 32)).map fun p => (mxRegionAt c blk true + p.1, p.2)) = none := by
    refine State.badWord_eq_none.mpr fun q hq w hw => ?_
    rcases List.mem_append.mp hq with hq | hq
    · obtain ⟨p, hp, rfl⟩ := List.mem_map.mp hq
      exact State.row_clean (Nat.mod_lt _ (by decide)) hp (hclean false) hw
    · obtain ⟨p, hp, rfl⟩ := List.mem_map.mp hq
      exact State.row_clean (Nat.mod_lt _ (by decide)) hp (hclean true) hw
  simp only [mxRegionAt] at hbad
  simp only [State.mxStep, hbad, hans]
  rfl

theorem State.EngineAt.mxSteps_succ (he : s.EngineAt c ⟨e, .run tl slot acc⟩ l t) (hblk : (c.slots.getD slot none).getD 0 = blk)
    (hclean : s.MxClean c blk) (hans : c.mxrun.answer = none) (m : Nat) :
    s.mxSteps c.id (m + 1) =
      if s.mxTiny c tl acc blk then s.mxStopped c tl acc blk ⟨e, .run tl slot acc⟩
      else if c.mxrun.n + 1 = 1024 * mxKb blk then (s.setTile c.id tl (s.mxNext c tl acc blk).work).mxPop c.id t.id (s.mxNext c tl acc blk).flags
      else (s.onCtx c.id fun x => { x with mxrun := s.mxNext c tl acc blk }).mxSteps c.id m := by
  rw [State.mxSteps, he.mxHead]
  simp only [hblk, State.mxStep_eq hclean hans, ← he.tid]
  by_cases htiny : s.mxTiny c tl acc blk = true
  · simp only [htiny, if_true]
  · simp only [htiny]
    rfl

theorem State.EngineAt.mxrun (he : s.EngineAt c ⟨e, .run tl slot acc⟩ l t) (hblk : (c.slots.getD slot none).getD 0 = blk)
    (hsees : ∀ b, s.engineSees c (mxBase blk b)) (n : Nat) : exec (.mxrunOperation c.id n) s = .next (s.mxSteps c.id n) := by
  have hf : s.mxFault c [mxBase blk false, mxBase blk true] = none := State.mxFault_eq_none (by simp [hsees])
  show execMxrunOperation c.id n s = _
  simp only [execMxrunOperation, he.mxHead, hblk, hf]

/-- The engine still works on its operation after the progress of its context has changed. -/
theorem State.EngineAt.onRun (he : s.EngineAt c o l t) {run : MxRun} (h₁ : run.stopped = c.mxrun.stopped) (h₂ : run.stalled = c.mxrun.stalled) :
    (s.onCtx c.id fun x => { x with mxrun := run }).EngineAt { c with mxrun := run } o l t where
  ctx := State.ctx_onCtx_self he.ctx _ fun _ => id
  head := he.head
  going := h₁.trans he.going
  unstalled := h₂.trans he.unstalled
  alive := he.alive
  issuer := he.issuer
  live := he.live

/-- What an assist asked for at the head changes (R125, R397, R398). -/
theorem State.EngineAt.mxAssist_stops (he : s.EngineAt c o l t) (reason pc addr info : Nat) :
    ∃ r, (s.mxAssist c o reason pc addr info).ctx c.id = some { c with mxrun := { c.mxrun with stopped := true, assists := c.mxrun.assists + 1 } } ∧
      (s.mxAssist c o reason pc addr info).wk.recs = s.wk.recs ++ [r] ∧ r.cause = 0x50 ∧ r.reason = reason ∧ r.kind = 3 ∧ r.pc = pc ∧ r.addr = addr ∧
      r.info = info ∧ r.quay = quayOf c.core ∧ (s.mxAssist c o reason pc addr info).wk.threads = s.wk.threads ∧ (s.mxAssist c o reason pc addr info).ms = s.ms :=
  ⟨_, State.ctx_onCtx_self (s := { s with nextId := s.nextId + 1 }) he.ctx _ (by exact fun _ => id), rfl, rfl, rfl, rfl, rfl, rfl, rfl, rfl, rfl, rfl⟩

end

/-- R68: only a nonzero finite value can be tiny. -/
theorem tinyFor_iff (F : Fmt) (v : FV) : tinyFor F v ↔ tinyIn F v = true := by
  refine ⟨fun ⟨_, _, _, _, _, h⟩ => h, fun h => ?_⟩
  cases v with
  | nan _ => cases h
  | inf _ => cases h
  | fin n m e => exact ⟨n, m, e, rfl, fun h0 => by simp [tinyIn, h0] at h, h⟩

/-- R68, R125: a sum that is tiny is one of finite values. -/
theorem accSum_tiny_iff (F : Fmt) (x y : FV) : (accSum x y).any (tinyIn F) = true ↔
    x.isNaN = false ∧ x.isInf = false ∧ y.isNaN = false ∧ y.isInf = false ∧ tinyFor F (x.addFin .rn y) := by
  rw [tinyFor_iff]
  by_cases h : (x.isNaN || x.isInf || y.isNaN || y.isInf) = true
  · rw [accSum, if_pos h]
    refine iff_of_false (by simp) fun ⟨h₁, h₂, h₃, h₄, _⟩ => ?_
    simp [h₁, h₂, h₃, h₄] at h
  · rw [accSum, if_neg h]
    simp only [Bool.or_eq_true, not_or, Bool.not_eq_true, and_assoc] at h
    simp [h]

/-- The context c has progressed to `run`, and nothing else of the state has changed. -/
def State.StepsOn (s s' : State) (c : Ctx) (run : MxRun) : Prop :=
  s'.ctx c.id = some { c with mxrun := run } ∧ s' = { s with en := { s.en with ctxs := s'.en.ctxs } } ∧ ∀ x, x ≠ c.id → s'.ctx x = s.ctx x

theorem State.stepsOn_onRun {s : State} {c : Ctx} (hc : s.ctx c.id = some c) (run : MxRun) :
    s.StepsOn (s.onCtx c.id fun x => { x with mxrun := run }) c run :=
  ⟨State.ctx_onCtx_self hc _ fun _ => id, rfl, fun _ hx => State.ctx_onCtx_ne s hx _ fun _ => id⟩

/-- The second part of O34: the next rounding of an MXRUN over clean rows, without an assist's answer. -/
theorem State.EngineAt.mxrun_rounds {s : State} {c : Ctx} {tl slot blk : Nat} {acc : Bool} {e : EngOp} {l : List MxOp} {t : Thread}
    (he : s.EngineAt c ⟨e, .run tl slot acc⟩ l t) (hblk : (c.slots.getD slot none).getD 0 = blk) (hsees : ∀ b, s.engineSees c (mxBase blk b))
    (hclean : s.MxClean c blk) (hans : c.mxrun.answer = none) (n : Nat) :
    (¬ s.mxTiny c tl acc blk = true → c.mxrun.n + 1 < 1024 * mxKb blk → ∃ s', exec (.mxrunOperation c.id 1) s = .next s' ∧
      s.StepsOn s' c (s.mxNext c tl acc blk) ∧ exec (.mxrunOperation c.id (n + 1)) s = exec (.mxrunOperation c.id n) s') ∧
    (¬ s.mxTiny c tl acc blk = true → c.mxrun.n + 1 = 1024 * mxKb blk → ∃ s', exec (.mxrunOperation c.id (n + 1)) s = .next s' ∧
      s'.ms.vault = s.ms.vault ∧ s.Finishes s' c (c.withTile tl (s.mxNext c tl acc blk).work) l t (s.mxNext c tl acc blk).flags) ∧
    (s.mxTiny c tl acc blk = true → exec (.mxrunOperation c.id (n + 1)) s = .next (s.mxStopped c tl acc blk ⟨e, .run tl slot acc⟩)) := by
  refine ⟨fun htiny hlast => ?_, fun htiny hlast => ?_, fun htiny => ?_⟩
  · have steps : ∀ m, s.mxSteps c.id (m + 1) = (s.onCtx c.id fun x => { x with mxrun := s.mxNext c tl acc blk }).mxSteps c.id m := fun m => by
      rw [he.mxSteps_succ hblk hclean hans, if_neg htiny, if_neg hlast.ne]
    have he' := he.onRun (run := s.mxNext c tl acc blk) rfl rfl
    refine ⟨_, (he.mxrun hblk hsees 1).trans (congrArg _ (steps 0)), s.stepsOn_onRun he.ctx _, ?_⟩
    rw [he.mxrun hblk hsees, steps]
    exact (he'.mxrun hblk (fun b => hsees b) n).symm
  · have steps := he.mxSteps_succ hblk hclean hans n
    rw [if_neg htiny, if_pos hlast] at steps
    exact ⟨_, (he.mxrun hblk hsees _).trans (congrArg _ steps), congrArg MemState.vault (State.mxPop_ms ..), he.setTile_finishes tl _ _⟩
  · rw [he.mxrun hblk hsees, he.mxSteps_succ hblk hclean hans, if_pos htiny]

/-! ## Listed bytes in memory (R27) -/

theorem cellsAt_cons (a : Nat) (b : Byte) (bs : List Byte) : cellsAt a (b :: bs) = (a, b) :: cellsAt (a + 1) bs := by
  simp only [cellsAt, indexed, List.length_cons, List.range_succ_eq_map, List.zip_cons_cons, List.map_cons, List.zip_map_left, List.map_map, Nat.add_zero]
  congr 1
  refine List.map_congr_left fun p _ => ?_
  simp [Nat.add_assoc, Nat.add_comm 1]

/-- Consecutive bytes, read back. -/
theorem Memory.read_writes_cellsAt {m : Memory} (h : m.wf = true) (a : Nat) (bs : List Byte) (k : Nat) :
    (m.writes (cellsAt a bs)).read k = if a ≤ k ∧ k < a + bs.length then bs.getD (k - a) 0 else m.read k := by
  induction bs generalizing m a with
  | nil => simp [cellsAt, indexed, Memory.writes]
  | cons b bs ih =>
    have hstep : m.writes (cellsAt a (b :: bs)) = (m.write a b).writes (cellsAt (a + 1) bs) := by rw [cellsAt_cons]; rfl
    rw [hstep, ih (Memory.write_wf a b h), Memory.read_write h]
    rcases lt_trichotomy k a with hk | rfl | hk
    · rw [if_neg (by omega), if_neg (by omega), if_neg (by omega)]
    · rw [if_neg (by omega), if_pos rfl, if_pos (by simp)]
      simp
    · rw [if_neg (show ¬ k = a by omega)]
      by_cases hlen : k < a + 1 + bs.length
      · rw [if_pos ⟨hk, hlen⟩, if_pos ⟨hk.le, by simp; omega⟩, show k - a = k - (a + 1) + 1 by omega, List.getD_cons_succ]
      · rw [if_neg (by omega), if_neg (by simp; omega)]

@[simp] theorem toBytes_length (n x : Nat) : (toBytes n x).length = n := by simp [toBytes]

theorem toBytes_getD {n i : Nat} (h : i < n) (x : Nat) : (toBytes n x).getD i 0 = BitVec.ofNat 8 (x / 2 ^ (8 * i)) := by
  simp [toBytes, List.getD_eq_getElem?_getD, h]

theorem flatMap_toBytes_length (n : Nat) (vals : List Nat) : (vals.flatMap (toBytes n)).length = vals.length * n := by
  simp [List.length_flatMap]

/-- Byte i of elements of n bytes each. -/
theorem flatMap_toBytes_getD {n : Nat} (hn : 0 < n) (vals : List Nat) {i : Nat} (h : i < vals.length * n) :
    (vals.flatMap (toBytes n)).getD i 0 = BitVec.ofNat 8 (vals.getD (i / n) 0 / 2 ^ (8 * (i % n))) := by
  induction vals generalizing i with
  | nil => simp at h
  | cons v vals ih =>
    rw [List.flatMap_cons]
    by_cases hi : i < n
    · rw [List.getD_append _ _ _ _ (by simpa using hi), toBytes_getD hi, Nat.div_eq_of_lt hi, Nat.mod_eq_of_lt hi, List.getD_cons_zero]
    · have hle : n ≤ i := by omega
      have hrest : i - n < vals.length * n := by rw [List.length_cons, Nat.succ_mul] at h; omega
      rw [List.getD_append_right _ _ _ _ (by simpa using hle), toBytes_length, ih hrest, Nat.div_eq_sub_div hn hle, List.getD_cons_succ, Nat.mod_eq_sub_mod hle]

/-! ## MXST (R125, R127, R133) -/

theorem formElem_pos (form : MxForm) : 0 < formElem form := by cases form <;> decide

section
variable {s : State} {c : Ctx} {tl va : Nat} {form : MxForm} {vals : List Nat}

/-- The bytes that an MXST writes. -/
theorem State.mxStore_read (hs : s.ms.vault.wf = true) (k : Nat) :
    (s.mxStore c tl va form vals).ms.vault.read k = if va ≤ k ∧ k < va + vals.length * formElem form
      then BitVec.ofNat 8 (vals.getD ((k - va) / formElem form) 0 / 2 ^ (8 * ((k - va) % formElem form))) else s.ms.vault.read k := by
  have hread := Memory.read_writes_cellsAt hs va (vals.flatMap (toBytes (formElem form))) k
  rw [flatMap_toBytes_length] at hread
  refine hread.trans ?_
  split
  · exact flatMap_toBytes_getD (formElem_pos form) vals (by omega)
  · rfl

/-- The words of elements with an error (R127). -/
theorem Ctx.mem_badOut {w : Nat} : w ∈ c.badOut tl va form ↔
    ∃ k ∈ c.badElems, k / 1024 = tl ∧ w ∈ wordsOf (va + formElem form * (k % 1024)) (formElem form) := by
  simp only [Ctx.badOut, List.mem_eraseDups, List.mem_flatMap, List.mem_filter, tileHas, beq_iff_eq, and_assoc]

/-- A word written whole is not poisoned any more (R427). -/
theorem State.vwrite_clears (s : State) {a w : Nat} {bs : List Byte} (hw : w % 4 = 0) (hlo : a ≤ w) (hhi : w + 4 ≤ a + bs.length) :
    w ∉ (s.vwrite a bs false).ms.vpoison := by
  have hin : w ∈ wordsOf a bs.length := mem_wordsOf.mpr ⟨hw, by omega, by omega⟩
  simp [State.vwrite, hin, hlo, hhi]

/-- A word of the region is poisoned exactly where an element of it has an error (R127, R427). -/
theorem State.mxStore_vpoison {w : Nat} (hva : va % 4 = 0) (hw : w % 4 = 0) (hlo : va ≤ w) (hhi : w < va + 1024 * formElem form) (hlen : vals.length = 1024) :
    w ∈ (s.mxStore c tl va form vals).ms.vpoison ↔
      ∃ k ∈ c.badElems, k / 1024 = tl ∧ va + formElem form * (k % 1024) < w + 4 ∧ w < va + formElem form * (k % 1024) + formElem form := by
  have hbytes : (vals.flatMap (toBytes (formElem form))).length = 1024 * formElem form := by rw [flatMap_toBytes_length, hlen]
  have hclear := s.vwrite_clears (bs := vals.flatMap (toBytes (formElem form))) hw hlo (by omega)
  have hout : w ∈ (s.mxStore c tl va form vals).ms.vpoison ↔ w ∈ c.badOut tl va form :=
    List.mem_append.trans (or_iff_right hclear)
  rw [hout, Ctx.mem_badOut]
  simp only [mem_wordsOf, hw, true_and]

end

/-- R133: without SCALE an element is rounded as it stands. -/
theorem mxstValue_none (v : FV) : mxstValue v none = (v, invOf [v]) := by
  rw [mxstValue, sigFlag_eq_invOf]

/-- R133: under SCALE NaNs and invalid products give a NaN, infinities an infinity, and other products are exact. -/
theorem mxstValue_some (v k : FV) : mxstValue v (some k) =
    if v.isNaN = true ∨ k.isNaN = true then (.nan false, invOf [v, k])
    else if (v.isZero = true ∧ k.isInf = true) ∨ (v.isInf = true ∧ k.isZero = true) then (.nan false, flagINV)
    else if v.isInf = true ∨ k.isInf = true then (.inf (v.isNeg != k.isNeg), 0)
    else (v.mulFin k, 0) := by
  simp only [mxstValue, sigFlag_eq_invOf, Bool.or_eq_true, Bool.and_eq_true]

theorem reluOf_eq (F : Fmt) (relu : Bool) (p : Nat) :
    reluOf F relu p = if relu = true ∧ (F.decode p).isNaN = false ∧ (F.decode p).isNeg = true then 0 else p := by
  simp only [reluOf, Bool.and_eq_true, Bool.not_eq_true', and_assoc]

section
variable (s : State) (c : Ctx) (tl : Nat) (form : MxForm) (relu : Bool) (scale : Option Word)

/-- The value that the next rounding of an MXST rounds, and the flags raised before it. -/
def mxstNow : FV × Flags := mxstValue (w48.decode (c.elem tl c.mxrun.n)) (scale.map fun w => fp32.decode w.toNat)

/-- The rounding is tiny, and stops the engine (R125). -/
def mxstTiny : Bool := form == .f32 && tinyIn fp32 (mxstNow c tl scale).1

/-- The progress after the rounding. -/
def mxstNext : MxRun :=
  let r := encodeFV (formFmt form) .rn (mxstNow c tl scale).1
  { c.mxrun with
    n := c.mxrun.n + 1
    flags := c.mxrun.flags ||| (mxstNow c tl scale).2 ||| r.2
    answer := none
    work := c.mxrun.work ++ [reluOf (formFmt form) relu r.1] }

/-- The state after an assist has been asked for in the next rounding. -/
def State.mxstStopped (o : MxOp) : State :=
  s.mxAssist c o 2 (c.elem tl c.mxrun.n) (match scale with
    | some w => w.toNat
    | none => 0x3F800000) (tl + c.mxrun.n / 32 * 2 ^ 3 + c.mxrun.n % 32 * 2 ^ 8 + 1 * 2 ^ 13)

end

section
variable {s : State} {c : Ctx} {tl va : Nat} {form : MxForm} {relu : Bool} {scale : Option Word} {e : EngOp} {l : List MxOp} {t : Thread}

theorem State.EngineAt.mxstSteps_succ (he : s.EngineAt c ⟨e, .st tl va form relu scale⟩ l t) (hans : c.mxrun.answer = none) (m : Nat) :
    s.mxstSteps c.id (m + 1) =
      if mxstTiny c tl form scale then s.mxstStopped c tl scale ⟨e, .st tl va form relu scale⟩
      else if c.mxrun.n + 1 = 1024 then
        (s.mxStore c tl va form (mxstNext c tl form relu scale).work).mxPop c.id t.id (mxstNext c tl form relu scale).flags
      else (s.onCtx c.id fun x => { x with mxrun := mxstNext c tl form relu scale }).mxstSteps c.id m := by
  have htiny : (form == .f32 && tinyIn fp32 (mxstValue (w48.decode (c.elem tl c.mxrun.n)) (scale.map fun w => fp32.decode w.toNat)).1) =
      mxstTiny c tl form scale := rfl
  rw [State.mxstSteps, he.mxHead]
  simp only [hans, htiny, ← he.tid]
  cases mxstTiny c tl form scale <;> rfl

theorem State.EngineAt.mxst (he : s.EngineAt c ⟨e, .st tl va form relu scale⟩ l t) (hva : s.engineSees c va) (n : Nat) :
    exec (.mxstOperation c.id n) s = .next (s.mxstSteps c.id n) := by
  have hf : s.mxFault c [va] = none := State.mxFault_eq_none (by simpa using hva)
  show execMxstOperation c.id n s = _
  simp only [execMxstOperation, he.mxHead, hf]

theorem State.EngineAt.mxStore_finishes {o : MxOp} (he : s.EngineAt c o l t) (vals : List Nat) (fl : Flags) :
    s.Finishes ((s.mxStore c tl va form vals).mxPop c.id t.id fl) c c l t fl := by
  have hctxs : (s.mxStore c tl va form vals).en.ctxs = (s.onCtx c.id id).en.ctxs := by
    show s.en.ctxs = _
    simp
  exact he.mxPop_finishes (F := id) (fun _ => rfl) rfl hctxs rfl rfl rfl fl

/-- The third part of O34: the next rounding of an MXST, without an assist's answer. -/
theorem State.EngineAt.mxst_rounds (he : s.EngineAt c ⟨e, .st tl va form relu scale⟩ l t) (hva : s.engineSees c va) (hans : c.mxrun.answer = none) (n : Nat) :
    (¬ mxstTiny c tl form scale = true → c.mxrun.n < 1023 → ∃ s', exec (.mxstOperation c.id 1) s = .next s' ∧
      s.StepsOn s' c (mxstNext c tl form relu scale) ∧ exec (.mxstOperation c.id (n + 1)) s = exec (.mxstOperation c.id n) s') ∧
    (¬ mxstTiny c tl form scale = true → c.mxrun.n = 1023 → ∃ s', exec (.mxstOperation c.id (n + 1)) s = .next s' ∧
      s'.ms = (s.mxStore c tl va form (mxstNext c tl form relu scale).work).ms ∧ s.Finishes s' c c l t (mxstNext c tl form relu scale).flags) ∧
    (mxstTiny c tl form scale = true → exec (.mxstOperation c.id (n + 1)) s = .next (s.mxstStopped c tl scale ⟨e, .st tl va form relu scale⟩)) := by
  refine ⟨fun htiny hlast => ?_, fun htiny hlast => ?_, fun htiny => ?_⟩
  · have steps : ∀ m, s.mxstSteps c.id (m + 1) = (s.onCtx c.id fun x => { x with mxrun := mxstNext c tl form relu scale }).mxstSteps c.id m := fun m => by
      rw [he.mxstSteps_succ hans, if_neg htiny, if_neg (by omega)]
    have he' := he.onRun (run := mxstNext c tl form relu scale) rfl rfl
    refine ⟨_, (he.mxst hva 1).trans (congrArg _ (steps 0)), s.stepsOn_onRun he.ctx _, ?_⟩
    rw [he.mxst hva, steps]
    exact (he'.mxst hva n).symm
  · have steps := he.mxstSteps_succ hans n
    rw [if_neg htiny, if_pos (by omega)] at steps
    exact ⟨_, (he.mxst hva _).trans (congrArg _ steps), State.mxPop_ms .., he.mxStore_finishes _ _⟩
  · rw [he.mxst hva, he.mxstSteps_succ hans, if_pos htiny]

end

/-! ## The operations of the matrix engine, in the terms of the manual -/

theorem mxBase_false (blk : Nat) : mxBase blk false = blk % 2 ^ 32 := by simp [mxBase, bitsOf]

/-- Settles O34: the parts by `mxLoads_run`, `mxrun_rounds` and `mxst_rounds`; what remains is that the statement's rows, sums and
results are those of the roundings. -/
theorem matrixOperationsRun : Obligations.MatrixOperationsRun := by
  unfold Obligations.MatrixOperationsRun
  refine ⟨?_, ?_, ?_⟩
  · intro s c e l t slot blk tl va f32 htl others badAt
    obtain ⟨hld, hz, hlda⟩ := mxLoads_run s c e l t slot blk tl va f32 htl
    refine ⟨hld, hz, fun he hva => ?_⟩
    obtain ⟨hbad, hgood⟩ := hlda he hva
    intro sz x y
    split
    · exact hbad ‹_›
    · exact hgood ‹_›
  · intro s c e l t tl slot acc n he htl blk fmt kbs stride kb i j ra rb a b old sum new fl work isTiny hA hB hclean hans hn
    have hra : mxRegionAt c blk false = ra := congrArg (· + _) (mxBase_false blk)
    have hrb : mxRegionAt c blk true = rb := rfl
    have ha : s.mxRowA c blk = a := by
      rw [State.mxRowA, hra]
      exact (s.layoutRow_eq fmt ra i).symm
    have hb : s.mxRowB c blk = b := (s.layoutRow_eq fmt rb j).symm
    have hold : mxOld c tl acc = old := rfl
    have hsum : s.mxSum c blk = sum := by rw [State.mxSum, ha, hb]
    have hnew : s.mxNew c tl acc blk = new := by rw [State.mxNew, hold, hsum]
    have hnext : s.mxNext c tl acc blk = { c.mxrun with n := c.mxrun.n + 1, flags := fl, work := work } := by
      rw [State.mxNext, hnew, hsum, ha, hb, sigFlag_eq_invOf, ← hans]
    have htiny : s.mxTiny c tl acc blk = true ↔ isTiny := by
      rw [State.mxTiny, hold, hsum]
      exact accSum_tiny_iff ..
    have hsees : ∀ b, s.engineSees c (mxBase blk b) := by
      intro b
      cases b
      · rw [mxBase_false]; exact hA
      · exact hB
    have hregions : s.MxClean c blk := by
      intro b w hw
      cases b
      · rw [hra]; exact hclean w hw ra (by simp)
      · exact hclean w hw rb (by simp)
    obtain ⟨hround, hlast, hstop⟩ := he.mxrun_rounds rfl hsees hregions hans n
    refine ⟨fun hnt hlt => ?_, fun hnt hend => ?_, fun ht => ?_⟩
    · obtain ⟨s', hs', hsteps, hmore⟩ := hround (mt htiny.mp hnt) hlt
      rw [hnext] at hsteps
      obtain ⟨hctx, hrest, hothers⟩ := hsteps
      exact ⟨s', hs', hctx, hrest, hothers, hmore⟩
    · obtain ⟨s', hs', hvault, hfin⟩ := hlast (mt htiny.mp hnt) hend
      rw [hnext] at hfin
      exact ⟨s', hs', hvault, hfin⟩
    · obtain ⟨r, hctx, hrecs, h⟩ := he.mxAssist_stops 1 old (ra + rb * 2 ^ 32) (tl + i * 2 ^ 3 + j * 2 ^ 8 + fmt * 2 ^ 13)
      refine ⟨_, r, ?_, hctx, hrecs, h⟩
      rw [hstop (htiny.mpr ht), State.mxStopped, hra]
      rfl
  · intro s c e l t tl va form relu scale n he hcan F esz old x r y fl isTiny hva hans hlen
    have hF : formFmt form = F := by cases form <;> rfl
    have hesz : formElem form = esz := by cases form <;> rfl
    have hx : mxstNow c tl scale = x := by
      cases scale with
      | none => exact mxstValue_none old
      | some w => exact mxstValue_some old (fp32.decode w.toNat)
    have hnext : mxstNext c tl form relu scale = { c.mxrun with n := c.mxrun.n + 1, flags := fl, work := c.mxrun.work ++ [y] } := by
      rw [mxstNext, hx, hF, reluOf_eq, ← hans]
    have htiny : mxstTiny c tl form scale = true ↔ isTiny := by
      rw [mxstTiny, hx, Bool.and_eq_true, beq_iff_eq, ← tinyFor_iff]
    obtain ⟨hround, hlast, hstop⟩ := he.mxst_rounds hva hans n
    refine ⟨fun hnt hlt => ?_, fun hnt hend => ?_, fun ht => ?_⟩
    · obtain ⟨s', hs', hsteps, hmore⟩ := hround (mt htiny.mp hnt) hlt
      rw [hnext] at hsteps
      obtain ⟨hctx, hrest, hothers⟩ := hsteps
      exact ⟨s', hs', hctx, hrest, hothers, hmore⟩
    · obtain ⟨s', hs', hms, hfin⟩ := hlast (mt htiny.mp hnt) hend
      rw [hnext] at hfin hms
      have hwork : (c.mxrun.work ++ [y]).length = 1024 := by simp [hlen, hend]
      refine ⟨s', hs', hfin, fun k => ?_, fun hva4 w hw hlo hhi => ?_⟩
      · rw [hms, State.mxStore_read hcan.2, hwork, hesz]
      · rw [hms, State.mxStore_vpoison hva4 hw hlo (hesz ▸ hhi) hwork, hesz]
    · obtain ⟨r, hctx, hrecs, hcause, hreason, hkind, hpc, -, -, hquay, hrest⟩ := he.mxAssist_stops 2 (c.elem tl c.mxrun.n) _ _
      exact ⟨_, r, hstop (htiny.mpr ht), hctx, hrecs, hcause, hreason, hkind, hpc, hquay, hrest⟩

end Sys2Proof.Machine

namespace Sys2Proof.Machine

/-! ## Issue of an SPL instruction by one thread (R33, R137, R138) -/

/-- An operation of a thread enters a queue of its context, which changes by F, and the thread goes on. -/
theorem State.enqueue_queues {s : State} {t : Thread} {c : Ctx} (hctx : s.ctxOf t = some c) (ht : s.thread t.id = some t) (F : Ctx → Ctx)
    (hF : ∀ x, (F x).id = x.id) :
    s.Queues ((({ s with nextId := s.nextId + 1 }.onCtx c.id F).up t.id .tile).advance t.id) t c (F c) := by
  obtain ⟨-, -, -, hc⟩ := State.ctxOf_some hctx
  let s₁ := { s with nextId := s.nextId + 1 }.onCtx c.id F
  have hid : ∀ x : Ctx, x.id = c.id → (F x).id = c.id := fun x hx => (hF x).trans hx
  have hup : (s₁.up t.id .tile).thread t.id = some { t with ctr := t.ctr.up .tile } :=
    State.thread_onThread_self (s := s₁) ht _ fun _ => id
  constructor
  · exact State.thread_onThread_self (t := { t with ctr := t.ctr.up .tile }) hup Thread.advance fun _ => id
  · intro u hu
    exact (State.thread_onThread_ne _ hu Thread.advance fun _ => id).trans (State.thread_onThread_ne s₁ hu _ fun _ => id)
  · exact State.ctx_onCtx_self (s := { s with nextId := s.nextId + 1 }) hc F hid
  · intro x hx
    exact State.ctx_onCtx_ne { s with nextId := s.nextId + 1 } hx F hid
  · rfl

/-- A context with an operation of a thread added to its SPL queue. -/
def State.splQueued (s : State) (t : Thread) (k : SplKind) (c : Ctx) : Ctx :=
  { c with
    splq := c.splq ++ [⟨⟨s.nextId, t.id, s.launchNo t, t.pos⟩, k, false, 0, [], [], none, [], []⟩]
    splSince := if c.splq = [] then s.clock.toNat else c.splSince }

theorem State.splPut_queues {s : State} {t : Thread} {c : Ctx} (hctx : s.ctxOf t = some c) (ht : s.thread t.id = some t) (k : SplKind)
    (f : Ctx → Ctx) (hf : ∀ x, (f x).id = x.id) : s.Queues (s.splPut t c k f) t c (s.splQueued t k (f c)) := by
  have hput : ∀ x, s.splQueued t k (f x) =
      let y := f x
      { y with
        splq := y.splq ++ [⟨s.engOp t, k, false, 0, [], [], none, [], []⟩]
        splSince := if y.splq.isEmpty then s.clock.toNat else y.splSince } := fun x => by
    simp only [State.splQueued, List.isEmpty_iff]
    rfl
  have heq : s.splPut t c k f = (({ s with nextId := s.nextId + 1 }.onCtx c.id fun x => s.splQueued t k (f x)).up t.id .tile).advance t.id := by
    simp only [hput]
    rfl
  rw [heq]
  exact State.enqueue_queues hctx ht (fun x => s.splQueued t k (f x)) hf

section
variable {s : State} {h : Gd} {i : Instr} {t : Thread} {c : Ctx}

/-- An SPL instruction finds room: a queue entry, and its counter below 63. -/
theorem State.splAsk_ready (hr : s.Runs h i t) (hctx : s.ctxOf t = some c) (ht : t.ctr.tiles < 63) (hc : c.splq.length < 16) :
    (s.splAsk i h).ready t = true := by
  simp [State.splAsk, State.splCount, hctx, hr.rankOf, ht, hc]

theorem State.Runs.splAsk_go (hr : s.Runs h i t) (hctx : s.ctxOf t = some c) (ht : t.ctr.tiles < 63) (hc : c.splq.length < 16) :
    s.fate h (s.splAsk i h) t = .go :=
  hr.fate _ rfl rfl rfl (State.splAsk_ready hr hctx ht hc)

/-- R168: SPBEGIN goes on where the queue that it names is listed. -/
theorem State.Runs.beginAsk_go (hr : s.Runs h i t) (hctx : s.ctxOf t = some c) (ht : t.ctr.tiles < 63) (hc : c.splq.length < 16)
    {q : Option (Fin 8)} (hq : ∀ x, q = some x → s.binding t x.val ≠ none) : s.fate h (s.beginAsk i h q) t = .go := by
  refine hr.fate _ rfl rfl ?_ (State.splAsk_ready hr hctx ht hc)
  cases q with
  | none => rfl
  | some x =>
    obtain ⟨gq, hgq⟩ := Option.ne_none_iff_exists'.mp (hq x rfl)
    simp [State.beginAsk, State.bindCheck, hgq]

theorem State.Runs.beginAsk_unlisted (hr : s.Runs h i t) {x : Fin 8} (hx : s.binding t x.val = none) :
    s.fate h (s.beginAsk i h (some x)) t = .trap 0x70 0 := by
  have hbind : (s.beginAsk i h (some x)).bind t = some 0x70 := by simp [State.beginAsk, State.bindCheck, hx]
  simp only [State.fate, hr.noHit, hbind]
  simp [State.beginAsk, State.splAsk, Ask.of, hr.fits]

/-- The only thread of an issue set traps at its word. -/
theorem State.issue_trap {a : Ask} {e r : Nat} (hf : s.front = [t]) (ha : s.fate h a t = .trap e r) (body : List Thread → State → State) :
    s.issue h a body = body [] (s.trapHere t e r 0 0) := by
  simp [State.issue, State.goers, hf, ha, State.settleFate]

variable {ask : Ask} {f : Thread → State → Ctx → Option (SplKind × (Ctx → Ctx))}

theorem splIssue_puts (hf : s.front = [t]) (hgo : s.fate h ask t = .go) (hctx : s.ctxOf t = some c) {k : SplKind} {F : Ctx → Ctx}
    (hk : f t s c = some (k, F)) : splIssue h ask f s = .next (s.splPut t c k F) := by
  simp [splIssue, State.issue_alone hf hgo, hctx, hk]

theorem splIssue_traps (hf : s.front = [t]) (hgo : s.fate h ask t = .go) (hctx : s.ctxOf t = some c) (hk : f t s c = none) :
    splIssue h ask f s = .next (s.trapHere t 0x02 0 0 0) := by
  simp [splIssue, State.issue_alone hf hgo, hctx, hk]

theorem splIssue_refused (hf : s.front = [t]) {e r : Nat} (ha : s.fate h ask t = .trap e r) :
    splIssue h ask f s = .next (s.trapHere t e r 0 0) := by
  simp [splIssue, State.issue_trap hf ha]

end

/-! ## What each SPL instruction checks and enqueues (R166 to R172) -/

/-- What an SPL instruction asks of its operands: the operation to enqueue and what becomes of the context; none where it traps. SPVIEW: -/
def spviewOp (s : State) (a b : Opnd) (t : Thread) (_ : State) (_ : Ctx) : Option (SplKind × (Ctx → Ctx)) :=
  let va := (s.rd2 t a).toNat
  let n := (s.rd t b).toNat
  if va % 64 != 0 || decide (n < 1) || decide (128 < n) then none else some (.view va n, id)

/-- A context in which a thread opens a pass. -/
def Ctx.opening (id tid desc : Nat) (queue : Option (Nat × Nat)) (c : Ctx) : Ctx :=
  { c with open_ := some ⟨id, tid, 0, 0⟩, passes := c.passes ++ [⟨id, tid, desc, 0, 0, queue, false, []⟩] }

/-- SPBEGIN: -/
def spbeginOp (s : State) (a : Opnd) (q : Option (Fin 8)) (t : Thread) (s' : State) (c : Ctx) : Option (SplKind × (Ctx → Ctx)) :=
  let va := (s.rd2 t a).toNat
  if va % 64 != 0 || c.open_.isSome then none
  else some (.beginP s'.nextId, Ctx.opening s'.nextId t.id va (q.bind fun b => s.binding t b.val))

/-- SPSUB: -/
def spsubOp (s : State) (a b : Opnd) (t : Thread) (_ : State) (c : Ctx) : Option (SplKind × (Ctx → Ctx)) :=
  let va := (s.rd2 t a).toNat
  let n := (s.rd t b).toNat
  match c.open_ with
  | none => none
  | some p =>
    if va % 64 != 0 || decide (2 ^ 24 < n) || decide (1024 ≤ p.batches) || decide (2 ^ 31 < p.count + n) then none
    else some (.sub p.id va n p.batches p.count, fun x => { x with open_ := some { p with count := p.count + n, batches := p.batches + 1 } })

/-- SPEND and SPEND.ABORT: -/
def spendOp (abort : Bool) (_ : Thread) (_ : State) (c : Ctx) : Option (SplKind × (Ctx → Ctx)) :=
  c.open_.map fun p => (.endP p.id abort, fun x => { x with open_ := none })

/-- SPBWD and SPRED: -/
def addressesOp (K : Nat → Nat → SplKind) (s : State) (a b : Opnd) (t : Thread) (_ : State) (_ : Ctx) : Option (SplKind × (Ctx → Ctx)) :=
  let x := (s.rd2 t a).toNat
  let y := (s.rd2 t b).toNat
  if x % 64 != 0 || y % 64 != 0 then none else some (K x y, id)

section
variable (s : State) (h : Gd) (a b : Opnd) (q : Option (Fin 8))

theorem exec_spview : exec (.spview h a b) s = splIssue h (s.splAsk (.spview h a b) h) (spviewOp s a b) s := rfl
theorem exec_spbegin : exec (.spbegin h a q) s = splIssue h (s.beginAsk (.spbegin h a q) h q) (spbeginOp s a q) s := rfl
theorem exec_spsub : exec (.spsub h a b) s = splIssue h (s.splAsk (.spsub h a b) h) (spsubOp s a b) s := rfl
theorem exec_spend : exec (.spend h) s = splIssue h (s.splAsk (.spend h) h) (spendOp false) s := rfl
theorem exec_spendAbort : exec (.spendAbort h) s = splIssue h (s.splAsk (.spendAbort h) h) (spendOp true) s := rfl
theorem exec_spbwd : exec (.spbwd h a b) s = splIssue h (s.splAsk (.spbwd h a b) h) (addressesOp .bwd s a b) s := rfl
theorem exec_spred : exec (.spred h a b) s = splIssue h (s.splAsk (.spred h a b) h) (addressesOp .red s a b) s := rfl
theorem exec_spqry (d : Opnd) : exec (.spqry h d) s = mxQuery (.spqry h d) h d (fun s t => [s.spqry t]) s := rfl

end

section
variable {s s' : State} {t : Thread} {c : Ctx} {a b : Opnd}

theorem spviewOp_of_good (ha : (s.rd2 t a).toNat % 64 = 0) (h₁ : 1 ≤ (s.rd t b).toNat) (h₂ : (s.rd t b).toNat ≤ 128) :
    spviewOp s a b t s' c = some (.view (s.rd2 t a).toNat (s.rd t b).toNat, id) :=
  if_neg (by simp only [Bool.or_eq_true, bne_iff_ne, decide_eq_true_eq]; omega)

theorem spviewOp_of_bad (hbad : (s.rd2 t a).toNat % 64 ≠ 0 ∨ (s.rd t b).toNat = 0 ∨ 128 < (s.rd t b).toNat) : spviewOp s a b t s' c = none :=
  if_pos (by simp only [Bool.or_eq_true, bne_iff_ne, decide_eq_true_eq]; omega)

theorem spbeginOp_of_good {q : Option (Fin 8)} (ha : (s.rd2 t a).toNat % 64 = 0) (ho : c.open_ = none) :
    spbeginOp s a q t s' c =
      some (.beginP s'.nextId, Ctx.opening s'.nextId t.id (s.rd2 t a).toNat (q.bind fun b => s.binding t b.val)) :=
  if_neg (by simp [ha, ho])

theorem spbeginOp_of_bad {q : Option (Fin 8)} (hbad : (s.rd2 t a).toNat % 64 ≠ 0 ∨ c.open_ ≠ none) : spbeginOp s a q t s' c = none :=
  if_pos (by simpa [Option.isSome_iff_ne_none] using hbad)

theorem spsubOp_of_none (ho : c.open_ = none) : spsubOp s a b t s' c = none := by simp [spsubOp, ho]

/-- R169: what SPSUB checks. -/
def OpenPass.Takes (p : OpenPass) (va n : Nat) : Prop := va % 64 = 0 ∧ n ≤ 2 ^ 24 ∧ p.batches < 1024 ∧ p.count + n ≤ 2 ^ 31

theorem spsubOp_of_good {p : OpenPass} (ho : c.open_ = some p) (hok : p.Takes (s.rd2 t a).toNat (s.rd t b).toNat) :
    spsubOp s a b t s' c = some (.sub p.id (s.rd2 t a).toNat (s.rd t b).toNat p.batches p.count,
      fun x => { x with open_ := some { p with count := p.count + (s.rd t b).toNat, batches := p.batches + 1 } }) := by
  obtain ⟨h₁, h₂, h₃, h₄⟩ := hok
  simp only [spsubOp, ho]
  exact if_neg (by simp only [Bool.or_eq_true, bne_iff_ne, decide_eq_true_eq]; omega)

theorem spsubOp_of_bad {p : OpenPass} (ho : c.open_ = some p) (hbad : ¬ p.Takes (s.rd2 t a).toNat (s.rd t b).toNat) : spsubOp s a b t s' c = none := by
  simp only [spsubOp, ho]
  refine if_pos ?_
  unfold OpenPass.Takes at hbad
  simp only [Bool.or_eq_true, bne_iff_ne, decide_eq_true_eq]
  omega

theorem spendOp_of_none {abort : Bool} (ho : c.open_ = none) : spendOp abort t s' c = none := by simp [spendOp, ho]

theorem spendOp_of_some {abort : Bool} {p : OpenPass} (ho : c.open_ = some p) :
    spendOp abort t s' c = some (.endP p.id abort, fun x => { x with open_ := none }) := by simp [spendOp, ho]

theorem addressesOp_of_good {K : Nat → Nat → SplKind} (ha : (s.rd2 t a).toNat % 64 = 0) (hb : (s.rd2 t b).toNat % 64 = 0) :
    addressesOp K s a b t s' c = some (K (s.rd2 t a).toNat (s.rd2 t b).toNat, id) :=
  if_neg (by simp [ha, hb])

theorem addressesOp_of_bad {K : Nat → Nat → SplKind} (hbad : (s.rd2 t a).toNat % 64 ≠ 0 ∨ (s.rd2 t b).toNat % 64 ≠ 0) :
    addressesOp K s a b t s' c = none :=
  if_pos (by simpa using hbad)

end

/-! ## SPQRY (R173) -/

/-- The fields of the word of SPQRY. -/
theorem spqryWord_fields (opened bad held : Bool) (n : Nat) (ovf : BitVec 3) :
    let w := BitVec.ofNat 32 ((if opened then 1 else 0) + (if bad then 2 else 0) + (if held then 4 else 0) + n % 32 * 2 ^ 8 + ovf.toNat * 2 ^ 16)
    w.getLsbD 0 = opened ∧ w.getLsbD 1 = bad ∧ w.getLsbD 2 = held ∧ w.extractLsb' 3 5 = 0 ∧ (w.extractLsb' 8 5).toNat = n % 32 ∧
      w.extractLsb' 13 3 = 0 ∧ w.extractLsb' 16 3 = ovf ∧ w.extractLsb' 19 13 = 0 := by
  intro w
  have hovf := ovf.isLt
  have hsum : (if opened then 1 else 0) + (if bad then 2 else 0) + (if held then 4 else 0) = opened.toNat + 2 * bad.toNat + 4 * held.toNat := by
    cases opened <;> cases bad <;> cases held <;> rfl
  have h₀ := Bool.toNat_le opened
  have h₁ := Bool.toNat_le bad
  have h₂ := Bool.toNat_le held
  have hw : w.toNat = opened.toNat + 2 * bad.toNat + 4 * held.toNat + n % 32 * 2 ^ 8 + ovf.toNat * 2 ^ 16 := by
    simp only [w, hsum, BitVec.toNat_ofNat]
    omega
  have bit (k : Nat) (b : Bool) (hb : w.toNat / 2 ^ k % 2 = b.toNat) : w.getLsbD k = b := by
    rw [BitVec.getLsbD, Nat.testBit_eq_decide_div_mod_eq, hb]
    cases b <;> rfl
  have field (lo len : Nat) (v : BitVec len) (hv : w.toNat / 2 ^ lo % 2 ^ len = v.toNat) : w.extractLsb' lo len = v := by
    apply BitVec.eq_of_toNat_eq
    rw [BitVec.extractLsb'_toNat, Nat.shiftRight_eq_div_pow, hv]
  have hlen : (w.extractLsb' 8 5).toNat = n % 32 := by
    rw [BitVec.extractLsb'_toNat, Nat.shiftRight_eq_div_pow, hw]
    omega
  refine ⟨bit 0 _ ?_, bit 1 _ ?_, bit 2 _ ?_, field 3 5 _ ?_, hlen, field 13 3 _ ?_, field 16 3 _ ?_, field 19 13 _ ?_⟩
  all_goals
    simp only [hw, BitVec.ofNat_eq_ofNat, BitVec.toNat_ofNat]
    omega

theorem State.held_iff {s : State} {core : CoreId} : s.held core = true ↔ ∃ x ∈ s.en.holders, x.1 = core := by
  simp [State.held]

/-- The word of SPQRY where its thread has a context. -/
theorem State.spqry_eq {s : State} {t : Thread} {c : Ctx} (hctx : s.ctxOf t = some c) :
    s.spqry t = BitVec.ofNat 32 ((if c.open_.isSome then 1 else 0) +
      (if c.open_.any fun p => c.passes.any fun x => x.id == p.id && x.failed then 2 else 0) +
      (if s.held t.place.core then 4 else 0) + c.splq.length % 32 * 2 ^ 8 + c.ovf.toNat * 2 ^ 16) := by
  simp only [State.spqry, State.splCount, hctx]
  cases c.open_ <;> rfl

/-- Settles O41: an issue by one thread is `splIssue` of what the instruction checks, and SPQRY answers the fields of `spqry_eq`. -/
theorem splatInstructionsIssue : Obligations.SplatInstructionsIssue := by
  unfold Obligations.SplatInstructionsIssue
  intro s t c h a b d q hctx A B n room Enq Traps listed queue
  have enq {i : Instr} {ask : Ask} {k : SplKind} {F : Ctx → Ctx} {f : Thread → State → Ctx → Option (SplKind × (Ctx → Ctx))}
      (he : exec i s = splIssue h ask f s) (hgo : room → s.Runs h i t → s.fate h ask t = .go) (hk : f t s c = some (k, F))
      (hF : ∀ x, (F x).id = x.id) : room → s.Runs h i t → ∃ s', exec i s = .next s' ∧ s.Queues s' t c (s.splQueued t k (F c)) :=
    fun hroom hr => ⟨_, he.trans (splIssue_puts hr.front (hgo hroom hr) hctx hk), State.splPut_queues hctx hr.thread k F hF⟩
  have traps {i : Instr} {ask : Ask} {f : Thread → State → Ctx → Option (SplKind × (Ctx → Ctx))}
      (he : exec i s = splIssue h ask f s) (hgo : room → s.Runs h i t → s.fate h ask t = .go) (hk : f t s c = none) : Traps i 0x02 :=
    fun hroom hr => he.trans (splIssue_traps hr.front (hgo hroom hr) hctx hk)
  have go {i : Instr} : room → s.Runs h i t → s.fate h (s.splAsk i h) t = .go := fun hroom hr => hr.splAsk_go hctx hroom.1 hroom.2
  have beginGo (hl : listed) : room → s.Runs h (.spbegin h a q) t → s.fate h (s.beginAsk (.spbegin h a q) h q) t = .go :=
    fun hroom hr => hr.beginAsk_go hctx hroom.1 hroom.2 hl
  refine ⟨fun ha h₁ h₂ => enq (exec_spview s h a b) go (spviewOp_of_good ha h₁ h₂) fun _ => rfl,
    fun hbad => traps (exec_spview s h a b) go (spviewOp_of_bad hbad), fun hl _ hr => ?_,
    fun hl hbad => traps (exec_spbegin s h a q) (beginGo hl) (spbeginOp_of_bad hbad),
    fun hl ha ho => enq (exec_spbegin s h a q) (beginGo hl) (spbeginOp_of_good ha ho) fun _ => rfl,
    fun ho => ⟨traps (exec_spsub s h a b) go (spsubOp_of_none ho), traps (exec_spend s h) go (spendOp_of_none ho),
      traps (exec_spendAbort s h) go (spendOp_of_none ho)⟩,
    fun p ho => ⟨fun hok => enq (exec_spsub s h a b) go (spsubOp_of_good ho hok) fun _ => rfl,
      fun hbad => traps (exec_spsub s h a b) go (spsubOp_of_bad ho hbad), enq (exec_spend s h) go (spendOp_of_some ho) fun _ => rfl,
      enq (exec_spendAbort s h) go (spendOp_of_some ho) fun _ => rfl⟩,
    fun ha hb => ⟨enq (exec_spbwd s h a b) go (addressesOp_of_good ha hb) fun _ => rfl,
      enq (exec_spred s h a b) go (addressesOp_of_good ha hb) fun _ => rfl⟩,
    fun hbad => ⟨traps (exec_spbwd s h a b) go (addressesOp_of_bad hbad), traps (exec_spred s h a b) go (addressesOp_of_bad hbad)⟩,
    fun ht hr => ?_⟩
  · obtain ⟨x, rfl, hx⟩ : ∃ x, q = some x ∧ s.binding t x.val = none := by simpa [listed] using hl
    exact (exec_spbegin s h a (some x)).trans (splIssue_refused hr.front (hr.beginAsk_unlisted hx))
  · obtain ⟨hopen, hbad, hheld, hrest⟩ := spqryWord_fields c.open_.isSome (c.open_.any fun p => c.passes.any fun x => x.id == p.id && x.failed)
      (s.held t.place.core) c.splq.length c.ovf
    rw [← State.spqry_eq hctx] at hopen hbad hheld hrest
    exact ⟨_, s.spqry t, (exec_spqry s h d).trans (hr.mxQuery ht d _),
      State.writes_wrSpan hr.thread Thread.advance (fun _ => rfl) rfl rfl d [s.spqry t], hopen, hbad, by rw [hheld, State.held_iff], hrest⟩

end Sys2Proof.Machine

namespace Sys2Proof.Machine

/-! ## Engines under an agent's accesses (R226, R298) -/

/-- Updates of contexts that commute, each keeping identities. -/
theorem State.onCtx_comm (s : State) (j k : Nat) {F G : Ctx → Ctx} (hF : ∀ x, (F x).id = x.id) (hG : ∀ x, (G x).id = x.id)
    (hFG : ∀ x, F (G x) = G (F x)) : (s.onCtx k F).onCtx j G = (s.onCtx j G).onCtx k F := by
  simp only [State.onCtx, State.onEn, List.map_map]
  congr 2
  refine List.map_congr_left fun x _ => ?_
  cases hj : x.id == j <;> cases hk : x.id == k <;>
    simp only [Function.comp_apply, hj, hk, hF, hG, hFG, Bool.false_eq_true, if_true, if_false]

/-- An update of the engines that no shadow region sees: neither which region holds back a write nor what it holds. -/
structure UnseenByShadows (f : EngState → EngState) : Prop where
  regionAt : ∀ (s : State) g va, (s.onEn f).regionAt g va = s.regionAt g va
  holdWrite : ∀ (s : State) g n cells bad, (s.onEn f).holdWrite g n cells bad = (s.holdWrite g n cells bad).onEn f

/-- An update of a context outside its identity and its shadow regions. -/
theorem unseenByShadows_ctx (k : Nat) {F : Ctx → Ctx} (hid : ∀ x, (F x).id = x.id) (hsh : ∀ x, (F x).shadows = x.shadows)
    (hF : ∀ x l, F { x with shadows := l } = { F x with shadows := l }) :
    UnseenByShadows fun e => { e with ctxs := e.ctxs.map fun x => if x.id == k then F x else x } := by
  refine ⟨fun s g va => ?_, fun s g n cells bad => ?_⟩
  · have hctx : (s.onCtx k F).ctx g.ctx = (s.ctx g.ctx).map fun x => if g.ctx = k then F x else x :=
      State.ctx_onCtx s k _ F fun x hx => (hid x).trans hx
    show (s.onCtx k F).regionAt g va = _
    rw [State.regionAt, State.regionAt, hctx]
    cases s.ctx g.ctx with
    | none => rfl
    | some x =>
      by_cases hk : g.ctx = k
      · simp only [Option.map_some, if_pos hk, hsh]
      · simp only [Option.map_some, if_neg hk]
  · exact s.onCtx_comm g.ctx k hid (fun _ => rfl) fun x => (hF x _).trans (by rw [hsh])

section
variable {f : EngState → EngState}

theorem State.fillTlb_onEn (s : State) (x : Xl) (va : Nat) : (s.onEn f).fillTlb x va = (s.fillTlb x va).onEn f := by
  have h₁ : (s.onEn f).inL1Tlb x va = s.inL1Tlb x va := rfl
  have h₂ : (s.onEn f).inL2Tlb x va = s.inL2Tlb x va := rfl
  have hl : (s.onEn f).lookup x va = s.lookup x va := rfl
  simp only [State.fillTlb, h₁, h₂, hl]
  split
  · rfl
  · cases s.inL2Tlb x va <;> cases s.lookup x va <;> rfl

theorem State.agentRead_onEn (s : State) (x : Xl) (w : Who) (sc : Scope) (va n : Nat) :
    (s.onEn f).agentRead x w sc va n = s.agentRead x w sc va n := by
  have hp : ∀ l, (s.onEn f).agentPieces x .read l = s.agentPieces x .read l := fun l => by
    induction l with
    | nil => rfl
    | cons p l ih => simp only [State.agentPieces, ih]; rfl
  simp only [State.agentRead, hp]
  rfl

theorem State.splSteer_onEn (s : State) (x : Xl) (w : Who) (a n : Nat) : (s.onEn f).splSteer x w a n = s.splSteer x w a n := by
  simp only [State.splSteer, State.splRead, State.agentRead_onEn]

/-- The outcome of writes in a state whose engines have been updated. -/
def afterOnEn (f : EngState → EngState) (r : List Nat × State) : List Nat × State := (r.1, r.2.onEn f)

variable (hf : UnseenByShadows f)
include hf

theorem State.agentPiece_onEn (s : State) (g : Agent) (va : Nat) (bs : List Byte) (bad : Bool) :
    (s.onEn f).agentPiece g va bs bad = (s.agentPiece g va bs bad).map (afterOnEn f) := by
  have hat : (s.onEn f).agentAt g.xl .write va = s.agentAt g.xl .write va := rfl
  simp only [State.agentPiece, hat, State.fillTlb_onEn, hf.regionAt]
  split
  · rfl
  · rfl
  · split
    · rw [hf.holdWrite]; rfl
    · rfl

theorem State.agentWrite_onEn (s : State) (g : Agent) (bad : Bool) (l : List (Nat × Nat)) (bs : List Byte) :
    (s.onEn f).agentWrite g bad l bs = (s.agentWrite g bad l bs).map (afterOnEn f) := by
  induction l generalizing s bs with
  | nil => rfl
  | cons p l ih =>
    rw [State.agentWrite, State.agentWrite, State.agentPiece_onEn hf]
    cases s.agentPiece g (p.1 % 2 ^ 64) (bs.take p.2) bad with
    | error e => rfl
    | ok r =>
      simp only [Except.map, afterOnEn, ih]
      cases r.2.agentWrite g bad l (bs.drop p.2) <;> rfl

theorem State.splWrites_onEn (s : State) (g : Agent) (l : List (Nat × List Byte)) :
    (s.onEn f).splWrites g l = (s.splWrites g l).map (afterOnEn f) := by
  induction l generalizing s with
  | nil => rfl
  | cons p l ih =>
    rw [State.splWrites, State.splWrites, State.agentWrite_onEn hf]
    cases s.agentWrite g false (pieces p.1 p.2.length) p.2 with
    | error e => rfl
    | ok r =>
      simp only [Except.map, afterOnEn, ih]
      cases r.2.splWrites g l <;> rfl

theorem State.splWrites_onEn_ok {s : State} {g : Agent} {l : List (Nat × List Byte)} {w : List Nat × State} (h : s.splWrites g l = .ok w) :
    (s.onEn f).splWrites g l = .ok (w.1, w.2.onEn f) := by
  rw [State.splWrites_onEn hf, h]
  rfl

theorem State.splWrites_onEn_error {s : State} {g : Agent} {l : List (Nat × List Byte)} {e : SErr} (h : s.splWrites g l = .error e) :
    (s.onEn f).splWrites g l = .error e := by
  rw [State.splWrites_onEn hf, h]
  rfl

end

/-! ## What writes of an agent leave as it was -/

theorem State.fillTlb_en (s : State) (x : Xl) (va : Nat) : (s.fillTlb x va).en = s.en := by
  unfold State.fillTlb
  split
  · rfl
  · cases s.inL2Tlb x va <;> cases s.lookup x va <;> rfl

theorem State.agentPiece_holders {s : State} {g : Agent} {va : Nat} {bs : List Byte} {bad : Bool} {r : List Nat × State}
    (h : s.agentPiece g va bs bad = .ok r) : r.2.en.holders = s.en.holders := by
  unfold State.agentPiece at h
  split at h
  · cases h; rfl
  · cases h
  · dsimp only at h
    have hfill : (s.fillTlb g.xl va).en.holders = s.en.holders := congrArg EngState.holders (s.fillTlb_en g.xl va)
    split at h
    · cases h; exact hfill
    · cases h; exact hfill

theorem State.agentWrite_holders {s : State} {g : Agent} {bad : Bool} {l : List (Nat × Nat)} {bs : List Byte} {r : List Nat × State}
    (h : s.agentWrite g bad l bs = .ok r) : r.2.en.holders = s.en.holders := by
  induction l generalizing s bs r with
  | nil => cases h; rfl
  | cons p l ih =>
    rw [State.agentWrite] at h
    split at h
    · cases h
    next r₁ h₁ =>
      split at h
      · cases h
      next r₂ h₂ => cases h; exact (ih h₂).trans (State.agentPiece_holders h₁)

theorem State.splWrites_holders {s : State} {g : Agent} {l : List (Nat × List Byte)} {r : List Nat × State}
    (h : s.splWrites g l = .ok r) : r.2.en.holders = s.en.holders := by
  induction l generalizing s r with
  | nil => cases h; rfl
  | cons p l ih =>
    rw [State.splWrites] at h
    split at h
    · cases h
    next r₁ h₁ =>
      split at h
      · cases h
      next r₂ h₂ => cases h; exact (ih h₂).trans (State.agentWrite_holders h₁)

end Sys2Proof.Machine

namespace Sys2Proof.Machine

/-! ## The head of a context's SPL queue (R137) -/

theorem State.ctx_onCtx_at {s : State} {k : Nat} {c : Ctx} (h : s.ctx k = some c) (f : Ctx → Ctx) (hf : ∀ x, (f x).id = x.id) :
    (s.onCtx k f).ctx k = some (f c) := by
  have hid := State.ctx_id h
  subst hid
  exact State.ctx_onCtx_self h f fun x hx => (hf x).trans hx

theorem State.splHead_eq {s : State} {k : Nat} {c : Ctx} {o : SplOp} {l : List SplOp} (hc : s.ctx k = some c) (hq : c.splq = o :: l) :
    s.splHead k = if o.stalled || s.md.failed.getLsbD c.core.die then none else some (c, o) := by
  simp only [State.splHead, hc, hq]

/-- An operation that has not run does not finish. -/
theorem State.splFinish_of_unrun {s : State} {k : Nat} {c : Ctx} {o : SplOp} (h : s.splHead k = some (c, o)) (hp : o.phase = 0) : s.splFinish k = s := by
  simp [State.splFinish, h, hp]

/-- An operation that waits for the handler of its fault does not finish. -/
theorem State.splFinish_of_stalled {s : State} {k : Nat} {c : Ctx} {o : SplOp} {l : List SplOp} (hc : s.ctx k = some c) (hq : c.splq = o :: l)
    (hs : o.stalled = true) : s.splFinish k = s := by
  simp [State.splFinish, State.splHead_eq hc hq, hs]

theorem State.onSpl_ctx {s : State} {k : Nat} {c : Ctx} {o : SplOp} {l : List SplOp} (hc : s.ctx k = some c) (hq : c.splq = o :: l) (f : SplOp → SplOp) :
    (s.onSpl k f).ctx k = some { c with splq := f o :: l } := by
  unfold State.onSpl
  rw [State.ctx_onCtx_at hc _ (by exact fun _ => rfl), hq]

/-- An operation as it stands before it runs. -/
def SplOp.fresh (e : EngOp) (k : SplKind) : SplOp := ⟨e, k, false, 0, [], [], none, [], []⟩

section
variable {s s₁ : State} {c c' : Ctx} {e : EngOp} {k : SplKind} {l : List SplOp} {t : Thread}

theorem State.SplatAt.splHead (he : s.SplatAt c e k l t) : s.splHead c.id = some (c, SplOp.fresh e k) := by
  rw [State.splHead_eq he.ctx he.queue, he.works]
  rfl

theorem State.SplatAt.tid (he : s.SplatAt c e k l t) : e.tid = t.id := (State.thread_id he.thread).symm

theorem State.SplatAt.agentOf (he : s.SplatAt c e k l t) : s.agentOf e.tid = some (t.xl, t.who) := by
  rw [State.agentOf, he.thread]
  rfl

section
variable {sel : SplKind → Bool} {run : State → Ctx → SplOp → Xl → Who → Except SErr State} {onBad : State → Ctx → SplOp → Cause → State}

/-- The head runs, and then finishes if it may. -/
theorem State.SplatAt.splRun_ok (he : s.SplatAt c e k l t) (hsel : sel k = true) (h : run s c (SplOp.fresh e k) t.xl t.who = .ok s₁) :
    splRun sel run onBad c.id s = .next (s₁.splFinish c.id) := by
  have ha : s.agentOf (SplOp.fresh e k).eng.tid = some (t.xl, t.who) := he.agentOf
  have hsel' : sel (SplOp.fresh e k).kind = true := hsel
  have hphase : (SplOp.fresh e k).phase = 0 := rfl
  simp [splRun, he.splHead, ha, hsel', hphase, h]

/-- The head finds a record that it cannot use. -/
theorem State.SplatAt.splRun_bad (he : s.SplatAt c e k l t) (hsel : sel k = true) {x : Cause}
    (h : run s c (SplOp.fresh e k) t.xl t.who = .error (.bad x)) :
    splRun sel run onBad c.id s = .next ((onBad s c (SplOp.fresh e k) x).splFinish c.id) := by
  have ha : s.agentOf (SplOp.fresh e k).eng.tid = some (t.xl, t.who) := he.agentOf
  have hsel' : sel (SplOp.fresh e k).kind = true := hsel
  have hphase : (SplOp.fresh e k).phase = 0 := rfl
  simp [splRun, he.splHead, ha, hsel', hphase, h]

end

section
variable (cx : Nat) (s : State)

theorem exec_spviewOperation : exec (.spviewOperation cx) s = execSpviewOperation cx s := rfl
theorem exec_spbeginOperation : exec (.spbeginOperation cx) s = execSpbeginOperation cx s := rfl
theorem exec_spsubOperation : exec (.spsubOperation cx) s = execSpsubOperation cx s := rfl
theorem exec_spendOperation : exec (.spendOperation cx) s = execSpendOperation cx s := rfl
theorem exec_spendAbortOperation : exec (.spendAbortOperation cx) s = execSpendAbortOperation cx s := rfl
theorem exec_spbwdOperation : exec (.spbwdOperation cx) s = execSpbwdOperation cx s := rfl
theorem exec_spredOperation : exec (.spredOperation cx) s = execSpredOperation cx s := rfl
theorem exec_tileRecordPush (n : Nat) : exec (.tileRecordPush cx n) s = execTileRecordPush cx n s := rfl

end

/-- An operation has run in a state that it has reached by way of another, in which its context has become c'. -/
theorem State.SplatRuns.of_splRan {ev : Instr} {ws : List Nat} {last : Option (Nat × List Byte)} {cs : List Cause} {rs : List (Nat × Nat × Nat)}
    {P : State → Prop} {aux : List Nat} (hexec : exec ev s = .next ((s₁.splRan c.id ws last cs rs).splFinish c.id))
    (hctx : s₁.ctx c.id = some { c' with splq := { SplOp.fresh e k with aux := aux } :: l }) (hP : P (s₁.splRan c.id ws last cs rs)) :
    s.SplatRuns ev c e k l c' ws last cs rs P :=
  ⟨_, aux, hexec, State.onSpl_ctx hctx rfl _, hP⟩

/-- The context of the head as it stands in another state. -/
theorem State.SplatAt.ctx_fresh (he : s.SplatAt c e k l t) {s' : State} (h : s'.ctx c.id = some c) :
    s'.ctx c.id = some { c with splq := { SplOp.fresh e k with aux := [] } :: l } := by
  rw [h, Option.some_inj]
  show _ = { c with splq := ⟨e, k, false, 0, [], [], none, [], []⟩ :: l }
  rw [← he.queue]

/-- The same, after an update outside its queue. -/
theorem State.SplatAt.ctx_onCtx_fresh (he : s.SplatAt c e k l t) {s' : State} (h : s'.ctx c.id = some c) (f : Ctx → Ctx) (hid : ∀ x, (f x).id = x.id)
    (hq : (f c).splq = c.splq) : (s'.onCtx c.id f).ctx c.id = some { f c with splq := { SplOp.fresh e k with aux := [] } :: l } := by
  rw [State.ctx_onCtx_at h f hid, Option.some_inj]
  show _ = { f c with splq := ⟨e, k, false, 0, [], [], none, [], []⟩ :: l }
  rw [← he.queue, ← hq]

/-! ## Units (R146) -/

theorem State.held_iff_holder {core : CoreId} : s.held core = true ↔ ∃ n, (core, n) ∈ s.en.holders := by
  simp [State.held]

theorem State.takeUnits_none {cs : List CoreId} {n : Nat} (h : ∃ x ∈ cs, ∃ n, (x, n) ∈ s.en.holders) : s.takeUnits cs n = none :=
  if_pos (by simpa only [List.any_eq_true, State.held_iff_holder] using h)

/-- The state in which a holder has taken the units of cores. -/
def State.taking (s : State) (cs : List CoreId) (n : Nat) : State :=
  s.onEn fun e => { e with holders := e.holders ++ cs.map fun x => (x, n) }

theorem State.takeUnits_some {cs : List CoreId} {n : Nat} (h : ∀ x ∈ cs, ∀ n, (x, n) ∉ s.en.holders) : s.takeUnits cs n = some (s.taking cs n) :=
  if_neg (by simpa only [List.any_eq_true, State.held_iff_holder, not_exists, not_and] using h)

theorem State.passHolds_iff {p : Nat} : s.passHolds p = true ↔ ∃ x, (x, p) ∈ s.en.holders := by
  simp [State.passHolds]

theorem State.passHolds_eq_false {p : Nat} (h : ∀ x, (x, p) ∉ s.en.holders) : s.passHolds p = false := by
  rw [← Bool.not_eq_true, State.passHolds_iff, not_exists]
  exact h

theorem State.unitsWait_eq {o : SplOp} (ht : s.thread o.eng.tid = some t) :
    s.unitsWait o = if t.exited = true ∨ t.stop ≠ none ∨ t.wait ≠ .none then s
      else (s.leave t.id).onThread t.id fun x => { x with wait := .units o.eng.id, mode := if x.mode = .run then .cont false else x.mode } := by
  simp only [State.unitsWait, ht, Bool.or_eq_true, Option.isSome_iff_ne_none, bne_iff_ne, beq_iff_eq, or_assoc]

/-- An operation that finds units held waits, and its thread with it. -/
theorem State.SplatAt.unitsHeld (he : s.SplatAt c e k l t) {ev : Instr}
    (hexec : exec ev s = .next ((s.unitsWait (SplOp.fresh e k)).splFinish c.id)) : s.UnitsHeld ev e k t := by
  have ht : s.thread t.id = some t := he.tid ▸ he.thread
  have hwait := State.unitsWait_eq (o := SplOp.fresh e k) he.thread
  by_cases hb : t.exited = true ∨ t.stop ≠ none ∨ t.wait ≠ .none
  · rw [if_pos hb] at hwait
    rw [hwait, State.splFinish_of_unrun he.splHead rfl] at hexec
    exact ⟨s, hexec, rfl, rfl, fun _ _ => rfl, by rw [if_pos hb, ht]⟩
  · rw [if_neg hb] at hwait
    have hhead : (s.unitsWait (SplOp.fresh e k)).splHead c.id = some (c, SplOp.fresh e k) := by rw [hwait]; exact he.splHead
    rw [State.splFinish_of_unrun hhead rfl, hwait] at hexec
    refine ⟨_, hexec, rfl, rfl, fun u hu => State.thread_onThread_ne (s.leave t.id) hu _ fun _ => id, ?_⟩
    rw [if_neg hb]
    exact State.thread_onThread_self (s := s.leave t.id) ht _ fun _ => id

end

/-! ## Faults of an operation (R164, R410) -/

theorem State.tried_en (s : State) (tid a : Nat) : (s.tried tid a).en = s.en := by
  unfold State.tried
  split
  · exact s.fillTlb_en _ a
  · rfl

/-- An operation that stalls stays at the head, and the units held are as they were. -/
theorem State.splStall_keeps {s : State} {c c' : Ctx} {o o' : SplOp} {l : List SplOp} (hc : s.ctx c.id = some c') (hq : c'.splq = o' :: l) (f : Flt) (a : Nat) :
    (s.splStall c o f a).ctx c.id = some { c' with splq := { o' with stalled := true } :: l } ∧ (s.splStall c o f a).en.holders = s.en.holders := by
  have hen := s.tried_en o.eng.tid a
  have htried : (s.tried o.eng.tid a).ctx c.id = some c' := by rw [State.ctx, hen]; exact hc
  have hholders : (s.tried o.eng.tid a).en.holders = s.en.holders := congrArg EngState.holders hen
  exact ⟨State.onSpl_ctx htried hq _, hholders⟩

end Sys2Proof.Machine

namespace Sys2Proof.Machine

/-! ## What an operation reads (R157, R459) -/

section
variable {s : State} {x : Xl} {w : Who} {a n : Nat} {r : ReadRes}

theorem State.splSteer_ok (h : s.agentRead x w .die a n = .ok r) (hp : r.poison = false) : s.splSteer x w a n = .ok r.val := by
  simp [State.splSteer, State.splRead, h, hp]

theorem State.splSteer_poisoned (h : s.agentRead x w .die a n = .ok r) (hp : r.poison = true) : s.splSteer x w a n = .error (.bad splPoison) := by
  simp [State.splSteer, State.splRead, h, hp]

end

theorem mapM_ok {ε α β : Type} {f : α → Except ε β} {g : α → β} {l : List α} (h : ∀ x ∈ l, f x = .ok (g x)) : l.mapM f = .ok (l.map g) := by
  induction l with
  | nil => rfl
  | cons x l ih => rw [List.mapM_cons, h x List.mem_cons_self, ih fun y hy => h y (List.mem_cons_of_mem _ hy)]; rfl

/-- Answers for the numbers below n, as a list of n values. -/
theorem mapM_range_ok {ε : Type} {f : Nat → Except ε Nat} {vs : List Nat} (h : ∀ i, i < vs.length → f i = .ok (vs.getD i 0)) :
    (List.range vs.length).mapM f = .ok vs := by
  rw [mapM_ok fun i hi => h i (List.mem_range.mp hi)]
  congr 1
  exact List.ext_getElem (by simp) fun i hi hi' => by simp [List.getD_eq_getElem?_getD, hi']

/-! ## The operations of passes (R145 to R147, R167 to R170) -/

/-- A context with an update of one of its passes. -/
def Ctx.withPass (c : Ctx) (p : Nat) (f : Pass → Pass) : Ctx := { c with passes := c.passes.map fun x => if x.id == p then f x else x }

/-- Nothing of memory, of the work and of the units held differs. -/
def State.SameWork (s s' : State) : Prop := s'.ms = s.ms ∧ s'.wk = s.wk ∧ s'.en.holders = s.en.holders

section
variable {s : State} {c : Ctx} {e : EngOp} {l : List SplOp} {t : Thread}

/-- SPVIEW loads its table. -/
theorem State.SplatAt.view_runs {va n : Nat} {vs : List Nat} (he : s.SplatAt c e (.view va n) l t) (hlen : vs.length = n)
    (hrd : ∀ i, i < n → ∃ r, s.agentRead t.xl t.who .die (va + 64 * i) 64 = .ok r ∧ r.poison = false ∧ r.val = vs.getD i 0) :
    s.SplatRuns (.spviewOperation c.id) c e (.view va n) l { c with views := vs } [] none [] [] s.SameWork := by
  subst hlen
  have hread : (List.range vs.length).mapM (fun i => s.splSteer t.xl t.who (va + 64 * i) 64) = .ok vs := mapM_range_ok fun i hi => by
    obtain ⟨r, hr, hp, hv⟩ := hrd i hi
    rw [State.splSteer_ok hr hp, hv]
  have hrun : runView s c (SplOp.fresh e (.view va vs.length)) t.xl t.who =
      .ok ((s.onCtx c.id fun y => { y with views := vs }).splRan c.id [] none [] []) := by
    rw [runView]
    simp only [SplOp.fresh, hread]
  exact .of_splRan ((exec_spviewOperation c.id s).trans (he.splRun_ok rfl hrun))
    (he.ctx_onCtx_fresh he.ctx (fun y => { y with views := vs }) (fun _ => rfl) rfl) ⟨rfl, rfl, rfl⟩

/-- R459: over a poisoned first entry the view table is left without views. -/
theorem State.SplatAt.view_poisoned {va n : Nat} {r : ReadRes} (he : s.SplatAt c e (.view va (n + 1)) l t)
    (hr : s.agentRead t.xl t.who .die va 64 = .ok r) (hp : r.poison = true) :
    s.SplatRuns (.spviewOperation c.id) c e (.view va (n + 1)) l { c with views := [] } [] none [splPoison] [] s.SameWork := by
  have hread : (List.range (n + 1)).mapM (fun i => s.splSteer t.xl t.who (va + 64 * i) 64) = .error (.bad splPoison) := by
    rw [List.range_succ_eq_map, List.mapM_cons, Nat.mul_zero, Nat.add_zero, State.splSteer_poisoned hr hp]
    rfl
  have hrun : runView s c (SplOp.fresh e (.view va (n + 1))) t.xl t.who = .error (.bad splPoison) := by
    rw [runView]
    simp only [SplOp.fresh, hread]
  exact .of_splRan ((exec_spviewOperation c.id s).trans (he.splRun_bad rfl hrun))
    (he.ctx_onCtx_fresh he.ctx (fun y => { y with views := [] }) (fun _ => rfl) rfl) ⟨rfl, rfl, rfl⟩

/-! ### SPBEGIN -/

/-- The pass has been checked, and holds its units. -/
def State.begun (s : State) (c : Ctx) (p d : Nat) : State :=
  (s.taking (pdCores d) p).onCtx c.id fun x => x.withPass p fun y => { y with tm := pdTm d, bits := d }

theorem Ctx.unseen_withPass (k p : Nat) (f : Pass → Pass) :
    UnseenByShadows fun e => { e with ctxs := e.ctxs.map fun x => if x.id == k then x.withPass p f else x } :=
  unseenByShadows_ctx k (fun _ => rfl) (fun _ => rfl) fun _ _ => rfl

/-- SPBEGIN's operation reads the descriptor d of its pass ps, which holds no units. -/
structure State.BeginAt (s : State) (c : Ctx) (e : EngOp) (l : List SplOp) (t : Thread) (p : Nat) (ps : Pass) (d : Nat) : Prop
    extends s.SplatAt c e (.beginP p) l t where
  pass : c.passOf p = some ps
  unheld : s.passHolds p = false
  desc : s.splSteer t.xl t.who ps.desc 256 = .ok d

section
variable {p d : Nat} {ps : Pass}

/-- The first check of R145 that a descriptor fails. -/
def State.descCheck (s : State) (c : Ctx) (ps : Pass) (d : Nat) : Option Nat :=
  pdCheck (fun i => s.md.dies.getLsbD i) c.views.length (queueBad ps c.core d) d

theorem State.BeginAt.fails {x : Nat} (he : s.BeginAt c e l t p ps d) (hcheck : s.descCheck c ps d = some x) :
    s.SplatRuns (.spbeginOperation c.id) c e (.beginP p) l (c.withPass p fun y => { y with failed := true }) [] none [splCause x] [] s.SameWork := by
  have hrun : runBegin s c (SplOp.fresh e (.beginP p)) t.xl t.who = .error (.bad (splCause x)) := by
    unfold State.descCheck at hcheck
    rw [runBegin]
    simp only [SplOp.fresh, he.pass, he.unheld, he.desc, hcheck, Bool.false_eq_true, if_false]
  exact .of_splRan ((exec_spbeginOperation c.id s).trans (he.splRun_bad rfl hrun))
    (he.ctx_onCtx_fresh he.ctx (fun y => y.withPass p fun y => { y with failed := true }) (fun _ => rfl) rfl) ⟨rfl, rfl, rfl⟩

theorem State.BeginAt.waits (he : s.BeginAt c e l t p ps d) (hcheck : s.descCheck c ps d = none)
    (hheld : ∃ x ∈ pdCores d, ∃ n, (x, n) ∈ s.en.holders) : s.UnitsHeld (.spbeginOperation c.id) e (.beginP p) t := by
  have hrun : runBegin s c (SplOp.fresh e (.beginP p)) t.xl t.who = .ok (s.unitsWait (SplOp.fresh e (.beginP p))) := by
    unfold State.descCheck at hcheck
    rw [runBegin]
    simp only [SplOp.fresh, he.pass, he.unheld, he.desc, hcheck, State.takeUnits_none hheld, Bool.false_eq_true, if_false]
  exact he.unitsHeld ((exec_spbeginOperation c.id s).trans (he.splRun_ok rfl hrun))

section
variable (he : s.BeginAt c e l t p ps d) (hcheck : s.descCheck c ps d = none) (hunits : ∀ x ∈ pdCores d, ∀ n, (x, n) ∉ s.en.holders)
include he hcheck hunits

/-- SPBEGIN writes tile memory once the pass holds its units. -/
theorem State.BeginAt.run_eq : runBegin s c (SplOp.fresh e (.beginP p)) t.xl t.who =
    (s.begun c p d).splHolding c (SplOp.fresh e (.beginP p)) (fun s k => s.failPass c (SplOp.fresh e (.beginP p)) k)
      ((s.begun c p d).writeTm c (SplOp.fresh e (.beginP p)) t.xl t.who d) := by
  unfold State.descCheck at hcheck
  rw [runBegin]
  simp only [SplOp.fresh, he.pass, he.unheld, he.desc, hcheck, State.takeUnits_some hunits, Bool.false_eq_true, if_false]
  rfl

theorem State.BeginAt.writes {w : List Nat × State}
    (hw : (s.taking (pdCores d) p).splWrites ⟨t.who, t.xl, c.id, e.id⟩ [(pdTm d, tileMemory s d c.views)] = .ok w) (hctx : w.2.ctx c.id = some c) :
    s.SplatRuns (.spbeginOperation c.id) c e (.beginP p) l (c.withPass p fun y => { y with tm := pdTm d, bits := d }) w.1 none [] []
      fun s2 => s2.ms = w.2.ms ∧ s2.wk = w.2.wk ∧ s2.en.holders = (s.taking (pdCores d) p).en.holders := by
  have hwrites : (s.begun c p d).splWrites ⟨t.who, t.xl, c.id, e.id⟩ [(pdTm d, tileMemory (s.begun c p d) d c.views)] = _ :=
    State.splWrites_onEn_ok (Ctx.unseen_withPass c.id p fun y => { y with tm := pdTm d, bits := d }) hw
  have hrun := he.run_eq hcheck hunits
  simp only [State.writeTm, SplOp.fresh, hwrites, State.splHolding] at hrun
  exact .of_splRan ((exec_spbeginOperation c.id s).trans (he.splRun_ok rfl hrun))
    (he.ctx_onCtx_fresh hctx (fun y => y.withPass p fun y => { y with tm := pdTm d, bits := d }) (fun _ => rfl) rfl) ⟨rfl, rfl, State.splWrites_holders hw⟩

/-- A fault while tile memory is written leaves the pass with its units, and the operation at the head. -/
theorem State.BeginAt.faults {f : Flt} {a : Nat}
    (hw : (s.taking (pdCores d) p).splWrites ⟨t.who, t.xl, c.id, e.id⟩ [(pdTm d, tileMemory s d c.views)] = .error (.flt f a)) :
    ∃ s' c', exec (.spbeginOperation c.id) s = .next s' ∧ s'.en.holders = (s.taking (pdCores d) p).en.holders ∧ s'.ctx c.id = some c' ∧
      (c'.splq.head?.map SplOp.stalled) = some true := by
  have hwrites : (s.begun c p d).splWrites ⟨t.who, t.xl, c.id, e.id⟩ [(pdTm d, tileMemory (s.begun c p d) d c.views)] = _ :=
    State.splWrites_onEn_error (Ctx.unseen_withPass c.id p fun y => { y with tm := pdTm d, bits := d }) hw
  have hrun := he.run_eq hcheck hunits
  simp only [State.writeTm, SplOp.fresh, hwrites, State.splHolding] at hrun
  have hctx := he.ctx_onCtx_fresh (s' := s.taking (pdCores d) p) he.ctx (fun y => y.withPass p fun y => { y with tm := pdTm d, bits := d }) (fun _ => rfl) rfl
  obtain ⟨hstall, hholders⟩ := State.splStall_keeps hctx rfl (o := SplOp.fresh e (.beginP p)) f a
  have hexec := (exec_spbeginOperation c.id s).trans (he.splRun_ok rfl hrun)
  exact ⟨_, _, hexec.trans (congrArg _ (State.splFinish_of_stalled hstall rfl rfl)), hholders, hstall, rfl⟩

end

end

/-! ### SPSUB, SPEND and SPEND.ABORT -/

theorem Ctx.passOf_id {p : Nat} {ps : Pass} (h : c.passOf p = some ps) : ps.id = p := by
  simpa using List.find?_some h

/-- A pass that has not failed and holds its units takes none again. -/
theorem State.retake_eq_none {p : Nat} {ps : Pass} (hps : c.passOf p = some ps) (hholds : s.passHolds p = true) (o : SplOp) : s.retake o ps = none := by
  simp [State.retake, Ctx.passOf_id hps, hholds]

section
variable {p va n batch first : Nat} {ps : Pass} (he : s.SplatAt c e (.sub p va n batch first) l t) (hps : c.passOf p = some ps)
include he hps

theorem State.SplatAt.sub_failed (hf : ps.failed = true) :
    s.SplatRuns (.spsubOperation c.id) c e (.sub p va n batch first) l c [] none [] [] s.SameWork := by
  have hrun (o : SplOp) (hk : o.kind = .sub p va n batch first) : runSub s c o t.xl t.who = .ok (s.splRan c.id [] none [] []) := by
    rw [runSub]
    simp -zeta only [hk, hps, hf, if_true]
  exact .of_splRan ((exec_spsubOperation c.id s).trans (he.splRun_ok rfl (hrun _ rfl))) (he.ctx_fresh he.ctx) ⟨rfl, rfl, rfl⟩

/-- SPSUB reads its primitives and writes its batch entry. -/
theorem State.SplatAt.sub_writes {m : Nat} {ls : List PrimRead} {w : List Nat × State} (hf : ps.failed = false) (hholds : s.passHolds p = true)
    (hm : s.splSteer t.xl t.who ps.tm 0x2200 = .ok m) (hls : s.readPrims t.xl t.who (pdDies m) va first n = .ok ls)
    (hw : s.splWrites ⟨t.who, t.xl, c.id, e.id⟩ [(ps.tm + 0x4000 + 16 * batch, toBytes 8 va ++ toBytes 4 n ++ toBytes 4 first)] = .ok w)
    (hctx : w.2.ctx c.id = some c) :
    s.SplatRuns (.spsubOperation c.id) c e (.sub p va n batch first) l (c.withPass p fun y => { y with prims := y.prims ++ ls }) w.1 none [] []
      fun s2 => s2.ms = w.2.ms := by
  have hrun : runSub s c (SplOp.fresh e (.sub p va n batch first)) t.xl t.who =
      .ok ((w.2.onPass c.id p fun y => { y with prims := y.prims ++ ls }).splRan c.id w.1 none [] []) := by
    rw [runSub]
    simp only [SplOp.fresh, hps, hf, State.retake_eq_none hps hholds, hm, hls, hw, Bool.false_eq_true, if_false]
  exact .of_splRan ((exec_spsubOperation c.id s).trans (he.splRun_ok rfl hrun))
    (he.ctx_onCtx_fresh hctx (fun y => y.withPass p fun y => { y with prims := y.prims ++ ls }) (fun _ => rfl) rfl) rfl

end

/-- The event of a SPEND, or of a SPEND.ABORT. -/
def endEvent (abort : Bool) (cx : Nat) : Instr := if abort then .spendAbortOperation cx else .spendOperation cx

section
variable {p : Nat} {abort : Bool} {ps : Pass} (he : s.SplatAt c e (.endP p abort) l t)
include he

theorem State.SplatAt.end_exec {s₁ : State} (h : runEnd s c (SplOp.fresh e (.endP p abort)) t.xl t.who = .ok s₁) :
    exec (endEvent abort c.id) s = .next (s₁.splFinish c.id) := by
  cases abort
  · exact (exec_spendOperation c.id s).trans (he.splRun_ok rfl h)
  · exact (exec_spendAbortOperation c.id s).trans (he.splRun_ok rfl h)

variable (hps : c.passOf p = some ps)
include hps

/-- R147, R459: a pass that failed while it held its units ends with STATE 3. -/
theorem State.SplatAt.end_failed (hf : ps.failed = true) : s.SplatRuns (endEvent abort c.id) c e (.endP p abort) l c []
    (if s.passHolds p then some (ps.tm + 0x100, toBytes 4 3) else none) (primCauses ps.prims) [] s.SameWork := by
  have hrun (o : SplOp) (hk : o.kind = .endP p abort) : runEnd s c o t.xl t.who = .ok (s.splRan c.id []
      (if s.passHolds p then some (ps.tm + 0x100, toBytes 4 3) else none) (primCauses ps.prims) []) := by
    rw [runEnd]
    simp -zeta only [hk, hps, hf, if_true]
    rw [State.endFailed, Ctx.passOf_id hps, List.nil_append]
  exact .of_splRan (he.end_exec (hrun _ rfl)) (he.ctx_fresh he.ctx) ⟨rfl, rfl, rfl⟩

theorem State.SplatAt.end_aborted (hf : ps.failed = false) (hab : abort = true) : s.SplatRuns (endEvent abort c.id) c e (.endP p abort) l c []
    (some (ps.tm + 0x100, toBytes 4 2)) (primCauses ps.prims) [] s.SameWork := by
  have hrun : runEnd s c (SplOp.fresh e (.endP p abort)) t.xl t.who = .ok (s.splRan c.id [] (some (ps.tm + 0x100, toBytes 4 2)) (primCauses ps.prims) []) := by
    rw [runEnd]
    simp only [SplOp.fresh, hps, hf, hab, if_true, Bool.false_eq_true, if_false]
  exact .of_splRan (he.end_exec hrun) (he.ctx_fresh he.ctx) ⟨rfl, rfl, rfl⟩

/-- The tables that a SPEND writes into tile memory: its status, the directory, the lists (R153, R460). -/
def endTables (s : State) (tm d : Nat) (ts : List TileOut) : List (Nat × List Byte) :=
  [(tm + 0x104, toBytes 4 ((if ts.any TileOut.ovl then 1 else 0) + if ts.any TileOut.empty then 2 else 0)),
    (tm + 0x8000, (indexed ts).flatMap fun x => dirBytes s d x.1 x.2)] ++
  (ts.filter fun x => !x.empty && x.size != 0).map fun x => (tm + pdLists d + x.lofs.getD 0, listBytes x.list)

/-- SPEND writes its tables and its tiles, and STATE 1 last. -/
theorem State.SplatAt.end_writes {m d : Nat} {prims : List PrimRead} {ts : List TileOut} {w₁ w₂ : List Nat × State} {c₂ : Ctx} (hf : ps.failed = false)
    (hab : abort = false) (hholds : s.passHolds p = true) (hm : s.splSteer t.xl t.who ps.tm 0x8000 = .ok m) (hd : m % 2 ^ 2048 = d)
    (hprims : s.finalPrims t.xl t.who (tmBatches m) (indexed ps.prims) = .ok prims) (hts : tilesOf s d (tmView m) prims = ts)
    (hw₁ : s.splWrites ⟨t.who, t.xl, c.id, e.id⟩ (endTables s ps.tm d ts) = .ok w₁)
    (hw₂ : w₁.2.putTiles c ⟨t.who, t.xl, c.id, e.id⟩ ps d ts = .ok w₂) (hctx : w₂.2.ctx c.id = some c₂) (hq : c₂.splq = c.splq) :
    s.SplatRuns (endEvent abort c.id) c e (.endP p abort) l c₂ (w₁.1 ++ w₂.1) (some (ps.tm + 0x100, toBytes 4 1)) (primCauses prims)
      (passReports d ts) fun s2 => s2.ms = w₂.2.ms := by
  subst hab
  have hrun : runEnd s c (SplOp.fresh e (.endP p false)) t.xl t.who =
      .ok (({ w₂.2 with free := w₂.2.free + endStride * (prims.length + ts.length) } : State).splRan c.id (w₁.1 ++ w₂.1)
        (some (ps.tm + 0x100, toBytes 4 1)) (primCauses prims) (passReports d ts)) := by
    unfold endTables at hw₁
    rw [runEnd]
    simp only [SplOp.fresh, hps, hf, State.retake_eq_none hps hholds, hm, hd, hprims, hts, hw₁, hw₂, Bool.false_eq_true, if_false]
  have hfresh : w₂.2.ctx c.id = some { c₂ with splq := { SplOp.fresh e (.endP p false) with aux := [] } :: l } := by
    rw [hctx, Option.some_inj]
    show _ = { c₂ with splq := ⟨e, .endP p false, false, 0, [], [], none, [], []⟩ :: l }
    rw [← he.queue, ← hq]
  exact .of_splRan (he.end_exec hrun) hfresh rfl

end

end
end Sys2Proof.Machine

namespace Sys2Proof.Machine

/-! ## The backward replay and the reduction (R159 to R162, R171, R172) -/

section
variable {f : EngState → EngState} (s : State) (x : Xl) (w : Who)

theorem State.readList_onEn (a n : Nat) : (s.onEn f).readList x w a n = s.readList x w a n := by
  simp only [State.readList, State.splSteer_onEn]

theorem State.rereadPrim_onEn (bs : List (Nat × Nat × Nat)) (i : Nat) : (s.onEn f).rereadPrim x w bs i = s.rereadPrim x w bs i := by
  simp only [State.rereadPrim, State.splSteer_onEn]

theorem State.rereadTile_onEn (d view : Nat) (bs : List (Nat × Nat × Nat)) (l : StoredList) :
    (s.onEn f).rereadTile x w d view bs l = s.rereadTile x w d view bs l := by
  simp only [State.rereadTile, State.rereadPrim_onEn]

theorem State.tileBack_onEn (d gbase wv : Nat) (tl : TileList) (l : List (Nat × Nat)) :
    (s.onEn f).tileBack x w d gbase wv tl l = s.tileBack x w d gbase wv tl l := by
  induction l with
  | nil => rfl
  | cons p l ih => simp only [State.tileBack, State.splSteer_onEn, ih]

theorem State.backTiles_onEn (tm d gbase m : Nat) (l : List (Nat × Nat × Nat × Nat)) :
    (s.onEn f).backTiles x w tm d gbase m l = s.backTiles x w tm d gbase m l := by
  induction l with
  | nil => rfl
  | cons p l ih => simp only [State.backTiles, State.splSteer_onEn, State.readList_onEn, State.rereadTile_onEn, State.tileBack_onEn, ih]

end

/-- The update of the engines behind `State.onSpl`. -/
def headUpdate (k : Nat) (f : SplOp → SplOp) (e : EngState) : EngState :=
  { e with ctxs := e.ctxs.map fun x => if x.id == k then { x with splq := match x.splq with
    | [] => []
    | o :: l => f o :: l } else x }

theorem unseenByShadows_headUpdate (k : Nat) (f : SplOp → SplOp) : UnseenByShadows (headUpdate k f) :=
  unseenByShadows_ctx k (F := fun x => { x with splq := match x.splq with
    | [] => []
    | o :: l => f o :: l }) (fun _ => rfl) (fun _ => rfl) fun _ _ => rfl

/-- The records of an SPBWD that reads its tiles and writes. -/
theorem State.backRecords_ok {s : State} {c : Ctx} {o : SplOp} {x : Xl} {w : Who} {tm m gbase rbase cap : Nat} {rs : List GradRec} {r : List Nat × State}
    (hrs : s.backTiles x w tm (m % 2 ^ 2048) gbase m (indexed (pdTiles (m % 2 ^ 2048))) = .ok rs)
    (hw : s.splWrites ⟨w, x, c.id, o.eng.id⟩ (recordWrites rbase cap (shuffled s rs)) = .ok r) :
    s.backRecords c o x w tm m gbase rbase cap = .ok (({ r.2 with free := r.2.free + rs.length } : State).bufferRan c r.1 rbase cap rs.length) := by
  simp only [State.backRecords, hrs, hw]

/-- The state in which an SPBWD has taken the units of its pass. -/
def State.replaying (s : State) (c : Ctx) (op m gbase rbase cap : Nat) : State :=
  (s.taking (pdCores (m % 2 ^ 2048)) op).onSpl c.id fun y => { y with aux := [gbase, rbase, cap] }

theorem State.backPass_replaying {s : State} {c : Ctx} {o : SplOp} {x : Xl} {w : Who} {tm m gbase rbase cap : Nat}
    (hm : s.splSteer x w tm 0x8000 = .ok m) (hst : tmBits m 0x100 4 = 1) (hunits : ∀ x ∈ pdCores (m % 2 ^ 2048), ∀ n, (x, n) ∉ s.en.holders) :
    s.backPass c o x w tm gbase rbase cap = (s.replaying c o.eng.id m gbase rbase cap).splHolding c o (fun s k => s.noRecords c rbase k)
      ((s.replaying c o.eng.id m gbase rbase cap).backRecords c o x w tm m gbase rbase cap) := by
  rw [State.backPass]
  simp only [hm, hst, State.takeUnits_some hunits, bne_self_eq_false, Bool.false_eq_true, if_false]
  rfl

section
variable {s : State} {c : Ctx} {e : EngOp} {l : List SplOp} {t : Thread}

/-- An operation that writes nothing, with a cause. -/
theorem State.SplatAt.nothing_runs {k : SplKind} (he : s.SplatAt c e k l t) {ev : Instr} {x : Cause}
    (hexec : exec ev s = .next ((splNothing s c (SplOp.fresh e k) x).splFinish c.id)) :
    s.SplatRuns ev c e k l c [] none [x] [] fun s2 => s2.ms = s.ms :=
  .of_splRan (s₁ := s) hexec (he.ctx_fresh he.ctx) rfl

/-! ### SPBWD -/

section
variable {tm desc b : Nat} (he : s.SplatAt c e (.bwd tm desc) l t)
include he

theorem State.SplatAt.bwd_nothing {x : Cause} (h : ∀ o : SplOp, o.kind = .bwd tm desc → o.aux = [] → runBwd s c o t.xl t.who = .error (.bad x)) :
    s.SplatRuns (.spbwdOperation c.id) c e (.bwd tm desc) l c [] none [x] [] fun s2 => s2.ms = s.ms :=
  he.nothing_runs ((exec_spbwdOperation c.id s).trans (he.splRun_bad rfl (h _ rfl rfl)))

variable (hdesc : s.splSteer t.xl t.who desc 64 = .ok b)
include hdesc

theorem State.SplatAt.bwd_reserved (hb : bitsOf b 511 128 ≠ 0) :
    s.SplatRuns (.spbwdOperation c.id) c e (.bwd tm desc) l c [] none [splCause 0x03] [] fun s2 => s2.ms = s.ms := by
  refine he.bwd_nothing fun o hk ha => ?_
  rw [runBwd]
  simp only [hk, ha, hdesc, bne_iff_ne.mpr hb, if_true]

theorem State.SplatAt.bwd_misaligned (hb : bitsOf b 511 128 = 0) (ha : bitsOf b 63 0 % 64 ≠ 0 ∨ bitsOf b 127 64 % 64 ≠ 0) :
    s.SplatRuns (.spbwdOperation c.id) c e (.bwd tm desc) l c [] none [splCause 0x02] [] fun s2 => s2.ms = s.ms := by
  have hbad : (bitsOf b 63 0 % 64 != 0 || bitsOf b 127 64 % 64 != 0) = true := by simpa using ha
  refine he.bwd_nothing fun o hk ha => ?_
  rw [runBwd]
  simp only [hk, ha, hdesc, hb, bne_self_eq_false, hbad, Bool.false_eq_true, if_false, if_true]

end

/-- SPBWD's operation reads a good descriptor b, and the header hd of its buffer. -/
structure State.BackAt (s : State) (c : Ctx) (e : EngOp) (l : List SplOp) (t : Thread) (tm desc b hd : Nat) : Prop
    extends s.SplatAt c e (.bwd tm desc) l t where
  desc : s.splSteer t.xl t.who desc 64 = .ok b
  reserved : bitsOf b 511 128 = 0
  gradients : bitsOf b 63 0 % 64 = 0
  buffer : bitsOf b 127 64 % 64 = 0
  header : s.splSteer t.xl t.who (bitsOf b 127 64) 64 = .ok hd

section
variable {tm desc b hd : Nat} (he : s.BackAt c e l t tm desc b hd)
include he

theorem State.BackAt.header_reserved (hh : bitsOf hd 511 128 ≠ 0) :
    s.SplatRuns (.spbwdOperation c.id) c e (.bwd tm desc) l c [] none [splCause 0x03] [] fun s2 => s2.ms = s.ms := by
  refine he.bwd_nothing fun o hk ha => ?_
  rw [runBwd]
  simp only [hk, ha, he.desc, he.reserved, he.gradients, he.buffer, he.header, bne_self_eq_false, Bool.or_self, bne_iff_ne.mpr hh,
    Bool.false_eq_true, if_false, if_true]

variable (hh : bitsOf hd 511 128 = 0)
include hh

theorem State.BackAt.exec_eq {s₁ : State}
    (h : s.backPass c (SplOp.fresh e (.bwd tm desc)) t.xl t.who tm (bitsOf b 63 0) (bitsOf b 127 64) (bitsOf hd 127 64) = .ok s₁) :
    exec (.spbwdOperation c.id) s = .next (s₁.splFinish c.id) := by
  have hrun : runBwd s c (SplOp.fresh e (.bwd tm desc)) t.xl t.who = .ok s₁ := by
    unfold SplOp.fresh at h ⊢
    rw [runBwd]
    simp only [he.desc, he.reserved, he.gradients, he.buffer, he.header, hh, h, bne_self_eq_false, Bool.or_self, Bool.false_eq_true, if_false]
  exact (exec_spbwdOperation c.id s).trans (he.splRun_ok rfl hrun)

variable {m : Nat} (hm : s.splSteer t.xl t.who tm 0x8000 = .ok m)
include hm

/-- R171: the pass of the tile memory has not ended with STATE 1. -/
theorem State.BackAt.wrong_state (hst : tmBits m 0x100 4 ≠ 1) :
    s.SplatRuns (.spbwdOperation c.id) c e (.bwd tm desc) l c [] (some (bitsOf b 127 64, toBytes 8 0)) [splCause 0x02] [] fun s2 => s2.ms = s.ms := by
  have hpass : s.backPass c (SplOp.fresh e (.bwd tm desc)) t.xl t.who tm (bitsOf b 63 0) (bitsOf b 127 64) (bitsOf hd 127 64) =
      .ok (s.splRan c.id [] (some (bitsOf b 127 64, toBytes 8 0)) [splCause 0x02] []) := by
    rw [State.backPass]
    simp only [hm, bne_iff_ne.mpr hst, if_true]
    rfl
  exact .of_splRan (he.exec_eq hh hpass) (he.ctx_fresh he.ctx) rfl

variable (hst : tmBits m 0x100 4 = 1)
include hst

theorem State.BackAt.waits (hheld : ∃ x ∈ pdCores (m % 2 ^ 2048), ∃ n, (x, n) ∈ s.en.holders) :
    s.UnitsHeld (.spbwdOperation c.id) e (.bwd tm desc) t := by
  refine he.unitsHeld (he.exec_eq hh ?_)
  rw [State.backPass]
  simp only [hm, hst, State.takeUnits_none hheld, bne_self_eq_false, Bool.false_eq_true, if_false]

/-- R159 to R161: the records of a pass are written in an order that is free, their count last. -/
theorem State.BackAt.writes {rs : List GradRec} {w : List Nat × State} (hunits : ∀ x ∈ pdCores (m % 2 ^ 2048), ∀ n, (x, n) ∉ s.en.holders)
    (hrs : (s.taking (pdCores (m % 2 ^ 2048)) e.id).backTiles t.xl t.who tm (m % 2 ^ 2048) (bitsOf b 63 0) m (indexed (pdTiles (m % 2 ^ 2048))) = .ok rs)
    (hw : (s.taking (pdCores (m % 2 ^ 2048)) e.id).splWrites ⟨t.who, t.xl, c.id, e.id⟩
      (recordWrites (bitsOf b 127 64) (bitsOf hd 127 64) (shuffled s rs)) = .ok w)
    (hctx : w.2.ctx c.id = some c) :
    s.SplatRuns (.spbwdOperation c.id) c e (.bwd tm desc) l c w.1 (some (bitsOf b 127 64, toBytes 8 rs.length)) []
      (if bitsOf hd 127 64 < rs.length then [(3, bitsOf b 127 64, 0)] else []) fun s2 => s2.ms = w.2.ms := by
  have hback := (State.backTiles_onEn (f := headUpdate c.id fun y => { y with aux := [bitsOf b 63 0, bitsOf b 127 64, bitsOf hd 127 64] }) ..).trans hrs
  have hwrites := State.splWrites_onEn_ok (unseenByShadows_headUpdate c.id fun y => { y with aux := [bitsOf b 63 0, bitsOf b 127 64, bitsOf hd 127 64] }) hw
  have hrecords := State.backRecords_ok (c := c) (o := SplOp.fresh e (.bwd tm desc)) hback hwrites
  have hpass := (State.backPass_replaying (c := c) (o := SplOp.fresh e (.bwd tm desc)) (rbase := bitsOf b 127 64) (cap := bitsOf hd 127 64) hm hst hunits).trans
    (congrArg (State.splHolding _ c (SplOp.fresh e (.bwd tm desc)) _) hrecords)
  exact .of_splRan (he.exec_eq hh hpass) (State.onSpl_ctx (he.ctx_fresh hctx) rfl _) rfl

end

/-! ### SPRED -/

/-- SPRED's operation reads the headers of its two buffers. -/
structure State.ReduceAt (s : State) (c : Ctx) (e : EngOp) (l : List SplOp) (t : Thread) (src dst hs hd : Nat) : Prop
    extends s.SplatAt c e (.red src dst) l t where
  source : s.splSteer t.xl t.who src 64 = .ok hs
  target : s.splSteer t.xl t.who dst 64 = .ok hd

section
variable {src dst hs hd : Nat} (he : s.ReduceAt c e l t src dst hs hd)
include he

theorem State.ReduceAt.nothing {x : Cause} (h : ∀ o : SplOp, o.kind = .red src dst → runRed s c o t.xl t.who = .error (.bad x)) :
    s.SplatRuns (.spredOperation c.id) c e (.red src dst) l c [] none [x] [] fun s2 => s2.ms = s.ms :=
  he.nothing_runs ((exec_spredOperation c.id s).trans (he.splRun_bad rfl (h _ rfl)))

theorem State.ReduceAt.reserved (hr : bitsOf hs 511 128 ≠ 0 ∨ bitsOf hd 511 128 ≠ 0) :
    s.SplatRuns (.spredOperation c.id) c e (.red src dst) l c [] none [splCause 0x03] [] fun s2 => s2.ms = s.ms := by
  have hbad : (bitsOf hs 511 128 != 0 || bitsOf hd 511 128 != 0) = true := by simpa using hr
  refine he.nothing fun o hk => ?_
  rw [runRed]
  simp only [hk, he.source, he.target, hbad, if_true]

variable (hr : ¬ (bitsOf hs 511 128 ≠ 0 ∨ bitsOf hd 511 128 ≠ 0))
include hr

theorem State.ReduceAt.meets (hm : rangesMeet src (64 + 48 * bitsOf hs 127 64) dst (64 + 48 * bitsOf hd 127 64) = true) :
    s.SplatRuns (.spredOperation c.id) c e (.red src dst) l c [] none [splCause 0x02] [] fun s2 => s2.ms = s.ms := by
  have hgood : (bitsOf hs 511 128 != 0 || bitsOf hd 511 128 != 0) = false := by simpa using hr
  refine he.nothing fun o hk => ?_
  rw [runRed]
  simp only [hk, he.source, he.target, hgood, hm, Bool.false_eq_true, if_false, if_true]

/-- R162, R172: the sums of the records of the source, their count last. -/
theorem State.ReduceAt.writes {bs : List Nat} {w : List Nat × State}
    (hm : rangesMeet src (64 + 48 * bitsOf hs 127 64) dst (64 + 48 * bitsOf hd 127 64) = false)
    (hlen : bs.length = Nat.min (bitsOf hs 63 0) (bitsOf hs 127 64))
    (hbs : ∀ i, i < bs.length → s.splSteer t.xl t.who (src + 64 + 48 * i) 48 = .ok (bs.getD i 0))
    (hw : s.splWrites ⟨t.who, t.xl, c.id, e.id⟩ (recordWrites dst (bitsOf hd 127 64) (reduceGrads (bs.map gradOf))) = .ok w) (hctx : w.2.ctx c.id = some c) :
    s.SplatRuns (.spredOperation c.id) c e (.red src dst) l c w.1 (some (dst, toBytes 8 (reduceGrads (bs.map gradOf)).length)) []
      (if bitsOf hd 127 64 < (reduceGrads (bs.map gradOf)).length then [(3, dst, 0)] else []) fun s2 => s2.ms = w.2.ms := by
  have hgood : (bitsOf hs 511 128 != 0 || bitsOf hd 511 128 != 0) = false := by simpa using hr
  have hread := mapM_range_ok hbs
  rw [hlen] at hread
  have hrun (o : SplOp) (hk : o.kind = .red src dst) (heng : o.eng = e) : runRed s c o t.xl t.who =
      .ok (w.2.bufferRan c w.1 dst (bitsOf hd 127 64) (reduceGrads (bs.map gradOf)).length) := by
    rw [runRed]
    simp only [hk, heng, he.source, he.target, hgood, hm, hread, hw, Bool.false_eq_true, if_false]
  exact .of_splRan ((exec_spredOperation c.id s).trans (he.splRun_ok rfl (hrun _ rfl rfl))) (he.ctx_fresh hctx) rfl

end

end

end Sys2Proof.Machine

namespace Sys2Proof.Machine

/-! ## Operations finish (R137, R157, R158, R163, R170) -/

theorem State.visible_iff {s : State} {ids : List Nat} {pts : List Point} :
    s.visible ids pts = true ↔ ∀ r ∈ s.ms.writes, r.id ∈ ids → ∀ p ∈ pts, s.visibleAt r p = true := by
  simp only [State.visible, List.all_eq_true, Bool.or_eq_true, Bool.not_eq_true', List.contains_eq_mem, decide_eq_false_iff_not,
    ← imp_iff_not_or]

/-- A tile of the pass that an operation ends has not been pushed. -/
def Ctx.tileLeft (c : Ctx) (k : SplKind) : Bool :=
  match k with
  | .endP p _ => c.tilesDone.any fun t => t.pass == p
  | _ => false

theorem Ctx.tileLeft_iff {c : Ctx} {k : SplKind} : c.tileLeft k = true ↔ ∃ p abort, k = .endP p abort ∧ ∃ x ∈ c.tilesDone, x.pass = p := by
  cases k with
  | endP p abort =>
    simp only [Ctx.tileLeft, List.any_eq_true, beq_iff_eq]
    exact ⟨fun h => ⟨p, abort, rfl, h⟩, fun ⟨_, _, hk, h⟩ => by cases hk; exact h⟩
  | _ => simp [Ctx.tileLeft]

/-- The operation at the head of the queue of a context whose die works, of a thread t; it does not wait for a handler. -/
structure State.FinishAt (s : State) (c : Ctx) (o : SplOp) (l : List SplOp) (t : Thread) : Prop where
  ctx : s.ctx c.id = some c
  queue : c.splq = o :: l
  unstalled : o.stalled = false
  works : s.md.failed.getLsbD c.core.die = false
  thread : s.thread o.eng.tid = some t

/-- The state once a holder of units, if there is one, has released them. -/
def State.released (s : State) (h : Option Nat) : State :=
  match h with
  | some n => s.onEn fun e => { e with holders := e.holders.filter fun x => x.2 != n }
  | none => s

theorem State.released_eq (s : State) (h : Option Nat) :
    s.released h = s.onEn fun e => { e with holders := e.holders.filter fun x => some x.2 != h } := by
  cases h with
  | none =>
    have hall : s.en.holders.filter (fun x => some x.2 != none) = s.en.holders := List.filter_eq_self.mpr fun _ _ => rfl
    simp only [State.released, State.onEn, hall]
  | some n => rfl

/-- The causes of an operation come to its thread in order. -/
theorem State.foldl_causeLive {s : State} {n : Nat} {t : Thread} (ht : s.thread n = some t) (hl : t.exited = false) (cs : List Cause) :
    let s' := cs.foldl (fun s x => s.causeLive n x) s
    s'.thread n = some { t with out := { t.out with causes := t.out.causes ++ cs } } ∧ s'.en = s.en ∧ s'.ms = s.ms := by
  induction cs generalizing s t with
  | nil => simpa using ht
  | cons x cs ih =>
    obtain rfl := State.thread_id ht
    have hx : s.causeLive t.id x = s.cause t.id x := by simp [State.causeLive, ht, hl]
    have ht' : (s.cause t.id x).thread t.id = some { t with out := { t.out with causes := t.out.causes ++ [x] } } :=
      State.thread_onThread_self ht _ fun _ => id
    obtain ⟨hthread, hen, hms⟩ := ih ht' hl
    simp only [List.foldl_cons, hx]
    exact ⟨by simpa using hthread, hen, hms⟩

/-- A context once the operation at the head of its queue has completed. -/
def Ctx.popped (c : Ctx) (o : SplOp) (now : Nat) : Ctx :=
  { c with
    splq := c.splq.drop 1
    splSince := now
    ovf := ovfAfter o.kind o.reports c.ovf
    passes := match o.kind with
      | .endP p _ => c.passes.filter fun y => y.id != p
      | _ => c.passes }

/-- A tile operation that completes, with the writes that its live thread then sees. -/
theorem State.tileDone_tileWrites {s : State} {t : Thread} (ht : s.thread t.id = some t) (hl : t.exited = false) (ws : List Nat) :
    ((s.tileDone t.id 0).tileWrites t.id ws).thread t.id = some { t with
      ctr := { t.ctr with tiles := t.ctr.tiles - 1 }
      out := { t.out with unseenT := t.out.unseenT ++ ws } } ∧
    ((s.tileDone t.id 0).tileWrites t.id ws).en = s.en ∧ ((s.tileDone t.id 0).tileWrites t.id ws).ms = s.ms := by
  rw [State.tileDone_live ht hl]
  have hdown : (s.down t.id .tile).thread t.id = some { t with ctr := t.ctr.down .tile } := State.thread_onThread_self ht _ fun _ => id
  have hflags : ((s.down t.id .tile).addFlags t.id 0).thread t.id = some { t with ctr := t.ctr.down .tile } :=
    (State.thread_onThread_self (t := { t with ctr := t.ctr.down .tile }) hdown (fun x => { x with regs := x.regs.addFlags 0 }) fun _ => id).trans
      (by simp [Regs.addFlags])
  exact ⟨State.thread_onThread_self (t := { t with ctr := t.ctr.down .tile }) hflags _ fun _ => id, rfl, rfl⟩

section
variable {s : State} {c : Ctx} {o : SplOp} {l : List SplOp} {t : Thread} (he : s.FinishAt c o l t)
include he

theorem State.FinishAt.splHead : s.splHead c.id = some (c, o) := by
  rw [State.splHead_eq he.ctx he.queue, he.unstalled, he.works]
  rfl

theorem State.FinishAt.tid : o.eng.tid = t.id := (State.thread_id he.thread).symm

theorem State.FinishAt.who : s.whoOf o.eng.tid c.core = t.who := by
  simp only [State.whoOf, he.thread]

theorem State.FinishAt.waits (h : s.visible o.writes (s.performedAt t.who .system) = false ∨ c.tileLeft o.kind = true) : s.splFinish c.id = s := by
  have hcond : (decide (o.phase = 0) || !s.visible o.writes (s.performedAt (s.whoOf o.eng.tid c.core) .system) || c.tileLeft o.kind) = true := by
    rw [he.who]
    rcases h with h | h <;> simp [h]
  rw [State.splFinish, he.splHead]
  exact if_pos hcond

section
variable (hran : o.phase ≠ 0) (hdone : s.visible o.writes (s.performedAt t.who .system) = true) (htl : c.tileLeft o.kind = false)
include hran hdone htl

theorem State.FinishAt.pops (hlast : o.last = none) : s.splFinish c.id = s.splPop c o := by
  have hcond : ¬ (decide (o.phase = 0) || !s.visible o.writes (s.performedAt (s.whoOf o.eng.tid c.core) .system) || c.tileLeft o.kind) = true := by
    simp [he.who, hran, hdone, htl]
  rw [State.splFinish, he.splHead]
  refine (if_neg hcond).trans ?_
  simp only [hlast]

theorem State.FinishAt.writesLast {a : Nat} {bs : List Byte} {w : List Nat × State} (hlast : o.last = some (a, bs))
    (hw : s.splWrites ⟨t.who, t.xl, c.id, o.eng.id⟩ [(a, bs)] = .ok w) :
    s.splFinish c.id = w.2.onSpl c.id fun y => { y with last := none, writes := y.writes ++ w.1 } := by
  have hcond : ¬ (decide (o.phase = 0) || !s.visible o.writes (s.performedAt (s.whoOf o.eng.tid c.core) .system) || c.tileLeft o.kind) = true := by
    simp [he.who, hran, hdone, htl]
  have hagent : s.agentOf o.eng.tid = some (t.xl, t.who) := by rw [State.agentOf, he.thread]; rfl
  rw [State.splFinish, he.splHead]
  refine (if_neg hcond).trans ?_
  simp only [hlast, hagent, hw]

end

/-- R137, R163: what the completion of an operation without reports does for its live thread. -/
theorem State.FinishAt.splPop_completes (hl : t.exited = false) (hrep : o.reports = []) :
    (s.splPop c o).ctx c.id = some (c.popped o s.clock.toNat) ∧
    (s.splPop c o).en.holders = s.en.holders.filter (fun x => some x.2 != o.kind.holder o.eng.id) ∧
    (s.splPop c o).thread t.id = some { t with
      ctr := { t.ctr with tiles := t.ctr.tiles - 1 }
      out := { t.out with unseenT := t.out.unseenT ++ o.writes, causes := t.out.causes ++ o.causes } } ∧
    (s.splPop c o).ms = s.ms := by
  let s₂ := (s.released (o.kind.holder o.eng.id)).onCtx c.id fun x => x.popped o s.clock.toNat
  have hreports : ∀ s' : State, o.reports.foldl (fun s r => s.splReport c o r) s' = s' := fun s' => by rw [hrep]; rfl
  have hpop : s.splPop c o = o.causes.foldl (fun s x => s.causeLive t.id x) ((s₂.tileDone t.id 0).tileWrites t.id o.writes) := by
    rw [State.splPop, he.tid]
    exact hreports _
  have ht : s₂.thread t.id = some t := by
    simp only [s₂, State.released_eq]
    exact he.tid ▸ he.thread
  have hctx : s₂.ctx c.id = some (c.popped o s.clock.toNat) := by
    refine State.ctx_onCtx_at ?_ (fun x => x.popped o s.clock.toNat) fun _ => rfl
    rw [State.released_eq]
    exact he.ctx
  have hholders : s₂.en.holders = s.en.holders.filter (fun x => some x.2 != o.kind.holder o.eng.id) := by
    simp only [s₂, State.released_eq]
    rfl
  have hms : s₂.ms = s.ms := by
    simp only [s₂, State.released_eq]
    rfl
  obtain ⟨ht₃, hen₃, hms₃⟩ := State.tileDone_tileWrites ht hl o.writes
  obtain ⟨ht₄, hen₄, hms₄⟩ := State.foldl_causeLive ht₃ hl o.causes
  rw [hpop]
  refine ⟨?_, ?_, ht₄, hms₄.trans (hms₃.trans hms)⟩
  · rw [State.ctx, hen₄, hen₃]
    exact hctx
  · exact (congrArg EngState.holders (hen₄.trans hen₃)).trans hholders

end

/-! ## Records of finished tiles (R158) -/

theorem State.gang_onGang (s : State) (k u : Nat) (f : Gang → Gang) (hf : ∀ x, x.launch = k → (f x).launch = k) :
    (s.onGang k f).gang u = (s.gang u).map fun x => if u = k then f x else x :=
  find_map_key Gang.launch s.wk.gangs k u f hf

theorem State.queue_onQueue_self {s : State} {g q : Nat} {x : Queue} (h : s.queue g q = some x) (f : Queue → Queue) :
    (s.onQueue g q f).queue g q = some (f x) := by
  obtain ⟨y, hy, hx⟩ := Option.bind_eq_some_iff.mp h
  have hg : (s.onQueue g q f).gang g = some { y with queues := y.queues.modify q f } := by
    rw [State.onQueue, State.gang_onGang _ _ _ _ (by exact fun _ => id), hy]
    simp
  rw [State.queue, hg]
  simp [hx]

theorem wordBytes_length (ws : List Word) : (wordBytes ws).length = 4 * ws.length := by
  simp [wordBytes, List.length_flatMap, Nat.mul_comm]

/-- A finished tile, the n-th of its context, whose pixels are visible on the die, and the berth that its record finds. -/
structure State.TileAt (s : State) (c : Ctx) (n : Nat) (x : TileDone) (g : Gang) (q : Queue) (place : Nat) : Prop where
  tile : c.tilesDone[n]? = some x
  gang : s.gang x.queue.1 = some g
  queue : s.queue x.queue.1 x.queue.2 = some q
  opened : q.closed = false
  visible : s.visible x.writes [.die c.core.die] = true
  place : q.place = some (false, place)

/-- The words of a tile's record in a queue. -/
def TileDone.recordIn (x : TileDone) (q : Queue) : List Word := x.words ++ List.replicate (quSize q.entry / 4 - 4) 0

/-- The state once the record of a finished tile stands in its berth. -/
def State.tilePushed (s : State) (c : Ctx) (n : Nat) (x : TileDone) (g : Gang) (q : Queue) (place : Nat) : State :=
  ((s.vwrite (berthKey g q.entry place) (wordBytes (x.recordIn q)) false).onQueue x.queue.1 x.queue.2 fun y => { y with
    recs := y.recs ++ [⟨x.recordIn q, s.clock.toNat, false, place, none, 0⟩] }).onCtx c.id fun y => { y with
      tilesDone := y.tilesDone.take n ++ y.tilesDone.drop (n + 1) }

section
variable {s : State} {c : Ctx} {o : SplOp} {l : List SplOp} {t : Thread} {n : Nat} {x : TileDone} {g : Gang} {q : Queue} {place : Nat}

theorem State.FinishAt.pushes (he : s.FinishAt c o l t) (hx : s.TileAt c n x g q place) :
    exec (.tileRecordPush c.id n) s = .next (s.tilePushed c n x g q place) := by
  rw [exec_tileRecordPush, execTileRecordPush]
  simp only [he.ctx, he.splHead, Option.bind_some, hx.tile, hx.gang, hx.queue, hx.opened, hx.visible, hx.place, Bool.not_true, Bool.or_self, Bool.false_eq_true,
    if_false]
  rfl

theorem State.tilePushed_ctx (hc : s.ctx c.id = some c) :
    (s.tilePushed c n x g q place).ctx c.id = some { c with tilesDone := c.tilesDone.eraseIdx n } := by
  rw [List.eraseIdx_eq_take_drop_succ]
  exact State.ctx_onCtx_at hc _ fun _ => rfl

theorem State.tilePushed_queue (hq : s.queue x.queue.1 x.queue.2 = some q) :
    (s.tilePushed c n x g q place).queue x.queue.1 x.queue.2 =
      some { q with recs := q.recs ++ [⟨x.recordIn q, s.clock.toNat, false, place, none, 0⟩] } :=
  State.queue_onQueue_self (s := s.vwrite (berthKey g q.entry place) (wordBytes (x.recordIn q)) false) hq _

theorem State.tilePushed_vault (hs : s.ms.vault.wf = true) (a : Nat) :
    (s.tilePushed c n x g q place).ms.vault.read a =
      if berthKey g q.entry place ≤ a ∧ a < berthKey g q.entry place + 4 * (x.recordIn q).length
      then (wordBytes (x.recordIn q)).getD (a - berthKey g q.entry place) 0 else s.ms.vault.read a := by
  rw [← wordBytes_length]
  exact Memory.read_writes_cellsAt hs _ _ a

end

end Sys2Proof.Machine

namespace Sys2Proof.Machine

/-! ## The obligation -/

/-- What an unpoisoned read answers. -/
theorem State.splSteer_of_read {s : State} {x : Xl} {w : Who} {a n v : Nat}
    (h : ∃ r, s.agentRead x w .die a n = .ok r ∧ r.poison = false ∧ r.val = v) : s.splSteer x w a n = .ok v := by
  obtain ⟨r, hr, hp, rfl⟩ := h
  exact State.splSteer_ok hr hp

theorem bitsOf_zero (x hi : Nat) : bitsOf x hi 0 = x % 2 ^ (hi + 1) := by
  simp [bitsOf]

theorem bitsOf_511_128 (x : Nat) : bitsOf x 511 128 = x / 2 ^ 128 % 2 ^ 384 := by
  simp only [bitsOf, Nat.reduceAdd, Nat.reduceSub]

/-- STATE of a tile memory (R147). -/
theorem tmBits_state (m : Nat) : tmBits m 0x100 4 = m / 2 ^ 2048 % 2 ^ 32 := by
  simp only [tmBits, Nat.reduceMul]

theorem rangesMeet_iff {a n b m : Nat} : rangesMeet a n b m = true ↔ a < b + m ∧ b < a + n := by
  simp [rangesMeet]

section
variable {s : State} {c : Ctx} {e : EngOp} {l : List SplOp} {t : Thread}

theorem State.SplatAt.backAt {tm desc b hd : Nat} (he : s.SplatAt c e (.bwd tm desc) l t) (hdesc : s.splSteer t.xl t.who desc 64 = .ok b)
    (hres : b / 2 ^ 128 % 2 ^ 384 = 0) (hg : b % 2 ^ 64 % 64 = 0) (hb : b / 2 ^ 64 % 2 ^ 64 % 64 = 0)
    (hhd : s.splSteer t.xl t.who (b / 2 ^ 64 % 2 ^ 64) 64 = .ok hd) : s.BackAt c e l t tm desc b hd :=
  ⟨he, hdesc, (bitsOf_511_128 b).trans hres, (congrArg (· % 64) (bitsOf_zero b 63)).trans hg, hb, hhd⟩

end

/-- Settles O42: each operation of the splat units runs and finishes as its event's lemmas state. -/
theorem splatOperationsRunAndFinish : Obligations.SplatOperationsRunAndFinish := by
  unfold Obligations.SplatOperationsRunAndFinish
  refine ⟨fun s c e k l t he => ⟨?view, ?poisoned, ?begin, ?sub, ?close⟩, fun s c e k l t he => ⟨?bwd, ?red⟩,
    fun s c o l t hc hq hstall hw ht => ?finish⟩
  case view =>
    rintro va n vs rfl hlen hrd
    exact he.view_runs hlen hrd
  case poisoned =>
    rintro va n r rfl hr hp
    exact he.view_poisoned hr hp
  case begin =>
    rintro p ps r rfl hps hnot hr hp
    have hb : s.BeginAt c e l t p ps r.val := ⟨he, hps, State.passHolds_eq_false hnot, State.splSteer_ok hr hp⟩
    exact ⟨fun x hx => hb.fails hx, fun hok hheld => hb.waits hok hheld,
      fun hok hfree => ⟨fun f a hflt => hb.faults hok hfree hflt, fun w hw hctx => hb.writes hok hfree hw hctx⟩⟩
  case sub =>
    rintro p va n batch first ps rfl hps
    exact ⟨fun hf => he.sub_failed hps hf, fun m ls w hf hholds hm hp hls hw hctx =>
      he.sub_writes hps hf (State.passHolds_iff.mpr hholds) (State.splSteer_ok hm hp) hls hw hctx⟩
  case close =>
    rintro p abort ps rfl hps
    refine ⟨fun hf hholds => ?_, fun hf hnot => ?_, fun hf hab => he.end_aborted hps hf hab, ?_⟩
    · have hlast := he.end_failed hps hf
      rwa [if_pos (State.passHolds_iff.mpr hholds)] at hlast
    · have hlast := he.end_failed hps hf
      rwa [if_neg (State.passHolds_iff.not.mpr hnot)] at hlast
    · intro m prims w₁ w₂ hf hab hholds hm hp hprims d ts ovl out hw₁ hw₂ c₂ hctx hq
      exact he.end_writes hps hf hab (State.passHolds_iff.mpr hholds) (State.splSteer_ok hm hp) rfl hprims rfl hw₁ hw₂ hctx hq
  case bwd =>
    rintro tm desc b rfl hb
    have hdesc := State.splSteer_of_read hb
    refine ⟨fun hres => he.bwd_reserved hdesc ((bitsOf_511_128 b).trans_ne hres),
      fun hres hal => he.bwd_misaligned hdesc ((bitsOf_511_128 b).trans hres) ?_, fun hd hres hg hbuf hh => ?_⟩
    · rwa [bitsOf_zero]
    · have hat := he.backAt hdesc hres hg hbuf (State.splSteer_of_read hh)
      refine ⟨fun hr => hat.header_reserved ((bitsOf_511_128 hd).trans_ne hr), fun m hr hm => ?_⟩
      rw [← bitsOf_511_128] at hr
      have htm := State.splSteer_of_read hm
      refine ⟨fun hst => hat.wrong_state hr htm ((tmBits_state m).trans_ne hst),
        fun hst hheld => hat.waits hr htm ((tmBits_state m).trans hst) hheld,
        fun rs w hst hfree hrs hw hctx => ?_⟩
      rw [← bitsOf_zero b 63] at hrs
      exact hat.writes hr htm ((tmBits_state m).trans hst) hfree hrs hw hctx
  case red =>
    rintro src dst hs hd rfl hsrc hdst
    have hat : s.ReduceAt c e l t src dst hs hd := ⟨he, State.splSteer_of_read hsrc, State.splSteer_of_read hdst⟩
    rw [← bitsOf_511_128, ← bitsOf_511_128]
    refine ⟨fun hr => hat.reserved hr, fun hr hmeet => hat.meets hr (rangesMeet_iff.mpr hmeet),
      fun bs w hr hmeet hlen hbs hw hctx => ?_⟩
    refine hat.writes hr (Bool.not_eq_true _ ▸ rangesMeet_iff.not.mpr hmeet) (hlen.trans ?_) (fun i hi => ?_) hw hctx
    · rw [bitsOf_zero]
      rfl
    · exact State.splSteer_of_read (hbs i _ (by simp [hi]))
  case finish =>
    have he : s.FinishAt c o l t := ⟨hc, hq, hstall, hw, ht⟩
    intro done tiles holder
    have hdone : s.visible o.writes (s.performedAt t.who .system) = true ↔ done := State.visible_iff
    have htiles : c.tileLeft o.kind = true ↔ tiles := Ctx.tileLeft_iff
    refine ⟨fun h => he.waits ?_, fun hran hd hnt hlast hl hrep => ?_, fun a bs w hran hd hnt hlast hw hctx => ?_,
      fun n x g q place hx hg hqu hopen hvis hplace hcan => ?_⟩
    · exact h.imp (fun hd => Bool.not_eq_true _ ▸ hdone.not.mpr hd) htiles.mpr
    · rw [he.pops hran (hdone.mpr hd) (Bool.not_eq_true _ ▸ htiles.not.mpr hnt) hlast]
      obtain ⟨hctx, hholders, hthread, hms⟩ := he.splPop_completes hl hrep
      exact ⟨_, hctx, by simp [Ctx.popped, hq], rfl, hholders, hthread, hms⟩
    · rw [he.writesLast hran (hdone.mpr hd) (Bool.not_eq_true _ ▸ htiles.not.mpr hnt) hlast hw]
      exact ⟨State.onSpl_ctx hctx hq _, rfl⟩
    · have htile : s.TileAt c n x g q place := ⟨hx, hg, hqu, hopen, State.visible_iff.mpr (by simpa using hvis), hplace⟩
      exact ⟨_, he.pushes htile, State.tilePushed_ctx hc, State.tilePushed_queue hqu, fun _ => rfl, State.tilePushed_vault hcan.2 ⟩

end Sys2Proof.Machine

namespace Sys2Proof.Machine

/-! ## Slots of a Field Slot Table (R175 to R177) -/

/-- Two updates of one thread are one. -/
theorem State.onThread_onThread (s : State) (k : Nat) (F G : Thread → Thread) (hF : ∀ x, (F x).id = x.id) :
    (s.onThread k F).onThread k G = s.onThread k fun x => G (F x) := by
  have hmap : ∀ x : Thread, (if (if x.id == k then F x else x).id == k then G (if x.id == k then F x else x) else if x.id == k then F x else x) =
      if x.id == k then G (F x) else x := fun x => by
    by_cases hx : x.id = k
    · simp [hx, hF]
    · simp [hx]
  simp only [State.onThread, State.onWk, List.map_map, Function.comp_def, hmap]

theorem State.slot_eq {s s' : State} (h : s'.en.fsts = s.en.fsts) (p die n : Nat) : s'.slot p die n = s.slot p die n := by
  simp only [State.slot, h]

/-- An entry that takes the place of those of its key is found under that key. -/
theorem find?_put_same {α : Type} {l : List α} {q : α → Bool} {a : α} (ha : q a = true) : ((l.filter fun x => !q x) ++ [a]).find? q = some a := by
  have hnone : (l.filter fun x => !q x).find? q = none := by simp
  rw [List.find?_append, hnone, List.find?_cons_of_pos ha, Option.none_or]

/-- What is looked for under another key is found as before. -/
theorem find?_put_other {α : Type} {l : List α} {q r : α → Bool} {a : α} (ha : q a = true) (hr : ∀ x, r x = true → q x = false) :
    ((l.filter fun x => !q x) ++ [a]).find? r = l.find? r := by
  have hra : ¬ r a = true := fun h => by simp [hr a h] at ha
  have hkeep : (fun x => decide ((!q x) = true ∧ r x = true)) = r := by
    funext x
    cases hx : r x with
    | false => simp
    | true => simp [hr x hx]
  rw [List.find?_append, List.find?_filter, hkeep, List.find?_cons_of_neg hra, List.find?_nil, Option.or_none]

/-- The slots that a table lists; a table that was never written lists none. -/
def State.slotsOf (s : State) (p die : Nat) : List (Nat × Slot) :=
  ((s.en.fsts.find? fun f => f.part == p && f.die == die).map Fst.slots).getD []

theorem State.slot_slotsOf (s : State) (p die n : Nat) :
    s.slot p die n = (((s.slotsOf p die).find? fun x => x.1 == n).map Prod.snd).getD Slot.reset := by
  rw [State.slot, State.slotsOf]
  cases s.en.fsts.find? fun f => f.part == p && f.die == die with
  | none => rfl
  | some f =>
    simp only [Option.map_some, Option.getD_some]
    cases f.slots.find? fun x => x.1 == n <;> rfl

theorem State.setSlot_fsts (s : State) (p die n : Nat) (x : Slot) :
    (s.setSlot p die n x).en.fsts =
      (s.en.fsts.filter fun f => !(f.part == p && f.die == die)) ++ [⟨p, die, ((s.slotsOf p die).filter fun y => !(y.1 == n)) ++ [(n, x)]⟩] := by
  simp only [State.setSlot, State.onEn_en, State.slotsOf]
  cases s.en.fsts.find? fun f => f.part == p && f.die == die <;> rfl

theorem State.slotsOf_setSlot_same (s : State) (p die n : Nat) (x : Slot) :
    (s.setSlot p die n x).slotsOf p die = ((s.slotsOf p die).filter fun y => !(y.1 == n)) ++ [(n, x)] := by
  rw [State.slotsOf, State.setSlot_fsts, find?_put_same (by simp)]
  rfl

theorem State.slotsOf_setSlot_ne (s : State) {p die q e : Nat} (h : (q, e) ≠ (p, die)) (n : Nat) (x : Slot) :
    (s.setSlot p die n x).slotsOf q e = s.slotsOf q e := by
  rw [State.slotsOf, State.setSlot_fsts, find?_put_other (by simp) ?_]
  · rfl
  · intro f hf
    simp only [Bool.and_eq_true, beq_iff_eq] at hf
    rw [hf.1, hf.2, ← Bool.not_eq_true, Bool.and_eq_true, beq_iff_eq, beq_iff_eq]
    exact fun hc => h (Prod.ext hc.1 hc.2)

/-- A slot after a table step on a slot. -/
theorem State.slot_setSlot (s : State) (p die n : Nat) (x : Slot) (q e k : Nat) :
    (s.setSlot p die n x).slot q e k = if q = p ∧ e = die ∧ k = n then x else s.slot q e k := by
  rw [State.slot_slotsOf, State.slot_slotsOf]
  by_cases ht : (q, e) = (p, die)
  · obtain ⟨rfl, rfl⟩ := Prod.mk.inj ht
    rw [State.slotsOf_setSlot_same]
    by_cases hk : k = n
    · subst hk
      rw [find?_put_same (by simp)]
      simp
    · rw [find?_put_other (by simp) fun y hy => by simp_all, if_neg fun hc => hk hc.2.2]
  · rw [State.slotsOf_setSlot_ne s ht, if_neg fun hc => ht (Prod.ext hc.1 hc.2.1)]

theorem State.setSlot_keepsSlots (s : State) (p die n : Nat) (x : Slot) : s.KeepsSlots (s.setSlot p die n x) p die n := by
  intro q e k hne
  rw [State.slot_setSlot, if_neg]
  rintro ⟨rfl, rfl, rfl⟩
  exact hne rfl

theorem State.slot_setSlot_same (s : State) (p die n : Nat) (x : Slot) : (s.setSlot p die n x).slot p die n = x := by
  rw [State.slot_setSlot, if_pos ⟨rfl, rfl, rfl⟩]

/-! ## Issue of an FLD instruction by one thread (R33, R34, R177) -/

@[simp] theorem State.wrSpan_en (s : State) (t : Thread) (lead : Bool) (d : Opnd) (ws : List Word) : (s.wrSpan t lead d ws).en = s.en := by
  cases d with
  | v n => rfl
  | g n => cases lead <;> rfl
  | z => rfl

/-- The operation that `putFop` puts. -/
def State.fopOf (s : State) (t : Thread) (k : FKind) : FOp :=
  ⟨s.nextId, t.id, s.launchNo t, t.place.part, t.place.core, t.pos, k, [], false, [], s.clock.toNat⟩

/-- The thread goes on with one more tile operation outstanding. -/
def Thread.startsTile (t : Thread) : Thread := { t.advance with ctr := { t.ctr with tiles := t.ctr.tiles + 1 } }

theorem State.putFop_eq (s : State) (t : Thread) (k : FKind) :
    s.putFop t k = ({ s with nextId := s.nextId + 1, en := { s.en with fops := s.en.fops ++ [s.fopOf t k] } } : State).onThread t.id Thread.startsTile :=
  State.onThread_onThread { s with nextId := s.nextId + 1, en := { s.en with fops := s.en.fops ++ [s.fopOf t k] } } t.id _ _ fun _ => rfl

section
variable {s : State} {t : Thread} (ht : s.thread t.id = some t) (k : FKind) (d : Opnd) (ws : List Word)
include ht

/-- An operation is put in a state that differs from s in slot n of the thread's die at most. -/
theorem State.startsField_of_fsts {n : Nat} {x : Slot} {l : List Fst} (hslot : ({ s with en := { s.en with fsts := l } } : State).slotOf t n = x)
    (hslots : s.KeepsSlots { s with en := { s.en with fsts := l } } t.place.part t.place.core.die n) :
    s.StartsField ((({ s with en := { s.en with fsts := l } } : State).putFop t k).wrSpan t true d ws) t k d ws n x := by
  let s₁ : State := { s with nextId := s.nextId + 1, en := { s.en with fsts := l, fops := s.en.fops ++ [s.fopOf t k] } }
  have hput : ({ s with en := { s.en with fsts := l } } : State).putFop t k = s₁.onThread t.id Thread.startsTile := State.putFop_eq _ t k
  have hen : ((s₁.onThread t.id Thread.startsTile).wrSpan t true d ws).en = s₁.en := State.wrSpan_en ..
  rw [hput]
  refine ⟨(State.slot_eq (congrArg EngState.fsts hen) _ _ _).trans hslot, fun q e k hne => ?_, ?_, ?_⟩
  · exact (State.slot_eq (congrArg EngState.fsts hen) q e k).trans (hslots q e k hne)
  · rw [hen]; rfl
  · rw [hen]
    exact State.writes_wrSpan (s := s₁) ht Thread.startsTile (fun _ => rfl) rfl rfl d ws

theorem State.startsField_set (n : Nat) (x : Slot) : s.StartsField (((s.setSlotOf t n x).putFop t k).wrSpan t true d ws) t k d ws n x :=
  State.startsField_of_fsts ht k d ws (s.slot_setSlot_same _ _ n x) (s.setSlot_keepsSlots _ _ n x)

theorem State.startsField_keep (n : Nat) : s.StartsField (s.putFop t k) t k .z [] n (s.slotOf t n) :=
  State.startsField_of_fsts (l := s.en.fsts) ht k .z [] rfl fun _ _ _ _ => rfl

end

section
variable {s : State} {h : Gd} {i : Instr} {t : Thread} {c : Ctr}

theorem State.Runs.fldIssue (hr : s.Runs h i t) (hc : t.ctr.get c < 63) (f : List Thread → Thread → State → State) :
    fldIssue i h c f s = .next (f [t] t s) := by
  have hready : (fldAsk i c).ready t = true := decide_eq_true hc
  rw [Machine.fldIssue, State.issue_alone hr.front (hr.fate (fldAsk i c) rfl rfl rfl hready)]
  rfl

/-- Slots that are not pending hold nothing up. -/
theorem State.unlessPending_go {ks : List Nat} (hks : ∀ k ∈ ks, (s.slotOf t k).pending = false) (f : State → State) :
    s.unlessPending t ks f = f s :=
  if_neg (by simpa using hks)

end

/-! ## Chains of slots (R184) -/

section
variable {s : State} {p die : Nat}

theorem State.chainFrom_succ (n k : Nat) :
    s.chainFrom p die (n + 1) k = match (s.slot p die k).desc with
      | none => []
      | some e => ⟨k, (s.slot p die k).state, e⟩ :: if fdHasp e then s.chainFrom p die n (fdParent e) else [] := rfl

theorem State.chainFrom_of_none {n k : Nat} (h : (s.slot p die k).desc = none) : s.chainFrom p die n k = [] := by
  cases n with
  | zero => rfl
  | succ n => rw [State.chainFrom_succ, h]

theorem State.chainFrom_of_some {n k e : Nat} (h : (s.slot p die k).desc = some e) :
    s.chainFrom p die (n + 1) k = ⟨k, (s.slot p die k).state, e⟩ :: if fdHasp e then s.chainFrom p die n (fdParent e) else [] := by
  rw [State.chainFrom_succ, h]

theorem State.desc_of_chainFrom_nil {n k : Nat} (hn : 0 < n) (h : s.chainFrom p die n k = []) : (s.slot p die k).desc = none := by
  obtain ⟨n, rfl⟩ := Nat.exists_eq_add_one.mpr hn
  cases hd : (s.slot p die k).desc with
  | none => rfl
  | some e => rw [State.chainFrom_of_some hd] at h; cases h

theorem State.chainFrom_length (n k : Nat) : (s.chainFrom p die n k).length ≤ n := by
  induction n generalizing k with
  | zero => exact Nat.le_refl 0
  | succ n ih =>
    cases hd : (s.slot p die k).desc with
    | none => simp [State.chainFrom_of_none hd]
    | some e =>
      rw [State.chainFrom_of_some hd, List.length_cons]
      split
      · exact Nat.succ_le_succ (ih (fdParent e))
      · simp

/-- A chain starts at the slot from which it is followed. -/
theorem State.chainFrom_head {n k : Nat} {x : Link} (h : (s.chainFrom p die n k).head? = some x) : x.slot = k := by
  cases n with
  | zero => cases h
  | succ n =>
    cases hd : (s.slot p die k).desc with
    | none => rw [State.chainFrom_of_none hd] at h; cases h
    | some e => rw [State.chainFrom_of_some hd] at h; cases h; rfl

/-- A link holds the state and the descriptor of its slot. -/
theorem State.mem_chainFrom {n k : Nat} {x : Link} (h : x ∈ s.chainFrom p die n k) :
    x.state = (s.slot p die x.slot).state ∧ (s.slot p die x.slot).desc = some x.desc := by
  induction n generalizing k with
  | zero => cases h
  | succ n ih =>
    cases hd : (s.slot p die k).desc with
    | none => rw [State.chainFrom_of_none hd] at h; cases h
    | some e =>
      rw [State.chainFrom_of_some hd, List.mem_cons] at h
      rcases h with rfl | h
      · exact ⟨rfl, hd⟩
      · split at h
        · exact ih h
        · cases h

/-- Each link is the parent of the link before it. -/
theorem State.chainFrom_next {n k i : Nat} {x y : Link} (hx : (s.chainFrom p die n k)[i]? = some x) (hy : (s.chainFrom p die n k)[i + 1]? = some y) :
    fdHasp x.desc = true ∧ y.slot = fdParent x.desc := by
  induction n generalizing k i with
  | zero => cases hx
  | succ n ih =>
    cases hd : (s.slot p die k).desc with
    | none => rw [State.chainFrom_of_none hd] at hx; cases hx
    | some e =>
      rw [State.chainFrom_of_some hd] at hx hy
      rw [List.getElem?_cons_succ] at hy
      split at hy
      next hp =>
        rw [if_pos hp] at hx
        cases i with
        | zero =>
          cases hx
          rw [← List.head?_eq_getElem?] at hy
          exact ⟨hp, State.chainFrom_head hy⟩
        | succ i => exact ih (by rwa [List.getElem?_cons_succ] at hx) hy
      · cases hy

/-- A chain that stops short of its bound ends at a root, or where a parent has no descriptor. -/
theorem State.chainFrom_last {n k : Nat} {x : Link} (hx : (s.chainFrom p die n k).getLast? = some x) (hlen : (s.chainFrom p die n k).length < n) :
    fdHasp x.desc = false ∨ (s.slot p die (fdParent x.desc)).desc = none := by
  induction n generalizing k with
  | zero => cases hx
  | succ n ih =>
    cases hd : (s.slot p die k).desc with
    | none => rw [State.chainFrom_of_none hd] at hx; cases hx
    | some e =>
      rw [State.chainFrom_of_some hd] at hx hlen
      rw [List.length_cons] at hlen
      split at hx
      next hp =>
        rw [if_pos hp] at hlen
        cases hl : s.chainFrom p die n (fdParent e) with
        | nil =>
          rw [hl, List.getLast?_singleton, Option.some_inj] at hx
          subst hx
          rw [hl, List.length_nil] at hlen
          exact .inr (State.desc_of_chainFrom_nil (by omega) hl)
        | cons y l =>
          rw [hl, List.getLast?_cons_cons, ← hl] at hx
          exact ih hx (by omega)
      next hp =>
        rw [List.getLast?_singleton, Option.some_inj] at hx
        subst hx
        exact .inl (Bool.not_eq_true _ ▸ hp)

theorem State.chainOf_eq_some {k hops : Nat} {l : List Link} (h : s.chainOf p die k hops = some l) :
    s.chainFrom p die (if hops = 0 then 64 else hops) k = l ∧ hops ≤ l.length ∧ l ≠ [] := by
  obtain ⟨hc, hl⟩ := Option.ite_none_right_eq_some.mp h
  rw [Option.some_inj] at hl
  rw [hl] at hc
  exact ⟨hl, by simpa using hc⟩

end

/-! ## Fields of descriptors (R179) -/

theorem fdOned_iff {d : Nat} : fdOned d = true ↔ d / 2 ^ 96 % 8 = 7 := beq_iff_eq

theorem fdOned_eq (d : Nat) : fdOned d = decide (d / 2 ^ 96 % 8 = 7) := by
  rw [Bool.eq_iff_iff, fdOned_iff, decide_eq_true_iff]

theorem fdHasp_iff {d : Nat} : fdHasp d = true ↔ d / 2 ^ 110 % 2 = 1 := beq_iff_eq

theorem fdHasp_false_iff {d : Nat} : fdHasp d = false ↔ d / 2 ^ 110 % 2 = 0 := by
  rw [← Bool.not_eq_true, fdHasp_iff]; omega

theorem fdEbase_eq (d : Nat) : fdEbase d = d % 2 ^ 64 := bitsOf_zero d 63

theorem fdCells_eq (d : Nat) :
    fdCells d = if d / 2 ^ 96 % 8 = 7 then d / 2 ^ 64 % 2 ^ 31 else (d / 2 ^ 64 % 2 ^ 16) * (d / 2 ^ 80 % 2 ^ 16) :=
  if_congr fdOned_iff rfl rfl

end Sys2Proof.Machine

namespace Sys2Proof.Machine

/-- R201: the entry that FST writes is its second operand with FULL set. -/
theorem bitsOf_or_full (w : Word) : bitsOf w.toNat 30 0 + 2 ^ 31 = (w ||| 0x80000000).toNat := by
  have hw : w.toNat = 2 ^ 31 * (w.toNat / 2 ^ 31) ||| w.toNat % 2 ^ 31 := by
    rw [← Nat.two_pow_add_eq_or_of_lt (Nat.mod_lt _ (by decide)), Nat.div_add_mod]
  have hq : 2 ^ 31 * (w.toNat / 2 ^ 31) ||| 2 ^ 31 = 2 ^ 31 * 1 := by
    obtain h | h : w.toNat / 2 ^ 31 = 0 ∨ w.toNat / 2 ^ 31 = 1 := by have := w.isLt; omega
    all_goals rw [h]; rfl
  calc bitsOf w.toNat 30 0 + 2 ^ 31
      = 2 ^ 31 * 1 + w.toNat % 2 ^ 31 := by rw [bitsOf_zero]; omega
    _ = 2 ^ 31 * 1 ||| w.toNat % 2 ^ 31 := Nat.two_pow_add_eq_or_of_lt (Nat.mod_lt _ (by decide)) 1
    _ = w.toNat ||| 2 ^ 31 := by rw [← hq, Nat.or_assoc, Nat.or_comm (2 ^ 31), ← Nat.or_assoc, ← hw]
    _ = (w ||| 0x80000000).toNat := by rw [BitVec.toNat_or]; rfl

/-! ## What each FLD instruction checks and starts (R200 to R205) -/

section
variable {s : State} {h : Gd} {t : Thread} {d a b : Opnd} {n dst : Fin 64} {hops : Fin 16} {em : Sys2Proof.Empty} (ht : t.ctr.tiles < 63)
include ht

theorem State.Runs.exec_fopen (hr : s.Runs h (.fopen h d a n) t) :
    exec (.fopen h d a n) s = .next (
      if (s.rd2 t a).toNat % 64 = 0 ∧ (s.slotOf t n.val).state = .free then
        let x := s.slotOf t n.val
        ((s.setSlotOf t n.val { x with state := .opened, pending := true, gen := x.gen + 1 }).putFop t (.open_ n.val (s.rd2 t a).toNat)).wrSpan t true d
          [(x.gen + 1).setWidth 32]
      else s.trapHere t 0x02 0 0 0) := by
  refine (hr.fldIssue (c := .tile) ht _).trans (congrArg _ ?_)
  rw [isLead_alone]
  by_cases hgood : (s.rd2 t a).toNat % 64 = 0 ∧ (s.slotOf t n.val).state = .free
  · rw [if_pos hgood, if_neg (by simp [hgood.1, hgood.2])]
  · rw [if_neg hgood, if_pos (by simpa [← not_and_or] using hgood)]

theorem State.Runs.exec_fst_traps (hr : s.Runs h (.fst h a b n) t) (hx : (s.slotOf t n.val).pending = false)
    (hbad : (s.slotOf t n.val).desc = none ∨ (s.slotOf t n.val).state ≠ .opened ∨ fdCells ((s.slotOf t n.val).desc.getD 0) ≤ (s.rd t a).toNat) :
    exec (.fst h a b n) s = .next (s.trapHere t 0x02 0 0 0) := by
  refine (hr.fldIssue (c := .tile) ht _).trans (congrArg _ ?_)
  rw [State.unlessPending_go (by simpa using hx)]
  cases hd : (s.slotOf t n.val).desc with
  | none => simp only [hd]
  | some e =>
    simp only [hd]
    exact if_pos (by simpa [hd] using hbad)

theorem State.Runs.exec_fst_puts (hr : s.Runs h (.fst h a b n) t) (hx : (s.slotOf t n.val).pending = false) {e : Nat}
    (hd : (s.slotOf t n.val).desc = some e) (hst : (s.slotOf t n.val).state = .opened) (hi : (s.rd t a).toNat < fdCells e) :
    exec (.fst h a b n) s =
      .next (s.putFop t (.put ((fdEbase e + 4 * (s.rd t a).toNat) % 2 ^ 64) (bitsOf (s.rd t b).toNat 30 0 + 2 ^ 31) false)) := by
  refine (hr.fldIssue (c := .tile) ht _).trans (congrArg _ ?_)
  rw [State.unlessPending_go (by simpa using hx)]
  simp only [hd]
  exact if_neg (by simp [hst, hi])

theorem State.Runs.exec_fseal (hr : s.Runs h (.fseal h n) t) (hx : (s.slotOf t n.val).pending = false) :
    exec (.fseal h n) s = .next (
      if (s.slotOf t n.val).state = .opened then (s.setSlotOf t n.val { s.slotOf t n.val with state := .sealed }).putFop t (.seal n.val)
      else s.trapHere t 0x02 0 0 0) := by
  refine (hr.fldIssue (c := .tile) ht _).trans (congrArg _ ?_)
  rw [State.unlessPending_go (by simpa using hx)]
  exact (ite_congr (by simp) (fun _ => rfl) fun _ => rfl).trans (ite_not ..)

theorem State.Runs.exec_finv (hr : s.Runs h (.finv h n) t) (hx : (s.slotOf t n.val).pending = false) :
    exec (.finv h n) s = .next (
      if (s.slotOf t n.val).state = .free then s.trapHere t 0x02 0 0 0 else s.putFop t (.inv n.val none)) := by
  refine (hr.fldIssue (c := .tile) ht _).trans (congrArg _ ?_)
  rw [State.unlessPending_go (by simpa using hx)]
  exact ite_congr (by simp) (fun _ => rfl) fun _ => rfl

theorem State.Runs.exec_frel (hr : s.Runs h (.frel h n) t) :
    exec (.frel h n) s = .next (
      if (s.slotOf t n.val).state = .retired then s.putFop t (.rel n.val) else s.trapHere t 0x02 0 0 0) := by
  refine (hr.fldIssue (c := .tile) ht _).trans (congrArg _ ?_)
  exact (ite_congr (by simp) (fun _ => rfl) fun _ => rfl).trans (ite_not ..)

/-- The slot that FCOMP makes of its destination. -/
def State.composed (s : State) (t : Thread) (src dst arr : Nat) (l : List Link) : Slot :=
  { state := .opened
    pending := true
    desc := some (compDesc arr ((s.slotOf t src).desc.getD 0) (lastDesc l))
    gen := (s.slotOf t dst).gen + 1
    mask := l.foldl (fun m k => m ||| (s.slotOf t k.slot).mask) (1#64 <<< dst)
    depth := (s.slotOf t src).depth - l.length + 1 }

theorem State.Runs.exec_fcomp_unchained (hr : s.Runs h (.fcomp h a n dst hops em) t) (hx : (s.slotOf t n.val).pending = false)
    (hy : (s.slotOf t dst.val).pending = false) (hl : s.chainOf t.place.part t.place.core.die n.val hops.val = none) :
    exec (.fcomp h a n dst hops em) s = .next (s.trapHere t 0x02 0 0 0) := by
  refine (hr.fldIssue (c := .tile) ht _).trans (congrArg _ ?_)
  rw [State.unlessPending_go (by simp [hx, hy]), hl]

theorem State.Runs.exec_fcomp_chained (hr : s.Runs h (.fcomp h a n dst hops em) t) (hx : (s.slotOf t n.val).pending = false)
    (hy : (s.slotOf t dst.val).pending = false) {l : List Link} (hl : s.chainOf t.place.part t.place.core.die n.val hops.val = some l) :
    exec (.fcomp h a n dst hops em) s = .next (
      if (s.rd2 t a).toNat % 64 = 0 ∧ (s.slotOf t dst.val).state = .free ∧
          ((s.slotOf t n.val).state = .opened ∨ (s.slotOf t n.val).state = .sealed) ∧ ∀ k ∈ l, k.slot ≠ dst.val then
        (s.setSlotOf t dst.val (s.composed t n.val dst.val (s.rd2 t a).toNat l)).putFop t (.comp n.val dst.val (s.rd2 t a).toNat l em [])
      else s.trapHere t 0x02 0 0 0) := by
  refine (hr.fldIssue (c := .tile) ht _).trans (congrArg _ ?_)
  rw [State.unlessPending_go (by simp [hx, hy]), hl]
  refine (ite_congr ?_ (fun _ => rfl) fun _ => rfl).trans (ite_not ..)
  simp [or_assoc]
  tauto

theorem State.Runs.exec_fqry (hr : s.Runs h (.fqry h d n) t) :
    exec (.fqry h d n) s = .next ((s.advance t.id).wrSpan t true d
      [BitVec.ofNat 32 (fqryWord (s.slotOf t n.val)), BitVec.ofNat 32 (Nat.min 64 (s.walksOf t.place.part t.place.core.die n.val))]) := by
  refine (hr.fldIssue (c := .tile) ht _).trans (congrArg _ ?_)
  rw [isLead_alone]

theorem State.Runs.exec_fqryAnc (hr : s.Runs h (.fqryAnc h d n) t) :
    exec (.fqryAnc h d n) s = .next ((s.advance t.id).wrSpan t true d (lohi (s.slotOf t n.val).mask)) := by
  refine (hr.fldIssue (c := .tile) ht _).trans (congrArg _ ?_)
  rw [isLead_alone, toWords_two]

end

/-! ## What FCOMP writes in its slot (R189, R190) -/

/-- The array and the grid of a composed field's descriptor are those of the instruction and of the source. -/
theorem compDesc_low {arr : Nat} (ha : arr < 2 ^ 64) (src last : Nat) : compDesc arr src last % 2 ^ 104 = arr + src / 2 ^ 64 % 2 ^ 35 * 2 ^ 64 := by
  have hcell : src / 2 ^ 96 = src / 2 ^ 64 / 2 ^ 32 := by rw [Nat.div_div_eq_div_mul, ← pow_add]
  simp only [compDesc, fdCell, bitsOf, hcell]
  omega

/-- Its ancestor and its parent are those of the last slot, whose reserved bit 111 is 0. -/
theorem compDesc_high {arr : Nat} (ha : arr < 2 ^ 64) (src : Nat) {last : Nat} (hlast : last / 2 ^ 111 % 2 = 0) :
    compDesc arr src last / 2 ^ 104 % 2 ^ 152 = last / 2 ^ 104 % 2 ^ 152 := by
  have h₁ : last / 2 ^ 111 = last / 2 ^ 104 / 2 ^ 7 := by rw [Nat.div_div_eq_div_mul, ← pow_add]
  have h₂ : last / 2 ^ 112 = last / 2 ^ 104 / 2 ^ 8 := by rw [Nat.div_div_eq_div_mul, ← pow_add]
  simp only [compDesc, fdCell, bitsOf, h₁, h₂] at hlast ⊢
  omega

/-- A bit of the union of masks. -/
theorem getLsbD_foldl_or {α : Type} (f : α → BitVec 64) (l : List α) (m : BitVec 64) (k : Nat) :
    (l.foldl (fun m x => m ||| f x) m).getLsbD k = true ↔ m.getLsbD k = true ∨ ∃ x ∈ l, (f x).getLsbD k = true := by
  induction l generalizing m with
  | nil => simp
  | cons x l ih => simp [ih, or_assoc]

theorem getLsbD_one_shiftLeft {w n k : Nat} (hk : k < w) : (1#w <<< n).getLsbD k = decide (k = n) := by
  simp only [BitVec.getLsbD_shiftLeft, BitVec.getLsbD_one, hk, decide_true, Bool.true_and]
  rw [Bool.eq_iff_iff]
  simp only [Bool.and_eq_true, Bool.not_eq_true', decide_eq_true_eq, decide_eq_false_iff_not]
  omega

/-! ## The word of FQRY (R206) -/

theorem toNat_extract (w : Word) (lo len : Nat) : (w.extractLsb' lo len).toNat = w.toNat / 2 ^ lo % 2 ^ len := by
  rw [BitVec.extractLsb'_toNat, Nat.shiftRight_eq_div_pow]

theorem getLsbD_of_div {w : Word} {k : Nat} {b : Bool} (h : w.toNat / 2 ^ k % 2 = b.toNat) : w.getLsbD k = b := by
  rw [BitVec.getLsbD, Nat.testBit_eq_decide_div_mod_eq, h]
  cases b <;> rfl

/-- The fields of a word that joins them as FQRY's does. -/
theorem fqryFields (g : BitVec 16) {st par dep : Nat} (hasp oned : Bool) (hst : st < 4) (hpar : par < 64) (hdep : dep < 16) :
    let w := BitVec.ofNat 32 (g.toNat + st * 2 ^ 16 + (if hasp = true then 2 ^ 18 else 0) + par * 2 ^ 19 + dep * 2 ^ 25 + if oned = true then 2 ^ 29 else 0)
    w.extractLsb' 0 16 = g ∧ (w.extractLsb' 16 2).toNat = st ∧ w.getLsbD 18 = hasp ∧ (w.extractLsb' 19 6).toNat = par ∧
      (w.extractLsb' 25 4).toNat = dep ∧ w.getLsbD 29 = oned ∧ w.extractLsb' 30 2 = 0 := by
  intro w
  have hg := g.isLt
  have hp := Bool.toNat_le hasp
  have ho := Bool.toNat_le oned
  have hbit (b : Bool) (n : Nat) : (if b = true then n else 0) = b.toNat * n := by cases b <;> simp
  have hw : w.toNat = g.toNat + st * 2 ^ 16 + hasp.toNat * 2 ^ 18 + par * 2 ^ 19 + dep * 2 ^ 25 + oned.toNat * 2 ^ 29 := by
    simp only [w, hbit, BitVec.toNat_ofNat]
    omega
  refine ⟨BitVec.eq_of_toNat_eq ?_, ?_, getLsbD_of_div ?_, ?_, ?_, getLsbD_of_div ?_, BitVec.eq_of_toNat_eq ?_⟩
  all_goals
    simp only [toNat_extract, hw, BitVec.ofNat_eq_ofNat, BitVec.toNat_ofNat]
    omega

end Sys2Proof.Machine

namespace Sys2Proof.Machine

/-! ## History loads (R17, R33, R184, R207) -/

section
variable {s : State} {p die k hops budget : Nat} {hres : Bool} {d : Opnd}

theorem State.histCheck_free (hst : (s.slot p die k).state = .free) : s.histCheck p die k hops budget hres d = .error 0x02 :=
  if_pos (by simp [hst])

theorem State.histCheck_unchained (hl : s.chainOf p die k hops = none) : s.histCheck p die k hops budget hres d = .error 0x02 := by
  simp only [State.histCheck, hl]
  exact ite_self _

/-- The first field of a chain is 1-D (R179). -/
def chainOned (l : List Link) : Bool := (l.head?.map fun x => fdOned x.desc).getD false

/-- Registers that a history load of a chain fills (R207). -/
def histRegs (l : List Link) (hres : Bool) : Nat := if hres then 4 else surfChans (fdFmt (lastDesc l))

variable {l : List Link} (hst : (s.slot p die k).state ≠ .free) (hl : s.chainOf p die k hops = some l)
include hst hl

/-- R207: HLD filters a 2-D ancestor surface. -/
theorem State.histCheck_surfaceless (hbad : hres = false ∧ (chainOned l = true ∨ fdFmt (lastDesc l) = 15)) :
    s.histCheck p die k hops budget hres d = .error 0x02 := by
  simp only [State.histCheck, hl]
  rw [if_neg (by simpa using hst), if_pos]
  simpa [hbad.1, chainOned] using hbad.2

theorem State.histCheck_ok (hgood : ¬ (hres = false ∧ (chainOned l = true ∨ fdFmt (lastDesc l) = 15))) (hspan : d.spanOk (histRegs l hres) = true)
    (hbudget : inBudget budget (d, histRegs l hres) = true) : s.histCheck p die k hops budget hres d = .ok (l, histRegs l hres) := by
  simp only [State.histCheck, hl]
  rw [if_neg (by simpa using hst), if_neg (by simpa [chainOned] using hgood)]
  exact if_neg (by simp [show (if hres = true then 4 else surfChans (fdFmt (lastDesc l))) = histRegs l hres from rfl, hspan, hbudget])

end

/-- The scoreboard entry of a predicate destination; p7 takes none (R47). -/
def heldP (op : Nat) (pred : Option Nat) : List (Nat × RegRef) :=
  match pred with
  | some n => if n < 7 then [(op, .p n)] else []
  | none => []

theorem State.onThread_same (s : State) (k : Nat) {F : Thread → Thread} (hF : ∀ x, F x = x) : s.onThread k F = s := by
  simp [State.onThread, State.onWk, hF]

theorem State.holdPred_eq (s : State) (t op : Nat) (pred : Option Nat) :
    s.holdPred t op pred = s.onThread t fun x => { x with out := { x.out with pend := x.out.pend ++ heldP op pred } } := by
  cases pred with
  | none => exact (s.onThread_same t fun x => by simp [heldP]).symm
  | some n =>
    by_cases hn : n < 7
    · simp only [State.holdPred, heldP, if_pos hn]; rfl
    · rw [State.holdPred, heldP, if_neg hn]
      exact (s.onThread_same t fun x => by simp [if_neg hn]).symm

/-- A walk as its thread issues it (R184, R207). -/
def State.walkOf (s : State) (t : Thread) (d a : Opnd) (n hops : Nat) (em : Empty) (pred : Option Nat) (hres : Bool) (l : List Link) : Walk :=
  let x := (s.rdReg t a 0).toNat
  let y := if chainOned l then 0 else (s.rdReg t a 1).toNat
  { id := s.nextId, tid := t.id, launch := s.launchNo t, core := t.place.core, part := t.place.part, pos := t.pos, slot := n, hops := hops,
    x0 := x, y0 := y, em := em, d := d, regs := histRegs l hres, hres := hres, pred := pred, chain := l, at_ := WalkAt.start x y, st := .going,
    stalled := false, texels := [], since := s.clock.toNat }

/-- The thread goes on with one more load outstanding, whose predicate is p. -/
def Thread.startsLoad (op : Nat) (pred : Option Nat) (t : Thread) : Thread :=
  { t.advance with
    ctr := { t.ctr with loads := t.ctr.loads + 1 }
    out := { t.out with pend := t.out.pend ++ heldP op pred } }

/-- The state in which a thread has put a walk into the chain walker. -/
def State.startWalk (s : State) (t : Thread) (w : Walk) : State :=
  (({ s with nextId := s.nextId + 1, en := { s.en with walks := s.en.walks ++ [w] } } : State).hold t w.id w.d w.regs).onThread t.id
    (Thread.startsLoad w.id w.pred)

section
variable {s : State} {h : Gd} {i : Instr} {t : Thread} {d a : Opnd} {n hops : Nat} {em : Empty} {pred : Option Nat} {hres : Bool}
variable (hr : s.Runs h i t) (ht : t.ctr.loads < 63) (hx : (s.slotOf t n).pending = false)
include hr ht hx

theorem State.Runs.histIssue_traps (hbad : s.histCheck t.place.part t.place.core.die n hops t.place.budget hres d = .error 0x02) :
    histIssue i h d a n hops em pred hres s = .next (s.trapHere t 0x02 0 0 0) := by
  refine (hr.fldIssue (c := .load) ht _).trans (congrArg _ ?_)
  rw [State.unlessPending_go (by simpa using hx)]
  simp only [hbad]

theorem State.Runs.histIssue_walks {l : List Link}
    (hok : s.histCheck t.place.part t.place.core.die n hops t.place.budget hres d = .ok (l, histRegs l hres))
    (hfree : s.pending t (spanRefs (d, histRegs l hres)) = false) (hroom : s.walkerLoad t.place.core < 64) :
    histIssue i h d a n hops em pred hres s = .next (s.startWalk t (s.walkOf t d a n hops em pred hres l)) := by
  refine (hr.fldIssue (c := .load) ht _).trans (congrArg _ ?_)
  rw [State.unlessPending_go (by simpa using hx)]
  simp only [hok, hfree, Bool.false_eq_true, if_false, if_neg (Nat.not_le.mpr hroom), destOf_alone, State.holdPred_eq, State.up, State.advance]
  rw [State.onThread_onThread _ _ _ _ (by exact fun _ => rfl), State.onThread_onThread _ _ _ _ (by exact fun _ => rfl)]
  rfl

end

section
variable {s : State} {t : Thread} (ht : s.thread t.id = some t) (w : Walk)
include ht

theorem State.startWalk_hold :
    s.Awaits (({ s with nextId := s.nextId + 1, en := { s.en with walks := s.en.walks ++ [w] } } : State).hold t w.id w.d w.regs) t w.id w.d w.regs t := by
  have h := State.hold_awaits (s1 := { s with nextId := s.nextId + 1, en := { s.en with walks := s.en.walks ++ [w] } }) ht rfl rfl w.id w.d w.regs id id
    (fun _ => rfl) (fun _ => rfl) rfl (fun _ _ => rfl) fun _ => rfl
  rwa [State.onThread_same _ _ (F := id) fun _ => rfl, State.onThread_same _ _ (F := id) fun _ => rfl] at h

theorem State.startWalk_thread : (s.startWalk t w).thread t.id =
    some { t.advance with
      ctr := { t.ctr with loads := t.ctr.loads + 1 }
      out := { t.out with pend := t.out.pend ++ heldV w.id w.d w.regs ++ heldP w.id w.pred } } :=
  State.thread_onThread_self (t := { t with out := { t.out with pend := t.out.pend ++ heldV w.id w.d w.regs } }) (State.startWalk_hold ht w).self _
    fun _ => id

theorem State.startWalk_others {u : Nat} (hu : u ≠ t.id) : (s.startWalk t w).thread u = s.thread u :=
  (State.thread_onThread_ne _ hu _ (by exact fun _ => id)).trans ((State.startWalk_hold ht w).others u hu)

theorem State.startWalk_groups (g : Nat) : (s.startWalk t w).group g =
    (s.group g).map fun y => if g = t.place.grp then { y with pend := y.pend ++ heldG w.id w.d w.regs } else y :=
  (State.startWalk_hold ht w).groups g

omit ht in
theorem State.startWalk_rest : s.startWalk t w = { s with
    nextId := s.nextId + 1
    en := { s.en with walks := s.en.walks ++ [w] }
    wk := { s.wk with threads := (s.startWalk t w).wk.threads, groups := (s.startWalk t w).wk.groups } } := by
  conv_lhs => rw [State.startWalk, State.hold_rest]
  rfl

end

end Sys2Proof.Machine

namespace Sys2Proof.Machine

/-! ## What FLD instructions leave to be read (R190, R206, R207) -/

theorem State.composed_mask {s : State} {t : Thread} {src dst arr : Nat} {l : List Link} {k : Nat} (hk : k < 64) :
    (s.composed t src dst arr l).mask.getLsbD k = true ↔ k = dst ∨ ∃ z ∈ l, (s.slotOf t z.slot).mask.getLsbD k = true := by
  refine (getLsbD_foldl_or (fun z : Link => (s.slotOf t z.slot).mask) l _ k).trans ?_
  rw [getLsbD_one_shiftLeft hk, decide_eq_true_iff]

theorem SlotState.code_lt (x : SlotState) : x.code < 4 := by cases x <;> decide

/-- R206: the fields of the low word of FQRY. -/
theorem fqryWord_fields {x : Slot} (hx : x.depth ≤ 8) :
    let w := BitVec.ofNat 32 (fqryWord x)
    let fd := x.desc.getD 0
    w.extractLsb' 0 16 = x.gen ∧ (w.extractLsb' 16 2).toNat = (if x.pending then SlotState.opened else x.state).code ∧ w.getLsbD 18 = fdHasp fd ∧
      (w.extractLsb' 19 6).toNat = fdParent fd ∧ (w.extractLsb' 25 4).toNat = (if x.state == .free || x.desc.isNone then 0 else x.depth) ∧
      w.getLsbD 29 = fdOned fd ∧ w.extractLsb' 30 2 = 0 :=
  fqryFields x.gen (fdHasp (x.desc.getD 0)) (fdOned (x.desc.getD 0)) (SlotState.code_lt _) (Nat.mod_lt _ (by decide)) (by split <;> omega)

theorem fdHasp_eq_testBit (d : Nat) : fdHasp d = d.testBit 110 := by
  rw [Bool.eq_iff_iff, fdHasp_iff, Nat.testBit_eq_decide_div_mod_eq, decide_eq_true_iff]

theorem chainOned_iff {l : List Link} : chainOned l = true ↔ ∃ k, l.head? = some k ∧ k.desc / 2 ^ 96 % 8 = 7 := by
  cases l with
  | nil => simp [chainOned]
  | cons x l => simp [chainOned, fdOned_iff]

theorem surfChans_eq (fmt : Nat) : surfChans fmt = if fmt = 0 then 1 else if fmt = 1 then 2 else if fmt ≤ 4 then 4 else 0 := by
  match fmt with
  | 0 | 1 | 2 | 3 | 4 => rfl
  | n + 5 => simp [surfChans]

theorem exec_hld_hres (s : State) (h : Gd) (d a : Opnd) (n : Fin 64) (hops : Fin 16) (em : Sys2Proof.Empty) (pred : Option (Fin 8)) (hres : Bool) :
    let i : Instr := if hres then .hres h d a n hops em pred else .hld h d a n hops em pred
    exec i s = histIssue i h d a n.val hops.val em (pred.map Fin.val) hres s := by
  cases hres <;> rfl

/-- Settles O38: an issue by one thread is what the instruction's own lemma says that it checks and starts; a chain is followed by
`chainFrom`; a history load is issued by `histIssue`. -/
theorem fieldInstructionsIssue : Obligations.FieldInstructionsIssue := by
  unfold Obligations.FieldInstructionsIssue
  refine ⟨?slots, ?chain, ?walks⟩
  case slots =>
    intro s t h d a b n dst hops em ht x y A i Traps fd oned cells ea
    have hcells : fdCells fd = cells := fdCells_eq fd
    refine ⟨fun hA hst hr => ?fopen, fun hbad hr => (hr.exec_fopen ht).trans (congrArg _ (if_neg hbad)), fun hx hd hst hi hr => ?fst,
      fun hx hbad hr => hr.exec_fst_traps ht hx (hcells ▸ hbad), fun hx hst hr => ?fseal,
      fun hx hst hr => (hr.exec_fseal ht hx).trans (congrArg _ (if_neg hst)), ?fcomp, fun hx hy hl hr => hr.exec_fcomp_unchained ht hx hy hl,
      fun hx hst hr => ?finv, fun hx hst hr => (hr.exec_finv ht hx).trans (congrArg _ (if_pos hst)), fun hst hr => ?frel,
      fun hst hr => (hr.exec_frel ht).trans (congrArg _ (if_neg hst)), fun hr hdep => ?fqry, fun hr => ?fqryAnc⟩
    case fopen => exact ⟨_, (hr.exec_fopen ht).trans (congrArg _ (if_pos ⟨hA, hst⟩)), State.startsField_set hr.thread _ d _ n.val _⟩
    case fst =>
      obtain ⟨e, he⟩ := Option.ne_none_iff_exists'.mp hd
      have hfd : fd = e := congrArg (Option.getD · 0) he
      rw [← hcells, hfd] at hi
      refine ⟨_, hr.exec_fst_puts ht hx he hst hi, ?_⟩
      rw [bitsOf_or_full, fdEbase_eq, ← hfd]
      exact State.startsField_keep hr.thread _ n.val
    case fseal => exact ⟨_, (hr.exec_fseal ht hx).trans (congrArg _ (if_pos hst)), State.startsField_set hr.thread _ .z [] n.val _⟩
    case fcomp =>
      intro hx hy l hl good last
      refine ⟨fun hgood hr => ?_, fun hbad hr => (hr.exec_fcomp_chained ht hx hy hl).trans (congrArg _ (if_neg hbad))⟩
      exact ⟨_, _, (s.composed t n.val dst.val A l).mask, (hr.exec_fcomp_chained ht hx hy hl).trans (congrArg _ (if_pos hgood)),
        State.startsField_set hr.thread _ .z [] dst.val (s.composed t n.val dst.val A l), compDesc_low (s.rd2 t a).isLt fd last,
        compDesc_high (s.rd2 t a).isLt fd, fun k hk => State.composed_mask hk⟩
    case finv => exact ⟨_, (hr.exec_finv ht hx).trans (congrArg _ (if_neg hst)), State.startsField_keep hr.thread _ n.val⟩
    case frel => exact ⟨_, (hr.exec_frel ht).trans (congrArg _ (if_pos hst)), State.startsField_keep hr.thread _ n.val⟩
    case fqry =>
      obtain ⟨hgen, hcode, hhasp, hpar, hdepth, honed, hrest⟩ := fqryWord_fields hdep
      refine ⟨_, _, hr.exec_fqry ht, State.writes_wrSpan hr.thread Thread.advance (fun _ => rfl) rfl rfl d _, hgen, BitVec.eq_of_toNat_eq ?_,
        hhasp.trans (fdHasp_eq_testBit fd), hpar, hdepth.trans (if_congr ?_ rfl rfl), honed.trans (fdOned_eq fd), hrest⟩
      · rw [hcode]
        show _ = (if x.pending = true then (1 : BitVec 2) else _).toNat
        cases x.pending <;> cases x.state <;> rfl
      · simp [x]
    case fqryAnc => exact ⟨_, hr.exec_fqryAnc ht, State.writes_wrSpan hr.thread Thread.advance (fun _ => rfl) rfl rfl d _⟩
  case chain =>
    intro s p die k hops l hops8 hl
    obtain ⟨rfl, hlen, hne⟩ := State.chainOf_eq_some hl
    refine ⟨?_, fun h0 => ?_, fun x hx => State.mem_chainFrom hx, fun i x y hx hy => ?_, fun h0 x hx hshort => ?_⟩
    · obtain ⟨x, hx⟩ := Option.ne_none_iff_exists'.mp (mt List.head?_eq_none_iff.mp hne)
      rw [hx, Option.map_some, State.chainFrom_head hx]
    · refine Nat.le_antisymm ?_ hlen
      rw [if_neg h0]
      exact State.chainFrom_length hops k
    · exact (State.chainFrom_next hx hy).imp_left fdHasp_iff.mp
    · rw [if_pos h0] at hx hshort
      exact (State.chainFrom_last hx hshort).imp_left fdHasp_false_iff.mp
  case walks =>
    intro s t h d a n hops em pred hres i x chain Bad ht hx
    have bad (hb : s.histCheck t.place.part t.place.core.die n.val hops.val t.place.budget hres d = .error 0x02) : Bad := fun hr =>
      (exec_hld_hres ..).trans (hr.histIssue_traps ht hx hb)
    refine ⟨fun hst => bad (State.histCheck_free hst), fun hl => bad (State.histCheck_unchained hl), ?_⟩
    intro l hst hl one fmt regs P
    have hone : chainOned l = true ↔ one := chainOned_iff
    have hregs : histRegs l hres = regs := if_congr Iff.rfl rfl (surfChans_eq _)
    have hy : (if chainOned l = true then 0 else (s.rdReg t a 1).toNat) = P.getD 1 0 := if_congr hone rfl rfl
    refine ⟨fun hh hb => bad (State.histCheck_surfaceless hst hl ⟨hh, hb.imp_left hone.mpr⟩), fun hgood hspan hbudget hfree hroom hr => ?_⟩
    rw [← hone] at hgood
    rw [← hregs] at hspan hbudget hfree ⊢
    rw [← hy]
    refine ⟨_, (exec_hld_hres ..).trans (hr.histIssue_walks ht hx (State.histCheck_ok hst hl hgood hspan hbudget) hfree hroom), ?_,
      fun u hu => State.startWalk_others hr.thread _ hu, State.startWalk_groups hr.thread _, State.startWalk_rest _⟩
    rw [State.startWalk_thread hr.thread]
    cases pred <;> rfl

end Sys2Proof.Machine

namespace Sys2Proof.Machine

/-! ## What a read of an agent leaves as it was (R226, R379) -/

/-- Views and translations may differ, and nothing of the engines, the threads and the bytes of the memories. -/
structure State.SeesMore (s s' : State) : Prop where
  en : s'.en = s.en
  wk : s'.wk = s.wk
  mem : s'.ms.mem = s.ms.mem
  vault : s'.ms.vault = s.ms.vault

theorem State.SeesMore.refl (s : State) : s.SeesMore s := ⟨rfl, rfl, rfl, rfl⟩

theorem State.SeesMore.trans {s₁ s₂ s₃ : State} (h : s₁.SeesMore s₂) (h' : s₂.SeesMore s₃) : s₁.SeesMore s₃ :=
  ⟨h'.en.trans h.en, h'.wk.trans h.wk, h'.mem.trans h.mem, h'.vault.trans h.vault⟩

theorem State.seesMore_refresh (s : State) (w : Who) (sc : Scope) : s.SeesMore (s.refresh w sc) := by
  cases sc <;> exact ⟨rfl, rfl, rfl, rfl⟩

theorem State.seesMore_fillTlb (s : State) (x : Xl) (va : Nat) : s.SeesMore (s.fillTlb x va) := by
  have hrefresh : s.SeesMore (if s.inL2Tlb x va then s else s.refresh (s.walker x va) .system) := by
    split
    · exact .refl s
    · exact s.seesMore_refresh _ _
  unfold State.fillTlb
  split
  · exact .refl s
  · dsimp only
    split
    · exact hrefresh
    · refine hrefresh.trans ?_
      split <;> exact ⟨rfl, rfl, rfl, rfl⟩

theorem State.seesMore_agentFill (s : State) (x : Xl) (va n : Nat) : s.SeesMore (s.agentFill x va n) := by
  have hfold (l : List Nat) (s : State) : s.SeesMore (l.foldl (fun s p => s.fillTlb x (4096 * p)) s) := by
    induction l generalizing s with
    | nil => exact .refl s
    | cons p l ih => exact (s.seesMore_fillTlb x _).trans (ih _)
  exact hfold _ s

/-! ## A walk at a slot (R182, R184, R185, R187) -/

theorem State.walk_onWalk (s : State) (k u : Nat) (f : Walk → Walk) (hf : ∀ x, x.id = k → (f x).id = k) :
    (s.onWalk k f).walk u = (s.walk u).map fun x => if u = k then f x else x :=
  find_map_key Walk.id s.en.walks k u f hf

/-- Walk w has come to stand at a place, under a status, and no byte and nothing of the work side has changed. -/
structure State.WalkComes (s s' : State) (w : Walk) (e : WalkEnd) (a : WalkAt) : Prop where
  walk : s'.walk w.id = some { w with st := e, at_ := a }
  bytes : s.KeepsBytes s'
  wk : s'.wk = s.wk

theorem State.walkComes_of_seesMore {s s₁ : State} (h : s.SeesMore s₁) {w : Walk} (hw : s.walk w.id = some w) (e : WalkEnd) (a : WalkAt) :
    s.WalkComes (s₁.onWalk w.id fun y => { y with st := e, at_ := a }) w e a := by
  refine ⟨?_, fun x => ⟨congrArg (Memory.read · x) h.mem, congrArg (Memory.read · x) h.vault⟩, h.wk⟩
  have hw₁ : s₁.walk w.id = some w := by rw [State.walk, h.en]; exact hw
  rw [State.walk_onWalk _ _ _ _ (by exact fun _ => id), hw₁]
  simp

section
variable {s : State} {w : Walk} {x : Xl} {who : Who} {l : Link}

theorem State.walkSlot_disocc {r : Nat} (h : s.walkLook x who w.part w.core.die l w.em w.at_ = .disocc r) :
    s.walkSlot w x who l = s.onWalk w.id fun y => { y with st := .disocc r l.slot, at_ := w.at_ } := by
  simp only [State.walkSlot, h]

theorem State.walkSlot_park (h : s.walkLook x who w.part w.core.die l w.em w.at_ = .park) :
    s.walkSlot w x who l = s.onWalk w.id fun y => { y with st := .parked, at_ := w.at_ } := by
  simp only [State.walkSlot, h]

/-- R184: where a step of a walk ends. -/
theorem State.walkSlot_entry (hw : s.walk w.id = some w) {v : Nat} (h : s.walkLook x who w.part w.core.die l w.em w.at_ = .entry v) :
    let a := w.at_.step l.desc v
    (a.inside l.desc = false → s.WalkComes (s.walkSlot w x who l) w (.disocc 5 l.slot) a) ∧
    (a.inside l.desc = true → s.WalkComes (s.walkSlot w x who l) w (if a.n + 1 = w.chain.length then .reached else .going) { a with n := a.n + 1 }) := by
  have hfill := s.seesMore_agentFill x (fdEbase l.desc + 4 * (cellIndex l.desc w.at_.x w.at_.y).getD 0) 4
  refine ⟨fun hin => ?_, fun hin => ?_⟩
  · simp only [State.walkSlot, h, hin]
    exact State.walkComes_of_seesMore hfill hw _ _
  · simp only [State.walkSlot, h, hin, beq_iff_eq]
    exact State.walkComes_of_seesMore hfill hw _ _

end

section
variable {s : State} {x : Xl} {who : Who} {p die : Nat} {l : Link} {em : Empty} {a : WalkAt}

theorem State.walkLook_retired (h : l.state = .retired) : s.walkLook x who p die l em a = .disocc 1 :=
  if_pos (by simp [h])

variable (hlive : l.state ≠ .retired)
include hlive

theorem State.walkLook_outside (h : cellIndex l.desc a.x a.y = none) : s.walkLook x who p die l em a = .disocc 4 := by
  simp only [State.walkLook, h]
  exact if_neg (by simpa using hlive)

/-- What a walk under WAIT finds at an empty entry of a slot that was open: it depends on the slot's state since. -/
def waitLook (now : SlotState) : WalkLook :=
  match now with
  | .opened => .park
  | .sealed => .disocc 3
  | _ => .disocc 1

/-- What a walk at x finds in an entry v of a live slot, whose state is now another perhaps. -/
def entryLook (l : Link) (em : Empty) (now : SlotState) (x v : Nat) : WalkLook :=
  if bitsOf v 31 31 = 0 then
    if l.state = .sealed ∨ em = .miss then .disocc 3
    else if em = .zero then .entry (0xC0000000 + if fdOned l.desc then x else 0)
    else waitLook now
  else if bitsOf v 30 30 = 0 then .disocc 2 else .entry v

theorem State.walkLook_read {i : Nat} {r : ReadRes} (hcell : cellIndex l.desc a.x a.y = some i)
    (hr : s.agentRead x who .die (fdEbase l.desc + 4 * i) 4 = .ok r) (hp : r.poison = false) :
    s.walkLook x who p die l em a = entryLook l em (s.slot p die l.slot).state a.x r.val := by
  simp only [State.walkLook, hcell, hr, hp]
  rw [if_neg (by simpa using hlive), if_neg Bool.false_ne_true, entryLook]
  refine ite_congr rfl (fun _ => ?_) fun _ => rfl
  by_cases hsealed : l.state = .sealed
  · rw [if_pos (by simp [hsealed]), if_pos (.inl hsealed)]
  · rw [if_neg (by simpa using hsealed)]
    cases em with
    | wait => cases (s.slot p die l.slot).state <;> simp [hsealed, waitLook]
    | zero => simp [hsealed]
    | miss => simp

end

section
variable {l : Link} {em : Empty} {now : SlotState} {x v : Nat}

theorem entryLook_full (h : v / 2 ^ 31 % 2 = 1) : entryLook l em now x v = if v / 2 ^ 30 % 2 = 0 then .disocc 2 else .entry v :=
  if_neg (by simpa [bitsOf] using h)

variable (h : v / 2 ^ 31 % 2 = 0)
include h

theorem entryLook_empty : entryLook l em now x v =
    if l.state = .sealed ∨ em = .miss then .disocc 3
    else if em = .zero then .entry (0xC0000000 + if fdOned l.desc then x else 0)
    else waitLook now :=
  if_pos (by simpa [bitsOf] using h)

theorem entryLook_miss (hm : l.state = .sealed ∨ em = .miss) : entryLook l em now x v = .disocc 3 :=
  (entryLook_empty h).trans (if_pos hm)

theorem entryLook_zero (ho : l.state ≠ .sealed) : entryLook l .zero now x v = .entry (0xC0000000 + if fdOned l.desc then x else 0) :=
  (entryLook_empty h).trans (if_neg (by simpa using ho))

theorem entryLook_wait (ho : l.state ≠ .sealed) : entryLook l .wait now x v = waitLook now :=
  (entryLook_empty h).trans (if_neg (by simpa using ho))

end

/-! ## A step of a walk (R184, R189) -/

theorem signExtend_bitsOf (e k : Nat) : signExtend (e / 2 ^ k % 2 ^ 12) 12 = (BitVec.ofNat 12 (e / 2 ^ k)).toInt := by
  rw [BitVec.toInt_eq_toNat_cond, BitVec.toNat_ofNat, signExtend, Nat.mod_mod]
  refine if_congr ?_ rfl rfl
  omega

/-- A step by an entry, in the fields of the manual. -/
theorem WalkAt.step_eq (a : WalkAt) (d e : Nat) : a.step d e =
    if d / 2 ^ 96 % 8 = 7 then { a with x := e % 2 ^ 30 }
    else
      let dx := (BitVec.ofNat 12 e).toInt
      let dy := (BitVec.ofNat 12 (e / 2 ^ 12)).toInt
      { a with
        x := fAdd a.x (fMul (fInt dx) 0x3E000000)
        y := fAdd a.y (fMul (fInt dy) 0x3E000000)
        conf := min a.conf (e / 2 ^ 24 % 64)
        dx := a.dx + dx
        dy := a.dy + dy } := by
  have hdx : entryDx e = (BitVec.ofNat 12 e).toInt := (congrArg (signExtend · 12) (by simp [bitsOf])).trans ((signExtend_bitsOf e 0).trans (by simp))
  have hdy : entryDy e = (BitVec.ofNat 12 (e / 2 ^ 12)).toInt := signExtend_bitsOf e 12
  refine if_congr fdOned_iff ?_ ?_
  · rw [bitsOf_zero]
  · rw [hdx, hdy]; rfl

/-- A step counts no hop yet. -/
theorem WalkAt.step_n (a : WalkAt) (d e : Nat) : (a.step d e).n = a.n := by
  unfold WalkAt.step
  split <;> rfl

theorem WalkAt.inside_iff (a : WalkAt) (d : Nat) : a.inside d = true ↔
    if d / 2 ^ 96 % 8 = 7 then a.x < d / 2 ^ 192 % 2 ^ 31
    else inRange a.x (d / 2 ^ 192 % 2 ^ 16) = true ∧ inRange a.y (d / 2 ^ 208 % 2 ^ 16) = true := by
  rw [WalkAt.inside, fdOned_eq]
  by_cases h : d / 2 ^ 96 % 8 = 7
  · simp only [h, decide_true, if_true, decide_eq_true_eq]; rfl
  · simp only [h, decide_false, Bool.false_eq_true, if_false, Bool.and_eq_true]; rfl

/-- A 1-D position outside its field is in no cell. -/
theorem cellIndex_oned {d x y : Nat} (hd : d / 2 ^ 96 % 8 = 7) (hx : d / 2 ^ 64 % 2 ^ 31 ≤ x) : cellIndex d x y = none := by
  rw [cellIndex, if_pos (fdOned_iff.mpr hd)]
  exact if_neg (by simpa [fdLen, bitsOf] using hx)

theorem exec_walkReread {s : State} {w : Walk} {t : Thread} {l : Link} (hw : s.walk w.id = some w) (hgo : w.stalled = false)
    (hst : w.st = .going ∨ w.st = .parked) (hl : w.chain[w.at_.n]? = some l) (ht : s.thread w.tid = some t) :
    exec (.walkReread w.id) s = .next (s.walkSlot w t.xl t.who l) := by
  have hagent : s.agentOf w.tid = some (t.xl, t.who) := by rw [State.agentOf, ht]; rfl
  refine congrArg Host.Outcome.next ?_
  rw [hw, Option.bind_some, hagent]
  rcases hst with hst | hst <;> simp [hgo, hst, hl]

end Sys2Proof.Machine

namespace Sys2Proof.Machine

/-! ## A walk ends (R33, R186 to R188, R198, R207) -/

@[simp] theorem State.wrSpan_ms (s : State) (t : Thread) (lead : Bool) (d : Opnd) (ws : List Word) : (s.wrSpan t lead d ws).ms = s.ms := by
  cases d with
  | v n => rfl
  | g n => cases lead <;> rfl
  | z => rfl

/-- A result delivered changes threads and groups alone. -/
theorem State.deliver_en_ms (s : State) (tid op : Nat) (d : Opnd) (ws : List Word) :
    (s.deliver tid op d ws).en = s.en ∧ (s.deliver tid op d ws).ms = s.ms := by
  unfold State.deliver
  split
  · exact ⟨rfl, rfl⟩
  · dsimp only
    split
    · exact ⟨rfl, rfl⟩
    · exact ⟨State.wrSpan_en .., State.wrSpan_ms ..⟩

/-- Predicates after the write of a predicate destination, if there is one; p7 takes no writes (R47). -/
def predAfter (p : BitVec 7) (pred : Option Nat) (b : Bool) : BitVec 7 :=
  match pred with
  | some n => if 7 ≤ n then p else if b then p ||| (1#7 <<< n) else p &&& ~~~(1#7 <<< n)
  | none => p

theorem Regs.setP_eq (r : Regs) (n : Nat) (b : Bool) : r.setP n b = { r with p := predAfter r.p (some n) b } := by
  simp only [Regs.setP, predAfter]
  split <;> rfl

theorem predIs_predAfter (p : BitVec 7) (n : Nat) (b : Bool) : PredIs p (predAfter p (some n) b) n b := by
  intro k hk
  simp only [predAfter]
  by_cases hn : 7 ≤ n
  · rw [if_pos hn, if_neg (by omega)]
  · rw [if_neg hn]
    cases b with
    | true =>
      simp only [if_true, BitVec.getLsbD_or, getLsbD_one_shiftLeft hk]
      by_cases hkn : k = n <;> simp [hkn]
    | false =>
      simp only [Bool.false_eq_true, if_false, BitVec.getLsbD_and, BitVec.getLsbD_not, getLsbD_one_shiftLeft hk, hk]
      by_cases hkn : k = n <;> simp [hkn]

/-- A load of the thread has ended: its counter, its predicate, its cause. -/
def Thread.endsLoad (pred : Option Nat) (b : Bool) (c : Option Cause) (t : Thread) : Thread :=
  { t with
    ctr := t.ctr.down .load
    regs := { t.regs with p := predAfter t.regs.p pred b }
    out := { t.out with causes := t.out.causes ++ c.toList } }

theorem State.causeLive_live {s : State} {n : Nat} {t : Thread} (ht : s.thread n = some t) (hl : t.exited = false) (c : Cause) :
    s.causeLive n c = s.cause n c := by
  simp [State.causeLive, ht, hl]

section
variable {s : State} {w : Walk} {t : Thread} (ht : s.thread t.id = some t) (hl : t.exited = false) (hid : w.tid = t.id) (ws : List Word) (b : Bool)
  (c : Option Cause)
include ht hl

/-- A thread that a result has come to is still live. -/
theorem State.deliver_live (op : Nat) (d : Opnd) : ∃ y, (s.deliver t.id op d ws).thread t.id = some y ∧ y.exited = false := by
  have h := State.deliver_takes (s1 := s) ht rfl rfl hl op d ws id (fun _ => rfl) fun _ _ _ _ => rfl
  rw [State.onThread_same _ _ (F := id) fun _ => rfl] at h
  obtain ⟨y, hy, heq, -⟩ := h.self
  exact ⟨y, hy, by rw [heq]; exact hl⟩

include hid

/-- A walk that ends delivers its result, and updates its thread. -/
theorem State.endWalk_eq : s.endWalk w ws b c =
    ((s.deliver t.id w.id w.d ws).onThread t.id (Thread.endsLoad w.pred b c)).onEn fun e => { e with walks := e.walks.filter fun y => y.id != w.id } := by
  let s₀ := s.deliver t.id w.id w.d ws
  let down : Thread → Thread := fun x => { x with ctr := x.ctr.down .load }
  have hpred : (match w.pred with
      | some p => (s₀.down t.id .load).wrP t.id p b
      | none => s₀.down t.id .load) = s₀.onThread t.id (Thread.endsLoad w.pred b none) := by
    cases w.pred with
    | none => exact congrArg (s₀.onThread t.id) (by funext x; simp [Thread.endsLoad, predAfter])
    | some p =>
      refine (State.onThread_onThread s₀ t.id down _ fun _ => rfl).trans (congrArg (s₀.onThread t.id) ?_)
      funext x
      simp [Thread.endsLoad, Regs.setP_eq, down]
  unfold State.endWalk
  rw [hid]
  refine congrArg (State.onEn · _) ?_
  cases c with
  | none => exact hpred
  | some c =>
    obtain ⟨y, hy, hly⟩ := State.deliver_live ht hl ws w.id w.d
    have hthread : (s₀.onThread t.id (Thread.endsLoad w.pred b none)).thread t.id = some (Thread.endsLoad w.pred b none y) := by
      rw [State.thread_onThread _ _ _ _ (by exact fun _ => id), hy]
      simp
    refine (congrArg (State.causeLive · t.id c) hpred).trans ((State.causeLive_live hthread hly c).trans ?_)
    refine (State.onThread_onThread s₀ t.id (Thread.endsLoad w.pred b none) _ fun _ => rfl).trans (congrArg (s₀.onThread t.id) ?_)
    funext x
    simp [Thread.endsLoad]

/-- What comes to the thread, and to no other. -/
theorem State.endWalk_takes : s.Takes (s.endWalk w ws b c) t w.id w.d ws (t.endsLoad w.pred b c) := by
  obtain ⟨hself, hothers, hgroups, hrest⟩ := State.deliver_takes (s1 := s) ht rfl rfl hl w.id w.d ws (Thread.endsLoad w.pred b c) (fun _ => rfl)
    fun _ _ _ _ => rfl
  rw [State.endWalk_eq ht hl hid]
  exact ⟨hself, hothers, hgroups, hrest⟩

theorem State.endWalk_en : (s.endWalk w ws b c).en = { s.en with walks := s.en.walks.filter fun x => x.id != w.id } := by
  rw [State.endWalk_eq ht hl hid]
  simp [(s.deliver_en_ms t.id w.id w.d ws).1]

theorem State.endWalk_ms : (s.endWalk w ws b c).ms = s.ms := by
  rw [State.endWalk_eq ht hl hid]
  exact (s.deliver_en_ms t.id w.id w.d ws).2

end

/-- R186: the position, the confidence and the hops of a walk that has reached its end. -/
theorem Walk.result_position {w : Walk} (hres : w.hres = true) : w.result =
    [BitVec.ofNat 32 w.at_.x, if (lastDesc w.chain) / 2 ^ 96 % 8 = 7 then 0 else BitVec.ofNat 32 w.at_.y, BitVec.ofNat 32 w.at_.conf,
      BitVec.ofNat 32 w.at_.n] := by
  have hy := if_congr (fdOned_iff (d := lastDesc w.chain)) (rfl : (0 : Word) = 0) (rfl : BitVec.ofNat 32 w.at_.y = _)
  simp only [Walk.result, hres, if_true, hy]

/-- R186: the filtered channels, from the four texels read. -/
theorem Walk.result_filtered {w : Walk} (hres : w.hres = false) (hlen : w.texels.length = 4) :
    let fmt := fdFmt (lastDesc w.chain)
    let tx := fun (k c : Nat) => (texelOf fmt (toBytes (surfBytes fmt) (w.texels.getD k 0))).getD c 0
    let half := fun (x : Nat) => fSub x 0x3F000000
    let part := fun (x : Nat) => fSub (half x) (fInt (fFloor (half x)))
    w.result = (List.range (surfChans fmt)).map fun c => BitVec.ofNat 32
      (lerp (lerp (tx 0 c) (tx 1 c) (part w.at_.x)) (lerp (tx 2 c) (tx 3 c) (part w.at_.x)) (part w.at_.y)) := by
  intro fmt tx half part
  have htx : ∀ k, k < 4 → ∀ c, ((w.texels.map fun v => texelOf fmt (toBytes (surfBytes fmt) v)).getD k []).getD c 0 = tx k c := fun k hk c => by
    simp only [tx, List.getD_eq_getElem?_getD, List.getElem?_map, List.getElem?_eq_getElem (show k < w.texels.length by omega), Option.map_some,
      Option.getD_some]
  simp only [Walk.result, hres, Bool.false_eq_true, if_false, sampleOf, if_true, List.map_map, Function.comp_def]
  refine List.map_congr_left fun c _ => ?_
  simp only [← htx 0 (by decide), ← htx 1 (by decide), ← htx 2 (by decide), ← htx 3 (by decide)]
  rfl

section
variable {s : State} {w : Walk} (hw : s.walk w.id = some w) (hgo : w.stalled = false)
include hw hgo

theorem exec_walkEnd_reached (hst : w.st = .reached) (hfull : w.hres = true ∨ w.texels.length = 4) :
    exec (.walkEnd w.id) s = .next (s.endWalk w w.result true none) := by
  refine congrArg Host.Outcome.next ?_
  simp only [hw, hgo, hst]
  exact (if_neg Bool.false_ne_true).trans (if_pos (by simpa using hfull))

theorem exec_walkEnd_disocc {r slot : Nat} (hst : w.st = .disocc r slot) :
    exec (.walkEnd w.id) s = .next (s.endWalk w (List.replicate w.regs 0) false (if w.pred.isSome then none else
      some ⟨0x40, r, w.at_.x + w.at_.y * 2 ^ 32, s.disoccInfo w slot, true, none⟩)) := by
  refine congrArg Host.Outcome.next ?_
  simp only [hw, hgo, hst]
  rfl

theorem exec_walkEnd_failed {c r a : Nat} (hst : w.st = .failed c r a) :
    exec (.walkEnd w.id) s =
      .next (s.endWalk w (List.replicate w.regs (BitVec.ofNat 32 fNaN)) false (some ⟨c, r, a, engWalker, false, none⟩)) := by
  refine congrArg Host.Outcome.next ?_
  simp only [hw, hgo, hst]
  rfl

end

/-! ## The obligation -/

/-- Settles O39: a step of a walk is what it finds in `entryLook`, and every ending is `endWalk`. -/
theorem walksStepAndEnd : Obligations.WalksStepAndEnd := by
  unfold Obligations.WalksStepAndEnd
  refine ⟨?steps, ?ends⟩
  case steps =>
    intro s w t l hw hgo hst hl ht oned Ends
    have exec_eq := exec_walkReread hw hgo hst hl ht
    have ends {e : WalkEnd} {a : WalkAt} (h : s.WalkComes (s.walkSlot w t.xl t.who l) w e a) : Ends e a :=
      ⟨_, _, exec_eq, h.walk, rfl, h.bytes, h.wk⟩
    have stays (e : WalkEnd) := State.walkComes_of_seesMore (.refl s) hw e w.at_
    have disocc {r : Nat} (h : s.walkLook t.xl t.who w.part w.core.die l w.em w.at_ = .disocc r) : Ends (.disocc r l.slot) w.at_ :=
      ends (State.walkSlot_disocc h ▸ stays _)
    refine ⟨fun hret => disocc (State.walkLook_retired hret), fun hlive hout => disocc (State.walkLook_outside hlive ?_), ?_⟩
    · by_cases h1 : oned
      · exact cellIndex_oned h1 (by simpa only [if_pos h1] using hout)
      · simpa only [if_neg h1] using hout
    · intro i r hlive hcell hr hp e live Moves
      rw [← fdEbase_eq] at hr
      have look := State.walkLook_read (p := w.part) (die := w.core.die) (em := w.em) hlive hcell hr hp
      have moves {v : Nat} (hv : s.walkLook t.xl t.who w.part w.core.die l w.em w.at_ = .entry v) : Moves v := by
        unfold Moves
        intro a inside
        obtain ⟨hout, hin⟩ := State.walkSlot_entry hw hv
        have ha : w.at_.step l.desc v = a := WalkAt.step_eq w.at_ l.desc v
        have hinside : a.inside l.desc = true ↔ inside := WalkAt.inside_iff a l.desc
        have hn : a.n = w.at_.n := by rw [← ha, WalkAt.step_n]
        rw [ha] at hout hin
        rw [hn] at hin
        exact ⟨fun h => ends (hout (Bool.not_eq_true _ ▸ mt hinside.mp h)), fun h => ends (hin (hinside.mpr h))⟩
      have waits (h31 : e / 2 ^ 31 % 2 = 0) (ho : l.state ≠ .sealed) (hem : w.em = .wait) {now : SlotState} (hnow : live = now) :
          s.walkLook t.xl t.who w.part w.core.die l w.em w.at_ = waitLook now := by
        rw [look, hem, entryLook_wait h31 ho, ← hnow]
      refine ⟨fun h31 h30 => disocc ?_, fun h31 h30 => moves ?_, fun h31 h => disocc (look.trans (entryLook_miss h31 h)),
        fun h31 ho hem hnow => ends (State.walkSlot_park (waits h31 ho hem hnow) ▸ stays _), fun h31 ho hem hnow => disocc (waits h31 ho hem hnow),
        fun h31 ho hem hnow => disocc (waits h31 ho hem hnow), fun h31 ho hem _ => ?_⟩
      · rw [look, entryLook_full h31, if_pos h30]
      · rw [look, entryLook_full h31, if_neg (by omega)]
      · rw [← if_congr (fdOned_iff (d := l.desc)) rfl rfl]
        exact moves (by rw [look, hem, entryLook_zero h31 ho])
  case ends =>
    intro s w t hw hgo ht hlive oned Delivers
    have hid : w.tid = t.id := (State.thread_id ht).symm
    rw [hid] at ht
    have delivers {ws : List Word} {b : Bool} {c : Option Cause} (h : exec (.walkEnd w.id) s = .next (s.endWalk w ws b c)) : Delivers ws b c := by
      obtain ⟨⟨y, hy, heq, hv, -⟩, hothers, hgroups, -⟩ := State.endWalk_takes ht hlive hid ws b c
      have hp : y.regs.p = predAfter t.regs.p w.pred b := by rw [heq]; rfl
      refine ⟨_, y, h, hy, ?_, hv, ?_, hothers, hgroups, State.endWalk_en ht hlive hid ws b c, State.endWalk_ms ht hlive hid ws b c⟩
      · rw [hp]; exact heq
      · rw [hp]
        cases w.pred with
        | none => rfl
        | some n => exact predIs_predAfter t.regs.p n b
    refine ⟨fun hst hres => ?_, fun hst hres hlen => ?_, fun r slot hst => ?_, fun c r a hst => delivers (exec_walkEnd_failed hw hgo hst)⟩
    · have h := delivers (exec_walkEnd_reached hw hgo hst (.inl hres))
      rwa [Walk.result_position hres] at h
    · have h := delivers (exec_walkEnd_reached hw hgo hst (.inr hlen))
      rwa [Walk.result_filtered hres hlen] at h
    · have h := delivers (exec_walkEnd_disocc hw hgo hst)
      rwa [if_congr Option.isSome_iff_ne_none rfl rfl] at h

end Sys2Proof.Machine

namespace Sys2Proof.Machine

/-! ## An entry written before any number was given out -/

/-- A thread on core 0 of die 0, in partition 0. -/
def firstThread : Thread :=
  Thread.fresh 5 ⟨⟨0, 0⟩, 0, 0, 3, 4, 0, 0, 0, 0, 0, 0, 0, 0, 0, false, 128, ownCluster ⟨0, 0⟩⟩ 0x1000

/-- An FST of that thread whose entry at 0x7000 is to be written. -/
def firstPut : FOp := ⟨9, 5, 1, 0, ⟨0, 0⟩, ⟨0x1000, 0x1008, true⟩, .put 0x7000 0x80000000 false, [], false, [], 0⟩

/-- The machine after reset with these two, the lowest gigabyte mapped to itself for the partition that owns it, and 0 as the next
number. -/
def unnumbered : State :=
  { State.reset with
    nextId := 0
    ms := { State.reset.ms with l1tlb := [(⟨0, 0⟩, ⟨0, 0, true, 0, 2 ^ 30, 115, false⟩)] }
    en := { State.reset.en with fops := [firstPut] }
    wk := { State.reset.wk with
      threads := [firstThread]
      parts := State.reset.wk.parts.modify 0 fun p => { p with cfg := { p.cfg with hbmw := Vector.replicate 4 (512 * 2 ^ 32) } } } }

theorem unnumbered_translate : unnumbered.translate firstThread.xl .write 0x7000 = .ok 0x7000 := by
  decide +kernel

theorem unnumbered_perform : ∃ s', exec (.perform 9 0) unnumbered = .next s' ∧ s'.fop 9 = none :=
  ⟨_, rfl, by decide +kernel⟩

/-- Refutes O40: with 0 as the next number, the write of an FST's entry takes the number 0, which stands for the initial write, so that
every view holds it at once; the FST completes in the step in which its entry is written, and is no longer there. A machine gives out
its numbers from 1 (`State.reset`), but the statement does not ask for that. -/
theorem not_fieldOperationsComplete : ¬ Obligations.FieldOperationsComplete := by
  unfold Obligations.FieldOperationsComplete
  intro h
  obtain ⟨-, hput, -⟩ := h unnumbered firstPut firstThread rfl rfl rfl rfl
  obtain ⟨-, hready⟩ := hput 0x7000 0x80000000 0x7000 rfl rfl rfl (by decide) (by decide) ⟨rfl, rfl⟩ (List.forall_mem_nil _)
    unnumbered_translate (by decide +kernel) (by decide +kernel) (fun _ hcx => by cases hcx)
  obtain ⟨s', w, hexec, -, -, -, -, hfop, -⟩ := hready ⟨List.forall_mem_nil _, List.forall_mem_nil _⟩
  obtain ⟨s₁, hexec₁, hnone⟩ := unnumbered_perform
  obtain rfl : s₁ = s' := Host.Outcome.next.inj (hexec₁.symm.trans hexec)
  exact Option.some_ne_none _ (hfop.symm.trans hnone)

end Sys2Proof.Machine

namespace Sys2Proof.Machine

/-! ## A step takes the next move (R319; log 1) -/

/-- Where no pending group waits to be let in, time passes as far as it is asked to (R323). -/
theorem State.passTo_of_waited {s : State} (h : s.waited = []) (n : Nat) : s.passTo n = n := by
  simp [State.passTo, h, argMin]

theorem State.pick_event {s : State} {n : Nat} {i : Instr} {l : List Stim} (ha : s.agenda = ⟨n, .event i⟩ :: l) (hw : s.waited = []) :
    s.pick = (some (.event i), { s with agenda := l, tick := s.tick + 1, clock := s.clock + BitVec.ofNat 64 n }) := by
  simp [State.pick, ha, State.passTo_of_waited hw, State.at]

theorem State.pick_nothing {s : State} (ha : s.agenda = []) (hw : s.waited = []) :
    s.pick = (none, { s with tick := s.tick + 1, clock := s.clock + 1 }) := by
  simp [State.pick, ha, State.passTo_of_waited hw, State.at]

/-- Settles O1: what a step picks is what the agenda names, and with no pending group waiting the cycles named pass before it. -/
theorem stepRunsNamedEvent : Obligations.StepRunsNamedEvent := by
  unfold Obligations.StepRunsNamedEvent
  refine ⟨fun s n i l ha hw => ?event, fun s ha hw => ?nothing⟩
  case event =>
    simp only [step, State.pick_event ha hw]
    generalize exec i _ = o
    cases o <;> rfl
  case nothing =>
    simp only [step, State.pick_nothing ha hw, tidied]

end Sys2Proof.Machine

namespace Sys2Proof.Machine

/-! ## Which accesses may perform (R214, R215, R217, R220, R273) -/

/-- R256, R257, R368: the kinds that are no step of the machine. -/
theorem Access.silent_iff {b : Access} :
    b.silent = true ↔ b.kind = .pref ∨ (∃ x, b.kind = .cache x) ∨ ∃ x y z, b.kind = .record x y z := by
  unfold Access.silent
  cases b.kind <;> simp

theorem Access.performed_iff {b : Access} : b.performed = true ↔ ∀ q ∈ b.parts, q.done = true := List.all_eq_true

theorem State.mem_earlier {s : State} {a b : Access} : b ∈ s.earlier a ↔ b ∈ s.ms.accs ∧ b.tid = a.tid ∧ b.id < a.id := by
  simp [State.earlier]

section
variable {s : State} {a b : Access} {t : Thread}

/-- Condition 2 of R215. -/
theorem State.meet_eq_false : s.meet a b = false ↔ b.silent = true ∨ b.performed = true ∨ ¬ s.share a b := by
  rw [← Bool.not_eq_true]
  simp only [State.meet, State.share, Bool.and_eq_true, Bool.not_eq_true', beq_iff_eq, List.any_eq_true]
  cases b.silent <;> cases b.performed <;> simp

/-- What an access of the vault touches, where it is no sample: its parts, by their vault keys. -/
theorem State.touches_vault (hv : a.vault = true) (hk : ∀ d u v l w n e, a.kind ≠ .smp d u v l w n e) (f : APart → Bool) :
    s.touches a f = (a.parts.filter f).map fun p => ⟨p.ea, none, p.len⟩ := by
  have htexel : ∀ x, s.texelSpans a x = [] := fun x => by
    unfold State.texelSpans
    split
    next h => exact (hk _ _ _ _ _ _ _ h).elim
    next => rfl
  simp only [State.touches, hv, if_true]
  cases s.xlOf a <;> simp [htexel]

theorem State.share_vault (ha : a.vault = true) (hb : b.vault = true) (hka : ∀ d u v l w n e, a.kind ≠ .smp d u v l w n e)
    (hkb : ∀ d u v l w n e, b.kind ≠ .smp d u v l w n e) :
    s.share a b ↔ ∃ p ∈ a.parts, ∃ q ∈ b.parts, q.done = false ∧ p.ea < q.ea + q.len ∧ q.ea < p.ea + p.len := by
  simp [State.share, ha, hb, State.touches_vault ha hka, State.touches_vault hb hkb, Touch.meets, rangesMeet_iff, and_assoc]

theorem State.gathering_eq_false {n bound : Nat} :
    s.gathering n bound = false ↔ ∀ g ∈ s.co.gather, ∀ w ∈ s.ms.writes, w.id = g.wid → w.tid = n → w.acc ≠ 0 → bound ≤ w.acc := by
  simp only [State.gathering, List.any_eq_false, List.any_eq_true, Bool.and_eq_true, beq_iff_eq, bne_iff_ne, decide_eq_true_eq]
  constructor
  · intro h g hg w hw hid htid hacc
    by_contra hlt
    exact h g hg ⟨w, hw, ⟨⟨hid, htid⟩, hacc⟩, by omega⟩
  · rintro h g hg ⟨w, hw, ⟨⟨hid, htid⟩, hacc⟩, hlt⟩
    exact absurd (h g hg w hw hid htid hacc) (by omega)

variable (ht : s.thread a.tid = some t)
include ht

theorem State.whoOf_thread (c : CoreId) : s.whoOf a.tid c = t.who := by simp only [State.whoOf, ht]

/-- R217, R273: what a release waits for. -/
theorem State.releaseOk_iff : s.releaseOk a = true ↔
    (∀ b ∈ s.earlier a, b.silent = true ∨ b.performed = true) ∧ (a.scope = .core ∨ s.gathering a.tid a.id = false) ∧
      ∀ r ∈ s.ms.writes, r.id ∈ t.obs → (∀ q ∈ s.ms.writes, q.id = r.id → q.acc ≠ a.id) →
        ∀ p ∈ s.performedAt t.who a.scope, s.visibleAt r p = true := by
  simp only [State.releaseOk, Bool.and_eq_true, Bool.or_eq_true, List.all_eq_true, beq_iff_eq, Bool.not_eq_true', State.visible_iff, List.mem_filter,
    List.any_eq_false, not_and, State.whoOf_thread ht, State.obsOf, ht, and_assoc, and_imp, ne_eq]

/-- R220: no earlier access of a join's streams is outstanding. -/
theorem State.joinsOk_iff : s.joinsOk a = true ↔
    ∀ j ∈ t.out.joins, j.2 ≤ a.id → j.1.getLsbD a.stream = true →
      ∀ b ∈ s.ms.accs, b.tid = a.tid → b.id < j.2 → j.1.getLsbD b.stream = true → b.silent = true := by
  simp only [State.joinsOk, ht, List.all_eq_true, Bool.or_eq_true, Bool.not_eq_true', Bool.and_eq_false_iff, decide_eq_false_iff_not, inJoin,
    List.any_eq_false, Bool.and_eq_true, beq_iff_eq, decide_eq_true_eq, not_and, Bool.not_eq_false, and_imp]
  refine forall₂_congr fun j _ => ?_
  by_cases h₁ : j.2 ≤ a.id <;> cases h₂ : j.1.getLsbD a.stream <;> simp [h₁]

end

/-- Settles O28: the conditions of R215 and R217 one by one. -/
theorem accessesPerformInOrder : Obligations.AccessesPerformInOrder := by
  unfold Obligations.AccessesPerformInOrder
  intro s a t ht earlier all steers
  refine ⟨fun b ha hb hk => State.share_vault ha hb (fun _ _ _ _ _ _ _ => (hk _ _ _ _ _ _ _).1) fun _ _ _ _ _ _ _ => (hk _ _ _ _ _ _ _).2, ?_⟩
  have hearlier : ∀ b, earlier b ↔ b ∈ s.earlier a := fun b => State.mem_earlier.symm
  have hsteers : ∀ b, steers b ↔ b.silent = true := fun b => Access.silent_iff.symm
  have hall : ∀ b, all b ↔ b.performed = true := fun b => Access.performed_iff.symm
  simp only [hearlier, hsteers, hall]
  have hstream : (a.stream == 15 || !(s.earlier a).any fun b => b.stream == a.stream) = true ↔
      (a.stream ≠ 15 → ∀ b, b ∈ s.earlier a → b.stream ≠ a.stream) := by
    simp [Decidable.or_iff_not_imp_left]
  have hmeet : (!(s.earlier a).any fun b => s.meet a b) = true ↔ ∀ b, b ∈ s.earlier a → b.silent = true ∨ b.performed = true ∨ ¬ s.share a b := by
    simp [State.meet_eq_false]
  have hacq : (!(s.earlier a).any fun b => b.acq && !b.silent && !b.performed) = true ↔
      ∀ b, b ∈ s.earlier a → b.acq = true → b.silent = true ∨ b.performed = true := by
    simp [Decidable.or_iff_not_imp_left]
  have hrel : (!a.rel || s.releaseOk a) = true ↔ (a.rel = true → s.releaseOk a = true) := by
    cases a.rel <;> simp
  simp only [State.ordered, Bool.and_eq_true, hstream, hmeet, hacq, hrel, State.releaseOk_iff ht, State.joinsOk_iff ht, State.gathering_eq_false,
    Bool.not_eq_true', Decidable.or_iff_not_imp_left (a := a.scope = .core), and_assoc, ne_eq]

end Sys2Proof.Machine

namespace Sys2Proof.Machine

/-! ## What a step of the machine leaves of its threads (R210, R212, R216) -/

/-- A thread without its counters of stores, batches and tile operations, what it has observed, and the tile writes that it will see. -/
def Thread.stem (t : Thread) : Thread := { t with ctr := ⟨t.ctr.loads, 0, 0, 0⟩, obs := [], out := { t.out with unseenT := [] } }

/-- A thread has become y by steps that are not its own: it may have observed more, and have less outstanding. -/
structure Thread.Unmoved (x y : Thread) : Prop where
  stem : y.stem = x.stem
  obs : ∀ w ∈ x.obs, w ∈ y.obs

/-- No thread has moved, and no g register has changed. -/
structure State.Unmoved (s s' : State) : Prop where
  threads : ∀ u x, s.thread u = some x → ∃ y, s'.thread u = some y ∧ x.Unmoved y
  banks : s'.wk.groups.map Group.bank = s.wk.groups.map Group.bank

namespace Thread.Unmoved
variable {x y z : Thread}

theorem refl (x : Thread) : x.Unmoved x := ⟨rfl, fun _ h => h⟩

theorem trans (h : x.Unmoved y) (h' : y.Unmoved z) : x.Unmoved z := ⟨h'.stem.trans h.stem, fun w hw => h'.obs w (h.obs w hw)⟩

variable (h : x.Unmoved y)
include h

theorem id : y.id = x.id := (congrArg Thread.id h.stem :)
theorem regs : y.regs = x.regs := (congrArg Thread.regs h.stem :)
theorem pos : y.pos = x.pos := (congrArg Thread.pos h.stem :)
theorem mode : y.mode = x.mode := (congrArg Thread.mode h.stem :)
theorem wait : y.wait = x.wait := (congrArg Thread.wait h.stem :)
theorem place : y.place = x.place := (congrArg Thread.place h.stem :)
theorem exited : y.exited = x.exited := (congrArg Thread.exited h.stem :)
theorem stop : y.stop = x.stop := (congrArg Thread.stop h.stem :)
theorem pend : y.out.pend = x.out.pend := (congrArg (fun t => t.out.pend) h.stem :)
theorem causes : y.out.causes = x.out.causes := (congrArg (fun t => t.out.causes) h.stem :)
theorem loads : y.ctr.loads = x.ctr.loads := (congrArg (fun t => t.ctr.loads) h.stem :)
theorem who : y.who = x.who := by rw [Thread.who, h.id, h.place]; rfl
theorem xl : y.xl = x.xl := by rw [Thread.xl, h.place]; rfl

end Thread.Unmoved

/-- The g registers of equal banks. -/
theorem State.getG_of_banks {s s' : State} (h : s'.wk.groups.map Group.bank = s.wk.groups.map Group.bank) (g r : Nat) : s'.getG g r = s.getG g r :=
  State.SettlesTo.getG (s := s) (s' := { s with wk := { s.wk with groups := s'.wk.groups } }) ⟨fun _ => rfl, fun _ => rfl, rfl, h⟩ g r

theorem State.group_isSome_of_banks {s s' : State} (h : s'.wk.groups.map Group.bank = s.wk.groups.map Group.bank) (g : Nat) :
    (s'.group g).isSome = (s.group g).isSome := by
  have hb := State.SettlesTo.group (s := s) (s' := { s with wk := { s.wk with groups := s'.wk.groups } }) ⟨fun _ => rfl, fun _ => rfl, rfl, h⟩ g
  have hsome := congrArg Option.isSome hb
  rwa [Option.isSome_map, Option.isSome_map] at hsome

namespace State.Unmoved
variable {s s₁ s₂ : State}

theorem of_wk {s s' : State} (h : s'.wk = s.wk) : s.Unmoved s' :=
  ⟨fun u x hx => ⟨x, (State.thread_eq (congrArg _ h) u).trans hx, .refl x⟩, by rw [h]⟩

theorem refl (s : State) : s.Unmoved s := .of_wk rfl

theorem trans (h : s.Unmoved s₁) (h' : s₁.Unmoved s₂) : s.Unmoved s₂ := by
  refine ⟨fun u x hx => ?_, h'.banks.trans h.banks⟩
  obtain ⟨y, hy, hxy⟩ := h.threads u x hx
  obtain ⟨z, hz, hyz⟩ := h'.threads u y hy
  exact ⟨z, hz, hxy.trans hyz⟩

theorem onThread (s : State) (k : Nat) {f : Thread → Thread} (hf : ∀ x : Thread, x.Unmoved (f x)) : s.Unmoved (s.onThread k f) := by
  refine ⟨fun u x hx => ?_, rfl⟩
  refine ⟨if u = k then f x else x, ?_, ?_⟩
  · rw [State.thread_onThread _ _ _ _ fun z hz => (hf z).id.trans hz, hx]
    rfl
  · split
    · exact hf x
    · exact .refl x

theorem onGroup (s : State) (k : Nat) {f : Group → Group} (hf : ∀ g, (f g).bank = g.bank) : s.Unmoved (s.onGroup k f) :=
  ⟨fun _ x hx => ⟨x, hx, .refl x⟩, (State.SettlesTo.onGroup s k hf).groups⟩

theorem foldl {α : Type} {f : State → α → State} (hf : ∀ (s : State) (x : α), s.Unmoved (f s x)) (l : List α) (s : State) : s.Unmoved (l.foldl f s) := by
  induction l generalizing s with
  | nil => exact .refl s
  | cons x l ih => exact (hf s x).trans (ih _)

theorem observe (s : State) (t : Nat) (ids : List Nat) : s.Unmoved (s.observe t ids) :=
  .onThread s t fun _ => ⟨rfl, fun _ hw => List.mem_append_left _ hw⟩

/-- What is unmoved is kept. -/
theorem keeps (h : s.Unmoved s₁) : s.Keeps s₁ := by
  refine ⟨fun u x hx => ?_, fun g r _ => State.getG_of_banks h.banks g r⟩
  obtain ⟨y, hy, hxy⟩ := h.threads u x hx
  exact ⟨y, hy, hxy.regs, hxy.pos, hxy.mode, hxy.wait, hxy.place, hxy.exited, hxy.stop, hxy.pend, hxy.causes⟩

end State.Unmoved

/-- A result that comes to a thread in a state into which s has passed, unmoved, and that passes on unmoved. -/
theorem State.Takes.comes {s s₁ s₂ s' : State} {t t₁ x : Thread} {op : Nat} {d : Opnd} {ws : List Word} {fl : BitVec 5} (hin : s.Unmoved s₁)
    (ht : s.thread t.id = some t) (ht₁ : s₁.thread t.id = some t₁) (h : s₁.Takes s₂ t₁ op d ws x) (hout : s₂.Unmoved s') (hpos : x.pos = t₁.pos)
    (hmode : x.mode = t₁.mode) (hplace : x.place = t₁.place) (hregs : x.regs = { t₁.regs with flags := t₁.regs.flags ||| fl }) :
    s.Comes s' t op d ws fl := by
  obtain ⟨_, h₁, hx₁⟩ := hin.threads _ t ht
  obtain rfl : t₁ = _ := Option.some.inj (ht₁.symm.trans h₁)
  obtain ⟨⟨y, hy, heq, hv, -⟩, hothers, hgroups, hrest⟩ := h
  refine ⟨?_, fun u x hu hx => ?_, fun g r hr => ?_⟩
  · obtain ⟨z, hz, hyz⟩ := hout.threads _ y hy
    rw [hx₁.id] at hz
    refine ⟨z, hz, ?_, ?_, ?_, ?_, fun r hr => ?_, ?_⟩
    · rw [hyz.pos, heq]; exact hpos.trans hx₁.pos
    · rw [hyz.mode, heq]; exact hmode.trans hx₁.mode
    · rw [hyz.place, heq]; exact hplace.trans hx₁.place
    · rw [hyz.regs, heq, hregs, hx₁.regs]
    · rw [hyz.regs, hv r hr, hx₁.regs]
    · rw [hyz.pend, heq]; exact congrArg _ hx₁.pend
  · obtain ⟨y₁, hy₁, hxy₁⟩ := hin.threads u x hx
    obtain ⟨z, hz, hyz⟩ := hout.threads u y₁ ((hothers u (by rw [hx₁.id]; exact hu)).trans hy₁)
    have hxz := hxy₁.trans hyz
    exact ⟨z, hz, hxz.regs, hxz.pos, hxz.mode, hxz.wait, hxz.pend⟩
  · rw [State.getG_of_banks hout.banks, hgroups g r hr, State.getG_of_banks hin.banks, State.group_isSome_of_banks hin.banks, hx₁.place]

/-! ## Accesses that have performed leave (R33, R210) -/

/-- The accesses that have not performed at their scope. -/
def State.settleAccs (s : State) : List Access := s.ms.accs.filter fun a => !(s.ms.accs.filter s.settledAcc).any fun b => b.id == a.id

/-- Threads count down, and field operations leave; nothing else differs. -/
structure State.CountsDown (s s' : State) : Prop where
  rest : s' = { s with en := { s.en with fops := s'.en.fops }, wk := { s.wk with threads := s'.wk.threads } }
  threads : ∀ u x, s.thread u = some x → ∃ y, s'.thread u = some y ∧ y.obs = x.obs ∧ y.stem = x.stem

namespace State.CountsDown
variable {s s₁ s₂ : State}

theorem refl (s : State) : s.CountsDown s := ⟨rfl, fun _ x hx => ⟨x, hx, rfl, rfl⟩⟩

theorem trans (h : s.CountsDown s₁) (h' : s₁.CountsDown s₂) : s.CountsDown s₂ := by
  refine ⟨?_, fun u x hx => ?_⟩
  · conv_lhs => rw [h'.rest, h.rest]
  · obtain ⟨y, hy, ho, hs⟩ := h.threads u x hx
    obtain ⟨z, hz, ho', hs'⟩ := h'.threads u y hy
    exact ⟨z, hz, ho'.trans ho, hs'.trans hs⟩

theorem foldl {α : Type} {f : State → α → State} {l : List α} (hf : ∀ (s : State), ∀ x ∈ l, s.CountsDown (f s x)) (s : State) : s.CountsDown (l.foldl f s) := by
  induction l generalizing s with
  | nil => exact .refl s
  | cons x l ih => exact (hf s x (.head _)).trans (ih (fun s y hy => hf s y (.tail _ hy)) _)

theorem onThread (s : State) (k : Nat) {f : Thread → Thread} (ho : ∀ x, (f x).obs = x.obs) (hs : ∀ x, (f x).stem = x.stem) : s.CountsDown (s.onThread k f) := by
  have hid : ∀ x, (f x).id = x.id := fun x => (congrArg Thread.id (hs x) :)
  refine ⟨rfl, fun u x hx => ⟨if u = k then f x else x, ?_, ?_, ?_⟩⟩
  · rw [State.thread_onThread s k u f fun z hz => (hid z).trans hz, hx]
    rfl
  · split
    · exact ho x
    · rfl
  · split
    · exact hs x
    · rfl

theorem unmoved (h : s.CountsDown s₁) : s.Unmoved s₁ := by
  refine ⟨fun u x hx => ?_, by rw [h.rest]⟩
  obtain ⟨y, hy, ho, hs⟩ := h.threads u x hx
  exact ⟨y, hy, hs, fun w hw => ho ▸ hw⟩

end State.CountsDown

theorem State.countsDown_endPut (s : State) (f : FOp) : s.CountsDown (s.endPut f) := by
  have hfops : s.CountsDown (s.onEn fun e => { e with fops := e.fops.filter fun x => x.id != f.id }) := ⟨rfl, fun _ x hx => ⟨x, hx, rfl, rfl⟩⟩
  unfold State.endPut
  split
  · exact hfops
  · dsimp only
    split
    · exact hfops
    · refine (hfops.trans (.onThread (f := fun x => { x with ctr := x.ctr.down .tile }) _ f.tid (fun _ => rfl) fun _ => rfl)).trans ?_
      exact .onThread (f := fun x => { x with out := { x.out with unseenT := x.out.unseenT ++ f.writes } }) _ f.tid (fun _ => rfl) fun _ => rfl

/-- The settled state is one with fewer accesses, counted down. -/
theorem State.countsDown_settle (s : State) : (s.onMs fun m => { m with accs := s.settleAccs }).CountsDown s.settle := by
  let down : State → Access → State := fun s a => s.down a.tid a.ctr
  let l := (s.ms.accs.filter s.settledAcc).filter Access.storeLike
  have hdown : ∀ s₀ : State, s₀.CountsDown (l.foldl down s₀) := .foldl fun s₀ a ha => by
    have hctr : a.ctr = .store := by simpa [l, Access.storeLike] using (List.mem_filter.mp ha).2
    exact .onThread s₀ _ (fun _ => rfl) fun x => by simp [Thread.stem, hctr, Counters.down]
  have hcomm : ∀ (l : List Access) (s₀ : State), (l.foldl down s₀).onMs (fun m => { m with accs := s.settleAccs }) =
      l.foldl down (s₀.onMs fun m => { m with accs := s.settleAccs }) := fun l => by
    induction l with
    | nil => exact fun _ => rfl
    | cons a l ih => exact fun s₀ => ih _
  have haccs : (l.foldl down s).onMs (fun m => { m with accs := m.accs.filter fun a => !(s.ms.accs.filter s.settledAcc).any fun b => b.id == a.id }) =
      (l.foldl down s).onMs fun m => { m with accs := s.settleAccs } := by
    rw [State.onMs, State.onMs, (hdown s).rest]
    rfl
  refine State.CountsDown.trans (hdown _) ?_
  rw [← hcomm, ← haccs]
  exact .foldl (fun s₀ f _ => s₀.countsDown_endPut f) _

theorem State.settle_rest (s : State) : s.settle = { s with
    ms := { s.ms with accs := s.settleAccs }
    en := { s.en with fops := s.settle.en.fops }
    wk := { s.wk with threads := s.settle.wk.threads } } := s.countsDown_settle.rest

theorem State.settle_ms (s : State) : s.settle.ms = { s.ms with accs := s.settleAccs } := by rw [s.settle_rest]

theorem State.unmoved_settle (s : State) : s.Unmoved s.settle :=
  .trans (.of_wk (s' := s.onMs fun m => { m with accs := s.settleAccs }) rfl) s.countsDown_settle.unmoved

/-- The one element of a list that passes a test is what a search finds. -/
theorem find?_eq_some_of_unique {α : Type} {l : List α} {q : α → Bool} {a : α} (ha : a ∈ l) (hq : q a = true) (hone : ∀ b ∈ l, q b = true → b = a) :
    l.find? q = some a := by
  cases h : l.find? q with
  | none => exact absurd hq (List.find?_eq_none.mp h a ha)
  | some b => rw [hone b (List.mem_of_find?_eq_some h) (List.find?_some h)]

theorem State.access_id {s : State} {k : Nat} {a : Access} (h : s.access k = some a) : a.id = k := by
  simpa using List.find?_some h

theorem State.mem_settleAccs {s : State} {a : Access} : a ∈ s.settleAccs ↔ a ∈ s.ms.accs ∧ ∀ b ∈ s.ms.accs, s.settledAcc b = true → b.id ≠ a.id := by
  simp [State.settleAccs]

/-- An access that has performed at its scope has left. -/
theorem State.access_settle_gone {s : State} {k : Nat} {a : Access} (ha : s.access k = some a) (hs : s.settledAcc a = true) : s.settle.access k = none := by
  rw [State.access, s.settle_ms]
  refine List.find?_eq_none.mpr fun b hb hbk => ?_
  exact (State.mem_settleAccs.mp hb).2 a (List.mem_of_find?_eq_some ha) hs ((State.access_id ha).trans (beq_iff_eq.mp hbk).symm)

/-- An access that has not performed stays. -/
theorem State.access_settle_open {s : State} {k : Nat} {a : Access} (ha : s.access k = some a) (hone : ∀ b ∈ s.ms.accs, b.id = k → b = a)
    (hs : a.performed = false) : s.settle.access k = some a := by
  have hid := State.access_id ha
  rw [State.access, s.settle_ms]
  refine find?_eq_some_of_unique (State.mem_settleAccs.mpr ⟨List.mem_of_find?_eq_some ha, fun b hb hset hba => ?_⟩) (by simpa using hid) ?_
  · rw [hone b hb (hba.trans hid), State.settledAcc, hs] at hset
    exact absurd hset (by simp)
  · exact fun b hb hbk => hone b (State.mem_settleAccs.mp hb).1 (beq_iff_eq.mp hbk)

end Sys2Proof.Machine

namespace Sys2Proof.Machine

/-! ## Translations leave views and TLBs (R379, R382) -/

/-- Only views and translations differ. -/
def State.LooksUp (s s' : State) : Prop :=
  s' = s.onMs fun m => { m with writes := s'.ms.writes, l1tlb := s'.ms.l1tlb, l2tlb := s'.ms.l2tlb }

theorem State.LooksUp.refl (s : State) : s.LooksUp s := rfl

theorem State.LooksUp.trans {s₁ s₂ s₃ : State} (h : s₁.LooksUp s₂) (h' : s₂.LooksUp s₃) : s₁.LooksUp s₃ := by
  unfold State.LooksUp at h h' ⊢
  conv_lhs => rw [h', h]
  rfl

theorem State.LooksUp.foldl {α : Type} {f : State → α → State} (hf : ∀ (s : State) (x : α), s.LooksUp (f s x)) (l : List α) (s : State) :
    s.LooksUp (l.foldl f s) := by
  induction l generalizing s with
  | nil => exact .refl s
  | cons x l ih => exact (hf s x).trans (ih _)

theorem State.LooksUp.wk {s s' : State} (h : s.LooksUp s') : s'.wk = s.wk := by rw [h]; rfl
theorem State.LooksUp.md {s s' : State} (h : s.LooksUp s') : s'.md = s.md := by rw [h]; rfl
theorem State.LooksUp.co {s s' : State} (h : s.LooksUp s') : s'.co = s.co := by rw [h]; rfl
theorem State.LooksUp.nextId {s s' : State} (h : s.LooksUp s') : s'.nextId = s.nextId := by rw [h]; rfl
theorem State.LooksUp.mem {s s' : State} (h : s.LooksUp s') : s'.ms.mem = s.ms.mem := by rw [h]; rfl
theorem State.LooksUp.vault {s s' : State} (h : s.LooksUp s') : s'.ms.vault = s.ms.vault := by rw [h]; rfl
theorem State.LooksUp.tags {s s' : State} (h : s.LooksUp s') : s'.ms.tags = s.ms.tags := by rw [h]; rfl
theorem State.LooksUp.accs {s s' : State} (h : s.LooksUp s') : s'.ms.accs = s.ms.accs := by rw [h]; rfl
theorem State.LooksUp.thread {s s' : State} (h : s.LooksUp s') (u : Nat) : s'.thread u = s.thread u := State.thread_eq (congrArg _ h.wk) u

theorem State.looksUp_take (s : State) (pts : List Point) (f : WriteRec → Bool) : s.LooksUp (s.take pts f) := rfl

theorem State.looksUp_refresh (s : State) (w : Who) (sc : Scope) : s.LooksUp (s.refresh w sc) := by
  cases sc <;> rfl

theorem State.looksUp_fillTlb (s : State) (x : Xl) (va : Nat) : s.LooksUp (s.fillTlb x va) := by
  have hrefresh : s.LooksUp (if s.inL2Tlb x va then s else s.refresh (s.walker x va) .system) := by
    split
    · exact .refl s
    · exact s.looksUp_refresh _ _
  unfold State.fillTlb
  split
  · exact .refl s
  · dsimp only
    split
    · exact hrefresh
    · refine hrefresh.trans ?_
      split <;> rfl

theorem State.looksUp_walked (s : State) (a : Access) (t : Thread) : s.LooksUp (s.walked a t) :=
  .foldl (f := fun s (p : APart) => s.fillTlb t.xl p.ea) (fun s p => s.looksUp_fillTlb t.xl p.ea) _ s

/-! ## Accesses and their parts -/

theorem State.access_onAccess (s : State) (k u : Nat) (f : Access → Access) (hf : ∀ x, x.id = k → (f x).id = k) :
    (s.onAccess k f).access u = (s.access u).map fun x => if u = k then f x else x :=
  find_map_key Access.id s.ms.accs k u f hf

theorem State.access_onAccess_self {s : State} {k : Nat} {a : Access} (h : s.access k = some a) (f : Access → Access) (hf : ∀ x, (f x).id = x.id) :
    (s.onAccess k f).access k = some (f a) := by
  rw [State.access_onAccess s k k f fun x hx => (hf x).trans hx, h]
  simp

theorem State.onAccess_congr {s : State} {k : Nat} {f g : Access → Access} (h : ∀ b ∈ s.ms.accs, b.id = k → f b = g b) : s.onAccess k f = s.onAccess k g := by
  have hmap : (s.ms.accs.map fun x => if x.id == k then f x else x) = s.ms.accs.map fun x => if x.id == k then g x else x := by
    refine List.map_congr_left fun b hb => ?_
    by_cases hk : b.id = k
    · simp only [hk, beq_self_eq_true, if_true, h b hb hk]
    · simp [hk]
  rw [State.onAccess, State.onAccess, State.onMs, State.onMs, hmap]

theorem State.onAccess_same (s : State) (k : Nat) {f : Access → Access} (hf : ∀ x, f x = x) : s.onAccess k f = s := by
  simp [State.onAccess, State.onMs, hf]

theorem State.onAccess_onAccess (s : State) (k : Nat) (F G : Access → Access) (hF : ∀ x, (F x).id = x.id) :
    (s.onAccess k F).onAccess k G = s.onAccess k fun x => G (F x) := by
  have hmap : ∀ x : Access, (if (if x.id == k then F x else x).id == k then G (if x.id == k then F x else x) else if x.id == k then F x else x) =
      if x.id == k then G (F x) else x := fun x => by
    by_cases hx : x.id = k
    · simp [hx, hF]
    · simp [hx]
  simp only [State.onAccess, State.onMs, List.map_map, Function.comp_def, hmap]

theorem mem_indexed {α : Type} {l : List α} {k : Nat} {x : α} : (k, x) ∈ indexed l ↔ l[k]? = some x := by
  rw [indexed, List.mem_iff_getElem?]
  constructor
  · rintro ⟨i, hi⟩
    obtain ⟨h₁, h₂⟩ := List.getElem?_zip_eq_some.mp hi
    obtain ⟨-, rfl⟩ : i < l.length ∧ i = k := by simpa [List.getElem?_eq_some_iff] using h₁
    exact h₂
  · intro h
    have hlt : k < l.length := (List.getElem?_eq_some_iff.mp h).1
    exact ⟨k, List.getElem?_zip_eq_some.mpr ⟨List.getElem?_range hlt, h⟩⟩

/-- A part as it is once a translation has placed it. -/
def APart.Placed (p p' : APart) : Prop := p' = { p with pa := p'.pa, page := p'.page }

/-- The parts of an access, each with the place that a translation has found for it. -/
structure PartsPlaced (ps ps' : List APart) : Prop where
  part : ∀ (j : Nat) (q : APart), ps[j]? = some q → ∃ q', ps'[j]? = some q' ∧ q.Placed q'
  back : ∀ (j : Nat) (q' : APart), ps'[j]? = some q' → ∃ q, ps[j]? = some q ∧ q.Placed q'

namespace PartsPlaced
variable {ps ps₁ ps₂ : List APart}

theorem refl (ps : List APart) : PartsPlaced ps ps := ⟨fun _ q h => ⟨q, h, rfl⟩, fun _ q h => ⟨q, h, rfl⟩⟩

theorem placed_trans {p q r : APart} (h : p.Placed q) (h' : q.Placed r) : p.Placed r := by
  unfold APart.Placed at h h' ⊢
  conv_lhs => rw [h', h]

theorem trans (h : PartsPlaced ps ps₁) (h' : PartsPlaced ps₁ ps₂) : PartsPlaced ps ps₂ := by
  refine ⟨fun j q hq => ?_, fun j q hq => ?_⟩
  · obtain ⟨q₁, h₁, hp₁⟩ := h.part j q hq
    obtain ⟨q₂, h₂, hp₂⟩ := h'.part j q₁ h₁
    exact ⟨q₂, h₂, placed_trans hp₁ hp₂⟩
  · obtain ⟨q₁, h₁, hp₁⟩ := h'.back j q hq
    obtain ⟨q₀, h₀, hp₀⟩ := h.back j q₁ h₁
    exact ⟨q₀, h₀, placed_trans hp₀ hp₁⟩

theorem modify (ps : List APart) (k : Nat) {f : APart → APart} (hf : ∀ p : APart, p.Placed (f p)) : PartsPlaced ps (ps.modify k f) := by
  refine ⟨fun j q hq => ⟨if k = j then f q else q, by simp [List.getElem?_modify, hq], ?_⟩, fun j q hq => ?_⟩
  · split
    · exact hf q
    · rfl
  · rw [List.getElem?_modify] at hq
    obtain ⟨q₀, h₀, rfl⟩ := Option.map_eq_some_iff.mp hq
    refine ⟨q₀, h₀, ?_⟩
    split
    · exact hf q₀
    · rfl

end PartsPlaced

/-! ## Every part is translated (R235) -/

/-- A part that waits for its translation. -/
def APart.unplaced (p : APart) : Bool := !p.done && !p.pa.isSome

theorem APart.unplaced_iff {p : APart} : p.unplaced = true ↔ p.done = false ∧ p.pa = none := by
  simp [APart.unplaced]

section
variable {s : State} {a : Access} {x : Xl}

theorem State.translateParts_cons (k : Nat) (p : APart) (l : List (Nat × APart)) : s.translateParts a x ((k, p) :: l) =
    if p.unplaced then (match s.translate x a.need p.ea with
      | .error f => .error (f, k, p.ea)
      | .ok pa => match s.translateParts a x l with
        | .error e => .error e
        | .ok r => .ok ((k, pa) :: r))
    else s.translateParts a x l := by
  rw [State.translateParts]
  unfold APart.unplaced
  cases p.done <;> cases p.pa <;> rfl

/-- Where every unplaced part translates, what is found is their places. -/
theorem State.translateParts_ok {l : List (Nat × APart)} (h : ∀ q ∈ l, q.2.unplaced = true → ∃ pa, s.translate x a.need q.2.ea = .ok pa) :
    ∃ found, s.translateParts a x l = .ok found ∧
      ∀ j pa, (j, pa) ∈ found ↔ ∃ p, (j, p) ∈ l ∧ p.unplaced = true ∧ s.translate x a.need p.ea = .ok pa := by
  induction l with
  | nil => exact ⟨[], rfl, by simp⟩
  | cons q l ih =>
    obtain ⟨k, p⟩ := q
    obtain ⟨found, hfound, hmem⟩ := ih fun q hq => h q (.tail _ hq)
    by_cases hp : p.unplaced = true
    · obtain ⟨pa, hpa⟩ := h (k, p) (.head _) hp
      refine ⟨(k, pa) :: found, by rw [State.translateParts_cons, if_pos hp, hpa, hfound], fun j y => ?_⟩
      simp only [List.mem_cons, Prod.mk.injEq, hmem]
      constructor
      · rintro (⟨rfl, rfl⟩ | ⟨q, hq, hu, hy⟩)
        · exact ⟨p, .inl ⟨rfl, rfl⟩, hp, hpa⟩
        · exact ⟨q, .inr hq, hu, hy⟩
      · rintro ⟨q, ⟨rfl, rfl⟩ | hq, hu, hy⟩
        · exact .inl ⟨rfl, by rw [hpa] at hy; exact (Except.ok.inj hy).symm⟩
        · exact .inr ⟨q, hq, hu, hy⟩
    · refine ⟨found, by rw [State.translateParts_cons, if_neg hp, hfound], fun j y => ?_⟩
      simp only [List.mem_cons, Prod.mk.injEq, hmem]
      constructor
      · rintro ⟨q, hq, hu, hy⟩
        exact ⟨q, .inr hq, hu, hy⟩
      · rintro ⟨q, ⟨rfl, rfl⟩ | hq, hu, hy⟩
        · exact absurd hu hp
        · exact ⟨q, hq, hu, hy⟩

/-- A part takes a place that its translation has found. -/
def State.placePart (s : State) (x : Xl) (pa : Nat) (p : APart) : APart := { p with pa := some pa, page := (s.lookup x p.ea).toOption }

/-- Parts take the places found for them. -/
def State.placeParts (s : State) (x : Xl) (found : List (Nat × Nat)) (ps : List APart) : List APart :=
  found.foldl (fun ps f => ps.modify f.1 (s.placePart x f.2)) ps

theorem State.placeParts_placed (found : List (Nat × Nat)) (ps : List APart) : PartsPlaced ps (s.placeParts x found ps) := by
  induction found generalizing ps with
  | nil => exact .refl ps
  | cons f l ih => exact (PartsPlaced.modify ps f.1 (f := s.placePart x f.2) fun _ => rfl).trans (ih _)

/-- A part stands at the last place found for it, and else where it stood. -/
theorem State.placeParts_pa {found : List (Nat × Nat)} {ps : List APart} {j : Nat} {q : APart} (hq : (s.placeParts x found ps)[j]? = some q) :
    (∃ pa, (j, pa) ∈ found ∧ q.pa = some pa) ∨ ((∀ pa, (j, pa) ∉ found) ∧ ps[j]? = some q) := by
  induction found generalizing ps with
  | nil => exact .inr ⟨fun _ => List.not_mem_nil, hq⟩
  | cons f l ih =>
    rcases ih hq with ⟨pa, hpa, hqpa⟩ | ⟨hnone, hps⟩
    · exact .inl ⟨pa, .tail _ hpa, hqpa⟩
    · rw [List.getElem?_modify] at hps
      obtain ⟨q₀, h₀, rfl⟩ := Option.map_eq_some_iff.mp hps
      by_cases hj : f.1 = j
      · exact .inl ⟨f.2, by rw [← hj]; exact .head _, by simp [hj, State.placePart]⟩
      · refine .inr ⟨fun pa hpa => ?_, by simp [hj, h₀]⟩
        rcases List.mem_cons.mp hpa with h | h
        · exact hj (by rw [← h])
        · exact hnone pa h

/-- A part that is open stands, once placed, where it has been translated to or translates to now. -/
theorem State.placeParts_stands {s₁ : State} {t : Thread} {found : List (Nat × Nat)} {j y : Nat} {q q' : APart}
    (hmem : ∀ j pa, (j, pa) ∈ found ↔ ∃ p, (j, p) ∈ indexed a.parts ∧ p.unplaced = true ∧ s.translate t.xl a.need p.ea = .ok pa)
    (hq : a.parts[j]? = some q) (hq' : (s₁.placeParts t.xl found a.parts)[j]? = some q') (hd : q.done = false) (hy : a.standsAt s t q y) : q'.pa = some y := by
  rcases State.placeParts_pa hq' with ⟨z, hz, hqz⟩ | ⟨hnone, hold⟩
  · obtain ⟨q₀, hq₀, hu, htr⟩ := (hmem j z).mp hz
    obtain rfl : q₀ = q := Option.some.inj ((mem_indexed.mp hq₀).symm.trans hq)
    rcases hy with hy | ⟨-, hy⟩
    · rw [(APart.unplaced_iff.mp hu).2] at hy; cases hy
    · rw [hqz, Except.ok.inj (htr.symm.trans hy)]
  · obtain rfl : q' = q := Option.some.inj (hold.symm.trans hq)
    rcases hy with hy | ⟨hn, hy⟩
    · exact hy
    · exact absurd ((hmem j y).mpr ⟨q', mem_indexed.mpr hq, APart.unplaced_iff.mpr ⟨hd, hn⟩, hy⟩) (hnone y)

/-- The updates of the parts of one access, as one update. -/
theorem State.foldl_onPart1 (s : State) (k : Nat) (x : Xl) (found : List (Nat × Nat)) :
    found.foldl (fun s f => s.onPart1 k f.1 fun p => { p with pa := some f.2, page := (s.lookup x p.ea).toOption }) s =
      s.onAccess k fun y => { y with parts := s.placeParts x found y.parts } := by
  have hfold : ∀ (l : List (Nat × Nat)) (s₀ : State), (∀ va, s₀.lookup x va = s.lookup x va) →
      l.foldl (fun s f => s.onPart1 k f.1 fun p => { p with pa := some f.2, page := (s.lookup x p.ea).toOption }) s₀ =
        s₀.onAccess k fun y => { y with parts := s.placeParts x l y.parts } := fun l => by
    induction l with
    | nil => exact fun s₀ _ => (s₀.onAccess_same k fun _ => rfl).symm
    | cons f l ih =>
      intro s₀ h₀
      have hpart : (fun p : APart => { p with pa := some f.2, page := (s₀.lookup x p.ea).toOption }) = s.placePart x f.2 := by
        funext p; simp only [State.placePart, h₀]
      rw [List.foldl_cons, hpart, ih (s₀.onPart1 k f.1 (s.placePart x f.2)) h₀]
      exact State.onAccess_onAccess s₀ k _ _ fun _ => rfl
  exact hfold found s fun _ => rfl

end

/-! ## A part performs (R215, R216, R235) -/

/-- An access and what it has found: the state in which its part performs. -/
def State.found (s : State) (a : Access) (t : Thread) (ps : List APart) : State := (s.walked a t).onAccess a.id fun y => { y with parts := ps }

theorem State.lost_eq {s s' : State} (h : s'.md = s.md) (x : Nat) : s'.lost x = s.lost x := by
  calc s'.lost x = ({ s with md := s'.md } : State).lost x := rfl
    _ = s.lost x := by rw [h]

theorem State.linkHeld_eq {s s' : State} (h : s'.md = s.md) (x : Nat) : s'.linkHeld x = s.linkHeld x := by
  calc s'.linkHeld x = ({ s with md := s'.md } : State).linkHeld x := rfl
    _ = s.linkHeld x := by rw [h]

/-- The kinds of access whose parts perform one by one at a physical address. -/
def AKind.partwise : AKind → Bool
  | .load .. | .store _ | .lds .. | .atomic .. => true
  | _ => false

section
variable {s : State} {a : Access} {k : Nat} {p : APart} {t : Thread} {pa : Nat} (h : s.CanPerform a k p t pa)
include h

theorem State.CanPerform.tid : a.tid = t.id := (State.thread_id h.thread).symm

theorem State.CanPerform.thread_self : s.thread t.id = some t := h.tid ▸ h.thread

/-- A part that can perform does so in a state in which every open part has its place. -/
theorem State.CanPerform.performPart : ∃ ps p', PartsPlaced a.parts ps ∧ ps[k]? = some p' ∧ p.Placed p' ∧
    s.performPart a k t.xl = (s.found a t ps).performGlobal { a with parts := ps } k t.xl p' pa := by
  have hopen : ∀ q ∈ a.parts, q.unplaced = true → ∃ y, s.translate t.xl a.need q.ea = .ok y := fun q hq hu => by
    obtain ⟨hd, hpa⟩ := APart.unplaced_iff.mp hu
    obtain ⟨y, hy | ⟨-, hy⟩, -⟩ := h.reach q hq hd
    · rw [hpa] at hy; cases hy
    · exact ⟨y, hy⟩
  obtain ⟨found, hfound, hmem⟩ := State.translateParts_ok (s := s) (a := a) (x := t.xl) (l := indexed a.parts) fun q hq hu =>
    hopen q.2 (List.mem_iff_getElem?.mpr ⟨q.1, mem_indexed.mp hq⟩) hu
  let s₁ := s.walked a t
  have hlook : s.LooksUp s₁ := s.looksUp_walked a t
  let ps := s₁.placeParts t.xl found a.parts
  have hplaced : PartsPlaced a.parts ps := State.placeParts_placed found a.parts
  obtain ⟨p', hp', hpp'⟩ := hplaced.part k p h.part
  have hreach : ∀ q' ∈ ps, q'.done = false → s.lost (q'.pa.getD 0) = 0 ∧ s.linkHeld (q'.pa.getD 0) = false := by
    intro q' hq' hd
    obtain ⟨j, hj⟩ := List.mem_iff_getElem?.mp hq'
    obtain ⟨q, hq, hqq⟩ := hplaced.back j q' hj
    have hdq : q.done = false := by rw [hqq] at hd; exact hd
    obtain ⟨y, hy, hl, hc⟩ := h.reach q (List.mem_iff_getElem?.mpr ⟨j, hq⟩) hdq
    rw [State.placeParts_stands hmem hq hj hdq hy]
    exact ⟨hl, hc⟩
  have hs₂ : found.foldl (fun s f => s.onPart1 a.id f.1 fun p => { p with pa := some f.2, page := (s.lookup t.xl p.ea).toOption }) s₁ = s.found a t ps := by
    refine (State.foldl_onPart1 s₁ a.id t.xl found).trans (State.onAccess_congr fun b hb hid => ?_)
    rw [hlook.accs] at hb
    rw [h.sole b hb hid]
  have hacc : (s.found a t ps).access a.id = some { a with parts := ps } := by
    refine State.access_onAccess_self (a := a) ?_ (fun y => { y with parts := ps }) fun _ => rfl
    rw [State.access, hlook.accs]
    exact h.here
  have hmd : (s.found a t ps).md = s.md := hlook.md
  have hgone : (ps.filter fun q => !q.done).find? (fun q => let l := (s.found a t ps).lost (q.pa.getD 0); l != 0 && !(l == 1 && Access.takesOrphan { a with parts := ps })) = none :=
    List.find?_eq_none.mpr fun q hq => by
      obtain ⟨hq, hd⟩ := List.mem_filter.mp hq
      rw [State.lost_eq hmd, (hreach q hq (by simpa using hd)).1]
      simp
  have hheld : (ps.filter fun q => !q.done).any (fun q => (s.found a t ps).linkHeld (q.pa.getD 0)) = false :=
    List.any_eq_false.mpr fun q hq => by
      obtain ⟨hq, hd⟩ := List.mem_filter.mp hq
      rw [State.linkHeld_eq hmd, (hreach q hq (by simpa using hd)).2]
      simp
  refine ⟨ps, p', hplaced, hp', hpp', ?_⟩
  simp only [State.performPart, hfound]
  rw [show List.foldl (fun s p => s.fillTlb t.xl p.ea) s a.parts = s₁ from rfl, hs₂, hacc]
  simp only [hp', hgone, hheld, State.placeParts_stands hmem h.part hp' h.open_ h.at_]
  rfl

/-- PERFORM of such a part is that of its access. -/
theorem State.CanPerform.exec_perform (hk : a.kind.partwise = true) : exec (.perform a.id k) s = .next (s.performPart a k t.xl).settle := by
  have hxl : s.xlOf a = some t.xl := by rw [State.xlOf, h.thread]; rfl
  have hclear : a.parts.any (fun q => q.stalled) = false := List.any_eq_false.mpr fun q hq => by simp [h.clear q hq]
  show Host.Outcome.next (match s.access a.id with | some b => s.performAccess b k | none => s.putEntry a.id) = _
  rw [h.here]
  simp only [State.performAccess, h.part, hxl, h.open_, hclear, h.ordered, h.global]
  revert hk
  cases a.kind <;> simp [AKind.partwise]

end

end Sys2Proof.Machine

namespace Sys2Proof.Machine

/-! ## What a read leaves (R210, R212, R216, R223, R224) -/

/-- Threads may have observed more, and views, sampler caches and TLBs may differ; nothing else does. -/
structure State.Observes (s s' : State) : Prop where
  unmoved : s.Unmoved s'
  rest : s' = { s with
    ms := { s.ms with
      writes := s'.ms.writes, smp := s'.ms.smp, smpLines := s'.ms.smpLines, smpUsed := s'.ms.smpUsed, l1tlb := s'.ms.l1tlb, l2tlb := s'.ms.l2tlb }
    wk := { s.wk with threads := s'.wk.threads } }

namespace State.Observes
variable {s s₁ s₂ : State}

theorem refl (s : State) : s.Observes s := ⟨.refl s, rfl⟩

theorem trans (h : s.Observes s₁) (h' : s₁.Observes s₂) : s.Observes s₂ := by
  refine ⟨h.unmoved.trans h'.unmoved, ?_⟩
  conv_lhs => rw [h'.rest, h.rest]

theorem foldl {α : Type} {f : State → α → State} (hf : ∀ (s : State) (x : α), s.Observes (f s x)) (l : List α) (s : State) : s.Observes (l.foldl f s) := by
  induction l generalizing s with
  | nil => exact .refl s
  | cons x l ih => exact (hf s x).trans (ih _)

theorem of_looksUp (h : s.LooksUp s₁) : s.Observes s₁ := by
  refine ⟨.of_wk h.wk, ?_⟩
  rw [h]
  rfl

variable (h : s.Observes s₁)
include h

theorem accs : s₁.ms.accs = s.ms.accs := by rw [h.rest]
theorem mem : s₁.ms.mem = s.ms.mem := by rw [h.rest]
theorem vault : s₁.ms.vault = s.ms.vault := by rw [h.rest]
theorem tags : s₁.ms.tags = s.ms.tags := by rw [h.rest]
theorem co : s₁.co = s.co := by rw [h.rest]
theorem nextId : s₁.nextId = s.nextId := by rw [h.rest]
theorem access (k : Nat) : s₁.access k = s.access k := by rw [State.access, h.accs]; rfl

end State.Observes

theorem State.observes_observe (s : State) (t : Nat) (ids : List Nat) : s.Observes (s.observe t ids) := ⟨.observe s t ids, rfl⟩

theorem State.observes_take (s : State) (pts : List Point) (f : WriteRec → Bool) : s.Observes (s.take pts f) := .of_looksUp (s.looksUp_take pts f)

theorem State.observes_takeRead (s : State) (w : Who) (ids : List Nat) : s.Observes (s.takeRead w ids) :=
  (s.observes_take _ _).trans (State.observes_observe _ _ _)

theorem State.observes_acquired (s : State) (w : Who) (a : Access) (ids : List Nat) : s.Observes (s.acquired w a ids) := by
  unfold State.acquired
  split
  · exact .refl s
  · refine .trans ?_ (.of_looksUp (State.looksUp_refresh _ _ _))
    split
    · exact s.observes_take _ _
    · exact .refl s

theorem State.observes_putLine (s : State) (w : Who) (line : Nat) : s.Observes (s.putLine w line) := ⟨.of_wk rfl, rfl⟩

theorem State.observes_dropLine (s : State) (l : CoreId × Nat) : s.Observes (s.dropLine l) := ⟨.of_wk rfl, rfl⟩

theorem State.observes_fillLine (s : State) (w : Who) (line : Nat) (touch : Bool) : s.Observes (s.fillLine w line touch) := by
  have hfill : s.Observes (if s.ms.smpLines.contains (w.core, line) then s
      else if !decide (512 ≤ (s.ms.smpLines.filter fun l => l.1 == w.core).length) then s.putLine w line
      else match s.smpVictim w.core touch with
        | some l => (s.dropLine l).putLine w line
        | none => s) := by
    split
    · exact .refl s
    · split
      · exact s.observes_putLine w line
      · split
        · exact .trans (s.observes_dropLine _) (State.observes_putLine _ w line)
        · exact .refl s
  unfold State.fillLine
  dsimp only
  split
  · exact hfill.trans ⟨.of_wk rfl, rfl⟩
  · exact hfill

theorem State.observes_sampled (s : State) (w : Who) (pa n : Nat) : s.Observes (s.sampled w pa n).2 :=
  .trans (.foldl (fun s l => s.observes_fillLine w l true) _ s) (State.observes_observe _ _ _)

/-- What joins the observed set of a thread is in it. -/
theorem State.observe_mem {s : State} {t : Thread} (ht : s.thread t.id = some t) (ids : List Nat) :
    ∃ y, (s.observe t.id ids).thread t.id = some y ∧ ∀ w ∈ ids, w ∈ y.obs := by
  refine ⟨_, State.thread_onThread_self ht (fun x => { x with obs := x.obs ++ ids.filter fun i => !x.obs.contains i }) fun _ => id, fun w hw => ?_⟩
  by_cases h : w ∈ t.obs
  · exact List.mem_append_left _ h
  · exact List.mem_append_right _ (by simp [hw, h])

/-! ## Views and sampler caches do not depend on accesses -/

/-- An update of the accesses in flight. -/
def State.onAccs (s : State) (g : List Access → List Access) : State := s.onMs fun m => { m with accs := g m.accs }

section
variable {g : List Access → List Access}

theorem State.fillTlb_onAccs (s : State) (x : Xl) (va : Nat) : (s.onAccs g).fillTlb x va = (s.fillTlb x va).onAccs g := by
  have h₁ : (s.onAccs g).inL1Tlb x va = s.inL1Tlb x va := rfl
  have h₂ : (s.onAccs g).inL2Tlb x va = s.inL2Tlb x va := rfl
  have hl : (s.onAccs g).lookup x va = s.lookup x va := rfl
  simp only [State.fillTlb, h₁, h₂, hl]
  split
  · rfl
  · cases s.inL2Tlb x va <;> cases s.lookup x va <;> rfl

theorem State.fillLine_onAccs (s : State) (w : Who) (line : Nat) (touch : Bool) : (s.onAccs g).fillLine w line touch = (s.fillLine w line touch).onAccs g := by
  have hvictim : (s.onAccs g).smpVictim w.core touch = s.smpVictim w.core touch := rfl
  have hlines : (s.onAccs g).ms.smpLines = s.ms.smpLines := rfl
  have hused : (s.onAccs g).ms.smpUsed = s.ms.smpUsed := rfl
  simp only [State.fillLine, hvictim, hlines, hused]
  split <;> split
  · rfl
  · split
    · rfl
    · cases s.smpVictim w.core touch <;> rfl
  · rfl
  · split
    · rfl
    · cases s.smpVictim w.core touch <;> rfl

theorem State.foldl_fillLine_onAccs (s : State) (w : Who) (l : List Nat) :
    l.foldl (fun s l => s.fillLine w l true) (s.onAccs g) = (l.foldl (fun s l => s.fillLine w l true) s).onAccs g := by
  induction l generalizing s with
  | nil => rfl
  | cons x l ih => rw [List.foldl_cons, State.fillLine_onAccs, ih]; rfl

theorem State.sampled_onAccs (s : State) (w : Who) (pa n : Nat) : ((s.onAccs g).sampled w pa n).1 = (s.sampled w pa n).1 := by
  simp only [State.sampled, State.foldl_fillLine_onAccs]
  rfl

end

theorem State.sampled_wids {s : State} {t : Thread} (ht : s.thread t.id = some t) (pa n : Nat) :
    ∃ y, (s.sampled t.who pa n).2.thread t.id = some y ∧ ∀ w ∈ (s.sampled t.who pa n).1.wids, w ∈ y.obs := by
  obtain ⟨x, hx, hux⟩ := (State.Observes.foldl (fun s l => s.observes_fillLine t.who l true) (linesOf pa n) s).unmoved.threads _ t ht
  rw [← hux.id] at hx
  obtain ⟨y, hy, hmem⟩ := State.observe_mem hx (s.sampled t.who pa n).1.wids
  exact ⟨y, by rw [← hux.id]; exact hux.id ▸ hy, hmem⟩

theorem State.readBy_bytes_length (s : State) (f : Nat → Nat) (a n : Nat) : (s.readBy f a n).bytes.length = n := by simp [State.readBy]

/-! ## One access, and one of its parts -/

/-- Access a is the only one of its number. -/
structure State.Only (s : State) (k : Nat) (a : Access) : Prop where
  here : s.access k = some a
  sole : ∀ b ∈ s.ms.accs, b.id = k → b = a

theorem State.Only.of_accs {s s' : State} {k : Nat} {a : Access} (h : s.Only k a) (he : s'.ms.accs = s.ms.accs) : s'.Only k a :=
  ⟨by rw [State.access, he]; exact h.here, by rw [he]; exact h.sole⟩

theorem State.Only.onAccess {s : State} {k : Nat} {a : Access} (h : s.Only k a) (f : Access → Access) (hf : ∀ x, (f x).id = x.id) : (s.onAccess k f).Only k (f a) := by
  refine ⟨State.access_onAccess_self h.here f hf, fun b hb hid => ?_⟩
  obtain ⟨c, hc, rfl⟩ := List.mem_map.mp hb
  by_cases hck : c.id = k
  · rw [if_pos (by simpa using hck), h.sole c hc hck]
  · rw [if_neg (by simpa using hck)] at hid
    exact absurd hid hck

/-- A part once it has performed. -/
def APart.finish (wid : Nat) (p : APart) : APart := { p with done := true, wid := wid, log := none }

/-- An access after part k has read r. -/
def Access.got (a : Access) (k ofs : Nat) (r : ReadRes) : Access :=
  { a with data := setBytes a.data ofs r.bytes, bad := a.bad || r.poison, parts := a.parts.modify k (APart.finish 0) }

/-- The state after part k of an access has read r. -/
def State.readPart (s : State) (a k ofs : Nat) (r : ReadRes) : State := (s.gotBytes a ofs r).doneAt a k 0

theorem State.access_readPart {s : State} {n : Nat} {a : Access} (h : s.access n = some a) (k ofs : Nat) (r : ReadRes) :
    (s.readPart n k ofs r).access n = some (a.got k ofs r) := by
  have hgot := State.access_onAccess_self h (fun x => { x with data := setBytes x.data ofs r.bytes, bad := x.bad || r.poison }) fun _ => rfl
  exact State.access_onAccess_self hgot (fun x => { x with parts := x.parts.modify k (APart.finish 0) }) fun _ => rfl

theorem State.Only.readPart {s : State} {n : Nat} {a : Access} (h : s.Only n a) (k ofs : Nat) (r : ReadRes) : (s.readPart n k ofs r).Only n (a.got k ofs r) :=
  ((h.onAccess (fun x => { x with data := setBytes x.data ofs r.bytes, bad := x.bad || r.poison }) fun _ => rfl).onAccess
    (fun x => { x with parts := x.parts.modify k (APart.finish 0) }) fun _ => rfl).of_accs rfl

theorem State.unmoved_doneAt (s : State) (a k wid : Nat) : s.Unmoved (s.doneAt a k wid) := .of_wk rfl

theorem State.unmoved_readPart (s : State) (a k ofs : Nat) (r : ReadRes) : s.Unmoved (s.readPart a k ofs r) := .of_wk rfl

/-- Once part k has performed, the access has exactly where part k was its last. -/
theorem PartsPlaced.performed_iff {a b : Access} {k wid : Nat} (h : PartsPlaced a.parts b.parts) :
    ({ b with parts := b.parts.modify k (APart.finish wid) } : Access).performed = true ↔ a.lastPart k := by
  rw [Access.performed_iff]
  constructor
  · intro hdone j q hq hj
    obtain ⟨q', hq', hp⟩ := h.part j q hq
    have := hdone q' (List.mem_iff_getElem?.mpr ⟨j, by simp [hq', hj.symm]⟩)
    rw [hp] at this
    exact this
  · intro hlast q' hq'
    obtain ⟨j, hj⟩ := List.mem_iff_getElem?.mp hq'
    rw [List.getElem?_modify] at hj
    obtain ⟨q₀, h₀, rfl⟩ := Option.map_eq_some_iff.mp hj
    by_cases hjk : k = j
    · simp [hjk, APart.finish]
    · obtain ⟨q, hq, hp⟩ := h.back j q₀ h₀
      have := hlast j q hq (Ne.symm hjk)
      simp only [hjk, if_false]
      rw [hp]
      exact this

theorem PartsPlaced.head_ea {ps ps' : List APart} (h : PartsPlaced ps ps') : ps'.head?.map APart.ea = ps.head?.map APart.ea := by
  rw [List.head?_eq_getElem?, List.head?_eq_getElem?]
  cases hq : ps[0]? with
  | some q =>
    obtain ⟨q', hq', hp⟩ := h.part 0 q hq
    rw [hq', Option.map_some, hp]
    rfl
  | none =>
    cases hq' : ps'[0]? with
    | none => rfl
    | some q' =>
      obtain ⟨q, hq₁, -⟩ := h.back 0 q' hq'
      exact absurd (hq.symm.trans hq₁) (by simp)

theorem head_ea_modify (ps : List APart) (k : Nat) (wid : Nat) : (ps.modify k (APart.finish wid)).head?.map APart.ea = ps.head?.map APart.ea := by
  rw [List.head?_eq_getElem?, List.head?_eq_getElem?, List.getElem?_modify]
  cases ps[0]? with
  | none => rfl
  | some q =>
    refine congrArg some ?_
    dsimp only
    split <;> rfl

/-! ## A load has all its bytes (R33, R426) -/

/-- The cause that a poisoned load leaves (R426). -/
def Access.poisonCauses (a : Access) : Option Cause := if a.bad then some (poisonCause ((a.parts.head?.map APart.ea).getD 0) 0) else none

/-- The words that a load delivers: a NaN in each register where a byte of it is poisoned. -/
def Access.loadedWords (a : Access) (n : Nat) (f : List Byte → List Word) : List Word := if a.bad then List.replicate n (BitVec.ofNat 32 fNaN) else f a.data

section
variable {s : State} {a : Access} {t : Thread} {k : Nat} {d : Opnd} {n : Nat} {f : List Byte → List Word} (ha : s.access k = some a)
include ha

/-- Before its last part a load delivers nothing. -/
theorem State.loaded_open (hp : a.performed = false) : s.loaded k d n f = s := by simp [State.loaded, ha, hp]

variable (hid : a.tid = t.id) (hp : a.performed = true)
include hid hp

theorem State.loaded_eq : s.loaded k d n f = (s.deliver t.id k d (a.loadedWords n f)).onThread t.id (Thread.endsLoad none false a.poisonCauses) := by
  have hdown : (s.deliver t.id k d (a.loadedWords n f)).down t.id .load = (s.deliver t.id k d (a.loadedWords n f)).onThread t.id (Thread.endsLoad none false none) :=
    congrArg (State.onThread _ t.id) (by funext x; simp [Thread.endsLoad, predAfter])
  rw [State.loaded, ha]
  simp only [hp, hid, Bool.not_true, Bool.false_eq_true, if_false]
  rw [show (if a.bad = true then List.replicate n (BitVec.ofNat 32 fNaN) else f a.data) = a.loadedWords n f from rfl, hdown]
  unfold Access.poisonCauses
  split
  · refine (State.onThread_onThread _ t.id (Thread.endsLoad none false none) _ fun _ => rfl).trans (congrArg _ ?_)
    funext x
    simp [Thread.endsLoad]
  · rfl

theorem State.loaded_takes (ht : s.thread t.id = some t) (hl : t.exited = false) : s.Takes (s.loaded k d n f) t k d (a.loadedWords n f) (t.endsLoad none false a.poisonCauses) := by
  rw [State.loaded_eq ha hid hp]
  exact State.deliver_takes ht rfl rfl hl k d _ _ (fun _ => rfl) fun _ _ _ _ => rfl

omit hid hp ha in
theorem State.loaded_ms (s : State) (k : Nat) (d : Opnd) (n : Nat) (f : List Byte → List Word) : (s.loaded k d n f).ms = s.ms := by
  unfold State.loaded
  split
  · rfl
  · dsimp only
    split
    · rfl
    · split <;> exact (State.deliver_en_ms _ _ _ _ _).2

end

/-- R33, R426: what comes to a thread with the last byte of its load, in a state in which what has been read is noted and the machine
settles after. -/
theorem State.load_comes {s s₁ : State} {a : Access} {t : Thread} {k : Nat} (d : Opnd) (n : Nat) (f : List Byte → List Word) (hin : s.Unmoved s₁)
    (ht : s.thread t.id = some t) (hl : t.exited = false) (ha : s₁.access k = some a) (hid : a.tid = t.id) (hp : a.performed = true) :
    s.Comes (s₁.loaded k d n f).settle t k d (a.loadedWords n f) 0 ∧
    ∃ y, (s₁.loaded k d n f).settle.thread t.id = some y ∧ y.ctr.loads = t.ctr.loads - 1 ∧ y.out.causes = t.out.causes ++ a.poisonCauses.toList ∧
      ∀ t₁, s₁.thread t.id = some t₁ → ∀ w ∈ t₁.obs, w ∈ y.obs := by
  obtain ⟨t₁, ht₁, hu⟩ := hin.threads _ t ht
  have htakes := State.loaded_takes (d := d) (n := n) (f := f) ha (by rw [hu.id]; exact hid) hp (by rw [hu.id]; exact ht₁) (hu.exited.trans hl)
  have hsettle := (s₁.loaded k d n f).unmoved_settle
  refine ⟨htakes.comes hin ht ht₁ hsettle rfl rfl rfl (by simp [Thread.endsLoad, predAfter]), ?_⟩
  obtain ⟨y, hy, heq, -⟩ := htakes.self
  obtain ⟨z, hz, hyz⟩ := hsettle.threads _ y hy
  rw [hu.id] at hz
  refine ⟨z, hz, ?_, ?_, fun t₂ ht₂ w hw => ?_⟩
  · rw [hyz.loads, heq]
    exact congrArg (· - 1) hu.loads
  · rw [hyz.causes, heq]
    exact congrArg (· ++ _) hu.causes
  · obtain rfl : t₂ = t₁ := Option.some.inj (ht₂.symm.trans ht₁)
    exact hyz.obs w (by rw [heq]; exact hw)

/-! ## The words of a load (R234) -/

theorem ofBytes_lt (bs : List Byte) : ofBytes bs < 2 ^ (8 * bs.length) := by
  induction bs with
  | nil => simp [ofBytes]
  | cons b bs ih =>
    have hb := b.isLt
    rw [ofBytes, List.length_cons, Nat.mul_succ, Nat.pow_add]
    omega

/-- A value of n bits, sign-extended to a word. -/
theorem wrapInt_signExtend {v n : Nat} (hn : 0 < n) (hn' : n ≤ 32) (hv : v < 2 ^ n) :
    wrapInt (signExtend v n) 32 = if v / 2 ^ (n - 1) = 1 then v + (2 ^ 32 - 2 ^ n) else v := by
  obtain ⟨m, rfl⟩ : ∃ m, n = m + 1 := ⟨n - 1, by omega⟩
  have hpow : 2 ^ (m + 1) = 2 * 2 ^ m := Nat.pow_succ'
  have hle : 2 ^ (m + 1) ≤ 2 ^ 32 := Nat.pow_le_pow_right (by decide) hn'
  have hdiv : v / 2 ^ m = 1 ↔ 2 ^ m ≤ v := by
    rw [Nat.div_eq_iff (Nat.two_pow_pos m)]
    omega
  simp only [wrapInt, signExtend, Nat.mod_eq_of_lt hv, Nat.add_sub_cancel, hdiv]
  generalize 2 ^ (m + 1) = P at *
  generalize 2 ^ m = Q at *
  split <;> split <;> omega

/-- R234: the registers of a load from its bytes. -/
theorem loadWords_eq {sz : Size} {sx : Bool} {bs : List Byte} (hlen : bs.length = sz.bytes) (hsx : sx = true → sz.bytes ≤ 4) :
    loadWords sz sx bs = toWords sz.regs (if sx = true ∧ ofBytes bs / 2 ^ (8 * sz.bytes - 1) = 1
      then ofBytes bs + (2 ^ 32 - 2 ^ (8 * sz.bytes)) else ofBytes bs) := by
  have htake : bs.take sz.bytes = bs := List.take_of_length_le hlen.le
  simp only [loadWords, htake]
  cases sx with
  | false => simp
  | true =>
    have hpos : 0 < sz.bytes := by cases sz <;> decide
    have hlt := ofBytes_lt bs
    rw [hlen] at hlt
    rw [if_pos rfl, wrapInt_signExtend (by omega) (by have := hsx rfl; omega) hlt]
    simp

end Sys2Proof.Machine

namespace Sys2Proof.Machine

/-! ## Reads perform (R216, R228, R234) -/

/-- What happens to a read with a part of it: with the last one its value comes, and before that its bytes wait in the access. -/
structure State.Reads (s s' : State) (a : Access) (k : Nat) (p : APart) (t : Thread) (d : Opnd) (n : Nat) (f : List Byte → List Word) (r : ReadRes) : Prop where
  bytes : s.KeepsBytes s'
  last : a.lastPart k → s.Comes s' t a.id d ((a.got k p.ofs r).loadedWords n f) 0 ∧
    ∃ y, s'.thread t.id = some y ∧ y.ctr.loads = t.ctr.loads - 1 ∧ (∀ w ∈ r.wids, w ∈ y.obs) ∧
      y.out.causes = t.out.causes ++ (a.got k p.ofs r).poisonCauses.toList
  more : ¬ a.lastPart k → s.Keeps s' ∧ ∃ b, s'.access a.id = some b ∧ b.data = (a.got k p.ofs r).data ∧ b.bad = (a.got k p.ofs r).bad ∧
    ∀ j q, a.parts[j]? = some q → j ≠ k → ∃ q', b.parts[j]? = some q' ∧ q'.done = q.done

theorem State.unmoved_found (s : State) (a : Access) (t : Thread) (ps : List APart) : s.Unmoved (s.found a t ps) := .of_wk (s.looksUp_walked a t).wk

theorem State.CanPerform.only {s : State} {a : Access} {k : Nat} {p : APart} {t : Thread} {pa : Nat} (h : s.CanPerform a k p t pa) (ps : List APart) :
    (s.found a t ps).Only a.id { a with parts := ps } :=
  State.Only.onAccess (.of_accs ⟨h.here, h.sole⟩ (s.looksUp_walked a t).accs) (fun y => { y with parts := ps }) fun _ => rfl

/-- A part of a read performs where its thread has observed what was read. -/
theorem State.CanPerform.reads {s s₁ : State} {a : Access} {k : Nat} {p : APart} {t : Thread} {pa : Nat} (h : s.CanPerform a k p t pa) {ps : List APart}
    (hps : PartsPlaced a.parts ps) (d : Opnd) (n : Nat) (f : List Byte → List Word) (r : ReadRes) (hobs : (s.found a t ps).Observes s₁)
    (hwids : ∃ y, s₁.thread t.id = some y ∧ ∀ w ∈ r.wids, w ∈ y.obs) :
    s.Reads ((s₁.readPart a.id k p.ofs r).loaded a.id d n f).settle a k p t d n f r := by
  have hlook := s.looksUp_walked a t
  have honly : (s₁.readPart a.id k p.ofs r).Only a.id (({ a with parts := ps } : Access).got k p.ofs r) :=
    ((h.only ps).of_accs hobs.accs).readPart k p.ofs r
  have hperf : (({ a with parts := ps } : Access).got k p.ofs r).performed = true ↔ a.lastPart k := hps.performed_iff (b := { a with parts := ps })
  have hmoved : s.Unmoved (s₁.readPart a.id k p.ofs r) := ((s.unmoved_found a t ps).trans hobs.unmoved).trans (State.unmoved_readPart ..)
  have hea : (({ a with parts := ps } : Access).got k p.ofs r).poisonCauses = (a.got k p.ofs r).poisonCauses := by
    have h₁ := head_ea_modify ps k 0
    have h₂ := head_ea_modify a.parts k 0
    simp only [Access.poisonCauses, Access.got, h₁, h₂, hps.head_ea]
  refine ⟨fun x => ?_, fun hlast => ?_, fun hlast => ?_⟩
  · have hmem : (s.found a t ps).ms.mem = s.ms.mem := hlook.mem
    have hvault : (s.found a t ps).ms.vault = s.ms.vault := hlook.vault
    rw [State.settle_ms, State.loaded_ms]
    exact ⟨congrArg (Memory.read · x) (hobs.mem.trans hmem), congrArg (Memory.read · x) (hobs.vault.trans hvault)⟩
  · obtain ⟨hcomes, y, hy, hloads, hcauses, hmore⟩ :=
      State.load_comes d n f hmoved h.thread_self h.live honly.here h.tid (hperf.mpr hlast)
    obtain ⟨x, hx, hxw⟩ := hwids
    exact ⟨hcomes, y, hy, hloads, fun w hw => hmore x hx w (hxw w hw), hea ▸ hcauses⟩
  · have hopen := Bool.not_eq_true _ ▸ mt hperf.mp hlast
    rw [State.loaded_open honly.here hopen]
    refine ⟨(hmoved.trans (State.unmoved_settle _)).keeps, _, State.access_settle_open honly.here honly.sole hopen, rfl, rfl, fun j q hq hj => ?_⟩
    obtain ⟨q', hq', hp⟩ := hps.part j q hq
    refine ⟨q', ?_, by rw [hp]⟩
    simp [Access.got, hq', Ne.symm hj]

theorem State.observes_acquired_read {s : State} {t : Thread} (ht : s.thread t.id = some t) (a : Access) (ids : List Nat) :
    s.Observes ((s.takeRead t.who ids).acquired t.who a ids) ∧
      ∃ y, ((s.takeRead t.who ids).acquired t.who a ids).thread t.id = some y ∧ ∀ w ∈ ids, w ∈ y.obs := by
  have hacq := State.observes_acquired (s.takeRead t.who ids) t.who a ids
  refine ⟨(s.observes_takeRead t.who ids).trans hacq, ?_⟩
  obtain ⟨y, hy, hw⟩ := State.observe_mem (s := s.take [.core t.who.core] fun r => ids.contains r.id) ht ids
  obtain ⟨z, hz, hyz⟩ := hacq.unmoved.threads _ y hy
  exact ⟨z, hz, fun w h => hyz.obs w (hw w h)⟩

/-- R274: an acquire whose promotion has been acknowledged sends no other. -/
theorem State.promotion_none {a : Access} (h : a.acq = true → a.prom = true → a.promo = some true) (s : State) (home : Bool) (pa : Nat) :
    s.promotion a home pa = none := by
  unfold State.promotion
  rw [if_pos]
  cases hq : a.acq <;> cases hr : a.prom <;> simp
  exact .inr (h hq hr)

theorem State.performGlobal_load {a : Access} {d : Opnd} {sz : Size} {sx : Bool} (hk : a.kind = .load d sz sx)
    (hp : a.acq = true → a.prom = true → a.promo = some true) (s : State) (k : Nat) (x : Xl) (p : APart) (pa : Nat) :
    s.performGlobal a k x p pa = s.performLoad a k p pa d sz sx := by
  simp only [State.performGlobal, hk, State.promotion_none hp]

section
variable {s : State} {a : Access} {k : Nat} {p : APart} {t : Thread} {pa : Nat} {d : Opnd} {sz : Size} {sx : Bool} (h : s.CanPerform a k p t pa)
include h

theorem State.CanPerform.load (hk : a.kind = .load d sz sx) (hp : a.acq = true → a.prom = true → a.promo = some true) :
    ∃ s', exec (.perform a.id k) s = .next s' ∧
      s.Reads s' a k p t d sz.regs (loadWords sz sx) ((s.walked a t).readAt t.who a.scope pa p.len) := by
  obtain ⟨ps, p', hps, hp', hpp, hperf⟩ := h.performPart
  have hth : (s.found a t ps).thread a.tid = some t := ((s.looksUp_walked a t).thread _).trans h.thread
  refine ⟨_, h.exec_perform (by rw [hk]; rfl), ?_⟩
  rw [hperf]
  rw [State.performGlobal_load (a := { a with parts := ps }) hk hp, State.performLoad, State.whoOf_thread (a := a) hth, hpp]
  obtain ⟨hobs, hw⟩ := State.observes_acquired_read (h.tid ▸ hth) { a with parts := ps } ((s.found a t ps).readAt t.who a.scope pa p.len).wids
  exact h.reads hps d sz.regs (loadWords sz sx) _ hobs hw

theorem State.CanPerform.lds (hk : a.kind = .lds d sz sx) : ∃ s', exec (.perform a.id k) s = .next s' ∧
    s.Reads s' a k p t d sz.regs (loadWords sz sx) ((s.walked a t).sampled t.who pa p.len).1 := by
  obtain ⟨ps, p', hps, hp', hpp, hperf⟩ := h.performPart
  have hth : (s.found a t ps).thread a.tid = some t := ((s.looksUp_walked a t).thread _).trans h.thread
  refine ⟨_, h.exec_perform (by rw [hk]; rfl), ?_⟩
  rw [hperf]
  simp only [State.performGlobal, hk, State.whoOf_thread hth]
  rw [hpp, ← State.sampled_onAccs (s.walked a t)]
  exact h.reads hps d sz.regs (loadWords sz sx) _ (State.observes_sampled _ _ _ _) (State.sampled_wids (h.tid ▸ hth) _ _)

end

/-- The bytes of a read take their places in the data of an access. -/
theorem Access.got_data {a : Access} {k : Nat} {r : ReadRes} {n ofs : Nat} (hr : r.bytes.length = n) :
    (a.got k ofs r).data = a.data.take ofs ++ r.bytes ++ a.data.drop (ofs + n) := by
  rw [← hr]; rfl

theorem Access.got_poisonCauses (a : Access) (k ofs : Nat) (r : ReadRes) : (a.got k ofs r).poisonCauses.toList =
    if (a.bad || r.poison) = true then [⟨0x20, 1, (a.parts.head?.map APart.ea).getD 0, 0, false, none⟩] else [] := by
  have hhead := head_ea_modify a.parts k 0
  simp only [Access.poisonCauses, Access.got, hhead]
  split <;> rfl

/-- R234, R426: the words of a load. -/
theorem Access.got_loadedWords {a : Access} {k : Nat} {r : ReadRes} {sz : Size} {sx : Bool} {n ofs : Nat} (hr : r.bytes.length = n)
    (hlen : a.data.length = sz.bytes) (hfit : ofs + n ≤ sz.bytes) (hsx : sx = true → sz.bytes ≤ 4) :
    let v := ofBytes (a.data.take ofs ++ r.bytes ++ a.data.drop (ofs + n))
    (a.got k ofs r).loadedWords sz.regs (loadWords sz sx) = if (a.bad || r.poison) = true then List.replicate sz.regs 0x7FC00000
      else toWords sz.regs (if sx = true ∧ v / 2 ^ (8 * sz.bytes - 1) = 1 then v + (2 ^ 32 - 2 ^ (8 * sz.bytes)) else v) := by
  intro v
  have hdata : (a.data.take ofs ++ r.bytes ++ a.data.drop (ofs + n)).length = sz.bytes := by
    simp only [List.length_append, List.length_take, List.length_drop, hr]
    omega
  have hw := loadWords_eq (sx := sx) hdata hsx
  rw [Access.loadedWords, Access.got_data hr, hw]
  rfl

/-- What a load reads at its points (R216). -/
theorem State.readAt_bytes {s : State} {w : Who} {sc : Scope} {pa n i : Nat} (hi : i < n) :
    (s.readAt w sc pa n).bytes[i]? = some (s.byteOf (s.latest (w.upTo sc) (pa + i)) (pa + i)) := by
  simp [State.readAt, State.readBy, hi]

end Sys2Proof.Machine

namespace Sys2Proof.Machine

/-! ## Commits (R216, R427) -/

/-- Writing what stands there leaves every byte. -/
theorem Memory.read_writes_current {m : Memory} (h : m.wf = true) {f : Nat → Byte} {xs : List Nat} (hf : ∀ x ∈ xs, f x = m.read x) (k : Nat) :
    (m.writes (xs.map fun x => (x, f x))).read k = m.read k := by
  induction xs generalizing m with
  | nil => rfl
  | cons x xs ih =>
    have hread : ∀ k, (m.write x (f x)).read k = m.read k := fun k => by
      rw [Memory.read_write h, hf x (.head _)]
      split
      next hk => rw [hk]
      next => rfl
    exact (ih (Memory.write_wf _ _ h) fun y hy => (hf y (.tail _ hy)).trans (hread y).symm).trans (hread k)

/-- A commit writes its bytes; the rest of the units that it covers in part keep theirs. -/
theorem State.commit_mem_read {s : State} (h : s.ms.mem.wf = true) (w : Who) (acc : Nat) (rel : Option Scope) (cells : List Host.Cell) (bad : List Nat)
    (pts : List Point) (k : Nat) : (s.commit w acc rel cells bad pts).2.ms.mem.read k = (s.ms.mem.writes cells).read k := by
  let blocks := (s.partPoison cells ++ bad.map fun x => x / 64).eraseDups
  let extra := (blocks.flatMap fun b => (List.range 64).map (64 * b + ·)).filter fun x => !cells.any fun c => c.1 == x
  have hsplit : (s.commit w acc rel cells bad pts).2.ms.mem = (s.ms.mem.writes cells).writes (extra.map fun x => (x, s.lastByte x)) := List.foldl_append
  rw [hsplit]
  refine Memory.read_writes_current (Memory.writes_wf cells h) (fun x hx => ?_) k
  have hfree : ∀ c ∈ cells, c.1 ≠ x := by simpa [extra] using (List.mem_filter.mp hx).2
  rw [Memory.read_writes_of_not_mem h cells x hfree]
  rfl

/-- A commit of bytes at an address. -/
theorem State.commit_cellsAt {s : State} (h : s.ms.mem.wf = true) (w : Who) (acc : Nat) (rel : Option Scope) (pa : Nat) (bs : List Byte) (bad : List Nat)
    (pts : List Point) (x : Nat) : (s.commit w acc rel (cellsAt pa bs) bad pts).2.ms.mem.read x =
      if pa ≤ x ∧ x < pa + bs.length then bs.getD (x - pa) 0 else s.ms.mem.read x :=
  (State.commit_mem_read h ..).trans (Memory.read_writes_cellsAt h pa bs x)

theorem mem_cellsAt {pa i : Nat} {bs : List Byte} (h : i < bs.length) : (pa + i, bs[i]) ∈ cellsAt pa bs :=
  List.mem_map.mpr ⟨(i, bs[i]), mem_indexed.mpr (List.getElem?_eq_getElem h), rfl⟩

/-- The write that a commit adds. -/
structure State.Adds (s s' : State) (w : Who) (acc : Nat) (rel : Option Scope) (cells : List Host.Cell) (pts : List Point) (r : WriteRec) : Prop where
  mem : r ∈ s'.ms.writes
  id : r.id = s.nextId
  tid : r.tid = w.tid
  acc : r.acc = acc
  rel : r.rel = rel
  seen : r.seen = pts
  covers : ∀ c ∈ cells, r.covers c.1 = true

theorem State.adds_commit (s : State) (w : Who) (acc : Nat) (rel : Option Scope) (cells : List Host.Cell) (bad : List Nat) (pts : List Point) :
    ∃ r, s.Adds (s.commit w acc rel cells bad pts).2 w acc rel cells pts r :=
  ⟨_, List.mem_append_right _ (List.mem_singleton.mpr rfl), rfl, rfl, rfl, rfl, rfl, fun c hc =>
    List.any_eq_true.mpr ⟨c, List.mem_append_left _ hc, beq_self_eq_true _⟩⟩

theorem State.unmoved_commit (s : State) (w : Who) (acc : Nat) (rel : Option Scope) (cells : List Host.Cell) (bad : List Nat) (pts : List Point) :
    s.Unmoved (s.commit w acc rel cells bad pts).2 := .of_wk rfl

theorem State.unmoved_commitOwn (s : State) (w : Who) (acc : Nat) (rel : Option Scope) (cells : List Host.Cell) (home : Bool) :
    s.Unmoved (s.commitOwn w acc rel cells home).2 :=
  ((s.unmoved_commit w acc rel cells [] [.core w.core]).trans (.observe _ w.tid _)).trans (.of_wk rfl)

theorem State.unmoved_dirties (s : State) (t line : Nat) : s.Unmoved (s.dirties t line) := by
  unfold State.dirties
  split
  · exact .refl s
  · refine .onGroup s _ fun g => ?_
    split
    · rfl
    · split <;> rfl

/-- Dirtying a line changes groups alone. -/
theorem State.dirties_rest (s : State) (t line : Nat) : s.dirties t line = { s with wk := { s.wk with groups := (s.dirties t line).wk.groups } } := by
  unfold State.dirties
  split <;> rfl

/-- A part that has performed notes in its write at most the page of its translation. -/
theorem State.mem_doneAt_writes {s : State} {r : WriteRec} (h : r ∈ s.ms.writes) (a k wid : Nat) :
    ∃ r' ∈ (s.doneAt a k wid).ms.writes, r' = { r with page := r'.page } := by
  have hwrites : (s.doneAt a k wid).ms.writes =
      if wid = 0 then s.ms.writes else s.ms.writes.map fun w => if w.id == wid then { w with page := s.pageOf a k } else w := rfl
  rw [hwrites]
  split
  · exact ⟨r, h, rfl⟩
  · refine ⟨_, List.mem_map_of_mem h, ?_⟩
    split <;> rfl

/-! ## A store performs (R216, R228, R234) -/

/-- The state after a part of a store has written bytes. -/
def State.wrote (s : State) (w : Who) (a : Access) (k : Nat) (home : Bool) (pa : Nat) (bs : List Byte) : State :=
  let r := s.commitOwn w a.id a.relScope (cellsAt pa bs) home
  let s1 := r.2.doneAt a.id k r.1
  if home then s1 else s1.dirties a.tid (pa / 128)

theorem State.performGlobal_store {a : Access} {bs : List Byte} (hk : a.kind = .store bs) (s : State) (k : Nat) (x : Xl) (p : APart) (pa : Nat) :
    s.performGlobal a k x p pa = s.wrote (s.whoOf a.tid a.core) a k (s.goesHome x p.ea pa) pa ((bs.drop p.ofs).take p.len) := by
  simp only [State.performGlobal, hk]
  rfl

section
variable (s : State) (w : Who) (a : Access) (k : Nat) (home : Bool) (pa : Nat) (bs : List Byte)

theorem State.unmoved_wrote : s.Unmoved (s.wrote w a k home pa bs) := by
  have h := (s.unmoved_commitOwn w a.id a.relScope (cellsAt pa bs) home).trans (State.unmoved_doneAt _ a.id k (s.commitOwn w a.id a.relScope (cellsAt pa bs) home).1)
  unfold State.wrote
  cases home with
  | true => exact h
  | false => exact h.trans (State.unmoved_dirties _ _ _)

/-- A store notes its write, and nothing besides but the dirty line. -/
theorem State.wrote_rest : ∃ l, s.wrote w a k home pa bs =
    { (s.commitOwn w a.id a.relScope (cellsAt pa bs) home).2.doneAt a.id k s.nextId with
      wk := { (s.commitOwn w a.id a.relScope (cellsAt pa bs) home).2.wk with groups := l } } := by
  unfold State.wrote
  cases home with
  | true => exact ⟨_, rfl⟩
  | false => exact ⟨_, State.dirties_rest _ _ _⟩

end

/-- What a store of a part leaves: its bytes, and its write at the end of the coherence order, for its core's gather buffer. -/
structure State.Stores (s s' : State) (a : Access) (t : Thread) (pa : Nat) (bs : List Byte) (r : WriteRec) : Prop where
  unmoved : s.Unmoved s'
  bytes : ∀ x, s'.ms.mem.read x = if pa ≤ x ∧ x < pa + bs.length then bs.getD (x - pa) 0 else s.ms.mem.read x
  vault : s'.ms.vault = s.ms.vault
  adds : s.Adds s' t.who a.id a.relScope (cellsAt pa bs) [.core t.place.core] r
  observed : ∃ y, s'.thread t.id = some y ∧ r.id ∈ y.obs
  gathered : ∃ home, (⟨t.place.core, r.id, home⟩ : Gathered) ∈ s'.co.gather
  next : s'.nextId = s.nextId + 1

theorem State.stores_wrote {s : State} {t : Thread} (ht : s.thread t.id = some t) (hm : s.ms.mem.wf = true) (a : Access) (k : Nat) (home : Bool) (pa : Nat)
    (bs : List Byte) : ∃ r, s.Stores (s.wrote t.who a k home pa bs).settle a t pa bs r := by
  obtain ⟨r₀, hr₀⟩ := s.adds_commit t.who a.id a.relScope (cellsAt pa bs) [] [.core t.place.core]
  obtain ⟨r, hr, heq⟩ := State.mem_doneAt_writes (s := (s.commitOwn t.who a.id a.relScope (cellsAt pa bs) home).2) hr₀.mem a.id k s.nextId
  obtain ⟨x, hx, hxw⟩ := State.observe_mem (s := (s.commit t.who a.id a.relScope (cellsAt pa bs) [] [.core t.place.core]).2) ht [s.nextId]
  have hid : r.id = s.nextId := by rw [heq]; exact hr₀.id
  obtain ⟨l, hl⟩ := s.wrote_rest t.who a k home pa bs
  have hmoved := (s.unmoved_wrote t.who a k home pa bs).trans (State.unmoved_settle _)
  refine ⟨r, hmoved, ?_, ?_, ?_, ?_, ?_, ?_⟩
  · intro x
    rw [State.settle_ms, hl]
    exact State.commit_cellsAt hm t.who a.id a.relScope pa bs [] [.core t.place.core] x
  · rw [State.settle_ms, hl]
    rfl
  · refine ⟨?_, hid, ?_, ?_, ?_, ?_, fun c hc => ?_⟩
    · rw [State.settle_ms, hl]
      exact hr
    · rw [heq]; exact hr₀.tid
    · rw [heq]; exact hr₀.acc
    · rw [heq]; exact hr₀.rel
    · rw [heq]; exact hr₀.seen
    · rw [heq]; exact hr₀.covers c hc
  · have hthreads : (s.wrote t.who a k home pa bs).thread t.id = some x := by rw [hl]; exact hx
    obtain ⟨y, hy, hxy⟩ := (State.unmoved_settle (s.wrote t.who a k home pa bs)).threads _ x hthreads
    exact ⟨y, hy, hxy.obs _ (hid ▸ hxw _ (.head _))⟩
  · refine ⟨home, ?_⟩
    rw [State.settle_rest, hl, hid]
    exact List.mem_append_right _ (List.mem_singleton.mpr rfl)
  · rw [State.settle_rest, hl]
    rfl

theorem State.CanPerform.store {s : State} {a : Access} {k : Nat} {p : APart} {t : Thread} {pa : Nat} {bs : List Byte} (h : s.CanPerform a k p t pa)
    (hk : a.kind = .store bs) (hm : s.ms.mem.wf = true) : ∃ s' r, exec (.perform a.id k) s = .next s' ∧ s.Stores s' a t pa ((bs.drop p.ofs).take p.len) r := by
  obtain ⟨ps, p', hps, hp', hpp, hperf⟩ := h.performPart
  have hlook := s.looksUp_walked a t
  have hth : (s.found a t ps).thread a.tid = some t := (hlook.thread _).trans h.thread
  have hmem : (s.found a t ps).ms.mem = s.ms.mem := hlook.mem
  have hvault : (s.found a t ps).ms.vault = s.ms.vault := hlook.vault
  have hnext : (s.found a t ps).nextId = s.nextId := hlook.nextId
  obtain ⟨r, hr⟩ := State.stores_wrote (s := s.found a t ps) (h.tid ▸ hth) (hmem ▸ hm) { a with parts := ps } k
    ((s.found a t ps).goesHome t.xl p.ea pa) pa ((bs.drop p.ofs).take p.len)
  refine ⟨_, r, h.exec_perform (by rw [hk]; rfl), ?_⟩
  rw [hperf, State.performGlobal_store (a := { a with parts := ps }) hk, State.whoOf_thread (a := a) hth, hpp]
  refine ⟨(s.unmoved_found a t ps).trans hr.unmoved, fun x => ?_, hr.vault.trans hvault, { hr.adds with id := hr.adds.id.trans hnext }, hr.observed, hr.gathered,
    by rw [hr.next, hnext]⟩
  rw [← hmem]
  exact hr.bytes x

/-- Settles O29: a part of a read performs once its thread has observed what it returned, and a store commits the bytes of its part. -/
theorem loadsAndStoresPerform : Obligations.LoadsAndStoresPerform := by
  unfold Obligations.LoadsAndStoresPerform
  refine ⟨?reads, ?stores⟩
  case reads =>
    intro s a k p t pa d sz sx h hk hlen hfit hprom s1 r bytes bad v ext
    obtain ⟨s', hexec, hreads⟩ : ∃ s', exec (.perform a.id k) s = .next s' ∧ s.Reads s' a k p t d sz.regs (loadWords sz sx) r := by
      rcases hk with hk | hk
      · rw [show r = s1.readAt t.who a.scope pa p.len from if_pos hk]
        exact h.load hk hprom
      · rw [show r = (s1.sampled t.who pa p.len).1 from if_neg (by rw [hk]; exact nofun)]
        exact h.lds hk
    have hr : r.bytes.length = p.len := by
      unfold r
      split <;> exact State.readBy_bytes_length _ _ _ _
    refine ⟨fun hsx hlast => ?_, fun hlast => ?_⟩
    · obtain ⟨hcomes, y, hy, hloads, hwids, hcauses⟩ := hreads.last hlast
      rw [Access.got_loadedWords hr hlen hfit hsx] at hcomes
      rw [Access.got_poisonCauses] at hcauses
      refine ⟨s', y, hexec, hcomes, hreads.bytes, hy, hloads, hwids, hcauses, fun hload i hi => ?_⟩
      rw [show r = s1.readAt t.who a.scope pa p.len from if_pos hload]
      exact State.readAt_bytes hi
    · obtain ⟨hkeeps, b, hb, hdata, hbad, hparts⟩ := hreads.more hlast
      exact ⟨s', b, hexec, hkeeps, hreads.bytes, hb, hdata.trans (Access.got_data hr), hbad, hparts⟩
  case stores =>
    intro s a k p t pa bs h hk hfit hc
    obtain ⟨s', r, hexec, hst⟩ := h.store hk hc.1
    have hlen : ((bs.drop p.ofs).take p.len).length = p.len := by simp; omega
    obtain ⟨y, hy, hobs⟩ := hst.observed
    refine ⟨s', y, r, hexec, hst.unmoved.keeps, fun x => ?_, fun x => by rw [hst.vault], hy, hst.adds.mem,
      hobs, hst.adds.tid, hst.adds.acc, by rw [hst.adds.seen]; exact .head _, ?_, fun i hi => ?_, hst.gathered, by rw [hst.next, hst.adds.id]⟩
    · rw [hst.bytes x, hlen]
      split
      next hx => simp [List.getD_eq_getElem?_getD, show x - pa < p.len by omega]
      next => rfl
    · rw [hst.adds.rel]; rfl
    · exact hst.adds.covers _ (mem_cellsAt (pa := pa) (hlen.symm ▸ hi))

end Sys2Proof.Machine

namespace Sys2Proof.Machine

/-! ## Views take writes (R211 to R213) -/

/-- The largest of what either of two tests selects. -/
theorem listMax_filter_or {α : Type} (f : α → Nat) (p q : α → Bool) (l : List α) :
    listMax ((l.filter fun x => p x || q x).map f) = max (listMax ((l.filter p).map f)) (listMax ((l.filter q).map f)) := by
  induction l with
  | nil => rfl
  | cons x l ih =>
    cases hp : p x <;> cases hq : q x <;> simp [hp, hq, ih, listMax_cons, max_assoc, max_left_comm]

theorem WriteRec.seenAt_take (w : WriteRec) (pts qs : List Point) :
    ({ w with seen := w.seen ++ pts.filter fun p => !w.seen.contains p } : WriteRec).seenAt qs = (w.seenAt qs || pts.any fun p => qs.contains p) := by
  have hiff : ({ w with seen := w.seen ++ pts.filter fun p => !w.seen.contains p } : WriteRec).seenAt qs = true ↔
      (w.seenAt qs || pts.any fun p => qs.contains p) = true := by
    simp only [WriteRec.seenAt, Bool.or_eq_true, List.any_eq_true, List.mem_append, List.mem_filter, Bool.not_eq_true', List.contains_eq_mem,
      decide_eq_true_eq, decide_eq_false_iff_not]
    constructor
    · rintro (h | ⟨p, h | h, hq⟩)
      · exact .inl (.inl h)
      · exact .inl (.inr ⟨p, h, hq⟩)
      · exact .inr ⟨p, h.1, hq⟩
    · rintro ((h | ⟨p, h, hq⟩) | ⟨p, h, hq⟩)
      · exact .inl h
      · exact .inr ⟨p, .inl h, hq⟩
      · by_cases hs : p ∈ w.seen
        · exact .inr ⟨p, .inl hs, hq⟩
        · exact .inr ⟨p, .inr ⟨h, hs⟩, hq⟩
  exact Bool.eq_iff_iff.mpr hiff

/-- What some points hold once points have taken writes: the later of what they held and, where they are among those, of what was taken. -/
theorem State.latest_take (s : State) (pts qs : List Point) (f : WriteRec → Bool) (x : Nat) :
    (s.take pts f).latest qs x = max (s.latest qs x)
      (listMax ((s.ms.writes.filter fun w => w.covers x && (f w && pts.any fun p => qs.contains p)).map WriteRec.id)) := by
  let G : WriteRec → WriteRec := fun w => if f w then { w with seen := w.seen ++ pts.filter fun p => !w.seen.contains p } else w
  have hid : ∀ w, (G w).id = w.id := fun w => by simp only [G]; split <;> rfl
  have hcov : ∀ w, (G w).covers x = w.covers x := fun w => by simp only [G]; split <;> rfl
  have hseen : ∀ w, (G w).seenAt qs = (w.seenAt qs || f w && pts.any fun p => qs.contains p) := fun w => by
    simp only [G]
    split
    next h => rw [h, Bool.true_and, WriteRec.seenAt_take]
    next h => simp [h]
  rw [State.latest, State.latest, ← listMax_filter_or]
  show listMax (((s.ms.writes.map G).filter fun w => w.covers x && w.seenAt qs).map WriteRec.id) = _
  rw [List.filter_map, List.map_map, show WriteRec.id ∘ G = WriteRec.id from funext hid]
  refine congrArg (fun l => listMax (l.map WriteRec.id)) (List.filter_congr fun w _ => ?_)
  simp only [Function.comp_apply, hcov, hseen, Bool.and_or_distrib_left]

theorem State.latest_le_take (s : State) (pts qs : List Point) (f : WriteRec → Bool) (x : Nat) : s.latest qs x ≤ (s.take pts f).latest qs x := by
  rw [s.latest_take]
  exact le_max_left _ _

/-- A point that has taken what others have seen holds what they hold. -/
theorem State.latest_take_seen (s : State) {pts qs : List Point} {p : Point} (hp : p ∈ pts) (hq : p ∈ qs) (x : Nat) :
    (s.take pts fun w => w.seenAt qs).latest [p] x = s.latest qs x := by
  have hany : (pts.any fun r => [p].contains r) = true := List.any_eq_true.mpr ⟨p, hp, by simp⟩
  have hseen : ∀ w : WriteRec, (w.seenAt [p] || w.seenAt qs) = w.seenAt qs := fun w => by
    have : w.seenAt [p] = true → w.seenAt qs = true := by
      simp only [WriteRec.seenAt, Bool.or_eq_true, List.any_eq_true, List.contains_eq_mem, List.mem_singleton, decide_eq_true_eq]
      rintro (h | ⟨r, hr, rfl⟩)
      · exact .inl h
      · exact .inr ⟨r, hr, hq⟩
    cases h : w.seenAt [p] <;> simp_all
  rw [s.latest_take, State.latest, ← listMax_filter_or, State.latest]
  refine congrArg (fun l => listMax (l.map WriteRec.id)) (List.filter_congr fun w _ => ?_)
  rw [← Bool.and_or_distrib_left, hany, Bool.and_true, hseen]

/-- R212: after Refresh at a scope, a core point holds what its party's points held up to that scope. -/
theorem State.latest_refresh_core (s : State) (w : Who) (sc : Scope) (x : Nat) : (s.refresh w sc).latest [.core w.core] x = s.latest (w.upTo sc) x := by
  cases sc with
  | core => rfl
  | cluster => exact s.latest_take_seen (by simp) (by simp [Who.upTo]) x
  | die => exact s.latest_take_seen (by simp) (by simp [Who.upTo]) x
  | system => exact s.latest_take_seen (by simp) (by simp [Who.upTo]) x

theorem State.latest_refresh_cluster (s : State) (w : Who) {sc : Scope} (hsc : sc = .die ∨ sc = .system) (x : Nat) :
    (s.refresh w sc).latest [w.clp] x = s.latest (w.upTo sc) x := by
  rcases hsc with rfl | rfl
  · exact s.latest_take_seen (by simp) (by simp [Who.upTo]) x
  · exact s.latest_take_seen (by simp) (by simp [Who.upTo]) x

theorem State.latest_le_refresh (s : State) (w : Who) (sc : Scope) (qs : List Point) (x : Nat) : s.latest qs x ≤ (s.refresh w sc).latest qs x := by
  cases sc with
  | core => exact le_rfl
  | cluster => exact s.latest_le_take ..
  | die => exact s.latest_le_take ..
  | system => exact s.latest_le_take ..

theorem State.latest_congr {s s' : State} (h : s'.ms.writes = s.ms.writes) (qs : List Point) (x : Nat) : s'.latest qs x = s.latest qs x := by
  rw [State.latest, h, State.latest]

/-- R213: a point takes one write. -/
theorem State.latest_propagated (s : State) (w : Nat) (pt p : Point) (x : Nat) :
    (s.take [pt] fun r => r.id == w).latest [p] x =
      if p = pt ∧ ∃ r ∈ s.ms.writes, r.id = w ∧ r.covers x = true then max (s.latest [p] x) w else s.latest [p] x := by
  rw [s.latest_take]
  let l := (s.ms.writes.filter fun r => r.covers x && (r.id == w && [pt].any fun q => [p].contains q)).map WriteRec.id
  have hmem : ∀ y, y ∈ l ↔ (p = pt ∧ ∃ r ∈ s.ms.writes, r.id = w ∧ r.covers x = true) ∧ y = w := fun y => by
    simp only [l, List.mem_map, List.mem_filter, Bool.and_eq_true, beq_iff_eq, List.any_cons, List.any_nil, Bool.or_false, List.contains_eq_mem,
      List.mem_singleton, decide_eq_true_eq]
    constructor
    · rintro ⟨r, ⟨hr, hc, hid, hp⟩, rfl⟩
      exact ⟨⟨hp.symm, r, hr, hid, hc⟩, hid⟩
    · rintro ⟨⟨hp, r, hr, hid, hc⟩, rfl⟩
      exact ⟨r, ⟨hr, hc, hid, hp.symm⟩, hid⟩
  show max (s.latest [p] x) (listMax l) = _
  split
  next h =>
    rw [listMax_of_forall_eq (List.ne_nil_of_mem ((hmem w).mpr ⟨h, rfl⟩)) fun y hy => ((hmem y).mp hy).2]
  next h =>
    rw [List.eq_nil_iff_forall_not_mem.mpr fun y hy => h ((hmem y).mp hy).1]
    exact max_eq_left (Nat.zero_le _)

/-- The first part of O31: PROPAGATE. -/
theorem State.propagate_view (s : State) (w : Nat) (pt : Point) : ∃ s', exec (.propagate w pt) s = .next s' ∧ s.Keeps s' ∧ s.KeepsBytes s' ∧
    ∀ p x, s'.latest [p] x = if p = pt ∧ ∃ r ∈ s.ms.writes, r.id = w ∧ r.covers x = true then max (s.latest [p] x) w else s.latest [p] x := by
  let s₁ := s.take [pt] fun r => r.id == w
  have hmoved : s.Unmoved s₁ := .of_wk rfl
  refine ⟨s₁.settle, rfl, (hmoved.trans s₁.unmoved_settle).keeps, fun x => ?_, fun p x => ?_⟩
  · rw [State.settle_ms]
    exact ⟨rfl, rfl⟩
  · rw [State.latest_congr (s := s₁) (by rw [State.settle_ms])]
    exact s.latest_propagated w pt p x

/-! ## The sampler view (R224, R452) -/

section
variable {l : List (CoreId × Nat × Nat)} {keep : CoreId × Nat × Nat → Bool} {c core : CoreId} {x : Nat} {xs : List Nat} {v : Nat → Nat}

/-- A view with new entries for some bytes of a core, at one of these bytes. -/
theorem view_renewed (hkeep : ∀ e : CoreId × Nat × Nat, e.1 = core → e.2.1 = x → keep e = false) (hx : x ∈ xs) :
    ((((l.filter keep) ++ (xs.map fun y => (core, y, v y)).filter fun e => e.2.2 != 0).find? fun e => e.1 == core && e.2.1 == x).map fun e => e.2.2).getD 0 = v x := by
  have hold : (l.filter keep).find? (fun e => e.1 == core && e.2.1 == x) = none := List.find?_eq_none.mpr fun e he hek => by
    rw [Bool.and_eq_true, beq_iff_eq, beq_iff_eq] at hek
    have := hkeep e hek.1 hek.2
    rw [(List.mem_filter.mp he).2] at this
    cases this
  rw [List.find?_append, hold, Option.none_or]
  cases hv : ((xs.map fun y => (core, y, v y)).filter fun e => e.2.2 != 0).find? fun e => e.1 == core && e.2.1 == x with
  | some e =>
    obtain ⟨⟨y, -, rfl⟩, -⟩ := List.mem_filter.mp (List.mem_of_find?_eq_some hv) |>.imp_left List.mem_map.mp
    have hy : y = x := by simpa using List.find?_some hv
    rw [hy]
    rfl
  | none =>
    by_contra hne
    exact absurd (List.find?_eq_none.mp hv (core, x, v x) (List.mem_filter.mpr ⟨List.mem_map.mpr ⟨x, hx, rfl⟩, by simpa using Ne.symm hne⟩)) (by simp)

/-- A view with new entries, at any other byte. -/
theorem view_kept (hkeep : ∀ e : CoreId × Nat × Nat, e.1 = c → e.2.1 = x → keep e = true) (hx : ¬ (c = core ∧ x ∈ xs)) :
    (((l.filter keep) ++ (xs.map fun y => (core, y, v y)).filter fun e => e.2.2 != 0).find? fun e => e.1 == c && e.2.1 == x) =
      l.find? fun e => e.1 == c && e.2.1 == x := by
  have hnew : ((xs.map fun y => (core, y, v y)).filter fun e => e.2.2 != 0).find? (fun e => e.1 == c && e.2.1 == x) = none :=
    List.find?_eq_none.mpr fun e he hek => by
      obtain ⟨y, hy, rfl⟩ := List.mem_map.mp (List.mem_filter.mp he).1
      rw [Bool.and_eq_true, beq_iff_eq, beq_iff_eq] at hek
      exact hx ⟨hek.1.symm, hek.2 ▸ hy⟩
  rw [List.find?_append, hnew, Option.or_none, List.find?_filter]
  refine List.find?_congr fun e _ => ?_
  cases hk : (e.1 == c && e.2.1 == x) with
  | false => simp
  | true =>
    rw [Bool.and_eq_true, beq_iff_eq, beq_iff_eq] at hk
    simp [hkeep e hk.1 hk.2]

end

/-- A line of 128 bytes. -/
theorem mem_lineBytes {line x : Nat} : x ∈ (List.range 128).map (128 * line + ·) ↔ x / 128 = line := by
  simp only [List.mem_map, List.mem_range]
  constructor
  · rintro ⟨i, hi, rfl⟩
    omega
  · intro h
    exact ⟨x - 128 * line, by omega, by omega⟩

theorem State.samplerView_putLine (s : State) (w : Who) (line : Nat) (c : CoreId) (x : Nat) : (s.putLine w line).samplerView c x =
    if c = w.core ∧ x / 128 = line then max (s.samplerView c x) (s.latest (w.upTo .die) x) else s.samplerView c x := by
  split
  next h =>
    obtain ⟨rfl, hx⟩ := h
    exact view_renewed (fun e h₁ h₂ => by simp [h₁, h₂, hx]) (mem_lineBytes.mpr hx)
  next h =>
    refine congrArg (fun o : Option (CoreId × Nat × Nat) => (o.map fun e => e.2.2).getD 0) (view_kept (fun e h₁ h₂ => ?_) fun hx => h ⟨hx.1, mem_lineBytes.mp hx.2⟩)
    rw [Bool.not_eq_true', Bool.and_eq_false_iff]
    by_cases hc : e.1 = w.core
    · exact .inr (beq_false_of_ne fun hl => h ⟨h₁.symm.trans hc, h₂ ▸ hl⟩)
    · exact .inl (beq_false_of_ne hc)

/-- A fill by a prefetch finds room (R452). -/
def State.roomFor (s : State) (c : CoreId) (line : Nat) : Prop :=
  s.ms.smpLines.contains (c, line) = true ∨ (s.ms.smpLines.filter fun l => l.1 == c).length < 512 ∨ ∃ l ∈ s.ms.smpLines, l.1 = c ∧ l ∉ s.ms.smpUsed

/-- A fill by a prefetch that finds room. -/
theorem State.fillLine_room {s : State} {w : Who} {line : Nat} (h : s.roomFor w.core line) :
    (w.core, line) ∈ (s.fillLine w line false).ms.smpLines ∧ ∀ c x, (s.fillLine w line false).samplerView c x =
      if c = w.core ∧ x / 128 = line ∧ s.ms.smpLines.contains (c, x / 128) = false then max (s.samplerView c x) (s.latest (w.upTo .die) x)
      else s.samplerView c x := by
  unfold State.fillLine
  simp only [Bool.false_and, Bool.false_eq_true, if_false]
  by_cases hheld : s.ms.smpLines.contains (w.core, line) = true
  · rw [if_pos hheld]
    refine ⟨by simpa using hheld, fun c x => (if_neg ?_).symm⟩
    rintro ⟨rfl, hx, hno⟩
    rw [hx, hheld] at hno
    cases hno
  · rw [if_neg hheld]
    have hcond : ∀ c x, (c = w.core ∧ x / 128 = line) ↔ (c = w.core ∧ x / 128 = line ∧ s.ms.smpLines.contains (c, x / 128) = false) := fun c x =>
      ⟨fun ⟨h₁, h₂⟩ => ⟨h₁, h₂, by rw [h₁, h₂]; simpa using hheld⟩, fun ⟨h₁, h₂, _⟩ => ⟨h₁, h₂⟩⟩
    have hput : ∀ s₁ : State, s₁.ms.smp = s.ms.smp → s₁.ms.writes = s.ms.writes → (w.core, line) ∈ (s₁.putLine w line).ms.smpLines ∧ ∀ c x,
        (s₁.putLine w line).samplerView c x =
          if c = w.core ∧ x / 128 = line ∧ s.ms.smpLines.contains (c, x / 128) = false then max (s.samplerView c x) (s.latest (w.upTo .die) x)
          else s.samplerView c x := fun s₁ hsmp hwr => by
      refine ⟨List.mem_append_right _ (List.mem_singleton.mpr rfl), fun c x => ?_⟩
      have hview : s₁.samplerView c x = s.samplerView c x := by rw [State.samplerView, hsmp, State.samplerView]
      rw [s₁.samplerView_putLine, hview, State.latest_congr hwr]
      exact if_congr (hcond c x) rfl rfl
    by_cases hfull : (s.ms.smpLines.filter fun l => l.1 == w.core).length < 512
    · rw [if_pos (by simpa using hfull)]
      exact hput s rfl rfl
    · rw [if_neg (by simpa using hfull)]
      obtain ⟨l, hl, hlc, hlu⟩ := (h.resolve_left hheld).resolve_left hfull
      obtain ⟨l', hl'⟩ : ∃ l', s.smpVictim w.core false = some l' := by
        unfold State.smpVictim
        cases hf : s.ms.smpLines.find? fun l => l.1 == w.core && !s.ms.smpUsed.contains l with
        | some l' => exact ⟨l', rfl⟩
        | none => exact absurd (List.find?_eq_none.mp hf l hl) (by simp [hlc, hlu])
      rw [hl']
      exact hput (s.dropLine l') rfl rfl

/-- An access that has been taken out is gone. -/
theorem State.access_filtered (s : State) (k : Nat) : (s.onAccs fun l => l.filter fun b => b.id != k).access k = none :=
  List.find?_eq_none.mpr fun b hb => by simpa using (List.mem_filter.mp hb).2

/-- ADVANCE of a prefetch that can be made. -/
theorem exec_advance {s : State} {n : Nat} {a : Access} {t : Thread} {p : APart} {l : List APart} {pa : Nat}
    (ha : (s.ms.accs.filter fun a => a.kind == .pref)[n]? = some a) (ht : s.thread a.tid = some t) (hp : a.parts = p :: l)
    (htr : s.translate t.xl .read p.ea = .ok pa) (hlost : s.lost pa = 0) (hcut : s.linkCut pa = false) :
    exec (.advance n) s = .next (((s.fillTlb t.xl p.ea).fillLine t.who (pa / 128) false).onAccs fun l => l.filter fun b => b.id != a.id) := by
  have hxl : s.xlOf a = some t.xl := by rw [State.xlOf, ht]; rfl
  rw [← State.fillLine_onAccs, ← State.fillTlb_onAccs]
  show execAdvance n s = _
  simp only [execAdvance, ha, hxl, hp, List.head?_cons, htr, hlost, hcut, State.whoOf_thread ht]
  rfl

/-- The second part of O31: ADVANCE. -/
theorem State.advance_fills {s : State} {n : Nat} {a : Access} {t : Thread} {p : APart} {l : List APart} {pa : Nat}
    (ha : (s.ms.accs.filter fun a => a.kind == .pref)[n]? = some a) (ht : s.thread a.tid = some t) (hp : a.parts = p :: l)
    (htr : s.translate t.xl .read p.ea = .ok pa) (hlost : s.lost pa = 0) (hcut : s.linkCut pa = false) (hroom : s.roomFor t.place.core (pa / 128)) :
    ∃ s', exec (.advance n) s = .next s' ∧ s.Keeps s' ∧ s.KeepsBytes s' ∧ s'.access a.id = none ∧ (t.place.core, pa / 128) ∈ s'.ms.smpLines ∧
      ∀ c x, s'.samplerView c x = if c = t.place.core ∧ x / 128 = pa / 128 ∧ s.ms.smpLines.contains (c, x / 128) = false
        then max (s.samplerView c x) ((s.fillTlb t.xl p.ea).latest (t.who.upTo .die) x) else s.samplerView c x := by
  have hfill := s.looksUp_fillTlb t.xl p.ea
  have hlines : (s.fillTlb t.xl p.ea).ms.smpLines = s.ms.smpLines := by rw [hfill]; rfl
  have hused : (s.fillTlb t.xl p.ea).ms.smpUsed = s.ms.smpUsed := by rw [hfill]; rfl
  have hsmp : (s.fillTlb t.xl p.ea).ms.smp = s.ms.smp := by rw [hfill]; rfl
  have hobs := (State.Observes.of_looksUp hfill).trans ((s.fillTlb t.xl p.ea).observes_fillLine t.who (pa / 128) false)
  obtain ⟨hline, hview⟩ := State.fillLine_room (s := s.fillTlb t.xl p.ea) (w := t.who) (line := pa / 128) (by
    unfold State.roomFor
    rw [hlines, hused]
    exact hroom)
  have hdrop : ((s.fillTlb t.xl p.ea).fillLine t.who (pa / 128) false).Unmoved
      (((s.fillTlb t.xl p.ea).fillLine t.who (pa / 128) false).onAccs fun l => l.filter fun b => b.id != a.id) := .of_wk rfl
  refine ⟨_, exec_advance ha ht hp htr hlost hcut, (hobs.unmoved.trans hdrop).keeps, fun x => ?_, State.access_filtered _ _, hline, fun c x => ?_⟩
  · exact ⟨congrArg (Memory.read · x) hobs.mem, congrArg (Memory.read · x) hobs.vault⟩
  · have hv := hview c x
    have hold : (s.fillTlb t.xl p.ea).samplerView c x = s.samplerView c x := by rw [State.samplerView, hsmp, State.samplerView]
    rw [hlines, hold] at hv
    exact hv

/-- The third part of O31: the completion of FSAMP. -/
theorem State.fsamp_completes {s : State} {t : Thread} {sc : Scope} {bound : Nat} {l : List (Scope × Nat)} (ht : s.thread t.id = some t)
    (hl : t.out.fsamp = (sc, bound) :: l)
    (hdone : ∀ a ∈ s.ms.accs, a.tid = t.id → a.id < bound → a.reads = true → ∀ q ∈ a.parts, q.done = true) :
    ∃ s' y, exec (.fsampComplete t.id) s = .next s' ∧ s.Keeps s' ∧ s.KeepsBytes s' ∧ s'.thread t.id = some y ∧ y.out.fsamp = l ∧
      (∀ line, (t.place.core, line) ∉ s'.ms.smpLines) ∧
      ∀ c x, (∃ r ∈ s.ms.writes, r.covers x = true) → s'.samplerView c x =
        if c = t.place.core then max (s.samplerView c x) (s.latest (t.who.upTo sc) x) else s.samplerView c x := by
  have hopen : (s.ms.accs.any fun a => a.tid == t.id && decide (a.id < bound) && a.reads && !a.performed) = false :=
    List.any_eq_false.mpr fun a ha h => by
      simp only [Bool.and_eq_true, beq_iff_eq, decide_eq_true_eq, Bool.not_eq_true'] at h
      obtain ⟨⟨⟨h₁, h₂⟩, h₃⟩, h₄⟩ := h
      rw [Access.performed_iff.mpr (hdone a ha h₁ h₂ h₃)] at h₄
      cases h₄
  let F : Thread → Thread := fun x => { x with out := { x.out with fsamp := l } }
  let xs := (s.ms.writes.flatMap fun r => r.cells.map Prod.fst).eraseDups
  have hexec : exec (.fsampComplete t.id) s = .next ((s.onThread t.id F).onMs fun m => { m with
      smp := (m.smp.filter fun e => e.1 != t.who.core) ++ (xs.map fun x =>
        (t.who.core, x, Nat.max (s.samplerView t.who.core x) (s.latest (t.who.upTo sc) x))).filter fun e => e.2.2 != 0
      smpLines := m.smpLines.filter fun l => l.1 != t.who.core
      smpUsed := m.smpUsed.filter fun l => l.1 != t.who.core }) := by
    show execFsampComplete t.id s = _
    simp only [execFsampComplete, ht, hl, hopen]
    rfl
  refine ⟨_, F t, hexec, ⟨fun u x hx => ?_, fun g r _ => rfl⟩, fun x => ⟨rfl, rfl⟩, State.thread_onThread_self ht F fun _ => id, rfl, fun line h => ?_, fun c x hx => ?_⟩
  · refine ⟨if u = t.id then F x else x, ?_, ?_⟩
    · refine (State.thread_onThread s t.id u F fun _ => id).trans ?_
      rw [hx]
      rfl
    · split <;> exact ⟨rfl, rfl, rfl, rfl, rfl, rfl, rfl, rfl, rfl⟩
  · simpa [Thread.who] using (List.mem_filter.mp h).2
  · have hmem : x ∈ xs := by
      obtain ⟨r, hr, hc⟩ := hx
      obtain ⟨e, he, hex⟩ := List.any_eq_true.mp hc
      exact List.mem_eraseDups.mpr (List.mem_flatMap.mpr ⟨r, hr, List.mem_map.mpr ⟨e, he, beq_iff_eq.mp hex⟩⟩)
    split
    next h =>
      subst h
      exact view_renewed (fun e h₁ _ => by simp [h₁, Thread.who]) hmem
    next h =>
      exact congrArg (fun o : Option (CoreId × Nat × Nat) => (o.map fun e => e.2.2).getD 0)
        (view_kept (keep := fun e => e.1 != t.who.core) (fun e h₁ _ => bne_iff_ne.mpr fun hc => h (h₁.symm.trans hc)) fun hc => h hc.1)

end Sys2Proof.Machine

namespace Sys2Proof.Machine

/-! ## Fences complete (R219, R220) -/

theorem Fence.covers_iff {f : Fence} {a : Access} : f.covers a = true ↔ a.tid = f.tid ∧ a.id < f.bound ∧
    (f.cover = .all ∨ (f.cover = .reads ∧ a.reads = true) ∨ (f.cover = .writes ∧ a.writes = true)) := by
  unfold Fence.covers
  cases f.cover <;> simp [and_assoc]

section
variable {s : State} {t : Thread} {f : Fence}

/-- R219: a fence is ready once what it covers has performed, and what it has observed and written is visible at its scope. -/
theorem State.fenceReady_of (hwait : t.wait = .fence f.id) (hf : (s.ms.fences.find? fun g => g.id == f.id) = some f)
    (haccs : ∀ a ∈ s.ms.accs, f.covers a = true → a.silent = true ∨ a.performed = true)
    (hvis : ∀ r ∈ s.ms.writes,
      (r.id ∈ f.obs ∨ ∃ q ∈ s.ms.writes, q.id = r.id ∧ q.tid = f.tid ∧ q.acc ≠ 0 ∧ q.acc < f.bound ∧ f.cover ≠ .reads) →
        ∀ p ∈ s.performedAt t.who f.scope, s.visibleAt r p = true) :
    s.fenceReady t = some f := by
  have hall : (s.ms.accs.all fun a => a.silent || !f.covers a || a.performed) = true := List.all_eq_true.mpr fun a ha => by
    cases hc : f.covers a with
    | false => simp
    | true => simpa using haccs a ha hc
  have hseen : s.visible (f.obs ++ (s.ms.writes.filter fun w => w.tid == f.tid && w.acc != 0 && decide (w.acc < f.bound) && f.cover != .reads).map WriteRec.id)
      (s.performedAt t.who f.scope) = true := State.visible_iff.mpr fun r hr hid => hvis r hr <| by
    simpa [and_assoc, and_comm, and_left_comm] using hid
  simp only [State.fenceReady, hwait, hf, hall, hseen]
  rfl

/-- The wait of a thread at a fence ends with Refresh. -/
structure State.EndsFence (s s' : State) (t : Thread) (f : Fence) : Prop where
  bytes : s.KeepsBytes s'
  others : ∀ u, u ≠ t.id → s'.thread u = s.thread u
  self : s'.thread t.id = some { t with wait := .none }
  gone : ∀ g ∈ s'.ms.fences, g.id ≠ f.id
  core : ∀ x, s'.latest [.core t.place.core] x = s.latest (t.who.upTo f.scope) x
  cluster : (f.scope = .die ∨ f.scope = .system) → ∀ x, s'.latest [t.place.clp] x = s.latest (t.who.upTo f.scope) x

theorem State.endsFence_endFence (ht : s.thread t.id = some t) (f : Fence) : s.EndsFence (s.endFence t f) t f := by
  have hlook := s.looksUp_refresh t.who f.scope
  have hself : (s.refresh t.who f.scope).thread t.id = some t := (hlook.thread _).trans ht
  refine ⟨fun x => ⟨congrArg (Memory.read · x) hlook.mem, congrArg (Memory.read · x) hlook.vault⟩, fun u hu => ?_, ?_, fun g hg => ?_, ?_, ?_⟩
  · exact (State.thread_onThread_ne _ hu (fun x => { x with wait := .none }) fun _ => id).trans (hlook.thread u)
  · exact State.thread_onThread_self hself (fun x => { x with wait := .none }) fun _ => id
  · simpa using (List.mem_filter.mp hg).2
  · exact s.latest_refresh_core t.who f.scope
  · exact s.latest_refresh_cluster t.who

/-- The fourth part of O31: the completion of a fence, and the SC step. -/
theorem State.fence_completes (ht : s.thread t.id = some t) (hready : s.fenceReady t = some f) :
    (f.sc = false → ∃ s', exec (.fwaitComplete t.id) s = .next s' ∧ s.EndsFence s' t f ∧ s'.ms.scOrder = s.ms.scOrder) ∧
    (f.sc = true → (∀ r ∈ s.ms.writes, r.id ∈ t.obs → ∀ p ∈ s.performedAt t.who .system, s.visibleAt r p = true) →
      ∃ s', exec (.scStep t.id) s = .next s' ∧ s.EndsFence s' t f ∧ s'.ms.scOrder = s.ms.scOrder ++ [f.id]) := by
  have hend := State.endsFence_endFence ht f
  have horder : (s.endFence t f).ms.scOrder = s.ms.scOrder := by
    have : (s.refresh t.who f.scope).ms.scOrder = s.ms.scOrder := by rw [s.looksUp_refresh t.who f.scope]; rfl
    exact this
  refine ⟨fun hsc => ⟨_, ?_, hend, horder⟩, fun hsc hvis =>
    ⟨(s.endFence t f).onMs fun m => { m with scOrder := m.scOrder ++ [f.id] }, ?_, ⟨hend.bytes, hend.others, hend.self, hend.gone, hend.core, hend.cluster⟩,
      congrArg (· ++ [f.id]) horder⟩⟩
  · show execFwaitComplete t.id s = _
    simp only [execFwaitComplete, ht, hready, hsc]
    rfl
  · show execScStep t.id s = _
    simp only [execScStep, ht, hready, hsc, State.visible_iff.mpr hvis]
    rfl

end

/-! ## Barriers complete (R221, R362, R363, R365) -/

/-- The arrival of a thread at the phase that a barrier is at. -/
def State.arrivalAt (s : State) (r : BarRef) (t : Thread) : Option BarArrival :=
  (s.wk.bars.filter fun a => a.bar == r && a.n == s.phaseOf r).find? fun a => a.tid == t.id

/-- Participants of a barrier whose observed sets join: all but those that arrived inactive. -/
def State.joiners (s : State) (r : BarRef) : List Thread :=
  (s.participants r).filter fun t => ((s.arrivalAt r t).map BarArrival.active).getD true

theorem State.mem_joiners {s : State} {r : BarRef} {t : Thread} :
    t ∈ s.joiners r ↔ t ∈ s.participants r ∧ ∀ a, s.arrivalAt r t = some a → a.active = true := by
  rw [State.joiners, List.mem_filter]
  cases s.arrivalAt r t <;> simp

theorem State.mem_threads_of_participants {s : State} {r : BarRef} {t : Thread} (h : t ∈ s.participants r) : t ∈ s.wk.threads := by
  cases r <;> exact (List.mem_filter.mp h).1

/-- Threads observe, and refresh at a scope. -/
def State.joined (s : State) (sc : Scope) (ids : List Nat) (l : List Thread) : State := l.foldl (fun s t => (s.observe t.id ids).refresh t.who sc) s

/-- What joining leaves of a thread: it has observed what it is given, where it is among those that join. -/
structure Thread.Joins (x y : Thread) (ids : List Nat) (among : Prop) : Prop where
  rest : y = { x with obs := y.obs }
  obs : ∀ w ∈ x.obs, w ∈ y.obs
  took : among → ∀ w ∈ ids, w ∈ y.obs
  kept : ¬ among → y.obs = x.obs

theorem State.looksUp_joined_step (s : State) (t : Thread) (sc : Scope) (ids : List Nat) :
    (s.observe t.id ids).LooksUp ((s.observe t.id ids).refresh t.who sc) := State.looksUp_refresh _ _ _

theorem State.thread_joined {s : State} (sc : Scope) (ids : List Nat) (l : List Thread) {u : Nat} {x : Thread} (hx : s.thread u = some x) :
    ∃ y, (s.joined sc ids l).thread u = some y ∧ x.Joins y ids (u ∈ l.map Thread.id) := by
  induction l generalizing s x with
  | nil => exact ⟨x, hx, rfl, fun _ => id, by simp, fun _ => rfl⟩
  | cons t l ih =>
    let F : Thread → Thread := fun x => { x with obs := x.obs ++ ids.filter fun i => !x.obs.contains i }
    have hstep : ((s.observe t.id ids).refresh t.who sc).thread u = some (if u = t.id then F x else x) := by
      refine ((s.looksUp_joined_step t sc ids).thread u).trans ((State.thread_onThread s t.id u F fun _ => id).trans ?_)
      rw [hx]
      rfl
    obtain ⟨y, hy, hj⟩ := ih hstep
    refine ⟨y, hy, ?_, fun w hw => hj.obs w ?_, fun hu w hw => ?_, fun hu => ?_⟩
    · rw [hj.rest]
      split <;> rfl
    · split
      · exact List.mem_append_left _ hw
      · exact hw
    · rw [List.map_cons, List.mem_cons] at hu
      by_cases hl : u ∈ l.map Thread.id
      · exact hj.took hl w hw
      · refine hj.obs w ?_
        rw [if_pos (hu.resolve_right hl)]
        by_cases hwx : w ∈ x.obs
        · exact List.mem_append_left _ hwx
        · exact List.mem_append_right _ (List.mem_filter.mpr ⟨hw, by simpa using hwx⟩)
    · rw [List.map_cons, List.mem_cons, not_or] at hu
      rw [hj.kept hu.2, if_neg hu.1]

theorem State.latest_le_joined (s : State) (sc : Scope) (ids : List Nat) (l : List Thread) (qs : List Point) (x : Nat) :
    s.latest qs x ≤ (s.joined sc ids l).latest qs x := by
  induction l generalizing s with
  | nil => exact le_rfl
  | cons t l ih => exact ((s.observe t.id ids).latest_le_refresh t.who sc qs x).trans (ih _)

/-- Who has joined has taken Refresh. -/
theorem State.latest_joined (s : State) (sc : Scope) (ids : List Nat) {l : List Thread} {t : Thread} (h : t ∈ l) (x : Nat) :
    s.latest (t.who.upTo sc) x ≤ (s.joined sc ids l).latest [.core t.place.core] x := by
  induction l generalizing s with
  | nil => cases h
  | cons u l ih =>
    rcases List.mem_cons.mp h with rfl | h
    · refine le_trans (le_of_eq ?_) (State.latest_le_joined _ sc ids l _ x)
      exact ((s.observe t.id ids).latest_refresh_core t.who sc x).symm
    · exact ((s.observe u.id ids).latest_le_refresh u.who sc _ x).trans (ih _ h)

theorem State.joined_rest (s : State) (sc : Scope) (ids : List Nat) (l : List Thread) : (s.joined sc ids l).ms.mem = s.ms.mem ∧
    (s.joined sc ids l).ms.vault = s.ms.vault ∧ (s.joined sc ids l).wk = { s.wk with threads := (s.joined sc ids l).wk.threads } := by
  induction l generalizing s with
  | nil => exact ⟨rfl, rfl, rfl⟩
  | cons t l ih =>
    have hstep := s.looksUp_joined_step t sc ids
    obtain ⟨hmem, hvault, hwk⟩ := ih ((s.observe t.id ids).refresh t.who sc)
    refine ⟨hmem.trans hstep.mem, hvault.trans hstep.vault, hwk.trans ?_⟩
    rw [hstep.wk]
    rfl

/-- The waits of listed threads end. -/
theorem State.thread_woken (s : State) (l : List Thread) (u : Nat) : (l.foldl (fun s t => s.wake t.id) s).thread u =
    (s.thread u).map fun x => if u ∈ l.map Thread.id then { x with wait := .none } else x := by
  induction l generalizing s with
  | nil => simp
  | cons t l ih =>
    rw [List.foldl_cons, ih]
    refine (congrArg _ (State.thread_onThread s t.id u (fun x => { x with wait := .none }) fun _ => id)).trans ?_
    rw [Option.map_map]
    refine congrArg (Option.map · _) (funext fun x => ?_)
    simp only [Function.comp_apply, List.map_cons, List.mem_cons]
    by_cases ht : u = t.id
    · simp only [ht, true_or, if_true]
      split <;> rfl
    · simp only [ht, false_or, if_false]

theorem State.woken_rest (s : State) (l : List Thread) : l.foldl (fun s t => s.wake t.id) s =
    { s with wk := { s.wk with threads := (l.foldl (fun s t => s.wake t.id) s).wk.threads } } := by
  induction l generalizing s with
  | nil => rfl
  | cons t l ih => rw [List.foldl_cons, ih]; rfl

/-- The state once those at a barrier have joined. -/
def State.met (s : State) (r : BarRef) : State := s.joined (barScope r) ((s.joiners r).flatMap Thread.obs).eraseDups (s.joiners r)

theorem State.met_rest (s : State) (r : BarRef) : (s.met r).ms.mem = s.ms.mem ∧ (s.met r).ms.vault = s.ms.vault ∧
    (s.met r).wk = { s.wk with threads := (s.met r).wk.threads } := s.joined_rest ..

/-- The state once the phase of a barrier has completed, but for the waits. -/
def State.phased (s : State) (r : BarRef) : State :=
  ((s.met r).countPhase r).onWk fun w =>
    { w with bars := w.bars.filter fun a => !(a.bar == r && a.n == s.phaseOf r) }

theorem State.phased_thread (s : State) (r : BarRef) (u : Nat) :
    (s.phased r).thread u = (s.met r).thread u := by
  unfold State.phased State.countPhase
  cases r <;> rfl

theorem State.phased_ms (s : State) (r : BarRef) :
    (s.phased r).ms = (s.met r).ms := by
  unfold State.phased State.countPhase
  cases r <;> rfl

/-- BARRIER where everyone has arrived or exited, and what R221 asks holds. -/
theorem exec_barrier {s : State} {r : BarRef} (harr : (s.wk.bars.filter fun a => a.bar == r && a.n == s.phaseOf r) ≠ [])
    (hall : ∀ t ∈ s.participants r, (s.arrivalAt r t = none → t.exited = true) ∧
      ∀ a, s.arrivalAt r t = some a → a.active = true → s.arrivalOk (barScope r) a t = true) :
    exec (.barrier r) s = .next (((s.participants r).filter fun t => t.waitsAt r (s.phaseOf r)).foldl (fun s t => s.wake t.id) (s.phased r)) := by
  have hok : (!(s.wk.bars.filter fun a => a.bar == r && a.n == s.phaseOf r).isEmpty && (s.participants r).all fun t => match s.arrivalAt r t with
      | some a => !a.active || s.arrivalOk (barScope r) a t
      | none => t.exited) = true := by
    rw [Bool.and_eq_true, Bool.not_eq_true', List.isEmpty_eq_false_iff, List.all_eq_true]
    refine ⟨harr, fun t ht => ?_⟩
    obtain ⟨hexit, hact⟩ := hall t ht
    cases ha : s.arrivalAt r t with
    | none => exact hexit ha
    | some a =>
      rw [Bool.or_eq_true, Bool.not_eq_true']
      exact (Bool.eq_false_or_eq_true a.active).symm.imp_right (hact a ha)
  show execBarrier r s = _
  unfold execBarrier
  refine congrArg Host.Outcome.next ?_
  exact if_neg (by rw [Bool.not_eq_true', Bool.not_eq_false]; exact hok)

/-- R221: an arrival whose thread's earlier accesses have performed at the scope of the barrier, with what it had observed. -/
theorem State.arrivalOk_of {s : State} {sc : Scope} {a : BarArrival} {t : Thread}
    (haccs : ∀ x ∈ s.ms.accs, x.tid = t.id → x.id < a.bound → x.silent = true ∨ x.performed = true)
    (hvis : ∀ w ∈ s.ms.writes, (w.id ∈ a.obs ∨ ∃ q ∈ s.ms.writes, q.id = w.id ∧ q.tid = t.id ∧ q.acc ≠ 0 ∧ q.acc < a.bound) →
      ∀ p ∈ s.performedAt t.who sc, s.visibleAt w p = true) : s.arrivalOk sc a t = true := by
  rw [State.arrivalOk, Bool.and_eq_true, List.all_eq_true, State.visible_iff]
  refine ⟨fun x hx => ?_, fun w hw hid => hvis w hw (by simpa [and_assoc, and_comm, and_left_comm] using hid)⟩
  by_cases h : x.tid = t.id ∧ x.id < a.bound
  · rw [Bool.or_eq_true, Bool.or_eq_true]
    exact .inl (haccs x hx h.1 h.2)
  · have hfree : (!(x.tid == t.id && decide (x.id < a.bound))) = true := by simpa [Decidable.imp_iff_not_or] using h
    rw [hfree, Bool.or_true]

theorem phases_bumpPhase (l : List (Nat × Nat)) (b : Nat) : phases (bumpPhase l b) b = phases l b + 1 := by
  conv_lhs => rw [phases, bumpPhase, List.find?_cons_of_pos (by simp)]
  rfl

/-- R362: the phase counts on. -/
theorem State.phased_counts (s : State) (r : BarRef) : match r with
    | .team tm b => ∀ x, s.team tm = some x → ∃ y, (s.phased r).team tm = some y ∧ phases y.tph b = s.phaseOf r + 1
    | .cluster cl b => ∀ x, s.cluster cl = some x → ∃ y, (s.phased r).cluster cl = some y ∧ phases y.cph b = s.phaseOf r + 1 := by
  cases r with
  | team tm b =>
    intro x hx
    obtain ⟨-, -, hwk⟩ := s.met_rest (.team tm b)
    refine ⟨{ x with tph := bumpPhase x.tph b }, ?_, ?_⟩
    · refine (find_map_key Team.id _ tm tm (fun x => { x with tph := bumpPhase x.tph b }) fun _ => id).trans ?_
      rw [show (s.met (.team tm b)).wk.teams = s.wk.teams by rw [hwk]]
      refine (congrArg _ (show (s.wk.teams.find? fun y => y.id == tm) = some x from hx)).trans ?_
      simp
    · rw [phases_bumpPhase, State.phaseOf, hx]
      rfl
  | cluster cl b =>
    intro x hx
    obtain ⟨-, -, hwk⟩ := s.met_rest (.cluster cl b)
    refine ⟨{ x with cph := bumpPhase x.cph b }, ?_, ?_⟩
    · refine (find_map_key Cluster.id _ cl cl (fun x => { x with cph := bumpPhase x.cph b }) fun _ => id).trans ?_
      rw [show (s.met (.cluster cl b)).wk.clusters = s.wk.clusters by rw [hwk]]
      refine (congrArg _ (show (s.wk.clusters.find? fun y => y.id == cl) = some x from hx)).trans ?_
      simp
    · rw [phases_bumpPhase, State.phaseOf, hx]
      rfl

/-- R221: what a completed barrier leaves of a thread. -/
structure Thread.Passes (t y : Thread) (s : State) (r : BarRef) : Prop where
  regs : y.regs = t.regs
  pos : y.pos = t.pos
  mode : y.mode = t.mode
  wait : y.wait = if t ∈ s.participants r ∧ t.waitsAt r (s.phaseOf r) = true then .none else t.wait
  took : t ∈ s.joiners r → ∀ u ∈ s.joiners r, ∀ w ∈ u.obs, w ∈ y.obs
  kept : t ∉ s.joiners r → y.obs = t.obs

section
variable {s : State} (hone : ∀ t ∈ s.wk.threads, s.thread t.id = some t)
include hone

/-- A thread of a list of threads of the state is known by its number. -/
theorem State.mem_map_id {t : Thread} (ht : t ∈ s.wk.threads) {l : List Thread} (hl : ∀ u ∈ l, u ∈ s.wk.threads) : t.id ∈ l.map Thread.id ↔ t ∈ l := by
  refine ⟨fun h => ?_, fun h => List.mem_map.mpr ⟨t, h, rfl⟩⟩
  obtain ⟨u, hu, hid⟩ := List.mem_map.mp h
  have hut := hone u (hl u hu)
  rw [hid, hone t ht] at hut
  exact Option.some.inj hut ▸ hu

theorem State.thread_passes (r : BarRef) {t : Thread} (ht : t ∈ s.wk.threads) :
    ∃ y, (((s.participants r).filter fun t => t.waitsAt r (s.phaseOf r)).foldl (fun s t => s.wake t.id) (s.phased r)).thread t.id = some y ∧ t.Passes y s r := by
  obtain ⟨y, hy, hj⟩ : ∃ y, (s.met r).thread t.id = some y ∧ _ := State.thread_joined (barScope r) _ (s.joiners r) (hone t ht)
  have hjoin := State.mem_map_id hone ht (l := s.joiners r) fun u hu => State.mem_threads_of_participants (State.mem_joiners.mp hu).1
  have hwake := State.mem_map_id hone ht (l := (s.participants r).filter fun t => t.waitsAt r (s.phaseOf r)) fun u hu =>
    State.mem_threads_of_participants (List.mem_filter.mp hu).1
  rw [hjoin] at hj
  rw [List.mem_filter] at hwake
  refine ⟨_, (State.thread_woken _ _ t.id).trans (by rw [s.phased_thread r, hy, Option.map_some]), ?_⟩
  have htook : t ∈ s.joiners r → ∀ u ∈ s.joiners r, ∀ w ∈ u.obs, w ∈ y.obs := fun h u hu w hw =>
    hj.took h w (List.mem_eraseDups.mpr (List.mem_flatMap.mpr ⟨u, hu, hw⟩))
  by_cases hw : t ∈ s.participants r ∧ t.waitsAt r (s.phaseOf r) = true
  · rw [if_pos (hwake.mpr hw)]
    exact ⟨by rw [hj.rest], by rw [hj.rest], by rw [hj.rest], (if_pos hw).symm, htook, hj.kept⟩
  · rw [if_neg (mt hwake.mp hw)]
    exact ⟨by rw [hj.rest], by rw [hj.rest], by rw [hj.rest], by rw [hj.rest, if_neg hw], htook, hj.kept⟩

end

/-- Settles O31: points take what is propagated, lines fill from the points of their thread, fences and barriers end their waits with
Refresh, each where its conditions hold. -/
theorem viewsAndBarriersAdvance : Obligations.ViewsAndBarriersAdvance := by
  unfold Obligations.ViewsAndBarriersAdvance
  refine ⟨⟨?propagate, ?advance, ?fsamp, ?fence⟩, ?barrier⟩
  case propagate =>
    intro s w pt
    obtain ⟨s', hexec, hkeeps, hbytes, hview⟩ := s.propagate_view w pt
    refine ⟨s', hexec, hkeeps, hbytes, fun p x => ⟨fun hp hr => ?_, fun h => ?_⟩⟩
    · rw [hview, if_pos ⟨hp, hr⟩]
    · rw [hview, if_neg h]
  case advance =>
    intro s n a t p l pa ha ht hp htr hlost hcut hroom
    exact State.advance_fills ha ht hp htr hlost hcut hroom
  case fsamp =>
    intro s t sc bound l ht hl hdone
    exact State.fsamp_completes ht hl hdone
  case fence =>
    intro s t f ht hwait hf covered haccs hvis Ends
    have hready := State.fenceReady_of hwait hf (fun a ha hc => (haccs a ha (Fence.covers_iff.mp hc)).imp_right Access.performed_iff.mpr) hvis
    obtain ⟨hplain, hsc⟩ := State.fence_completes ht hready
    have hends : ∀ s', s.EndsFence s' t f → Ends s' := fun s' h => ⟨h.bytes, h.others, h.self, h.gone, h.core, h.cluster⟩
    refine ⟨fun h => ?_, fun h hv => ?_⟩
    · obtain ⟨s', hexec, hend, horder⟩ := hplain h
      exact ⟨s', hexec, hends s' hend, horder⟩
    · obtain ⟨s', hexec, hend, horder⟩ := hsc h hv
      exact ⟨s', hexec, hends s' hend, horder⟩
  case barrier =>
    intro s r n arr arrived active harr hall hone
    have hjoin : ∀ t, t ∈ s.joiners r ↔ t ∈ s.participants r ∧ active t := fun t => State.mem_joiners
    obtain ⟨hmem, hvault, hwk⟩ := s.met_rest r
    have hrest := State.woken_rest (s.phased r) ((s.participants r).filter fun t => t.waitsAt r (s.phaseOf r))
    refine ⟨_, exec_barrier harr fun t ht => ⟨(hall t ht).1, fun a ha hact => ?_⟩, fun x => ?_, fun t ht => ?_, fun t ht hact x => ?_, fun a ha => ?_, ?_⟩
    · obtain ⟨haccs, hvis⟩ := (hall t ht).2 a ha hact
      exact State.arrivalOk_of (fun x hx h₁ h₂ => (haccs x hx h₁ h₂).imp_right Access.performed_iff.mpr) hvis
    · rw [hrest]
      show (s.phased r).ms.mem.read x = _ ∧ (s.phased r).ms.vault.read x = _
      rw [s.phased_ms, hmem, hvault]
      exact ⟨rfl, rfl⟩
    · obtain ⟨y, hy, hp⟩ := State.thread_passes hone r ht
      exact ⟨y, hy, hp.regs, hp.pos, hp.mode, hp.wait, fun h₁ h₂ u hu hact => hp.took ((hjoin t).mpr ⟨h₁, h₂⟩) u ((hjoin u).mpr ⟨hu, hact⟩),
        fun h => hp.kept (mt (hjoin t).mp h)⟩
    · have hms : (((s.participants r).filter fun t => t.waitsAt r (s.phaseOf r)).foldl (fun s t => s.wake t.id) (s.phased r)).ms = (s.met r).ms := by
        rw [hrest]
        exact s.phased_ms r
      exact le_of_le_of_eq (s.latest_joined _ _ ((hjoin t).mpr ⟨ht, hact⟩) x) (State.latest_congr (congrArg MemState.writes hms) _ _).symm
    · rw [hrest] at ha
      obtain ⟨hold, hother⟩ := List.mem_filter.mp ha
      have hbars : ((s.met r).countPhase r).wk.bars = s.wk.bars := by
        refine Eq.trans (b := (s.met r).wk.bars) ?_ (by rw [hwk])
        cases r <;> rfl
      exact ⟨hbars ▸ hold, by simpa [Decidable.imp_iff_not_or] using hother⟩
    · rw [hrest]
      exact s.phased_counts r

end Sys2Proof.Machine

namespace Sys2Proof.Machine

/-! ## The results of atomics (R244, R245) -/

theorem signExtend_toNat {w : Nat} (x : BitVec w) : signExtend x.toNat w = x.toInt := by
  rw [signExtend, Nat.mod_eq_of_lt x.isLt, BitVec.toInt_eq_toNat_cond]
  refine if_congr ?_ rfl rfl
  cases w with
  | zero => simp [BitVec.eq_nil x]
  | succ w => rw [Nat.add_sub_cancel, Nat.pow_succ']; omega

/-- R244: what the integer operations of atomics write, as numbers. -/
theorem atomicNew_of_toNat {op : AOp} {b64 : Bool} {w : Nat} (hw : (if b64 then 64 else 32) = w) (hop : op.isFloat = false) (x y z : BitVec w) :
    atomicNew op b64 x.toNat y.toNat z.toNat = ((atomicInteger op x y z).map BitVec.toNat, 0) := by
  have hslt : ∀ u v : BitVec w, u.slt v = decide (u.toInt < v.toInt) := fun _ _ => rfl
  have hite : ∀ (p : Prop) [Decidable p] (u v : BitVec w), (if p then u else v).toNat = if p then u.toNat else v.toNat := fun p _ u v => apply_ite _ p u v
  have hone : (1 : BitVec w).toNat = 1 % 2 ^ w := rfl
  have hx := x.isLt
  have hy := y.isLt
  unfold atomicNew
  simp only [hw]
  cases op <;> simp only [AOp.isFloat, Bool.true_eq_false] at hop <;>
    simp only [atomicInteger, Option.map_some, signExtend_toNat, BitVec.toNat_and, BitVec.toNat_or, BitVec.toNat_xor, BitVec.toNat_add, hslt, BitVec.ult, hite,
      decide_eq_true_eq, Prod.mk.injEq, and_true, Option.some.injEq]
  case minZ => exact min_def_lt ..
  case maxS =>
    by_cases h : x = y
    · simp [h]
    · have hne : x.toInt ≠ y.toInt := mt BitVec.toInt_inj.mp h
      split <;> split <;> omega
  case maxZ => exact (max_def_lt ..).trans (by split <;> split <;> omega)
  case cas =>
    simp only [BitVec.toNat_inj]
    split <;> rfl
  case inc =>
    have hsum : x.toNat < y.toNat → (x.toNat + (1 : BitVec w).toNat) % 2 ^ w = x.toNat + 1 := fun h => by
      rw [hone, Nat.add_mod_mod, Nat.mod_eq_of_lt (by omega)]
    by_cases h : x.toNat < y.toNat
    · rw [if_neg (by omega), if_pos h, hsum h]
    · rw [if_pos (by omega), if_neg h]
      rfl
  case dec =>
    have hzero : x.toNat = 0 ↔ x = 0 := by rw [← BitVec.toNat_inj]; rfl
    have hsub : x.toNat ≠ 0 → (x - 1).toNat = x.toNat - 1 := fun h => by
      have hle : (1 : BitVec w).toNat ≤ x.toNat := by rw [hone]; exact (Nat.mod_le _ _).trans (by omega)
      rw [BitVec.toNat_sub_of_le hle, hone, Nat.mod_eq_of_lt (by omega)]
    by_cases h : x.toNat = 0 ∨ y.toNat < x.toNat
    · rw [if_pos h, if_pos (h.imp_left hzero.mp)]
    · rw [if_neg h, if_neg (mt (Or.imp_left hzero.mpr) h), hsub fun h' => h (.inl h')]

/-- What an atomic of n bytes writes, from numbers that n bytes hold. -/
theorem atomicNew_integer {op : AOp} {b64 : Bool} {n old b c : Nat} (hn : n = if b64 then 8 else 4) (hop : op.isFloat = false) (ho : old < 2 ^ (8 * n))
    (hb : b < 2 ^ (8 * n)) (hc : c < 2 ^ (8 * n)) : atomicNew op b64 old b c =
      ((atomicInteger op (BitVec.ofNat (8 * n) old) (BitVec.ofNat (8 * n) b) (BitVec.ofNat (8 * n) c)).map BitVec.toNat, 0) := by
  have hw : (if b64 then 64 else 32) = 8 * n := by rw [hn]; cases b64 <;> rfl
  rw [← atomicNew_of_toNat hw hop, BitVec.toNat_ofNat, BitVec.toNat_ofNat, BitVec.toNat_ofNat, Nat.mod_eq_of_lt ho, Nat.mod_eq_of_lt hb, Nat.mod_eq_of_lt hc]

/-! ## What leaves the vault as it is (R210, R225) -/

/-- No thread moves, and neither a vault byte nor a tag changes. -/
structure State.SparesVault (s s' : State) : Prop where
  unmoved : s.Unmoved s'
  vault : s'.ms.vault = s.ms.vault
  tags : s'.ms.tags = s.ms.tags

namespace State.SparesVault
variable {s s₁ s₂ : State}

theorem refl (s : State) : s.SparesVault s := ⟨.refl s, rfl, rfl⟩

theorem trans (h : s.SparesVault s₁) (h' : s₁.SparesVault s₂) : s.SparesVault s₂ :=
  ⟨h.unmoved.trans h'.unmoved, h'.vault.trans h.vault, h'.tags.trans h.tags⟩

theorem of_observes (h : s.Observes s₁) : s.SparesVault s₁ := ⟨h.unmoved, h.vault, h.tags⟩

theorem full (h : s.SparesVault s₁) (w : Nat) : s₁.full w = s.full w := by rw [State.full, h.tags, State.full]

end State.SparesVault

theorem State.sparesVault_doneAt (s : State) (a k wid : Nat) : s.SparesVault (s.doneAt a k wid) := ⟨s.unmoved_doneAt a k wid, rfl, rfl⟩

theorem State.sparesVault_vaultRelease (s : State) (w : Who) (a : Access) : s.SparesVault (s.vaultRelease w a) := by
  unfold State.vaultRelease
  split
  · exact ⟨.of_wk rfl, rfl, rfl⟩
  · exact .refl s

theorem State.vaultRelease_ms (s : State) (w : Who) (a : Access) : (s.vaultRelease w a).ms.mem = s.ms.mem ∧ (s.vaultRelease w a).ms.accs = s.ms.accs := by
  unfold State.vaultRelease
  split <;> exact ⟨rfl, rfl⟩

theorem State.dirTake_co (s : State) (blk : Nat) : s.dirTake blk = { s with co := (s.dirTake blk).co } := by
  unfold State.dirTake
  split <;> rfl

theorem State.dirTakes_co (s : State) (l : List Nat) : l.foldl State.dirTake s = { s with co := (l.foldl State.dirTake s).co } := by
  induction l generalizing s with
  | nil => rfl
  | cons x l ih => rw [List.foldl_cons, ih, s.dirTake_co]

/-- The write of an atomic: its bytes alone change. -/
theorem State.atomicWrite_spares (s : State) (w : Who) (a : Access) (home : Bool) (pa : Nat) (bs : List Byte) :
    s.SparesVault (s.atomicWrite w a home pa bs).2 ∧ (s.ms.mem.wf = true → ∀ x, (s.atomicWrite w a home pa bs).2.ms.mem.read x =
      if pa ≤ x ∧ x < pa + bs.length then bs.getD (x - pa) 0 else s.ms.mem.read x) := by
  unfold State.atomicWrite
  cases home with
  | true =>
    let s₁ := (blksOf pa bs.length).foldl State.dirTake s
    have htake : s₁ = { s with co := s₁.co } := s.dirTakes_co _
    have hspare : s.SparesVault s₁ := by rw [htake]; exact ⟨.of_wk rfl, rfl, rfl⟩
    have hmem : s₁.ms.mem = s.ms.mem := by rw [htake]
    refine ⟨hspare.trans ⟨(s₁.unmoved_commit ..).trans (State.Unmoved.observe ..), rfl, rfl⟩, fun hm x => ?_⟩
    rw [← hmem]
    exact State.commit_cellsAt (hmem ▸ hm) w a.id a.relScope pa bs [] [.core w.core] x
  | false =>
    refine ⟨⟨(s.unmoved_commitOwn w a.id a.relScope (cellsAt pa bs) false).trans (.of_wk rfl), rfl, rfl⟩, fun hm x => ?_⟩
    exact State.commit_cellsAt hm w a.id a.relScope pa bs [] [.core w.core] x

/-! ## An atomic is done (R245, R247) -/

/-- The thread of an atomic that has performed. -/
def Thread.endsAtomic (load : Bool) (fl : Flags) (t : Thread) : Thread :=
  { t with regs := t.regs.addFlags fl, wait := .none, ctr := if load then t.ctr.down .load else t.ctr }

section
variable {s s₁ : State} {a : Access} {t : Thread} (d : Opnd) (n old : Nat) (fl : Flags)

theorem State.atomicDone_eq (hid : a.tid = t.id) :
    s.atomicDone a d n old fl = (s.deliver t.id a.id d (toWords n old)).onThread t.id (Thread.endsAtomic (a.ctr == .load) fl) := by
  have hwake : ((s.deliver t.id a.id d (toWords n old)).addFlags t.id fl).wake t.id =
      (s.deliver t.id a.id d (toWords n old)).onThread t.id (Thread.endsAtomic false fl) := State.onThread_onThread _ t.id _ _ fun _ => rfl
  rw [State.atomicDone, hid, hwake]
  split
  next h =>
    rw [h]
    exact State.onThread_onThread _ t.id (Thread.endsAtomic false fl) _ fun _ => rfl
  next h => rw [Bool.eq_false_of_not_eq_true h]

theorem State.atomicDone_ms : (s.atomicDone a d n old fl).ms = s.ms := by
  unfold State.atomicDone
  dsimp only
  split <;> exact (State.deliver_en_ms _ _ _ _ _).2

/-- R245, R247: what comes to a thread with its atomic. -/
theorem State.atomic_comes (hin : s.Unmoved s₁) (ht : s.thread t.id = some t) (hl : t.exited = false) (hid : a.tid = t.id) :
    s.Comes (s₁.atomicDone a d n old fl).settle t a.id d (toWords n old) fl ∧
    ∃ y, (s₁.atomicDone a d n old fl).settle.thread t.id = some y ∧ y.wait = .none ∧ (a.ctr = .load → y.ctr.loads = t.ctr.loads - 1) := by
  obtain ⟨t₁, ht₁, hu⟩ := hin.threads _ t ht
  have hsettle := (s₁.atomicDone a d n old fl).unmoved_settle
  have htakes : s₁.Takes (s₁.atomicDone a d n old fl) t₁ a.id d (toWords n old) (t₁.endsAtomic (a.ctr == .load) fl) := by
    rw [State.atomicDone_eq d n old fl (hid.trans hu.id.symm)]
    exact State.deliver_takes (hu.id ▸ ht₁) rfl rfl (hu.exited.trans hl) a.id d _ _ (fun _ => rfl) fun _ _ _ _ => rfl
  refine ⟨htakes.comes hin ht ht₁ hsettle rfl rfl rfl rfl, ?_⟩
  obtain ⟨y, hy, heq, -⟩ := htakes.self
  obtain ⟨z, hz, hyz⟩ := hsettle.threads _ y hy
  rw [hu.id] at hz
  refine ⟨z, hz, ?_, fun hctr => ?_⟩
  · rw [hyz.wait, heq]
    rfl
  · rw [hyz.loads, heq, hctr]
    exact congrArg (· - 1) hu.loads

end

end Sys2Proof.Machine

namespace Sys2Proof.Machine

/-! ## Vault accesses perform (R225, R237, R239 to R243) -/

/-- Access a of the vault, of part p alone and of thread t, can perform where its tags and its turn allow it. -/
structure State.CanVault (s : State) (a : Access) (p : APart) (t : Thread) : Prop where
  here : s.access a.id = some a
  thread : s.thread a.tid = some t
  live : t.exited = false
  vault : a.vault = true
  parts : a.parts = [p]
  open_ : p.done = false
  clear : p.stalled = false
  ordered : s.ordered a = true

/-- The kinds of access that the vault takes. -/
def AKind.vaultwise : AKind → Bool
  | .record .. => false
  | _ => true

theorem State.access_doneAt {s : State} {n : Nat} {a : Access} (h : s.access n = some a) (k wid : Nat) :
    (s.doneAt n k wid).access n = some { a with parts := a.parts.modify k (APart.finish wid) } :=
  State.access_onAccess_self h (fun x => { x with parts := x.parts.modify k (APart.finish wid) }) fun _ => rfl

/-- An access of one part has performed with it. -/
theorem Access.performed_of_single {a b : Access} {p : APart} {wid : Nat} (ha : a.parts = [p]) (hb : b.parts = a.parts.modify 0 (APart.finish wid)) : b.performed = true := by
  rw [Access.performed_iff, hb, ha]
  intro q hq
  obtain rfl : q = APart.finish wid p := List.mem_singleton.mp hq
  rfl

theorem State.settledAcc_vault {s : State} {a : Access} (hv : a.vault = true) (hp : a.performed = true) : s.settledAcc a = true := by
  rw [State.settledAcc, hp, hv]
  rfl

theorem State.full_setTags (s : State) (ws : List Nat) (b : Bool) (w : Nat) :
    (s.setTags ws b).full w = if w ∈ ws then b else s.full w := by
  simp only [State.full, State.setTags, State.onMs, List.contains_eq_mem, List.mem_append, List.mem_filter]
  by_cases hw : w ∈ ws <;> cases b <;> simp [hw]

/-- The bytes of a store in the vault. -/
theorem State.vwrite_read {s : State} (h : s.ms.vault.wf = true) (pa : Nat) (bs : List Byte) (bad : Bool) (x : Nat) :
    (s.vwrite pa bs bad).ms.vault.read x = if pa ≤ x ∧ x < pa + bs.length then bs.getD (x - pa) 0 else s.ms.vault.read x :=
  Memory.read_writes_cellsAt h pa bs x

section
variable {s : State} {a : Access} {p : APart} {t : Thread} (h : s.CanVault a p t)
include h

theorem State.CanVault.tid : a.tid = t.id := (State.thread_id h.thread).symm

theorem State.CanVault.thread_self : s.thread t.id = some t := h.tid ▸ h.thread

/-- PERFORM of a vault access: it performs where its tags stand and its turn has come. -/
theorem State.CanVault.exec_perform (hk : a.kind.vaultwise = true) :
    exec (.perform a.id 0) s = .next (if s.tagsOk a && s.turn a then (s.performVault a p).settle else s) := by
  have hxl : s.xlOf a = some t.xl := by rw [State.xlOf, h.thread]; rfl
  have hpart : a.parts[0]? = some p := by rw [h.parts]; rfl
  have hclear : a.parts.any (fun q => q.stalled) = false := by rw [h.parts]; simp [h.clear]
  show Host.Outcome.next (match s.access a.id with | some b => s.performAccess b 0 | none => s.putEntry a.id) = _
  rw [h.here]
  simp only [State.performAccess, hpart, hxl, h.open_, hclear, h.ordered, h.vault]
  revert hk
  cases a.kind <;> simp [AKind.vaultwise]

theorem State.CanVault.performs (hk : a.kind.vaultwise = true) (htags : s.tagsOk a = true) (hturn : s.turn a = true) :
    exec (.perform a.id 0) s = .next (s.performVault a p).settle := by
  rw [h.exec_perform hk, htags, hturn]
  rfl

/-- A read of the vault, in a state that differs from s in the note of a release and in tags alone. -/
theorem State.CanVault.reads {s₁ : State} (hmoved : s.Unmoved s₁) (haccs : s₁.ms.accs = s.ms.accs) (d : Opnd) (n : Nat) (f : List Byte → List Word) (r : ReadRes) (w : Who) :
    let s' := ((((s₁.gotBytes a.id 0 r).doneAt a.id 0 0).acquired w a []).loaded a.id d n f).settle
    s.Comes s' t a.id d ((a.got 0 0 r).loadedWords n f) 0 ∧ s'.access a.id = none ∧ s'.ms.mem = s₁.ms.mem ∧ s'.ms.vault = s₁.ms.vault ∧ s'.ms.tags = s₁.ms.tags := by
  intro s'
  have hobs := (s₁.readPart a.id 0 0 r).observes_acquired w a []
  have hhere : s₁.access a.id = some a := by rw [State.access, haccs]; exact h.here
  have hacc : ((s₁.readPart a.id 0 0 r).acquired w a []).access a.id = some (a.got 0 0 r) := (hobs.access _).trans (State.access_readPart hhere 0 0 r)
  have hperf : (a.got 0 0 r).performed = true := Access.performed_of_single (a := a) (wid := 0) h.parts rfl
  obtain ⟨hcomes, -⟩ := State.load_comes d n f ((hmoved.trans (State.unmoved_readPart ..)).trans hobs.unmoved) h.thread_self h.live hacc h.tid hperf
  refine ⟨hcomes, ?_, ?_, ?_, ?_⟩
  · refine State.access_settle_gone (a := a.got 0 0 r) ?_ (State.settledAcc_vault h.vault hperf)
    rw [State.access, State.loaded_ms]
    exact hacc
  · show (State.settle _).ms.mem = _
    rw [State.settle_ms, State.loaded_ms]
    exact hobs.mem
  · show (State.settle _).ms.vault = _
    rw [State.settle_ms, State.loaded_ms]
    exact hobs.vault
  · show (State.settle _).ms.tags = _
    rw [State.settle_ms, State.loaded_ms]
    exact hobs.tags

/-- A write of the vault, or of its tags, in a state that differs from s in the note of a release and in the vault alone. -/
theorem State.CanVault.writes {s₁ : State} (hmoved : s.Unmoved s₁) (haccs : s₁.ms.accs = s.ms.accs) :
    let s' := (s₁.doneAt a.id 0 0).settle
    s.Keeps s' ∧ s'.access a.id = none ∧ s'.ms.mem = s₁.ms.mem ∧ s'.ms.vault = s₁.ms.vault ∧ s'.ms.tags = s₁.ms.tags := by
  intro s'
  have hhere : s₁.access a.id = some a := by rw [State.access, haccs]; exact h.here
  have hperf : ({ a with parts := a.parts.modify 0 (APart.finish 0) } : Access).performed = true := Access.performed_of_single (a := a) (wid := 0) h.parts rfl
  refine ⟨((hmoved.trans (State.unmoved_doneAt ..)).trans (State.unmoved_settle _)).keeps,
    State.access_settle_gone (State.access_doneAt hhere 0 0) (State.settledAcc_vault h.vault hperf), ?_, ?_, ?_⟩
  · show (State.settle _).ms.mem = _
    rw [State.settle_ms]
    rfl
  · show (State.settle _).ms.vault = _
    rw [State.settle_ms]
    rfl
  · show (State.settle _).ms.tags = _
    rw [State.settle_ms]
    rfl

end

theorem State.full_congr {s s' : State} (h : s'.ms.tags = s.ms.tags) (w : Nat) : s'.full w = s.full w := by rw [State.full, h, State.full]

/-- The words of the one part of an access. -/
theorem Access.words_of_single {a : Access} {p : APart} (h : a.parts = [p]) : a.words = wordsOf p.ea p.len := by
  rw [Access.words, h, List.flatMap_cons, List.flatMap_nil, List.append_nil]

/-- The words that a part of the vault touches. -/
theorem mem_wordsOf_part {p : APart} {w : Nat} : w ∈ wordsOf p.ea p.len ↔ w % 4 = 0 ∧ w < p.ea + p.len ∧ p.ea < w + 4 := by
  rw [mem_wordsOf, and_comm (a := p.ea < w + 4)]

theorem State.vread_length (s : State) (pa n : Nat) : (s.vread pa n).bytes.length = n := by simp [State.vread, Memory.readN]

/-- The words of a vault load whose one part covers it. -/
theorem Access.got_loadedWords_whole {a : Access} {r : ReadRes} {sz : Size} {sx : Bool} (hr : r.bytes.length = sz.bytes) (hlen : a.data.length = sz.bytes)
    (hsx : sx = true → sz.bytes ≤ 4) : (a.got 0 0 r).loadedWords sz.regs (loadWords sz sx) =
      if (a.bad || r.poison) = true then List.replicate sz.regs 0x7FC00000
      else toWords sz.regs (if sx = true ∧ r.val / 2 ^ (8 * sz.bytes - 1) = 1 then r.val + (2 ^ 32 - 2 ^ (8 * sz.bytes)) else r.val) := by
  have hdata : a.data.take 0 ++ r.bytes ++ a.data.drop (0 + sz.bytes) = r.bytes := by
    rw [Nat.zero_add, ← hlen, List.drop_length, List.take_zero, List.nil_append, List.append_nil]
  have hwords := Access.got_loadedWords (a := a) (k := 0) (ofs := 0) hr hlen (by omega) hsx
  rw [hdata] at hwords
  exact hwords

section
variable {s : State} {a : Access} {p : APart} {t : Thread} (h : s.CanVault a p t) (hturn : s.turn a = true)
include h hturn

/-- LDV: it takes the bytes, and changes nothing. -/
theorem State.CanVault.load {d : Opnd} {sz : Size} {sx : Bool} (hk : a.kind = .load d sz sx) : ∃ s', exec (.perform a.id 0) s = .next s' ∧
    s.Comes s' t a.id d ((a.got 0 0 (s.vread p.ea p.len)).loadedWords sz.regs (loadWords sz sx)) 0 ∧ s'.access a.id = none ∧
    s'.ms.mem = s.ms.mem ∧ s'.ms.vault = s.ms.vault ∧ s'.ms.tags = s.ms.tags := by
  have hrel := s.sparesVault_vaultRelease (s.whoOf a.tid a.core) a
  obtain ⟨hmem, haccs⟩ := s.vaultRelease_ms (s.whoOf a.tid a.core) a
  obtain ⟨hcomes, hgone, hm, hv, ht⟩ := h.reads hrel.unmoved haccs d sz.regs (loadWords sz sx) (s.vread p.ea p.len) (s.whoOf a.tid a.core)
  refine ⟨_, h.performs (by rw [hk]; rfl) (by simp only [State.tagsOk, hk]) hturn, ?_⟩
  simp only [State.performVault, hk]
  exact ⟨hcomes, hgone, hm.trans hmem, hv.trans hrel.vault, ht.trans hrel.tags⟩

/-- LDT: it takes the bytes once all its words are full, and empties them where it is to. -/
theorem State.CanVault.ldt {d : Opnd} {sz : Size} {take : Bool} (hk : a.kind = .ldt d sz take) (hfull : ∀ w ∈ wordsOf p.ea p.len, s.full w = true) :
    ∃ s', exec (.perform a.id 0) s = .next s' ∧
      s.Comes s' t a.id d ((a.got 0 0 (s.vread p.ea p.len)).loadedWords sz.regs (loadWords sz false)) 0 ∧ s'.access a.id = none ∧
      s'.ms.mem = s.ms.mem ∧ s'.ms.vault = s.ms.vault ∧ ∀ w, s'.full w = if w ∈ wordsOf p.ea p.len then !take else s.full w := by
  let s₀ := s.vaultRelease (s.whoOf a.tid a.core) a
  let s₁ := if take then s₀.setTags (wordsOf p.ea p.len) false else s₀
  have hrel : s.SparesVault s₀ := s.sparesVault_vaultRelease (s.whoOf a.tid a.core) a
  obtain ⟨hmem, haccs⟩ : s₀.ms.mem = s.ms.mem ∧ s₀.ms.accs = s.ms.accs := s.vaultRelease_ms (s.whoOf a.tid a.core) a
  have hset : s₀.Unmoved s₁ ∧ s₁.ms.accs = s₀.ms.accs ∧ s₁.ms.mem = s₀.ms.mem ∧ s₁.ms.vault = s₀.ms.vault := by
    unfold s₁
    split <;> exact ⟨.of_wk rfl, rfl, rfl, rfl⟩
  obtain ⟨hmoved, haccs₁, hmem₁, hvault₁⟩ := hset
  obtain ⟨hcomes, hgone, hm, hv, ht⟩ :=
    h.reads (hrel.unmoved.trans hmoved) (haccs₁.trans haccs) d sz.regs (loadWords sz false) (s.vread p.ea p.len) (s.whoOf a.tid a.core)
  have htags : s.tagsOk a = true := by
    simp only [State.tagsOk, hk, Access.words_of_single h.parts, List.all_eq_true]
    exact hfull
  refine ⟨_, h.performs (by rw [hk]; rfl) htags hturn, ?_⟩
  simp only [State.performVault, hk]
  refine ⟨hcomes, hgone, hm.trans (hmem₁.trans hmem), hv.trans (hvault₁.trans hrel.vault), fun w => (State.full_congr ht w).trans ?_⟩
  unfold s₁
  cases take with
  | true => rw [if_pos rfl, State.full_setTags, hrel.full]; rfl
  | false =>
    rw [if_neg Bool.false_ne_true, hrel.full]
    split
    next hw => exact hfull w hw
    next => rfl

/-- STV: it writes its bytes. -/
theorem State.CanVault.store {bs : List Byte} (hk : a.kind = .store bs) (hwf : s.ms.vault.wf = true) : ∃ s', exec (.perform a.id 0) s = .next s' ∧
    s.Keeps s' ∧ s'.access a.id = none ∧ s'.ms.mem = s.ms.mem ∧ s'.ms.tags = s.ms.tags ∧
    ∀ x, s'.ms.vault.read x = if p.ea ≤ x ∧ x < p.ea + bs.length then bs.getD (x - p.ea) 0 else s.ms.vault.read x := by
  let s₀ := s.vaultRelease (s.whoOf a.tid a.core) a
  have hrel : s.SparesVault s₀ := s.sparesVault_vaultRelease (s.whoOf a.tid a.core) a
  obtain ⟨hmem, haccs⟩ : s₀.ms.mem = s.ms.mem ∧ s₀.ms.accs = s.ms.accs := s.vaultRelease_ms (s.whoOf a.tid a.core) a
  have hwrite : s₀.Unmoved (s₀.vwrite p.ea bs false) := .of_wk rfl
  obtain ⟨hkeeps, hgone, hm, hv, ht⟩ := h.writes (hrel.unmoved.trans hwrite) haccs
  refine ⟨_, h.performs (by rw [hk]; rfl) (by simp only [State.tagsOk, hk]) hturn, ?_⟩
  simp only [State.performVault, hk]
  refine ⟨hkeeps, hgone, hm.trans hmem, ht.trans hrel.tags, fun x => ?_⟩
  rw [hv, State.vwrite_read (hrel.vault ▸ hwf), hrel.vault]

/-- STT: it writes its bytes once all its words are empty, and fills them. -/
theorem State.CanVault.stt {bs : List Byte} (hk : a.kind = .stt bs) (hwf : s.ms.vault.wf = true) (hempty : ∀ w ∈ wordsOf p.ea p.len, s.full w = false) :
    ∃ s', exec (.perform a.id 0) s = .next s' ∧ s.Keeps s' ∧ s'.access a.id = none ∧ s'.ms.mem = s.ms.mem ∧
      (∀ w, s'.full w = if w ∈ wordsOf p.ea p.len then true else s.full w) ∧
      ∀ x, s'.ms.vault.read x = if p.ea ≤ x ∧ x < p.ea + bs.length then bs.getD (x - p.ea) 0 else s.ms.vault.read x := by
  let s₀ := s.vaultRelease (s.whoOf a.tid a.core) a
  have hrel : s.SparesVault s₀ := s.sparesVault_vaultRelease (s.whoOf a.tid a.core) a
  obtain ⟨hmem, haccs⟩ : s₀.ms.mem = s.ms.mem ∧ s₀.ms.accs = s.ms.accs := s.vaultRelease_ms (s.whoOf a.tid a.core) a
  have hwrite : s₀.Unmoved ((s₀.vwrite p.ea bs false).setTags (wordsOf p.ea p.len) true) := .of_wk rfl
  obtain ⟨hkeeps, hgone, hm, hv, ht⟩ := h.writes (hrel.unmoved.trans hwrite) haccs
  have htags : s.tagsOk a = true := by
    simp only [State.tagsOk, hk, Access.words_of_single h.parts, List.all_eq_true, Bool.not_eq_true']
    exact hempty
  refine ⟨_, h.performs (by rw [hk]; rfl) htags hturn, ?_⟩
  simp only [State.performVault, hk]
  refine ⟨hkeeps, hgone, hm.trans hmem, fun w => ?_, fun x => ?_⟩
  · rw [State.full_congr ht, State.full_setTags]
    exact if_congr Iff.rfl rfl (hrel.full w)
  · rw [hv]
    refine (State.vwrite_read (hrel.vault ▸ hwf) p.ea bs false x).trans ?_
    rw [hrel.vault]

/-- TAGOP: it sets the tags of its words. -/
theorem State.CanVault.tagop {full : Bool} (hk : a.kind = .tagop full) : ∃ s', exec (.perform a.id 0) s = .next s' ∧
    s.Keeps s' ∧ s'.access a.id = none ∧ s'.ms.mem = s.ms.mem ∧ s'.ms.vault = s.ms.vault ∧
    ∀ w, s'.full w = if w ∈ wordsOf p.ea p.len then full else s.full w := by
  let s₀ := s.vaultRelease (s.whoOf a.tid a.core) a
  have hrel : s.SparesVault s₀ := s.sparesVault_vaultRelease (s.whoOf a.tid a.core) a
  obtain ⟨hmem, haccs⟩ : s₀.ms.mem = s.ms.mem ∧ s₀.ms.accs = s.ms.accs := s.vaultRelease_ms (s.whoOf a.tid a.core) a
  have hwrite : s₀.Unmoved (s₀.setTags (wordsOf p.ea p.len) full) := .of_wk rfl
  obtain ⟨hkeeps, hgone, hm, hv, ht⟩ := h.writes (hrel.unmoved.trans hwrite) haccs
  refine ⟨_, h.performs (by rw [hk]; rfl) (by simp only [State.tagsOk, hk]) hturn, ?_⟩
  simp only [State.performVault, hk]
  refine ⟨hkeeps, hgone, hm.trans hmem, hv.trans hrel.vault, fun w => ?_⟩
  rw [State.full_congr ht, State.full_setTags, hrel.full]

omit hturn in
/-- A tagged access whose tags do not stand as it needs them waits. -/
theorem State.CanVault.waits (hk : a.kind.vaultwise = true) (htags : s.tagsOk a = false) : exec (.perform a.id 0) s = .next s := by
  rw [h.exec_perform hk, htags]
  rfl

end

end Sys2Proof.Machine

namespace Sys2Proof.Machine

/-! ## A translation leaves the memory type of its page (R378, R379, R382) -/

theorem State.byteOf_take (s : State) (pts : List Point) (f : WriteRec → Bool) (w x : Nat) : (s.take pts f).byteOf w x = s.byteOf w x := by
  let G : WriteRec → WriteRec := fun w => if f w then { w with seen := w.seen ++ pts.filter fun p => !w.seen.contains p } else w
  have hG : ∀ r, (G r).id = r.id ∧ (G r).cells = r.cells ∧ (G r).old = r.old := fun r => by
    simp only [G]
    split <;> exact ⟨rfl, rfl, rfl⟩
  have hfind : ∀ q : WriteRec → Bool, (∀ r, q (G r) = q r) → (s.ms.writes.map G).find? q = (s.ms.writes.find? q).map G := fun q hq => by
    rw [List.find?_map]
    refine congrArg (Option.map G) (List.find?_congr fun r _ => hq r)
  have hinit : (s.take pts f).initial x = s.initial x := by
    show (match (s.ms.writes.map G).find? fun w => w.covers x with | some w => Memory.read w.old x | none => s.ms.mem.read x) = _
    rw [hfind _ fun r => by rw [WriteRec.covers, (hG r).2.1, WriteRec.covers], State.initial]
    cases s.ms.writes.find? fun w => w.covers x with
    | none => rfl
    | some r => exact congrArg (Memory.read · x) (hG r).2.2
  show (match (s.ms.writes.map G).find? fun r => r.id == w with | some r => Memory.read r.cells x | none => (s.take pts f).initial x) = _
  rw [hfind _ fun r => by rw [(hG r).1], hinit, State.byteOf]
  cases s.ms.writes.find? fun r => r.id == w with
  | none => rfl
  | some r => exact congrArg (Memory.read · x) (hG r).2.1

/-- Refresh brings nothing new to all the points of its party together. -/
theorem State.latest_refresh_upTo (s : State) (w : Who) (x : Nat) : (s.refresh w .system).latest (w.upTo .system) x = s.latest (w.upTo .system) x := by
  refine (s.latest_take _ _ _ x).trans ?_
  rw [State.latest, ← listMax_filter_or]
  refine congrArg (fun l => listMax (l.map WriteRec.id)) (List.filter_congr fun r _ => ?_)
  cases r.covers x <;> cases r.seenAt (w.upTo .system) <;> rfl

/-- The page walk of a lookup that misses both TLBs (R379). -/
def State.tableWalk (s : State) (x : Xl) (va : Nat) : Except Flt TlbEntry :=
  let rd := fun a => (s.readBy (s.latest ((s.walker x va).upTo .system)) a 8).val
  match walkFrom rd (s.part x.part).inHbmw va 4 x.root with
  | .error f => .error f
  | .ok l => .ok (contPage rd (bitsOf va 47 0) l ⟨x.part, x.asid, pteG l.e, bitsOf va 47 0 / l.size * l.size, l.size, l.e, false⟩)

/-- An L1 TLB entry that a lookup takes; one at the home of the address. -/
def Xl.l1Hit (x : Xl) (va : Nat) (e : CoreId × TlbEntry) : Bool := e.1 == x.core && e.2.hits x.part x.asid va
def State.l2Hit (s : State) (x : Xl) (va : Nat) (e : CoreId × TlbEntry) : Bool := e.1 == s.tlbHome x va && e.2.hits x.part x.asid va

section
variable {s : State} {x : Xl} {va : Nat}

theorem State.lookup_l1 {e : CoreId × TlbEntry} (h : s.ms.l1tlb.find? (x.l1Hit va) = some e) : s.lookup x va = .ok e.2 := by
  unfold State.lookup
  rw [show (s.ms.l1tlb.find? fun e => e.1 == x.core && e.2.hits x.part x.asid va) = some e from h]

theorem State.lookup_l2 {e : CoreId × TlbEntry} (h₁ : s.ms.l1tlb.find? (x.l1Hit va) = none) (h₂ : s.ms.l2tlb.find? (s.l2Hit x va) = some e) :
    s.lookup x va = .ok e.2 := by
  unfold State.lookup
  rw [show (s.ms.l1tlb.find? fun e => e.1 == x.core && e.2.hits x.part x.asid va) = none from h₁,
    show (s.ms.l2tlb.find? fun e => e.1 == s.tlbHome x va && e.2.hits x.part x.asid va) = some e from h₂]

theorem State.lookup_walk (h₁ : s.ms.l1tlb.find? (x.l1Hit va) = none) (h₂ : s.ms.l2tlb.find? (s.l2Hit x va) = none) : s.lookup x va = s.tableWalk x va := by
  unfold State.lookup
  rw [show (s.ms.l1tlb.find? fun e => e.1 == x.core && e.2.hits x.part x.asid va) = none from h₁,
    show (s.ms.l2tlb.find? fun e => e.1 == s.tlbHome x va && e.2.hits x.part x.asid va) = none from h₂]
  rfl

/-- The walk acquires, and would read the same again. -/
theorem State.tableWalk_refresh : (s.refresh (s.walker x va) .system).tableWalk x va = s.tableWalk x va := by
  have hrd : (fun a => ((s.refresh (s.walker x va) .system).readBy ((s.refresh (s.walker x va) .system).latest ((s.walker x va).upTo .system)) a 8).val) =
      fun a => (s.readBy (s.latest ((s.walker x va).upTo .system)) a 8).val := funext fun a => by
    rw [show (s.refresh (s.walker x va) .system).latest ((s.walker x va).upTo .system) = s.latest ((s.walker x va).upTo .system) from
      funext (s.latest_refresh_upTo _)]
    simp only [State.readBy, ReadRes.val]
    exact congrArg ofBytes (List.map_congr_left fun y _ => s.byteOf_take _ _ _ _)
  unfold State.tableWalk
  simp only [← hrd]
  rfl

theorem find?_erase_none {α : Type} [BEq α] [LawfulBEq α] {l : List α} {q : α → Bool} (h : l.find? q = none) (y : α) : (l.erase y).find? q = none :=
  List.find?_eq_none.mpr fun z hz => List.find?_eq_none.mp h z (List.mem_of_mem_erase hz)

/-- What a fill brings to a search that found nothing: its entry, or still nothing. -/
theorem find?_tlbFill {q : CoreId × TlbEntry → Bool} {l : List (CoreId × TlbEntry)} (h : l.find? q = none) (cap pick : Nat) (c : CoreId) (e : TlbEntry) :
    (tlbFill cap pick l c e).find? q = if q (c, e) then some (c, e) else none := by
  unfold tlbFill
  split
  next hc =>
    rw [h, if_neg (List.find?_eq_none.mp h _ (by simpa using hc))]
  next =>
    rw [List.find?_append, List.find?_singleton]
    refine (congrArg (Option.or · _) ?_).trans (Option.none_or)
    split
    · split
      · exact find?_erase_none h _
      · exact h
    · exact h

/-- A fragment is of the memory type of its page. -/
theorem TlbEntry.fragment_mt (e : TlbEntry) (va : Nat) : bitsOf (e.fragment va).pte 8 7 = bitsOf e.pte 8 7 := by
  unfold TlbEntry.fragment
  split
  · simp only [bitsOf]
    omega
  · rfl

/-- R378: the page of an address is uncached after its translation exactly where it was before. -/
theorem State.uncached_fillTlb (s : State) (x : Xl) (va : Nat) : (s.fillTlb x va).uncached x va = s.uncached x va := by
  have hrefresh := s.looksUp_refresh (s.walker x va) .system
  unfold State.fillTlb
  split
  · rfl
  next hmiss =>
    have hl1 : s.ms.l1tlb.find? (x.l1Hit va) = none := by
      rw [Bool.or_eq_true, not_or, Bool.not_eq_true (s.inL1Tlb x va)] at hmiss
      exact List.find?_eq_none.mpr (List.any_eq_false.mp hmiss.2)
    cases hin : s.inL2Tlb x va with
    | true =>
      cases hl2 : s.ms.l2tlb.find? (s.l2Hit x va) with
      | none =>
        obtain ⟨e, he, hit⟩ := List.any_eq_true.mp hin
        exact absurd hit (List.find?_eq_none.mp hl2 e he)
      | some e =>
        have hlook := State.lookup_l2 hl1 hl2
        rw [hlook]
        simp only [if_true]
        let s₁ := s.onMs fun m => { m with l1tlb := tlbFill (l1Cap x.core) (Config.tlbVictim s.tick va) m.l1tlb x.core e.2 }
        have hfill : s₁.ms.l1tlb.find? (x.l1Hit va) = _ := find?_tlbFill hl1 (l1Cap x.core) (Config.tlbVictim s.tick va) x.core e.2
        have hlook₁ : s₁.lookup x va = .ok e.2 := by
          split at hfill
          · exact State.lookup_l1 (e := (x.core, e.2)) hfill
          · exact State.lookup_l2 hfill hl2
        show s₁.uncached x va = _
        rw [State.uncached, hlook₁, State.uncached, hlook]
    | false =>
      have hl2 : s.ms.l2tlb.find? (s.l2Hit x va) = none := List.find?_eq_none.mpr (List.any_eq_false.mp hin)
      have hlook := State.lookup_walk hl1 hl2
      simp only [Bool.false_eq_true, if_false]
      cases hw : s.lookup x va with
      | error f =>
        have hlook₁ : (s.refresh (s.walker x va) .system).lookup x va = s.lookup x va := by
          rw [State.lookup_walk (s := s.refresh (s.walker x va) .system) hl1 hl2, State.tableWalk_refresh, hlook]
        simp only [State.uncached, hlook₁]
      | ok e =>
        simp only
        let pick := Config.tlbVictim s.tick va
        let s₁ := (s.refresh (s.walker x va) .system).onMs fun m =>
          { m with l1tlb := tlbFill (l1Cap x.core) pick m.l1tlb x.core e, l2tlb := tlbFill 2048 pick m.l2tlb (s.tlbHome x va) (e.fragment va) }
        have hfill₁ : s₁.ms.l1tlb.find? (x.l1Hit va) = _ := find?_tlbFill hl1 (l1Cap x.core) pick x.core e
        have hfill₂ : s₁.ms.l2tlb.find? (s₁.l2Hit x va) = _ := find?_tlbFill hl2 2048 pick (s.tlbHome x va) (e.fragment va)
        have hmt : ∃ e', s₁.lookup x va = .ok e' ∧ bitsOf e'.pte 8 7 = bitsOf e.pte 8 7 := by
          split at hfill₁
          · exact ⟨e, State.lookup_l1 (e := (x.core, e)) hfill₁, rfl⟩
          · split at hfill₂
            · exact ⟨_, State.lookup_l2 hfill₁ hfill₂, e.fragment_mt va⟩
            · refine ⟨e, (State.lookup_walk hfill₁ hfill₂).trans ?_, rfl⟩
              exact (State.tableWalk_refresh (s := s)).trans (hlook.symm.trans hw)
        obtain ⟨e', hlook₁, hmt⟩ := hmt
        show s₁.uncached x va = _
        rw [State.uncached, hlook₁, State.uncached, hw]
        simp only [hmt]

theorem State.goesHome_fillTlb (s : State) (x : Xl) (va pa : Nat) : (s.fillTlb x va).goesHome x va pa = s.goesHome x va pa := by
  have hmd : (s.fillTlb x va).inHbm pa = s.inHbm pa := by
    rw [s.looksUp_fillTlb x va]
    rfl
  rw [State.goesHome, hmd, s.uncached_fillTlb, State.goesHome]

end

end Sys2Proof.Machine

namespace Sys2Proof.Machine

/-! ## Atomics perform (R216, R244 to R248, R269, R272) -/

/-- The state of an atomic between its read and its end: its bytes are written, or its release is noted. -/
def State.atomicMid (s : State) (w : Who) (a : Access) (k : Nat) (home : Bool) (pa : Nat) (new : Option (List Byte)) : State :=
  let s2 := match new with
    | some bs => s.atomicWrite w a home pa bs
    | none => (0, s.vaultRelease w a)
  let s3 := if s2.1 = 0 || home then s2.2 else s2.2.dirties a.tid (pa / 128)
  (s3.doneAt a.id k s2.1).acquired w a []

/-- The state of an atomic of the vault between its read and its end. -/
def State.vaultMid (s : State) (w : Who) (a : Access) (p : APart) (new : Option (List Byte)) : State :=
  let s0 := s.vaultRelease w a
  let s1 := match new with
    | some bs => s0.vwrite p.ea bs false
    | none => s0
  (s1.doneAt a.id 0 0).acquired w a []

/-- Bytes as they stand once those at an address have been written, if any are. -/
def written (new : Option (List Byte)) (pa : Nat) (old : Nat → Byte) (x : Nat) : Byte :=
  match new with
  | some bs => if pa ≤ x ∧ x < pa + bs.length then bs.getD (x - pa) 0 else old x
  | none => old x

theorem State.performAtomic_eq {s : State} {a : Access} {k : Nat} {p : APart} {home : Bool} {pa b c : Nat} {op : AOp} {d : Opnd} {b64 : Bool}
    (hr : (s.readLast pa p.len).poison = false) :
    let x := atomicNew op b64 (s.readLast pa p.len).val b c
    s.performAtomic a k p home pa op d b64 b c =
      ((s.observe a.tid (s.readLast pa p.len).wids).atomicMid (s.whoOf a.tid a.core) a k home pa (x.1.map (toBytes p.len))).atomicDone a d
        (if b64 then 2 else 1) (s.readLast pa p.len).val x.2 := by
  intro x
  simp only [State.performAtomic, hr]
  rw [if_neg Bool.false_ne_true]
  unfold State.atomicMid
  cases hx : x.1 <;> simp only [x, Option.map_some, Option.map_none]

theorem State.performVault_atomic {s : State} {a : Access} {p : APart} {b c : Nat} {op : AOp} {d : Opnd} {b64 : Bool} (hk : a.kind = .atomic op d b64 b c)
    (hr : (s.vread p.ea p.len).poison = false) :
    let x := atomicNew op b64 (s.vread p.ea p.len).val b c
    s.performVault a p = (s.vaultMid (s.whoOf a.tid a.core) a p (x.1.map (toBytes p.len))).atomicDone a d (if b64 then 2 else 1) (s.vread p.ea p.len).val x.2 := by
  intro x
  simp only [State.performVault, hk, hr]
  rw [if_neg Bool.false_ne_true]
  unfold State.vaultMid
  cases hx : x.1 <;> simp only [x, Option.map_some, Option.map_none]

theorem State.sparesVault_dirties (s : State) (t line : Nat) : s.SparesVault (s.dirties t line) ∧ (s.dirties t line).ms.mem = s.ms.mem := by
  rw [s.dirties_rest]
  exact ⟨⟨s.dirties_rest t line ▸ s.unmoved_dirties t line, rfl, rfl⟩, rfl⟩

/-- A global atomic changes its bytes alone. -/
theorem State.atomicMid_spares (s : State) (w : Who) (a : Access) (k : Nat) (home : Bool) (pa : Nat) (new : Option (List Byte)) :
    s.SparesVault (s.atomicMid w a k home pa new) ∧
      (s.ms.mem.wf = true → ∀ x, (s.atomicMid w a k home pa new).ms.mem.read x = written new pa s.ms.mem.read x) := by
  let s2 : Nat × State := match new with
    | some bs => s.atomicWrite w a home pa bs
    | none => (0, s.vaultRelease w a)
  let s3 := if s2.1 = 0 || home then s2.2 else s2.2.dirties a.tid (pa / 128)
  have hwrite : s.SparesVault s2.2 ∧ (s.ms.mem.wf = true → ∀ x, s2.2.ms.mem.read x = written new pa s.ms.mem.read x) := by
    cases new with
    | some bs => exact s.atomicWrite_spares w a home pa bs
    | none => exact ⟨s.sparesVault_vaultRelease w a, fun _ x => congrArg (Memory.read · x) (s.vaultRelease_ms w a).1⟩
  have hdirty : s2.2.SparesVault s3 ∧ s3.ms.mem = s2.2.ms.mem := by
    unfold s3
    split
    · exact ⟨.refl _, rfl⟩
    · exact s2.2.sparesVault_dirties _ _
  have hacq := (s3.doneAt a.id k s2.1).observes_acquired w a []
  refine ⟨((hwrite.1.trans hdirty.1).trans (s3.sparesVault_doneAt a.id k s2.1)).trans (.of_observes hacq), fun hm x => ?_⟩
  refine (congrArg (Memory.read · x) (hacq.mem.trans (?_ : _ = s2.2.ms.mem))).trans (hwrite.2 hm x)
  exact hdirty.2

/-- An atomic of the vault changes its bytes alone. -/
theorem State.vaultMid_spares (s : State) (w : Who) (a : Access) (p : APart) (new : Option (List Byte)) :
    s.Unmoved (s.vaultMid w a p new) ∧ (s.vaultMid w a p new).ms.mem = s.ms.mem ∧ (s.vaultMid w a p new).ms.tags = s.ms.tags ∧
      (s.ms.vault.wf = true → ∀ x, (s.vaultMid w a p new).ms.vault.read x = written new p.ea s.ms.vault.read x) := by
  let s0 := s.vaultRelease w a
  let s1 : State := match new with
    | some bs => s0.vwrite p.ea bs false
    | none => s0
  have hrel : s.SparesVault s0 := s.sparesVault_vaultRelease w a
  have hmem : s0.ms.mem = s.ms.mem := (s.vaultRelease_ms w a).1
  have hwrite : s0.Unmoved s1 ∧ s1.ms.mem = s0.ms.mem ∧ s1.ms.tags = s0.ms.tags := by
    unfold s1
    cases new <;> exact ⟨.of_wk rfl, rfl, rfl⟩
  obtain ⟨hmoved, hmem₁, htags₁⟩ := hwrite
  have hacq := (s1.doneAt a.id 0 0).observes_acquired w a []
  refine ⟨((hrel.unmoved.trans hmoved).trans (State.unmoved_doneAt ..)).trans hacq.unmoved, hacq.mem.trans (hmem₁.trans hmem),
    hacq.tags.trans (htags₁.trans hrel.tags), fun hv x => ?_⟩
  refine (congrArg (Memory.read · x) hacq.vault).trans ?_
  show s1.ms.vault.read x = _
  rw [← hrel.vault]
  unfold s1
  cases new with
  | some bs => exact State.vwrite_read (hrel.vault ▸ hv) p.ea bs false x
  | none => rfl

/-- What an atomic leaves: its result with its thread, whose wait has ended, and its bytes. -/
structure State.Performs (s s' : State) (a : Access) (t : Thread) (d : Opnd) (n old : Nat) (fl : Flags) (mem vault : Nat → Byte) : Prop where
  comes : s.Comes s' t a.id d (toWords n old) fl
  ends : ∃ y, s'.thread t.id = some y ∧ y.wait = .none ∧ (a.ctr = .load → y.ctr.loads = t.ctr.loads - 1)
  mem : ∀ x, s'.ms.mem.read x = mem x
  vault : ∀ x, s'.ms.vault.read x = vault x
  tags : ∀ w, s'.full w = s.full w

/-- The end of an atomic, from the state in which its bytes stand. -/
theorem State.performs_of_mid {s s₁ : State} {a : Access} {t : Thread} (d : Opnd) (n old : Nat) (fl : Flags) {mem vault : Nat → Byte} (hin : s.Unmoved s₁)
    (ht : s.thread t.id = some t) (hl : t.exited = false) (hid : a.tid = t.id) (hm : ∀ x, s₁.ms.mem.read x = mem x) (hv : ∀ x, s₁.ms.vault.read x = vault x)
    (htags : s₁.ms.tags = s.ms.tags) : s.Performs (s₁.atomicDone a d n old fl).settle a t d n old fl mem vault := by
  obtain ⟨hcomes, hends⟩ := State.atomic_comes d n old fl hin ht hl hid
  have hms : (s₁.atomicDone a d n old fl).settle.ms = { s₁.ms with accs := (s₁.atomicDone a d n old fl).settleAccs } := by
    rw [State.settle_ms, State.atomicDone_ms]
  exact ⟨hcomes, hends, fun x => by rw [hms]; exact hm x, fun x => by rw [hms]; exact hv x, State.full_congr (by rw [hms]; exact htags)⟩

theorem State.homeReady_congr {s s' : State} (h : s'.co = s.co) (pa n : Nat) : s'.homeReady pa n = s.homeReady pa n := by
  calc s'.homeReady pa n = ({ s with co := s'.co } : State).homeReady pa n := rfl
    _ = s.homeReady pa n := by rw [h]

/-- R269, R272, R378: a global atomic performs in the L1 that may write its block, or at its home. -/
theorem State.CanPerform.atomic {s : State} {a : Access} {p : APart} {t : Thread} {pa b c : Nat} {op : AOp} {d : Opnd} {b64 : Bool}
    (h : s.CanPerform a 0 p t pa) (hk : a.kind = .atomic op d b64 b c) (hp : a.parts = [p]) (hm : s.ms.mem.wf = true)
    (hr : ((s.walked a t).readLast pa p.len).poison = false)
    (hready : if s.goesHome t.xl p.ea pa = true then s.homeReady pa p.len = true
      else ∃ y, s.l1Of t.place.core (pa / 64) = some y ∧ y.takesWrites = true) :
    let old := ((s.walked a t).readLast pa p.len).val
    let x := atomicNew op b64 old b c
    ∃ s', exec (.perform a.id 0) s = .next s' ∧
      s.Performs s' a t d (if b64 then 2 else 1) old x.2 (written (x.1.map (toBytes p.len)) pa s.ms.mem.read) s.ms.vault.read := by
  intro old x
  obtain ⟨ps, p', hps, hp', hpp, hperf⟩ := h.performPart
  have hlook := s.looksUp_walked a t
  have hmem : (s.found a t ps).ms.mem = s.ms.mem := hlook.mem
  have hvault : (s.found a t ps).ms.vault = s.ms.vault := hlook.vault
  have htags : (s.found a t ps).ms.tags = s.ms.tags := hlook.tags
  have hco : (s.found a t ps).co = s.co := hlook.co
  have hhome : (s.found a t ps).goesHome t.xl p.ea pa = s.goesHome t.xl p.ea pa := by
    have hwalk : s.walked a t = s.fillTlb t.xl p.ea := by rw [State.walked, hp]; rfl
    rw [← s.goesHome_fillTlb t.xl p.ea pa, ← hwalk]
    rfl
  have hok : (s.found a t ps).atomicReady { a with parts := ps } (s.goesHome t.xl p.ea pa) pa p.len = true := by
    unfold State.atomicReady
    split at hready
    next hg =>
      rw [if_pos hg, ← hready]
      exact State.homeReady_congr hco pa p.len
    next hg =>
      obtain ⟨y, hy, hw⟩ := hready
      rw [if_neg hg, State.l1Of, hco, h.core]
      exact (congrArg (Option.any L1Blk.takesWrites) hy).trans hw
  have hpart : (s.found a t ps).performGlobal { a with parts := ps } 0 t.xl p' pa =
      (s.found a t ps).performAtomic { a with parts := ps } 0 p' (s.goesHome t.xl p.ea pa) pa op d b64 b c := by
    have hgen : ∀ (a' : Access) (p' : APart) (home : Bool) (s₁ : State), a'.kind = .atomic op d b64 b c → s₁.goesHome t.xl p'.ea pa = home →
        s₁.atomicReady a' home pa p'.len = true → s₁.performGlobal a' 0 t.xl p' pa = s₁.performAtomic a' 0 p' home pa op d b64 b c := fun a' p' home s₁ h₁ h₂ h₃ => by
      simp only [State.performGlobal, h₁, h₂, h₃, if_true]
    rw [hpp]
    exact hgen _ _ _ _ hk hhome hok
  have hlen : p'.len = p.len := by rw [hpp]
  have hread : (s.found a t ps).readLast pa p'.len = (s.walked a t).readLast pa p.len := by rw [hlen]; rfl
  let s₁ := (s.found a t ps).observe a.tid ((s.walked a t).readLast pa p.len).wids
  obtain ⟨hspare, hbytes⟩ := s₁.atomicMid_spares ((s.found a t ps).whoOf a.tid a.core) { a with parts := ps } 0 (s.goesHome t.xl p.ea pa) pa (x.1.map (toBytes p.len))
  have hmoved : s.Unmoved s₁ := (s.unmoved_found a t ps).trans (.observe _ _ _)
  refine ⟨_, h.exec_perform (by rw [hk]; rfl), ?_⟩
  rw [hperf, hpart, State.performAtomic_eq (by rw [hread]; exact hr), hread, hlen]
  obtain ⟨h₁, h₂, h₃, h₄, h₅⟩ := State.performs_of_mid (a := { a with parts := ps }) d (if b64 then 2 else 1) old x.2
    (mem := written (x.1.map (toBytes p.len)) pa s.ms.mem.read) (vault := s.ms.vault.read) (hmoved.trans hspare.unmoved) h.thread_self h.live h.tid
    (fun y => hmem ▸ hbytes (hmem.symm ▸ hm) y) (fun y => congrArg (Memory.read · y) (hspare.vault.trans hvault)) (hspare.tags.trans htags)
  exact ⟨h₁, h₂, h₃, h₄, h₅⟩

/-- R225, R247: an atomic of the vault performs. -/
theorem State.CanVault.atomic {s : State} {a : Access} {p : APart} {t : Thread} {b c : Nat} {op : AOp} {d : Opnd} {b64 : Bool} (h : s.CanVault a p t)
    (hk : a.kind = .atomic op d b64 b c) (hv : s.ms.vault.wf = true) (hr : (s.vread p.ea p.len).poison = false) :
    let old := (s.vread p.ea p.len).val
    let x := atomicNew op b64 old b c
    ∃ s', exec (.perform a.id 0) s = .next s' ∧
      s.Performs s' a t d (if b64 then 2 else 1) old x.2 s.ms.mem.read (written (x.1.map (toBytes p.len)) p.ea s.ms.vault.read) := by
  intro old x
  obtain ⟨hmoved, hmem, htags, hbytes⟩ := s.vaultMid_spares (s.whoOf a.tid a.core) a p (x.1.map (toBytes p.len))
  have hturn : s.turn a = true := by simp [State.turn, Access.tagKind, hk]
  refine ⟨_, h.performs (by rw [hk]; rfl) (by simp only [State.tagsOk, hk]) hturn, ?_⟩
  rw [State.performVault_atomic hk hr]
  exact State.performs_of_mid d (if b64 then 2 else 1) old x.2 hmoved h.thread_self h.live h.tid (fun y => congrArg (Memory.read · y) hmem) (hbytes hv) htags

/-- The bytes of a value that has been written where it was to be. -/
theorem written_toBytes (new : Option Nat) (n pa : Nat) (q : Prop) [Decidable q] (old : Nat → Byte) (x : Nat) :
    (if q then written (new.map (toBytes n)) pa old x else old x) = match new with
      | some v => if q ∧ pa ≤ x ∧ x < pa + n then BitVec.ofNat 8 (v / 2 ^ (8 * (x - pa))) else old x
      | none => old x := by
  cases new with
  | none => exact ite_self _
  | some v =>
    simp only [Option.map_some, written, toBytes_length, ite_and]
    refine if_congr Iff.rfl ?_ rfl
    split
    next h₁ =>
      split
      next h₂ => exact toBytes_getD (by omega) v
      next => rfl
    next => rfl

theorem State.readBy_val_lt (s : State) (f : Nat → Nat) (pa n : Nat) : (s.readBy f pa n).val < 2 ^ (8 * n) := by
  have h := ofBytes_lt (s.readBy f pa n).bytes
  rwa [State.readBy_bytes_length] at h

theorem State.vread_val_lt (s : State) (pa n : Nat) : (s.vread pa n).val < 2 ^ (8 * n) := by
  have h := ofBytes_lt (s.vread pa n).bytes
  rwa [State.vread_length] at h

/-- Settles O30: an atomic reads the last write, writes its result and ends its thread's wait; a vault access takes, writes or tags its
words where its tags and its turn allow it. -/
theorem atomicsAndVaultAccessesPerform : Obligations.AtomicsAndVaultAccessesPerform := by
  unfold Obligations.AtomicsAndVaultAccessesPerform
  refine ⟨?atomics, ?vault⟩
  case atomics =>
    intro s a p t pa op d b64 b c n fl s1 old new flags hk hparts hlen hofs hb hc hcan hpre
    have hold : old < 2 ^ (8 * n) := by
      unfold old
      split
      · exact s.vread_val_lt pa n
      · exact s1.readBy_val_lt _ pa n
    have hnew : atomicNew op b64 old b c = (new, flags) := by
      cases hop : op.isFloat with
      | false =>
        rw [atomicNew_integer (n := n) rfl hop hold hb hc]
        simp only [new, flags, hop, if_true]
      | true =>
        unfold new flags fl
        cases op <;> simp only [AOp.isFloat, Bool.false_eq_true] at hop <;> rfl
    have hwords : (if b64 then 2 else 1) = n / 4 := by unfold n; cases b64 <;> rfl
    obtain ⟨s', hexec, hperf⟩ : ∃ s', exec (.perform a.id 0) s = .next s' ∧ s.Performs s' a t d (n / 4) old flags
        (fun x => if a.vault = false then written (new.map (toBytes n)) pa s.ms.mem.read x else s.ms.mem.read x)
        (fun x => if a.vault = true then written (new.map (toBytes n)) pa s.ms.vault.read x else s.ms.vault.read x) := by
      cases hv : a.vault with
      | false =>
        rw [hv, if_pos rfl] at hpre
        obtain ⟨hcanp, hpoison, hready⟩ := hpre
        have hs1 : s1 = s.walked a t := if_neg (by rw [hv]; exact Bool.false_ne_true)
        have holdr : ((s.walked a t).readLast pa p.len).val = old := by unfold old; rw [hv, hlen, if_neg Bool.false_ne_true, hs1]
        have h := hcanp.atomic hk hparts hcan.1 (by rw [hlen, ← hs1]; exact hpoison) (by rw [hlen]; exact hready)
        dsimp only at h
        rw [holdr, hlen, hwords, hnew] at h
        simpa using h
      | true =>
        rw [hv, if_neg (by simp)] at hpre
        obtain ⟨hpa, hhere, hth, hlive, hopen, hclear, hord, hpoison⟩ := hpre
        have holdr : (s.vread p.ea p.len).val = old := by unfold old; rw [hv, hlen, hpa, if_pos rfl]
        have h := State.CanVault.atomic ⟨hhere, hth, hlive, hv, hparts, hopen, hclear, hord⟩ hk hcan.2 (by rw [hlen, ← hpa]; exact hpoison)
        dsimp only at h
        rw [holdr, hlen, hwords, hnew, ← hpa] at h
        simpa using h
    obtain ⟨y, hy, hwait, hctr⟩ := hperf.ends
    refine ⟨s', y, hexec, hperf.comes, hy, hwait, hctr, fun x => ?_, fun x => ?_, hperf.tags⟩
    · exact (hperf.mem x).trans (written_toBytes new n pa _ _ x)
    · exact (hperf.vault x).trans (written_toBytes new n pa _ _ x)
  case vault =>
    intro s a p t r inside hhere hth hlive hv hparts hopen hclear hofs hpos hord hturn hc frame keepTags keepVault stored words
    have hcan : s.CanVault a p t := ⟨hhere, hth, hlive, hv, hparts, hopen, hclear, hord⟩
    have hinside : ∀ w, inside w ↔ w ∈ wordsOf p.ea p.len := fun w => mem_wordsOf_part.symm
    have hframe : ∀ s', s'.ms.mem = s.ms.mem → s'.access a.id = none → frame s' := fun s' hm hg => ⟨fun x => by rw [hm], hg⟩
    have hkeep : ∀ s', s'.ms.vault = s.ms.vault → keepVault s' := fun s' hv x => by rw [hv]
    have htag : ∀ (s' : State) (b : Bool), (∀ w, s'.full w = if w ∈ wordsOf p.ea p.len then b else s.full w) →
        ∀ w, (inside w → s'.full w = b) ∧ (¬ inside w → s'.full w = s.full w) := fun s' b hf w =>
      ⟨fun hw => (hf w).trans (if_pos ((hinside w).mp hw)), fun hw => (hf w).trans (if_neg (mt (hinside w).mpr hw))⟩
    have hstored : ∀ s' bs, (∀ x, s'.ms.vault.read x = if p.ea ≤ x ∧ x < p.ea + p.len then bs.getD (x - p.ea) 0 else s.ms.vault.read x) → stored s' bs := fun _ _ => id
    refine ⟨fun d sz sx hk hp hlen hsx => ?load, fun d sz take hk hp hlen hfull => ?ldt, fun bs hk hlen => ?store, fun bs hk hlen hempty => ?stt, fun full hk => ?tagop,
      fun d sz take hk hw => ?empty, fun bs hk hw => ?full⟩
    case load =>
      obtain ⟨s', hexec, hcomes, hgone, hm, hv, ht⟩ := hcan.load hturn hk
      rw [Access.got_loadedWords_whole ((s.vread_length p.ea p.len).trans hp) hlen hsx] at hcomes
      exact ⟨s', hexec, hframe s' hm hgone, State.full_congr ht, hkeep s' hv, hcomes⟩
    case ldt =>
      obtain ⟨s', hexec, hcomes, hgone, hm, hv, ht⟩ := hcan.ldt hturn hk fun w hw => hfull w ((hinside w).mpr hw)
      rw [Access.got_loadedWords_whole ((s.vread_length p.ea p.len).trans hp) hlen (by simp), if_neg (c := false = true ∧ _) (by simp)] at hcomes
      exact ⟨s', hexec, hframe s' hm hgone, hkeep s' hv, hcomes, htag s' _ ht⟩
    case store =>
      obtain ⟨s', hexec, hkeeps, hgone, hm, ht, hv⟩ := hcan.store hturn hk hc.2
      exact ⟨s', hexec, hframe s' hm hgone, State.full_congr ht, hkeeps, hstored s' bs (hlen ▸ hv)⟩
    case stt =>
      obtain ⟨s', hexec, hkeeps, hgone, hm, ht, hv⟩ := hcan.stt hturn hk hc.2 fun w hw => hempty w ((hinside w).mpr hw)
      exact ⟨s', hexec, hframe s' hm hgone, hkeeps, hstored s' bs (hlen ▸ hv), htag s' _ ht⟩
    case tagop =>
      obtain ⟨s', hexec, hkeeps, hgone, hm, hv, ht⟩ := hcan.tagop hturn hk
      exact ⟨s', hexec, hframe s' hm hgone, hkeep s' hv, hkeeps, htag s' _ ht⟩
    case empty =>
      obtain ⟨w, hw, hfull⟩ := hw
      refine hcan.waits (by rw [hk]; rfl) ?_
      simp only [State.tagsOk, hk, Access.words_of_single hcan.parts]
      exact List.all_eq_false.mpr ⟨w, (hinside w).mp hw, by simp [hfull]⟩
    case full =>
      obtain ⟨w, hw, hfull⟩ := hw
      refine hcan.waits (by rw [hk]; rfl) ?_
      simp only [State.tagsOk, hk, Access.words_of_single hcan.parts]
      exact List.all_eq_false.mpr ⟨w, (hinside w).mp hw, by simp [hfull]⟩

end Sys2Proof.Machine

namespace Sys2Proof.Machine

/-! ## Addresses at issue (R230, R379) -/

theorem canonical_iff {va : Nat} (h : va < 2 ^ 64) : canonical va = true ↔ inSpace va := by
  simp only [canonical, bitsOf, inSpace, Bool.or_eq_true, beq_iff_eq]
  omega

theorem eaOf_toNat (x : Dword) (ofs : BitVec 19) : eaOf x.toNat ofs = (x + ofs.signExtend 64).toNat := by
  have hint : (ofs.signExtend 64).toInt = ofs.toInt := BitVec.toInt_signExtend_of_le (by decide)
  have hx := x.isLt
  have hy := (ofs.signExtend 64).isLt
  rw [eaOf, wrapInt, ← hint, BitVec.toNat_add, BitVec.toInt_eq_toNat_cond]
  split <;> omega

/-! ## Words of one thread that change it alone -/

theorem State.becomes_onThread {s : State} {t : Thread} (ht : s.thread t.id = some t) (F : Thread → Thread) (hF : ∀ x, (F x).id = x.id) :
    s.Becomes (s.onThread t.id F) t (F t) :=
  ⟨State.thread_onThread_self ht F fun x hx => (hF x).trans hx, fun _ hu => State.thread_onThread_ne s hu F fun x hx => (hF x).trans hx, rfl, fun _ => ⟨rfl, rfl⟩⟩

theorem Regs.getK_setK (r : Regs) (n : Nat) (x : Option Token) {j : Nat} (hj : j < 8) : (r.setK n x).getK j = if j = n then x else r.getK j := by
  simp only [Regs.getK, Regs.setK, hj, dite_true, Vector.getElem_setIfInBounds, eq_comm (a := n)]

section
variable {s : State} {t : Thread} {h : Gd}

theorem State.Runs.exec_fsamp {sc : Scope} (hr : s.Runs h (.fsamp h sc) t) :
    exec (.fsamp h sc) s = .next (s.onThread t.id fun x => { x with out := { x.out with fsamp := x.out.fsamp ++ [(sc, s.nextId)] } }.advance) := by
  show Host.Outcome.next (s.issue h _ _) = _
  rw [hr.issue]
  exact congrArg Host.Outcome.next (State.onThread_onThread s t.id _ _ fun _ => rfl)

theorem State.Runs.exec_fjoin {mask : BitVec 16} (hr : s.Runs h (.fjoin h mask) t) :
    exec (.fjoin h mask) s = .next (s.onThread t.id fun x => { x with out := { x.out with joins := x.out.joins ++ [(mask, s.nextId)] } }.advance) := by
  show Host.Outcome.next (s.issue h _ _) = _
  rw [hr.issue]
  exact congrArg Host.Outcome.next (State.onThread_onThread s t.id _ _ fun _ => rfl)

/-- The fence that a thread starts. -/
def State.fenceOf (s : State) (t : Thread) (sc : Scope) (scF : Bool) (cover : Cover) : Fence := ⟨s.nextId, t.id, sc, scF, cover, s.nextId, t.obs⟩

theorem State.Runs.exec_fence {k : Fin 8} {sc : Scope} {scF : Bool} {cover : Cover} (hr : s.Runs h (.fence h k sc scF cover) t) :
    exec (.fence h k sc scF cover) s = .next ((({ s with nextId := s.nextId + 1 }).onMs fun m => { m with fences := m.fences ++ [s.fenceOf t sc scF cover] }).onThread
      t.id fun x => { x with regs := x.regs.setK k.val (some (.fence s.nextId)) }.advance) := by
  show Host.Outcome.next (s.issue h _ _) = _
  rw [hr.issue]
  exact congrArg Host.Outcome.next (State.onThread_onThread _ t.id _ _ fun _ => rfl)

theorem State.Runs.exec_fwait {k : Fin 8} (hr : s.Runs h (.fwait h k) t) : exec (.fwait h k) s = .next (match t.regs.getK k.val with
    | some (.fence f) => (s.wrK t.id k.val none).waitOn t.id (.fence f)
    | _ => s.trapHere t 0x02 0 0 0) := by
  show Host.Outcome.next (s.issue h _ _) = _
  rw [hr.issue]
  rfl

theorem State.fsamp_issues {sc : Scope} (hr : s.Runs h (.fsamp h sc) t) : ∃ s', exec (.fsamp h sc) s = .next s' ∧
    s.Becomes s' t { t.advance with out := { t.out with fsamp := t.out.fsamp ++ [(sc, s.nextId)] } } :=
  ⟨_, hr.exec_fsamp, State.becomes_onThread hr.thread _ fun _ => rfl⟩

theorem State.fjoin_issues {mask : BitVec 16} (hr : s.Runs h (.fjoin h mask) t) : ∃ s', exec (.fjoin h mask) s = .next s' ∧
    s.Becomes s' t { t.advance with out := { t.out with joins := t.out.joins ++ [(mask, s.nextId)] } } :=
  ⟨_, hr.exec_fjoin, State.becomes_onThread hr.thread _ fun _ => rfl⟩

/-- R253: FENCE leaves a fresh token. -/
theorem State.fence_issues {k : Fin 8} {sc : Scope} {scF : Bool} {cover : Cover} (hr : s.Runs h (.fence h k sc scF cover) t) :
    ∃ s' y, exec (.fence h k sc scF cover) s = .next s' ∧ s'.thread t.id = some y ∧ y = { t.advance with regs := { t.regs with k := y.regs.k } } ∧
      (∀ j, j < 8 → y.regs.getK j = if j = k.val then some (.fence s.nextId) else t.regs.getK j) ∧ (∀ u, u ≠ t.id → s'.thread u = s.thread u) ∧
      s' = { s with
        nextId := s.nextId + 1
        ms := { s.ms with fences := s.ms.fences ++ [s.fenceOf t sc scF cover] }
        wk := { s.wk with threads := s'.wk.threads } } := by
  let s₁ := ({ s with nextId := s.nextId + 1 }).onMs fun m => { m with fences := m.fences ++ [s.fenceOf t sc scF cover] }
  have hb := State.becomes_onThread (s := s₁) (t := t) hr.thread (fun x => { x with regs := x.regs.setK k.val (some (.fence s.nextId)) }.advance) fun _ => rfl
  exact ⟨_, _, hr.exec_fence, hb.self, rfl, fun j hj => Regs.getK_setK t.regs k.val _ hj, hb.others, rfl⟩

/-- R254: FWAIT takes the token, and waits. -/
theorem State.fwait_issues {k : Fin 8} {f : Nat} (hr : s.Runs h (.fwait h k) t) (hf : t.regs.getK k.val = some (.fence f)) :
    ∃ s' y, exec (.fwait h k) s = .next s' ∧ s.Becomes s' t y ∧ y = { t.advanceTo (.fence f) with regs := { t.regs with k := y.regs.k } } ∧
      ∀ j, j < 8 → y.regs.getK j = if j = k.val then none else t.regs.getK j := by
  have hexec := hr.exec_fwait
  rw [hf] at hexec
  have hone : (s.wrK t.id k.val none).waitOn t.id (.fence f) = s.onThread t.id fun x => { x with regs := x.regs.setK k.val none }.advanceTo (.fence f) :=
    State.onThread_onThread s t.id _ _ fun _ => rfl
  have hb := State.becomes_onThread hr.thread (fun x => { x with regs := x.regs.setK k.val none }.advanceTo (.fence f)) fun _ => rfl
  exact ⟨_, _, hexec.trans (congrArg Host.Outcome.next hone), hb, rfl, fun j hj => Regs.getK_setK t.regs k.val none hj⟩

theorem State.fwait_traps {k : Fin 8} (hr : s.Runs h (.fwait h k) t) (hf : ∀ f, t.regs.getK k.val ≠ some (.fence f)) :
    exec (.fwait h k) s = .next (s.trapHere t 0x02 0 0 0) := by
  rw [hr.exec_fwait]
  split
  next f hk => exact (hf f hk).elim
  next => rfl

/-! ## Prefetches (R256) -/

theorem State.logFull_of_room (hroom : s.logRoom t) : s.logFull t.place.core = false := decide_eq_false (Nat.not_le.mpr hroom)

/-- Caches, views and translations may differ; no thread, access or byte does. -/
structure State.Caches (s s' : State) : Prop where
  wk : s'.wk = s.wk
  accs : s'.ms.accs = s.ms.accs
  mem : s'.ms.mem = s.ms.mem
  vault : s'.ms.vault = s.ms.vault

theorem State.Caches.trans {s₁ s₂ : State} (h₁ : s.Caches s₁) (h₂ : s₁.Caches s₂) : s.Caches s₂ :=
  ⟨h₂.wk.trans h₁.wk, h₂.accs.trans h₁.accs, h₂.mem.trans h₁.mem, h₂.vault.trans h₁.vault⟩

theorem State.Caches.refl (s : State) : s.Caches s := ⟨rfl, rfl, rfl, rfl⟩

theorem State.LooksUp.caches {s' : State} (hlook : s.LooksUp s') : s.Caches s' := ⟨hlook.wk, hlook.accs, hlook.mem, hlook.vault⟩

theorem State.caches_l2Leaves (s : State) (die blk : Nat) : s.Caches (s.l2Leaves die blk) := by
  unfold State.l2Leaves
  split
  · exact .refl s
  · dsimp only
    split <;> exact ⟨rfl, rfl, rfl, rfl⟩

theorem State.caches_l2Fill (s : State) (die line : Nat) (ways : List Nat) : s.Caches (s.l2Fill die line ways) := by
  unfold State.l2Fill
  split
  · exact ⟨rfl, rfl, rfl, rfl⟩
  · dsimp only
    split
    · exact ⟨rfl, rfl, rfl, rfl⟩
    · split
      · exact .refl s
      next v _ =>
        have hleave := (s.caches_l2Leaves die (2 * v.line)).trans (State.caches_l2Leaves _ die (2 * v.line + 1))
        exact hleave.trans ⟨rfl, rfl, rfl, rfl⟩

theorem State.caches_foldl {α : Type} {f : State → α → State} (hf : ∀ (s : State) (x : α), s.Caches (f s x)) (l : List α) (s : State) : s.Caches (l.foldl f s) := by
  induction l generalizing s with
  | nil => exact .refl s
  | cons x l ih => exact (hf s x).trans (ih _)

theorem State.caches_prefetch (s : State) (t : Thread) (tgt : PrefTgt) (ea : Nat) : s.Caches (s.prefetch t tgt ea) := by
  have hfill := (s.looksUp_fillTlb t.xl ea).caches
  have hask : ∀ (s' : State) (b : Nat), s'.Caches (if s'.asking t.place.core b || (s'.l1Of t.place.core b).any (fun x => tgt == .l1 || x.takesWrites) then s'
      else s'.ask t.place.core b (tgt == .excl)) := fun s' b => by
    split
    · exact .refl s'
    · exact ⟨rfl, rfl, rfl, rfl⟩
  unfold State.prefetch
  split
  · exact hfill
  · dsimp only
    split
    · exact hfill
    · split
      · exact hfill.trans (State.caches_l2Fill _ _ _ _)
      · exact hfill
      · exact hfill.trans (State.caches_foldl hask _ _)

/-- The state in which a prefetch of a good address has been asked for. -/
theorem State.Runs.exec_pref {a : Opnd} {ofs : BitVec 19} {tgt : PrefTgt} (hr : s.Runs h (.pref h a ofs tgt) t) (hroom : s.logRoom t)
    (hea : inSpace (effective s t a ofs).toNat) : exec (.pref h a ofs tgt) s =
      .next ((if tgt == .smp then s.place t false ⟨15, .core, false, false, false⟩ .pref .none 0 [APart.new 0 1 (effective s t a ofs).toNat]
        else s.prefetch t tgt (effective s t a ofs).toNat).advance t.id) := by
  have hready : s.memReady .none false t = true := by simp [State.memReady, Counters.get, State.logFull_of_room hroom]
  have hcan : canonical (eaOf (s.rd2 t a).toNat ofs) = true := by rw [eaOf_toNat]; exact (canonical_iff (BitVec.isLt _)).mpr hea
  show Host.Outcome.next (s.issue h _ _) = _
  rw [State.issue_alone hr.front (hr.fate _ rfl rfl rfl hready), List.foldl_cons, List.foldl_nil]
  simp only [hcan, Bool.not_true, Bool.false_eq_true, if_false]
  rw [eaOf_toNat]
  rfl

theorem State.pref_issues {a : Opnd} {ofs : BitVec 19} {tgt : PrefTgt} (hr : s.Runs h (.pref h a ofs tgt) t) (hroom : s.logRoom t)
    (hea : inSpace (effective s t a ofs).toNat) : ∃ s', exec (.pref h a ofs tgt) s = .next s' ∧
      if tgt = .smp then
        s.Places s' t ⟨s.nextId, t.id, t.place.core, false, 15, .core, false, false, false, .pref, .none, t.pos, 0,
          [⟨0, 1, (effective s t a ofs).toNat, false, 0, none, false, none, none⟩], List.replicate 1 0, false, false, none, none⟩ .z 0 t.advance
      else s'.thread t.id = some t.advance ∧ (∀ u, u ≠ t.id → s'.thread u = s.thread u) ∧ (∀ g, s'.group g = s.group g) ∧
        s'.ms.accs = s.ms.accs ∧ s.KeepsBytes s' := by
  refine ⟨_, hr.exec_pref hroom hea, ?_⟩
  by_cases htgt : tgt = .smp
  · rw [if_pos htgt, if_pos (by rw [htgt]; rfl)]
    exact ⟨State.hold_awaits (s1 := { s with nextId := s.nextId + 1, ms := _ }) hr.thread rfl rfl s.nextId .z 0 (fun x => x) Thread.advance (fun _ => rfl) (fun _ => rfl) rfl
      (fun _ _ => rfl) fun _ => rfl, rfl⟩
  · rw [if_neg htgt, if_neg (by simpa using htgt)]
    have hc := s.caches_prefetch t tgt (effective s t a ofs).toNat
    have hb := State.becomes_onThread (s := s.prefetch t tgt (effective s t a ofs).toNat) ((State.thread_eq (congrArg _ hc.wk) _).trans hr.thread) Thread.advance fun _ => rfl
    refine ⟨hb.self, fun u hu => (hb.others u hu).trans (State.thread_eq (congrArg _ hc.wk) u), fun g => State.group_eq (congrArg WorkState.groups hc.wk) g, hc.accs,
      fun x => ⟨congrArg (Memory.read · x) hc.mem, congrArg (Memory.read · x) hc.vault⟩⟩

end

end Sys2Proof.Machine

namespace Sys2Proof.Machine

/-! ## Samples at issue (R219, R250, R452; log 63) -/

theorem State.fillLine_caches (s : State) (w : Who) (line : Nat) (touch : Bool) : s.Caches (s.fillLine w line touch) ∧ (s.fillLine w line touch).nextId = s.nextId := by
  have hobs := s.observes_fillLine w line touch
  refine ⟨⟨?_, hobs.accs, hobs.mem, hobs.vault⟩, hobs.nextId⟩
  unfold State.fillLine
  dsimp only
  split <;> split
  · rfl
  · split
    · rfl
    · split <;> rfl
  · rfl
  · split
    · rfl
    · split <;> rfl

/-- A sampler cache that is full has a line for a sampler read to take the place of. -/
theorem State.smpVictim_of_full {s : State} {c : CoreId} (h : 512 ≤ (s.ms.smpLines.filter fun l => l.1 == c).length) :
    ∃ l ∈ s.ms.smpLines, s.smpVictim c true = some l := by
  unfold State.smpVictim
  cases hfree : s.ms.smpLines.find? fun l => l.1 == c && !s.ms.smpUsed.contains l with
  | some l => exact ⟨l, List.mem_of_find?_eq_some hfree, rfl⟩
  | none =>
    rw [if_pos rfl]
    cases hany : s.ms.smpLines.find? fun l => l.1 == c with
    | some l => exact ⟨l, List.mem_of_find?_eq_some hany, rfl⟩
    | none =>
      rw [List.filter_eq_nil_iff.mpr (List.find?_eq_none.mp hany)] at h
      simp at h

/-- A read through the sampler cache leaves its line held and touched. -/
theorem State.fillLine_touched (s : State) (w : Who) (line : Nat) :
    (w.core, line) ∈ (s.fillLine w line true).ms.smpLines ∧ (w.core, line) ∈ (s.fillLine w line true).ms.smpUsed := by
  let s₁ := if s.ms.smpLines.contains (w.core, line) then s
    else if !decide (512 ≤ (s.ms.smpLines.filter fun l => l.1 == w.core).length) then s.putLine w line
    else match s.smpVictim w.core true with
      | some l => (s.dropLine l).putLine w line
      | none => s
  have hs₁ : s.fillLine w line true =
      if true && !s.ms.smpUsed.contains (w.core, line) then s₁.onMs fun m => { m with smpUsed := m.smpUsed ++ [(w.core, line)] } else s₁ := rfl
  have hline : (w.core, line) ∈ s₁.ms.smpLines ∧ ((w.core, line) ∈ s.ms.smpUsed → (w.core, line) ∈ s₁.ms.smpUsed) := by
    unfold s₁
    split
    next hheld => exact ⟨by simpa using hheld, id⟩
    next hheld =>
      split
      next => exact ⟨List.mem_append_right _ (List.mem_singleton.mpr rfl), id⟩
      next hfull =>
        obtain ⟨l, hl, hv⟩ := s.smpVictim_of_full (c := w.core) (by simpa using hfull)
        rw [hv]
        refine ⟨List.mem_append_right _ (List.mem_singleton.mpr rfl), fun hu => List.mem_filter.mpr ⟨hu, ?_⟩⟩
        rw [bne_iff_ne]
        rintro rfl
        exact hheld (by simpa using hl)
  rw [hs₁]
  by_cases hu : (w.core, line) ∈ s.ms.smpUsed
  · rw [if_neg (by simpa using hu)]
    exact ⟨hline.1, hline.2 hu⟩
  · rw [if_pos (by simpa using hu)]
    exact ⟨hline.1, List.mem_append_right _ (List.mem_singleton.mpr rfl)⟩

theorem State.onThread_wk_congr {s s' : State} (h : s'.wk = s.wk) (k : Nat) (f : Thread → Thread) : (s'.onThread k f).wk = (s.onThread k f).wk :=
  congrArg (fun w => (({ s with wk := w } : State).onThread k f).wk) h

/-- What a state awaits is a matter of its threads and groups. -/
theorem State.Awaits.of_wk {s s₁ s₂ : State} {t x : Thread} {op n : Nat} {d : Opnd} (h : s.Awaits s₁ t op d n x) (hw : s₂.wk = s₁.wk) : s.Awaits s₂ t op d n x :=
  ⟨(State.thread_eq (congrArg _ hw) _).trans h.self, fun u hu => (State.thread_eq (congrArg _ hw) u).trans (h.others u hu),
    fun g => (State.group_eq (congrArg WorkState.groups hw) g).trans (h.groups g)⟩

section
variable {s : State} {t : Thread} {h : Gd}

theorem State.caches_smpFill (s : State) (t : Thread) (a : Nat) : s.Caches (s.smpFill t a) ∧ (s.smpFill t a).nextId = s.nextId := by
  unfold State.smpFill
  split
  · exact ⟨.refl s, rfl⟩
  · have hfill := s.looksUp_fillTlb t.xl a
    obtain ⟨hc, hn⟩ := (s.fillTlb t.xl a).fillLine_caches t.who (_ / 128) true
    exact ⟨hfill.caches.trans hc, hn.trans hfill.nextId⟩

theorem State.smpFill_touches {a pa : Nat} (ha : a % 32 = 0) (hpa : s.descAt t.xl a = some pa) :
    (t.place.core, pa / 128) ∈ (s.smpFill t a).ms.smpLines ∧ (t.place.core, pa / 128) ∈ (s.smpFill t a).ms.smpUsed := by
  rw [State.smpFill, if_pos ha, hpa]
  exact (s.fillTlb t.xl a).fillLine_touched t.who (pa / 128)

/-- A descriptor at a misaligned address is none. -/
theorem State.smpCheck_ok {d : Opnd} {a n : Nat} (hc : s.smpCheck t d a = .ok n) : a % 32 = 0 := by
  unfold State.smpCheck at hc
  split at hc
  · cases hc
  next ha => simpa using ha

variable {d a b : Opnd} {lin norm : Bool} {wrap : WrapMode} {stream : Fin 16}

theorem State.memReady_samp (hroom : s.logRoom t) (hl : t.ctr.loads < 63) (hf : t.out.fsamp = []) : s.memReady .load true t = true := by
  simp [State.memReady, Counters.get, State.logFull_of_room hroom, hl, hf]

/-- The state in which a sample has entered the machine. -/
def State.smpPlaced (s : State) (t : Thread) (d a b : Opnd) (lin : Bool) (wrap : WrapMode) (norm : Bool) (stream : Fin 16) (n : Nat) : State :=
  (s.place t false ⟨stream.val, .core, false, false, false⟩ (.smp d (s.rdReg t b 0) (s.rdReg t b 1) lin wrap norm (s.rd2 t a).toNat) .load d.byte
    [APart.new 0 32 (s.rd2 t a).toNat]).hold t s.nextId d n

theorem State.smpPlaced_awaits (ht : s.thread t.id = some t) (d a b : Opnd) (lin : Bool) (wrap : WrapMode) (norm : Bool) (stream : Fin 16) (n : Nat) :
    s.Awaits ((s.smpPlaced t d a b lin wrap norm stream n).onThread t.id Thread.advance) t s.nextId d n
      { t.advance with ctr := { t.ctr with loads := t.ctr.loads + 1 } } :=
  State.hold_awaits (s1 := { s with nextId := s.nextId + 1, ms := _ }) ht rfl rfl s.nextId d n (fun x => { x with ctr := x.ctr.up .load }) Thread.advance
    (fun _ => rfl) (fun _ => rfl) rfl (fun _ _ => rfl) fun _ => rfl

theorem State.smpPlaced_rest (s : State) (t : Thread) (d a b : Opnd) (lin : Bool) (wrap : WrapMode) (norm : Bool) (stream : Fin 16) (n : Nat) :
    s.smpPlaced t d a b lin wrap norm stream n = { s with
      nextId := s.nextId + 1
      ms := { s.ms with accs := s.ms.accs ++ [⟨s.nextId, t.id, t.place.core, false, stream.val, .core, false, false, false,
        .smp d (s.rdReg t b 0) (s.rdReg t b 1) lin wrap norm (s.rd2 t a).toNat, .load, t.pos, d.byte,
        [⟨0, 32, (s.rd2 t a).toNat, false, 0, none, false, none, none⟩], List.replicate 32 0, false, false, none, none⟩] }
      wk := { s.wk with
        threads := (s.smpPlaced t d a b lin wrap norm stream n).wk.threads
        groups := (s.smpPlaced t d a b lin wrap norm stream n).wk.groups } } := by
  unfold State.smpPlaced
  cases d <;> rfl

theorem State.Runs.exec_smp (hr : s.Runs h (.smp h d a b lin wrap norm stream) t) (hready : s.smpReady d a stream.val t = true)
    (ha : inSpace (s.rd2 t a).toNat) : exec (.smp h d a b lin wrap norm stream) s = .next (match s.smpCheck t d (s.rd2 t a).toNat with
      | .error c => (s.smpFill t (s.rd2 t a).toNat).trapHere t c 0 0 0
      | .ok n => ((s.smpPlaced t d a b lin wrap norm stream n).smpFill t (s.rd2 t a).toNat).advance t.id) := by
  have hcan : canonical (s.rd2 t a).toNat = true := (canonical_iff (BitVec.isLt _)).mpr ha
  show Host.Outcome.next (s.issue h _ _) = _
  rw [State.issue_alone hr.front (hr.fate _ rfl rfl rfl hready), List.foldl_cons, List.foldl_nil]
  simp only [hcan, Bool.not_true, Bool.false_eq_true, if_false, destOf_alone]
  rfl

theorem State.smpReady_iff {d a : Opnd} {stream : Nat} (hmem : s.memReady .load true t = true) (ha : canonical (s.rd2 t a).toNat = true) :
    s.smpReady d a stream t = true ↔ (s.rd2 t a).toNat % 32 ≠ 0 ∨
      ((s.descAt t.xl (s.rd2 t a).toNat = none ∨ s.ordered (smpAccess t s.nextId stream .pref 0 (s.rd2 t a).toNat) = true) ∧
        ∀ n, s.smpCheck t d (s.rd2 t a).toNat = .ok n → s.pending t (spanRefs (d, n)) = false) := by
  simp only [State.smpReady, hmem, ha]
  cases s.smpCheck t d (s.rd2 t a).toNat <;> simp

/-- R250, log 63: a sample whose descriptor stands enters the machine, and fills the descriptor's line. -/
theorem State.smp_issues {n : Nat} (hr : s.Runs h (.smp h d a b lin wrap norm stream) t) (hroom : s.logRoom t) (hl : t.ctr.loads < 63) (hf : t.out.fsamp = [])
    (ha : inSpace (s.rd2 t a).toNat) (hcheck : s.smpCheck t d (s.rd2 t a).toNat = .ok n) (hpend : s.pending t (spanRefs (d, n)) = false)
    (hord : s.descAt t.xl (s.rd2 t a).toNat = none ∨ s.ordered (smpAccess t s.nextId stream.val .pref 0 (s.rd2 t a).toNat) = true) :
    ∃ s', exec (.smp h d a b lin wrap norm stream) s = .next s' ∧
      s.Awaits s' t s.nextId d n { t.advance with ctr := { t.ctr with loads := t.ctr.loads + 1 } } ∧ s'.nextId = s.nextId + 1 ∧
      s'.ms.accs = s.ms.accs ++ [⟨s.nextId, t.id, t.place.core, false, stream.val, .core, false, false, false,
          .smp d (s.rdReg t b 0) (s.rdReg t b 1) lin wrap norm (s.rd2 t a).toNat, .load, t.pos, d.byte,
          [⟨0, 32, (s.rd2 t a).toNat, false, 0, none, false, none, none⟩], List.replicate 32 0, false, false, none, none⟩] ∧ s.KeepsBytes s' ∧
      ∀ pa, s.descAt t.xl (s.rd2 t a).toNat = some pa → (t.place.core, pa / 128) ∈ s'.ms.smpLines ∧ (t.place.core, pa / 128) ∈ s'.ms.smpUsed := by
  have hready := (State.smpReady_iff (d := d) (stream := stream.val) (State.memReady_samp hroom hl hf) ((canonical_iff (BitVec.isLt _)).mpr ha)).mpr
    (.inr ⟨hord, fun m hm => by rw [hcheck] at hm; exact Except.ok.inj hm ▸ hpend⟩)
  have hexec := hr.exec_smp hready ha
  rw [hcheck] at hexec
  let s₁ := s.smpPlaced t d a b lin wrap norm stream n
  have hrest : s₁ = _ := s.smpPlaced_rest t d a b lin wrap norm stream n
  obtain ⟨hfill, hnext⟩ := s₁.caches_smpFill t (s.rd2 t a).toNat
  have hdesc : s₁.descAt t.xl (s.rd2 t a).toNat = s.descAt t.xl (s.rd2 t a).toNat := by rw [hrest]; rfl
  refine ⟨_, hexec, (State.smpPlaced_awaits hr.thread d a b lin wrap norm stream n).of_wk ?_, hnext.trans (by rw [hrest]), hfill.accs.trans (by rw [hrest]),
    fun x => ⟨congrArg (Memory.read · x) (hfill.mem.trans (by rw [hrest])), congrArg (Memory.read · x) (hfill.vault.trans (by rw [hrest]))⟩, fun pa hpa => ?_⟩
  · exact State.onThread_wk_congr hfill.wk t.id Thread.advance
  · exact State.smpFill_touches (s := s₁) (State.smpCheck_ok hcheck) (hdesc.trans hpa)

/-- R250: a bad descriptor traps at the SMP. -/
theorem State.smp_traps {c : Nat} (hr : s.Runs h (.smp h d a b lin wrap norm stream) t) (hroom : s.logRoom t) (hl : t.ctr.loads < 63) (hf : t.out.fsamp = [])
    (ha : inSpace (s.rd2 t a).toNat) (hcheck : s.smpCheck t d (s.rd2 t a).toNat = .error c)
    (hord : s.descAt t.xl (s.rd2 t a).toNat = none ∨ (s.rd2 t a).toNat % 32 ≠ 0 ∨
      s.ordered (smpAccess t s.nextId stream.val .pref 0 (s.rd2 t a).toNat) = true) :
    exec (.smp h d a b lin wrap norm stream) s = .next ((s.smpFill t (s.rd2 t a).toNat).trapHere t c 0 0 0) := by
  have hready := (State.smpReady_iff (d := d) (stream := stream.val) (State.memReady_samp hroom hl hf) ((canonical_iff (BitVec.isLt _)).mpr ha)).mpr <| by
    by_cases hal : (s.rd2 t a).toNat % 32 = 0
    · exact .inr ⟨hord.imp_right fun h => h.resolve_left (not_not.mpr hal), fun m hm => by rw [hcheck] at hm; cases hm⟩
    · exact .inl hal
  rw [hr.exec_smp hready ha, hcheck]

end

/-- Settles O27: the words of one thread, each by the update that it makes; a sample is the one that waits for its descriptor. -/
theorem samplerAndFencesIssue : Obligations.SamplerAndFencesIssue := by
  unfold Obligations.SamplerAndFencesIssue
  intro s t h d a b lin norm scF wrap stream sc k cover mask ofs tgt E A
  exact ⟨fun n hr hroom hl hf ha hc hp ho => State.smp_issues hr hroom hl hf ha hc hp ho, fun c hr hroom hl hf ha hc ho => State.smp_traps hr hroom hl hf ha hc ho,
    State.fsamp_issues, State.fjoin_issues, State.fence_issues, fun f => State.fwait_issues, State.fwait_traps, State.pref_issues⟩

end Sys2Proof.Machine
